-- ==== Sys2Proof/Word.lean ====
section
/-! DEFINITION. The words and numbers the manual counts in: bytes, 16-bit memory words, and the numbers of segments, lines, cells and pins (00_scope.md, Conventions). -/

namespace Sys2Proof

/-- A memory byte. -/
abbrev Byte := BitVec 8

/-- A memory word, 16 bits, little-endian (00_scope.md, Memory). -/
abbrev Word := BitVec 16

/-- A segment number, 0 to 95. -/
abbrev SegNo := Fin 96

/-- A line number, 0 to 23. -/
abbrev LineNo := Fin 24

/-- A pin of one segment, numbered in cell-then-dot order: cell k dot d is pin 8k + (d - 1) (R18). -/
abbrev Pin := Fin 80

/-- A set of pins of one segment: bit p is set when pin p is in the set. -/
abbrev PinSet := BitVec 80

/-- A set of cells of one segment: bit k is set when cell k is in the set. -/
abbrev CellSet := BitVec 10

end Sys2Proof
end

