-- ==== Sys2Proof/Syntax.lean ====
section
/-! DEFINITION. The commands and events of the part, one constructor for each row of spec/opcode_table.json, with their operands. -/

namespace Sys2Proof

/-- The two page buffers (R4). -/
inductive Buffer where
  | a
  | b
  deriving DecidableEq, Repr

/-- What a host write carries: 16 data bits, two byte enables, two parity bits (00_scope.md, Signals; R1, R2). -/
structure HostWrite where
  data  : Word
  enLow : Bool
  enHigh : Bool
  parLow : Bool
  parHigh : Bool
  deriving DecidableEq, Repr

/-- A host access: a write, or a read with its byte enables (R1, R2). -/
inductive HostAccess where
  | write (w : HostWrite)
  | read (enLow enHigh : Bool)
  deriving DecidableEq, Repr

/-- A write of the command word that enables the low byte, less that byte: the command's row gives it (R162). -/
structure CommandWrite where
  high   : Byte
  enHigh : Bool
  parLow : Bool
  parHigh : Bool
  deriving DecidableEq, Repr

/-- The words of the tactile area the part owns (R3, area map). `ring k j` is word j of the record in slot k. -/
inductive PartWord where
  | senseImage (cell : Fin 960)
  | mirror (seg : SegNo)
  | result
  | eventPending
  | parityDetail
  | claimDetail
  | ownedDetail
  | engineStatus
  | descriptorDetail
  | ringProducer
  | ring (slot : Fin 64) (word : Fin 4)
  deriving DecidableEq, Repr

/-- One constructor for each row of the table of operations and events. A host address is a word address, half the byte address
of the access: "A host access is at most one 16-bit word at an even address" (R1). -/
inductive Instr where
  /-- POWER_ON_RESET, with the straps as a number (R1, R16). -/
  | powerOnReset (strap : BitVec 4)
  /-- HOST_WRITE_FORWARDED: the row of R2, "Bus Pass forwards unchanged every host access", and so of a read too (log 21). -/
  | hostWriteForwarded (addr : BitVec 22) (access : HostAccess)
  /-- PAGE_BUFFER_WRITE: word j of the buffer holds cells 2j and 2j + 1 (R4). -/
  | pageBufferWrite (buf : Buffer) (word : Fin 480) (w : HostWrite)
  /-- PART_OWNED_WORD_WRITE (R6). -/
  | partOwnedWordWrite (p : PartWord) (w : HostWrite)
  /-- EVENT_SET_WORD_WRITE (R7, R188). -/
  | eventSetWordWrite (w : HostWrite)
  /-- EVENT_CLEAR_WORD_WRITE (R7, R188). -/
  | eventClearWordWrite (w : HostWrite)
  /-- ARGUMENT_WORD_WRITE (R5). -/
  | argumentWordWrite (w : HostWrite)
  /-- EVENT_ENABLE_WORD_WRITE (R5). -/
  | eventEnableWordWrite (w : HostWrite)
  /-- RING_CONSUMER_COUNT_WRITE (R5, R193). -/
  | ringConsumerCountWrite (w : HostWrite)
  /-- CLAIM_WORD_READ (R10, R146). -/
  | claimWordRead (line : LineNo) (enLow enHigh : Bool)
  /-- CLAIM_WORD_WRITE (R8, R147 to R149). -/
  | claimWordWrite (line : LineNo) (w : HostWrite)
  /-- START, code 1 (R165). -/
  | start (c : CommandWrite)
  /-- STOP, code 2 (R171). -/
  | stop (c : CommandWrite)
  /-- PAUSE, code 3 (R173). -/
  | pause (c : CommandWrite)
  /-- RESUME, code 4 (R174). -/
  | resume (c : CommandWrite)
  /-- SHOW, code 5 (R176). -/
  | showBuffer (c : CommandWrite)
  /-- HOLD, code 6 (R177). -/
  | hold (c : CommandWrite)
  /-- RELEASE, code 7 (R178). -/
  | release (c : CommandWrite)
  /-- DISCARD, code 8 (R179). -/
  | discard (c : CommandWrite)
  /-- PROMOTE, code 9 (R180). -/
  | promote (c : CommandWrite)
  /-- SENSE, code 10 (R181). -/
  | sense (c : CommandWrite)
  /-- CLEAR_FAULTS, code 11 (R182). -/
  | clearFaults (c : CommandWrite)
  /-- BADCMD: a command write whose code names no command (R162). -/
  | badcmd (code : Byte) (c : CommandWrite)
  /-- POST_WRITE (R12). -/
  | postWrite
  /-- DESCRIPTOR_READ_END (R166). -/
  | descriptorReadEnd
  /-- CAPTURE_READ_END (R66). -/
  | captureReadEnd
  /-- DRIVE_TIMER_EXPIRY (R89). -/
  | driveTimerExpiry
  /-- SETTLE_TIMER_EXPIRY (R90). -/
  | settleTimerExpiry
  /-- RECHARGE_TIMER_EXPIRY (R91). -/
  | rechargeTimerExpiry
  /-- CONVERSION_END, with the value converted, 0 to 1,023 (R108). -/
  | conversionEnd (value : BitVec 10)
  /-- SUPPLY_OK_RISE (R102). -/
  | supplyOkRise
  /-- SUPPLY_OK_FALL (R103, R104). -/
  | supplyOkFall
  /-- REARM_TIMER_EXPIRY (R102). -/
  | rearmTimerExpiry
  /-- TOUCH_INPUT_CHANGE: TOUCHi takes the level given (R133, R134). -/
  | touchInputChange (line : LineNo) (high : Bool)
  /-- GUARD_TIMER_EXPIRY (R134). -/
  | guardTimerExpiry (line : LineNo)
  /-- HOLD_OFF_TIMER_EXPIRY (R136). -/
  | holdOffTimerExpiry (line : LineNo)
  /-- CLAIM_WARN_POINT (R150). -/
  | claimWarnPoint (line : LineNo)
  /-- CLAIM_EXPIRY (R151). -/
  | claimExpiry (line : LineNo)
  /-- LAG_WARN_POINT (R184). -/
  | lagWarnPoint
  /-- LAG_LIMIT_POINT (R184). -/
  | lagLimitPoint
  /-- DURATION_TIMER_EXPIRY (R196). -/
  | durationTimerExpiry
  /-- PERIOD_END (R196). -/
  | periodEnd
  deriving DecidableEq, Repr

end Sys2Proof
end

