-- ==== Sys2Proof/Config.lean ====
section
/-! DEFINITION. What is fixed for the machine: the constant lengths, bounds and codes the manual states. Three points on which rules of the manual contradict each other are left open: opaque constants, of which nothing in Lean can tell the value. -/

namespace Sys2Proof.Config

/-- The charge one stroke may draw, in units (00_scope.md, Budget; R62). -/
def budget : Nat := 240

/-- The most members a stroke record may hold (R62). -/
def maxMembers : Nat := 4

/-- The most pins a segment's fault list may hold (R37). -/
def maxFaults : Nat := 4

/-- Slots of the fault ring (R191). -/
def ringSlots : Nat := 64

/-- The fixed length of the settle timer, ms (R89). -/
def settleMs : Nat := 2

/-- The fixed length of the rearm timer, ms (R101). -/
def rearmMs : Nat := 50

/-- The recharge length while the running copy holds no accepted descriptor, ms (R91). -/
def defaultRechargeMs : Nat := 100

/-- The duration of the page-ready tone, ms (R196). -/
def pageToneMs : Nat := 150

/-- The duration of the fault tone, ms (R196). -/
def faultToneMs : Nat := 500

/-- Bytes of the tactile area (R1). -/
def areaBytes : Nat := 0x2000

/-- DESIGN CHOICE (log 1): what a byte of memory that nothing has written reads as. "Memory contents ... are whatever memory holds" (R16).
Unsafe. -/
def blankByte : Byte := 0

/-- DESIGN CHOICE (log 1): the parity bit of a byte that nothing has written, good odd parity for `blankByte`. Unsafe. -/
def blankParity : Bool := true

/-- FREE (log 26): where a capture's end leaves a CLEAN segment with changes, or without a target, true for a part that keeps R41, by which
it "leaves CLEAN at the first event that would break this rule", and false for one that keeps R74, by which it stays CLEAN. No value is
given, and every statement holds for both. -/
opaque captureGivesWay : Bool

/-- FREE (log 29): for a host write in OFF to a part-owned word with a pending post, true for a part that keeps R13, by which the write waits
and "the host's value is the one memory keeps", and false for one that keeps R6, by which the post "is written after the host's write". No
value is given, and every statement holds for both. -/
opaque offWriteWaits : Bool

/-- FREE (log 30): for a queued segment that a capture's end makes a MEMBER and the recheck drops in the same event, true for a part that
keeps R61, by which it "does not leave and rejoin" and "keeps its place", and false for one that keeps R50, R51 and R85, by which it "rejoins
the queue at the head" in one head group with the other dropped members. No value is given, and every statement holds for both. -/
opaque droppedKeepsPlace : Bool

end Sys2Proof.Config
end

