-- ==== Sys2Proof/Machine/State.lean ====
section
/-! DEFINITION. The state of the part, block by block, as plain data, and the state after power-on reset. The blocks are those of 00_scope.md, Blocks; each structure's docstring names the rule that gives its fields. -/

namespace Sys2Proof.Machine

/-! ### Page memory -/

/-- The page memory behind the part: the bytes and their parity bits, each a list of address and value with addresses strictly
rising and no entry equal to what an unlisted address reads as (log 1). Parity is held as stored, bad parity included (R2). -/
structure Memory where
  bytes  : List Host.Cell
  parity : List (Nat × Bool)
  deriving DecidableEq, Repr

/-! ### Input pins -/

/-- The levels of the input pins that the part judges as levels: SUPPLY_OK (R101) and TOUCH0 to TOUCH23 (R130). -/
structure Pins where
  supplyOk : Bool
  touch    : Vector Bool 24
  deriving DecidableEq, Repr

/-! ### Bus Pass (R1, R5, R9, R11) -/

/-- A pending write: an even byte offset within the tactile area and a value (R11). -/
structure Post where
  offset : Nat
  value  : Word
  deriving DecidableEq, Repr

/-- Who was served last at the memory port (R9). -/
inductive Requester where
  | host
  | part
  deriving DecidableEq, Repr

/-- Which of the part's two sorts of access was served last (R9). -/
inductive PartTurn where
  | read
  | post
  deriving DecidableEq, Repr

/-- The memory-port arbiter's memory (R9). `abandoned` says that an internal read was asked for when STOP was taken, so that it
may still finish at the port. -/
structure Arbiter where
  last      : Option Requester
  partLast  : Option PartTurn
  abandoned : Bool
  deriving DecidableEq, Repr

/-- What a host read returned: for each byte it enabled, the byte and its parity bit (R2). -/
structure HostRead where
  low  : Option (Byte × Bool)
  high : Option (Byte × Bool)
  deriving DecidableEq, Repr

/-- Bus Pass: the sampled straps, the post list (oldest first), the argument latch, the enable copy, the arbiter, and the data
of the last host read. -/
structure BusPass where
  strap    : BitVec 4
  posts    : List Post
  argument : Word
  enable   : Word
  arbiter  : Arbiter
  hostRead : Option HostRead
  deriving DecidableEq, Repr

/-! ### Segment Table (R19) -/

/-- The nine segment states (R20). -/
inductive SegState where
  | clean
  | stale
  | unsure
  | capturing
  | member
  | moving
  | verifying
  | sensing
  | faulted
  deriving DecidableEq, Repr

/-- What the part believes of the 80 pins: a pin in neither set is UNKNOWN (R23). -/
structure Shadow where
  up   : PinSet
  down : PinSet
  deriving DecidableEq, Repr

/-- The attempt count of a retry entry: 1 or 2 (R36). -/
inductive Attempts where
  | one
  | two
  deriving DecidableEq, Repr

/-- A retry entry (R36). -/
structure RetryEntry where
  pin   : Pin
  count : Attempts
  deriving DecidableEq, Repr

/-- The kinds of a pin fault (R37). -/
inductive FaultKind where
  | stuckUp
  | stuckDown
  | midway
  deriving DecidableEq, Repr

/-- A fault list entry (R37). -/
structure FaultEntry where
  pin  : Pin
  kind : FaultKind
  deriving DecidableEq, Repr

/-- A segment record (R19). A pin of `target` is targeted UP when its bit is set. -/
structure Segment where
  state        : SegState
  dirty        : Bool
  held         : Bool
  suspectA     : CellSet
  suspectB     : CellSet
  target       : Option PinSet
  shadow       : Shadow
  retry        : List RetryEntry
  faults       : List FaultEntry
  discardAfter : Bool
  deriving DecidableEq, Repr

/-! ### Refresh Queue (R47, R56) -/

/-- The refresh queue: its order is `ahead ++ behind`. While a walk is under way (`mark`) the walk mark stands between the two;
otherwise `ahead` is empty. -/
structure Queue where
  ahead  : List SegNo
  behind : List SegNo
  mark   : Bool
  deriving DecidableEq, Repr

/-! ### Assembler (R62, R65) -/

/-- The buffer the display follows (00_scope.md, Shown buffer; R175). -/
inductive Shown where
  | a
  | b
  | none
  deriving DecidableEq, Repr

/-- A member of a stroke record; its cost is computed from its sets (R26, R62). -/
structure Member where
  seg     : SegNo
  raise   : PinSet
  lower   : PinSet
  touched : Bool
  deriving DecidableEq, Repr

/-- The capture under way: its segment, the buffer recorded at its start, the words read so far, whether a read was bad, and
whether the segment was forgotten meanwhile (R65, R66, R74). -/
structure Capture where
  seg       : SegNo
  buffer    : Shown
  words     : List Word
  badRead   : Bool
  forgotten : Bool
  deriving DecidableEq, Repr

/-- Phase of the Assembler's record (R62). -/
inductive AssemblyPhase where
  | assembling
  | armed
  deriving DecidableEq, Repr

/-- The Assembler's stroke record, with the segments its walk has captured so far (R56) and the capture under way. -/
structure Assembly where
  phase    : AssemblyPhase
  members  : List Member
  captured : List SegNo
  capture  : Option Capture
  deriving DecidableEq, Repr

/-! ### Stroke Unit (R83) and Supply Gate (R101) -/

/-- A timer: idle, or running with the milliseconds counted and the length it was loaded with. -/
inductive Timer where
  | idle
  | running (elapsed length : Nat)
  deriving DecidableEq, Repr

/-- Phase of the driven stroke (R83). -/
inductive StrokePhase where
  | drive
  | settle
  | verify
  deriving DecidableEq, Repr

/-- The driven stroke record (R83). -/
structure Driven where
  phase   : StrokePhase
  members : List Member
  deriving DecidableEq, Repr

/-- The Stroke Unit (R83, R91). -/
structure StrokeUnit where
  driven      : Option Driven
  drive       : Timer
  settle      : Timer
  recharge    : Timer
  chargeReady : Bool
  deriving DecidableEq, Repr

/-- Gate states (R101). -/
inductive GateState where
  | closed
  | rearming
  | opened
  deriving DecidableEq, Repr

/-- The Supply Gate (R101). -/
structure SupplyGate where
  state : GateState
  rearm : Timer
  deriving DecidableEq, Repr

/-! ### Sense Converter (R107, R111, R123) -/

/-- Converter states (R107). -/
inductive ConverterState where
  | off
  | standby
  | converting
  deriving DecidableEq, Repr

/-- The class of a conversion (R110). -/
inductive PinClass where
  | up
  | down
  | midway
  deriving DecidableEq, Repr

/-- The three kinds of job (R112). -/
inductive JobKind where
  | verify
  | sweep
  | sense
  deriving DecidableEq, Repr

/-- One result of a job: a pin converted, its value and its class (R111). -/
structure Conversion where
  seg   : SegNo
  pin   : Pin
  value : BitVec 10
  cls   : PinClass
  deriving DecidableEq, Repr

/-- The running job (R111). The head of `todo` is the pin under conversion, the job's place; the pin list is the pins of
`results` and then `todo`. `before` is used by SENSE alone. -/
structure Job where
  kind    : JobKind
  segs    : List SegNo
  todo    : List (SegNo × Pin)
  results : List Conversion
  touched : Bool
  before  : SegState
  deriving DecidableEq, Repr

/-- The SENSE job record: the range, and the segments of it whose done mark is set (R123). -/
structure SenseRecord where
  first : Nat
  count : Nat
  done  : List SegNo
  deriving DecidableEq, Repr

/-- The warm-up mark (R107, R109): clear; set, with the warm-up conversion still to make or under way; and set with that conversion made and
its value thrown away, so that the next value is handed to the job. -/
inductive WarmUp where
  | clear
  | set
  | made
  deriving DecidableEq, Repr

/-- The Sense Converter (R107). -/
structure Converter where
  state  : ConverterState
  tap    : Option SegNo
  warmUp : WarmUp
  job    : Option Job
  sense  : Option SenseRecord
  deriving DecidableEq, Repr

/-! ### Touch Unit (R130) and Claim Table (R144) -/

/-- The accepted level of a touch input (R130). -/
inductive Level where
  | present
  | absent
  deriving DecidableEq, Repr

/-- One line's touch record (R130). -/
structure TouchLine where
  accepted : Level
  guard    : Timer
  holdOff  : Timer
  shield   : Bool
  deriving DecidableEq, Repr

/-- The Touch Unit (R130). -/
structure TouchUnit where
  running : Bool
  lines   : Vector TouchLine 24
  deriving DecidableEq, Repr

/-- A line's claim (R144). -/
inductive ClaimState where
  | free
  | taken
  deriving DecidableEq, Repr

/-- One line's claim record; the timer is idle, or the milliseconds since the take (R144). -/
structure Claim where
  claim  : ClaimState
  timer  : Option Nat
  warned : Bool
  deriving DecidableEq, Repr

/-- The Claim Table (R144). -/
structure ClaimTable where
  serving : Bool
  lines   : Vector Claim 24
  deriving DecidableEq, Repr

/-! ### Engine Control (R160), Event Unit (R186, R191), Chime (R195) -/

/-- Engine states (R159). -/
inductive EngineState where
  | off
  | loading
  | running
  | paused
  deriving DecidableEq, Repr

/-- Engine Control (R160). `reading` holds the descriptor words read so far while the descriptor is being read (R166), and
nothing otherwise; so LOADING with nothing there is LOADING after acceptance. -/
structure Engine where
  state       : EngineState
  copy        : Vector Byte 32
  shown       : Shown
  showPending : Bool
  lag         : Option Nat
  lagWarned   : Bool
  startOut    : Bool
  reading     : Option (List Word)
  deriving DecidableEq, Repr

/-- The thirteen events (01_the_tactile_area.md, Event bits). -/
inductive Event where
  | pageDone
  | faultNew
  | ringFull
  | lagWarn
  | lagLimit
  | claimWarn
  | claimExpired
  | supplyLost
  | supplyBack
  | parity
  | ownedWrite
  | cmdDone
  | ringIndexBad
  deriving DecidableEq, Repr

/-- The Event Unit: the pending set, bit n for the event of bit n, and the fault ring counts (R186, R191). -/
structure EventUnit where
  pending  : BitVec 13
  producer : BitVec 8
  consumer : BitVec 8
  deriving DecidableEq, Repr

/-- Chime states (R195). -/
inductive ChimeState where
  | silent
  | page
  | fault
  deriving DecidableEq, Repr

/-- The Chime's next mark (R195). -/
inductive NextMark where
  | none
  | fault
  | silent
  deriving DecidableEq, Repr

/-- The Chime (R195): its state, the frequency in Hz of the tone under way, the duration timer and the next mark. -/
structure Chime where
  state    : ChimeState
  tone     : Option Nat
  duration : Timer
  next     : NextMark
  deriving DecidableEq, Repr

/-! ### The whole machine -/

/-- The model's own field: what the event under way still has to post at its end, the mirror words whose post a rule of the event names,
the result words in order and the event pending word (R42, R164, R187). Nothing is owed between events (log 10, log 28). -/
structure Owed where
  mirrors : List SegNo
  results : List Word
  pending : Bool
  deriving DecidableEq, Repr

/-- The state of the part, its page memory and its input pins, and the queue of commands that wait. -/
structure State where
  mem     : Memory
  pins    : Pins
  bus     : BusPass
  segs    : Vector Segment 96
  queue   : Queue
  asm     : Option Assembly
  stroke  : StrokeUnit
  gate    : SupplyGate
  conv    : Converter
  touch   : TouchUnit
  claims  : ClaimTable
  engine  : Engine
  events  : EventUnit
  chime   : Chime
  owed    : Owed
  pending : List Instr
  deriving DecidableEq, Repr

/-- Why a step could stop the machine: the manual names no event that does, so there is no constructor (INVENTORY.md, Faults). -/
inductive Fault where
  deriving DecidableEq, Repr

/-- Why a command could have no meaning. -/
inductive Refusal where
  /-- Raised by exec alone, for a row of the table that has no meaning yet; safe. No row is left so. -/
  | notModelled (mnemonic : String)
  deriving DecidableEq, Repr

/-! ### Power-on reset -/

/-- A segment record after power-on reset (R43). -/
def Segment.reset : Segment where
  state := .unsure
  dirty := false
  held := false
  suspectA := 0
  suspectB := 0
  target := none
  shadow := ⟨0, 0⟩
  retry := []
  faults := []
  discardAfter := false

/-- An empty refresh queue with no walk under way (R46). -/
def Queue.empty : Queue := ⟨[], [], false⟩

/-- A touch record of a stopped unit (R131). -/
def TouchLine.stopped : TouchLine := ⟨.absent, .idle, .idle, false⟩

/-- The stopped Touch Unit (R131, R141). -/
def TouchUnit.stopped : TouchUnit := ⟨false, Vector.replicate 24 TouchLine.stopped⟩

/-- A claim record of a stopped table, and of a free line (R144). -/
def Claim.freed : Claim := ⟨.free, none, false⟩

/-- The stopped Claim Table (R144, R157). -/
def ClaimTable.stopped : ClaimTable := ⟨false, Vector.replicate 24 Claim.freed⟩

/-- The silent Chime (R195). -/
def Chime.silent : Chime := ⟨.silent, none, .idle, .none⟩

/-- Nothing owed. -/
def Owed.nothing : Owed := ⟨[], [], false⟩

/-- The gate that a power-on reset leaves: CLOSED, or REARMING when SUPPLY_OK is sampled high (R101). -/
def SupplyGate.sampled (supplyOk : Bool) : SupplyGate :=
  if supplyOk then ⟨.rearming, .running 0 Config.rearmMs⟩ else ⟨.closed, .idle⟩

/-- The part after a power-on reset that samples `strap`, with the memory and the pins as they are and the queue as it is
(R16, R43, R46, R62, R83, R91, R101, R107, R131, R144, R160, R186, R191, R195). -/
def State.poweredOn (mem : Memory) (pins : Pins) (strap : BitVec 4) (pending : List Instr) : State where
  mem := mem
  pins := pins
  bus := ⟨strap, [], 0, 0, ⟨none, none, false⟩, none⟩
  segs := Vector.replicate 96 Segment.reset
  queue := Queue.empty
  asm := none
  stroke := ⟨none, .idle, .idle, .idle, false⟩
  gate := SupplyGate.sampled pins.supplyOk
  conv := ⟨.off, none, .clear, none, none⟩
  touch := TouchUnit.stopped
  claims := ClaimTable.stopped
  engine := ⟨.off, Vector.replicate 32 0, .a, false, none, false, false, none⟩
  events := ⟨0, 0, 0⟩
  chime := Chime.silent
  owed := Owed.nothing
  pending := pending

/-- The machine right after reset. DESIGN CHOICE (log 1, log 8): memory lists nothing, and the straps, SUPPLY_OK and every TOUCH
input are low. Unsafe: the board may hold any of them otherwise. -/
def State.reset : State :=
  State.poweredOn ⟨[], []⟩ ⟨false, Vector.replicate 24 false⟩ 0 []

end Sys2Proof.Machine
end

