-- ==== Sys2Proof/Machine/Clock.lean ====
section
/-! DEFINITION. The passing of a millisecond, which a step on an empty queue stands for (log 6): every running timer counts. "Times are in milliseconds. Each timer belongs to one block and its expiry is an event at that block" (00_scope.md, Times). -/

namespace Sys2Proof.Machine

/-- A running timer counts up to its length, where its expiry is due. -/
def Timer.tick : Timer → Timer
  | .idle => .idle
  | .running t n => .running (min (t + 1) n) n

/-- A touch record's timers count (R130). -/
def TouchLine.tick (t : TouchLine) : TouchLine := { t with guard := t.guard.tick, holdOff := t.holdOff.tick }

/-- A claim's timer counts (R150). -/
def Claim.tick (c : Claim) : Claim := { c with timer := c.timer.map (· + 1) }

/-- One millisecond passes with no event. -/
def tick (s : State) : State :=
  { s with
    stroke := { s.stroke with
      drive := s.stroke.drive.tick
      settle := s.stroke.settle.tick
      recharge := s.stroke.recharge.tick }
    gate := { s.gate with rearm := s.gate.rearm.tick }
    touch := { s.touch with lines := s.touch.lines.map TouchLine.tick }
    claims := { s.claims with lines := s.claims.lines.map Claim.tick }
    engine := { s.engine with lag := s.engine.lag.map (· + 1) }
    chime := { s.chime with duration := s.chime.duration.tick } }

end Sys2Proof.Machine
end

