-- ==== Sys2Proof/Machine/Operands.lean ====
section
/-! DEFINITION. The operand forms: bytes and parity of a host write, the area map, segment numbers and pins, range arguments, and the fields of the running descriptor copy (01_the_tactile_area.md, Memory formats). -/

namespace Sys2Proof

/-! ### Bytes, words and parity -/

/-- The byte at the even address (00_scope.md, Memory). -/
def lowByte (w : Word) : Byte := w.extractLsb' 0 8

/-- The byte at the odd address. -/
def highByte (w : Word) : Byte := w.extractLsb' 8 8

/-- The word whose low byte is `lo` and whose high byte is `hi`. -/
def wordOf (lo hi : Byte) : Word := hi ++ lo

/-- Whether a byte's eight data bits hold an odd number of ones. -/
def onesOdd (b : Byte) : Bool :=
  b.getLsbD 0 ^^ b.getLsbD 1 ^^ b.getLsbD 2 ^^ b.getLsbD 3 ^^ b.getLsbD 4 ^^ b.getLsbD 5 ^^ b.getLsbD 6 ^^ b.getLsbD 7

/-- "The eight data bits and the parity bit of a byte hold an odd number of ones between them" (01, Parity). -/
def goodParity (b : Byte) (par : Bool) : Bool := onesOdd b ^^ par

/-- The parity bit the part generates, always good (R15). -/
def madeParity (b : Byte) : Bool := !onesOdd b

/-- "every enabled byte of the write is zero" (R8). -/
def HostWrite.allZero (w : HostWrite) : Bool :=
  (!w.enLow || lowByte w.data == 0) && (!w.enHigh || highByte w.data == 0)

/-- The word `old` with the enabled bytes of the write loaded into it (R5). -/
def HostWrite.load (w : HostWrite) (old : Word) : Word :=
  wordOf (if w.enLow then lowByte w.data else lowByte old) (if w.enHigh then highByte w.data else highByte old)

/-- The bits of the enabled bytes of the written data (R7, R188). -/
def HostWrite.bits (w : HostWrite) : Word := w.load 0

/-- The host write of the command word whose low byte is the code (R162). -/
def CommandWrite.toHost (c : CommandWrite) (code : Byte) : HostWrite :=
  ⟨wordOf code c.high, true, c.enHigh, c.parLow, c.parHigh⟩

/-! ### Lines, segments, cells, pins (R18) -/

/-- All segment numbers in reading order. -/
def allSegs : List SegNo := List.finRange 96

/-- All line numbers from the top. -/
def allLines : List LineNo := List.finRange 24

/-- All pins of a segment in cell-then-dot order. -/
def allPins : List Pin := List.finRange 80

/-- "Segment s covers line s div 4" (R18). -/
def lineOf (s : SegNo) : LineNo := ⟨s.val / 4, by omega⟩

/-- "Cell c of the page therefore belongs to segment c div 10" (R18). -/
def segOfCell (c : Fin 960) : SegNo := ⟨c.val / 10, by omega⟩

/-- "and it is cell c mod 10 within that segment" (R18). -/
def cellInSeg (c : Fin 960) : Fin 10 := ⟨c.val % 10, by omega⟩

/-- The cell within the segment of a pin, 0 to 9. -/
def pinCell (p : Pin) : Nat := p.val / 8

/-- The dot of a pin, 1 to 8. -/
def pinDot (p : Pin) : Nat := p.val % 8 + 1

/-- The pins of a set in cell-then-dot order (R18). -/
def pinsOf (m : PinSet) : List Pin := allPins.filter fun p => m.getLsbD p.val

/-- The set that holds one pin. -/
def onePin (p : Pin) : PinSet := 1#80 <<< p.val

/-- The set of the pins of a list. -/
def pinSet (ps : List Pin) : PinSet := ps.foldl (fun m p => m ||| onePin p) 0

/-- The set that holds one cell. -/
def oneCell (k : Fin 10) : CellSet := 1#10 <<< k.val

/-! ### The area map (01, Area map) -/

/-- The offset of page buffer A or B. -/
def Buffer.offset : Buffer → Nat
  | .a => 0x0000
  | .b => 0x0400

/-- The even byte offset of a part-owned word (01, Area map; R11). -/
def PartWord.offset : PartWord → Nat
  | .senseImage c => 0x0800 + 2 * c.val
  | .mirror s => 0x1000 + 2 * s.val
  | .result => 0x1204
  | .eventPending => 0x1210
  | .parityDetail => 0x1218
  | .claimDetail => 0x121A
  | .ownedDetail => 0x121C
  | .engineStatus => 0x1220
  | .descriptorDetail => 0x1222
  | .ringProducer => 0x1280
  | .ring k j => 0x1400 + 8 * k.val + 2 * j.val

/-- The offset of the claim word of a line (R144). -/
def claimOffset (l : LineNo) : Nat := 0x1240 + 2 * l.val

def descriptorOffset : Nat := 0x1100
def commandOffset : Nat := 0x1200
def argumentOffset : Nat := 0x1202
def eventEnableOffset : Nat := 0x1212
def eventSetOffset : Nat := 0x1214
def eventClearOffset : Nat := 0x1216
def ringConsumerOffset : Nat := 0x1282

/-- The shown value that names a page buffer. -/
def Buffer.shown : Buffer → Machine.Shown
  | .a => .a
  | .b => .b

namespace Machine

/-- What an address falls in (R1, R3): outside the area, an unlisted offset or the descriptor, which are plain memory in every
engine state (R2, R5), or one of the words with a behaviour of its own. -/
inductive Place where
  | plain
  | pageBuffer (buf : Buffer) (word : Fin 480)
  | partOwned (p : PartWord)
  | claim (l : LineNo)
  | command
  | argument
  | eventEnable
  | eventSet
  | eventClear
  | ringConsumer
  deriving DecidableEq, Repr

/-- The place of an even offset within the area, by the area map. -/
def placeOf (off : Nat) : Place :=
  if h : off / 2 < 480 then .pageBuffer .a ⟨off / 2, h⟩
  else if h : 0x0400 ≤ off ∧ (off - 0x0400) / 2 < 480 then .pageBuffer .b ⟨(off - 0x0400) / 2, h.2⟩
  else if h : 0x0800 ≤ off ∧ (off - 0x0800) / 2 < 960 then .partOwned (.senseImage ⟨(off - 0x0800) / 2, h.2⟩)
  else if h : 0x1000 ≤ off ∧ (off - 0x1000) / 2 < 96 then .partOwned (.mirror ⟨(off - 0x1000) / 2, h.2⟩)
  else if off = commandOffset then .command
  else if off = argumentOffset then .argument
  else if off = PartWord.offset .result then .partOwned .result
  else if off = PartWord.offset .eventPending then .partOwned .eventPending
  else if off = eventEnableOffset then .eventEnable
  else if off = eventSetOffset then .eventSet
  else if off = eventClearOffset then .eventClear
  else if off = PartWord.offset .parityDetail then .partOwned .parityDetail
  else if off = PartWord.offset .claimDetail then .partOwned .claimDetail
  else if off = PartWord.offset .ownedDetail then .partOwned .ownedDetail
  else if off = PartWord.offset .engineStatus then .partOwned .engineStatus
  else if off = PartWord.offset .descriptorDetail then .partOwned .descriptorDetail
  else if h : 0x1240 ≤ off ∧ (off - 0x1240) / 2 < 24 then .claim ⟨(off - 0x1240) / 2, h.2⟩
  else if off = PartWord.offset .ringProducer then .partOwned .ringProducer
  else if off = ringConsumerOffset then .ringConsumer
  else if h : 0x1400 ≤ off ∧ (off - 0x1400) / 8 < 64 then
    .partOwned (.ring ⟨(off - 0x1400) / 8, h.2⟩ ⟨(off - 0x1400) % 8 / 2, by omega⟩)
  else .plain

/-- "The tactile area base is that number × 0x2000" (R1). -/
def areaBase (s : State) : Nat := s.bus.strap.toNat * Config.areaBytes

/-- The place of a byte address: outside the area everything is plain memory (R1, R2). -/
def placeOfAddr (s : State) (a : Nat) : Place :=
  if areaBase s ≤ a ∧ a < areaBase s + Config.areaBytes then placeOf (a - areaBase s) else .plain

/-- The even byte address of a host access (R1). -/
def hostAddr (addr : BitVec 22) : Nat := 2 * addr.toNat

/-- The buffer a shown value names: none under NONE. -/
def Shown.buffer : Shown → Option Buffer
  | .a => some .a
  | .b => some .b
  | .none => .none

/-! ### The argument of a command (01, Command, argument and result words; R163) -/

/-- The first segment of a range argument. -/
def argFirst (a : Word) : Nat := (lowByte a).toNat

/-- The count of a range argument. -/
def argCount (a : Word) : Nat := (highByte a).toNat

/-- "its low byte, the first segment, is 0 to 95; its high byte, the count, is 1 to 96; and first + count is at most 96" (R163). -/
def goodRange (a : Word) : Bool :=
  decide (argFirst a ≤ 95) && decide (1 ≤ argCount a) && decide (argCount a ≤ 96) && decide (argFirst a + argCount a ≤ 96)

/-- "covers first to first + count − 1, in ascending order" (00_scope.md, Ranges). -/
def segRange (first count : Nat) : List SegNo :=
  allSegs.filter fun s => decide (first ≤ s.val) && decide (s.val < first + count)

/-- The segments a range argument covers. -/
def argRange (a : Word) : List SegNo := segRange (argFirst a) (argCount a)

/-- The buffer a SHOW argument names, if it is good; its high byte is ignored (R163). -/
def argShown (a : Word) : Option Shown :=
  match (lowByte a).toNat with
  | 0 => some .a
  | 1 => some .b
  | 2 => some .none
  | _ => none

/-! ### The descriptor (01, Descriptor; R167, R169) -/

/-- The 32 bytes of a descriptor. -/
abbrev Descriptor := Vector Byte 32

/-- A byte field. -/
def field8 (d : Descriptor) (i : Fin 32) : Nat := d[i].toNat

/-- "A 16-bit field is judged as one little-endian number" (R167). -/
def field16 (d : Descriptor) (i j : Fin 32) : Nat := d[i].toNat + 256 * d[j].toNat

def cellMode (d : Descriptor) : Nat := field8 d 1
def touchEnabled (d : Descriptor) : Bool := field8 d 10 == 1
def chimeEnabled (d : Descriptor) : Bool := field8 d 11 == 1
def drivePulse (d : Descriptor) : Nat := field8 d 13
def rechargeField (d : Descriptor) : Nat := field8 d 14
def guardLength (d : Descriptor) : Nat := field8 d 15
def holdOffLength (d : Descriptor) : Nat := field16 d 16 17
def claimLimit (d : Descriptor) : Nat := field16 d 18 19
def lagLimit (d : Descriptor) : Nat := field16 d 20 21
def upThreshold (d : Descriptor) : Nat := field16 d 22 23
def downThreshold (d : Descriptor) : Nat := field16 d 24 25
def pageTone (d : Descriptor) : Nat := field16 d 26 27
def faultTone (d : Descriptor) : Nat := field16 d 28 29

/-- The initial show field: 0 A, 1 B, 2 NONE. -/
def initialShow (d : Descriptor) : Shown :=
  match field8 d 12 with
  | 0 => .a
  | 1 => .b
  | _ => .none

/-- Whether the copy holds an accepted descriptor: its format byte is then 1, and it is all zero before the first (R160, R91). -/
def holdsAccepted (d : Descriptor) : Bool := field8 d 0 == 1

/-- The recharge length: the copy's, or 100 ms while it holds no accepted descriptor (R91). -/
def rechargeLength (d : Descriptor) : Nat := if holdsAccepted d then rechargeField d else Config.defaultRechargeMs

/-- The dot that memory bit i stands for: "dot d, where d is descriptor byte 2 + i" (R17). -/
def dotOfBit (d : Descriptor) (i : Fin 8) : Nat := field8 d ⟨2 + i.val, by omega⟩

/-- The dot map's bytes up to and without byte 2 + i. -/
def dotsBefore (d : Descriptor) (i : Fin 8) : List Nat :=
  ((List.finRange 8).filter fun j => decide (j.val < i.val)).map (dotOfBit d)

/-- Byte 2 + i of the dot map passes: it is 1 to 8 and equals no earlier byte of the map (R167). -/
def dotPasses (d : Descriptor) (i : Fin 8) : Bool :=
  decide (1 ≤ dotOfBit d i) && decide (dotOfBit d i ≤ 8) && !(dotsBefore d i).contains (dotOfBit d i)

/-- A number lies within bounds. -/
def within (n lo hi : Nat) : Bool := decide (lo ≤ n) && decide (n ≤ hi)

/-- The fields in ascending offset order, each with its offset and whether it passes (01, Descriptor; R167). -/
def descriptorChecks (d : Descriptor) : List (Nat × Bool) :=
  [(0, field8 d 0 == 1), (1, cellMode d == 6 || cellMode d == 8)]
  ++ (List.finRange 8).map (fun i => (2 + i.val, dotPasses d i))
  ++ [(10, within (field8 d 10) 0 1), (11, within (field8 d 11) 0 1), (12, within (field8 d 12) 0 2),
      (13, within (drivePulse d) 1 8), (14, within (rechargeField d) 10 100), (15, within (guardLength d) 5 100),
      (16, within (holdOffLength d) 0 3000), (18, within (claimLimit d) 100 10000), (20, within (lagLimit d) 500 30000),
      (22, within (upThreshold d) 512 1000),
      (24, within (downThreshold d) 16 480 && decide (downThreshold d < upThreshold d)),
      (26, within (pageTone d) 250 2000), (28, within (faultTone d) 250 2000)]

/-- The offset of the first failing field, or nothing when every field passes (R167). -/
def firstBadOffset (d : Descriptor) : Option Nat :=
  ((descriptorChecks d).find? fun c => !c.2).map Prod.fst

/-- The bytes of words read one after another, low byte first. -/
def bytesOf (ws : List Word) : List Byte := ws.flatMap fun w => [lowByte w, highByte w]

/-- The 32 bytes of the sixteen words read (R166). -/
def descriptorOf (ws : List Word) : Descriptor := Vector.ofFn fun i => (bytesOf ws).getD i.val 0

/-! ### Cell bytes under the dot map (R17, R67) -/

/-- The dots a cell byte targets UP, dot d at bit d - 1: in 6-dot mode the bits whose dot is 7 or 8 are ignored (R17). -/
def cellTarget (d : Descriptor) (b : Byte) : BitVec 8 :=
  (List.finRange 8).foldl (fun m i =>
    if b.getLsbD i.val && !(cellMode d == 6 && decide (7 ≤ dotOfBit d i)) then m ||| (1#8 <<< (dotOfBit d i - 1)) else m) 0

/-- The target of a segment from its ten cell bytes, cell 0 first (R67). -/
def targetOf (d : Descriptor) (cells : List Byte) : PinSet :=
  (List.finRange 10).foldl (fun m k => m ||| ((cellTarget d (cells.getD k.val 0)).setWidth 80 <<< (8 * k.val))) 0

end Machine

end Sys2Proof
end

