-- ==== Sys2Proof/Machine/Flags.lean ====
section
/-! DEFINITION. What is computed from the state: suspect status, change set and cost, queue-ability, the event bits and ATTN, and the words the part composes: mirror word, engine status word, result word, event pending word, detail words and fault records (01_the_tactile_area.md, Memory formats). -/

namespace Sys2Proof.Machine

/-! ### Accessors -/

/-- The record of a segment. -/
def State.seg (s : State) (i : SegNo) : Segment := s.segs[i]

/-- The touch record of a line. -/
def State.touchLine (s : State) (l : LineNo) : TouchLine := s.touch.lines[l]

/-- The claim record of a line. -/
def State.claim (s : State) (l : LineNo) : Claim := s.claims.lines[l]

/-- The answer to a question about a line's shield (R131, R138). -/
def shielded (s : State) (l : LineNo) : Bool := (s.touchLine l).shield

/-- The answer to a question about a line's claim (R154). -/
def claimed (s : State) (l : LineNo) : Bool := (s.claim l).claim == .taken

/-! ### Suspect status, change set, cost (R25, R26, R30) -/

/-- A segment is suspect when the mask of the shown buffer has a mark; under NONE it is not (R30). -/
def suspect (shown : Shown) (r : Segment) : Bool :=
  match shown with
  | .a => r.suspectA != 0
  | .b => r.suspectB != 0
  | .none => false

/-- The pins of the fault list. -/
def faultPins (r : Segment) : PinSet := pinSet (r.faults.map FaultEntry.pin)

/-- The pins whose target differs from the shadow; UNKNOWN differs from both (R25). -/
def differing (target : PinSet) (h : Shadow) : PinSet := (target &&& ~~~h.up) ||| (~~~target &&& ~~~h.down)

/-- The change set (R25). -/
def changeSet (r : Segment) : PinSet :=
  match r.target with
  | some t => if r.state = .faulted then 0 else differing t r.shadow &&& ~~~faultPins r
  | none => 0

/-- The pins of the change set targeted UP (R25). -/
def raiseSet (r : Segment) : PinSet := changeSet r &&& r.target.getD 0

/-- The pins of the change set targeted DOWN (R25). -/
def lowerSet (r : Segment) : PinSet := changeSet r &&& ~~~r.target.getD 0

/-- "2 for each pin of the raise set and 1 for each pin of the lower set" (R26). -/
def costOf (raise lower : PinSet) : Nat := 2 * (pinsOf raise).length + (pinsOf lower).length

/-- The cost of a member (R62). -/
def Member.cost (m : Member) : Nat := costOf m.raise m.lower

/-- The total cost of a record (R62). -/
def totalCost (ms : List Member) : Nat := (ms.map Member.cost).sum

/-! ### Queue-ability and the readers' questions (R40, R47, R59, R183) -/

/-- The engine's part of queue-ability: RUNNING or PAUSED, or LOADING after acceptance of the descriptor (R40). -/
def queuesRun (e : Engine) : Bool :=
  match e.state with
  | .off => false
  | .loading => e.reading.isNone
  | .running => true
  | .paused => true

/-- States that may wait in the queue (R20). -/
def SegState.mayQueue : SegState → Bool
  | .stale => true
  | .unsure => true
  | .capturing => true
  | .clean => false
  | .member => false
  | .moving => false
  | .verifying => false
  | .sensing => false
  | .faulted => false

/-- Queue-ability (R40). -/
def queueable (e : Engine) (r : Segment) : Bool :=
  queuesRun e && r.state.mayQueue && !r.held && !suspect e.shown r

/-- The entries of the queue, head first. -/
def Queue.entries (q : Queue) : List SegNo := q.ahead ++ q.behind

/-- A STALE entry on a line neither claimed nor shielded (R56, R59). -/
def freeStale (s : State) (i : SegNo) : Bool :=
  (s.seg i).state == .stale && !claimed s (lineOf i) && !shielded s (lineOf i)

/-- An UNSURE entry on an unshielded line (R58). -/
def sweepable (s : State) (i : SegNo) : Bool :=
  (s.seg i).state == .unsure && !shielded s (lineOf i)

/-- The page is settled (R183). -/
def settled (s : State) : Bool :=
  (s.engine.state == .running || s.engine.state == .paused) && s.queue.entries.isEmpty && s.asm.isNone
    && s.stroke.driven.isNone && s.conv.job.isNone

/-! ### Events and ATTN (R186, R187, R189) -/

/-- The bit of an event (01, Event bits). -/
def Event.bit : Event → Nat
  | .pageDone => 0
  | .faultNew => 1
  | .ringFull => 2
  | .lagWarn => 3
  | .lagLimit => 4
  | .claimWarn => 5
  | .claimExpired => 6
  | .supplyLost => 7
  | .supplyBack => 8
  | .parity => 9
  | .ownedWrite => 10
  | .cmdDone => 11
  | .ringIndexBad => 12

/-- The set that holds one event. -/
def Event.mask (e : Event) : BitVec 13 := 1#13 <<< e.bit

/-- An event is pending. -/
def isPending (s : State) (e : Event) : Bool := s.events.pending.getLsbD e.bit

/-- "ATTN is asserted exactly when at least one event is both pending and enabled"; bits 13 to 15 enable nothing (R189). -/
def State.attn (s : State) : Bool := s.events.pending &&& s.bus.enable.setWidth 13 != 0

/-- The event pending word (R187). -/
def pendingWord (s : State) : Word := s.events.pending.setWidth 16

/-! ### Module link and CHIME (R88, R195) -/

/-- What the module link drives: for each member of a stroke in DRIVE its module, the pins driven UP and the pins driven DOWN
(R88). -/
def State.moduleLink (s : State) : List (SegNo × PinSet × PinSet) :=
  match s.stroke.driven with
  | some d => if d.phase = .drive then d.members.map fun m => (m.seg, m.raise, m.lower) else []
  | none => []

/-- The tone on the CHIME line: its frequency in Hz, or nothing while the line is low (R195). -/
def State.chimeTone (s : State) : Option Nat := if s.chime.state = .silent then none else s.chime.tone

/-! ### Codes and composed words (01, Memory formats) -/

/-- The mirror word's code of a state (R20). -/
def SegState.code : SegState → Nat
  | .clean => 0
  | .stale => 1
  | .unsure => 2
  | .capturing => 3
  | .member => 4
  | .moving => 5
  | .verifying => 6
  | .sensing => 7
  | .faulted => 8

/-- The mirror word of a record under the shown buffer (R42). -/
def mirrorWord (shown : Shown) (r : Segment) : Word :=
  BitVec.ofNat 16 (r.state.code + 0x0100 * r.held.toNat + 0x0200 * (suspect shown r).toNat + 0x0400 * r.faults.length
    + 0x2000 * r.dirty.toNat)

def EngineState.code : EngineState → Nat
  | .off => 0
  | .loading => 1
  | .running => 2
  | .paused => 3

def GateState.code : GateState → Nat
  | .closed => 0
  | .rearming => 1
  | .opened => 2

/-- The assembling stroke field: none 0, ASSEMBLING 1, ARMED 2. -/
def assemblingCode : Option Assembly → Nat
  | none => 0
  | some a => match a.phase with
    | .assembling => 1
    | .armed => 2

/-- The driven stroke field: none 0, DRIVE 1, SETTLE 2, VERIFY 3. -/
def drivenCode : Option Driven → Nat
  | none => 0
  | some d => match d.phase with
    | .drive => 1
    | .settle => 2
    | .verify => 3

/-- The engine status word (R161). -/
def statusWord (s : State) : Word :=
  BitVec.ofNat 16 (s.engine.state.code + 0x04 * s.gate.state.code + 0x10 * assemblingCode s.asm
    + 0x40 * drivenCode s.stroke.driven + 0x100 * s.queue.entries.length)

/-- The five fields Engine Control compares at the end of an event (R161). -/
def statusFields (s : State) : List Nat :=
  [s.engine.state.code, s.gate.state.code, assemblingCode s.asm, drivenCode s.stroke.driven, s.queue.entries.length]

/-- Result codes (01, Command, argument and result words). -/
inductive ResultCode where
  | accepted
  | done
  | badCmd
  | badState
  | badArg
  | busy
  | badDesc
  | aborted
  deriving DecidableEq, Repr

def ResultCode.code : ResultCode → Byte
  | .accepted => 0
  | .done => 1
  | .badCmd => 2
  | .badState => 3
  | .badArg => 4
  | .busy => 5
  | .badDesc => 6
  | .aborted => 7

/-- The result word: the command code in the low byte, the result code in the high byte (R164). -/
def resultWord (code : Byte) (r : ResultCode) : Word := wordOf code r.code

/-- The parity detail word: cell, source bit 14, buffer bit 15. -/
def parityDetail (buf : Buffer) (cell : Fin 960) (fromCapture : Bool) : Word :=
  BitVec.ofNat 16 (cell.val + 0x4000 * fromCapture.toNat + 0x8000 * (buf == .b).toNat)

def Shown.code : Shown → Nat
  | .a => 0
  | .b => 1
  | .none => 2

def FaultKind.code : FaultKind → Nat
  | .stuckUp => 1
  | .stuckDown => 2
  | .midway => 3

/-- A fault record, a pin record or a SEGMENT_RETIRED record (01, Fault record; R117, R118). -/
structure FaultRecord where
  seg      : SegNo
  cell     : Nat
  dot      : Nat
  kind     : Nat
  attempts : Nat
  shown    : Shown
  value    : Nat
  deriving DecidableEq, Repr

/-- The four words of a fault record in ascending offset order. -/
def FaultRecord.words (f : FaultRecord) : List Word :=
  [BitVec.ofNat 16 (f.seg.val + 0x100 * f.cell), BitVec.ofNat 16 (f.dot + 0x100 * f.kind),
   BitVec.ofNat 16 (f.attempts + 0x100 * f.shown.code), BitVec.ofNat 16 f.value]

/-! ### Classes of a conversion (R110) -/

/-- The class of a value against the thresholds of the running copy (R110). -/
def classify (d : Descriptor) (v : BitVec 10) : PinClass :=
  if upThreshold d ≤ v.toNat then .up
  else if v.toNat ≤ downThreshold d then .down
  else .midway

end Sys2Proof.Machine
end

