-- ==== Sys2Proof/Machine/Ops.lean ====
section
/-! DEFINITION. The named operations over memory, the memory port, the post list, the pending set, the timers, the segment records and the refresh queue. Every change of those goes through one of them. -/

namespace Sys2Proof.Machine

/-! ### Sparse data in canonical form -/

/-- What address `a` reads as in a sparse list whose unlisted addresses read as `d`. -/
def sparseRead {α : Type} (d : α) : List (Nat × α) → Nat → α
  | [], _ => d
  | (k, v) :: rest, a => if a = k then v else sparseRead d rest a

/-- The sparse list after `v` is stored at `a`: sorted, and with no entry equal to `d`. -/
def sparseWrite {α : Type} [DecidableEq α] (d : α) : List (Nat × α) → Nat → α → List (Nat × α)
  | [], a, v => if v = d then [] else [(a, v)]
  | (k, x) :: rest, a, v =>
    if a < k then (if v = d then (k, x) :: rest else (a, v) :: (k, x) :: rest)
    else if a = k then (if v = d then rest else (a, v) :: rest)
    else (k, x) :: sparseWrite d rest a v

/-- The canonical form: addresses strictly rising, and no entry equal to what an unlisted address reads as. -/
def sparseWf {α : Type} [DecidableEq α] (d : α) : List (Nat × α) → Bool
  | [] => true
  | (k, v) :: rest => decide (v ≠ d) && rest.all (fun e => decide (k < e.1)) && sparseWf d rest

/-! ### Page memory -/

/-- The canonical form of the page memory. -/
def Memory.wf (m : Memory) : Bool := sparseWf Config.blankByte m.bytes && sparseWf Config.blankParity m.parity

/-- The byte stored at an address. -/
def Memory.byte (m : Memory) (a : Nat) : Byte := sparseRead Config.blankByte m.bytes a

/-- The parity bit stored with the byte at an address. -/
def Memory.par (m : Memory) (a : Nat) : Bool := sparseRead Config.blankParity m.parity a

/-- Store a byte with its parity bit. -/
def Memory.store (m : Memory) (a : Nat) (b : Byte) (par : Bool) : Memory :=
  ⟨sparseWrite Config.blankByte m.bytes a b, sparseWrite Config.blankParity m.parity a par⟩

/-- The word at an even address. -/
def Memory.word (m : Memory) (a : Nat) : Word := wordOf (m.byte a) (m.byte (a + 1))

/-- A write of the part: a full word with generated parity (R12, R15). -/
def Memory.storeWord (m : Memory) (a : Nat) (v : Word) : Memory :=
  (m.store a (lowByte v) (madeParity (lowByte v))).store (a + 1) (highByte v) (madeParity (highByte v))

/-- A host write: the enabled bytes with the parity the host sent (R2). -/
def Memory.storeHost (m : Memory) (a : Nat) (w : HostWrite) : Memory :=
  let m := if w.enLow then m.store a (lowByte w.data) w.parLow else m
  if w.enHigh then m.store (a + 1) (highByte w.data) w.parHigh else m

/-! ### The post list (R11, R12) -/

/-- A list of posts after `p` is posted: an entry of its word leaves its place, and `p` joins at the tail (R11). -/
def postTo (ps : List Post) (p : Post) : List Post := (ps.filter fun q => q.offset != p.offset) ++ [p]

/-- A block posts a value to the word at an offset (R11). -/
def post (off : Nat) (v : Word) (s : State) : State :=
  { s with bus := { s.bus with posts := postTo s.bus.posts ⟨off, v⟩ } }

/-- Post words one after another. -/
def postAll (ps : List (Nat × Word)) (s : State) : State := ps.foldl (fun s p => post p.1 p.2 s) s

/-- The word at an offset has a pending post. -/
def hasPost (s : State) (off : Nat) : Bool := s.bus.posts.any fun p => p.offset == off

/-- Write an entry of the post list to memory: a full word with generated parity (R12). -/
def writePost (base : Nat) (p : Post) (m : Memory) : Memory := m.storeWord (base + p.offset) p.value

/-- The entries and the memory after every turn has gone to the post list until the entry of `off` has left it (R13). -/
def drainTo (base off : Nat) : List Post → Memory → List Post × Memory
  | [], m => ([], m)
  | p :: ps, m => if p.offset = off then (ps, writePost base p m) else drainTo base off ps (writePost base p m)

/-! ### The memory port (R9) -/

/-- A host access has been served. -/
def Arbiter.servedHost (a : Arbiter) : Arbiter := { a with last := some .host, abandoned := false }

/-- A turn of the part has been served. -/
def Arbiter.servedPart (_a : Arbiter) (t : PartTurn) : Arbiter := ⟨some .part, some t, false⟩

/-- Record the end of an access at the port. -/
def servedHost (s : State) : State := { s with bus := { s.bus with arbiter := s.bus.arbiter.servedHost } }

/-- Record the end of a turn of the part at the port. -/
def servedPart (t : PartTurn) (s : State) : State :=
  { s with bus := { s.bus with arbiter := s.bus.arbiter.servedPart t } }

/-- A turn of the post list: the head entry is written and leaves the list (R12). With an empty list no turn is given. -/
def drainHead (s : State) : State :=
  match s.bus.posts with
  | [] => s
  | p :: ps => servedPart .post { s with mem := writePost (areaBase s) p s.mem, bus := { s.bus with posts := ps } }

/-- The wait of a host access to the word at an offset: while it has a pending post, every turn of the part goes to the post list
until that entry has left it (R13; log 4). -/
def waitForPost (off : Nat) (s : State) : State :=
  if hasPost s off then
    servedPart .post { s with mem := (drainTo (areaBase s) off s.bus.posts s.mem).2,
                              bus := { s.bus with posts := (drainTo (areaBase s) off s.bus.posts s.mem).1 } }
  else s

/-- A host write served at the word at an offset of the area: memory stores the data, enables and parity the host sent (R2). -/
def storeArea (off : Nat) (w : HostWrite) (s : State) : State := servedHost { s with mem := s.mem.storeHost (areaBase s + off) w }

/-- A host write forwarded to the word at an offset of the area: it waits for a pending post, and is then served (R2, R13). -/
def forwardArea (off : Nat) (w : HostWrite) (s : State) : State := storeArea off w (waitForPost off s)

/-- A host write forwarded to a byte address anywhere (R2). -/
def forwardAddr (a : Nat) (w : HostWrite) (s : State) : State :=
  if areaBase s ≤ a ∧ a < areaBase s + Config.areaBytes then forwardArea (a - areaBase s) w s
  else servedHost { s with mem := s.mem.storeHost a w }

/-- What a host read at a byte address returns: each enabled byte and its parity bit (R2). -/
def hostReadOf (a : Nat) (enLow enHigh : Bool) (s : State) : HostRead :=
  ⟨if enLow then some (s.mem.byte a, s.mem.par a) else none,
   if enHigh then some (s.mem.byte (a + 1), s.mem.par (a + 1)) else none⟩

/-- A host read is served at a byte address: memory's data and parity go to the host (R2, R9). -/
def readAt (a : Nat) (enLow enHigh : Bool) (s : State) : State :=
  servedHost { s with bus := { s.bus with hostRead := some (hostReadOf a enLow enHigh s) } }

/-- A host read of the word at an offset of the area: it waits for a pending post, and then returns what memory holds (R3, R13). -/
def readArea (off : Nat) (enLow enHigh : Bool) (s : State) : State := readAt (areaBase s + off) enLow enHigh (waitForPost off s)

/-- A forwarded host read at a byte address anywhere (R2, R3). -/
def readAddr (a : Nat) (enLow enHigh : Bool) (s : State) : State :=
  if areaBase s ≤ a ∧ a < areaBase s + Config.areaBytes then readArea (a - areaBase s) enLow enHigh s else readAt a enLow enHigh s

/-! ### Events and results (R164, R186, R187) -/

/-- A block raises an event: it becomes pending, and the event pending word is owed (R186, R187). -/
def raise (e : Event) (s : State) : State :=
  { s with events := { s.events with pending := s.events.pending ||| e.mask }, owed := { s.owed with pending := true } }

/-- A result word is owed, and CMD_DONE is raised (R164). -/
def giveResult (code : Byte) (r : ResultCode) (s : State) : State :=
  raise .cmdDone { s with owed := { s.owed with results := s.owed.results ++ [resultWord code r] } }

/-- The mirror word of a segment is owed: a rule names its post in the event under way, whatever the word was before (log 28). -/
def oweMirror (i : SegNo) (s : State) : State := { s with owed := { s.owed with mirrors := i :: s.owed.mirrors } }

/-- Post the result words the event owes, in order (R164). -/
def postResults (s : State) : State :=
  { s.owed.results.foldl (fun s v => post (PartWord.offset .result) v s) s with
      owed := { s.owed with results := [] } }

/-- Post the event pending word, if the event owes it (R187). -/
def postPending (s : State) : State :=
  if s.owed.pending then
    { post (PartWord.offset .eventPending) (pendingWord s) s with owed := { s.owed with pending := false } }
  else s

/-! ### Timers -/

/-- Whether a timer runs. -/
def Timer.runs : Timer → Bool
  | .idle => false
  | .running _ _ => true

/-- A timer started from 0 with a length. -/
def Timer.start (length : Nat) : Timer := .running 0 length

/-! ### Segment records and the refresh queue (R40, R47, R49 to R53, R55, R56) -/

/-- Replace the record of a segment. -/
def setSeg (i : SegNo) (r : Segment) (s : State) : State := { s with segs := s.segs.set i r }

/-- Replace the queue. -/
def setQueue (q : Queue) (s : State) : State := { s with queue := q }

/-- The end of the queue a segment joins at (R49, R50). -/
inductive QueueEnd where
  | head
  | tail
  deriving DecidableEq, Repr

/-- A segment joins at the tail, behind every entry present (R49). -/
def Queue.joinTail (q : Queue) (i : SegNo) : Queue := { q with behind := q.behind ++ [i] }

/-- A segment joins at the head, ahead of every entry present, and so ahead of the walk mark (R50, R57). -/
def Queue.joinHead (q : Queue) (i : SegNo) : Queue :=
  if q.mark then { q with ahead := i :: q.ahead } else ⟨[], i :: q.entries, false⟩

/-- A segment leaves from wherever it stands; the mark stays between its neighbours (R53). -/
def Queue.leave (q : Queue) (i : SegNo) : Queue :=
  { q with ahead := q.ahead.filter (· != i), behind := q.behind.filter (· != i) }

/-- A segment joins at an end. -/
def Queue.join (q : Queue) (e : QueueEnd) (i : SegNo) : Queue :=
  match e with
  | .head => q.joinHead i
  | .tail => q.joinTail i

/-- The walk mark is set before the head entry (R56). -/
def Queue.startWalk (q : Queue) : Queue := ⟨[], q.entries, true⟩

/-- The walk mark is cleared (R56). -/
def Queue.endWalk (q : Queue) : Queue := ⟨[], q.entries, false⟩

/-- PROMOTE: the queued segments of the range move to the head in range order, ahead of the mark (R55). -/
def Queue.promote (q : Queue) (range : List SegNo) : Queue :=
  let moved := range.filter fun i => q.entries.contains i
  let rest (l : List SegNo) := l.filter fun i => !range.contains i
  if q.mark then ⟨moved ++ rest q.ahead, rest q.behind, true⟩ else ⟨[], moved ++ rest q.entries, false⟩

/-- The Segment Table judges one segment's queue-ability: it joins at the end named when it has become queue-able, leaves when it
has stopped being so, and keeps its place otherwise (R40, R47, R48, R61). -/
def sync (e : QueueEnd) (i : SegNo) (s : State) : State :=
  if queueable s.engine (s.seg i) then
    if s.queue.entries.contains i then s else setQueue (s.queue.join e i) s
  else setQueue (s.queue.leave i) s

/-- Change a segment's record and judge its queue-ability. -/
def putSeg (e : QueueEnd) (i : SegNo) (r : Segment) (s : State) : State := sync e i (setSeg i r s)

/-- Judge several segments' queue-ability one after another at the tail: a tail run in the order of the list (R52). -/
def syncTail (is : List SegNo) (s : State) : State := is.foldl (fun s i => sync .tail i s) s

/-- Judge several segments' queue-ability at the head, so that they form one head group in the order of the list (R51): the last
is placed first. -/
def syncHead (is : List SegNo) (s : State) : State := is.reverse.foldl (fun s i => sync .head i s) s

/-! ### The end of an event (R42, R161, R164, R187) -/

/-- An event that began in `before` changed one of the fields that a segment's mirror word shows (R42). -/
def mirrorChanged (before s : State) (i : SegNo) : Bool :=
  mirrorWord before.engine.shown (before.seg i) != mirrorWord s.engine.shown (s.seg i)

/-- The segments whose mirror word an event posts, in ascending order (log 9): those of which it changed a field (R42), and those whose
post a rule of the event names (R65, R68 to R72, R119, R120, R124, R126; log 28). -/
def mirrorsToPost (before s : State) : List SegNo :=
  allSegs.filter fun i => mirrorChanged before s i || s.owed.mirrors.contains i

/-- Post the mirror words of segments, which leaves none owed. -/
def postMirrors (is : List SegNo) (s : State) : State :=
  { is.foldl (fun s i => post (PartWord.offset (.mirror i)) (mirrorWord s.engine.shown (s.seg i)) s) s with
      owed := { s.owed with mirrors := [] } }

/-- Post the engine status word. -/
def postStatus (s : State) : State := post (PartWord.offset .engineStatus) (statusWord s) s

/-- Post the engine status word once for the event, if any of its five fields differs from its value at the start (R161). -/
def postStatusIf (before s : State) : State := if statusFields before = statusFields s then s else postStatus s

/-- The posts that end an event: mirror words, engine status word, result words, event pending word (R42, R161, R164, R172, R187; log
10). Each mirror word is posted once, with its value after the event (R42; log 28). -/
def closePosts (before s : State) : State :=
  postPending (postResults (postStatusIf before (postMirrors (mirrorsToPost before s) s)))

end Sys2Proof.Machine
end

