-- ==== Sys2Proof/Machine/Segments.lean ====
section
/-! DEFINITION. The Segment Table: the changes of one segment record (R18 to R45), the cell write (R31 to R33), forgetting (R38, R39), and the verify outcomes of a pin (R115 to R118) less what they ask of other blocks. -/

namespace Sys2Proof.Machine

/-! ### Target, shadow, lists -/

/-- Pins take the shadow UNKNOWN (R24). -/
def Shadow.forgetPins (h : Shadow) (m : PinSet) : Shadow := ⟨h.up &&& ~~~m, h.down &&& ~~~m⟩

/-- A pin's shadow takes the class sensed: UP gives UP, DOWN gives DOWN, MIDWAY gives UNKNOWN (R23). -/
def Shadow.sense (h : Shadow) (p : Pin) (c : PinClass) : Shadow :=
  let h := h.forgetPins (onePin p)
  match c with
  | .up => { h with up := h.up ||| onePin p }
  | .down => { h with down := h.down ||| onePin p }
  | .midway => h

/-- Pins of a record take the shadow UNKNOWN, and nothing else changes (R24). -/
def Segment.unknow (r : Segment) (m : PinSet) : Segment := { r with shadow := r.shadow.forgetPins m }

/-- A record's shadow takes the results of a job, in order (R120, R125). -/
def Segment.senseAll (r : Segment) (cs : List Conversion) : Segment :=
  { r with shadow := cs.foldl (fun h c => h.sense c.pin c.cls) r.shadow }

/-- Forget: the target absent, the shadow all UNKNOWN, the retry list empty (R38). -/
def Segment.forget (r : Segment) : Segment := { r with target := none, shadow := ⟨0, 0⟩, retry := [] }

/-- Forget and clear the discard-after flag (R39). -/
def Segment.discarded (r : Segment) : Segment := { r.forget with discardAfter := false }

/-- The record that START leaves: marks and masks cleared, forgotten, the fault list kept, UNSURE unless FAULTED (R45). -/
def Segment.initialised (r : Segment) : Segment :=
  { r.forget with
      state := if r.state = .faulted then .faulted else .unsure
      dirty := false
      held := false
      discardAfter := false
      suspectA := 0
      suspectB := 0 }

/-- The retry entry of a pin (R36). -/
def retryOf (r : Segment) (p : Pin) : Option Attempts := (r.retry.find? fun e => e.pin = p).map RetryEntry.count

/-- The retry list without a pin's entry. -/
def dropRetry (es : List RetryEntry) (p : Pin) : List RetryEntry := es.filter fun e => e.pin != p

/-- The retry list with a pin's entry at a count, placed in cell-then-dot order (R36, R116). -/
def putRetry (es : List RetryEntry) (p : Pin) (c : Attempts) : List RetryEntry :=
  (dropRetry es p).filter (fun e => decide (e.pin.val < p.val)) ++ [⟨p, c⟩]
    ++ (dropRetry es p).filter (fun e => decide (p.val < e.pin.val))

/-! ### Suspect marks and cell writes (R29, R31, R32) -/

/-- Set or clear a cell's mark in a mask. -/
def putMark (m : CellSet) (k : Fin 10) (bad : Bool) : CellSet := if bad then m ||| oneCell k else m &&& ~~~oneCell k

/-- Set or clear a cell's mark in the mask of a buffer (R29). -/
def Segment.mark (r : Segment) (buf : Buffer) (k : Fin 10) (bad : Bool) : Segment :=
  match buf with
  | .a => { r with suspectA := putMark r.suspectA k bad }
  | .b => { r with suspectB := putMark r.suspectB k bad }

/-- The shown content may have changed: dirty is set and CLEAN becomes STALE, unless FAULTED (R32). -/
def Segment.touchContent (r : Segment) : Segment :=
  if r.state = .faulted then r
  else { r with dirty := true, state := if r.state = .clean then .stale else r.state }

/-- One cell write report on a record: the mark follows the verdict, and a write to the shown buffer sets dirty (R31, R32). -/
def Segment.cellWrite (r : Segment) (shown : Shown) (buf : Buffer) (k : Fin 10) (bad : Bool) : Segment :=
  let r := r.mark buf k bad
  if shown = buf.shown then r.touchContent else r

/-! ### Forgetting and a capture under way (R22, R74) -/

/-- The capture of a segment learns that the segment has been forgotten while it runs (R22, R74). -/
def noteForgotten (i : SegNo) (s : State) : State :=
  match s.asm with
  | none => s
  | some a =>
    match a.capture with
    | none => s
    | some c =>
      if c.seg = i then { s with asm := some { a with capture := some { c with forgotten := true } } } else s

/-! ### The end of work on a segment (R39, R97, R120, R125, R126) -/

/-- The record after work ends in a state, its results applied: with discard-after set it is forgotten, its flag cleared, and it
is UNSURE (R39). -/
def Segment.ended (r : Segment) (st : SegState) : Segment :=
  if r.discardAfter then { r.discarded with state := .unsure } else { r with state := st }

/-- What an event makes of a segment whose target it has changed: a CLEAN one with changes, or without a target, becomes STALE in a part
that keeps R41 there, and stays CLEAN in one that keeps the event's own rule (log 26). -/
def Segment.keptCleanIf (yields : Bool) (r : Segment) : Segment :=
  if r.state = .clean ∧ (r.target = none ∨ changeSet r ≠ 0) ∧ yields = true then { r with state := .stale } else r

/-! ### Verify outcomes of one pin (R115 to R118) -/

/-- The class a pin reaches when it arrives: UP for a raise-set pin, DOWN for a lower-set pin (R114). -/
def expectedOf (m : Member) (p : Pin) : PinClass := if m.raise.getLsbD p.val then .up else .down

/-- The kind of a pin given up, from its third conversion (R117). -/
def kindOf (c : PinClass) : FaultKind :=
  match c with
  | .up => .stuckUp
  | .down => .stuckDown
  | .midway => .midway

/-- The pin record of a pin given up (R117). -/
def pinRecord (c : Conversion) (shown : Shown) : FaultRecord :=
  ⟨c.seg, pinCell c.pin, pinDot c.pin, (kindOf c.cls).code, 3, shown, c.value.toNat⟩

/-- The SEGMENT_RETIRED record (R118). -/
def retiredRecord (c : Conversion) (shown : Shown) : FaultRecord := ⟨c.seg, pinCell c.pin, 0, 4, 0, shown, 0⟩

/-- A record in the middle of a member's verify outcomes: the record, and the fault records asked for so far. -/
structure Judged where
  record : Segment
  asks   : List FaultRecord
  deriving DecidableEq, Repr

/-- The outcome of one converted pin of an untouched member, in its turn. After a fifth fault the later pins are only made UNKNOWN
(R118). -/
def judgePin (m : Member) (shown : Shown) (j : Judged) (c : Conversion) : Judged :=
  let r := j.record
  if r.state = .faulted then { j with record := r.unknow (onePin c.pin) }
  else if c.cls = expectedOf m c.pin then
    { j with record := { r with shadow := r.shadow.sense c.pin c.cls, retry := dropRetry r.retry c.pin } }
  else
    let r := { r with shadow := r.shadow.sense c.pin c.cls }
    match retryOf r c.pin with
    | none => { j with record := { r with retry := putRetry r.retry c.pin .one } }
    | some .one => { j with record := { r with retry := putRetry r.retry c.pin .two } }
    | some .two =>
      let r := { r with retry := dropRetry r.retry c.pin }
      if r.faults.length < Config.maxFaults then
        ⟨{ r with faults := r.faults ++ [⟨c.pin, kindOf c.cls⟩] }, j.asks ++ [pinRecord c shown]⟩
      else ⟨{ r with state := .faulted }, j.asks ++ [retiredRecord c shown]⟩

/-- The outcomes of a member's converted pins in cell-then-dot order (R97). -/
def judgePins (m : Member) (shown : Shown) (r : Segment) (cs : List Conversion) : Judged :=
  cs.foldl (judgePin m shown) ⟨r, []⟩

end Sys2Proof.Machine
end

