-- ==== Sys2Proof/Machine/Chime.lean ====
section
/-! DEFINITION. The Chime (R195 to R198): requests for the tones and for silence, and the two timer events of the chime. -/

namespace Sys2Proof.Machine

/-- Replace the Chime's state. -/
def setChime (c : Chime) (s : State) : State := { s with chime := c }

/-- The Chime at the start of the page-ready tone's first period (R196). -/
def Chime.startPage (d : Descriptor) : Chime := ⟨.page, some (pageTone d), Timer.start Config.pageToneMs, .none⟩

/-- The Chime at the start of the fault tone's first period (R196). -/
def Chime.startFault (d : Descriptor) : Chime := ⟨.fault, some (faultTone d), Timer.start Config.faultToneMs, .none⟩

/-- A request for the page-ready tone, taken while chime enable is 1 (R195, R197). -/
def requestPageTone (s : State) : State :=
  if chimeEnabled s.engine.copy then
    match s.chime.state with
    | .silent => setChime (Chime.startPage s.engine.copy) s
    | .page => s
    | .fault => s
  else s

/-- A request for the fault tone, taken while chime enable is 1 (R195, R197). -/
def requestFaultTone (s : State) : State :=
  if chimeEnabled s.engine.copy then
    match s.chime.state with
    | .silent => setChime (Chime.startFault s.engine.copy) s
    | .page => setChime { s.chime with next := .fault } s
    | .fault => s
  else s

/-- STOP asks the Chime to fall silent, whatever chime enable holds (R198). -/
def requestSilence (s : State) : State :=
  match s.chime.state with
  | .silent => s
  | .page => setChime { s.chime with next := .silent } s
  | .fault => setChime { s.chime with next := .silent } s

/-- A tone period ends and the Chime looks at the next mark (R196). -/
def periodEnds (s : State) : State :=
  match s.chime.state with
  | .silent => s
  | _ =>
    match s.chime.next with
    | .none => s
    | .silent => setChime Chime.silent s
    | .fault => setChime (Chime.startFault s.engine.copy) s

/-- The duration timer's expiry falls on a period end of the tone under way: the duration, in periods of 1,000 / f ms, is a whole
number (R196). The timer was started with the tone's first period. -/
def Chime.expiresOnPeriodEnd (c : Chime) : Bool :=
  match c.duration, c.tone with
  | .running _ length, some f => length * f % 1000 == 0
  | _, _ => false

/-- The duration timer expires: the next mark becomes SILENT unless it holds FAULT, and where the expiry falls on a period end the
Chime looks at the mark at once (R196; log 23). -/
def durationExpires (s : State) : State :=
  if s.chime.duration.runs then
    let t := setChime { s.chime with duration := .idle, next := if s.chime.next = .fault then .fault else .silent } s
    if s.chime.expiresOnPeriodEnd then periodEnds t else t
  else s

/-- DURATION_TIMER_EXPIRY (R196). -/
def execDurationTimerExpiry (s : State) : Host.Outcome State Fault Refusal := .next (durationExpires s)

/-- PERIOD_END (R196). -/
def execPeriodEnd (s : State) : Host.Outcome State Fault Refusal := .next (periodEnds s)

end Sys2Proof.Machine
end

