-- ==== Sys2Proof/Machine/Settle.lean ====
section
/-! DEFINITION. The end of an event at Engine Control: the settled page and the lag timer (R183 to R185), and then the posts of the event. -/

namespace Sys2Proof.Machine

/-- The lag timer is stopped and cleared, and its warned mark is cleared (R173, R183). -/
def clearLag (s : State) : State := { s with engine := { s.engine with lag := none, lagWarned := false } }

/-- The lag timer starts from 0 (R184). -/
def startLag (s : State) : State := { s with engine := { s.engine with lag := some 0, lagWarned := false } }

/-- The page becomes settled: PAGE_DONE, the page-ready tone when show-pending is set, the lag timer cleared (R183). -/
def pageSettles (s : State) : State :=
  let s := raise .pageDone s
  let s := if s.engine.showPending then
      requestPageTone { s with engine := { s.engine with showPending := false } }
    else s
  clearLag s

/-- Engine Control judges the settled condition at the end of an event that began in `before`; `show` says that the event is a SHOW
taken (R176, R183). Otherwise the lag timer starts when the page has become unsettled, or the engine RUNNING, in the event (R184). -/
def judgeSettled (isShow : Bool) (before s : State) : State :=
  if settled s then (if !settled before || isShow then pageSettles s else s)
  else if s.engine.state = .running ∧ (settled before ∨ before.engine.state ≠ .running) then startLag s
  else s

/-- The end of an event that began in `before`. -/
def closeEvent (before s : State) : State := closePosts before (judgeSettled false before s)

/-- The end of a SHOW event. -/
def closeShow (before s : State) : State := closePosts before (judgeSettled true before s)

end Sys2Proof.Machine
end

