-- ==== Sys2Proof/Machine/Assembler.lean ====
section
/-! DEFINITION. The Assembler: walk start, the walk, capture start and end, walk end (R56, R63 to R74). -/

namespace Sys2Proof.Machine

/-- Replace the Assembler's record. -/
def setAsm (a : Option Assembly) (s : State) : State := { s with asm := a }

/-- The record a walk starts with (R64). -/
def Assembly.started : Assembly := ⟨.assembling, [], [], none⟩

/-- The remaining budget: 240 less the total cost (R62). -/
def budgetLeft (a : Assembly) : Nat := Config.budget - totalCost a.members

/-- The record takes no further member: 4 members, or a remaining budget of 0 (R73). -/
def Assembly.full (a : Assembly) : Bool := Nat.ble Config.maxMembers a.members.length || budgetLeft a == 0

/-- The walk ends: the mark is cleared, and the record becomes ARMED or, with no member, is dropped (R73). -/
def walkEnd (a : Assembly) (s : State) : State :=
  let s := setQueue s.queue.endWalk s
  if a.members.isEmpty then setAsm none s else setAsm (some { a with phase := .armed, captured := [], capture := none }) s

/-- Capture start on an entry: it becomes CAPTURING with dirty clear, in its place, its mirror word is posted, and the shown buffer is
recorded (R65). -/
def captureStart (i : SegNo) (s : State) : State :=
  let s := match s.asm with
    | none => s
    | some a => setAsm (some { a with captured := i :: a.captured, capture := some ⟨i, s.engine.shown, [], false, false⟩ }) s
  oweMirror i (putSeg .tail i { s.seg i with state := .capturing, dirty := false } s)

/-- The ten cell bytes of a capture, cell 0 first (R66). -/
def Capture.cells (c : Capture) : List Byte := bytesOf c.words

/-- The target a capture forms; under NONE every pin is DOWN (R67). -/
def Capture.target (d : Descriptor) (c : Capture) : PinSet := if c.buffer = .none then 0 else targetOf d c.cells

/-- The outcomes of a capture end on a segment still CAPTURING, the first that applies (R68 to R72): the record, and the member it
becomes. -/
def captureOutcome (a : Assembly) (c : Capture) (d : Descriptor) (r : Segment) : Segment × Option Member :=
  if c.badRead then ({ r with target := none, state := .stale }, none)
  else
    let r := { r with target := some (c.target d) }
    if r.dirty then ({ r with state := .stale }, none)
    else if changeSet r = 0 then ({ r with state := .clean }, none)
    else if a.members.length < Config.maxMembers ∧ costOf (raiseSet r) (lowerSet r) ≤ budgetLeft a then
      ({ r with state := .member }, some ⟨c.seg, raiseSet r, lowerSet r, false⟩)
    else ({ r with state := .stale }, none)

/-- A segment that has left CAPTURING at the end of its capture: it becomes no member and stays in the state it has reached; the target is
stored when the segment was not forgotten and no read was bad, and absent after a bad read (R22, R74; log 15). -/
def captureMovedOn (c : Capture) (d : Descriptor) (r : Segment) : Segment :=
  if c.badRead then { r with target := none }
  else if c.forgotten then r
  else { r with target := some (c.target d) }

/-- The Segment Table judges R41 for a segment at the end of its capture: whether a CLEAN one whose new target leaves changes, or that is
left without one, stays CLEAN is free (R41, R74; log 26). -/
def keepClean (i : SegNo) (s : State) : State := setSeg i ((s.seg i).keptCleanIf Config.captureGivesWay) s

/-- What capture end makes of the segment and of the Assembler's record (R67 to R74), less the judging of the queue. The mirror word of a
segment still CAPTURING is posted (R68 to R72). -/
def captureStore (s : State) : State :=
  match s.asm with
  | none => s
  | some a =>
    match a.capture with
    | none => s
    | some c =>
      if (s.seg c.seg).state = .capturing then
        let o := captureOutcome a c s.engine.copy (s.seg c.seg)
        oweMirror c.seg (setSeg c.seg o.1 (setAsm (some { a with members := a.members ++ o.2.toList, capture := none }) s))
      else
        setSeg c.seg (captureMovedOn c s.engine.copy (s.seg c.seg)) (setAsm (some { a with capture := none }) s)

/-- Capture start and capture end in one event, under NONE (R66). A member leaves the queue at once: it passes every test of a recheck in the
same event, its line free, its dirty mark clear and no segment suspect under NONE, so none that could wait in the queue is dropped there. -/
def captureNone (i : SegNo) (s : State) : State := sync .tail i (captureStore (captureStart i s))

/-- The walk moves its mark past the entry behind it. -/
def Queue.passMark (q : Queue) (i : SegNo) (rest : List SegNo) : Queue := { q with ahead := q.ahead ++ [i], behind := rest }

/-- An entry is eligible for capture by a walk: STALE on a line neither claimed nor shielded, and not already captured by it (R56). -/
def eligible (a : Assembly) (s : State) (i : SegNo) : Bool := freeStale s i && !a.captured.contains i

/-- The walk goes on: it ends at a full record or at the tail, starts a capture at the first eligible entry, and passes over the
others; under NONE a capture ends in the same event and the walk goes on (R56, R64, R66, R73). The first argument bounds the number
of entries examined. -/
def walkOn : Nat → State → State
  | 0, s => s
  | n + 1, s =>
    match s.asm with
    | none => s
    | some a =>
      if a.full then walkEnd a s
      else
        match s.queue.behind with
        | [] => walkEnd a s
        | i :: rest =>
          if eligible a s i then
            let s := setQueue (s.queue.passMark i rest) s
            if s.engine.shown = .none then walkOn n (captureNone i s) else captureStart i s
          else walkOn n (setQueue (s.queue.passMark i rest) s)

/-- The walk goes on from its mark: it examines each entry behind the mark at most once, and then ends. -/
def walkFromMark (s : State) : State := walkOn (s.queue.behind.length + 1) s

/-- The condition for starting a walk (R63). -/
def walkReady (s : State) : Bool :=
  s.engine.state == .running && s.asm.isNone && s.queue.entries.any (freeStale s)

/-- A walk starts (R64). -/
def startWalk (s : State) : State := walkFromMark (setAsm (some Assembly.started) (setQueue s.queue.startWalk s))

end Sys2Proof.Machine
end

