-- ==== Sys2Proof/Machine/EventUnit.lean ====
section
/-! DEFINITION. The Event Unit: the event set and clear words (R7, R188), the fault ring (R191, R192) and the ring consumer count (R193). -/

namespace Sys2Proof.Machine

/-- The records written and not yet consumed, (P − v) mod 256, for a consumer count v (R191, R193). -/
def unconsumed (producer v : BitVec 8) : Nat := (producer - v).toNat

/-- The posts of the words of a fault record at the producer count (R191). -/
def recordPosts (producer : BitVec 8) (f : FaultRecord) : List (Nat × Word) :=
  let slot := producer.toNat % Config.ringSlots
  f.words.zipIdx.map fun p => (0x1400 + 8 * slot + 2 * p.2, p.1)

/-- The ring producer count word. -/
def postProducer (s : State) : State := post (PartWord.offset .ringProducer) (s.events.producer.setWidth 16) s

/-- A request for a fault record: FAULT_NEW is raised, and the record is written or, with the ring full, lost with RING_FULL
(R191, R192). -/
def requestRecord (f : FaultRecord) (s : State) : State :=
  let s := raise .faultNew s
  if unconsumed s.events.producer s.events.consumer < Config.ringSlots then
    let s := postAll (recordPosts s.events.producer f) s
    postProducer { s with events := { s.events with producer := s.events.producer + 1 } }
  else raise .ringFull s

/-- What the Segment Table asks for a pin given up or a segment retired: a fault record with FAULT_NEW, and the fault tone (R117,
R118). -/
def reportFault (f : FaultRecord) (s : State) : State := requestFaultTone (requestRecord f s)

/-- A set-word write adds its one-bits to the pending set (R7, R188). -/
def setEvents (w : HostWrite) (s : State) : State :=
  { s with events := { s.events with pending := s.events.pending ||| w.bits.setWidth 13 },
           owed := { s.owed with pending := true } }

/-- A clear-word write removes its one-bits from the pending set (R7, R188). -/
def clearEvents (w : HostWrite) (s : State) : State :=
  { s with events := { s.events with pending := s.events.pending &&& ~~~w.bits.setWidth 13 },
           owed := { s.owed with pending := true } }

/-- A consumer count is offered: accepted when (P − v) mod 256 is 64 or less, refused with RING_INDEX_BAD otherwise (R193). -/
def offerConsumer (v : BitVec 8) (s : State) : State :=
  if unconsumed s.events.producer v ≤ Config.ringSlots then { s with events := { s.events with consumer := v } }
  else raise .ringIndexBad s

/-- A host write to the event set word: not forwarded (R7). -/
def eventSetWrite (w : HostWrite) (s : State) : State := postPending (setEvents w s)

/-- A host write to the event clear word: not forwarded (R7). -/
def eventClearWrite (w : HostWrite) (s : State) : State := postPending (clearEvents w s)

/-- A host write to the ring consumer count: forwarded, and its low byte offered when it is enabled (R5, R193). -/
def ringConsumerWrite (w : HostWrite) (s : State) : State :=
  let s := forwardArea ringConsumerOffset w s
  if w.enLow then postPending (offerConsumer (lowByte w.data) s) else s

/-- EVENT_SET_WORD_WRITE (R188). -/
def execEventSetWordWrite (w : HostWrite) (s : State) : Host.Outcome State Fault Refusal := .next (eventSetWrite w s)

/-- EVENT_CLEAR_WORD_WRITE (R188). -/
def execEventClearWordWrite (w : HostWrite) (s : State) : Host.Outcome State Fault Refusal := .next (eventClearWrite w s)

/-- RING_CONSUMER_COUNT_WRITE (R193). -/
def execRingConsumerCountWrite (w : HostWrite) (s : State) : Host.Outcome State Fault Refusal :=
  .next (ringConsumerWrite w s)

end Sys2Proof.Machine
end

