-- ==== Sys2Proof/Machine/Strokes.lean ====
section
/-! DEFINITION. The Stroke Unit: drive start and recheck (R84 to R87), the drive, settle and recharge timers (R89 to R91), touched marks (R92), stroke end (R95 to R97) and stroke abort (R98, R99), less the judgings that follow them. -/

namespace Sys2Proof.Machine

/-- Replace the Stroke Unit's state. -/
def setStroke (u : StrokeUnit) (s : State) : State := { s with stroke := u }

/-! ### Drive start -/

/-- The conditions for drive start (R84). -/
def driveReady (s : State) : Bool :=
  (match s.asm with
    | some a => a.phase == .armed
    | none => false)
  && s.stroke.driven.isNone && s.stroke.chargeReady && s.gate.state == .opened && s.engine.state == .running
  && s.conv.job.isNone

/-- The recheck of one member: it is dropped when held, suspect or dirty, or its line is claimed or shielded (R85). -/
def dropped (s : State) (m : Member) : Bool :=
  let r := s.seg m.seg
  r.held || suspect s.engine.shown r || r.dirty || claimed s (lineOf m.seg) || shielded s (lineOf m.seg)

/-- Give segments a state, their records otherwise kept. -/
def setStates (st : SegState) (is : List SegNo) (s : State) : State :=
  is.foldl (fun s i => setSeg i { s.seg i with state := st } s) s

/-- Drive start: the recheck, and the drive with the members that remain, or the record discarded (R85 to R87). -/
def driveStart (s : State) : State :=
  match s.asm with
  | none => s
  | some a =>
    let out := (a.members.filter (dropped s)).map Member.seg
    let kept := (a.members.filter fun m => !dropped s m).map fun m => { m with touched := false }
    let s := syncHead out (setStates .stale out (setAsm none s))
    if kept.isEmpty then s
    else
      let s := syncTail (kept.map Member.seg) (setStates .moving (kept.map Member.seg) s)
      setStroke { s.stroke with
        driven := some ⟨.drive, kept⟩
        drive := Timer.start (drivePulse s.engine.copy)
        chargeReady := false } s

/-! ### Timers -/

/-- The recharge timer is loaded with the recharge length and started (R91). -/
def startRecharge (s : State) : State :=
  setStroke { s.stroke with recharge := Timer.start (rechargeLength s.engine.copy) } s

/-- Drive timer expiry: the pulse ends, the phase becomes SETTLE, the settle and recharge timers start (R89). -/
def driveExpires (s : State) : State :=
  match s.stroke.driven with
  | none => s
  | some d =>
    if d.phase = .drive ∧ s.stroke.drive.runs then
      startRecharge (setStroke { s.stroke with
        driven := some { d with phase := .settle }
        drive := .idle
        settle := Timer.start Config.settleMs } s)
    else s

/-- DRIVE_TIMER_EXPIRY (R89). -/
def execDriveTimerExpiry (s : State) : Host.Outcome State Fault Refusal := .next (closePosts s (driveExpires s))

/-! ### Touched marks (R92) -/

/-- A member's conversions have ended: the stroke is in VERIFY and no pin of the member is still to convert (R92, R114). -/
def conversionsEnded (s : State) (d : Driven) (m : Member) : Bool :=
  d.phase == .verify &&
    (match s.conv.job with
      | some j => !(j.todo.any fun t => t.1 == m.seg)
      | none => true)

/-- A shield has come on: mark the members of the driven stroke on the line whose conversions have not ended (R92, R138). -/
def touchStroke (l : LineNo) (s : State) : State :=
  match s.stroke.driven with
  | none => s
  | some d =>
    let mark (m : Member) : Member :=
      if lineOf m.seg = l ∧ conversionsEnded s d m = false then { m with touched := true } else m
    setStroke { s.stroke with driven := some { d with members := d.members.map mark } } s

/-! ### Stroke end (R95 to R97) -/

/-- The finish of a touched member: its driven pins UNKNOWN and the segment UNSURE at the head (R96). -/
def finishTouched (m : Member) (r : Segment) : Segment := (r.unknow (m.raise ||| m.lower)).ended .unsure

/-- The state of an untouched member after its outcomes, by the first case that applies (R97). -/
def finishUntouched (r : Segment) : Segment :=
  if r.state = .faulted then (if r.discardAfter then r.discarded else r)
  else r.ended (if changeSet r ≠ 0 ∨ r.dirty then .stale else .clean)

/-- Finish one member with the results of the job; queue-ability is judged after all members (R95 to R97). -/
def finishMember (results : List Conversion) (m : Member) (s : State) : State :=
  let r := s.seg m.seg
  let s := if r.discardAfter then noteForgotten m.seg s else s
  if m.touched then setSeg m.seg (finishTouched m r) s
  else
    let j := judgePins m s.engine.shown r (results.filter fun c => c.seg = m.seg)
    j.asks.foldl (fun s f => reportFault f s) (setSeg m.seg (finishUntouched j.record) s)

/-- The members of a stroke end bound for the tail: untouched, with discard-after set (R39, R97). -/
def tailBound (s : State) (ms : List Member) : List SegNo :=
  (ms.filter fun m => !m.touched && (s.seg m.seg).discardAfter).map Member.seg

/-- The members of a stroke end bound for the head if they are queue-able: the others (R51, R96, R97). -/
def headBound (s : State) (ms : List Member) : List SegNo :=
  (ms.filter fun m => m.touched || !(s.seg m.seg).discardAfter).map Member.seg

/-- Stroke end: the members are finished in member order and the record is freed; then the head-bound members join as one head
group and the tail-bound ones after them, in member order (R51, R52, R95). -/
def strokeEnd (results : List Conversion) (s : State) : State :=
  match s.stroke.driven with
  | none => s
  | some d =>
    let heads := headBound s d.members
    let tails := tailBound s d.members
    let s := d.members.foldl (fun s m => finishMember results m s) s
    syncTail tails (syncHead heads (setStroke { s.stroke with driven := none } s))

/-! ### Stroke abort (R98, R99) -/

/-- An aborted member: its driven pins UNKNOWN and the segment UNSURE, forgotten with discard-after set (R98, R99). -/
def abortMember (m : Member) (s : State) : State :=
  let r := s.seg m.seg
  let s := if r.discardAfter then noteForgotten m.seg s else s
  setSeg m.seg ((r.unknow (m.raise ||| m.lower)).ended .unsure) s

/-- The gate leaves OPEN while the driven stroke is in DRIVE: the pulse is cut, the members become UNSURE and rejoin as one head
group (R98). -/
def abortDrive (s : State) : State :=
  match s.stroke.driven with
  | none => s
  | some d =>
    if d.phase = .drive then
      let s := d.members.foldl (fun s m => abortMember m s) s
      syncHead (d.members.map Member.seg) (setStroke { s.stroke with driven := none, drive := .idle } s)
    else s

end Sys2Proof.Machine
end

