-- ==== Sys2Proof/Machine/Sensing.lean ====
section
/-! DEFINITION. The Sense Converter: the arbiter and its hold-back (R112, R113), the start of the three kinds of job (R114, R119, R124), a conversion's end (R108 to R110), the ends of sweeps and SENSE jobs (R120, R125 to R127); and the judging of new work that follows an event (R63, R84, R112). -/

namespace Sys2Proof.Machine

/-- Replace the Sense Converter's state. -/
def setConv (c : Converter) (s : State) : State := { s with conv := c }

/-! ### The converter arbiter (R112, R113) -/

/-- An ARMED record waits for nothing but the converter: the arbiter grants no SWEEP and no SENSE job (R113). -/
def holdBack (s : State) : Bool :=
  (match s.asm with
    | some a => a.phase == .armed
    | none => false)
  && s.stroke.driven.isNone && s.stroke.chargeReady && s.gate.state == .opened && s.engine.state == .running

/-- No stroke is in DRIVE or SETTLE (R112). -/
def pulseQuiet (s : State) : Bool :=
  match s.stroke.driven with
  | none => true
  | some d => d.phase == .verify

/-- The arbiter may grant a SWEEP or SENSE job if one is requested (R112, R113). -/
def mayGrant (s : State) : Bool :=
  s.conv.state == .standby && s.conv.job.isNone && pulseQuiet s && !holdBack s

/-- A state in which a segment of a SENSE's range is eligible (R123). -/
def SegState.senseable : SegState → Bool
  | .clean => true
  | .stale => true
  | .unsure => true
  | .faulted => true
  | .capturing => false
  | .member => false
  | .moving => false
  | .verifying => false
  | .sensing => false

/-- The segments of a SENSE's range, in ascending order. -/
def SenseRecord.range (r : SenseRecord) : List SegNo := segRange r.first r.count

/-- A segment of the range is eligible for a SENSE job (R123). -/
def senseEligible (r : SenseRecord) (s : State) (i : SegNo) : Bool :=
  !r.done.contains i && (s.seg i).state.senseable && !shielded s (lineOf i)

/-- The lowest-numbered eligible segment not yet done of an outstanding SENSE (R123). -/
def sensePick (s : State) : Option SegNo :=
  match s.conv.sense with
  | none => none
  | some r => r.range.find? (senseEligible r s)

/-- Grant a job: its first conversion starts with the tap on its segment (R108, R111). -/
def grant (j : Job) (s : State) : State :=
  setConv { s.conv with state := .converting, tap := j.todo.head?.map Prod.fst, job := some j } s

/-- Grant a SWEEP: the segment becomes SENSING and leaves the queue, its mirror word is posted, and its pins outside the fault list are
converted (R119). -/
def startSweep (i : SegNo) (s : State) : State :=
  let r := s.seg i
  grant ⟨.sweep, [i], (pinsOf (~~~faultPins r)).map fun p => (i, p), [], false, r.state⟩
    (oweMirror i (putSeg .tail i { r with state := .sensing } s))

/-- Grant a SENSE job: unless it is FAULTED the segment becomes SENSING and its mirror word is posted, and all 80 pins are converted
(R124). -/
def startSense (i : SegNo) (s : State) : State :=
  let r := s.seg i
  grant ⟨.sense, [i], allPins.map fun p => (i, p), [], false, r.state⟩
    (if r.state = .faulted then s else oweMirror i (putSeg .tail i { r with state := .sensing } s))

/-- The arbiter judges a grant: SWEEP before SENSE (R58, R112). -/
def judgeGrant (s : State) : State :=
  if mayGrant s then
    match s.queue.entries.find? (sweepable s) with
    | some i => startSweep i s
    | none =>
      match sensePick s with
      | some i => startSense i s
      | none => s
  else s

/-! ### Judging new work after an event -/

/-- One round of the judging of drive start and walk start (R63, R84). -/
def workRound (s : State) : State :=
  if driveReady s then driveStart s else if walkReady s then startWalk s else s

/-- The judging of drive start and walk start until neither can start: a recheck that drops every member, a walk that ends at once
under NONE and a drive start each let the other be judged again in the same event (R73, R84, R86, R87). Five rounds are the most an
event can need (log 12). -/
def judgeWork (s : State) : State := Nat.repeat workRound 8 s

/-- What an event may start: drives and walks, and then the converter arbiter's grant, since a recheck may end its hold-back (R63,
R84, R112, R113; log 11). -/
def judge (s : State) : State := judgeGrant (judgeWork s)

/-- No segment is UNSURE or SENSING (R170). -/
def sweptThrough (s : State) : Bool :=
  allSegs.all fun i => (s.seg i).state != .unsure && (s.seg i).state != .sensing

/-- The end of LOADING, judged at acceptance and at the end of each sweep (R170). -/
def judgeLoading (s : State) : State :=
  if s.engine.state = .loading ∧ s.engine.reading.isNone ∧ sweptThrough s then
    giveResult 1 .done { s with engine := { s.engine with state := .running, startOut := false } }
  else s

/-! ### The ends of jobs -/

/-- The job and its state leave the converter, which is in STANDBY (R111). -/
def freeJob (s : State) : State := setConv { s.conv with state := .standby, job := none } s

/-- The end of a job learns of a discard-after flag: a capture of the segment still under way finds it forgotten (R39, R74). -/
def noteIfDiscarded (i : SegNo) (s : State) : State := if (s.seg i).discardAfter then noteForgotten i s else s

/-- The end of an untouched sweep: the shadows sensed, STALE at the head, or UNSURE at the tail with discard-after set (R120). -/
def sweepUntouched (j : Job) (i : SegNo) (s : State) : State :=
  let r := s.seg i
  putSeg (if r.discardAfter then .tail else .head) i ((r.senseAll j.results).ended .stale) (noteIfDiscarded i s)

/-- The end of a touched sweep: the results thrown away, UNSURE at the head (R120). -/
def sweepTouched (i : SegNo) (s : State) : State :=
  putSeg .head i ((s.seg i).ended .unsure) (noteIfDiscarded i s)

/-- The end of a sweep, with its mirror word's post, and then the judging of the end of LOADING (R120, R170). -/
def sweepEnd (j : Job) (i : SegNo) (s : State) : State :=
  judgeLoading (oweMirror i (if j.touched then sweepTouched i s else sweepUntouched j i s))

/-- The dots of a cell that a job sensed with a class, dot d at bit d - 1. -/
def dotsSensed (cls : PinClass) (cs : List Conversion) (cell : Nat) : Byte :=
  cs.foldl (fun m c => if c.cls = cls ∧ pinCell c.pin = cell then m ||| (1#8 <<< (pinDot c.pin - 1)) else m) 0

/-- The dots of a cell in a record's fault list. -/
def dotsFaulted (r : Segment) (cell : Nat) : Byte := (faultPins r).extractLsb' (8 * cell) 8

/-- The sense image word of a cell: the UP byte and the DOUBT byte (01, Sense image word; R125). -/
def senseImageWord (r : Segment) (cs : List Conversion) (cell : Nat) : Word :=
  wordOf (dotsSensed .up cs cell) (dotsSensed .midway cs cell ||| dotsFaulted r cell)

/-- The page cell that is cell k of a segment (R18). -/
def cellOf (i : SegNo) (k : Fin 10) : Fin 960 := ⟨10 * i.val + k.val, by omega⟩

/-- The ten posts of the sense image words of a segment, in ascending cell order (R125). -/
def imagePosts (i : SegNo) (r : Segment) (cs : List Conversion) : List (Nat × Word) :=
  (List.finRange 10).map fun k => (PartWord.offset (.senseImage (cellOf i k)), senseImageWord r cs k.val)

/-- The state of a segment after an untouched SENSE job, its shadow sensed, by the first case that applies (R125). -/
def senseUntouchedRecord (before : SegState) (r : Segment) : Segment :=
  if before = .faulted ∧ r.state = .faulted then r
  else r.ended (if r.target.isSome ∧ r.dirty = false ∧ changeSet r = 0 then .clean else .stale)

/-- The state of a segment after a touched SENSE job (R126). One that was CLEAN before returns to CLEAN "when its dirty mark is clear and its
change set is empty, as R126 gives" (R41), and so also where it has lost its target (R25). A segment freed from FAULTED during the job counts
as one that was UNSURE before (R122). -/
def senseTouchedRecord (before : SegState) (r : Segment) : Segment :=
  if before = .faulted ∧ r.state = .faulted then r
  else
    r.ended (
      if before = .clean then
        (if r.dirty then .stale else if changeSet r = 0 then .clean else .unsure)
      else if before = .faulted then .unsure
      else before)

/-- Set a segment's done mark in the SENSE job record (R125). -/
def markDone (i : SegNo) (s : State) : State :=
  setConv { s.conv with sense := s.conv.sense.map fun r => { r with done := i :: r.done } } s

/-- The SENSE command completes when its last done mark is set: DONE, and the record is freed (R127). -/
def senseCompletes (s : State) : State :=
  match s.conv.sense with
  | none => s
  | some r =>
    if r.range.all fun i => r.done.contains i then giveResult 10 .done (setConv { s.conv with sense := none } s) else s

/-- The end of an untouched SENSE job: the sense image, the shadows, the done mark, the state (R125). -/
def senseUntouched (j : Job) (i : SegNo) (s : State) : State :=
  let r := s.seg i
  let s := markDone i (postAll (imagePosts i r j.results) s)
  let q : QueueEnd := if r.discardAfter then .tail else .head
  putSeg q i (senseUntouchedRecord j.before (r.senseAll j.results)) (noteIfDiscarded i s)

/-- The end of a touched SENSE job: no sense image word is posted, the done mark stays clear, and the mirror word is posted whether or not
it changed (R126). -/
def senseTouched (j : Job) (i : SegNo) (s : State) : State :=
  oweMirror i (putSeg .head i (senseTouchedRecord j.before (s.seg i)) (noteIfDiscarded i s))

/-- The end of a SENSE job (R125 to R127). -/
def senseEnd (j : Job) (i : SegNo) (s : State) : State :=
  senseCompletes (if j.touched then senseTouched j i s else senseUntouched j i s)

/-- The end of a job whose last conversion has ended (R95, R120, R125 to R127). -/
def jobEnd (j : Job) (s : State) : State :=
  let s := freeJob s
  match j.kind with
  | .verify => strokeEnd j.results s
  | .sweep =>
    match j.segs with
    | [] => s
    | i :: _ => sweepEnd j i s
  | .sense =>
    match j.segs with
    | [] => s
    | i :: _ => senseEnd j i s

/-! ### A conversion's end (R108 to R110) -/

/-- The value is handed to the job; the next pin's conversion starts, on its own segment's tap, or the job ends (R108, R110, R114). -/
def takeValue (j : Job) (i : SegNo) (p : Pin) (rest : List (SegNo × Pin)) (v : BitVec 10) (s : State) : State :=
  let j := { j with todo := rest, results := j.results ++ [⟨i, p, v, classify s.engine.copy v⟩] }
  match rest with
  | [] => judge (jobEnd j s)
  | next :: _ => setConv { s.conv with tap := some next.1, job := some j } s

/-- A conversion ends. A warm-up's value is thrown away and the same pin is converted again; the mark is cleared when that second
conversion's value is handed to the job (R109). -/
def conversionEnds (v : BitVec 10) (s : State) : State :=
  if s.conv.state = .converting then
    match s.conv.job with
    | none => s
    | some j =>
      match j.todo with
      | [] => s
      | (i, p) :: rest =>
        if s.conv.warmUp = .set then setConv { s.conv with warmUp := .made } s
        else takeValue j i p rest v (setConv { s.conv with warmUp := .clear } s)
  else s

/-- CONVERSION_END (R108). -/
def execConversionEnd (v : BitVec 10) (s : State) : Host.Outcome State Fault Refusal :=
  .next (closeEvent s (conversionEnds v s))

/-! ### The settle and recharge timers (R90, R91) -/

/-- The pins a VERIFY job converts: for each member in order the union of its sets, in cell-then-dot order (R114). -/
def verifyPins (ms : List Member) : List (SegNo × Pin) :=
  ms.flatMap fun m => (pinsOf (m.raise ||| m.lower)).map fun p => (m.seg, p)

/-- Settle timer expiry: the members become VERIFYING and the VERIFY job is granted at once (R90, R114). -/
def settleExpires (s : State) : State :=
  match s.stroke.driven with
  | none => s
  | some d =>
    if d.phase = .settle ∧ s.stroke.settle.runs then
      let segs := d.members.map Member.seg
      let s := syncTail segs (setStates .verifying segs s)
      let s := setStroke { s.stroke with driven := some { d with phase := .verify }, settle := .idle } s
      grant ⟨.verify, segs, verifyPins d.members, [], false, .unsure⟩ s
    else s

/-- SETTLE_TIMER_EXPIRY (R90). -/
def execSettleTimerExpiry (s : State) : Host.Outcome State Fault Refusal := .next (closeEvent s (settleExpires s))

/-- Recharge timer expiry: charge-ready is set, and drive start is judged (R84, R91). -/
def rechargeExpires (s : State) : State :=
  if s.stroke.recharge.runs then judge (setStroke { s.stroke with recharge := .idle, chargeReady := true } s) else s

/-- RECHARGE_TIMER_EXPIRY (R91). -/
def execRechargeTimerExpiry (s : State) : Host.Outcome State Fault Refusal := .next (closeEvent s (rechargeExpires s))

end Sys2Proof.Machine
end

