-- ==== Sys2Proof/Machine/Capture.lean ====
section
/-! DEFINITION. The internal reads of a capture: a word read ends, its bytes are parity checked, and after the fifth the capture ends (R15, R34, R66). -/

namespace Sys2Proof.Machine

/-- A read of the part that STOP has abandoned finishes at the port, and its data is discarded (R9, R81, R166; log 20). -/
def abandonedRead (s : State) : State := if s.bus.arbiter.abandoned then servedPart .read s else s

/-- The offset of read j of a capture (R66). -/
def captureOffset (buf : Buffer) (i : SegNo) (j : Nat) : Nat := buf.offset + 10 * i.val + 2 * j

/-- The cell within its segment that byte h (0 low, 1 high) of read j holds (R66). -/
def readCell (j h : Nat) : Fin 10 := ⟨(2 * j + h) % 10, by omega⟩

/-- The verdict on one byte of a capture read: a bad one marks its cell in the mask of the buffer read, posts the parity detail word
with the source bit set, and raises PARITY (R15, R34; log 14). -/
def captureByte (buf : Buffer) (i : SegNo) (k : Fin 10) (bad : Bool) (s : State) : State :=
  if bad then
    raise .parity (post (PartWord.offset .parityDetail) (parityDetail buf (cellOf i k) true)
      (putSeg .tail i ((s.seg i).mark buf k true) s))
  else s

/-- Capture end, and the walk and the new work that go on from it (R67 to R74). The member that it makes leaves the queue at once, so that one
which a recheck drops in the same event rejoins at the head in one group with the other dropped members (R50, R51, R85); in a part that keeps
R61 there, its queue-ability is judged at the event's end, so that one which is dropped keeps its place. Which of the two the part does is
free (log 30). -/
def captureEnd (i : SegNo) (s : State) : State :=
  let s := keepClean i (captureStore s)
  if (s.seg i).state = .member ∧ Config.droppedKeepsPlace = true then sync .tail i (judge (walkFromMark s))
  else judge (walkFromMark (sync .tail i s))

/-- A capture read ends with a word and the verdicts of its two bytes, low byte first (R15, R66). -/
def captureTakes (a : Assembly) (c : Capture) (buf : Buffer) (w : Word) (badLow badHigh : Bool) (s : State) : State :=
  let j := c.words.length
  let s := captureByte buf c.seg (readCell j 1) badHigh (captureByte buf c.seg (readCell j 0) badLow s)
  let c := { c with words := c.words ++ [w], badRead := c.badRead || badLow || badHigh }
  let s := setAsm (some { a with capture := some c }) s
  if c.words.length < 5 then s else captureEnd c.seg s

/-- A capture read ends: the word memory holds, and its parity (R15, R66). -/
def captureReadEnds (s : State) : State :=
  match s.asm with
  | none => abandonedRead s
  | some a =>
    match a.capture with
    | none => abandonedRead s
    | some c =>
      match c.buffer.buffer with
      | none => abandonedRead s
      | some buf =>
        let at' := areaBase s + captureOffset buf c.seg c.words.length
        captureTakes a c buf (s.mem.word at') (!goodParity (s.mem.byte at') (s.mem.par at'))
          (!goodParity (s.mem.byte (at' + 1)) (s.mem.par (at' + 1))) (servedPart .read s)

/-- CAPTURE_READ_END (R66). -/
def execCaptureReadEnd (s : State) : Host.Outcome State Fault Refusal := .next (closeEvent s (captureReadEnds s))

end Sys2Proof.Machine
end

