-- ==== Sys2Proof/Machine/Claims.lean ====
section
/-! DEFINITION. The Claim Table (R144 to R157), the accesses to the claim words (R8, R10) and the dropped host write (R6, R8). -/

namespace Sys2Proof.Machine

/-- Replace the claim record of a line. -/
def setClaim (l : LineNo) (c : Claim) (s : State) : State :=
  { s with claims := { s.claims with lines := s.claims.lines.set l c } }

/-- The engine is OFF. -/
def isOff (s : State) : Bool := s.engine.state == .off

/-! ### Dropped writes (R6, R8) -/

/-- A host write to the word at an offset is dropped: the owned-write detail word is posted and OWNED_WRITE raised, and then the event
pending word (R6, R8, R187, R190). -/
def dropWrite (off : Nat) (s : State) : State :=
  postPending (raise .ownedWrite (post (PartWord.offset .ownedDetail) (BitVec.ofNat 16 off) s))

/-! ### Taking a claim (R10, R146) -/

/-- The part's write of a word outside the post list: the second half of a take (R10). -/
def writeWord (off : Nat) (v : Word) (s : State) : State := { s with mem := s.mem.storeWord (areaBase s + off) v }

/-- A host read of a claim word, a take when the engine is not OFF and the line is FREE (R10, R146). -/
def claimRead (l : LineNo) (enLow enHigh : Bool) (s : State) : State :=
  let s := readArea (claimOffset l) enLow enHigh s
  if isOff s = false ∧ claimed s l = false then
    writeWord (claimOffset l) 1 (setClaim l ⟨.taken, some 0, false⟩ s)
  else s

/-- CLAIM_WORD_READ (R146). -/
def execClaimWordRead (l : LineNo) (enLow enHigh : Bool) (s : State) : Host.Outcome State Fault Refusal :=
  .next (claimRead l enLow enHigh s)

/-! ### Freeing a claim (R8, R147 to R149, R155) -/

/-- A release of a TAKEN line frees it, and walk start is judged; a release of a FREE line changes nothing (R147, R155). -/
def releaseClaim (l : LineNo) (s : State) : State :=
  if claimed s l then closeEvent s (judge (setClaim l Claim.freed s)) else s

/-- A host write to a claim word (R8, R147 to R149). -/
def claimWrite (l : LineNo) (w : HostWrite) (s : State) : State :=
  if isOff s then forwardArea (claimOffset l) w s
  else if w.allZero then
    let s := forwardArea (claimOffset l) w s
    if w.enLow then releaseClaim l s else s
  else dropWrite (claimOffset l) s

/-- CLAIM_WORD_WRITE (R8). -/
def execClaimWordWrite (l : LineNo) (w : HostWrite) (s : State) : Host.Outcome State Fault Refusal :=
  .next (claimWrite l w s)

/-! ### The claim timer (R150, R151, R156) -/

/-- The count at which a timer with a limit reaches its warn point, three quarters of the limit (R150, R184). -/
def warnCount (limit : Nat) : Nat := (3 * limit + 3) / 4

/-- A TAKEN line's warn point: the warned mark is set and CLAIM_WARN raised (R150). -/
def claimWarns (l : LineNo) (s : State) : State := raise .claimWarn (setClaim l { s.claim l with warned := true } s)

/-- A TAKEN line's claim expires: FREE, 0 posted to its claim word, its number to the claim detail word, CLAIM_EXPIRED raised (R151). -/
def claimExpires (l : LineNo) (s : State) : State :=
  raise .claimExpired (post (PartWord.offset .claimDetail) (BitVec.ofNat 16 l.val)
    (post (claimOffset l) 0 (setClaim l Claim.freed s)))

/-- A warn point is reached: not before acceptance of the descriptor, and once for a claim (R150, R156; log 7). The timer stands at
its warn point at least. -/
def claimWarnPoint (l : LineNo) (s : State) : State :=
  let c := s.claim l
  if queuesRun s.engine ∧ c.claim = .taken ∧ c.warned = false then
    claimWarns l (setClaim l { c with timer := some (max (c.timer.getD 0) (warnCount (claimLimit s.engine.copy))) } s)
  else s

/-- A claim's timer has passed its warn point: the line warns unless it has warned (R150). -/
def claimPassesWarn (l : LineNo) (s : State) : State := if (s.claim l).warned then s else claimWarns l s

/-- A claim limit is reached: not before acceptance of the descriptor (R155, R156; log 7). "The expiry of a claim that was never warned
cannot occur, since the warn point comes first" (R151): a line that has not warned passes its warn point here, and then expires. -/
def claimLimitPoint (l : LineNo) (s : State) : State :=
  if queuesRun s.engine ∧ claimed s l then judge (claimExpires l (claimPassesWarn l s)) else s

/-- CLAIM_WARN_POINT (R150). -/
def execClaimWarnPoint (l : LineNo) (s : State) : Host.Outcome State Fault Refusal :=
  .next (closeEvent s (claimWarnPoint l s))

/-- CLAIM_EXPIRY (R151). -/
def execClaimExpiry (l : LineNo) (s : State) : Host.Outcome State Fault Refusal :=
  .next (closeEvent s (claimLimitPoint l s))

/-- One claim timer judged against the limit at acceptance: past the warn point it warns, past the limit it expires too (R156; log
18). -/
def judgeClaim (l : LineNo) (s : State) : State :=
  let c := s.claim l
  match c.timer with
  | none => s
  | some t =>
    if c.claim = .taken then
      let limit := claimLimit s.engine.copy
      let s := if warnCount limit ≤ t then claimPassesWarn l s else s
      if limit ≤ t then claimExpires l s else s
    else s

/-- Every running claim timer judged at acceptance, in ascending line order (R156). -/
def judgeClaims (s : State) : State := allLines.foldl (fun s l => judgeClaim l s) s

end Sys2Proof.Machine
end

