-- ==== Sys2Proof/Machine/Touch.lean ====
section
/-! DEFINITION. The Touch Unit (R130 to R141). -/

namespace Sys2Proof.Machine

/-- Replace the touch record of a line. -/
def setTouchLine (l : LineNo) (t : TouchLine) (s : State) : State :=
  { s with touch := { s.touch with lines := s.touch.lines.set l t } }

/-- Record the level of TOUCHi. -/
def setTouchPin (l : LineNo) (high : Bool) (s : State) : State :=
  { s with pins := { s.pins with touch := s.pins.touch.set l high } }

/-- The level of TOUCHi. -/
def touchPin (s : State) (l : LineNo) : Bool := s.pins.touch[l]

/-- The accepted level that matches an input. -/
def Level.ofInput (high : Bool) : Level := if high then .present else .absent

/-- A shield has come on: mark the running SWEEP or SENSE job of the line (R121, R138). -/
def touchJob (l : LineNo) (s : State) : State :=
  match s.conv.job with
  | none => s
  | some j =>
    if j.kind ≠ .verify ∧ j.segs.any (fun i => lineOf i == l) then
      setConv { s.conv with job := some { j with touched := true } } s
    else s

/-- PRESENT is accepted: the guard starts, a running hold-off is stopped, and the shield comes on; work in flight is told when it was
off (R133, R135, R138). -/
def acceptPresent (l : LineNo) (s : State) : State :=
  let wasOn := shielded s l
  let s := setTouchLine l ⟨.present, Timer.start (guardLength s.engine.copy), .idle, true⟩ s
  if wasOn then s else touchJob l (touchStroke l s)

/-- ABSENT is accepted: the guard starts, and the hold-off starts with the shield left on, or with a hold-off length of 0 the shield
goes off at once (R133, R136, R139). -/
def acceptAbsent (l : LineNo) (s : State) : State :=
  let guard := Timer.start (guardLength s.engine.copy)
  if holdOffLength s.engine.copy = 0 then judge (setTouchLine l ⟨.absent, guard, .idle, false⟩ s)
  else setTouchLine l ⟨.absent, guard, Timer.start (holdOffLength s.engine.copy), (s.touchLine l).shield⟩ s

/-- A level is accepted (R133). -/
def acceptLevel (l : LineNo) (high : Bool) (s : State) : State :=
  if high then acceptPresent l s else acceptAbsent l s

/-- TOUCHi changes: ignored by a stopped unit and while the guard runs, else compared with the accepted level (R131, R133, R134). -/
def touchChanges (l : LineNo) (high : Bool) (s : State) : State :=
  let s := setTouchPin l high s
  if s.touch.running ∧ (s.touchLine l).guard.runs = false ∧ (s.touchLine l).accepted ≠ Level.ofInput high then
    acceptLevel l high s
  else s

/-- Guard timer expiry: the present level is compared with the accepted one (R134). -/
def guardExpires (l : LineNo) (s : State) : State :=
  if s.touch.running ∧ (s.touchLine l).guard.runs then
    if (s.touchLine l).accepted = Level.ofInput (touchPin s l) then
      setTouchLine l { s.touchLine l with guard := .idle } s
    else acceptLevel l (touchPin s l) s
  else s

/-- Hold-off timer expiry: the shield goes off, and walks and grants are judged (R136, R139). -/
def holdOffExpires (l : LineNo) (s : State) : State :=
  if s.touch.running ∧ (s.touchLine l).holdOff.runs then
    judge (setTouchLine l { s.touchLine l with holdOff := .idle, shield := false } s)
  else s

/-- The touch record of a line whose input is sampled at the unit's start (R132). -/
def TouchLine.sampled (guard : Nat) (high : Bool) : TouchLine :=
  if high then ⟨.present, Timer.start guard, .idle, true⟩ else TouchLine.stopped

/-- The Touch Unit at acceptance: stopped with touch enable 0, else started on the inputs sampled (R132). -/
def touchStarts (s : State) : State :=
  { s with touch :=
      if touchEnabled s.engine.copy then
        ⟨true, s.pins.touch.map (TouchLine.sampled (guardLength s.engine.copy))⟩
      else TouchUnit.stopped }

/-- TOUCH_INPUT_CHANGE (R133, R134). -/
def execTouchInputChange (l : LineNo) (high : Bool) (s : State) : Host.Outcome State Fault Refusal :=
  .next (closeEvent s (touchChanges l high s))

/-- GUARD_TIMER_EXPIRY (R134). -/
def execGuardTimerExpiry (l : LineNo) (s : State) : Host.Outcome State Fault Refusal :=
  .next (closeEvent s (guardExpires l s))

/-- HOLD_OFF_TIMER_EXPIRY (R136). -/
def execHoldOffTimerExpiry (l : LineNo) (s : State) : Host.Outcome State Fault Refusal :=
  .next (closeEvent s (holdOffExpires l s))

end Sys2Proof.Machine
end

