-- ==== Sys2Proof/Machine/Descriptor.lean ====
section
/-! DEFINITION. The descriptor reads of START, the BADDESC verdict and the acceptance of the descriptor (R166 to R170). -/

namespace Sys2Proof.Machine

/-- The BADDESC verdict with the offset of the first bad byte: back to OFF, with nothing else changed (R167). -/
def badDescriptor (off : Nat) (s : State) : State :=
  let s := post (PartWord.offset .descriptorDetail) (BitVec.ofNat 16 off) s
  giveResult 1 .badDesc
    { s with
      engine := { s.engine with state := .off, startOut := false, reading := none }
      conv := { s.conv with state := .off }
      claims := ClaimTable.stopped }

/-- The parts of acceptance before anything starts: the copy, the shown buffer, the records, the queue in reading order, the Touch
Unit, the claim timers, the ring counts (R168). -/
def acceptParts (d : Descriptor) (s : State) : State :=
  let s := { s with
    engine := { s.engine with copy := d, shown := initialShow d, showPending := true, reading := none }
    segs := s.segs.map Segment.initialised
    events := { s.events with producer := 0, consumer := 0 } }
  judgeClaims (touchStarts (syncTail allSegs s))

/-- Acceptance of the descriptor, less its posts (R168, R170). -/
def acceptDescriptor (d : Descriptor) (s : State) : State := judge (judgeLoading (acceptParts d s))

/-- The posts of acceptance: the 96 mirror words, the producer count, the event pending word, the engine status word; and, when the engine
has become RUNNING in the event, the result word and the event pending word again (R168, R170; log 17). The 96 mirror words take in every
one that is owed. -/
def closeAcceptance (before s : State) : State :=
  let s := postProducer (postMirrors allSegs (judgeSettled false before s))
  let s := postStatus (post (PartWord.offset .eventPending) (pendingWord s) s)
  if s.owed.results.isEmpty then { s with owed := { s.owed with pending := false } } else postPending (postResults s)

/-- The sixteenth read has ended: the descriptor is judged (R167, R168). -/
def judgeDescriptor (ws : List Word) (s : State) : State :=
  match firstBadOffset (descriptorOf ws) with
  | some off => closeEvent s (badDescriptor off s)
  | none => closeAcceptance s (acceptDescriptor (descriptorOf ws) s)

/-- A descriptor read ends with the word memory holds (R166). -/
def descriptorTakes (ws : List Word) (w : Word) (s : State) : State :=
  if (ws ++ [w]).length < 16 then { s with engine := { s.engine with reading := some (ws ++ [w]) } }
  else judgeDescriptor (ws ++ [w]) s

/-- A descriptor read ends, in LOADING; without a read outstanding only one that STOP has abandoned may end (R9, R166). -/
def descriptorReadEnds (s : State) : State :=
  match s.engine.state, s.engine.reading with
  | .loading, some ws =>
    descriptorTakes ws (s.mem.word (areaBase s + descriptorOffset + 2 * ws.length)) (servedPart .read s)
  | _, _ => abandonedRead s

/-- DESCRIPTOR_READ_END (R166). -/
def execDescriptorReadEnd (s : State) : Host.Outcome State Fault Refusal := .next (descriptorReadEnds s)

end Sys2Proof.Machine
end

