-- ==== Sys2Proof/Machine/Engine.lean ====
section
/-! DEFINITION. Engine Control: taking and checking a command (R162 to R164), START, STOP, PAUSE, RESUME and SHOW (R165, R171 to R176), and the lag timer's points (R184). -/

namespace Sys2Proof.Machine

/-! ### Taking a command (R162 to R164) -/

/-- A command ends at once with a result word and CMD_DONE, and nothing else: a refusal (R163, R164). -/
def refuse (code : Byte) (r : ResultCode) (s : State) : State := postPending (postResults (giveResult code r s))

/-- A command write: it is forwarded, and the command with that code is taken (R162). -/
def takeWrite (code : Byte) (c : CommandWrite) (act : State → State) (s : State) : State :=
  act (forwardArea commandOffset (c.toHost code) s)

/-- The commands that RUNNING and PAUSED take (R163). -/
def runsOrPaused (s : State) : Bool := s.engine.state == .running || s.engine.state == .paused

/-- A range command: refused outside RUNNING and PAUSED, and for a bad range (R163). -/
def rangeCommand (code : Byte) (act : List SegNo → State → State) (s : State) : State :=
  if runsOrPaused s = false then refuse code .badState s
  else if goodRange s.bus.argument = false then refuse code .badArg s
  else act (argRange s.bus.argument) s

/-! ### START (R165) -/

/-- The claim words posted with 0 in ascending line order (R156). -/
def claimZeros : List (Nat × Word) := allLines.map fun l => (claimOffset l, 0)

/-- START taken in OFF (R165). -/
def startEffect (s : State) : State :=
  let s := { s with
    engine := { s.engine with state := .loading, startOut := true, reading := some [], lag := none, lagWarned := false }
    conv := { s.conv with state := .standby, warmUp := .set }
    claims := ⟨true, Vector.replicate 24 Claim.freed⟩ }
  giveResult 1 .accepted (postAll claimZeros s)

/-- START (R163, R165). -/
def takeStart (s : State) : State := if isOff s then closeEvent s (startEffect s) else refuse 1 .badState s

/-- START (R165). -/
def execStart (c : CommandWrite) (s : State) : Host.Outcome State Fault Refusal := .next (takeWrite 1 c takeStart s)

/-! ### STOP (R171, R172) -/

/-- The driven stroke is aborted in whatever phase it is; a cut pulse starts the recharge timer (R99). -/
def stopStroke (s : State) : State :=
  match s.stroke.driven with
  | none => s
  | some d =>
    let s := d.members.foldl (fun s m => abortMember m s) s
    let s := setStroke { s.stroke with driven := none, drive := .idle, settle := .idle } s
    if d.phase = .drive then startRecharge s else s

/-- The end that STOP makes of a segment's work, less the abort of a stroke (R44). -/
def Segment.stopped (r : Segment) : Segment :=
  match r.state with
  | .capturing => { r with state := .stale }
  | .member => { r with state := .stale }
  | .sensing => r.ended .unsure
  | _ => r

/-- An internal read has been asked for and has not ended (R9, R81, R166). -/
def readOutstanding (s : State) : Bool :=
  s.engine.reading.isSome ||
    (match s.asm with
      | none => false
      | some a =>
        match a.capture with
        | none => false
        | some c => c.buffer != .none)

/-- The result words of the commands that STOP ends (R172). -/
def abortResults (s : State) : State :=
  let s := if s.engine.startOut then giveResult 1 .aborted s else s
  if s.conv.sense.isSome then giveResult 10 .aborted s else s

/-- STOP's effects on every block (R171). -/
def stopEffect (s : State) : State :=
  let outstanding := readOutstanding s
  let s := stopStroke (abortResults s)
  let s := requestSilence { s with
    segs := s.segs.map Segment.stopped
    queue := Queue.empty
    asm := none
    conv := { s.conv with state := .off, job := none, sense := none }
    claims := ClaimTable.stopped
    touch := TouchUnit.stopped
    bus := { s.bus with arbiter := { s.bus.arbiter with abandoned := outstanding } }
    engine := { s.engine with state := .off, lag := none, lagWarned := false, startOut := false, reading := none } }
  giveResult 2 .done s

/-- STOP (R163, R171, R172). -/
def takeStop (s : State) : State := if isOff s then refuse 2 .badState s else closeEvent s (stopEffect s)

/-- STOP (R171). -/
def execStop (c : CommandWrite) (s : State) : Host.Outcome State Fault Refusal := .next (takeWrite 2 c takeStop s)

/-! ### PAUSE and RESUME (R173, R174) -/

/-- Replace the engine state. -/
def setEngineState (e : EngineState) (s : State) : State := { s with engine := { s.engine with state := e } }

/-- PAUSE (R163, R173): the hold-back ends, so a grant is judged (R113). -/
def takePause (s : State) : State :=
  if s.engine.state = .running then
    closeEvent s (giveResult 3 .done (judge (clearLag (setEngineState .paused s))))
  else refuse 3 .badState s

/-- PAUSE (R173). -/
def execPause (c : CommandWrite) (s : State) : Host.Outcome State Fault Refusal := .next (takeWrite 3 c takePause s)

/-- RESUME (R163, R174). -/
def takeResume (s : State) : State :=
  if s.engine.state = .paused then closeEvent s (giveResult 4 .done (judge (setEngineState .running s)))
  else refuse 4 .badState s

/-- RESUME (R174). -/
def execResume (c : CommandWrite) (s : State) : Host.Outcome State Fault Refusal := .next (takeWrite 4 c takeResume s)

/-! ### SHOW (R176) -/

/-- SHOW's change of the shown buffer and of every record, and the joins it makes (R35, R52, R176). -/
def showParts (named : Shown) (s : State) : State :=
  syncTail allSegs { s with
    engine := { s.engine with shown := named, showPending := true }
    segs := s.segs.map Segment.touchContent }

/-- SHOW (R163, R176). -/
def takeShow (s : State) : State :=
  if runsOrPaused s = false then refuse 5 .badState s
  else
    match argShown s.bus.argument with
    | none => refuse 5 .badArg s
    | some named => closeShow s (giveResult 5 .done (judge (showParts named s)))

/-- SHOW (R176). -/
def execShowBuffer (c : CommandWrite) (s : State) : Host.Outcome State Fault Refusal := .next (takeWrite 5 c takeShow s)

/-! ### The lag timer's points (R184, R185) -/

/-- The warn point of a running lag timer, once for a stretch; the timer stands at its warn point at least (R184; log 7). -/
def lagWarns (s : State) : State :=
  match s.engine.lag with
  | none => s
  | some t =>
    if s.engine.state = .running ∧ s.engine.lagWarned = false then
      raise .lagWarn { s with engine := { s.engine with
        lag := some (max t (warnCount (lagLimit s.engine.copy)))
        lagWarned := true } }
    else s

/-- The limit of a running lag timer: LAG_LIMIT is raised and the timer becomes idle (R184; log 7). Three quarters of the limit come
before the limit, so a stretch that has not warned passes its warn point here first. -/
def lagLimits (s : State) : State :=
  match s.engine.lag with
  | none => s
  | some _ =>
    if s.engine.state = .running then
      let s := lagWarns s
      raise .lagLimit { s with engine := { s.engine with lag := none } }
    else s

/-- LAG_WARN_POINT (R184). -/
def execLagWarnPoint (s : State) : Host.Outcome State Fault Refusal := .next (postPending (lagWarns s))

/-- LAG_LIMIT_POINT (R184). -/
def execLagLimitPoint (s : State) : Host.Outcome State Fault Refusal := .next (postPending (lagLimits s))

end Sys2Proof.Machine
end

