-- ==== Sys2Proof/Machine/Ranges.lean ====
section
/-! DEFINITION. The commands on ranges: HOLD, RELEASE, DISCARD, PROMOTE, SENSE and CLEAR_FAULTS (R177 to R182). -/

namespace Sys2Proof.Machine

/-- Change the records of several segments, each by itself. -/
def mapSegs (f : Segment → Segment) (is : List SegNo) (s : State) : State :=
  is.foldl (fun s i => setSeg i (f (s.seg i)) s) s

/-! ### HOLD and RELEASE (R177, R178) -/

/-- HOLD's effect: the marks set, and the queued segments leave (R177). -/
def holdEffect (is : List SegNo) (s : State) : State :=
  syncTail is (mapSegs (fun r => { r with held := true }) is s)

/-- HOLD on a good range (R177). -/
def holdRange (is : List SegNo) (s : State) : State := closeEvent s (giveResult 6 .done (holdEffect is s))

/-- HOLD (R163, R177). -/
def takeHold (s : State) : State := rangeCommand 6 holdRange s

/-- HOLD (R177). -/
def execHold (c : CommandWrite) (s : State) : Host.Outcome State Fault Refusal := .next (takeWrite 6 c takeHold s)

/-- RELEASE's effect: the marks cleared, and the segments made queue-able join the tail in ascending order (R178). -/
def releaseEffect (is : List SegNo) (s : State) : State :=
  syncTail is (mapSegs (fun r => { r with held := false }) is s)

/-- RELEASE on a good range (R178). -/
def releaseRange (is : List SegNo) (s : State) : State := closeEvent s (giveResult 7 .done (judge (releaseEffect is s)))

/-- RELEASE (R163, R178). -/
def takeRelease (s : State) : State := rangeCommand 7 releaseRange s

/-- RELEASE (R178). -/
def execRelease (c : CommandWrite) (s : State) : Host.Outcome State Fault Refusal := .next (takeWrite 7 c takeRelease s)

/-! ### DISCARD (R78, R179) -/

/-- A segment leaves the Assembler's member list, and the members behind it close up (R78). -/
def removeMember (i : SegNo) (s : State) : State :=
  match s.asm with
  | none => s
  | some a => setAsm (some { a with members := a.members.filter fun m => m.seg != i }) s

/-- A segment is forgotten and made UNSURE; a capture of it still under way learns of it (R38, R74). -/
def forgetSeg (i : SegNo) (s : State) : State :=
  noteForgotten i (setSeg i { (s.seg i).forget with state := .unsure } s)

/-- DISCARD of one segment, by its state (R179). -/
def discardSeg (i : SegNo) (s : State) : State :=
  match (s.seg i).state with
  | .clean => forgetSeg i s
  | .stale => forgetSeg i s
  | .unsure => forgetSeg i s
  | .capturing => forgetSeg i s
  | .member => removeMember i (forgetSeg i s)
  | .moving => setSeg i { s.seg i with discardAfter := true } s
  | .verifying => setSeg i { s.seg i with discardAfter := true } s
  | .sensing => setSeg i { s.seg i with discardAfter := true } s
  | .faulted => s

/-- An ARMED record left with no member is dropped (R78). -/
def dropEmptyRecord (s : State) : State :=
  match s.asm with
  | none => s
  | some a => if a.phase = .armed ∧ a.members.isEmpty then setAsm none s else s

/-- DISCARD's effect (R78, R179). -/
def discardEffect (is : List SegNo) (s : State) : State :=
  dropEmptyRecord (syncTail is (is.foldl (fun s i => discardSeg i s) s))

/-- DISCARD on a good range (R179). -/
def discardRange (is : List SegNo) (s : State) : State := closeEvent s (giveResult 8 .done (judge (discardEffect is s)))

/-- DISCARD (R163, R179). -/
def takeDiscard (s : State) : State := rangeCommand 8 discardRange s

/-- DISCARD (R179). -/
def execDiscard (c : CommandWrite) (s : State) : Host.Outcome State Fault Refusal := .next (takeWrite 8 c takeDiscard s)

/-! ### PROMOTE (R55, R180) -/

/-- PROMOTE on a good range (R180). -/
def promoteRange (is : List SegNo) (s : State) : State :=
  closeEvent s (giveResult 9 .done (setQueue (s.queue.promote is) s))

/-- PROMOTE (R163, R180). -/
def takePromote (s : State) : State := rangeCommand 9 promoteRange s

/-- PROMOTE (R180). -/
def execPromote (c : CommandWrite) (s : State) : Host.Outcome State Fault Refusal := .next (takeWrite 9 c takePromote s)

/-! ### SENSE (R123, R181) -/

/-- SENSE on a good range: the job record is created, and a grant is judged (R123, R181). -/
def senseRange (s : State) : State :=
  let a := s.bus.argument
  closeEvent s (giveResult 10 .accepted (judge (setConv { s.conv with sense := some ⟨argFirst a, argCount a, []⟩ } s)))

/-- SENSE: the engine state, then BUSY, then the range (R163, R181). -/
def takeSense (s : State) : State :=
  if runsOrPaused s = false then refuse 10 .badState s
  else if s.conv.sense.isSome then refuse 10 .busy s
  else if goodRange s.bus.argument = false then refuse 10 .badArg s
  else senseRange s

/-- SENSE (R181). -/
def execSense (c : CommandWrite) (s : State) : Host.Outcome State Fault Refusal := .next (takeWrite 10 c takeSense s)

/-! ### CLEAR_FAULTS (R182) -/

/-- The state of a segment after its fault list is emptied (R182). -/
def SegState.cleared : SegState → SegState
  | .clean => .unsure
  | .stale => .unsure
  | .unsure => .unsure
  | .capturing => .unsure
  | .faulted => .unsure
  | .member => .member
  | .moving => .moving
  | .verifying => .verifying
  | .sensing => .sensing

/-- The record of a segment after CLEAR_FAULTS: unchanged with an empty fault list (R182). -/
def Segment.cleared (r : Segment) : Segment :=
  if r.faults.isEmpty then r
  else { r.unknow (faultPins r) with faults := [], state := r.state.cleared }

/-- CLEAR_FAULTS' effect (R182). -/
def clearEffect (is : List SegNo) (s : State) : State := syncTail is (mapSegs Segment.cleared is s)

/-- CLEAR_FAULTS on a good range (R182). -/
def clearRange (is : List SegNo) (s : State) : State := closeEvent s (giveResult 11 .done (judge (clearEffect is s)))

/-- CLEAR_FAULTS (R163, R182). -/
def takeClearFaults (s : State) : State := rangeCommand 11 clearRange s

/-- CLEAR_FAULTS (R182). -/
def execClearFaults (c : CommandWrite) (s : State) : Host.Outcome State Fault Refusal :=
  .next (takeWrite 11 c takeClearFaults s)

/-! ### A code that names no command (R162) -/

/-- Take the command of a code; a code that names none is refused with BADCMD in every engine state (R162). -/
def takeCode (code : Byte) (s : State) : State :=
  match code.toNat with
  | 1 => takeStart s
  | 2 => takeStop s
  | 3 => takePause s
  | 4 => takeResume s
  | 5 => takeShow s
  | 6 => takeHold s
  | 7 => takeRelease s
  | 8 => takeDiscard s
  | 9 => takePromote s
  | 10 => takeSense s
  | 11 => takeClearFaults s
  | _ => refuse code .badCmd s

/-- BADCMD (R162). -/
def execBadcmd (code : Byte) (c : CommandWrite) (s : State) : Host.Outcome State Fault Refusal :=
  .next (takeWrite code c (takeCode code) s)

end Sys2Proof.Machine
end

