-- ==== Sys2Proof/Machine/BusPass.lean ====
section
/-! DEFINITION. Bus Pass: power-on reset (R16), the host writes of each kind of word (R2 to R6, R14, R31), and a turn of the post list (R12). -/

namespace Sys2Proof.Machine

/-- POWER_ON_RESET: every block takes its power-on values, memory and the pins stay as they are (R16). -/
def execPowerOnReset (strap : BitVec 4) (s : State) : Host.Outcome State Fault Refusal :=
  .next (State.poweredOn s.mem s.pins strap s.pending)

/-! ### Page buffer writes (R4, R14, R31) -/

/-- The cell that byte h (0 low, 1 high) of a page buffer word holds (R4). -/
def wordCell (word : Fin 480) (h : Fin 2) : Fin 960 := ⟨2 * word.val + h.val, by omega⟩

/-- The parity verdict of a byte of a host write to a page buffer: a bad one posts the parity detail word and raises PARITY (R14). -/
def reportParity (buf : Buffer) (cell : Fin 960) (bad : Bool) (s : State) : State :=
  if bad then raise .parity (post (PartWord.offset .parityDetail) (parityDetail buf cell false) s) else s

/-- A cell write report at the Segment Table, discarded in LOADING before acceptance (R31 to R33). -/
def takeReport (buf : Buffer) (cell : Fin 960) (bad : Bool) (s : State) : State :=
  if queuesRun s.engine then
    let i := segOfCell cell
    judge (putSeg .tail i ((s.seg i).cellWrite s.engine.shown buf (cellInSeg cell) bad) s)
  else s

/-- One enabled byte of a page buffer write outside OFF: one event (R4, R14, R31). -/
def cellByte (buf : Buffer) (cell : Fin 960) (bad : Bool) (s : State) : State :=
  closeEvent s (takeReport buf cell bad (reportParity buf cell bad s))

/-- A host write to a page buffer: forwarded, and outside OFF each enabled byte is reported, low byte first (R4). -/
def pageWrite (buf : Buffer) (word : Fin 480) (w : HostWrite) (s : State) : State :=
  let s := forwardArea (buf.offset + 2 * word.val) w s
  if isOff s then s
  else
    let s := if w.enLow then cellByte buf (wordCell word 0) (!goodParity (lowByte w.data) w.parLow) s else s
    if w.enHigh then cellByte buf (wordCell word 1) (!goodParity (highByte w.data) w.parHigh) s else s

/-- PAGE_BUFFER_WRITE (R4). -/
def execPageBufferWrite (buf : Buffer) (word : Fin 480) (w : HostWrite) (s : State) : Host.Outcome State Fault Refusal :=
  .next (pageWrite buf word w s)

/-! ### Other words (R5, R6) -/

/-- A host write in OFF to a part-owned word, plain memory (R6). Where the word has a pending post, R13 has the write wait, so that the
host's value is the one memory keeps, and R6 has the post written after the write, so that it replaces it: which of them the part keeps is
FREE (log 29). -/
def offWrite (off : Nat) (w : HostWrite) (s : State) : State :=
  if hasPost s off = true ∧ Config.offWriteWaits = false then storeArea off w s else forwardArea off w s

/-- A host write to a part-owned word: plain memory in OFF, dropped otherwise (R6). -/
def ownedWrite (off : Nat) (w : HostWrite) (s : State) : State := if isOff s then offWrite off w s else dropWrite off s

/-- PART_OWNED_WORD_WRITE (R6). -/
def execPartOwnedWordWrite (p : PartWord) (w : HostWrite) (s : State) : Host.Outcome State Fault Refusal :=
  .next (ownedWrite p.offset w s)

/-- A host write to the argument word: forwarded, and its enabled bytes loaded into the latch (R5). -/
def argumentWrite (w : HostWrite) (s : State) : State :=
  let s := forwardArea argumentOffset w s
  { s with bus := { s.bus with argument := w.load s.bus.argument } }

/-- ARGUMENT_WORD_WRITE (R5). -/
def execArgumentWordWrite (w : HostWrite) (s : State) : Host.Outcome State Fault Refusal := .next (argumentWrite w s)

/-- A host write to the event enable word: forwarded, and its enabled bytes loaded into the enable copy, from which ATTN follows (R5,
R189). -/
def enableWrite (w : HostWrite) (s : State) : State :=
  let s := forwardArea eventEnableOffset w s
  { s with bus := { s.bus with enable := w.load s.bus.enable } }

/-- EVENT_ENABLE_WORD_WRITE (R5). -/
def execEventEnableWordWrite (w : HostWrite) (s : State) : Host.Outcome State Fault Refusal := .next (enableWrite w s)

/-- A host write to the command word: one that enables its low byte takes a command, another is only forwarded (R5). -/
def commandWrite (w : HostWrite) (s : State) : State :=
  let s := forwardArea commandOffset w s
  if w.enLow then takeCode (lowByte w.data) s else s

/-! ### A host write by its address (R1 to R3) -/

/-- A host write to a byte address, as the kind of word there and the engine state decide (R1 to R3; log 27). A write of plain memory
is forwarded unchanged. -/
def hostWrite (a : Nat) (w : HostWrite) (s : State) : State :=
  match placeOfAddr s a with
  | .plain => forwardAddr a w s
  | .pageBuffer buf word => pageWrite buf word w s
  | .partOwned p => ownedWrite p.offset w s
  | .claim l => claimWrite l w s
  | .command => commandWrite w s
  | .argument => argumentWrite w s
  | .eventEnable => enableWrite w s
  | .eventSet => eventSetWrite w s
  | .eventClear => eventClearWrite w s
  | .ringConsumer => ringConsumerWrite w s

/-- A host read at a byte address: of a claim word as R10 and R146 give, of any other word and outside the area forwarded in every
engine state (R2, R3). -/
def hostRead (a : Nat) (enLow enHigh : Bool) (s : State) : State :=
  match placeOfAddr s a with
  | .claim l => claimRead l enLow enHigh s
  | _ => readAddr a enLow enHigh s

/-- A host access at a byte address. -/
def hostAccess (a : Nat) (access : HostAccess) (s : State) : State :=
  match access with
  | .write w => hostWrite a w s
  | .read enLow enHigh => hostRead a enLow enHigh s

/-- HOST_WRITE_FORWARDED (R2; log 21, log 27). -/
def execHostWriteForwarded (addr : BitVec 22) (access : HostAccess) (s : State) : Host.Outcome State Fault Refusal :=
  .next (hostAccess (hostAddr addr) access s)

/-! ### A turn of the post list (R12) -/

/-- POST_WRITE (R12). -/
def execPostWrite (s : State) : Host.Outcome State Fault Refusal := .next (drainHead s)

end Sys2Proof.Machine
end

