-- ==== Sys2Proof/Machine/Gate.lean ====
section
/-! DEFINITION. The Supply Gate (R101 to R104). -/

namespace Sys2Proof.Machine

/-- Replace the Supply Gate's state. -/
def setGate (g : SupplyGate) (s : State) : State := { s with gate := g }

/-- The level of SUPPLY_OK. -/
def setSupply (high : Bool) (s : State) : State := { s with pins := { s.pins with supplyOk := high } }

/-- SUPPLY_OK rises: a CLOSED gate becomes REARMING and starts the rearm timer; otherwise the gate stays as it is (R101, R102). -/
def supplyRises (s : State) : State :=
  let s := setSupply true s
  match s.gate.state with
  | .closed => setGate ⟨.rearming, Timer.start Config.rearmMs⟩ s
  | .rearming => s
  | .opened => s

/-- The gate leaves OPEN: charge-ready is cleared, the recharge timer stopped, a stroke in DRIVE aborted, SUPPLY_LOST raised, and the
fault tone asked for; then the arbiter judges what the abort let it grant (R91, R98, R104, R112). -/
def gateLost (s : State) : State :=
  let s := raise .supplyLost (setGate ⟨.closed, .idle⟩ s)
  let s := abortDrive (setStroke { s.stroke with chargeReady := false, recharge := .idle } s)
  judge (requestFaultTone s)

/-- SUPPLY_OK falls (R101, R103, R104). -/
def supplyFalls (s : State) : State :=
  let s := setSupply false s
  match s.gate.state with
  | .closed => s
  | .rearming => raise .supplyLost (setGate ⟨.closed, .idle⟩ s)
  | .opened => gateLost s

/-- Rearm timer expiry: the gate becomes OPEN, SUPPLY_BACK is raised, and the recharge timer starts afresh with charge-ready clear
(R91, R102). -/
def rearmExpires (s : State) : State :=
  if s.gate.state = .rearming ∧ s.gate.rearm.runs then
    let s := raise .supplyBack (setGate ⟨.opened, .idle⟩ s)
    startRecharge (setStroke { s.stroke with chargeReady := false } s)
  else s

/-- SUPPLY_OK_RISE (R102). -/
def execSupplyOkRise (s : State) : Host.Outcome State Fault Refusal := .next (closeEvent s (supplyRises s))

/-- SUPPLY_OK_FALL (R103, R104). -/
def execSupplyOkFall (s : State) : Host.Outcome State Fault Refusal := .next (closeEvent s (supplyFalls s))

/-- REARM_TIMER_EXPIRY (R102). -/
def execRearmTimerExpiry (s : State) : Host.Outcome State Fault Refusal := .next (closeEvent s (rearmExpires s))

end Sys2Proof.Machine
end

