-- ==== Sys2Proof/Machine/Dispatch.lean ====
section
/-! DEFINITION. The meaning of each command: one direct call for each row of the table. -/

namespace Sys2Proof.Machine

def exec (i : Instr) (s : State) : Host.Outcome State Fault Refusal :=
  match i with
  | .powerOnReset strap => Sys2Proof.Machine.execPowerOnReset strap s
  | .hostWriteForwarded addr access => Sys2Proof.Machine.execHostWriteForwarded addr access s
  | .pageBufferWrite buf word w => Sys2Proof.Machine.execPageBufferWrite buf word w s
  | .partOwnedWordWrite p w => Sys2Proof.Machine.execPartOwnedWordWrite p w s
  | .eventSetWordWrite w => Sys2Proof.Machine.execEventSetWordWrite w s
  | .eventClearWordWrite w => Sys2Proof.Machine.execEventClearWordWrite w s
  | .argumentWordWrite w => Sys2Proof.Machine.execArgumentWordWrite w s
  | .eventEnableWordWrite w => Sys2Proof.Machine.execEventEnableWordWrite w s
  | .ringConsumerCountWrite w => Sys2Proof.Machine.execRingConsumerCountWrite w s
  | .claimWordRead line enLow enHigh => Sys2Proof.Machine.execClaimWordRead line enLow enHigh s
  | .claimWordWrite line w => Sys2Proof.Machine.execClaimWordWrite line w s
  | .start c => Sys2Proof.Machine.execStart c s
  | .stop c => Sys2Proof.Machine.execStop c s
  | .pause c => Sys2Proof.Machine.execPause c s
  | .resume c => Sys2Proof.Machine.execResume c s
  | .showBuffer c => Sys2Proof.Machine.execShowBuffer c s
  | .hold c => Sys2Proof.Machine.execHold c s
  | .release c => Sys2Proof.Machine.execRelease c s
  | .discard c => Sys2Proof.Machine.execDiscard c s
  | .promote c => Sys2Proof.Machine.execPromote c s
  | .sense c => Sys2Proof.Machine.execSense c s
  | .clearFaults c => Sys2Proof.Machine.execClearFaults c s
  | .badcmd code c => Sys2Proof.Machine.execBadcmd code c s
  | .postWrite => Sys2Proof.Machine.execPostWrite s
  | .descriptorReadEnd => Sys2Proof.Machine.execDescriptorReadEnd s
  | .captureReadEnd => Sys2Proof.Machine.execCaptureReadEnd s
  | .driveTimerExpiry => Sys2Proof.Machine.execDriveTimerExpiry s
  | .settleTimerExpiry => Sys2Proof.Machine.execSettleTimerExpiry s
  | .rechargeTimerExpiry => Sys2Proof.Machine.execRechargeTimerExpiry s
  | .conversionEnd value => Sys2Proof.Machine.execConversionEnd value s
  | .supplyOkRise => Sys2Proof.Machine.execSupplyOkRise s
  | .supplyOkFall => Sys2Proof.Machine.execSupplyOkFall s
  | .rearmTimerExpiry => Sys2Proof.Machine.execRearmTimerExpiry s
  | .touchInputChange line high => Sys2Proof.Machine.execTouchInputChange line high s
  | .guardTimerExpiry line => Sys2Proof.Machine.execGuardTimerExpiry line s
  | .holdOffTimerExpiry line => Sys2Proof.Machine.execHoldOffTimerExpiry line s
  | .claimWarnPoint line => Sys2Proof.Machine.execClaimWarnPoint line s
  | .claimExpiry line => Sys2Proof.Machine.execClaimExpiry line s
  | .lagWarnPoint => Sys2Proof.Machine.execLagWarnPoint s
  | .lagLimitPoint => Sys2Proof.Machine.execLagLimitPoint s
  | .durationTimerExpiry => Sys2Proof.Machine.execDurationTimerExpiry s
  | .periodEnd => Sys2Proof.Machine.execPeriodEnd s

end Sys2Proof.Machine
end

