-- ==== Sys2Proof/Machine/Step.lean ====
section
/-! DEFINITION. A step: the command at the front of the queue runs, and on an empty queue a millisecond passes (log 6). -/

namespace Sys2Proof.Machine

/-- One step of the block. -/
def step (s : State) : Host.Outcome State Fault Refusal :=
  match s.pending with
  | [] => .next (tick s)
  | c :: rest => exec c { s with pending := rest }

/-- The state with the command that a table word spells at the front of its queue; no row of the table gives bits, so no word spells
one. -/
def State.withFetchWord (s : State) (nbits w : Nat) : State :=
  match decodeTableWord nbits w with
  | some c => { s with pending := c :: s.pending }
  | none => s

end Sys2Proof.Machine
end

