-- ==== Sys2Proof/Machine/Arbiter.lean ====
section
/-! DEFINITION. The memory-port arbiter's choice (R9): whose turn is next, from who waits and whom it served last. The commands come to the model in the order in which accesses are served (log 3); this is the order the arbiter gives them. -/

namespace Sys2Proof.Machine

/-- Whose turn the arbiter gives. -/
inductive PortTurn where
  | host
  | read
  | post
  deriving DecidableEq, Repr

/-- What waits at the port on the host's side: nothing, an access, or an access held back by a pending post (R13). -/
inductive HostSide where
  | nothing
  | access
  | heldByPost
  deriving DecidableEq, Repr

/-- The part's next turn, if it wants one: a read and the post list take turns, the post list first when neither has been served, and
every turn goes to the post list while a host access waits on a pending post (R9, R13). -/
def partTurn (s : State) (hostSide : HostSide) : Option PortTurn :=
  match readOutstanding s, s.bus.posts.isEmpty with
  | false, true => none
  | false, false => some .post
  | true, true => some .read
  | true, false =>
    if hostSide = .heldByPost then some .post
    else match s.bus.arbiter.partLast with
      | none => some .post
      | some .read => some .post
      | some .post => some .read

/-- Whose turn the arbiter gives when the port falls free: the requester not served last when both wait, the host first when none is
remembered; a host access held by a pending post is not served until the post is written (R9, R13). -/
def portTurn (s : State) (hostSide : HostSide) : Option PortTurn :=
  match hostSide, partTurn s hostSide with
  | .nothing, t => t
  | .access, none => some .host
  | .access, some t => if s.bus.arbiter.last = some .host then some t else some .host
  | .heldByPost, t => t

end Sys2Proof.Machine
end

