-- ==== Sys2Proof/Safety.lean ====
section
/-! DEFINITION. What the manual says holds of every state: the laws of the post list, the claim table, the shields, the queue, the strokes, the fault ring and the segment records; and which events can take place in a state. -/

namespace Sys2Proof.Machine

/-! ### Laws -/

/-- An offset of a word that the part posts: a part-owned word or a claim word (R11). -/
def Postable (off : Nat) : Prop := (∃ p : PartWord, off = p.offset) ∨ ∃ l : LineNo, off = claimOffset l

/-- The post list holds one entry for a word at most, and only words the part posts (R11). -/
def PostsLawful (s : State) : Prop :=
  (s.bus.posts.map Post.offset).Nodup ∧ ∀ p ∈ s.bus.posts, Postable p.offset

/-- No post is owed between events (log 10). -/
def OwesNothing (s : State) : Prop := s.owed = Owed.nothing

/-- A running unit's shield is on exactly when the accepted level is PRESENT or the hold-off runs, and never both at once; a stopped
unit holds the stopped records (R131, R135, R136). -/
def ShieldsLawful (s : State) : Prop :=
  if s.touch.running then
    ∀ l, (s.touchLine l).shield = ((s.touchLine l).accepted == .present || (s.touchLine l).holdOff.runs) ∧
      ((s.touchLine l).accepted = .present → (s.touchLine l).holdOff.runs = false)
  else ∀ l, s.touchLine l = TouchLine.stopped

/-- The claim table serves exactly while the engine is not OFF; stopped, every record is FREE; the timer runs only on a TAKEN line,
and the warned mark is set only there (R144). -/
def ClaimsLawful (s : State) : Prop :=
  (s.claims.serving = true ↔ s.engine.state ≠ .off) ∧
  (s.claims.serving = false → ∀ l, s.claim l = Claim.freed) ∧
  ∀ l, ((s.claim l).timer.isSome = true ↔ (s.claim l).claim = .taken) ∧
    ((s.claim l).warned = true → (s.claim l).claim = .taken)

/-- While the engine is not OFF, a claim word with a pending post waits for a 0 on a FREE line, and one without a pending post holds 0
for a FREE line and 1 for a TAKEN line (R145). -/
def ClaimWordsLawful (s : State) : Prop :=
  s.engine.state ≠ .off → ∀ l : LineNo,
    (hasPost s (claimOffset l) = true →
      (s.claim l).claim = .free ∧ ∀ p ∈ s.bus.posts, p.offset = claimOffset l → p.value = 0) ∧
    (hasPost s (claimOffset l) = false →
      s.mem.word (areaBase s + claimOffset l) = if (s.claim l).claim = .taken then 1 else 0)

/-- The Assembler's record holds at most 4 members and 240 units, and one member at least when ARMED; a driven stroke holds 1 to 4
members and at most 240 units (R62, R83, R87). -/
def BudgetLawful (s : State) : Prop :=
  (∀ a, s.asm = some a → a.members.length ≤ 4 ∧ totalCost a.members ≤ 240 ∧ (a.phase = .armed → a.members ≠ [])) ∧
  (∀ d, s.stroke.driven = some d → d.members.length ≤ 4 ∧ totalCost d.members ≤ 240 ∧ d.members ≠ [])

/-- A segment is in the queue exactly when it is queue-able, and once at most (R40, R47). -/
def QueueLawful (s : State) : Prop :=
  s.queue.entries.Nodup ∧ ∀ i, i ∈ s.queue.entries ↔ queueable s.engine (s.seg i) = true

/-- The unconsumed records never exceed 64 (R191). -/
def RingLawful (s : State) : Prop := unconsumed s.events.producer s.events.consumer ≤ 64

/-- A segment's fault list holds at most four pins (R37). -/
def FaultListsLawful (s : State) : Prop := ∀ i, (s.seg i).faults.length ≤ 4

/-- The state of the segments of a stroke record in a phase (R20, R83). -/
def StrokePhase.memberState : StrokePhase → SegState
  | .drive => .moving
  | .settle => .moving
  | .verify => .verifying

/-- A running job's hold on its segment: a SWEEP's is SENSING; a SENSE job's is SENSING, or was FAULTED at the start and is FAULTED or
freed to UNSURE since; a VERIFY job runs over the driven stroke (R111, R119, R122, R124). -/
def JobLawful (s : State) (j : Job) : Prop :=
  match j.kind with
  | .verify => ∃ d, s.stroke.driven = some d ∧ d.phase = .verify ∧ j.segs = d.members.map Member.seg
  | .sweep => ∃ i, j.segs = [i] ∧ (s.seg i).state = .sensing
  | .sense => ∃ i, j.segs = [i] ∧ ((s.seg i).state = .sensing ∨
      j.before = .faulted ∧ ((s.seg i).state = .faulted ∨ (s.seg i).state = .unsure))

/-- The records of the work in flight agree with the segment states: the Assembler's members are MEMBER, and the segment under capture
is one that the walk has captured; the driven stroke's members are MOVING or VERIFYING, each once; no job runs in DRIVE and SETTLE, and
one runs in VERIFY; and with the engine OFF, or reading the descriptor, nothing is in flight and nothing is queued (R20, R62, R83, R112,
R171). -/
def WorkLawful (s : State) : Prop :=
  (∀ a, s.asm = some a →
    (a.members.map Member.seg).Nodup ∧ (∀ m ∈ a.members, (s.seg m.seg).state = .member) ∧
      ∀ c, a.capture = some c → c.seg ∈ a.captured) ∧
  (∀ d, s.stroke.driven = some d →
    (d.members.map Member.seg).Nodup ∧ (∀ m ∈ d.members, (s.seg m.seg).state = d.phase.memberState) ∧
      (d.phase ≠ .verify → s.conv.job = none) ∧
      (d.phase = .verify → ∃ j, s.conv.job = some j ∧ j.kind = .verify)) ∧
  (∀ j, s.conv.job = some j → s.conv.state = .converting ∧ JobLawful s j) ∧
  (queuesRun s.engine = false →
    s.asm = none ∧ s.stroke.driven = none ∧ s.conv.job = none ∧ s.conv.sense = none ∧ s.queue.entries = [])

/-- A segment shows its target: it has one, and its shadow equals it on every pin outside the fault list (R25, R41). -/
abbrev ShowsTarget (r : Segment) : Prop := r.target.isSome = true ∧ changeSet r = 0

/-- A CLEAN segment has dirty clear (R41); the members of the stroke records have targets, the capture under way is of a segment in none of
them, and a SENSE job has begun in a state that a SENSE may take (R22, R65, R123). -/
def CleanLawful (s : State) : Prop :=
  (∀ i, (s.seg i).state = .clean → (s.seg i).dirty = false) ∧
  (∀ i, (s.seg i).state = .member ∨ (s.seg i).state = .moving ∨ (s.seg i).state = .verifying → (s.seg i).target.isSome = true) ∧
  (∀ a c, s.asm = some a → a.capture = some c →
    (s.seg c.seg).state ≠ .member ∧ (s.seg c.seg).state ≠ .moving ∧ (s.seg c.seg).state ≠ .verifying) ∧
  ∀ j, s.conv.job = some j → j.kind = .sense → j.before.senseable = true

/-- What the memory port's own records keep at every step: the canonical form of memory, the law of the post list, nothing owed. -/
def BusLawful (s : State) : Prop := s.mem.wf = true ∧ PostsLawful s ∧ OwesNothing s

/-! ### What statements say of a state after a command -/

/-- The byte at an address, and its parity, read as before. -/
def SameByte (s t : State) (a : Nat) : Prop := t.mem.byte a = s.mem.byte a ∧ t.mem.par a = s.mem.par a

/-- Every byte reads as before. -/
def SameMemory (s t : State) : Prop := ∀ a, SameByte s t a

/-- The enabled bytes of a host write to a byte address read as sent, with the parity sent. -/
def Stored (t : State) (a : Nat) (w : HostWrite) : Prop :=
  (w.enLow = true → t.mem.byte a = lowByte w.data ∧ t.mem.par a = w.parLow) ∧
  (w.enHigh = true → t.mem.byte (a + 1) = highByte w.data ∧ t.mem.par (a + 1) = w.parHigh)

/-- The bytes that a host write to a byte address enables. -/
def Enabled (a : Nat) (w : HostWrite) (c : Nat) : Prop := (c = a ∧ w.enLow = true) ∨ (c = a + 1 ∧ w.enHigh = true)

/-- A host write has reached memory at a byte address, and every other byte reads as before (R2). -/
def StoredOnly (s t : State) (a : Nat) (w : HostWrite) : Prop :=
  Stored t a w ∧ ∀ c, ¬Enabled a w c → SameByte s t c

/-- A host write of the command word has reached memory, and every other byte reads as before. -/
def CommandStored (s t : State) (code : Byte) (c : CommandWrite) : Prop :=
  StoredOnly s t (areaBase s + commandOffset) (c.toHost code)

/-- A word has a pending post with a value. -/
def Posted (t : State) (off : Nat) (v : Word) : Prop := (⟨off, v⟩ : Post) ∈ t.bus.posts

/-- The last two posts are a command's result word and the event pending word with CMD_DONE in it (R164). -/
def EndsWithResult (t : State) (code : Byte) (r : ResultCode) : Prop :=
  isPending t .cmdDone = true ∧
  ∃ ps, t.bus.posts = ps ++ [⟨PartWord.offset .result, resultWord code r⟩, ⟨PartWord.offset .eventPending, pendingWord t⟩]

/-- The entries that a host access to a word has waited for cover a byte (R13). -/
def DrainedOver (s t : State) (a : Nat) : Prop :=
  ∃ p ∈ s.bus.posts, p ∉ t.bus.posts ∧ (a = areaBase s + p.offset ∨ a = areaBase s + p.offset + 1)

/-- Only memory, the post list and the arbiter differ. -/
def OnlyPort (s t : State) : Prop :=
  t = { s with mem := t.mem, bus := { s.bus with posts := t.bus.posts, arbiter := t.bus.arbiter } }

/-- Only memory, the post list, the arbiter, the pending set and nothing else differ. -/
def OnlyPortAndEvents (s t : State) : Prop :=
  t = { s with
    mem := t.mem
    bus := { s.bus with posts := t.bus.posts, arbiter := t.bus.arbiter }
    events := { s.events with pending := t.events.pending } }

/-- The blocks that no command on segments reaches: the gate, the touch unit, the claims, the running copy, the latches, the ring
counts, the input pins and the queue of commands. -/
def OthersKept (s t : State) : Prop :=
  t.gate = s.gate ∧ t.touch = s.touch ∧ t.claims = s.claims ∧ t.engine.copy = s.engine.copy ∧
  t.bus.strap = s.bus.strap ∧ t.bus.argument = s.bus.argument ∧ t.bus.enable = s.bus.enable ∧ t.bus.hostRead = s.bus.hostRead ∧
  t.events.producer = s.events.producer ∧ t.events.consumer = s.events.consumer ∧ t.pins = s.pins ∧ t.pending = s.pending

/-- A command has been turned away with a result: the command word stored, the result and CMD_DONE given, and nothing else (R163). -/
def TurnedAway (s t : State) (code : Byte) (c : CommandWrite) (r : ResultCode) : Prop :=
  OnlyPortAndEvents s t ∧ CommandStored s t code c ∧ EndsWithResult t code r ∧
  ∀ e, e ≠ .cmdDone → isPending t e = isPending s e

/-- A pin of a shadow shows a class: UP, DOWN, or UNKNOWN for MIDWAY (R23). -/
def Shows (h : Shadow) (p : Pin) (c : PinClass) : Prop :=
  h.up.getLsbD p.val = (c == .up) ∧ h.down.getLsbD p.val = (c == .down)

/-- Byte h (0 low, 1 high) of a host write has bad parity. -/
def badByte (w : HostWrite) (h : Nat) : Bool :=
  if h = 0 then !goodParity (lowByte w.data) w.parLow else !goodParity (highByte w.data) w.parHigh

/-- Byte h of a host write is enabled. -/
def enabledByte (w : HostWrite) (h : Nat) : Bool := if h = 0 then w.enLow else w.enHigh

/-- The suspect mask of a buffer (R29). -/
def maskOf (buf : Buffer) (r : Segment) : CellSet :=
  match buf with
  | .a => r.suspectA
  | .b => r.suspectB

/-- A range argument is good (R163). -/
abbrev GoodRange (a : Word) : Prop :=
  (lowByte a).toNat ≤ 95 ∧ 1 ≤ (highByte a).toNat ∧ (highByte a).toNat ≤ 96 ∧ (lowByte a).toNat + (highByte a).toNat ≤ 96

/-- A range argument covers a segment: first to first + count - 1 (00_scope.md, Ranges). -/
abbrev Covered (a : Word) (i : SegNo) : Prop :=
  (lowByte a).toNat ≤ i.val ∧ i.val < (lowByte a).toNat + (highByte a).toNat

/-- The engine takes commands on the page: RUNNING or PAUSED (R163). -/
abbrev Active (s : State) : Prop := s.engine.state = .running ∨ s.engine.state = .paused

/-- A command with a code is refused with a result, and changes nothing else (R162, R163). -/
def Refuses (i : Instr) (code : Byte) (c : CommandWrite) (r : ResultCode) (s : State) : Prop :=
  ∃ t, exec i s = .next t ∧ TurnedAway s t code c r

/-- The last posts of the list. -/
def EndsWith (t : State) (ps : List Post) : Prop := ∃ qs, t.bus.posts = qs ++ ps

/-- The post of the engine status word with its fields as they stand. -/
def statusPost (t : State) : Post := ⟨PartWord.offset .engineStatus, statusWord t⟩

/-- The post of the event pending word with the set as it stands. -/
def pendingPost (t : State) : Post := ⟨PartWord.offset .eventPending, pendingWord t⟩

/-- The post of a result word. -/
def resultPost (code : Byte) (r : ResultCode) : Post := ⟨PartWord.offset .result, resultWord code r⟩

/-- A command has been taken with a result: the command word stored, the result word and CMD_DONE given, the other blocks kept, and no
other event raised than PAGE_DONE (R164, R183). -/
def TakenWith (s t : State) (code : Byte) (c : CommandWrite) (r : ResultCode) : Prop :=
  CommandStored s t code c ∧ EndsWithResult t code r ∧ OthersKept s t ∧
  ∀ e, e ≠ .cmdDone → e ≠ .pageDone → isPending t e = isPending s e

/-- What no walk, no drive and no grant changes of a record. -/
abbrev MarksKept (r u : Segment) : Prop :=
  u.held = r.held ∧ u.suspectA = r.suspectA ∧ u.suspectB = r.suspectB ∧ u.shadow = r.shadow ∧ u.retry = r.retry ∧
  u.faults = r.faults ∧ u.discardAfter = r.discardAfter

/-- No drive and no walk can start, so that an event that changes neither the engine nor the records in flight starts at most a job
(R63, R84). -/
abbrev Quiet (s : State) : Prop := driveReady s = false ∧ (s.engine.state ≠ .running ∨ s.asm ≠ none)

/-- An ARMED record would be driven at once (R84). -/
abbrev DriveFree (s : State) : Prop :=
  s.stroke.driven = none ∧ s.stroke.chargeReady = true ∧ s.gate.state = .opened ∧ s.conv.job = none

/-- The members of a record that pass the recheck, as a drive holds them (R85, R87). -/
def keptMembers (s : State) (ms : List Member) : List Member :=
  (ms.filter fun m => !dropped s m).map fun m => { m with touched := false }

/-- The stroke unit as a drive start leaves it (R87, R88). -/
def driving (s : State) (kept : List Member) : StrokeUnit :=
  { s.stroke with driven := some ⟨.drive, kept⟩, drive := .running 0 s.engine.copy[13].toNat, chargeReady := false }

/-- The segments of members that may wait in the queue once they are STALE or UNSURE: neither held nor suspect (R40). -/
def rejoining (s : State) (ms : List Member) : List SegNo :=
  (ms.map Member.seg).filter fun i => !(s.seg i).held && !suspect s.engine.shown (s.seg i)

/-- A segment has a record, or has been taken from it by a job that runs now (R119, R124). -/
def OrSensing (t : State) (i : SegNo) (r : Segment) : Prop :=
  t.seg i = r ∨ t.seg i = { r with state := .sensing } ∧ ∃ j, t.conv.job = some j ∧ j.segs = [i]

/-- The Assembler's record with a capture of such a segment marked as one whose segment has been forgotten (R22, R39, R74). -/
def captureForgotten (s : State) (gone : SegNo → Bool) : Option Assembly :=
  s.asm.map fun a => { a with capture := a.capture.map fun c => if gone c.seg then { c with forgotten := true } else c }

/-- A capture of the segment is under way (R65). -/
def underCapture (s : State) (i : SegNo) : Bool := s.asm.any fun a => a.capture.any fun c => c.seg == i

/-- Entries of the queue, less the segment of a job that the event has granted (R119, R124). -/
def lessGranted (s t : State) (is : List SegNo) : List SegNo :=
  if t.conv.job = s.conv.job then is else is.filter fun k => !(t.conv.job.any fun j => j.segs.contains k)

/-- The record of a capture that has just started, with what it held before: the first free STALE entry (R64, R65). -/
def captureOf (s : State) (ms : List Member) (captured : List SegNo) (i : SegNo) : Option Assembly :=
  some ⟨.assembling, ms, i :: captured, some ⟨i, s.engine.shown, [], false, false⟩⟩

/-- A walk that has started in the event is capturing a segment with a record, and so its dirty mark is clear (R64, R65). -/
def Recaptured (t : State) (i : SegNo) (r : Segment) : Prop :=
  t.seg i = { r with state := .capturing, dirty := false } ∧ ∃ a c, t.asm = some a ∧ a.capture = some c ∧ c.seg = i

/-- The first entry behind the walk mark that a walk with a record may capture: STALE, on a line neither claimed nor shielded, and not
captured by this walk before (R56). -/
def nextOfWalk (s : State) (a : Assembly) : Option SegNo :=
  s.queue.behind.find? fun k => (s.seg k).state == .stale && (s.claim (lineOf k)).claim == .free &&
    !(s.touchLine (lineOf k)).shield && !a.captured.contains k

/-- An entry that a walk may capture: STALE, on a line neither claimed nor shielded after the event (R56). -/
def freeEntry (s t : State) (i : SegNo) : Bool :=
  (s.seg i).state == .stale && (t.claim (lineOf i)).claim == .free && !(t.touchLine (lineOf i)).shield

/-- The record that a capture under NONE leaves, less its state: dirty clear since its start, and every pin targeted DOWN (R65, R66, R67). -/
abbrev blanked (r : Segment) : Segment := { r with dirty := false, target := some 0 }

/-- The outcome of a walk under NONE for the first entry that it captures, whose capture starts and ends in the event: with no changes the
segment is CLEAN and out of the queue; with changes, which always fit a record that holds no member, it is the first member, all of its
changes to be lowered, of a record that is ARMED, or that is driven where a drive is free to start (R66, R70, R71, R73, R84, R87). -/
def BlankCaptured (s t : State) (i : SegNo) : Prop :=
  let u := blanked (s.seg i)
  let first : Member := ⟨i, 0, changeSet u, false⟩
  t.queue.mark = false ∧ i ∉ t.queue.entries ∧
  (changeSet u = 0 → OrSensing t i { u with state := .clean }) ∧
  (changeSet u ≠ 0 → ¬DriveFree s →
    t.seg i = { u with state := .member } ∧ t.stroke = s.stroke ∧ t.asm.any (fun a => a.phase == .armed && a.members.head? == some first)) ∧
  (changeSet u ≠ 0 → DriveFree s →
    t.seg i = { u with state := .moving } ∧ ∃ ms, t.stroke = driving s (first :: ms))

/-- What a walk under NONE makes of a segment: as it was, but that a job may have taken it; or it was a free STALE entry, and has been
captured: CLEAN with no changes, and with changes a member, driven or not, or STALE again in its place where it did not fit (R66 to R72). -/
def BlankOutcome (s t : State) (k : SegNo) : Prop :=
  let u := blanked (s.seg k)
  OrSensing t k (s.seg k) ∨
  k ∈ s.queue.entries ∧ freeEntry s t k = true ∧
    (OrSensing t k { u with state := if changeSet u = 0 then .clean else .stale } ∨
      changeSet u ≠ 0 ∧ (t.seg k = { u with state := .member } ∨ t.seg k = { u with state := .moving }))

/-- A walk has been judged, with no record. With A or B shown the first STALE entry on a line neither claimed nor shielded after the event is
under capture in its place, behind the entries passed over; under NONE its capture has ended in the event, and the entries that stay
queue-able keep their order; and with no such entry no walk starts (R63 to R66). -/
def WalkJudged (s t : State) : Prop :=
  (s.engine.shown ≠ .none → ∀ i, s.queue.entries.find? (freeEntry s t) = some i →
    t.asm = captureOf s [] [] i ∧ t.seg i = { s.seg i with state := .capturing, dirty := false } ∧
    (∀ k, k ≠ i → OrSensing t k (s.seg k)) ∧ t.queue.mark = true ∧ t.queue.ahead.getLast? = some i ∧
    t.queue.entries = lessGranted s t s.queue.entries ∧ t.stroke = s.stroke) ∧
  (s.engine.shown = .none →
    (∀ i, s.queue.entries.find? (freeEntry s t) = some i → BlankCaptured s t i) ∧ (∀ k, BlankOutcome s t k) ∧
    t.queue.entries = s.queue.entries.filter fun k => queueable t.engine (t.seg k)) ∧
  ((∀ i ∈ s.queue.entries, (s.seg i).state = .stale →
      (t.claim (lineOf i)).claim = .taken ∨ (t.touchLine (lineOf i)).shield = true) →
    t.asm = none ∧ t.stroke = s.stroke ∧ t.queue.entries = lessGranted s t s.queue.entries ∧ ∀ i, OrSensing t i (s.seg i))

/-- A walk and a drive have been judged, from the state that an event's own effects give: with no record in RUNNING, the walk; and where no
walk and no drive can start, none has, and a job may have been granted (R63, R84, R112). -/
def WorkJudged (s t : State) : Prop :=
  (s.engine.state = .running → s.asm = none → QueueLawful s → WalkJudged s t) ∧
  (Quiet s → t.asm = s.asm ∧ t.stroke = s.stroke ∧ (∀ i, OrSensing t i (s.seg i)) ∧
    (QueueLawful s → t.queue.entries = lessGranted s t s.queue.entries))

/-- The converter arbiter has judged a grant, with no drive started: none while a job runs, while a stroke is in DRIVE or SETTLE or with the
converter not in STANDBY; else a SWEEP of the head-most UNSURE entry on an unshielded line, over its pins outside the fault list; with no
such entry a SENSE job of the lowest-numbered segment of the range that is not done and eligible; and with neither, none (R58, R112, R119,
R123, R124). -/
def GrantJudged (s t : State) : Prop :=
  let waits := fun k => (s.seg k).state = .unsure ∧ (t.touchLine (lineOf k)).shield = false
  let eligible := fun (rec : SenseRecord) (k : SegNo) => rec.first ≤ k.val ∧ k.val < rec.first + rec.count ∧ k ∉ rec.done ∧
    (s.seg k).state.senseable = true ∧ (t.seg k).state ≠ .capturing ∧ (t.touchLine (lineOf k)).shield = false
  let free := s.conv.state = .standby ∧ s.conv.job = none ∧ ∀ d, s.stroke.driven = some d → d.phase = .verify
  (¬free → t.conv = s.conv) ∧
  (free → ∀ ahead i behind, s.queue.entries = ahead ++ i :: behind → waits i → (∀ k ∈ ahead, ¬waits k) →
    t.conv = { s.conv with
      state := .converting
      tap := t.conv.tap
      job := some ⟨.sweep, [i],
        (allPins.filter fun p => (s.seg i).faults.all fun f => f.pin != p).map fun p => (i, p), [], false, .unsure⟩ } ∧
    t.seg i = { s.seg i with state := .sensing }) ∧
  (free → (∀ k ∈ s.queue.entries, ¬waits k) → ∀ rec i, s.conv.sense = some rec → eligible rec i →
    (∀ k, eligible rec k → i.val ≤ k.val) →
    t.conv = { s.conv with
      state := .converting
      tap := some i
      job := some ⟨.sense, [i], allPins.map fun p => (i, p), [], false, (s.seg i).state⟩ } ∧
    t.seg i = { s.seg i with state := if (s.seg i).state = .faulted then .faulted else .sensing }) ∧
  (free → (∀ k ∈ s.queue.entries, ¬waits k) → (∀ rec k, s.conv.sense = some rec → ¬eligible rec k) → t.conv = s.conv)

/-- New work has been judged, from the state that an event's own effects give: a walk or a drive, and then a grant (R63, R84, R112;
log 11). -/
def NewWork (s t : State) : Prop :=
  WorkJudged s t ∧ (Quiet s ∨ s.asm = none ∧ s.engine.shown ≠ .none ∧ QueueLawful s → GrantJudged s t)

/-- A state with other segment records, and with the queue they make: the entries that stay queue-able in their places, and of the segments
that become so those of a first list at the head and those of a second at the tail, each in the order of its list (R40, R48, R51, R52). -/
def withJoins (heads tails : List SegNo) (f : SegNo → Segment) (s : State) : State :=
  let joining := fun is : List SegNo => is.filter fun i => !s.queue.entries.contains i && queueable s.engine (f i)
  { s with
    segs := Vector.ofFn f
    queue := ⟨[], joining heads ++ (s.queue.entries.filter fun i => queueable s.engine (f i)) ++ joining tails, false⟩ }

/-- A state with other segment records, of which those that become queue-able join the queue at the tail in ascending order (R52). -/
def withRecords (f : SegNo → Segment) (s : State) : State := withJoins [] allSegs f s

/-- An ARMED record with members has met the conditions for drive start, with the stroke unit as it stands then: the members that pass the
recheck are driven; with none left charge-ready stays. The record is taken or dropped, and a new walk may start. The members that the
recheck drops become STALE, and those neither held nor suspect rejoin as one head group in member order, where a new walk or a SENSE job
may take one at once (R84 to R87). -/
def DriveJudged (s t : State) (unit : StrokeUnit) (ms : List Member) : Prop :=
  let kept := keptMembers s ms
  let out := ms.filter (dropped s)
  (kept ≠ [] →
    t.stroke = { unit with driven := some ⟨.drive, kept⟩, drive := .running 0 s.engine.copy[13].toNat, chargeReady := false } ∧
    t.conv = s.conv ∧ (s.engine.shown ≠ .none → ∀ a', t.asm = some a' → a'.phase = .assembling ∧ a'.members = []) ∧
    (∀ m ∈ kept, t.seg m.seg = { s.seg m.seg with state := .moving }) ∧
    t.moduleLink = kept.map fun m => (m.seg, m.raise, m.lower)) ∧
  (kept = [] → s.engine.shown ≠ .none →
    t.stroke = unit ∧ ∀ a', t.asm = some a' → a'.phase = .assembling ∧ a'.members = []) ∧
  (WorkLawful s → s.engine.shown ≠ .none →
    (∀ m ∈ out, OrSensing t m.seg { s.seg m.seg with state := .stale } ∨
      Recaptured t m.seg { s.seg m.seg with state := .stale }) ∧
    (QueueLawful s → t.conv = s.conv → t.queue.entries = rejoining s out ++ s.queue.entries))

/-- A timer over a millisecond that passes: a running one counts, up to its length, and an idle one stays idle. -/
def Counts (before after : Timer) : Prop :=
  (before = .idle → after = .idle) ∧ ∀ n length, before = .running n length → after = .running (min (n + 1) length) length

/-- Byte h of the word at an offset of the area is bad (01_the_tactile_area.md, Parity). -/
def badAt (s : State) (off h : Nat) : Bool :=
  !goodParity (s.mem.byte (areaBase s + off + h)) (s.mem.par (areaBase s + off + h))

/-- A capture read has ended with the word at an offset: its bad bytes have marked their cells in the mask of the buffer read, and the
last of them stands in the parity detail word; and nothing else of the marks, of PARITY and of the other events has changed (R15, R34). -/
def CaptureMarked (s t : State) (buf : Buffer) (i : SegNo) (j : Nat) (off : Nat) : Prop :=
  (∀ k : Fin 10, (maskOf buf (t.seg i)).getLsbD k.val = ((maskOf buf (s.seg i)).getLsbD k.val ||
    (k.val == 2 * j && badAt s off 0) || (k.val == 2 * j + 1 && badAt s off 1))) ∧
  (∀ other, other ≠ buf → maskOf other (t.seg i) = maskOf other (s.seg i)) ∧
  (badAt s off 0 = false → badAt s off 1 = false → isPending t .parity = isPending s .parity) ∧
  ∀ h, h = 1 ∧ badAt s off 1 = true ∨ h = 0 ∧ badAt s off 0 = true ∧ badAt s off 1 = false →
    isPending t .parity = true ∧ Posted t (PartWord.offset .parityDetail)
      (BitVec.ofNat 16 (10 * i.val + 2 * j + h + 0x4000 + if buf = .b then 0x8000 else 0))

/-- The pin records that a stroke's end asks for, in the order of its members and of their pins (R117, R118). -/
def strokeAsks (s : State) (ms : List Member) (cs : List Conversion) : List FaultRecord :=
  ms.flatMap fun m =>
    if m.touched then [] else (judgePins m s.engine.shown (s.seg m.seg) (cs.filter fun c => c.seg = m.seg)).asks

/-- Records asked for in one event: as many as the ring has room for are written to its slots in order and published by the producer
count, and FAULT_NEW and, for those lost, RING_FULL are raised (R191, R192). -/
def RecordsAsked (s t : State) (asks : List FaultRecord) : Prop :=
  let room := 64 - unconsumed s.events.producer s.events.consumer
  let written := min asks.length room
  t.events.producer = s.events.producer + BitVec.ofNat 8 written ∧ t.events.consumer = s.events.consumer ∧
  isPending t .faultNew = (isPending s .faultNew || !asks.isEmpty) ∧
  isPending t .ringFull = (isPending s .ringFull || decide (room < asks.length)) ∧
  (0 < written → Posted t 0x1280 (t.events.producer.setWidth 16)) ∧
  ∀ n, n < written → ∀ f, asks[n]? = some f → ∀ j w, f.words[j]? = some w →
    Posted t (0x1400 + 8 * ((s.events.producer.toNat + n) % 64) + 2 * j) w

/-- The Chime after a request for the fault tone that finds it in a state (R195, R197). -/
def faultToneAsked (s : State) : Chime :=
  if chimeEnabled s.engine.copy then
    match s.chime.state with
    | .silent => ⟨.fault, some (faultTone s.engine.copy), .running 0 500, .none⟩
    | .page => { s.chime with next := .fault }
    | .fault => s.chime
  else s.chime

/-- The field that begins at an offset of a descriptor fails (01_the_tactile_area.md, Descriptor; R167). -/
def FieldFails (d : Descriptor) (off : Nat) : Prop :=
  off = 0 ∧ d[0] ≠ 1 ∨ off = 1 ∧ d[1] ≠ 6 ∧ d[1] ≠ 8 ∨
  (∃ i : Fin 8, off = 2 + i.val ∧
    ((d[2 + i.val]).toNat < 1 ∨ 8 < (d[2 + i.val]).toNat ∨ ∃ k : Fin 8, k < i ∧ d[2 + k.val] = d[2 + i.val])) ∨
  off = 10 ∧ 1 < d[10].toNat ∨ off = 11 ∧ 1 < d[11].toNat ∨ off = 12 ∧ 2 < d[12].toNat ∨
  off = 13 ∧ (d[13].toNat < 1 ∨ 8 < d[13].toNat) ∨ off = 14 ∧ (d[14].toNat < 10 ∨ 100 < d[14].toNat) ∨
  off = 15 ∧ (d[15].toNat < 5 ∨ 100 < d[15].toNat) ∨
  off = 16 ∧ 3000 < d[16].toNat + 256 * d[17].toNat ∨
  off = 18 ∧ (d[18].toNat + 256 * d[19].toNat < 100 ∨ 10000 < d[18].toNat + 256 * d[19].toNat) ∨
  off = 20 ∧ (d[20].toNat + 256 * d[21].toNat < 500 ∨ 30000 < d[20].toNat + 256 * d[21].toNat) ∨
  off = 22 ∧ (d[22].toNat + 256 * d[23].toNat < 512 ∨ 1000 < d[22].toNat + 256 * d[23].toNat) ∨
  off = 24 ∧ (d[24].toNat + 256 * d[25].toNat < 16 ∨ 480 < d[24].toNat + 256 * d[25].toNat ∨
    d[22].toNat + 256 * d[23].toNat ≤ d[24].toNat + 256 * d[25].toNat) ∨
  off = 26 ∧ (d[26].toNat + 256 * d[27].toNat < 250 ∨ 2000 < d[26].toNat + 256 * d[27].toNat) ∨
  off = 28 ∧ (d[28].toNat + 256 * d[29].toNat < 250 ∨ 2000 < d[28].toNat + 256 * d[29].toNat)

/-- Engine Control has judged the page over an event that leaves the engine state: the page that becomes settled, the page that becomes
unsettled in RUNNING, and the page that stays as it was (R183, R184). -/
def PageJudged (s t : State) : Prop :=
  t.engine = { s.engine with
    showPending := t.engine.showPending, lag := t.engine.lag, lagWarned := t.engine.lagWarned } ∧
  (settled s = false → settled t = true →
    isPending t .pageDone = true ∧ t.engine.showPending = false ∧ t.engine.lag = none ∧ t.engine.lagWarned = false ∧
    t.chime = (if s.engine.showPending = true ∧ chimeEnabled s.engine.copy = true ∧ s.chime.state = .silent
      then ⟨.page, some (pageTone s.engine.copy), .running 0 150, .none⟩ else s.chime)) ∧
  (settled s = true ∨ settled t = false →
    isPending t .pageDone = isPending s .pageDone ∧ t.engine.showPending = s.engine.showPending ∧ t.chime = s.chime) ∧
  (settled s = true → settled t = false → s.engine.state = .running → t.engine.lag = some 0 ∧ t.engine.lagWarned = false) ∧
  (settled s = settled t ∨ settled s = true ∧ s.engine.state ≠ .running →
    t.engine.lag = s.engine.lag ∧ t.engine.lagWarned = s.engine.lagWarned)

/-- The record of a segment whose driven pins have become UNKNOWN, in a state (R24). -/
def unknownPins (r : Segment) (m : PinSet) (st : SegState) : Segment :=
  { r with state := st, shadow := ⟨r.shadow.up &&& ~~~m, r.shadow.down &&& ~~~m⟩ }

/-- The record of a segment forgotten at the end of its work, in a state (R38, R39). -/
def forgottenAs (r : Segment) (st : SegState) : Segment :=
  { r with state := st, target := none, shadow := ⟨0, 0⟩, retry := [], discardAfter := false }

/-! ### What the ends of jobs leave -/

/-- The record with which a stroke's end finishes a member: touched, its driven pins UNKNOWN and the segment UNSURE; untouched, with its
outcomes applied, FAULTED at a fifth fault, STALE with changes or with dirty set, and else CLEAN; and with discard-after set forgotten, and
UNSURE unless FAULTED (R39, R96, R97). -/
def finishOf (s : State) (cs : List Conversion) (m : Member) : Segment :=
  let r := s.seg m.seg
  let q := (judgePins m s.engine.shown r (cs.filter fun c => c.seg = m.seg)).record
  if m.touched then if r.discardAfter then forgottenAs r .unsure else unknownPins r (m.raise ||| m.lower) .unsure
  else if q.state = .faulted then if r.discardAfter then forgottenAs q .faulted else q
  else if r.discardAfter then forgottenAs q .unsure
  else { q with state := if changeSet q ≠ 0 ∨ q.dirty = true then .stale else .clean }

/-- The state that the finishes of a stroke's members give, from which new work is judged: the record freed, the converter in STANDBY with no
job, the queue-able members at the head as one group and behind every entry those that an untouched finish has forgotten, in member order
(R51, R52, R95). -/
def strokeEnded (s : State) (d : Driven) (cs : List Conversion) : State :=
  let tail := fun m : Member => !m.touched && (s.seg m.seg).discardAfter
  withJoins ((d.members.filter fun m => !tail m).map Member.seg) ((d.members.filter tail).map Member.seg)
    (fun k => match d.members.find? fun m => m.seg == k with
      | none => s.seg k
      | some m => finishOf s cs m)
    { s with
      asm := captureForgotten s fun k => (s.seg k).discardAfter && d.members.any fun m => m.seg == k
      stroke := { s.stroke with driven := none }
      conv := { s.conv with state := .standby, warmUp := .clear, job := none } }

/-- The state that the end of a SWEEP or SENSE job gives, from which new work is judged: the record that its segment ends with and the SENSE
record that it leaves, the converter in STANDBY with no job, and the segment, if it is queue-able, in its place in the queue, or else at the
head, and at the tail where an untouched end has forgotten it (R39, R50, R120, R125, R126). -/
def jobEnded (s : State) (j : Job) (i : SegNo) (u : Segment) (sense : Option SenseRecord) : State :=
  let tail := !j.touched && (s.seg i).discardAfter
  withJoins (if tail then [] else [i]) (if tail then [i] else []) (fun k => if k = i then u else s.seg k)
    { s with
      asm := captureForgotten s fun k => k == i && (s.seg k).discardAfter
      conv := { s.conv with state := .standby, warmUp := .clear, job := none, sense := sense } }

/-- The end of a job lets new work start, from the state that its own effects give. Where no drive and no walk can start, none has, and the
records are as those effects give them, but that a job may have taken one. With the queue lawful before the event, new work is judged; and in
RUNNING an ARMED record that finds a drive free to start is rechecked and driven (R63, R84, R112, R113). That drive start and a walk are judged
before the grant is the model's choice (log 11). -/
def EndJudged (lawful : Prop) (s t : State) : Prop :=
  (Quiet s → t.asm = s.asm ∧ t.stroke = s.stroke ∧ ∀ i, OrSensing t i (s.seg i)) ∧
  (lawful → NewWork s t ∧
    ∀ ms, s.engine.state = .running → s.asm.map (fun a => (a.phase, a.members)) = some (.armed, ms) → DriveFree s →
      DriveJudged s t s.stroke ms)

/-! ### Which events can take place -/

/-- The event has in this state the timer, the job or the read that it is the end of; a command of the host always has (log 5). -/
def takesPlace (c : Instr) (s : State) : Bool :=
  match c with
  | .postWrite => !s.bus.posts.isEmpty
  | .descriptorReadEnd => (s.engine.state == .loading && s.engine.reading.isSome) || s.bus.arbiter.abandoned
  | .captureReadEnd =>
    (match s.asm with
      | none => false
      | some a =>
        match a.capture with
        | none => false
        | some c => c.buffer != .none) || s.bus.arbiter.abandoned
  | .driveTimerExpiry =>
    (match s.stroke.driven with
      | none => false
      | some d => d.phase == .drive) && s.stroke.drive.runs
  | .settleTimerExpiry =>
    (match s.stroke.driven with
      | none => false
      | some d => d.phase == .settle) && s.stroke.settle.runs
  | .rechargeTimerExpiry => s.stroke.recharge.runs
  | .conversionEnd _ =>
    s.conv.state == .converting &&
      (match s.conv.job with
        | none => false
        | some j => !j.todo.isEmpty)
  | .rearmTimerExpiry => s.gate.state == .rearming && s.gate.rearm.runs
  | .guardTimerExpiry l => s.touch.running && (s.touchLine l).guard.runs
  | .holdOffTimerExpiry l => s.touch.running && (s.touchLine l).holdOff.runs
  | .claimWarnPoint l => queuesRun s.engine && claimed s l && !(s.claim l).warned
  | .claimExpiry l => queuesRun s.engine && claimed s l
  | .lagWarnPoint => s.engine.lag.isSome && s.engine.state == .running && !s.engine.lagWarned
  | .lagLimitPoint => s.engine.lag.isSome && s.engine.state == .running
  | .durationTimerExpiry => s.chime.duration.runs
  | .periodEnd => s.chime.state != .silent && s.chime.next != .none
  | _ => true

end Sys2Proof.Machine
end

