-- ==== Sys2Proof/Certificates/Slice0/Obligations.lean ====
section
/-! DEFINITION. The statements for the provers (OBLIGATIONS.json gives each its title, its basis and what it cites). -/

open Sys2Proof Sys2Proof.Machine

/-! ### The step and the reset -/

/-- A step takes the command at the front of the queue; on an empty queue a millisecond passes (the model's choice, log 6). -/
def Obligations.StepRunsFrontCommand : Prop :=
  (∀ (c : Instr) (rest : List Instr) (s : State), s.pending = c :: rest → step s = exec c { s with pending := rest }) ∧
  ∀ s : State, s.pending = [] → step s = .next (tick s)

/-- A step on an empty queue, where a millisecond passes: every running timer counts by one, up to its length, the claim and lag timers count
on, and nothing else changes. That such a step stands for a millisecond is the model's choice (log 6). -/
def Obligations.MillisecondCounts : Prop :=
  ∀ s : State, s.pending = [] → ∃ t, step s = .next t ∧
    t = { s with
      stroke := { s.stroke with drive := t.stroke.drive, settle := t.stroke.settle, recharge := t.stroke.recharge }
      gate := { s.gate with rearm := t.gate.rearm }
      touch := { s.touch with lines := t.touch.lines }
      claims := { s.claims with lines := t.claims.lines }
      engine := { s.engine with lag := t.engine.lag }
      chime := { s.chime with duration := t.chime.duration } } ∧
    Counts s.stroke.drive t.stroke.drive ∧ Counts s.stroke.settle t.stroke.settle ∧
    Counts s.stroke.recharge t.stroke.recharge ∧ Counts s.gate.rearm t.gate.rearm ∧
    Counts s.chime.duration t.chime.duration ∧
    (∀ l, t.touchLine l = { s.touchLine l with guard := (t.touchLine l).guard, holdOff := (t.touchLine l).holdOff } ∧
      Counts (s.touchLine l).guard (t.touchLine l).guard ∧ Counts (s.touchLine l).holdOff (t.touchLine l).holdOff) ∧
    (∀ l, t.claim l = { s.claim l with timer := (s.claim l).timer.map fun n => n + 1 }) ∧
    t.engine.lag = s.engine.lag.map fun n => n + 1

/-- What POWER_ON_RESET leaves in every block. The queue of commands is left as it is by the model's choice (log 25). -/
def Obligations.PowerOnResetValues : Prop :=
  ∀ (strap : BitVec 4) (s : State), ∃ t, exec (.powerOnReset strap) s = .next t ∧
    (∀ i, (t.seg i).state = .unsure ∧ (t.seg i).dirty = false ∧ (t.seg i).held = false ∧ (t.seg i).discardAfter = false ∧
      (t.seg i).suspectA = 0 ∧ (t.seg i).suspectB = 0 ∧ (t.seg i).target = none ∧ (t.seg i).shadow = ⟨0, 0⟩ ∧
      (t.seg i).retry = [] ∧ (t.seg i).faults = []) ∧
    (∀ i, queueable t.engine (t.seg i) = false) ∧ t.queue.entries = [] ∧ t.queue.mark = false ∧
    SameMemory s t ∧ t.bus.posts = [] ∧ t.engine.state = .off ∧
    t.bus.strap = strap ∧ areaBase t = strap.toNat * 0x2000 ∧ t.bus.argument = 0 ∧ t.bus.enable = 0 ∧
    t.bus.arbiter = ⟨none, none, false⟩ ∧
    t.asm = none ∧ t.stroke = ⟨none, .idle, .idle, .idle, false⟩ ∧
    t.gate = (if s.pins.supplyOk then ⟨.rearming, .running 0 50⟩ else ⟨.closed, .idle⟩) ∧
    t.conv = ⟨.off, none, .clear, none, none⟩ ∧
    t.touch.running = false ∧ (∀ l, t.touchLine l = ⟨.absent, .idle, .idle, false⟩) ∧
    t.claims.serving = false ∧ (∀ l, t.claim l = ⟨.free, none, false⟩) ∧
    t.engine = ⟨.off, Vector.replicate 32 0, .a, false, none, false, false, none⟩ ∧
    t.events = ⟨0, 0, 0⟩ ∧ t.chime = ⟨.silent, none, .idle, .none⟩ ∧ t.attn = false ∧
    t.pins = s.pins ∧ t.pending = s.pending

/-- The machine right after reset keeps every law that a step keeps. Its memory, straps and pins are the model's choice (log 1,
log 8). -/
def Obligations.ResetHoldsTheLaws : Prop :=
  BusLawful State.reset ∧ ShieldsLawful State.reset ∧ ClaimsLawful State.reset ∧ ClaimWordsLawful State.reset ∧
  BudgetLawful State.reset ∧ QueueLawful State.reset ∧ WorkLawful State.reset ∧ CleanLawful State.reset ∧
  RingLawful State.reset ∧ FaultListsLawful State.reset

/-! ### What every step keeps -/

/-- Every step keeps memory canonical, one entry for a word on the post list, and nothing owed. The canonical form is the model's own
(log 1), and so is the field that holds what an event owes (log 10). -/
def Obligations.BusLawKept : Prop := ∀ s t : State, BusLawful s → step s = .next t → BusLawful t

/-- Every step keeps each shield on exactly when its line's accepted level is PRESENT or its hold-off runs, and keeps the claim records'
law. -/
def Obligations.ShieldAndClaimLawsKept : Prop :=
  (∀ s t : State, ShieldsLawful s → step s = .next t → ShieldsLawful t) ∧
  ∀ s t : State, ClaimsLawful s → step s = .next t → ClaimsLawful t

/-- Every step keeps the claim words in step with the claim records. -/
def Obligations.ClaimWordLawKept : Prop :=
  ∀ s t : State, BusLawful s → ClaimWordsLawful s → step s = .next t → ClaimWordsLawful t

/-- Every step keeps the stroke records within 4 members and 240 units, at most 64 unconsumed records, and at most four pins in a fault
list. -/
def Obligations.BoundsKept : Prop :=
  (∀ s t : State, BudgetLawful s → step s = .next t → BudgetLawful t) ∧
  (∀ s t : State, RingLawful s → step s = .next t → RingLawful t) ∧
  ∀ s t : State, FaultListsLawful s → step s = .next t → FaultListsLawful t

/-- Every step keeps the queue holding exactly the queue-able segments, each once; and no command but PROMOTE, and so a write of the command
word by its code or its address, changes the order of the segments that are queued both before and after it, but for a segment whose capture
ends in RUNNING with a drive free to start, in a part that keeps R50, R51 and R85 there: CaptureEnds says where it stands when the recheck of
that drive drops it. Whether the part keeps those or R61, by which that segment too keeps its place, is free (log 30). -/
def Obligations.QueueLawKept : Prop :=
  (∀ s t : State, QueueLawful s → step s = .next t → QueueLawful t) ∧
  ∀ (c : Instr) (s t : State), QueueLawful s → WorkLawful s → (∀ k, c ≠ .promote k) → (∀ code k, c ≠ .badcmd code k) →
    (∀ addr access, c ≠ .hostWriteForwarded addr access) → exec c s = .next t →
    let stays := fun i => !(!Config.droppedKeepsPlace && decide (c = .captureReadEnd ∧ s.engine.state = .running ∧ DriveFree s) &&
      underCapture s i)
    (s.queue.entries.filter fun i => stays i && decide (i ∈ t.queue.entries)) =
      t.queue.entries.filter fun i => stays i && decide (i ∈ s.queue.entries)

/-- Every step keeps the records of the work in flight in agreement with the segment states. -/
def Obligations.WorkLawKept : Prop := ∀ s t : State, WorkLawful s → step s = .next t → WorkLawful t

/-! ### The memory port and the post list -/

/-- A turn of the post list writes its head entry to memory with generated parity, and the entry leaves the list; and whose turn the
arbiter gives when several wait. The turn is a rule that the sender of the commands keeps: a step takes the turn it is given (log 3). -/
def Obligations.PortTurns : Prop :=
  (∀ (s : State) (p : Post) (ps : List Post), BusLawful s → s.bus.posts = p :: ps →
    ∃ t, exec .postWrite s = .next t ∧ OnlyPort s t ∧ t.bus.posts = ps ∧
      t.bus.arbiter.last = some .part ∧ t.bus.arbiter.partLast = some .post ∧
      t.mem.byte (areaBase s + p.offset) = lowByte p.value ∧ t.mem.byte (areaBase s + p.offset + 1) = highByte p.value ∧
      goodParity (lowByte p.value) (t.mem.par (areaBase s + p.offset)) = true ∧
      goodParity (highByte p.value) (t.mem.par (areaBase s + p.offset + 1)) = true ∧
      ∀ a, a ≠ areaBase s + p.offset → a ≠ areaBase s + p.offset + 1 → SameByte s t a) ∧
  (∀ (s : State) (x : PortTurn), partTurn s .access = some x →
    portTurn s .access = some (if s.bus.arbiter.last = some .host then x else .host)) ∧
  (∀ s : State, readOutstanding s = true → s.bus.posts ≠ [] →
    partTurn s .access = some (if s.bus.arbiter.partLast = some .post then .read else .post) ∧
    portTurn s .heldByPost = some .post)

/-- In OFF a host write to a part-owned word is plain memory. With no post of the word pending it is stored as sent. With one pending, R13
has the write wait, so the host's value is the one memory keeps, and the end of R6 has the post follow the write and replace it: the statement
says what holds of a part that keeps either, and which of them the part keeps is free (log 29). The wait happens inside the access by the
model's choice (log 4). A page buffer write reaches memory and goes no further. -/
def Obligations.WritesInOff : Prop :=
  (∀ (p : PartWord) (w : HostWrite) (s : State), BusLawful s → s.engine.state = .off →
    ∃ t, exec (.partOwnedWordWrite p w) s = .next t ∧ OnlyPort s t ∧ Stored t (areaBase s + p.offset) w ∧
      (hasPost s p.offset = false ∨ Config.offWriteWaits = false →
        t.bus.posts = s.bus.posts ∧ StoredOnly s t (areaBase s + p.offset) w) ∧
      (hasPost s p.offset = true → Config.offWriteWaits = true →
        t.bus.posts <:+ s.bus.posts ∧ hasPost t p.offset = false ∧
        ∀ a, ¬Enabled (areaBase s + p.offset) w a → ¬DrainedOver s t a → SameByte s t a)) ∧
  (∀ (buf : Buffer) (word : Fin 480) (w : HostWrite) (s : State), BusLawful s → s.engine.state = .off →
    ∃ t, exec (.pageBufferWrite buf word w) s = .next t ∧ OnlyPort s t ∧ t.bus.posts = s.bus.posts ∧
      StoredOnly s t (areaBase s + buf.offset + 2 * word.val) w)

/-- The place of every address by the area map; a host write of plain memory is stored as sent and changes nothing else; a host write given
by its address does what the kind of word there does (the model's reading, log 27); and one that enables only the high byte of the command
word is forwarded and takes nothing. That memory holds every address of the host bus is the model's choice (log 2). -/
def Obligations.HostWriteByAddress : Prop :=
  (∀ (addr : BitVec 22) (w : HostWrite) (s : State), BusLawful s → placeOfAddr s (hostAddr addr) = .plain →
    ∃ t, exec (.hostWriteForwarded addr (.write w)) s = .next t ∧ OnlyPort s t ∧ t.bus.posts = s.bus.posts ∧
      StoredOnly s t (hostAddr addr) w) ∧
  (∀ (s : State) (a : Nat), placeOfAddr s a =
    if areaBase s ≤ a ∧ a < areaBase s + 0x2000 then placeOf (a - areaBase s) else .plain) ∧
  (∀ p : PartWord, placeOf p.offset = .partOwned p) ∧
  (∀ (buf : Buffer) (word : Fin 480), placeOf ((if buf = .a then 0 else 0x0400) + 2 * word.val) = .pageBuffer buf word) ∧
  (∀ l : LineNo, placeOf (0x1240 + 2 * l.val) = .claim l) ∧
  placeOf 0x1200 = .command ∧ placeOf 0x1202 = .argument ∧ placeOf 0x1212 = .eventEnable ∧ placeOf 0x1214 = .eventSet ∧
  placeOf 0x1216 = .eventClear ∧ placeOf 0x1282 = .ringConsumer ∧
  (∀ off, off % 2 = 0 → (∀ p : PartWord, off ≠ p.offset) →
    (∀ word : Fin 480, off ≠ 2 * word.val ∧ off ≠ 0x0400 + 2 * word.val) → (∀ l : LineNo, off ≠ 0x1240 + 2 * l.val) →
    off ∉ [0x1200, 0x1202, 0x1212, 0x1214, 0x1216, 0x1282] → placeOf off = .plain) ∧
  (∀ (addr : BitVec 22) (w : HostWrite) (s : State), let place := placeOfAddr s (hostAddr addr)
    let out := exec (.hostWriteForwarded addr (.write w)) s
    (∀ buf word, place = .pageBuffer buf word → out = exec (.pageBufferWrite buf word w) s) ∧
    (∀ p, place = .partOwned p → out = exec (.partOwnedWordWrite p w) s) ∧
    (∀ l, place = .claim l → out = exec (.claimWordWrite l w) s) ∧
    (place = .argument → out = exec (.argumentWordWrite w) s) ∧
    (place = .eventEnable → out = exec (.eventEnableWordWrite w) s) ∧
    (place = .eventSet → out = exec (.eventSetWordWrite w) s) ∧
    (place = .eventClear → out = exec (.eventClearWordWrite w) s) ∧
    (place = .ringConsumer → out = exec (.ringConsumerCountWrite w) s) ∧
    (∀ code c, place = .command → w = c.toHost code → out = exec (.badcmd code c) s) ∧
    (BusLawful s → place = .command → w.enLow = false →
      ∃ t, out = .next t ∧ OnlyPort s t ∧ t.bus.posts = s.bus.posts ∧ StoredOnly s t (hostAddr addr) w)) ∧
  ∀ (c : CommandWrite) (s : State), exec (.badcmd 1 c) s = exec (.start c) s ∧ exec (.badcmd 2 c) s = exec (.stop c) s ∧
    exec (.badcmd 3 c) s = exec (.pause c) s ∧ exec (.badcmd 4 c) s = exec (.resume c) s ∧
    exec (.badcmd 5 c) s = exec (.showBuffer c) s ∧ exec (.badcmd 6 c) s = exec (.hold c) s ∧
    exec (.badcmd 7 c) s = exec (.release c) s ∧ exec (.badcmd 8 c) s = exec (.discard c) s ∧
    exec (.badcmd 9 c) s = exec (.promote c) s ∧ exec (.badcmd 10 c) s = exec (.sense c) s ∧
    exec (.badcmd 11 c) s = exec (.clearFaults c) s

/-- Outside OFF a host write to a part-owned word is dropped: OWNED_WRITE, with the owned-write detail word before the event pending
word, and memory as it was. -/
def Obligations.OwnedWriteDropped : Prop :=
  ∀ (p : PartWord) (w : HostWrite) (s : State), BusLawful s → s.engine.state ≠ .off →
    ∃ t, exec (.partOwnedWordWrite p w) s = .next t ∧ OnlyPortAndEvents s t ∧ SameMemory s t ∧
      isPending t .ownedWrite = true ∧ (∀ e, e ≠ .ownedWrite → isPending t e = isPending s e) ∧
      EndsWith t [⟨PartWord.offset .ownedDetail, BitVec.ofNat 16 p.offset⟩, pendingPost t]

/-! ### Event words, argument, enable, ring consumer count -/

/-- The event set and clear words: not forwarded; the bits of the enabled bytes are added or removed, and the event pending word is
posted. ATTN is asserted exactly when some event is both pending and enabled. -/
def Obligations.EventWordsAndAttn : Prop :=
  (∀ (w : HostWrite) (s : State), BusLawful s →
    (∃ t, exec (.eventSetWordWrite w) s = .next t ∧ OnlyPortAndEvents s t ∧ SameMemory s t ∧
      (∀ e : Event, isPending t e =
        (isPending s e || w.data.getLsbD e.bit && (if e.bit < 8 then w.enLow else w.enHigh))) ∧
      EndsWith t [pendingPost t]) ∧
    (∃ t, exec (.eventClearWordWrite w) s = .next t ∧ OnlyPortAndEvents s t ∧ SameMemory s t ∧
      (∀ e : Event, isPending t e =
        (isPending s e && !(w.data.getLsbD e.bit && (if e.bit < 8 then w.enLow else w.enHigh)))) ∧
      EndsWith t [pendingPost t])) ∧
  ∀ s : State, s.attn = true ↔ ∃ e : Event, isPending s e = true ∧ s.bus.enable.getLsbD e.bit = true

/-- The argument and event enable words: forwarded, each enabled byte loaded into the latch or the copy, the other byte kept. -/
def Obligations.ArgumentAndEnableWrites : Prop :=
  ∀ (w : HostWrite) (s : State), BusLawful s →
    (∃ t, exec (.argumentWordWrite w) s = .next t ∧ StoredOnly s t (areaBase s + 0x1202) w ∧
      t = { s with mem := t.mem, bus := { s.bus with argument := t.bus.argument, arbiter := t.bus.arbiter } } ∧
      lowByte t.bus.argument = (if w.enLow then lowByte w.data else lowByte s.bus.argument) ∧
      highByte t.bus.argument = (if w.enHigh then highByte w.data else highByte s.bus.argument)) ∧
    (∃ t, exec (.eventEnableWordWrite w) s = .next t ∧ StoredOnly s t (areaBase s + 0x1212) w ∧
      t = { s with mem := t.mem, bus := { s.bus with enable := t.bus.enable, arbiter := t.bus.arbiter } } ∧
      lowByte t.bus.enable = (if w.enLow then lowByte w.data else lowByte s.bus.enable) ∧
      highByte t.bus.enable = (if w.enHigh then highByte w.data else highByte s.bus.enable))

/-- The ring consumer count: stored in memory; accepted when (P − v) mod 256 is 64 or less, refused with RING_INDEX_BAD otherwise. -/
def Obligations.RingConsumerOffered : Prop :=
  ∀ (w : HostWrite) (s : State), BusLawful s →
    ∃ t, exec (.ringConsumerCountWrite w) s = .next t ∧ StoredOnly s t (areaBase s + 0x1282) w ∧
      t = { s with
        mem := t.mem
        bus := { s.bus with posts := t.bus.posts, arbiter := t.bus.arbiter }
        events := { s.events with pending := t.events.pending, consumer := t.events.consumer } } ∧
      (w.enLow = true → (256 + s.events.producer.toNat - (lowByte w.data).toNat) % 256 ≤ 64 →
        t.events.consumer = lowByte w.data ∧ t.events.pending = s.events.pending ∧ t.bus.posts = s.bus.posts) ∧
      (w.enLow = true → 64 < (256 + s.events.producer.toNat - (lowByte w.data).toNat) % 256 →
        t.events.consumer = s.events.consumer ∧ isPending t .ringIndexBad = true ∧
        (∀ e, e ≠ .ringIndexBad → isPending t e = isPending s e) ∧ EndsWith t [pendingPost t]) ∧
      (w.enLow = false → t.events = s.events ∧ t.bus.posts = s.bus.posts)

/-! ### Claims -/

/-- A host read of a free line's claim word outside OFF takes the claim: it returns 0, and the part writes 1 in the same access. A
wait for a pending post happens inside the read by the model's choice (log 4). -/
def Obligations.ClaimReadTakes : Prop :=
  ∀ (l : LineNo) (enLow enHigh : Bool) (s : State), BusLawful s → ClaimWordsLawful s → s.engine.state ≠ .off →
    (s.claim l).claim = .free →
    ∃ t, exec (.claimWordRead l enLow enHigh) s = .next t ∧
      t.claim l = ⟨.taken, some 0, false⟩ ∧ (∀ k, k ≠ l → t.claim k = s.claim k) ∧
      (∃ r : HostRead, t.bus.hostRead = some r ∧ (enLow = true → r.low.map Prod.fst = some 0) ∧
        (enHigh = true → r.high.map Prod.fst = some 0)) ∧
      t.mem.word (areaBase s + claimOffset l) = 1 ∧
      goodParity 1 (t.mem.par (areaBase s + claimOffset l)) = true ∧
      goodParity 0 (t.mem.par (areaBase s + claimOffset l + 1)) = true ∧
      (∀ a, a ≠ areaBase s + claimOffset l → a ≠ areaBase s + claimOffset l + 1 → ¬DrainedOver s t a → SameByte s t a) ∧
      t.bus.posts <:+ s.bus.posts ∧ hasPost t (claimOffset l) = false ∧
      t = { s with
        mem := t.mem
        bus := { s.bus with posts := t.bus.posts, arbiter := t.bus.arbiter, hostRead := t.bus.hostRead }
        claims := { s.claims with lines := t.claims.lines } }

/-- A host read of a taken line's claim word outside OFF returns 1 and changes no claim; in OFF a read returns what memory holds and
takes nothing. A host read of any other word, or outside the area, is forwarded in every engine state: it waits for a pending post of its
word, returns the bytes and parity bits that memory then holds, and changes nothing else. The wait happens inside the read (log 4), and
the table's row of forwarded accesses carries the reads (log 21), by the model's choice. -/
def Obligations.ClaimReadWithoutTake : Prop :=
  (∀ (l : LineNo) (enLow enHigh : Bool) (s : State), BusLawful s → ClaimWordsLawful s → s.engine.state ≠ .off →
    (s.claim l).claim = .taken →
    ∃ t, exec (.claimWordRead l enLow enHigh) s = .next t ∧ SameMemory s t ∧
      (∃ r : HostRead, t.bus.hostRead = some r ∧ (enLow = true → r.low.map Prod.fst = some 1) ∧
        (enHigh = true → r.high.map Prod.fst = some 0)) ∧
      t = { s with mem := t.mem, bus := { s.bus with arbiter := t.bus.arbiter, hostRead := t.bus.hostRead } }) ∧
  (∀ (l : LineNo) (enLow enHigh : Bool) (s : State), BusLawful s → s.engine.state = .off →
    ∃ t, exec (.claimWordRead l enLow enHigh) s = .next t ∧ (∀ a, ¬DrainedOver s t a → SameByte s t a) ∧
      t.bus.hostRead = some (hostReadOf (areaBase s + claimOffset l) enLow enHigh t) ∧
      t.bus.posts <:+ s.bus.posts ∧ hasPost t (claimOffset l) = false ∧
      t = { s with
        mem := t.mem
        bus := { s.bus with posts := t.bus.posts, arbiter := t.bus.arbiter, hostRead := t.bus.hostRead } }) ∧
  (∀ (a : Nat) (t : State) (enLow enHigh : Bool), hostReadOf a enLow enHigh t =
    ⟨if enLow then some (t.mem.byte a, t.mem.par a) else none,
     if enHigh then some (t.mem.byte (a + 1), t.mem.par (a + 1)) else none⟩) ∧
  (∀ (addr : BitVec 22) (l : LineNo) (enLow enHigh : Bool) (s : State), placeOfAddr s (hostAddr addr) = .claim l →
    exec (.hostWriteForwarded addr (.read enLow enHigh)) s = exec (.claimWordRead l enLow enHigh) s) ∧
  ∀ (addr : BitVec 22) (enLow enHigh : Bool) (s : State), BusLawful s → (∀ l, placeOfAddr s (hostAddr addr) ≠ .claim l) →
    ∃ t, exec (.hostWriteForwarded addr (.read enLow enHigh)) s = .next t ∧
      t.bus.hostRead = some (hostReadOf (hostAddr addr) enLow enHigh t) ∧ t.bus.arbiter.last = some .host ∧
      (∀ a, ¬DrainedOver s t a → SameByte s t a) ∧ t.bus.posts <:+ s.bus.posts ∧
      (∀ off v, hostAddr addr = areaBase s + off → Posted s off v →
        t.mem.word (hostAddr addr) = v ∧ hasPost t off = false ∧
        goodParity (t.mem.byte (hostAddr addr)) (t.mem.par (hostAddr addr)) = true ∧
        goodParity (t.mem.byte (hostAddr addr + 1)) (t.mem.par (hostAddr addr + 1)) = true) ∧
      ((∀ off, hostAddr addr = areaBase s + off → hasPost s off = false) → SameMemory s t ∧ t.bus.posts = s.bus.posts) ∧
      t = { s with
        mem := t.mem
        bus := { s.bus with posts := t.bus.posts, arbiter := t.bus.arbiter, hostRead := t.bus.hostRead } }

/-- A release frees a TAKEN line: memory keeps the host's zero, the timer stops, CLAIM_EXPIRED is not raised, every record keeps its marks,
lists and shadow, and a walk is judged in the event, which may capture an entry of the line. -/
def Obligations.ClaimRelease : Prop :=
  ∀ (l : LineNo) (w : HostWrite) (s : State), BusLawful s → ClaimWordsLawful s → s.engine.state ≠ .off →
    (s.claim l).claim = .taken → w.enLow = true → lowByte w.data = 0 → (w.enHigh = true → highByte w.data = 0) →
    ∃ t, exec (.claimWordWrite l w) s = .next t ∧
      t.claim l = ⟨.free, none, false⟩ ∧ (∀ k, k ≠ l → t.claim k = s.claim k) ∧
      StoredOnly s t (areaBase s + claimOffset l) w ∧ t.mem.word (areaBase s + claimOffset l) = 0 ∧
      (∀ e, e ≠ .pageDone → isPending t e = isPending s e) ∧
      t.gate = s.gate ∧ t.touch = s.touch ∧ t.engine.state = s.engine.state ∧ t.engine.copy = s.engine.copy ∧
      t.engine.shown = s.engine.shown ∧ t.bus.argument = s.bus.argument ∧ t.bus.enable = s.bus.enable ∧
      t.events.producer = s.events.producer ∧ t.events.consumer = s.events.consumer ∧ t.pins = s.pins ∧ t.pending = s.pending ∧
      (∀ i, MarksKept (s.seg i) (t.seg i)) ∧ WorkJudged s t

/-- A host write of a non-zero byte to a claim word outside OFF is dropped: OWNED_WRITE with the claim word's offset, the claim as it
was. -/
def Obligations.ClaimNonZeroDropped : Prop :=
  ∀ (l : LineNo) (w : HostWrite) (s : State), BusLawful s → s.engine.state ≠ .off →
    (w.enLow = true ∧ lowByte w.data ≠ 0 ∨ w.enHigh = true ∧ highByte w.data ≠ 0) →
    ∃ t, exec (.claimWordWrite l w) s = .next t ∧ OnlyPortAndEvents s t ∧ SameMemory s t ∧ t.claims = s.claims ∧
      isPending t .ownedWrite = true ∧ (∀ e, e ≠ .ownedWrite → isPending t e = isPending s e) ∧
      EndsWith t [⟨PartWord.offset .ownedDetail, BitVec.ofNat 16 (claimOffset l)⟩, pendingPost t] ∧
      (ClaimWordsLawful s → ClaimWordsLawful t)

/-- The claim word writes that reach memory and change nothing else but the posts they wait for: a write of zero to the high byte alone,
which changes no claim, a release of a FREE line, and any write in OFF. The wait for a pending post of the word, and with it the entries
written meanwhile, happens inside the write by the model's choice (log 4). -/
def Obligations.ClaimWriteToMemoryAlone : Prop :=
  (∀ (l : LineNo) (w : HostWrite) (s : State), BusLawful s → ClaimWordsLawful s → s.engine.state ≠ .off →
    w.enLow = false → w.enHigh = true → highByte w.data = 0 →
    ∃ t, exec (.claimWordWrite l w) s = .next t ∧ OnlyPort s t ∧ t.claims = s.claims ∧ t.events = s.events ∧
      t.bus.posts <:+ s.bus.posts ∧ Stored t (areaBase s + claimOffset l) w ∧
      (∀ a, ¬Enabled (areaBase s + claimOffset l) w a → ¬DrainedOver s t a → SameByte s t a) ∧
      t.mem.word (areaBase s + claimOffset l) = (if (s.claim l).claim = .taken then 1 else 0)) ∧
  ∀ (l : LineNo) (w : HostWrite) (s : State), BusLawful s →
    (s.engine.state = .off ∨ (s.claim l).claim = .free ∧ (w.enLow = true → lowByte w.data = 0) ∧
      (w.enHigh = true → highByte w.data = 0)) →
    ∃ t, exec (.claimWordWrite l w) s = .next t ∧ OnlyPort s t ∧ t.bus.posts <:+ s.bus.posts ∧
      hasPost t (claimOffset l) = false ∧ Stored t (areaBase s + claimOffset l) w ∧
      ∀ a, ¬Enabled (areaBase s + claimOffset l) w a → ¬DrainedOver s t a → SameByte s t a

/-! ### Page buffer writes -/

/-- Outside OFF a page buffer write reaches memory, and each enabled byte of bad parity raises PARITY, with the buffer and the cell of the
last one in the parity detail word; from acceptance on it sets or clears the written cells' marks in that buffer's mask, and no other
mark. Where no walk and no drive can start, a write to the shown buffer sets dirty on its segment, unless that is FAULTED, and makes a
CLEAN one STALE, which joins at the tail; and no other segment changes, but that a job may start. From acceptance on a write of one byte is one
event, from which new work is judged, and on the idle page in RUNNING a walk captures a segment so written on a free line at once; a write of
two bytes does what the write of its low byte and then that of its high byte do. That a walk and a drive are judged before the grant is the
model's choice (log 11). -/
def Obligations.PageWriteMarksCells : Prop :=
  ∀ (buf : Buffer) (word : Fin 480) (w : HostWrite) (s : State), BusLawful s → s.engine.state ≠ .off →
    let bad := fun h : Nat => enabledByte w h && badByte w h
    ∃ t, exec (.pageBufferWrite buf word w) s = .next t ∧
      StoredOnly s t (areaBase s + buf.offset + 2 * word.val) w ∧ OthersKept s t ∧
      isPending t .parity = (isPending s .parity || bad 0 || bad 1) ∧
      (∀ h, h = 1 ∧ bad 1 = true ∨ h = 0 ∧ bad 0 = true ∧ bad 1 = false →
        Posted t (PartWord.offset .parityDetail) (BitVec.ofNat 16 (2 * word.val + h + if buf = .b then 0x8000 else 0)) ∧
        Posted t (PartWord.offset .eventPending) (pendingWord t)) ∧
      (bad 0 = false → bad 1 = false → ∀ p ∈ t.bus.posts, p.offset = PartWord.offset .parityDetail → p ∈ s.bus.posts) ∧
      (∀ e, e ≠ .pageDone → e ≠ .parity → isPending t e = isPending s e) ∧
      (queuesRun s.engine = false → t.segs = s.segs) ∧
      (queuesRun s.engine = true → ∀ (i : SegNo) (k : Fin 10),
        (∀ other, other ≠ buf → maskOf other (t.seg i) = maskOf other (s.seg i)) ∧
        (maskOf buf (t.seg i)).getLsbD k.val =
          (if 10 * i.val + k.val = 2 * word.val ∧ w.enLow = true then badByte w 0
          else if 10 * i.val + k.val = 2 * word.val + 1 ∧ w.enHigh = true then badByte w 1
          else (maskOf buf (s.seg i)).getLsbD k.val)) ∧
      (queuesRun s.engine = true → Quiet s → ∀ i : SegNo, let r := s.seg i
        let u := { r with suspectA := (t.seg i).suspectA, suspectB := (t.seg i).suspectB }
        (s.engine.shown = buf.shown → word.val / 5 = i.val → w.enLow = true ∨ w.enHigh = true → r.state ≠ .faulted →
          OrSensing t i { u with dirty := true, state := if r.state = .clean then .stale else r.state } ∧
          (r.state = .clean → QueueLawful s → r.held = false → suspect s.engine.shown u = false → t.conv = s.conv →
            t.queue.entries = s.queue.entries ++ [i])) ∧
        (s.engine.shown ≠ buf.shown ∨ word.val / 5 ≠ i.val ∨ r.state = .faulted → OrSensing t i u)) ∧
      (queuesRun s.engine = true → QueueLawful s → (w.enLow = true ↔ w.enHigh = false) →
        let written := withRecords (fun i => let r := s.seg i
          let u := { r with suspectA := (t.seg i).suspectA, suspectB := (t.seg i).suspectB }
          if s.engine.shown = buf.shown ∧ word.val / 5 = i.val ∧ r.state ≠ .faulted then
            { u with dirty := true, state := if r.state = .clean then .stale else r.state }
          else u) s
        NewWork written t) ∧
      (w.enLow = true → w.enHigh = true → ∃ u, exec (.pageBufferWrite buf word { w with enHigh := false }) s = .next u ∧
        exec (.pageBufferWrite buf word { w with enLow := false }) u = .next t)

/-- One cell write on a segment record: the mark follows the verdict; a write to the shown buffer sets dirty and makes a CLEAN segment
STALE, unless it is FAULTED; and nothing else of the record changes. -/
def Obligations.CellWriteOnRecord : Prop :=
  ∀ (r : Segment) (shown : Shown) (buf : Buffer) (k : Fin 10) (bad : Bool),
    let u := r.cellWrite shown buf k bad
    (maskOf buf u).getLsbD k.val = bad ∧ (∀ j : Fin 10, j ≠ k → (maskOf buf u).getLsbD j.val = (maskOf buf r).getLsbD j.val) ∧
    (∀ other, other ≠ buf → maskOf other u = maskOf other r) ∧
    u = { r with suspectA := u.suspectA, suspectB := u.suspectB, dirty := u.dirty, state := u.state } ∧
    (shown = buf.shown → r.state ≠ .faulted → u.dirty = true ∧ u.state = (if r.state = .clean then .stale else r.state)) ∧
    (shown ≠ buf.shown ∨ r.state = .faulted → u.dirty = r.dirty ∧ u.state = r.state)

/-! ### Commands turned away -/

/-- The refusals: BADSTATE by the engine state, BUSY for a SENSE while one is outstanding, BADARG, and BADCMD for a code that names no
command; each changes nothing but the result and CMD_DONE. -/
def Obligations.CommandsRefused : Prop :=
  ∀ (c : CommandWrite) (s : State), BusLawful s →
    (s.engine.state ≠ .off → Refuses (.start c) 1 c .badState s) ∧
    (s.engine.state = .off → Refuses (.stop c) 2 c .badState s) ∧
    (s.engine.state ≠ .running → Refuses (.pause c) 3 c .badState s) ∧
    (s.engine.state ≠ .paused → Refuses (.resume c) 4 c .badState s) ∧
    (¬Active s →
      Refuses (.showBuffer c) 5 c .badState s ∧ Refuses (.hold c) 6 c .badState s ∧ Refuses (.release c) 7 c .badState s ∧
      Refuses (.discard c) 8 c .badState s ∧ Refuses (.promote c) 9 c .badState s ∧ Refuses (.sense c) 10 c .badState s ∧
      Refuses (.clearFaults c) 11 c .badState s) ∧
    (Active s → 2 < (lowByte s.bus.argument).toNat → Refuses (.showBuffer c) 5 c .badArg s) ∧
    (Active s → ¬GoodRange s.bus.argument →
      Refuses (.hold c) 6 c .badArg s ∧ Refuses (.release c) 7 c .badArg s ∧ Refuses (.discard c) 8 c .badArg s ∧
      Refuses (.promote c) 9 c .badArg s ∧ Refuses (.clearFaults c) 11 c .badArg s ∧
      (s.conv.sense = none → Refuses (.sense c) 10 c .badArg s)) ∧
    (Active s → s.conv.sense ≠ none → Refuses (.sense c) 10 c .busy s) ∧
    ∀ code : Byte, code.toNat = 0 ∨ 12 ≤ code.toNat → Refuses (.badcmd code c) code c .badCmd s

/-! ### START, STOP, PAUSE, RESUME, SHOW -/

/-- START in OFF: LOADING, the converter in STANDBY with the warm-up mark, the claim table serving with every line free, no words read
yet; and the posts: 24 claim words, status, result, event pending. -/
def Obligations.StartTaken : Prop :=
  ∀ (c : CommandWrite) (s : State), BusLawful s → s.engine.state = .off →
    ∃ t, exec (.start c) s = .next t ∧ CommandStored s t 1 c ∧
      t = { s with
        mem := t.mem
        bus := { s.bus with posts := t.bus.posts, arbiter := t.bus.arbiter }
        engine := { s.engine with
          state := .loading, startOut := true, reading := some [], lag := none, lagWarned := false }
        conv := { s.conv with state := .standby, warmUp := .set }
        claims := ⟨true, Vector.replicate 24 ⟨.free, none, false⟩⟩
        events := { s.events with pending := t.events.pending } } ∧
      isPending t .cmdDone = true ∧ (∀ e, e ≠ .cmdDone → isPending t e = isPending s e) ∧
      EndsWith t (allLines.map (fun l => ⟨claimOffset l, 0⟩) ++ [statusPost t, resultPost 1 .accepted, pendingPost t])

/-- STOP outside OFF: every block to its stopped values, the records by the state of the segment, the kept state kept, and the posts
with the STOP result last. -/
def Obligations.StopTaken : Prop :=
  ∀ (c : CommandWrite) (s : State), BusLawful s → WorkLawful s → s.engine.state ≠ .off →
    ∃ t, exec (.stop c) s = .next t ∧ CommandStored s t 2 c ∧
      t.engine = { s.engine with state := .off, lag := none, lagWarned := false, startOut := false, reading := none } ∧
      t.conv = { s.conv with state := .off, job := none, sense := none } ∧ t.asm = none ∧
      t.queue.entries = [] ∧ t.queue.mark = false ∧
      t.claims = ⟨false, Vector.replicate 24 ⟨.free, none, false⟩⟩ ∧
      t.touch = ⟨false, Vector.replicate 24 ⟨.absent, .idle, .idle, false⟩⟩ ∧
      (s.stroke.driven = none → t.stroke = s.stroke) ∧
      (∀ d, s.stroke.driven = some d → t.stroke = ⟨none, .idle, .idle,
        if d.phase = .drive then .running 0 (rechargeLength s.engine.copy) else s.stroke.recharge, s.stroke.chargeReady⟩) ∧
      (∀ i, let r := s.seg i
        (r.state = .clean ∨ r.state = .stale ∨ r.state = .unsure ∨ r.state = .faulted → t.seg i = r) ∧
        (r.state = .capturing ∨ r.state = .member → t.seg i = { r with state := .stale }) ∧
        (r.state = .sensing →
          t.seg i = if r.discardAfter then forgottenAs r .unsure else { r with state := .unsure })) ∧
      (∀ d, s.stroke.driven = some d → ∀ m ∈ d.members, let r := s.seg m.seg
        t.seg m.seg = if r.discardAfter then forgottenAs r .unsure else unknownPins r (m.raise ||| m.lower) .unsure) ∧
      t.gate = s.gate ∧ t.pins = s.pins ∧ t.pending = s.pending ∧ t.events.producer = s.events.producer ∧
      t.events.consumer = s.events.consumer ∧ t.bus.argument = s.bus.argument ∧ t.bus.enable = s.bus.enable ∧
      t.bus.strap = s.bus.strap ∧
      (s.chime.state = .silent → t.chime = s.chime) ∧
      (s.chime.state ≠ .silent → t.chime = { s.chime with next := .silent }) ∧
      isPending t .cmdDone = true ∧ (∀ e, e ≠ .cmdDone → isPending t e = isPending s e) ∧
      EndsWith t [statusPost t, resultPost 2 .done, pendingPost t]

/-- PAUSE in RUNNING and RESUME in PAUSED: the engine state and the lag timer; PAUSE leaves the work in flight and at most grants a job.
With no record, a RESUME that finds a STALE entry on a free line starts a walk: with A or B shown the record is ASSEMBLING, and the first
such entry is CAPTURING in its place, with dirty clear, behind the entries passed over; under NONE its capture starts and ends in the event,
and it is CLEAN, or the first member of a record that is ARMED or driven, every pin targeted DOWN. A RESUME that finds an ARMED record ready
in every other way rechecks its members and drives those that pass; one that finds an ARMED record that is not ready leaves it waiting. -/
def Obligations.PauseAndResumeTaken : Prop :=
  (∀ (c : CommandWrite) (s : State), BusLawful s → s.engine.state = .running →
    ∃ t, exec (.pause c) s = .next t ∧ TakenWith s t 3 c .done ∧
      t.engine = { s.engine with state := .paused, lag := none, lagWarned := false } ∧ t.asm = s.asm ∧ t.stroke = s.stroke ∧
      t.conv.sense = s.conv.sense ∧ t.chime = s.chime ∧ isPending t .pageDone = isPending s .pageDone ∧
      (∀ i, OrSensing t i (s.seg i)) ∧ EndsWith t [statusPost t, resultPost 3 .done, pendingPost t]) ∧
  (∀ (c : CommandWrite) (s : State), BusLawful s → s.engine.state = .paused →
    ∃ t, exec (.resume c) s = .next t ∧ TakenWith s t 4 c .done ∧
      t.engine = { s.engine with
        state := .running, showPending := t.engine.showPending, lag := t.engine.lag, lagWarned := t.engine.lagWarned } ∧
      t.conv.sense = s.conv.sense ∧ (∀ i, MarksKept (s.seg i) (t.seg i)) ∧
      (settled t = false → t.engine.lag = some 0 ∧ t.engine.lagWarned = false ∧ t.engine.showPending = s.engine.showPending) ∧
      (settled t = true → s.engine.lag = none → t.engine.lag = none) ∧
      EndsWith t [statusPost t, resultPost 4 .done, pendingPost t] ∧
      (s.asm = none → QueueLawful s → WalkJudged s t) ∧
      (∀ ms, s.asm.map (fun a => (a.phase, a.members)) = some (.armed, ms) →
        (DriveFree s → DriveJudged s t s.stroke ms) ∧
        (¬DriveFree s → t.asm = s.asm ∧ t.stroke = s.stroke ∧ ∀ i, OrSensing t i (s.seg i))))

/-- SHOW: the buffer named, show-pending, and a write to every cell of the page: every segment that is not FAULTED has dirty set, and a
CLEAN one is STALE; the segments suspect in the buffer named leave the queue, and those made queue-able join the tail in ascending order,
CLEAN ones that became STALE and ones no longer suspect in one run. From there new work is judged: in RUNNING with no record a walk captures
the first entry on a free line at once, and with NONE named the capture ends in the event, the segment CLEAN or a member. The rules do not say
which of a walk with its drive and the converter's grant is judged first, where one SHOW frees an UNSURE segment for a sweep and leaves others
STALE for a walk: that the walk and the drive are, and the grant last, is the model's choice (log 11). A page that stays settled is judged as
settling. -/
def Obligations.ShowTaken : Prop :=
  ∀ (c : CommandWrite) (named : Shown) (s : State), BusLawful s → WorkLawful s → Active s →
    (lowByte s.bus.argument = 0 ∧ named = .a ∨ lowByte s.bus.argument = 1 ∧ named = .b ∨
      lowByte s.bus.argument = 2 ∧ named = .none) →
    let shown := withRecords (fun i => let r := s.seg i
      if r.state = .faulted then r else { r with dirty := true, state := if r.state = .clean then .stale else r.state })
      { s with engine := { s.engine with shown := named } }
    ∃ t, exec (.showBuffer c) s = .next t ∧ TakenWith s t 5 c .done ∧
      t.engine = { s.engine with
        shown := named, showPending := t.engine.showPending, lag := t.engine.lag, lagWarned := t.engine.lagWarned } ∧
      t.conv.sense = s.conv.sense ∧
      (settled t = true → isPending t .pageDone = true ∧ t.engine.showPending = false ∧ t.engine.lag = none) ∧
      (settled t = false → isPending t .pageDone = isPending s .pageDone ∧ t.engine.showPending = true ∧ t.chime = s.chime) ∧
      (settled s = true → settled t = false → s.engine.state = .running → t.engine.lag = some 0) ∧
      (∀ i, MarksKept (s.seg i) (t.seg i)) ∧ (∀ i, (s.seg i).state = .faulted → t.seg i = s.seg i) ∧
      (Quiet s → ∀ i, OrSensing t i (shown.seg i)) ∧ (QueueLawful s → NewWork shown t)

/-! ### Commands on ranges -/

/-- HOLD: the held mark of every segment of the range, which leaves the queue; nothing else of a record, no work in flight, and the
page judged. -/
def Obligations.HoldTaken : Prop :=
  ∀ (c : CommandWrite) (s : State), BusLawful s → Active s → GoodRange s.bus.argument →
    ∃ t, exec (.hold c) s = .next t ∧ TakenWith s t 6 c .done ∧ PageJudged s t ∧
      (∀ i, Covered s.bus.argument i → t.seg i = { s.seg i with held := true }) ∧
      (∀ i, ¬Covered s.bus.argument i → t.seg i = s.seg i) ∧
      t.queue.entries = (s.queue.entries.filter fun i => ¬Covered s.bus.argument i) ∧
      t.asm = s.asm ∧ t.stroke = s.stroke ∧ t.conv = s.conv

/-- RELEASE: the held mark of every segment of the range; the segments it makes queue-able join the tail in ascending order, and new work
is judged from there. The rules do not say which of a walk with its drive and the converter's grant is judged first, where one RELEASE lets go
of an UNSURE and of a STALE segment: that the walk and the drive are, and the grant last, is the model's choice (log 11). -/
def Obligations.ReleaseTaken : Prop :=
  ∀ (c : CommandWrite) (s : State), BusLawful s → Active s → GoodRange s.bus.argument →
    let released := withRecords (fun i => if Covered s.bus.argument i then { s.seg i with held := false } else s.seg i) s
    ∃ t, exec (.release c) s = .next t ∧ TakenWith s t 7 c .done ∧ PageJudged s t ∧
      (∀ i, MarksKept (released.seg i) (t.seg i)) ∧ t.conv.sense = s.conv.sense ∧
      (Quiet s → ∀ i, OrSensing t i (released.seg i)) ∧ (QueueLawful s → NewWork released t)

/-- DISCARD by state: forgotten and UNSURE, and out of the record; or discard-after set; or, FAULTED, unchanged. A capture under way of a
segment discarded is marked forgotten, so that its target is thrown away. A queued segment keeps its place, and the others that become
queue-able join the tail in ascending order. A member leaves the record, and an ARMED record left with none is dropped. From there new work
is judged; that a walk and a drive are judged before the grant is the model's choice (log 11). -/
def Obligations.DiscardTaken : Prop :=
  ∀ (c : CommandWrite) (s : State), BusLawful s → WorkLawful s → Active s → GoodRange s.bus.argument →
    let gone := fun i => decide (Covered s.bus.argument i)
    let discarded := withRecords (fun i => let r := s.seg i
      if gone i = false ∨ r.state = .faulted then r
      else if r.state = .moving ∨ r.state = .verifying ∨ r.state = .sensing then { r with discardAfter := true }
      else { r with state := .unsure, target := none, shadow := ⟨0, 0⟩, retry := [] })
      { s with asm := s.asm.bind fun a =>
        let left := a.members.filter fun m => !(gone m.seg && (s.seg m.seg).state == .member)
        if a.phase = .armed ∧ left = [] then none
        else some { a with
          members := left
          capture := a.capture.map fun cap =>
            if gone cap.seg = true ∧ (s.seg cap.seg).state ≠ .faulted ∧ (s.seg cap.seg).state ≠ .moving ∧
              (s.seg cap.seg).state ≠ .verifying ∧ (s.seg cap.seg).state ≠ .sensing then { cap with forgotten := true } else cap } }
    ∃ t, exec (.discard c) s = .next t ∧ TakenWith s t 8 c .done ∧ PageJudged s t ∧ t.conv.sense = s.conv.sense ∧
      (∀ i, ¬Covered s.bus.argument i → MarksKept (s.seg i) (t.seg i)) ∧
      (∀ i, Covered s.bus.argument i → let r := s.seg i
        (r.state = .clean ∨ r.state = .stale ∨ r.state = .unsure ∨ r.state = .capturing ∨ r.state = .member →
          ((t.seg i).state = .unsure ∨ (t.seg i).state = .sensing) ∧
          t.seg i = { r with state := (t.seg i).state, target := none, shadow := ⟨0, 0⟩, retry := [] } ∧
          ∀ a, t.asm = some a → i ∉ a.members.map Member.seg) ∧
        (r.state = .moving ∨ r.state = .verifying ∨ r.state = .sensing → t.seg i = { r with discardAfter := true }) ∧
        (r.state = .faulted → t.seg i = r)) ∧
      (∀ a cap, s.asm = some a → a.phase = .assembling → a.capture = some cap → Covered s.bus.argument cap.seg →
        (s.seg cap.seg).state = .capturing →
        t.asm = some { a with
          members := a.members.filter fun m => decide (¬Covered s.bus.argument m.seg)
          capture := some { cap with forgotten := true } }) ∧
      (QueueLawful s → NewWork discarded t)

/-- PROMOTE: the queued segments of the range stand at the head in range order, the others behind them in their order; a walk mark
stays between its neighbours, with every promoted segment ahead of it; no record changes, and no mirror word and no status word is
posted. -/
def Obligations.PromoteTaken : Prop :=
  ∀ (c : CommandWrite) (s : State), BusLawful s → QueueLawful s → Active s → GoodRange s.bus.argument →
    ∃ t, exec (.promote c) s = .next t ∧ CommandStored s t 9 c ∧
      t = { s with
        mem := t.mem
        bus := { s.bus with posts := t.bus.posts, arbiter := t.bus.arbiter }
        queue := t.queue
        events := { s.events with pending := t.events.pending } } ∧
      isPending t .cmdDone = true ∧ (∀ e, e ≠ .cmdDone → isPending t e = isPending s e) ∧
      t.bus.posts = (s.bus.posts.filter fun p => p.offset != PartWord.offset .result && p.offset != PartWord.offset .eventPending)
        ++ [resultPost 9 .done, pendingPost t] ∧
      ∃ promoted rest : List SegNo, t.queue.entries = promoted ++ rest ∧ promoted.Pairwise (fun i k => i.val < k.val) ∧
        (∀ i, i ∈ promoted ↔ i ∈ s.queue.entries ∧ Covered s.bus.argument i) ∧
        rest.Sublist s.queue.entries ∧ (∀ i, i ∈ rest ↔ i ∈ s.queue.entries ∧ ¬Covered s.bus.argument i) ∧
        t.queue.mark = s.queue.mark ∧
        (s.queue.mark = true →
          t.queue.ahead = promoted ++ (s.queue.ahead.filter fun i => decide (¬Covered s.bus.argument i)) ∧
          t.queue.behind = s.queue.behind.filter fun i => decide (¬Covered s.bus.argument i))

/-- SENSE: ACCEPTED, the job record with no mark done; and new work is judged from there, in RUNNING and in PAUSED: with the converter free
the lowest eligible segment of the range is taken at once for all 80 pins, unless a sweep waits. That a walk, which may want the same segment,
is judged before the grant is the model's choice (log 11). -/
def Obligations.SenseTaken : Prop :=
  ∀ (c : CommandWrite) (s : State), BusLawful s → Active s → GoodRange s.bus.argument → s.conv.sense = none →
    let asked := { s with conv := { s.conv with
      sense := some ⟨(lowByte s.bus.argument).toNat, (highByte s.bus.argument).toNat, []⟩ } }
    ∃ t, exec (.sense c) s = .next t ∧ TakenWith s t 10 c .accepted ∧ PageJudged s t ∧ t.conv.sense = asked.conv.sense ∧
      (∀ i, MarksKept (s.seg i) (t.seg i)) ∧ NewWork asked t

/-- CLEAR_FAULTS: the fault lists of the range emptied, their pins UNKNOWN, and the states by the table; the stroke records keep their
sets. A queued segment keeps its place, and the CLEAN and FAULTED ones that become queue-able join the tail in ascending order. From there new
work is judged; that a walk and a drive are judged before the grant is the model's choice (log 11). -/
def Obligations.ClearFaultsTaken : Prop :=
  ∀ (c : CommandWrite) (s : State), BusLawful s → WorkLawful s → Active s → GoodRange s.bus.argument →
    let cleared := withRecords (fun i => let r := s.seg i
      if Covered s.bus.argument i ∧ r.faults ≠ [] then { unknownPins r (faultPins r) r.state with
        faults := []
        state := if r.state = .member ∨ r.state = .moving ∨ r.state = .verifying ∨ r.state = .sensing then r.state else .unsure }
      else r) s
    ∃ t, exec (.clearFaults c) s = .next t ∧ TakenWith s t 11 c .done ∧ PageJudged s t ∧ t.conv.sense = s.conv.sense ∧
      (∀ i, ¬Covered s.bus.argument i ∨ (s.seg i).faults = [] → MarksKept (s.seg i) (t.seg i)) ∧
      (∀ i, Covered s.bus.argument i → (s.seg i).faults ≠ [] → let r := s.seg i
        MarksKept { unknownPins r (faultPins r) r.state with faults := [] } (t.seg i) ∧
        (r.state = .clean ∨ r.state = .stale ∨ r.state = .unsure ∨ r.state = .capturing ∨ r.state = .faulted →
          ((t.seg i).state = .unsure ∨ (t.seg i).state = .sensing) ∧ (t.seg i).target = r.target ∧
          (t.seg i).dirty = r.dirty) ∧
        (r.state = .moving ∨ r.state = .verifying ∨ r.state = .sensing →
          t.seg i = { unknownPins r (faultPins r) r.state with faults := [] }) ∧
        (r.state = .member → Quiet s →
          t.seg i = { unknownPins r (faultPins r) .member with faults := [] })) ∧
      (Quiet s → t.asm = s.asm ∧ t.stroke = s.stroke ∧ ∀ i, OrSensing t i (cleared.seg i)) ∧
      (QueueLawful s → NewWork cleared t)

/-! ### The descriptor -/

/-- The offset of the first bad byte: none exactly when every field has an accepted value, and otherwise the offset of the first field,
in ascending order, that fails; never above 31. -/
def Obligations.DescriptorValues : Prop :=
  (∀ d : Descriptor, firstBadOffset d = none ↔
    d[0] = 1 ∧ (d[1] = 6 ∨ d[1] = 8) ∧
    (∀ i : Fin 8, 1 ≤ (d[2 + i.val]).toNat ∧ (d[2 + i.val]).toNat ≤ 8 ∧ ∀ k : Fin 8, k < i → d[2 + k.val] ≠ d[2 + i.val]) ∧
    d[10].toNat ≤ 1 ∧ d[11].toNat ≤ 1 ∧ d[12].toNat ≤ 2 ∧ (1 ≤ d[13].toNat ∧ d[13].toNat ≤ 8) ∧
    (10 ≤ d[14].toNat ∧ d[14].toNat ≤ 100) ∧ (5 ≤ d[15].toNat ∧ d[15].toNat ≤ 100) ∧
    d[16].toNat + 256 * d[17].toNat ≤ 3000 ∧
    (100 ≤ d[18].toNat + 256 * d[19].toNat ∧ d[18].toNat + 256 * d[19].toNat ≤ 10000) ∧
    (500 ≤ d[20].toNat + 256 * d[21].toNat ∧ d[20].toNat + 256 * d[21].toNat ≤ 30000) ∧
    (512 ≤ d[22].toNat + 256 * d[23].toNat ∧ d[22].toNat + 256 * d[23].toNat ≤ 1000) ∧
    (16 ≤ d[24].toNat + 256 * d[25].toNat ∧ d[24].toNat + 256 * d[25].toNat ≤ 480) ∧
    (250 ≤ d[26].toNat + 256 * d[27].toNat ∧ d[26].toNat + 256 * d[27].toNat ≤ 2000) ∧
    (250 ≤ d[28].toNat + 256 * d[29].toNat ∧ d[28].toNat + 256 * d[29].toNat ≤ 2000)) ∧
  ∀ (d : Descriptor) (off : Nat), (firstBadOffset d = some off ↔ FieldFails d off ∧ ∀ k, k < off → ¬FieldFails d k) ∧
    (FieldFails d off → off ≤ 31)

/-- A descriptor read before the sixteenth keeps the word memory holds; the sixteenth with a bad field gives BADDESC: back to OFF with the
offset posted, and the copy, the shown buffer and every record as before. The end of a read that STOP left at the port, with no descriptor
read under way, changes the arbiter's memory alone, which then holds no such read: that memory is the model's reading (log 20). -/
def Obligations.DescriptorReads : Prop :=
  (∀ (s : State) (ws : List Word), s.engine.state = .loading → s.engine.reading = some ws → ws.length < 15 →
    exec .descriptorReadEnd s = .next { s with
      engine := { s.engine with reading := some (ws ++ [s.mem.word (areaBase s + 0x1100 + 2 * ws.length)]) }
      bus := { s.bus with arbiter := ⟨some .part, some .read, false⟩ } }) ∧
  (∀ (s : State) (ws : List Word) (off : Nat), BusLawful s → s.engine.state = .loading → s.engine.reading = some ws →
    ws.length = 15 → firstBadOffset (descriptorOf (ws ++ [s.mem.word (areaBase s + 0x111E)])) = some off →
    ∃ t, exec .descriptorReadEnd s = .next t ∧
      t = { s with
        bus := { s.bus with posts := t.bus.posts, arbiter := ⟨some .part, some .read, false⟩ }
        engine := { s.engine with state := .off, startOut := false, reading := none }
        conv := { s.conv with state := .off }
        claims := ⟨false, Vector.replicate 24 ⟨.free, none, false⟩⟩
        events := { s.events with pending := t.events.pending } } ∧
      isPending t .cmdDone = true ∧ (∀ e, e ≠ .cmdDone → isPending t e = isPending s e) ∧
      EndsWith t [⟨PartWord.offset .descriptorDetail, BitVec.ofNat 16 off⟩, statusPost t, resultPost 1 .badDesc, pendingPost t]) ∧
  ∀ s : State, s.bus.arbiter.abandoned = true → s.engine.state ≠ .loading ∨ s.engine.reading = none →
    exec .descriptorReadEnd s = .next { s with bus := { s.bus with arbiter := ⟨some .part, some .read, false⟩ } }

/-- Acceptance of the descriptor: the copy, the shown buffer, every record initialised, the queue in reading order, the Touch Unit,
the claim timers judged, the ring counts 0, the first sweep; RUNNING at once exactly when every segment is FAULTED; and the posts.
The order of the posts and the judging of a claim past its limit are the model's reading (log 17, log 18). -/
def Obligations.DescriptorAccepted : Prop :=
  ∀ (s : State) (ws : List Word) (d : Descriptor), BusLawful s → WorkLawful s → s.engine.state = .loading →
    s.engine.reading = some ws → ws.length = 15 → d = descriptorOf (ws ++ [s.mem.word (areaBase s + 0x111E)]) →
    firstBadOffset d = none →
    ∃ t, exec .descriptorReadEnd s = .next t ∧ SameMemory s t ∧
      t.engine.copy = d ∧ t.engine.shown = (if d[12] = 0 then .a else if d[12] = 1 then .b else .none) ∧
      t.engine.reading = none ∧ t.events.producer = 0 ∧ t.events.consumer = 0 ∧
      t.asm = none ∧ t.stroke = s.stroke ∧ t.gate = s.gate ∧ t.pins = s.pins ∧ t.pending = s.pending ∧
      (d[10] = 0 → t.touch = ⟨false, Vector.replicate 24 ⟨.absent, .idle, .idle, false⟩⟩) ∧
      (d[10] = 1 → t.touch.running = true ∧ ∀ l : LineNo, t.touchLine l =
        if s.pins.touch[l] then ⟨.present, .running 0 d[15].toNat, .idle, true⟩ else ⟨.absent, .idle, .idle, false⟩) ∧
      (∀ l : LineNo, ((s.claim l).claim = .free → (s.claim l).timer = none → t.claim l = s.claim l) ∧
        ∀ n, (s.claim l).claim = .taken → (s.claim l).timer = some n →
          (claimLimit d ≤ n → t.claim l = ⟨.free, none, false⟩ ∧ Posted t (claimOffset l) 0 ∧
            isPending t .claimExpired = true) ∧
          (n < claimLimit d → 3 * claimLimit d ≤ 4 * n → t.claim l = ⟨.taken, some n, true⟩ ∧
            ((s.claim l).warned = false → isPending t .claimWarn = true)) ∧
          (4 * n < 3 * claimLimit d → t.claim l = s.claim l)) ∧
      (∀ i, t.seg i = { forgottenAs (s.seg i) (t.seg i).state with dirty := false, held := false, suspectA := 0, suspectB := 0 } ∧
        ((s.seg i).state = .faulted → (t.seg i).state = .faulted) ∧
        ((s.seg i).state ≠ .faulted → (t.seg i).state = .unsure ∨ (t.seg i).state = .sensing)) ∧
      t.queue.entries = (allSegs.filter fun i => (t.seg i).state = .unsure) ∧
      (s.conv.state = .standby → ∀ i : SegNo, (s.seg i).state ≠ .faulted → shielded t (lineOf i) = false →
        (∀ k : SegNo, k < i → (s.seg k).state = .faulted ∨ shielded t (lineOf k) = true) →
        (t.seg i).state = .sensing ∧ t.conv.state = .converting ∧ t.conv.tap = ((pinsOf (~~~faultPins (s.seg i))).head?.map fun _ => i) ∧
        t.conv.job = some ⟨.sweep, [i], (pinsOf (~~~faultPins (s.seg i))).map (fun p => (i, p)), [], false, .unsure⟩) ∧
      (∀ i, Posted t (PartWord.offset (.mirror i)) (mirrorWord t.engine.shown (t.seg i))) ∧
      ((∃ i, (s.seg i).state ≠ .faulted) → t.engine.state = .loading ∧ t.engine.showPending = true ∧
        t.engine.startOut = s.engine.startOut ∧
        EndsWith t (allSegs.map (fun i => ⟨PartWord.offset (.mirror i), mirrorWord t.engine.shown (t.seg i)⟩)
          ++ [⟨PartWord.offset .ringProducer, 0⟩, pendingPost t, statusPost t])) ∧
      ((∀ i, (s.seg i).state = .faulted) → t.engine.state = .running ∧ t.engine.startOut = false ∧
        isPending t .cmdDone = true ∧ isPending t .pageDone = true ∧
        EndsWith t [⟨PartWord.offset .ringProducer, 0⟩, statusPost t, resultPost 1 .done, pendingPost t])

/-! ### Capture -/

/-- The dot map and the change set: memory bit i of a cell byte targets the dot that the map gives it; and the change set is every pin
outside the fault list whose target differs from its shadow, empty for a FAULTED segment and one with no target. -/
def Obligations.TargetAndChangeSet : Prop :=
  (∀ (d : Descriptor) (cells : List Byte) (k : Fin 10) (i : Fin 8), firstBadOffset d = none →
    (targetOf d cells).getLsbD (8 * k.val + (d[2 + i.val].toNat - 1)) =
      ((cells.getD k.val 0).getLsbD i.val && !(d[1] == 6 && decide (7 ≤ d[2 + i.val].toNat)))) ∧
  (∀ (r : Segment) (target : PinSet) (p : Pin), r.target = some target → r.state ≠ .faulted →
    ((changeSet r).getLsbD p.val = true ↔
      (∀ f ∈ r.faults, f.pin ≠ p) ∧
        (if target.getLsbD p.val then r.shadow.up.getLsbD p.val = false else r.shadow.down.getLsbD p.val = false)) ∧
    (raiseSet r).getLsbD p.val = ((changeSet r).getLsbD p.val && target.getLsbD p.val) ∧
    (lowerSet r).getLsbD p.val = ((changeSet r).getLsbD p.val && !target.getLsbD p.val)) ∧
  ∀ r : Segment, r.target = none ∨ r.state = .faulted → changeSet r = 0 ∧ raiseSet r = 0 ∧ lowerSet r = 0

/-- The cost of a change set, its range, and the budget it is held against. -/
def Obligations.CostOfChangeSet : Prop :=
  (∀ raise lower : PinSet, costOf raise lower =
    2 * (allPins.filter fun p => raise.getLsbD p.val).length + (allPins.filter fun p => lower.getLsbD p.val).length) ∧
  (∀ r : Segment, costOf (raiseSet r) (lowerSet r) ≤ 160) ∧ costOf 0 0 = 0 ∧
  (∀ r : Segment, raiseSet r = BitVec.allOnes 80 → costOf (raiseSet r) (lowerSet r) = 160) ∧
  (∀ r : Segment, lowerSet r = BitVec.allOnes 80 → costOf (raiseSet r) (lowerSet r) = 80) ∧
  ∀ (a : Assembly) (c : Capture) (d : Descriptor) (r : Segment) (m : Member), (captureOutcome a c d r).2 = some m →
    m.cost ≤ 240 - totalCost a.members

/-- A capture read before the fifth: its word is kept; a bad byte marks its cell in the mask of the buffer read, is reported, and makes the
read bad. That the mark and the detail name the buffer read is the model's reading (log 14). The end of a read that STOP left at the port,
with no capture read under way, changes the arbiter's memory alone: no mark, no detail word, no PARITY; that memory is the model's reading
(log 20). -/
def Obligations.CaptureReads : Prop :=
  (∀ (s : State) (a : Assembly) (cap : Capture) (buf : Buffer), BusLawful s → s.asm = some a → a.capture = some cap →
    cap.buffer = buf.shown → cap.words.length < 4 →
    let addr := areaBase s + (buf.offset + 10 * cap.seg.val + 2 * cap.words.length)
    let bad := fun h : Nat => !goodParity (s.mem.byte (addr + h)) (s.mem.par (addr + h))
    let detail := fun h : Nat => BitVec.ofNat 16
      (10 * cap.seg.val + 2 * cap.words.length + h + 0x4000 + if buf = .b then 0x8000 else 0)
    ∃ t, exec .captureReadEnd s = .next t ∧ t.mem = s.mem ∧ OthersKept s t ∧ t.stroke = s.stroke ∧ t.conv = s.conv ∧
      t.engine = s.engine ∧ t.bus.arbiter = ⟨some .part, some .read, false⟩ ∧
      t.asm = some { a with capture := some { cap with
        words := cap.words ++ [s.mem.word addr], badRead := cap.badRead || bad 0 || bad 1 } } ∧
      (bad 0 = false → bad 1 = false →
        t = { s with asm := t.asm, bus := { s.bus with arbiter := ⟨some .part, some .read, false⟩ } }) ∧
      (∀ i, i ≠ cap.seg → t.seg i = s.seg i) ∧
      t.seg cap.seg = { s.seg cap.seg with suspectA := (t.seg cap.seg).suspectA, suspectB := (t.seg cap.seg).suspectB } ∧
      (∀ k : Fin 10, (maskOf buf (t.seg cap.seg)).getLsbD k.val = ((maskOf buf (s.seg cap.seg)).getLsbD k.val ||
        (k.val == 2 * cap.words.length && bad 0) || (k.val == 2 * cap.words.length + 1 && bad 1))) ∧
      (∀ other, other ≠ buf → maskOf other (t.seg cap.seg) = maskOf other (s.seg cap.seg)) ∧
      (∀ e, e ≠ .parity → isPending t e = isPending s e) ∧
      (bad 1 = true → isPending t .parity = true ∧ Posted t (PartWord.offset .parityDetail) (detail 1)) ∧
      (bad 0 = true → bad 1 = false → isPending t .parity = true ∧ Posted t (PartWord.offset .parityDetail) (detail 0))) ∧
  ∀ s : State, BusLawful s → s.bus.arbiter.abandoned = true →
    (∀ a cap, s.asm = some a → a.capture = some cap → cap.buffer = .none) →
    exec .captureReadEnd s = .next { s with bus := { s.bus with arbiter := ⟨some .part, some .read, false⟩ } }

/-- The five outcomes of a capture whose segment is still CAPTURING, in the order in which they are judged. -/
def Obligations.CaptureOutcomes : Prop :=
  ∀ (a : Assembly) (c : Capture) (d : Descriptor) (r : Segment),
    let target := if c.buffer = .none then 0 else targetOf d c.cells
    let u := { r with target := some target }
    let raise := changeSet u &&& target
    let lower := changeSet u &&& ~~~target
    (c.badRead = true → captureOutcome a c d r = ({ r with target := none, state := .stale }, none)) ∧
    (c.badRead = false → r.dirty = true → captureOutcome a c d r = ({ u with state := .stale }, none)) ∧
    (c.badRead = false → r.dirty = false → changeSet u = 0 → captureOutcome a c d r = ({ u with state := .clean }, none)) ∧
    (c.badRead = false → r.dirty = false → changeSet u ≠ 0 →
      captureOutcome a c d r =
        if a.members.length < 4 ∧ costOf raise lower ≤ 240 - totalCost a.members then
          ({ u with state := .member }, some ⟨c.seg, raise, lower, false⟩)
        else ({ u with state := .stale }, none))

/-- The fifth read of a capture. The mirror word of a segment still CAPTURING is posted, with the segment as it stands after the event,
which is the model's reading where a walk that starts in the event captures it again (log 28). A segment that has moved on takes the target,
where the capture gives one, and stays in the state it has reached; whether a CLEAN one that the new target leaves with changes, or that is
left without a target, stays CLEAN too, by R74, or becomes STALE, by R41, is free (log 26); and from there a job may take it, or a new walk
a STALE one. In PAUSED and in RUNNING the walk goes on: while the record is not full, it captures the next free STALE entry behind its mark,
with the new member in the record. At its end with members the record is ARMED, or, in RUNNING where a drive is free to start, the members
that pass the recheck are driven. At its end with none the record is dropped; in PAUSED no new walk starts, and in RUNNING one may. The
segment, still CAPTURING, takes its outcome; from there a SENSE job may take it, or, in RUNNING, it is driven or dropped as a member, or
captured again by a new walk; in PAUSED with no SENSE outstanding it stands as the outcome gives it. The queue loses a segment that is
queue-able no more. Where a drive starts, the members that the recheck drops, neither held nor suspect, stand at its head as one group in
member order; whether the new one, which was queued until this event, stands among them, by R50, R51 and R85, or keeps its place, by R61, is
free (log 30). That a bad read leaves no target on a segment that has moved on is R22 (log 15), and that a bad byte's mark and the parity
detail word name the buffer that is read, which a SHOW during the capture makes another than the shown one, is the model's reading
(log 14). -/
def Obligations.CaptureEnds : Prop :=
  ∀ (s : State) (a : Assembly) (cap : Capture) (buf : Buffer), WorkLawful s → CleanLawful s → s.asm = some a →
    a.capture = some cap → cap.buffer = buf.shown → cap.words.length = 4 →
    let off := buf.offset + 10 * cap.seg.val + 8
    let c := { cap with
      words := cap.words ++ [s.mem.word (areaBase s + off)], badRead := cap.badRead || badAt s off 0 || badAt s off 1 }
    let r := s.seg cap.seg
    ∃ t, exec .captureReadEnd s = .next t ∧ OthersKept s t ∧ t.mem = s.mem ∧ CaptureMarked s t buf cap.seg 4 off ∧
      (r.state = .capturing → Posted t (PartWord.offset (.mirror cap.seg)) (mirrorWord t.engine.shown (t.seg cap.seg))) ∧
      let u := { r with suspectA := (t.seg cap.seg).suspectA, suspectB := (t.seg cap.seg).suspectB }
      let out := captureOutcome a c s.engine.copy u
      let target := if c.badRead then none else if cap.forgotten then r.target else some (targetOf s.engine.copy c.cells)
      let v := { u with target := target }
      let moved := { v with
        state := if v.state = .clean ∧ (v.target = none ∨ changeSet v ≠ 0) ∧ Config.captureGivesWay = true then .stale else v.state }
      (s.engine.state = .paused → s.conv.sense = none → t.stroke = s.stroke ∧
        (r.state = .capturing → t.seg cap.seg = out.1 ∧ ∀ m, out.2 = some m → ∃ a', t.asm = some a' ∧ m ∈ a'.members) ∧
        (r.state = .stale ∨ r.state = .clean → t.seg cap.seg = moved)) ∧
      (r.state = .unsure ∨ r.state = .sensing ∨ r.state = .faulted → OrSensing t cap.seg moved) ∧
      (r.state = .stale ∨ r.state = .clean → s.engine.shown ≠ .none →
        OrSensing t cap.seg moved ∨ moved.state = .stale ∧ Recaptured t cap.seg moved) ∧
      (Active s → a.phase = .assembling →
        let ms := a.members ++ if r.state = .capturing then out.2.toList else []
        let full : Prop := 4 ≤ ms.length ∨ 240 ≤ totalCost ms
        let drives : Prop := s.engine.state = .running ∧ DriveFree s
        let leftQueue := s.queue.entries.filter fun k => k != cap.seg || queueable s.engine out.1
        (¬full → s.engine.shown ≠ .none → ∀ k, nextOfWalk s a = some k →
          t.asm = captureOf s ms a.captured k ∧ t.seg k = { s.seg k with state := .capturing, dirty := false } ∧
          t.stroke = s.stroke ∧ (r.state = .capturing → OrSensing t cap.seg out.1 ∧
            (QueueLawful s → t.queue.entries = lessGranted s t leftQueue))) ∧
        (full ∨ nextOfWalk s a = none →
          (ms ≠ [] → ¬drives → t.stroke = s.stroke ∧
            t.asm = some { a with phase := .armed, members := ms, captured := [], capture := none } ∧
            (r.state = .capturing → OrSensing t cap.seg out.1 ∧
              (QueueLawful s → t.queue.entries = lessGranted s t leftQueue))) ∧
          (ms ≠ [] → drives → keptMembers s ms ≠ [] → t.stroke = driving s (keptMembers s ms) ∧
            (∀ m ∈ keptMembers s ms, (t.seg m.seg).state = .moving) ∧
            t.moduleLink = ((keptMembers s ms).map fun m => (m.seg, m.raise, m.lower)) ∧
            (r.state = .capturing → s.engine.shown ≠ .none →
              let u := { out.1 with state := match out.2 with
                | none => out.1.state
                | some m => if dropped s m then .stale else .moving }
              t.seg cap.seg = u ∨ u.state = .stale ∧ Recaptured t cap.seg u)) ∧
          (ms ≠ [] → drives → keptMembers s ms = [] → s.engine.shown ≠ .none → t.stroke = s.stroke ∧
            (∀ a', t.asm = some a' → a'.phase = .assembling ∧ a'.members = []) ∧
            (r.state = .capturing → let u := { out.1 with state := if out.2 = none then out.1.state else .stale }
              OrSensing t cap.seg u ∨ u.state = .stale ∧ Recaptured t cap.seg u)) ∧
          (drives → r.state = .capturing → s.engine.shown ≠ .none → QueueLawful s →
            let back := rejoining s (ms.filter (dropped s))
            let keeps := Config.droppedKeepsPlace && back.contains cap.seg
            t.queue.entries = lessGranted s t ((back.filter fun k => k != cap.seg || !keeps) ++
              s.queue.entries.filter fun k => k != cap.seg || keeps || queueable s.engine out.1)) ∧
          (ms = [] → s.engine.state = .paused → t.asm = none ∧ t.stroke = s.stroke ∧
            (r.state = .capturing → OrSensing t cap.seg out.1)) ∧
          (ms = [] → s.engine.state = .running → s.engine.shown ≠ .none → t.stroke = s.stroke ∧
            (∀ a', t.asm = some a' → a'.phase = .assembling ∧ a'.members = []) ∧
            (r.state = .capturing → OrSensing t cap.seg out.1 ∨ out.1.state = .stale ∧ Recaptured t cap.seg out.1)) ∧
          (ms = [] → r.state = .capturing → s.engine.state = .paused ∨ s.engine.shown ≠ .none → QueueLawful s →
            t.queue.entries = lessGranted s t leftQueue)))

/-! ### Strokes -/

/-- Drive timer expiry starts SETTLE and the recharge timer; settle timer expiry makes the members VERIFYING and grants the VERIFY
job over their driven pins. That an expiry of a running timer is taken whatever its count is the model's choice (log 7). -/
def Obligations.StrokeTimers : Prop :=
  (∀ (s : State) (ms : List Member), BusLawful s → s.stroke.driven = some ⟨.drive, ms⟩ → s.stroke.drive.runs = true →
    ∃ t, exec .driveTimerExpiry s = .next t ∧
      t = { s with
        bus := { s.bus with posts := t.bus.posts }
        stroke := { s.stroke with
          driven := some ⟨.settle, ms⟩, drive := .idle, settle := .running 0 2
          recharge := .running 0 (if s.engine.copy[0] = 1 then s.engine.copy[14].toNat else 100) } } ∧
      EndsWith t [statusPost t]) ∧
  (∀ (s : State) (ms : List Member), BusLawful s → s.stroke.driven = some ⟨.settle, ms⟩ → s.stroke.settle.runs = true →
    ∃ t, exec .settleTimerExpiry s = .next t ∧
      t = { s with
        bus := { s.bus with posts := t.bus.posts }
        segs := t.segs
        queue := t.queue
        stroke := { s.stroke with driven := some ⟨.verify, ms⟩, settle := .idle }
        conv := t.conv } ∧
      (∀ i, t.seg i = if i ∈ ms.map Member.seg then { s.seg i with state := .verifying } else s.seg i) ∧
      t.queue.entries = (s.queue.entries.filter fun i => i ∉ ms.map Member.seg) ∧
      t.conv.state = .converting ∧ t.conv.warmUp = s.conv.warmUp ∧ t.conv.sense = s.conv.sense ∧
      (∃ j, t.conv.job = some j ∧ j.kind = .verify ∧ j.segs = ms.map Member.seg ∧ j.results = [] ∧
        j.todo = ms.flatMap (fun m => (allPins.filter fun p => (m.raise ||| m.lower).getLsbD p.val).map fun p => (m.seg, p)) ∧
        t.conv.tap = j.todo.head?.map Prod.fst) ∧
      EndsWith t [statusPost t])

/-- Recharge timer expiry sets charge-ready. Nothing else of the stroke unit changes outside RUNNING, with no record, with a record that is
ASSEMBLING, and with an ARMED record that still waits for a driven stroke, a running job or the gate. With an ARMED record ready in every
other way the members that pass the recheck are driven and charge-ready is cleared, and with none left charge-ready stays. The members that
the recheck drops become STALE, and those neither held nor suspect rejoin as one head group in member order, where a new walk or a SENSE job
may take one at once. That an expiry of a running timer is taken whatever its count is the model's choice (log 7). -/
def Obligations.RechargeExpires : Prop :=
  ∀ s : State, s.stroke.recharge.runs = true →
    let charged := { s.stroke with recharge := .idle, chargeReady := true }
    (∀ m : Member, dropped s m = true ↔
      (s.seg m.seg).held = true ∨ suspect s.engine.shown (s.seg m.seg) = true ∨ (s.seg m.seg).dirty = true ∨
      (s.claim (lineOf m.seg)).claim = .taken ∨ (s.touchLine (lineOf m.seg)).shield = true) ∧
    ∃ t, exec .rechargeTimerExpiry s = .next t ∧ OthersKept s t ∧ t.mem = s.mem ∧ (∀ i, MarksKept (s.seg i) (t.seg i)) ∧
      (s.engine.state ≠ .running → t.stroke = charged ∧ t.asm = s.asm ∧ ∀ i, OrSensing t i (s.seg i)) ∧
      (s.asm = none → s.engine.shown ≠ .none → t.stroke = charged) ∧
      (∀ a, s.asm = some a →
        a.phase = .assembling ∨ s.stroke.driven ≠ none ∨ s.conv.job ≠ none ∨ s.gate.state ≠ .opened →
        t.stroke = charged ∧ t.asm = s.asm ∧ ∀ i, OrSensing t i (s.seg i)) ∧
      ∀ ms, s.asm.map (fun a => (a.phase, a.members)) = some (.armed, ms) → s.stroke.driven = none →
        s.gate.state = .opened → s.engine.state = .running → s.conv.job = none → DriveJudged s t charged ms

/-- A conversion's end: while the warm-up mark is set and the warm-up conversion not made, its value is thrown away and the same pin is
converted again with the mark set; another's value is classed by the thresholds and handed to the job, the mark is clear from then on, and
the next pin's conversion starts, its tap selected. That it starts in the event that ends the one before, so that the converter is not seen
in STANDBY between the two, is the model's reading (log 13). -/
def Obligations.ConversionTaken : Prop :=
  ∀ (v : BitVec 10) (s : State) (j : Job) (i : SegNo) (p : Pin) (rest : List (SegNo × Pin)), BusLawful s →
    s.conv.state = .converting → s.conv.job = some j → j.todo = (i, p) :: rest →
    (s.conv.warmUp = .set → exec (.conversionEnd v) s = .next { s with conv := { s.conv with warmUp := .made } }) ∧
    (s.conv.warmUp ≠ .set → rest = [] → ∃ t, exec (.conversionEnd v) s = .next t ∧ t.conv.warmUp = .clear) ∧
    (s.conv.warmUp ≠ .set → ∀ next more, rest = next :: more →
      ∃ cls, exec (.conversionEnd v) s = .next { s with conv := { s.conv with
          warmUp := .clear, tap := some next.1, job := some { j with todo := rest, results := j.results ++ [⟨i, p, v, cls⟩] } } } ∧
        cls = (if upThreshold s.engine.copy ≤ v.toNat then .up
          else if v.toNat ≤ downThreshold s.engine.copy then .down else .midway))

/-- The outcome of one pin of an untouched member: arrival, first, second and third failure, the fifth fault, and the pins after it. -/
def Obligations.VerifyOutcomes : Prop :=
  (∀ (h : Shadow) (p : Pin) (c : PinClass), Shows (h.sense p c) p c ∧
    ∀ q, q ≠ p → (h.sense p c).up.getLsbD q.val = h.up.getLsbD q.val ∧ (h.sense p c).down.getLsbD q.val = h.down.getLsbD q.val) ∧
  (∀ (m : Member) (shown : Shown) (r : Segment) (asks : List FaultRecord) (c : Conversion), r.state = .faulted →
    judgePin m shown ⟨r, asks⟩ c = ⟨unknownPins r (onePin c.pin) .faulted, asks⟩) ∧
  (∀ (m : Member) (shown : Shown) (r : Segment) (asks : List FaultRecord) (c : Conversion), r.state ≠ .faulted →
    let expected := if m.raise.getLsbD c.pin.val then PinClass.up else PinClass.down
    let sensed := { r with shadow := r.shadow.sense c.pin c.cls }
    let without := r.retry.filter fun e => e.pin != c.pin
    let kind := match c.cls with
      | .up => FaultKind.stuckUp
      | .down => FaultKind.stuckDown
      | .midway => FaultKind.midway
    (c.cls = expected → judgePin m shown ⟨r, asks⟩ c = ⟨{ sensed with retry := without }, asks⟩) ∧
    (c.cls ≠ expected → (∀ e ∈ r.retry, e.pin ≠ c.pin) → ∃ es, judgePin m shown ⟨r, asks⟩ c = ⟨{ sensed with retry := es }, asks⟩ ∧
      (∀ e, e ∈ es ↔ e ∈ r.retry ∨ e = ⟨c.pin, .one⟩) ∧
      (r.retry.Pairwise (fun x y => x.pin.val < y.pin.val) → es.Pairwise (fun x y => x.pin.val < y.pin.val))) ∧
    (c.cls ≠ expected → r.retry.Pairwise (fun x y => x.pin.val < y.pin.val) → (⟨c.pin, .one⟩ : RetryEntry) ∈ r.retry →
      ∃ es, judgePin m shown ⟨r, asks⟩ c = ⟨{ sensed with retry := es }, asks⟩ ∧
        (∀ e, e ∈ es ↔ (e ∈ r.retry ∧ e.pin ≠ c.pin) ∨ e = ⟨c.pin, .two⟩) ∧ es.Pairwise (fun x y => x.pin.val < y.pin.val)) ∧
    (c.cls ≠ expected → r.retry.Pairwise (fun x y => x.pin.val < y.pin.val) → (⟨c.pin, .two⟩ : RetryEntry) ∈ r.retry →
      (r.faults.length < 4 → judgePin m shown ⟨r, asks⟩ c =
        ⟨{ sensed with retry := without, faults := r.faults ++ [⟨c.pin, kind⟩] },
         asks ++ [⟨c.seg, c.pin.val / 8, c.pin.val % 8 + 1, kind.code, 3, shown, c.value.toNat⟩]⟩) ∧
      (4 ≤ r.faults.length → judgePin m shown ⟨r, asks⟩ c =
        ⟨{ sensed with retry := without, state := .faulted }, asks ++ [⟨c.seg, c.pin.val / 8, 0, 4, 0, shown, 0⟩]⟩)))

/-- A fault record: FAULT_NEW in every case; written to its slot with the producer count raised when the ring has room, and lost with
RING_FULL when it is full. -/
def Obligations.FaultRecords : Prop :=
  ∀ (f : FaultRecord) (s : State),
    let t := requestRecord f s
    let slot := s.events.producer.toNat % 64
    isPending t .faultNew = true ∧ (∀ e, e ≠ .faultNew → e ≠ .ringFull → isPending t e = isPending s e) ∧
    t.events.consumer = s.events.consumer ∧
    ((s.events.producer - s.events.consumer).toNat < 64 →
      t.events.producer = s.events.producer + 1 ∧ isPending t .ringFull = isPending s .ringFull ∧
      EndsWith t [⟨0x1400 + 8 * slot, BitVec.ofNat 16 (f.seg.val + 256 * f.cell)⟩,
        ⟨0x1402 + 8 * slot, BitVec.ofNat 16 (f.dot + 256 * f.kind)⟩,
        ⟨0x1404 + 8 * slot, BitVec.ofNat 16 (f.attempts + 256 * f.shown.code)⟩,
        ⟨0x1406 + 8 * slot, BitVec.ofNat 16 f.value⟩,
        ⟨0x1280, (s.events.producer + 1).setWidth 16⟩]) ∧
    (64 ≤ (s.events.producer - s.events.consumer).toNat →
      t.events.producer = s.events.producer ∧ isPending t .ringFull = true ∧ t.bus.posts = s.bus.posts)

/-- The last conversion of a VERIFY job: the record is freed, a touched member's driven pins are UNKNOWN, and an untouched one takes its
outcomes in its shadow, its retry list and its fault list; a discard-after flag forgets the member; the fault records that the outcomes ask
for are given in member order, with FAULT_NEW and the fault tone; the queue-able members join at the head as one group, and behind every entry
those that discard-after has forgotten, in member order; and the page is judged. From there new work is judged, in RUNNING and in PAUSED: with
no record a walk may capture a member finished STALE at once; an ARMED record that waited only for the stroke's end is rechecked and driven;
and in PAUSED, with a record that is ASSEMBLING, and with an ARMED one that waits for its recharge or the gate, nothing starts but a job, so
that with no SENSE outstanding a member not UNSURE stands as its finish gives it. The rules do not say whether a walk and a drive, or the
converter's grant, is judged first: that the grant is last is the model's choice (log 11). -/
def Obligations.StrokeEnds : Prop :=
  ∀ (v : BitVec 10) (s : State) (j : Job) (i : SegNo) (p : Pin) (d : Driven), WorkLawful s → Active s →
    s.conv.state = .converting → s.conv.warmUp ≠ .set → s.conv.job = some j → j.kind = .verify →
    j.todo = [(i, p)] → s.stroke.driven = some d →
    let cs := j.results ++ [⟨i, p, v, classify s.engine.copy v⟩]
    let asks := strokeAsks s d.members cs
    let after := strokeEnded s d cs
    ∃ t, exec (.conversionEnd v) s = .next t ∧ t.mem = s.mem ∧ t.gate = s.gate ∧ t.touch = s.touch ∧ t.claims = s.claims ∧
      (s.asm = none → s.engine.shown ≠ .none → t.stroke = after.stroke) ∧
      (∀ m ∈ d.members, MarksKept (finishOf s cs m) (t.seg m.seg) ∧
        ((finishOf s cs m).state = .faulted → t.seg m.seg = finishOf s cs m)) ∧
      RecordsAsked s t asks ∧ (∀ e, e ≠ .faultNew → e ≠ .ringFull → e ≠ .pageDone → isPending t e = isPending s e) ∧
      (asks ≠ [] → t.chime = faultToneAsked s) ∧ PageJudged { s with chime := if asks = [] then s.chime else faultToneAsked s } t ∧
      EndJudged (QueueLawful s) after t ∧
      (Quiet after → s.conv.sense = none →
        ∀ m ∈ d.members, (finishOf s cs m).state ≠ .unsure → t.seg m.seg = finishOf s cs m)

/-! ### Sweeps and SENSE jobs -/

/-- The last conversion of a sweep. In every engine state the shadow is as sensed when untouched, as before when touched, and all UNKNOWN
with discard-after, and the lists and the other marks are kept; the mirror word is posted with the segment as it stands after the event,
also where a sweep or SENSE job takes it again at once. The segment is STALE and joins at the head when untouched, UNSURE at the head when
touched, and with discard-after UNSURE, at the tail when untouched. A capture of the segment that is still under way is marked as one whose
segment has been forgotten, with discard-after, and else nothing of the record changes. In LOADING the last untouched sweep makes the engine
RUNNING and ends START with DONE. From there new work is judged, in RUNNING also after that last sweep: with no record a walk captures the
first free STALE entry at once; an ARMED record that waited only for the converter is rechecked and driven; and in PAUSED, with a record that
is ASSEMBLING, with an ARMED one that waits for its recharge or the gate, and in LOADING while a segment stays UNSURE or SENSING, nothing
starts but a job. The rules do not say whether a walk and a drive, or the converter's grant, is judged first: that the grant is last is the
model's choice (log 11). That one post stands for all that the rules name for a segment in one event, with the value after the event, is the
model's reading (log 28). -/
def Obligations.SweepEnds : Prop :=
  ∀ (v : BitVec 10) (s : State) (j : Job) (i : SegNo) (p : Pin), s.conv.state = .converting → s.conv.warmUp ≠ .set →
    s.conv.job = some j → j.kind = .sweep → j.segs = [i] → j.todo = [(i, p)] →
    let r := s.seg i
    let cs := j.results ++ [⟨i, p, v, classify s.engine.copy v⟩]
    let swept := { r with state := .stale, shadow := cs.foldl (fun h c => h.sense c.pin c.cls) r.shadow }
    let ended := if r.discardAfter then forgottenAs r .unsure else if j.touched then { r with state := .unsure } else swept
    let after := jobEnded s j i ended s.conv.sense
    let loaded : Prop := s.engine.state = .loading ∧ s.engine.reading = none ∧
      ∀ k, (after.seg k).state ≠ .unsure ∧ (after.seg k).state ≠ .sensing
    ∃ t, exec (.conversionEnd v) s = .next t ∧ t.mem = s.mem ∧ OthersKept s t ∧ t.conv.sense = s.conv.sense ∧
      Posted t (PartWord.offset (.mirror i)) (mirrorWord t.engine.shown (t.seg i)) ∧ MarksKept ended (t.seg i) ∧
      (¬loaded → PageJudged s t ∧ EndJudged (QueueLawful s) after t ∧
        (Quiet after → s.conv.sense = none → ended.state ≠ .unsure → t.seg i = ended)) ∧
      (loaded →
        t.engine.state = .running ∧ t.engine.startOut = false ∧ (BusLawful s → EndsWithResult t 1 .done) ∧
        (settled t = false → t.engine.lag = some 0) ∧
        EndJudged (QueueLawful s) { after with engine := { after.engine with state := .running, startOut := false } } t)

/-- The last conversion of a SENSE job: untouched, the ten sense image words are posted and the done mark is set, the last of them ends the
command with DONE; touched, no image word is posted, nothing is marked, and the mirror word is posted whether or not it changed, with the
segment as it stands after the event, which is the model's reading where the segment is taken again at once (log 28). The segment's record
by the tables: FAULTED stays, its shadow sensed when untouched; with discard-after it is forgotten and UNSURE; untouched it is CLEAN where
it shows its target with dirty clear, and else STALE; touched it returns to its state before, one freed from FAULTED during the job as
UNSURE, and one CLEAN before as STALE with dirty set, as UNSURE with changes, and else as CLEAN. It keeps its place in the queue, or joins at
the head, or with discard-after at the tail when untouched; and the page is judged. From there new work is judged, in RUNNING and in PAUSED:
with no record a walk captures the first free STALE entry at once; an ARMED record that waited only for the converter is rechecked and driven;
and in PAUSED, with a record that is ASSEMBLING, and with an ARMED one that waits for its recharge or the gate, nothing starts but a job. The
rules do not say whether a walk and a drive, or the converter's grant, is judged first: that the grant is last is the model's choice
(log 11). -/
def Obligations.SenseEnds : Prop :=
  ∀ (v : BitVec 10) (s : State) (j : Job) (i : SegNo) (p : Pin) (rec : SenseRecord), BusLawful s →
    s.conv.state = .converting → s.conv.warmUp ≠ .set → s.conv.job = some j → j.kind = .sense → j.segs = [i] →
    j.todo = [(i, p)] → s.conv.sense = some rec → i ∈ rec.range → i ∉ rec.done →
    let r := s.seg i
    let cs := j.results ++ [⟨i, p, v, classify s.engine.copy v⟩]
    let u := { r with shadow := cs.foldl (fun h c => h.sense c.pin c.cls) r.shadow }
    let stays := j.before = .faulted ∧ r.state = .faulted
    let ended : Segment :=
      if stays then if j.touched then r else u
      else if r.discardAfter then forgottenAs r .unsure
      else if j.touched = false then
        { u with state := if u.target.isSome = true ∧ u.dirty = false ∧ changeSet u = 0 then .clean else .stale }
      else { r with state :=
        if j.before = .clean then
          if r.dirty = true then .stale else if changeSet r ≠ 0 then .unsure else .clean
        else if j.before = .faulted then .unsure else j.before }
    let left := { rec with done := i :: rec.done }
    let after := jobEnded s j i ended
      (if j.touched then some rec else if rec.range.all (fun k => left.done.contains k) then none else some left)
    ∃ t, exec (.conversionEnd v) s = .next t ∧ t.mem = s.mem ∧ OthersKept s t ∧
      (j.touched = false →
        (∀ k : Fin 10, ∃ w : Word, Posted t (0x0800 + 2 * (10 * i.val + k.val)) w ∧ ∀ b : Fin 8,
          w.getLsbD b.val = (cs.any fun c => c.pin.val == 8 * k.val + b.val && c.cls == .up) ∧
          w.getLsbD (8 + b.val) = ((cs.any fun c => c.pin.val == 8 * k.val + b.val && c.cls == .midway) ||
            r.faults.any fun f => f.pin.val == 8 * k.val + b.val)) ∧
        ((∃ k ∈ rec.range, k ≠ i ∧ k ∉ rec.done) → t.conv.sense = some left) ∧
        ((∀ k ∈ rec.range, k = i ∨ k ∈ rec.done) → t.conv.sense = none ∧ EndsWithResult t 10 .done)) ∧
      (j.touched = true →
        t.conv.sense = some rec ∧ Posted t (PartWord.offset (.mirror i)) (mirrorWord t.engine.shown (t.seg i)) ∧
        (∀ c : Fin 960, hasPost t (0x0800 + 2 * c.val) = hasPost s (0x0800 + 2 * c.val))) ∧
      MarksKept ended (t.seg i) ∧ PageJudged s t ∧ EndJudged (QueueLawful s) after t ∧
      (Quiet after → stays ∨ j.touched = false ∧ ended.state ≠ .unsure → t.seg i = ended)

/-- The converter arbiter's order. Where a grant alone is judged, as PAUSE lets it be: none while a job runs, while a stroke is in DRIVE or
SETTLE or with the converter not in STANDBY; else a SWEEP of the head-most UNSURE entry on an unshielded line, over its pins outside the
fault list; with no such entry a SENSE job of the lowest-numbered segment of the range that is not done and eligible; and with neither, none.
The hold-back: at the end of a SWEEP or SENSE job in RUNNING, an ARMED record that waited for nothing but the converter is driven and no
job is granted, whatever waits; where the recheck drops every member, a SWEEP that
waits for another segment than the job's is granted in the event. That a walk is judged
before the grant is the model's choice (log 11). -/
def Obligations.GrantOrder : Prop :=
  (∀ (c : CommandWrite) (s : State), BusLawful s → s.engine.state = .running → ∃ t, exec (.pause c) s = .next t ∧
    GrantJudged s t ∧ (∀ k, OrSensing t k (s.seg k)) ∧ (t.conv = s.conv → t.segs = s.segs ∧ t.queue = s.queue) ∧
    (QueueLawful s → t.queue.entries = lessGranted s t s.queue.entries)) ∧
  ∀ (v : BitVec 10) (s : State) (j : Job) (i : SegNo) (p : Pin) (a : Assembly), WorkLawful s → s.engine.state = .running →
    s.conv.warmUp ≠ .set → s.conv.job = some j → j.kind ≠ .verify → j.todo = [(i, p)] → s.asm = some a → a.phase = .armed →
    s.stroke.driven = none → s.stroke.chargeReady = true → s.gate.state = .opened →
    ∃ t, exec (.conversionEnd v) s = .next t ∧
      (keptMembers s a.members ≠ [] → t.stroke = driving s (keptMembers s a.members) ∧
        t.conv.job = none ∧ t.conv.state = .standby) ∧
      (keptMembers s a.members = [] → s.engine.shown ≠ .none →
        t.stroke = s.stroke ∧
        ((∃ k ∈ s.queue.entries, k ∉ j.segs ∧ (s.seg k).state = .unsure ∧ (s.touchLine (lineOf k)).shield = false) →
          ∃ g, t.conv.job = some g ∧ g.kind = .sweep))

/-! ### The supply gate, touch, the timers, the Chime -/

/-- The gate below OPEN: a rise in CLOSED, a fall in REARMING, the rearm timer's expiry; and a rise or fall that changes nothing. That
an expiry of a running timer is taken whatever its count, and that the status word is posted before the event pending word, are the
model's choices (log 7, log 10). -/
def Obligations.SupplyGateTaken : Prop :=
  (∀ s : State, BusLawful s → s.gate.state = .closed →
    ∃ t, exec .supplyOkRise s = .next t ∧ EndsWith t [statusPost t] ∧ t = { s with
      bus := { s.bus with posts := t.bus.posts }, pins := { s.pins with supplyOk := true }, gate := ⟨.rearming, .running 0 50⟩ }) ∧
  (∀ s : State, BusLawful s → s.gate.state ≠ .closed →
    exec .supplyOkRise s = .next { s with pins := { s.pins with supplyOk := true } }) ∧
  (∀ s : State, BusLawful s → s.gate.state = .closed →
    exec .supplyOkFall s = .next { s with pins := { s.pins with supplyOk := false } }) ∧
  (∀ s : State, BusLawful s → s.gate.state = .rearming →
    ∃ t, exec .supplyOkFall s = .next t ∧ EndsWith t [statusPost t, pendingPost t] ∧ isPending t .supplyLost = true ∧
      (∀ e, e ≠ .supplyLost → isPending t e = isPending s e) ∧ t = { s with
        bus := { s.bus with posts := t.bus.posts }, pins := { s.pins with supplyOk := false }, gate := ⟨.closed, .idle⟩
        events := { s.events with pending := t.events.pending } }) ∧
  (∀ s : State, BusLawful s → s.gate.state = .rearming → s.gate.rearm.runs = true →
    ∃ t, exec .rearmTimerExpiry s = .next t ∧ EndsWith t [statusPost t, pendingPost t] ∧ isPending t .supplyBack = true ∧
      (∀ e, e ≠ .supplyBack → isPending t e = isPending s e) ∧ t = { s with
        bus := { s.bus with posts := t.bus.posts }, gate := ⟨.opened, .idle⟩
        stroke := { s.stroke with
          chargeReady := false, recharge := .running 0 (if s.engine.copy[0] = 1 then s.engine.copy[14].toNat else 100) }
        events := { s.events with pending := t.events.pending } })

/-- A fall in OPEN: CLOSED, SUPPLY_LOST, charge-ready clear, the recharge timer stopped, the request for the fault tone, which starts it in
SILENT, marks it as the next in SOUNDING PAGE and is dropped in SOUNDING FAULT and with chime enable 0; a stroke in DRIVE is aborted with
its members UNSURE, and those neither held nor suspect rejoin as one head group in member order, where a sweep may take one at once; a
stroke past DRIVE goes on. The engine status word is posted. The event pending word is the last post, behind the mirror words and the status
word: that place is the model's reading, not a rule's (log 10). -/
def Obligations.SupplyLostWhileOpen : Prop :=
  ∀ s : State, BusLawful s → WorkLawful s → s.gate.state = .opened →
    ∃ t, exec .supplyOkFall s = .next t ∧ t.mem = s.mem ∧ t.gate = ⟨.closed, .idle⟩ ∧ t.pins = { s.pins with supplyOk := false } ∧
      isPending t .supplyLost = true ∧ (∀ e, e ≠ .supplyLost → e ≠ .pageDone → isPending t e = isPending s e) ∧
      t.touch = s.touch ∧ t.claims = s.claims ∧ t.engine.state = s.engine.state ∧ t.engine.copy = s.engine.copy ∧
      t.engine.shown = s.engine.shown ∧ t.stroke.chargeReady = false ∧ t.stroke.recharge = .idle ∧
      t.stroke.settle = s.stroke.settle ∧
      (chimeEnabled s.engine.copy = true → s.chime.state = .silent →
        t.chime = ⟨.fault, some (faultTone s.engine.copy), .running 0 500, .none⟩) ∧
      (chimeEnabled s.engine.copy = true → s.chime.state = .page → t.chime = { s.chime with next := .fault }) ∧
      (chimeEnabled s.engine.copy = true → s.chime.state = .fault → t.chime = s.chime) ∧
      (chimeEnabled s.engine.copy = false → t.chime = s.chime) ∧
      (∀ d, s.stroke.driven = some d → d.phase ≠ .drive → t.stroke.driven = some d ∧ ∀ m ∈ d.members, t.seg m.seg = s.seg m.seg) ∧
      (∀ d, s.stroke.driven = some d → d.phase = .drive → t.stroke.driven = none ∧ t.stroke.drive = .idle ∧ t.moduleLink = [] ∧
        ∀ m ∈ d.members, ((t.seg m.seg).state = .unsure ∨ (t.seg m.seg).state = .sensing) ∧
          t.seg m.seg = if (s.seg m.seg).discardAfter then forgottenAs (s.seg m.seg) (t.seg m.seg).state
            else unknownPins (s.seg m.seg) (m.raise ||| m.lower) (t.seg m.seg).state) ∧
      (QueueLawful s → s.engine.state ≠ .running ∨ s.asm ≠ none ∨ s.engine.shown ≠ .none →
        let aborted := s.stroke.driven.toList.flatMap fun d => if d.phase = .drive then rejoining s d.members else []
        t.queue.entries = lessGranted s t (aborted ++ s.queue.entries)) ∧
      EndsWith t [pendingPost t] ∧ Posted t (PartWord.offset .engineStatus) (statusWord t)

/-- A touch input against the accepted level, the guard and the hold-off: ignored; PRESENT accepted, with work in flight on the line
marked touched; ABSENT accepted, with or without a hold-off; and the expiries of the two timers, which are taken whatever the count by the
model's choice (log 7): a guard's expiry on another level than the accepted one does what a change of the input to that level does. Where a
shield goes off, a walk and a grant are judged in the event; that the walk is judged first is the model's choice (log 11). -/
def Obligations.TouchTaken : Prop :=
  ∀ (l : LineNo) (s : State), BusLawful s →
    let line := s.touchLine l
    let guard : Timer := .running 0 s.engine.copy[15].toNat
    let hold := s.engine.copy[16].toNat + 256 * s.engine.copy[17].toNat
    (∀ high, s.touch.running = false ∨ line.guard.runs = true ∨ line.accepted = (if high then .present else .absent) →
      exec (.touchInputChange l high) s = .next { s with pins := { s.pins with touch := s.pins.touch.set l high } }) ∧
    (s.touch.running = true → line.guard.runs = false → line.accepted = .absent →
      ∃ t, exec (.touchInputChange l true) s = .next t ∧
        t = { s with
          pins := { s.pins with touch := s.pins.touch.set l true }
          touch := { s.touch with lines := s.touch.lines.set l ⟨.present, guard, .idle, true⟩ }
          stroke := { s.stroke with driven := t.stroke.driven }
          conv := { s.conv with job := t.conv.job } } ∧
        (line.shield = true → t.stroke = s.stroke ∧ t.conv = s.conv) ∧
        (line.shield = false →
          (s.stroke.driven = none → t.stroke.driven = none) ∧ (s.conv.job = none → t.conv.job = none) ∧
          (∀ d, s.stroke.driven = some d → t.stroke.driven = some { d with members := d.members.map fun m =>
            { m with touched := m.touched || (decide (lineOf m.seg = l) && !conversionsEnded s d m) } }) ∧
          (∀ j, s.conv.job = some j → t.conv.job = some { j with
            touched := j.touched || (decide (j.kind ≠ .verify) && j.segs.any fun i => lineOf i == l) }))) ∧
    (s.touch.running = true → line.guard.runs = false → line.accepted = .present → hold ≠ 0 →
      exec (.touchInputChange l false) s = .next { s with
        pins := { s.pins with touch := s.pins.touch.set l false }
        touch := { s.touch with lines := s.touch.lines.set l ⟨.absent, guard, .running 0 hold, line.shield⟩ } }) ∧
    (s.touch.running = true → line.guard.runs = false → line.accepted = .present → hold = 0 →
      ∃ t, exec (.touchInputChange l false) s = .next t ∧ t.touchLine l = ⟨.absent, guard, .idle, false⟩ ∧
        (∀ k, k ≠ l → t.touchLine k = s.touchLine k) ∧ (∀ i, MarksKept (s.seg i) (t.seg i)) ∧ NewWork s t) ∧
    (s.touch.running = true → line.guard.runs = true → line.accepted = (if s.pins.touch[l] then .present else .absent) →
      exec (.guardTimerExpiry l) s = .next { s with
        touch := { s.touch with lines := s.touch.lines.set l { line with guard := .idle } } }) ∧
    (s.touch.running = true → line.guard.runs = true → line.accepted ≠ (if s.pins.touch[l] then .present else .absent) →
      exec (.guardTimerExpiry l) s = exec (.touchInputChange l s.pins.touch[l]) { s with
        touch := { s.touch with lines := s.touch.lines.set l { line with guard := .idle } } } ∧
      ∃ t, exec (.guardTimerExpiry l) s = .next t ∧ (t.touchLine l).guard = guard ∧
        (t.touchLine l).accepted = (if s.pins.touch[l] then .present else .absent) ∧
        (t.touchLine l).shield = (s.pins.touch[l] || (line.shield && decide (hold ≠ 0))) ∧
        (t.touchLine l).holdOff = (if s.pins.touch[l] = false ∧ hold ≠ 0 then .running 0 hold else .idle)) ∧
    (s.touch.running = true → line.holdOff.runs = true →
      ∃ t, exec (.holdOffTimerExpiry l) s = .next t ∧ t.touchLine l = { line with holdOff := .idle, shield := false } ∧
        (∀ k, k ≠ l → t.touchLine k = s.touchLine k) ∧ t.claims = s.claims ∧ t.gate = s.gate ∧ t.mem = s.mem ∧
        (∀ i, MarksKept (s.seg i) (t.seg i)) ∧ NewWork s t)

/-- The points of the claim and lag timers: CLAIM_WARN once, the expiry that frees the claim and lets a walk be judged, LAG_WARN once,
LAG_LIMIT. An expiry or a limit comes after its warn point: where the line or the stretch has not warned, it warns in that event. That a
point is taken whatever the count, and that the warn point is then taken in the event of the expiry or the limit, are the model's choices
(log 7). The event pending word is the last post, at an expiry behind the claim detail word and also behind the mirror and status words of a
walk that starts in the event: that place is the model's reading, not a rule's (log 10). -/
def Obligations.TimerPoints : Prop :=
  (∀ (l : LineNo) (s : State), BusLawful s → queuesRun s.engine = true → (s.claim l).claim = .taken → (s.claim l).warned = false →
    ∃ t, exec (.claimWarnPoint l) s = .next t ∧ (t.claim l).claim = .taken ∧ (t.claim l).warned = true ∧
      (t.claim l).timer.isSome = true ∧ (∀ k, k ≠ l → t.claim k = s.claim k) ∧ isPending t .claimWarn = true ∧
      (∀ e, e ≠ .claimWarn → isPending t e = isPending s e) ∧ EndsWith t [pendingPost t] ∧
      t = { s with
        bus := { s.bus with posts := t.bus.posts }
        claims := { s.claims with lines := t.claims.lines }
        events := { s.events with pending := t.events.pending } }) ∧
  (∀ (l : LineNo) (s : State), BusLawful s → queuesRun s.engine = true → (s.claim l).claim = .taken →
    ∃ t, exec (.claimExpiry l) s = .next t ∧ t.mem = s.mem ∧ t.claim l = ⟨.free, none, false⟩ ∧
      (∀ k, k ≠ l → t.claim k = s.claim k) ∧ Posted t (claimOffset l) 0 ∧
      Posted t (PartWord.offset .claimDetail) (BitVec.ofNat 16 l.val) ∧ EndsWith t [pendingPost t] ∧
      isPending t .claimExpired = true ∧ isPending t .claimWarn = (isPending s .claimWarn || !(s.claim l).warned) ∧
      (∀ e, e ≠ .claimExpired → e ≠ .claimWarn → e ≠ .pageDone → isPending t e = isPending s e) ∧
      t.gate = s.gate ∧ t.touch = s.touch ∧ (∀ i, MarksKept (s.seg i) (t.seg i)) ∧ WorkJudged s t) ∧
  (∀ (n : Nat) (s : State), BusLawful s → s.engine.state = .running → s.engine.lag = some n → s.engine.lagWarned = false →
    ∃ t, exec .lagWarnPoint s = .next t ∧ t.engine.lagWarned = true ∧ t.engine.lag.isSome = true ∧ isPending t .lagWarn = true ∧
      (∀ e, e ≠ .lagWarn → isPending t e = isPending s e) ∧ EndsWith t [pendingPost t] ∧
      t = { s with
        bus := { s.bus with posts := t.bus.posts }
        engine := { s.engine with lag := t.engine.lag, lagWarned := true }
        events := { s.events with pending := t.events.pending } }) ∧
  ∀ (n : Nat) (s : State), BusLawful s → s.engine.state = .running → s.engine.lag = some n →
    ∃ t, exec .lagLimitPoint s = .next t ∧ isPending t .lagLimit = true ∧
      isPending t .lagWarn = (isPending s .lagWarn || !s.engine.lagWarned) ∧
      (∀ e, e ≠ .lagLimit → e ≠ .lagWarn → isPending t e = isPending s e) ∧ EndsWith t [pendingPost t] ∧
      t = { s with
        bus := { s.bus with posts := t.bus.posts }
        engine := { s.engine with lag := none, lagWarned := true }
        events := { s.events with pending := t.events.pending } }

/-- The Chime: the duration timer's expiry marks SILENT unless FAULT is marked, and an expiry that falls on a period end, the tone being a
whole number of periods long, acts on the mark at once; a period end acts on the mark. That the expiry is taken whatever the count is the
model's choice (log 7), and where it falls is computed from the tone's length and frequency (log 23). -/
def Obligations.ChimeTimers : Prop :=
  (∀ (s : State) (n length : Nat), s.chime.duration = .running n length →
    let whole := s.chime.state ≠ .silent ∧ ∃ f, s.chime.tone = some f ∧ 1000 ∣ length * f
    (¬whole → exec .durationTimerExpiry s = .next { s with
      chime := { s.chime with duration := .idle, next := if s.chime.next = .fault then .fault else .silent } }) ∧
    (whole → exec .durationTimerExpiry s = .next { s with
      chime := if s.chime.next = .fault then ⟨.fault, some (faultTone s.engine.copy), .running 0 500, .none⟩
        else ⟨.silent, none, .idle, .none⟩ })) ∧
  (∀ s : State, s.chime.state ≠ .silent →
    (s.chime.next = .none → exec .periodEnd s = .next s) ∧
    (s.chime.next = .silent → exec .periodEnd s = .next { s with chime := ⟨.silent, none, .idle, .none⟩ }) ∧
    (s.chime.next = .fault → exec .periodEnd s = .next { s with
      chime := ⟨.fault, some (faultTone s.engine.copy), .running 0 500, .none⟩ }))

/-! ### What holds of every event -/

/-- An event that has no cause in a state changes nothing there (the model's choice, log 5). -/
def Obligations.EventWithoutCause : Prop :=
  ∀ (c : Instr) (s : State), OwesNothing s → takesPlace c s = false → exec c s = .next s

/-- A change of a segment's mirror word, of an engine status field or of the pending set is posted: when an event that is not the
power-on reset has changed one, the word stands on the post list with its value after the event. -/
def Obligations.ChangesArePosted : Prop :=
  ∀ (c : Instr) (s t : State), BusLawful s → (∀ strap, c ≠ .powerOnReset strap) → exec c s = .next t →
    (∀ i, mirrorWord t.engine.shown (t.seg i) ≠ mirrorWord s.engine.shown (s.seg i) →
      Posted t (PartWord.offset (.mirror i)) (mirrorWord t.engine.shown (t.seg i))) ∧
    (statusFields t ≠ statusFields s → Posted t (PartWord.offset .engineStatus) (statusWord t)) ∧
    (t.events.pending ≠ s.events.pending → Posted t (PartWord.offset .eventPending) (pendingWord t))

/-- A CLEAN segment has dirty clear, in every step; and it shows its target, having one, with an empty change set, in every event but two.
One is the end of a capture that the segment has moved on from to CLEAN, in a part that keeps R74 there: in a part that keeps R41 it does so
there too, and which rule the part keeps is free (log 26). The other is the end of a touched SENSE job that began on it CLEAN and ends on it
with no target, which returns it to CLEAN with no change set, as R41 and R126 say. From any state whose records in flight are lawful a
segment becomes CLEAN only with dirty clear and an empty change set. -/
def Obligations.BecomesClean : Prop :=
  (∀ s t : State, WorkLawful s → CleanLawful s → step s = .next t → CleanLawful t) ∧
  (∀ (c : Instr) (s t : State) (i : SegNo), WorkLawful s → CleanLawful s → exec c s = .next t → (t.seg i).state = .clean →
    ((s.seg i).state = .clean → ShowsTarget (s.seg i)) →
    (c = .captureReadEnd → (s.seg i).state = .clean → (∃ a cap, s.asm = some a ∧ a.capture = some cap ∧ cap.seg = i) →
      Config.captureGivesWay = true) →
    ((∃ v, c = .conversionEnd v) → ∀ j, s.conv.job = some j → j.kind = .sense → j.segs = [i] → j.before = .clean → j.touched = true →
      (s.seg i).target.isSome = true) →
    ShowsTarget (t.seg i)) ∧
  ∀ (c : Instr) (s t : State) (i : SegNo), WorkLawful s → exec c s = .next t → (s.seg i).state ≠ .clean → (t.seg i).state = .clean →
    (t.seg i).dirty = false ∧ changeSet (t.seg i) = 0
end

