-- ==== Sys2Proof/Laws/State.lean ====
section
/-! SUPPORT. One lemma for each field and each update of the state, true by rfl. A named update `u` has `u_<field>`: the fields it leaves keep their value, and the fields it writes take the value named. -/

namespace Sys2Proof.Machine

/-! ### Reading a record, a touch record, a claim record after one of them is replaced -/

theorem seg_setSeg (i j : SegNo) (r : Segment) (s : State) : (setSeg i r s).seg j = if j = i then r else s.seg j := by
  unfold State.seg setSeg
  simp only [Fin.getElem_fin, Vector.getElem_set, Fin.ext_iff, eq_comm]

@[simp] theorem seg_setSeg_self (i : SegNo) (r : Segment) (s : State) : (setSeg i r s).seg i = r := by simp [seg_setSeg]

theorem seg_setSeg_other {i j : SegNo} (h : j ≠ i) (r : Segment) (s : State) : (setSeg i r s).seg j = s.seg j := by
  simp [seg_setSeg, h]

theorem touchLine_set (i j : LineNo) (t : TouchLine) (s : State) :
    (setTouchLine i t s).touchLine j = if j = i then t else s.touchLine j := by
  unfold State.touchLine setTouchLine
  simp only [Fin.getElem_fin, Vector.getElem_set, Fin.ext_iff, eq_comm]

@[simp] theorem touchLine_set_self (i : LineNo) (t : TouchLine) (s : State) : (setTouchLine i t s).touchLine i = t := by
  simp [touchLine_set]

theorem claim_set (i j : LineNo) (c : Claim) (s : State) :
    (setClaim i c s).claim j = if j = i then c else s.claim j := by
  unfold State.claim setClaim
  simp only [Fin.getElem_fin, Vector.getElem_set, Fin.ext_iff, eq_comm]

@[simp] theorem claim_set_self (i : LineNo) (c : Claim) (s : State) : (setClaim i c s).claim i = c := by simp [claim_set]

theorem touchPin_set (i j : LineNo) (h : Bool) (s : State) :
    touchPin (setTouchPin i h s) j = if j = i then h else touchPin s j := by
  unfold touchPin setTouchPin
  simp only [Fin.getElem_fin, Vector.getElem_set, Fin.ext_iff, eq_comm]

/-! ### setSeg -/

@[simp] theorem setSeg_mem (i : SegNo) (r : Segment) (s : State) : (setSeg i r s).mem = s.mem := rfl
@[simp] theorem setSeg_pins (i : SegNo) (r : Segment) (s : State) : (setSeg i r s).pins = s.pins := rfl
@[simp] theorem setSeg_bus (i : SegNo) (r : Segment) (s : State) : (setSeg i r s).bus = s.bus := rfl
@[simp] theorem setSeg_queue (i : SegNo) (r : Segment) (s : State) : (setSeg i r s).queue = s.queue := rfl
@[simp] theorem setSeg_asm (i : SegNo) (r : Segment) (s : State) : (setSeg i r s).asm = s.asm := rfl
@[simp] theorem setSeg_stroke (i : SegNo) (r : Segment) (s : State) : (setSeg i r s).stroke = s.stroke := rfl
@[simp] theorem setSeg_gate (i : SegNo) (r : Segment) (s : State) : (setSeg i r s).gate = s.gate := rfl
@[simp] theorem setSeg_conv (i : SegNo) (r : Segment) (s : State) : (setSeg i r s).conv = s.conv := rfl
@[simp] theorem setSeg_touch (i : SegNo) (r : Segment) (s : State) : (setSeg i r s).touch = s.touch := rfl
@[simp] theorem setSeg_claims (i : SegNo) (r : Segment) (s : State) : (setSeg i r s).claims = s.claims := rfl
@[simp] theorem setSeg_engine (i : SegNo) (r : Segment) (s : State) : (setSeg i r s).engine = s.engine := rfl
@[simp] theorem setSeg_events (i : SegNo) (r : Segment) (s : State) : (setSeg i r s).events = s.events := rfl
@[simp] theorem setSeg_chime (i : SegNo) (r : Segment) (s : State) : (setSeg i r s).chime = s.chime := rfl
@[simp] theorem setSeg_owed (i : SegNo) (r : Segment) (s : State) : (setSeg i r s).owed = s.owed := rfl
@[simp] theorem setSeg_pending (i : SegNo) (r : Segment) (s : State) : (setSeg i r s).pending = s.pending := rfl
@[simp] theorem setSeg_segs (i : SegNo) (r : Segment) (s : State) : (setSeg i r s).segs = s.segs.set i r := rfl
@[simp] theorem setSeg_touchLine (i : SegNo) (r : Segment) (s : State) (j : LineNo) : (setSeg i r s).touchLine j = s.touchLine j := rfl
@[simp] theorem setSeg_claim (i : SegNo) (r : Segment) (s : State) (j : LineNo) : (setSeg i r s).claim j = s.claim j := rfl
@[simp] theorem setSeg_areaBase (i : SegNo) (r : Segment) (s : State) : areaBase (setSeg i r s) = areaBase s := rfl

/-! ### setQueue -/

@[simp] theorem setQueue_mem (q : Queue) (s : State) : (setQueue q s).mem = s.mem := rfl
@[simp] theorem setQueue_pins (q : Queue) (s : State) : (setQueue q s).pins = s.pins := rfl
@[simp] theorem setQueue_bus (q : Queue) (s : State) : (setQueue q s).bus = s.bus := rfl
@[simp] theorem setQueue_segs (q : Queue) (s : State) : (setQueue q s).segs = s.segs := rfl
@[simp] theorem setQueue_asm (q : Queue) (s : State) : (setQueue q s).asm = s.asm := rfl
@[simp] theorem setQueue_stroke (q : Queue) (s : State) : (setQueue q s).stroke = s.stroke := rfl
@[simp] theorem setQueue_gate (q : Queue) (s : State) : (setQueue q s).gate = s.gate := rfl
@[simp] theorem setQueue_conv (q : Queue) (s : State) : (setQueue q s).conv = s.conv := rfl
@[simp] theorem setQueue_touch (q : Queue) (s : State) : (setQueue q s).touch = s.touch := rfl
@[simp] theorem setQueue_claims (q : Queue) (s : State) : (setQueue q s).claims = s.claims := rfl
@[simp] theorem setQueue_engine (q : Queue) (s : State) : (setQueue q s).engine = s.engine := rfl
@[simp] theorem setQueue_events (q : Queue) (s : State) : (setQueue q s).events = s.events := rfl
@[simp] theorem setQueue_chime (q : Queue) (s : State) : (setQueue q s).chime = s.chime := rfl
@[simp] theorem setQueue_owed (q : Queue) (s : State) : (setQueue q s).owed = s.owed := rfl
@[simp] theorem setQueue_pending (q : Queue) (s : State) : (setQueue q s).pending = s.pending := rfl
@[simp] theorem setQueue_queue (q : Queue) (s : State) : (setQueue q s).queue = q := rfl
@[simp] theorem setQueue_seg (q : Queue) (s : State) (j : SegNo) : (setQueue q s).seg j = s.seg j := rfl
@[simp] theorem setQueue_touchLine (q : Queue) (s : State) (j : LineNo) : (setQueue q s).touchLine j = s.touchLine j := rfl
@[simp] theorem setQueue_claim (q : Queue) (s : State) (j : LineNo) : (setQueue q s).claim j = s.claim j := rfl
@[simp] theorem setQueue_areaBase (q : Queue) (s : State) : areaBase (setQueue q s) = areaBase s := rfl

/-! ### setAsm -/

@[simp] theorem setAsm_mem (a : Option Assembly) (s : State) : (setAsm a s).mem = s.mem := rfl
@[simp] theorem setAsm_pins (a : Option Assembly) (s : State) : (setAsm a s).pins = s.pins := rfl
@[simp] theorem setAsm_bus (a : Option Assembly) (s : State) : (setAsm a s).bus = s.bus := rfl
@[simp] theorem setAsm_segs (a : Option Assembly) (s : State) : (setAsm a s).segs = s.segs := rfl
@[simp] theorem setAsm_queue (a : Option Assembly) (s : State) : (setAsm a s).queue = s.queue := rfl
@[simp] theorem setAsm_stroke (a : Option Assembly) (s : State) : (setAsm a s).stroke = s.stroke := rfl
@[simp] theorem setAsm_gate (a : Option Assembly) (s : State) : (setAsm a s).gate = s.gate := rfl
@[simp] theorem setAsm_conv (a : Option Assembly) (s : State) : (setAsm a s).conv = s.conv := rfl
@[simp] theorem setAsm_touch (a : Option Assembly) (s : State) : (setAsm a s).touch = s.touch := rfl
@[simp] theorem setAsm_claims (a : Option Assembly) (s : State) : (setAsm a s).claims = s.claims := rfl
@[simp] theorem setAsm_engine (a : Option Assembly) (s : State) : (setAsm a s).engine = s.engine := rfl
@[simp] theorem setAsm_events (a : Option Assembly) (s : State) : (setAsm a s).events = s.events := rfl
@[simp] theorem setAsm_chime (a : Option Assembly) (s : State) : (setAsm a s).chime = s.chime := rfl
@[simp] theorem setAsm_owed (a : Option Assembly) (s : State) : (setAsm a s).owed = s.owed := rfl
@[simp] theorem setAsm_pending (a : Option Assembly) (s : State) : (setAsm a s).pending = s.pending := rfl
@[simp] theorem setAsm_asm (a : Option Assembly) (s : State) : (setAsm a s).asm = a := rfl
@[simp] theorem setAsm_seg (a : Option Assembly) (s : State) (j : SegNo) : (setAsm a s).seg j = s.seg j := rfl
@[simp] theorem setAsm_touchLine (a : Option Assembly) (s : State) (j : LineNo) : (setAsm a s).touchLine j = s.touchLine j := rfl
@[simp] theorem setAsm_claim (a : Option Assembly) (s : State) (j : LineNo) : (setAsm a s).claim j = s.claim j := rfl
@[simp] theorem setAsm_areaBase (a : Option Assembly) (s : State) : areaBase (setAsm a s) = areaBase s := rfl

/-! ### setStroke -/

@[simp] theorem setStroke_mem (u : StrokeUnit) (s : State) : (setStroke u s).mem = s.mem := rfl
@[simp] theorem setStroke_pins (u : StrokeUnit) (s : State) : (setStroke u s).pins = s.pins := rfl
@[simp] theorem setStroke_bus (u : StrokeUnit) (s : State) : (setStroke u s).bus = s.bus := rfl
@[simp] theorem setStroke_segs (u : StrokeUnit) (s : State) : (setStroke u s).segs = s.segs := rfl
@[simp] theorem setStroke_queue (u : StrokeUnit) (s : State) : (setStroke u s).queue = s.queue := rfl
@[simp] theorem setStroke_asm (u : StrokeUnit) (s : State) : (setStroke u s).asm = s.asm := rfl
@[simp] theorem setStroke_gate (u : StrokeUnit) (s : State) : (setStroke u s).gate = s.gate := rfl
@[simp] theorem setStroke_conv (u : StrokeUnit) (s : State) : (setStroke u s).conv = s.conv := rfl
@[simp] theorem setStroke_touch (u : StrokeUnit) (s : State) : (setStroke u s).touch = s.touch := rfl
@[simp] theorem setStroke_claims (u : StrokeUnit) (s : State) : (setStroke u s).claims = s.claims := rfl
@[simp] theorem setStroke_engine (u : StrokeUnit) (s : State) : (setStroke u s).engine = s.engine := rfl
@[simp] theorem setStroke_events (u : StrokeUnit) (s : State) : (setStroke u s).events = s.events := rfl
@[simp] theorem setStroke_chime (u : StrokeUnit) (s : State) : (setStroke u s).chime = s.chime := rfl
@[simp] theorem setStroke_owed (u : StrokeUnit) (s : State) : (setStroke u s).owed = s.owed := rfl
@[simp] theorem setStroke_pending (u : StrokeUnit) (s : State) : (setStroke u s).pending = s.pending := rfl
@[simp] theorem setStroke_stroke (u : StrokeUnit) (s : State) : (setStroke u s).stroke = u := rfl
@[simp] theorem setStroke_seg (u : StrokeUnit) (s : State) (j : SegNo) : (setStroke u s).seg j = s.seg j := rfl
@[simp] theorem setStroke_touchLine (u : StrokeUnit) (s : State) (j : LineNo) : (setStroke u s).touchLine j = s.touchLine j := rfl
@[simp] theorem setStroke_claim (u : StrokeUnit) (s : State) (j : LineNo) : (setStroke u s).claim j = s.claim j := rfl
@[simp] theorem setStroke_areaBase (u : StrokeUnit) (s : State) : areaBase (setStroke u s) = areaBase s := rfl

/-! ### setGate -/

@[simp] theorem setGate_mem (g : SupplyGate) (s : State) : (setGate g s).mem = s.mem := rfl
@[simp] theorem setGate_pins (g : SupplyGate) (s : State) : (setGate g s).pins = s.pins := rfl
@[simp] theorem setGate_bus (g : SupplyGate) (s : State) : (setGate g s).bus = s.bus := rfl
@[simp] theorem setGate_segs (g : SupplyGate) (s : State) : (setGate g s).segs = s.segs := rfl
@[simp] theorem setGate_queue (g : SupplyGate) (s : State) : (setGate g s).queue = s.queue := rfl
@[simp] theorem setGate_asm (g : SupplyGate) (s : State) : (setGate g s).asm = s.asm := rfl
@[simp] theorem setGate_stroke (g : SupplyGate) (s : State) : (setGate g s).stroke = s.stroke := rfl
@[simp] theorem setGate_conv (g : SupplyGate) (s : State) : (setGate g s).conv = s.conv := rfl
@[simp] theorem setGate_touch (g : SupplyGate) (s : State) : (setGate g s).touch = s.touch := rfl
@[simp] theorem setGate_claims (g : SupplyGate) (s : State) : (setGate g s).claims = s.claims := rfl
@[simp] theorem setGate_engine (g : SupplyGate) (s : State) : (setGate g s).engine = s.engine := rfl
@[simp] theorem setGate_events (g : SupplyGate) (s : State) : (setGate g s).events = s.events := rfl
@[simp] theorem setGate_chime (g : SupplyGate) (s : State) : (setGate g s).chime = s.chime := rfl
@[simp] theorem setGate_owed (g : SupplyGate) (s : State) : (setGate g s).owed = s.owed := rfl
@[simp] theorem setGate_pending (g : SupplyGate) (s : State) : (setGate g s).pending = s.pending := rfl
@[simp] theorem setGate_gate (g : SupplyGate) (s : State) : (setGate g s).gate = g := rfl
@[simp] theorem setGate_seg (g : SupplyGate) (s : State) (j : SegNo) : (setGate g s).seg j = s.seg j := rfl
@[simp] theorem setGate_touchLine (g : SupplyGate) (s : State) (j : LineNo) : (setGate g s).touchLine j = s.touchLine j := rfl
@[simp] theorem setGate_claim (g : SupplyGate) (s : State) (j : LineNo) : (setGate g s).claim j = s.claim j := rfl
@[simp] theorem setGate_areaBase (g : SupplyGate) (s : State) : areaBase (setGate g s) = areaBase s := rfl

/-! ### setConv -/

@[simp] theorem setConv_mem (c : Converter) (s : State) : (setConv c s).mem = s.mem := rfl
@[simp] theorem setConv_pins (c : Converter) (s : State) : (setConv c s).pins = s.pins := rfl
@[simp] theorem setConv_bus (c : Converter) (s : State) : (setConv c s).bus = s.bus := rfl
@[simp] theorem setConv_segs (c : Converter) (s : State) : (setConv c s).segs = s.segs := rfl
@[simp] theorem setConv_queue (c : Converter) (s : State) : (setConv c s).queue = s.queue := rfl
@[simp] theorem setConv_asm (c : Converter) (s : State) : (setConv c s).asm = s.asm := rfl
@[simp] theorem setConv_stroke (c : Converter) (s : State) : (setConv c s).stroke = s.stroke := rfl
@[simp] theorem setConv_gate (c : Converter) (s : State) : (setConv c s).gate = s.gate := rfl
@[simp] theorem setConv_touch (c : Converter) (s : State) : (setConv c s).touch = s.touch := rfl
@[simp] theorem setConv_claims (c : Converter) (s : State) : (setConv c s).claims = s.claims := rfl
@[simp] theorem setConv_engine (c : Converter) (s : State) : (setConv c s).engine = s.engine := rfl
@[simp] theorem setConv_events (c : Converter) (s : State) : (setConv c s).events = s.events := rfl
@[simp] theorem setConv_chime (c : Converter) (s : State) : (setConv c s).chime = s.chime := rfl
@[simp] theorem setConv_owed (c : Converter) (s : State) : (setConv c s).owed = s.owed := rfl
@[simp] theorem setConv_pending (c : Converter) (s : State) : (setConv c s).pending = s.pending := rfl
@[simp] theorem setConv_conv (c : Converter) (s : State) : (setConv c s).conv = c := rfl
@[simp] theorem setConv_seg (c : Converter) (s : State) (j : SegNo) : (setConv c s).seg j = s.seg j := rfl
@[simp] theorem setConv_touchLine (c : Converter) (s : State) (j : LineNo) : (setConv c s).touchLine j = s.touchLine j := rfl
@[simp] theorem setConv_claim (c : Converter) (s : State) (j : LineNo) : (setConv c s).claim j = s.claim j := rfl
@[simp] theorem setConv_areaBase (c : Converter) (s : State) : areaBase (setConv c s) = areaBase s := rfl

/-! ### setChime -/

@[simp] theorem setChime_mem (c : Chime) (s : State) : (setChime c s).mem = s.mem := rfl
@[simp] theorem setChime_pins (c : Chime) (s : State) : (setChime c s).pins = s.pins := rfl
@[simp] theorem setChime_bus (c : Chime) (s : State) : (setChime c s).bus = s.bus := rfl
@[simp] theorem setChime_segs (c : Chime) (s : State) : (setChime c s).segs = s.segs := rfl
@[simp] theorem setChime_queue (c : Chime) (s : State) : (setChime c s).queue = s.queue := rfl
@[simp] theorem setChime_asm (c : Chime) (s : State) : (setChime c s).asm = s.asm := rfl
@[simp] theorem setChime_stroke (c : Chime) (s : State) : (setChime c s).stroke = s.stroke := rfl
@[simp] theorem setChime_gate (c : Chime) (s : State) : (setChime c s).gate = s.gate := rfl
@[simp] theorem setChime_conv (c : Chime) (s : State) : (setChime c s).conv = s.conv := rfl
@[simp] theorem setChime_touch (c : Chime) (s : State) : (setChime c s).touch = s.touch := rfl
@[simp] theorem setChime_claims (c : Chime) (s : State) : (setChime c s).claims = s.claims := rfl
@[simp] theorem setChime_engine (c : Chime) (s : State) : (setChime c s).engine = s.engine := rfl
@[simp] theorem setChime_events (c : Chime) (s : State) : (setChime c s).events = s.events := rfl
@[simp] theorem setChime_owed (c : Chime) (s : State) : (setChime c s).owed = s.owed := rfl
@[simp] theorem setChime_pending (c : Chime) (s : State) : (setChime c s).pending = s.pending := rfl
@[simp] theorem setChime_chime (c : Chime) (s : State) : (setChime c s).chime = c := rfl
@[simp] theorem setChime_seg (c : Chime) (s : State) (j : SegNo) : (setChime c s).seg j = s.seg j := rfl
@[simp] theorem setChime_touchLine (c : Chime) (s : State) (j : LineNo) : (setChime c s).touchLine j = s.touchLine j := rfl
@[simp] theorem setChime_claim (c : Chime) (s : State) (j : LineNo) : (setChime c s).claim j = s.claim j := rfl
@[simp] theorem setChime_areaBase (c : Chime) (s : State) : areaBase (setChime c s) = areaBase s := rfl

/-! ### setTouchLine -/

@[simp] theorem setTouchLine_mem (l : LineNo) (t : TouchLine) (s : State) : (setTouchLine l t s).mem = s.mem := rfl
@[simp] theorem setTouchLine_pins (l : LineNo) (t : TouchLine) (s : State) : (setTouchLine l t s).pins = s.pins := rfl
@[simp] theorem setTouchLine_bus (l : LineNo) (t : TouchLine) (s : State) : (setTouchLine l t s).bus = s.bus := rfl
@[simp] theorem setTouchLine_segs (l : LineNo) (t : TouchLine) (s : State) : (setTouchLine l t s).segs = s.segs := rfl
@[simp] theorem setTouchLine_queue (l : LineNo) (t : TouchLine) (s : State) : (setTouchLine l t s).queue = s.queue := rfl
@[simp] theorem setTouchLine_asm (l : LineNo) (t : TouchLine) (s : State) : (setTouchLine l t s).asm = s.asm := rfl
@[simp] theorem setTouchLine_stroke (l : LineNo) (t : TouchLine) (s : State) : (setTouchLine l t s).stroke = s.stroke := rfl
@[simp] theorem setTouchLine_gate (l : LineNo) (t : TouchLine) (s : State) : (setTouchLine l t s).gate = s.gate := rfl
@[simp] theorem setTouchLine_conv (l : LineNo) (t : TouchLine) (s : State) : (setTouchLine l t s).conv = s.conv := rfl
@[simp] theorem setTouchLine_claims (l : LineNo) (t : TouchLine) (s : State) : (setTouchLine l t s).claims = s.claims := rfl
@[simp] theorem setTouchLine_engine (l : LineNo) (t : TouchLine) (s : State) : (setTouchLine l t s).engine = s.engine := rfl
@[simp] theorem setTouchLine_events (l : LineNo) (t : TouchLine) (s : State) : (setTouchLine l t s).events = s.events := rfl
@[simp] theorem setTouchLine_chime (l : LineNo) (t : TouchLine) (s : State) : (setTouchLine l t s).chime = s.chime := rfl
@[simp] theorem setTouchLine_owed (l : LineNo) (t : TouchLine) (s : State) : (setTouchLine l t s).owed = s.owed := rfl
@[simp] theorem setTouchLine_pending (l : LineNo) (t : TouchLine) (s : State) : (setTouchLine l t s).pending = s.pending := rfl
@[simp] theorem setTouchLine_touch_running (l : LineNo) (t : TouchLine) (s : State) : (setTouchLine l t s).touch.running = s.touch.running := rfl
@[simp] theorem setTouchLine_touch_lines (l : LineNo) (t : TouchLine) (s : State) : (setTouchLine l t s).touch.lines = s.touch.lines.set l t := rfl
@[simp] theorem setTouchLine_seg (l : LineNo) (t : TouchLine) (s : State) (j : SegNo) : (setTouchLine l t s).seg j = s.seg j := rfl
@[simp] theorem setTouchLine_claim (l : LineNo) (t : TouchLine) (s : State) (j : LineNo) : (setTouchLine l t s).claim j = s.claim j := rfl
@[simp] theorem setTouchLine_areaBase (l : LineNo) (t : TouchLine) (s : State) : areaBase (setTouchLine l t s) = areaBase s := rfl

/-! ### setTouchPin -/

@[simp] theorem setTouchPin_mem (l : LineNo) (h : Bool) (s : State) : (setTouchPin l h s).mem = s.mem := rfl
@[simp] theorem setTouchPin_bus (l : LineNo) (h : Bool) (s : State) : (setTouchPin l h s).bus = s.bus := rfl
@[simp] theorem setTouchPin_segs (l : LineNo) (h : Bool) (s : State) : (setTouchPin l h s).segs = s.segs := rfl
@[simp] theorem setTouchPin_queue (l : LineNo) (h : Bool) (s : State) : (setTouchPin l h s).queue = s.queue := rfl
@[simp] theorem setTouchPin_asm (l : LineNo) (h : Bool) (s : State) : (setTouchPin l h s).asm = s.asm := rfl
@[simp] theorem setTouchPin_stroke (l : LineNo) (h : Bool) (s : State) : (setTouchPin l h s).stroke = s.stroke := rfl
@[simp] theorem setTouchPin_gate (l : LineNo) (h : Bool) (s : State) : (setTouchPin l h s).gate = s.gate := rfl
@[simp] theorem setTouchPin_conv (l : LineNo) (h : Bool) (s : State) : (setTouchPin l h s).conv = s.conv := rfl
@[simp] theorem setTouchPin_touch (l : LineNo) (h : Bool) (s : State) : (setTouchPin l h s).touch = s.touch := rfl
@[simp] theorem setTouchPin_claims (l : LineNo) (h : Bool) (s : State) : (setTouchPin l h s).claims = s.claims := rfl
@[simp] theorem setTouchPin_engine (l : LineNo) (h : Bool) (s : State) : (setTouchPin l h s).engine = s.engine := rfl
@[simp] theorem setTouchPin_events (l : LineNo) (h : Bool) (s : State) : (setTouchPin l h s).events = s.events := rfl
@[simp] theorem setTouchPin_chime (l : LineNo) (h : Bool) (s : State) : (setTouchPin l h s).chime = s.chime := rfl
@[simp] theorem setTouchPin_owed (l : LineNo) (h : Bool) (s : State) : (setTouchPin l h s).owed = s.owed := rfl
@[simp] theorem setTouchPin_pending (l : LineNo) (h : Bool) (s : State) : (setTouchPin l h s).pending = s.pending := rfl
@[simp] theorem setTouchPin_pins_supplyOk (l : LineNo) (h : Bool) (s : State) : (setTouchPin l h s).pins.supplyOk = s.pins.supplyOk := rfl
@[simp] theorem setTouchPin_pins_touch (l : LineNo) (h : Bool) (s : State) : (setTouchPin l h s).pins.touch = s.pins.touch.set l h := rfl
@[simp] theorem setTouchPin_seg (l : LineNo) (h : Bool) (s : State) (j : SegNo) : (setTouchPin l h s).seg j = s.seg j := rfl
@[simp] theorem setTouchPin_touchLine (l : LineNo) (h : Bool) (s : State) (j : LineNo) : (setTouchPin l h s).touchLine j = s.touchLine j := rfl
@[simp] theorem setTouchPin_claim (l : LineNo) (h : Bool) (s : State) (j : LineNo) : (setTouchPin l h s).claim j = s.claim j := rfl
@[simp] theorem setTouchPin_areaBase (l : LineNo) (h : Bool) (s : State) : areaBase (setTouchPin l h s) = areaBase s := rfl

/-! ### setSupply -/

@[simp] theorem setSupply_mem (h : Bool) (s : State) : (setSupply h s).mem = s.mem := rfl
@[simp] theorem setSupply_bus (h : Bool) (s : State) : (setSupply h s).bus = s.bus := rfl
@[simp] theorem setSupply_segs (h : Bool) (s : State) : (setSupply h s).segs = s.segs := rfl
@[simp] theorem setSupply_queue (h : Bool) (s : State) : (setSupply h s).queue = s.queue := rfl
@[simp] theorem setSupply_asm (h : Bool) (s : State) : (setSupply h s).asm = s.asm := rfl
@[simp] theorem setSupply_stroke (h : Bool) (s : State) : (setSupply h s).stroke = s.stroke := rfl
@[simp] theorem setSupply_gate (h : Bool) (s : State) : (setSupply h s).gate = s.gate := rfl
@[simp] theorem setSupply_conv (h : Bool) (s : State) : (setSupply h s).conv = s.conv := rfl
@[simp] theorem setSupply_touch (h : Bool) (s : State) : (setSupply h s).touch = s.touch := rfl
@[simp] theorem setSupply_claims (h : Bool) (s : State) : (setSupply h s).claims = s.claims := rfl
@[simp] theorem setSupply_engine (h : Bool) (s : State) : (setSupply h s).engine = s.engine := rfl
@[simp] theorem setSupply_events (h : Bool) (s : State) : (setSupply h s).events = s.events := rfl
@[simp] theorem setSupply_chime (h : Bool) (s : State) : (setSupply h s).chime = s.chime := rfl
@[simp] theorem setSupply_owed (h : Bool) (s : State) : (setSupply h s).owed = s.owed := rfl
@[simp] theorem setSupply_pending (h : Bool) (s : State) : (setSupply h s).pending = s.pending := rfl
@[simp] theorem setSupply_pins_supplyOk (h : Bool) (s : State) : (setSupply h s).pins.supplyOk = h := rfl
@[simp] theorem setSupply_pins_touch (h : Bool) (s : State) : (setSupply h s).pins.touch = s.pins.touch := rfl
@[simp] theorem setSupply_seg (h : Bool) (s : State) (j : SegNo) : (setSupply h s).seg j = s.seg j := rfl
@[simp] theorem setSupply_touchLine (h : Bool) (s : State) (j : LineNo) : (setSupply h s).touchLine j = s.touchLine j := rfl
@[simp] theorem setSupply_claim (h : Bool) (s : State) (j : LineNo) : (setSupply h s).claim j = s.claim j := rfl
@[simp] theorem setSupply_areaBase (h : Bool) (s : State) : areaBase (setSupply h s) = areaBase s := rfl

/-! ### setClaim -/

@[simp] theorem setClaim_mem (l : LineNo) (c : Claim) (s : State) : (setClaim l c s).mem = s.mem := rfl
@[simp] theorem setClaim_pins (l : LineNo) (c : Claim) (s : State) : (setClaim l c s).pins = s.pins := rfl
@[simp] theorem setClaim_bus (l : LineNo) (c : Claim) (s : State) : (setClaim l c s).bus = s.bus := rfl
@[simp] theorem setClaim_segs (l : LineNo) (c : Claim) (s : State) : (setClaim l c s).segs = s.segs := rfl
@[simp] theorem setClaim_queue (l : LineNo) (c : Claim) (s : State) : (setClaim l c s).queue = s.queue := rfl
@[simp] theorem setClaim_asm (l : LineNo) (c : Claim) (s : State) : (setClaim l c s).asm = s.asm := rfl
@[simp] theorem setClaim_stroke (l : LineNo) (c : Claim) (s : State) : (setClaim l c s).stroke = s.stroke := rfl
@[simp] theorem setClaim_gate (l : LineNo) (c : Claim) (s : State) : (setClaim l c s).gate = s.gate := rfl
@[simp] theorem setClaim_conv (l : LineNo) (c : Claim) (s : State) : (setClaim l c s).conv = s.conv := rfl
@[simp] theorem setClaim_touch (l : LineNo) (c : Claim) (s : State) : (setClaim l c s).touch = s.touch := rfl
@[simp] theorem setClaim_engine (l : LineNo) (c : Claim) (s : State) : (setClaim l c s).engine = s.engine := rfl
@[simp] theorem setClaim_events (l : LineNo) (c : Claim) (s : State) : (setClaim l c s).events = s.events := rfl
@[simp] theorem setClaim_chime (l : LineNo) (c : Claim) (s : State) : (setClaim l c s).chime = s.chime := rfl
@[simp] theorem setClaim_owed (l : LineNo) (c : Claim) (s : State) : (setClaim l c s).owed = s.owed := rfl
@[simp] theorem setClaim_pending (l : LineNo) (c : Claim) (s : State) : (setClaim l c s).pending = s.pending := rfl
@[simp] theorem setClaim_claims_serving (l : LineNo) (c : Claim) (s : State) : (setClaim l c s).claims.serving = s.claims.serving := rfl
@[simp] theorem setClaim_claims_lines (l : LineNo) (c : Claim) (s : State) : (setClaim l c s).claims.lines = s.claims.lines.set l c := rfl
@[simp] theorem setClaim_seg (l : LineNo) (c : Claim) (s : State) (j : SegNo) : (setClaim l c s).seg j = s.seg j := rfl
@[simp] theorem setClaim_touchLine (l : LineNo) (c : Claim) (s : State) (j : LineNo) : (setClaim l c s).touchLine j = s.touchLine j := rfl
@[simp] theorem setClaim_areaBase (l : LineNo) (c : Claim) (s : State) : areaBase (setClaim l c s) = areaBase s := rfl

/-! ### setEngineState -/

@[simp] theorem setEngineState_mem (e : EngineState) (s : State) : (setEngineState e s).mem = s.mem := rfl
@[simp] theorem setEngineState_pins (e : EngineState) (s : State) : (setEngineState e s).pins = s.pins := rfl
@[simp] theorem setEngineState_bus (e : EngineState) (s : State) : (setEngineState e s).bus = s.bus := rfl
@[simp] theorem setEngineState_segs (e : EngineState) (s : State) : (setEngineState e s).segs = s.segs := rfl
@[simp] theorem setEngineState_queue (e : EngineState) (s : State) : (setEngineState e s).queue = s.queue := rfl
@[simp] theorem setEngineState_asm (e : EngineState) (s : State) : (setEngineState e s).asm = s.asm := rfl
@[simp] theorem setEngineState_stroke (e : EngineState) (s : State) : (setEngineState e s).stroke = s.stroke := rfl
@[simp] theorem setEngineState_gate (e : EngineState) (s : State) : (setEngineState e s).gate = s.gate := rfl
@[simp] theorem setEngineState_conv (e : EngineState) (s : State) : (setEngineState e s).conv = s.conv := rfl
@[simp] theorem setEngineState_touch (e : EngineState) (s : State) : (setEngineState e s).touch = s.touch := rfl
@[simp] theorem setEngineState_claims (e : EngineState) (s : State) : (setEngineState e s).claims = s.claims := rfl
@[simp] theorem setEngineState_events (e : EngineState) (s : State) : (setEngineState e s).events = s.events := rfl
@[simp] theorem setEngineState_chime (e : EngineState) (s : State) : (setEngineState e s).chime = s.chime := rfl
@[simp] theorem setEngineState_owed (e : EngineState) (s : State) : (setEngineState e s).owed = s.owed := rfl
@[simp] theorem setEngineState_pending (e : EngineState) (s : State) : (setEngineState e s).pending = s.pending := rfl
@[simp] theorem setEngineState_engine (e : EngineState) (s : State) : (setEngineState e s).engine = { s.engine with state := e } := rfl
@[simp] theorem setEngineState_seg (e : EngineState) (s : State) (j : SegNo) : (setEngineState e s).seg j = s.seg j := rfl
@[simp] theorem setEngineState_touchLine (e : EngineState) (s : State) (j : LineNo) : (setEngineState e s).touchLine j = s.touchLine j := rfl
@[simp] theorem setEngineState_claim (e : EngineState) (s : State) (j : LineNo) : (setEngineState e s).claim j = s.claim j := rfl
@[simp] theorem setEngineState_areaBase (e : EngineState) (s : State) : areaBase (setEngineState e s) = areaBase s := rfl

/-! ### clearLag -/

@[simp] theorem clearLag_mem (s : State) : (clearLag s).mem = s.mem := rfl
@[simp] theorem clearLag_pins (s : State) : (clearLag s).pins = s.pins := rfl
@[simp] theorem clearLag_bus (s : State) : (clearLag s).bus = s.bus := rfl
@[simp] theorem clearLag_segs (s : State) : (clearLag s).segs = s.segs := rfl
@[simp] theorem clearLag_queue (s : State) : (clearLag s).queue = s.queue := rfl
@[simp] theorem clearLag_asm (s : State) : (clearLag s).asm = s.asm := rfl
@[simp] theorem clearLag_stroke (s : State) : (clearLag s).stroke = s.stroke := rfl
@[simp] theorem clearLag_gate (s : State) : (clearLag s).gate = s.gate := rfl
@[simp] theorem clearLag_conv (s : State) : (clearLag s).conv = s.conv := rfl
@[simp] theorem clearLag_touch (s : State) : (clearLag s).touch = s.touch := rfl
@[simp] theorem clearLag_claims (s : State) : (clearLag s).claims = s.claims := rfl
@[simp] theorem clearLag_events (s : State) : (clearLag s).events = s.events := rfl
@[simp] theorem clearLag_chime (s : State) : (clearLag s).chime = s.chime := rfl
@[simp] theorem clearLag_owed (s : State) : (clearLag s).owed = s.owed := rfl
@[simp] theorem clearLag_pending (s : State) : (clearLag s).pending = s.pending := rfl
@[simp] theorem clearLag_engine (s : State) : (clearLag s).engine = { s.engine with lag := none, lagWarned := false } := rfl
@[simp] theorem clearLag_seg (s : State) (j : SegNo) : (clearLag s).seg j = s.seg j := rfl
@[simp] theorem clearLag_touchLine (s : State) (j : LineNo) : (clearLag s).touchLine j = s.touchLine j := rfl
@[simp] theorem clearLag_claim (s : State) (j : LineNo) : (clearLag s).claim j = s.claim j := rfl
@[simp] theorem clearLag_areaBase (s : State) : areaBase (clearLag s) = areaBase s := rfl

/-! ### startLag -/

@[simp] theorem startLag_mem (s : State) : (startLag s).mem = s.mem := rfl
@[simp] theorem startLag_pins (s : State) : (startLag s).pins = s.pins := rfl
@[simp] theorem startLag_bus (s : State) : (startLag s).bus = s.bus := rfl
@[simp] theorem startLag_segs (s : State) : (startLag s).segs = s.segs := rfl
@[simp] theorem startLag_queue (s : State) : (startLag s).queue = s.queue := rfl
@[simp] theorem startLag_asm (s : State) : (startLag s).asm = s.asm := rfl
@[simp] theorem startLag_stroke (s : State) : (startLag s).stroke = s.stroke := rfl
@[simp] theorem startLag_gate (s : State) : (startLag s).gate = s.gate := rfl
@[simp] theorem startLag_conv (s : State) : (startLag s).conv = s.conv := rfl
@[simp] theorem startLag_touch (s : State) : (startLag s).touch = s.touch := rfl
@[simp] theorem startLag_claims (s : State) : (startLag s).claims = s.claims := rfl
@[simp] theorem startLag_events (s : State) : (startLag s).events = s.events := rfl
@[simp] theorem startLag_chime (s : State) : (startLag s).chime = s.chime := rfl
@[simp] theorem startLag_owed (s : State) : (startLag s).owed = s.owed := rfl
@[simp] theorem startLag_pending (s : State) : (startLag s).pending = s.pending := rfl
@[simp] theorem startLag_engine (s : State) : (startLag s).engine = { s.engine with lag := some 0, lagWarned := false } := rfl
@[simp] theorem startLag_seg (s : State) (j : SegNo) : (startLag s).seg j = s.seg j := rfl
@[simp] theorem startLag_touchLine (s : State) (j : LineNo) : (startLag s).touchLine j = s.touchLine j := rfl
@[simp] theorem startLag_claim (s : State) (j : LineNo) : (startLag s).claim j = s.claim j := rfl
@[simp] theorem startLag_areaBase (s : State) : areaBase (startLag s) = areaBase s := rfl

/-! ### post -/

@[simp] theorem post_mem (o : Nat) (v : Word) (s : State) : (post o v s).mem = s.mem := rfl
@[simp] theorem post_pins (o : Nat) (v : Word) (s : State) : (post o v s).pins = s.pins := rfl
@[simp] theorem post_segs (o : Nat) (v : Word) (s : State) : (post o v s).segs = s.segs := rfl
@[simp] theorem post_queue (o : Nat) (v : Word) (s : State) : (post o v s).queue = s.queue := rfl
@[simp] theorem post_asm (o : Nat) (v : Word) (s : State) : (post o v s).asm = s.asm := rfl
@[simp] theorem post_stroke (o : Nat) (v : Word) (s : State) : (post o v s).stroke = s.stroke := rfl
@[simp] theorem post_gate (o : Nat) (v : Word) (s : State) : (post o v s).gate = s.gate := rfl
@[simp] theorem post_conv (o : Nat) (v : Word) (s : State) : (post o v s).conv = s.conv := rfl
@[simp] theorem post_touch (o : Nat) (v : Word) (s : State) : (post o v s).touch = s.touch := rfl
@[simp] theorem post_claims (o : Nat) (v : Word) (s : State) : (post o v s).claims = s.claims := rfl
@[simp] theorem post_engine (o : Nat) (v : Word) (s : State) : (post o v s).engine = s.engine := rfl
@[simp] theorem post_events (o : Nat) (v : Word) (s : State) : (post o v s).events = s.events := rfl
@[simp] theorem post_chime (o : Nat) (v : Word) (s : State) : (post o v s).chime = s.chime := rfl
@[simp] theorem post_owed (o : Nat) (v : Word) (s : State) : (post o v s).owed = s.owed := rfl
@[simp] theorem post_pending (o : Nat) (v : Word) (s : State) : (post o v s).pending = s.pending := rfl
@[simp] theorem post_bus (o : Nat) (v : Word) (s : State) : (post o v s).bus = { s.bus with posts := postTo s.bus.posts ⟨o, v⟩ } := rfl
@[simp] theorem post_seg (o : Nat) (v : Word) (s : State) (j : SegNo) : (post o v s).seg j = s.seg j := rfl
@[simp] theorem post_touchLine (o : Nat) (v : Word) (s : State) (j : LineNo) : (post o v s).touchLine j = s.touchLine j := rfl
@[simp] theorem post_claim (o : Nat) (v : Word) (s : State) (j : LineNo) : (post o v s).claim j = s.claim j := rfl
@[simp] theorem post_areaBase (o : Nat) (v : Word) (s : State) : areaBase (post o v s) = areaBase s := rfl

/-! ### raise -/

@[simp] theorem raise_mem (e : Event) (s : State) : (raise e s).mem = s.mem := rfl
@[simp] theorem raise_pins (e : Event) (s : State) : (raise e s).pins = s.pins := rfl
@[simp] theorem raise_bus (e : Event) (s : State) : (raise e s).bus = s.bus := rfl
@[simp] theorem raise_segs (e : Event) (s : State) : (raise e s).segs = s.segs := rfl
@[simp] theorem raise_queue (e : Event) (s : State) : (raise e s).queue = s.queue := rfl
@[simp] theorem raise_asm (e : Event) (s : State) : (raise e s).asm = s.asm := rfl
@[simp] theorem raise_stroke (e : Event) (s : State) : (raise e s).stroke = s.stroke := rfl
@[simp] theorem raise_gate (e : Event) (s : State) : (raise e s).gate = s.gate := rfl
@[simp] theorem raise_conv (e : Event) (s : State) : (raise e s).conv = s.conv := rfl
@[simp] theorem raise_touch (e : Event) (s : State) : (raise e s).touch = s.touch := rfl
@[simp] theorem raise_claims (e : Event) (s : State) : (raise e s).claims = s.claims := rfl
@[simp] theorem raise_engine (e : Event) (s : State) : (raise e s).engine = s.engine := rfl
@[simp] theorem raise_chime (e : Event) (s : State) : (raise e s).chime = s.chime := rfl
@[simp] theorem raise_pending (e : Event) (s : State) : (raise e s).pending = s.pending := rfl
@[simp] theorem raise_events (e : Event) (s : State) : (raise e s).events = { s.events with pending := s.events.pending ||| e.mask } := rfl
@[simp] theorem raise_owed (e : Event) (s : State) : (raise e s).owed = { s.owed with pending := true } := rfl
@[simp] theorem raise_seg (e : Event) (s : State) (j : SegNo) : (raise e s).seg j = s.seg j := rfl
@[simp] theorem raise_touchLine (e : Event) (s : State) (j : LineNo) : (raise e s).touchLine j = s.touchLine j := rfl
@[simp] theorem raise_claim (e : Event) (s : State) (j : LineNo) : (raise e s).claim j = s.claim j := rfl
@[simp] theorem raise_areaBase (e : Event) (s : State) : areaBase (raise e s) = areaBase s := rfl

/-! ### oweMirror -/

@[simp] theorem oweMirror_mem (i : SegNo) (s : State) : (oweMirror i s).mem = s.mem := rfl
@[simp] theorem oweMirror_pins (i : SegNo) (s : State) : (oweMirror i s).pins = s.pins := rfl
@[simp] theorem oweMirror_bus (i : SegNo) (s : State) : (oweMirror i s).bus = s.bus := rfl
@[simp] theorem oweMirror_segs (i : SegNo) (s : State) : (oweMirror i s).segs = s.segs := rfl
@[simp] theorem oweMirror_queue (i : SegNo) (s : State) : (oweMirror i s).queue = s.queue := rfl
@[simp] theorem oweMirror_asm (i : SegNo) (s : State) : (oweMirror i s).asm = s.asm := rfl
@[simp] theorem oweMirror_stroke (i : SegNo) (s : State) : (oweMirror i s).stroke = s.stroke := rfl
@[simp] theorem oweMirror_gate (i : SegNo) (s : State) : (oweMirror i s).gate = s.gate := rfl
@[simp] theorem oweMirror_touch (i : SegNo) (s : State) : (oweMirror i s).touch = s.touch := rfl
@[simp] theorem oweMirror_claims (i : SegNo) (s : State) : (oweMirror i s).claims = s.claims := rfl
@[simp] theorem oweMirror_engine (i : SegNo) (s : State) : (oweMirror i s).engine = s.engine := rfl
@[simp] theorem oweMirror_events (i : SegNo) (s : State) : (oweMirror i s).events = s.events := rfl
@[simp] theorem oweMirror_chime (i : SegNo) (s : State) : (oweMirror i s).chime = s.chime := rfl
@[simp] theorem oweMirror_pending (i : SegNo) (s : State) : (oweMirror i s).pending = s.pending := rfl
@[simp] theorem oweMirror_conv (i : SegNo) (s : State) : (oweMirror i s).conv = s.conv := rfl
@[simp] theorem oweMirror_owed (i : SegNo) (s : State) : (oweMirror i s).owed = { s.owed with mirrors := i :: s.owed.mirrors } := rfl
@[simp] theorem oweMirror_seg (i : SegNo) (s : State) (j : SegNo) : (oweMirror i s).seg j = s.seg j := rfl
@[simp] theorem oweMirror_touchLine (i : SegNo) (s : State) (j : LineNo) : (oweMirror i s).touchLine j = s.touchLine j := rfl
@[simp] theorem oweMirror_claim (i : SegNo) (s : State) (j : LineNo) : (oweMirror i s).claim j = s.claim j := rfl
@[simp] theorem oweMirror_areaBase (i : SegNo) (s : State) : areaBase (oweMirror i s) = areaBase s := rfl

/-! ### giveResult -/

@[simp] theorem giveResult_mem (c : Byte) (r : ResultCode) (s : State) : (giveResult c r s).mem = s.mem := rfl
@[simp] theorem giveResult_pins (c : Byte) (r : ResultCode) (s : State) : (giveResult c r s).pins = s.pins := rfl
@[simp] theorem giveResult_bus (c : Byte) (r : ResultCode) (s : State) : (giveResult c r s).bus = s.bus := rfl
@[simp] theorem giveResult_segs (c : Byte) (r : ResultCode) (s : State) : (giveResult c r s).segs = s.segs := rfl
@[simp] theorem giveResult_queue (c : Byte) (r : ResultCode) (s : State) : (giveResult c r s).queue = s.queue := rfl
@[simp] theorem giveResult_asm (c : Byte) (r : ResultCode) (s : State) : (giveResult c r s).asm = s.asm := rfl
@[simp] theorem giveResult_stroke (c : Byte) (r : ResultCode) (s : State) : (giveResult c r s).stroke = s.stroke := rfl
@[simp] theorem giveResult_gate (c : Byte) (r : ResultCode) (s : State) : (giveResult c r s).gate = s.gate := rfl
@[simp] theorem giveResult_conv (c : Byte) (r : ResultCode) (s : State) : (giveResult c r s).conv = s.conv := rfl
@[simp] theorem giveResult_touch (c : Byte) (r : ResultCode) (s : State) : (giveResult c r s).touch = s.touch := rfl
@[simp] theorem giveResult_claims (c : Byte) (r : ResultCode) (s : State) : (giveResult c r s).claims = s.claims := rfl
@[simp] theorem giveResult_engine (c : Byte) (r : ResultCode) (s : State) : (giveResult c r s).engine = s.engine := rfl
@[simp] theorem giveResult_chime (c : Byte) (r : ResultCode) (s : State) : (giveResult c r s).chime = s.chime := rfl
@[simp] theorem giveResult_pending (c : Byte) (r : ResultCode) (s : State) : (giveResult c r s).pending = s.pending := rfl
@[simp] theorem giveResult_events (c : Byte) (r : ResultCode) (s : State) : (giveResult c r s).events = { s.events with pending := s.events.pending ||| Event.cmdDone.mask } := rfl
@[simp] theorem giveResult_owed (c : Byte) (r : ResultCode) (s : State) : (giveResult c r s).owed = ⟨s.owed.mirrors, s.owed.results ++ [resultWord c r], true⟩ := rfl
@[simp] theorem giveResult_seg (c : Byte) (r : ResultCode) (s : State) (j : SegNo) : (giveResult c r s).seg j = s.seg j := rfl
@[simp] theorem giveResult_touchLine (c : Byte) (r : ResultCode) (s : State) (j : LineNo) : (giveResult c r s).touchLine j = s.touchLine j := rfl
@[simp] theorem giveResult_claim (c : Byte) (r : ResultCode) (s : State) (j : LineNo) : (giveResult c r s).claim j = s.claim j := rfl
@[simp] theorem giveResult_areaBase (c : Byte) (r : ResultCode) (s : State) : areaBase (giveResult c r s) = areaBase s := rfl

/-! ### servedHost -/

@[simp] theorem servedHost_mem (s : State) : (servedHost s).mem = s.mem := rfl
@[simp] theorem servedHost_pins (s : State) : (servedHost s).pins = s.pins := rfl
@[simp] theorem servedHost_segs (s : State) : (servedHost s).segs = s.segs := rfl
@[simp] theorem servedHost_queue (s : State) : (servedHost s).queue = s.queue := rfl
@[simp] theorem servedHost_asm (s : State) : (servedHost s).asm = s.asm := rfl
@[simp] theorem servedHost_stroke (s : State) : (servedHost s).stroke = s.stroke := rfl
@[simp] theorem servedHost_gate (s : State) : (servedHost s).gate = s.gate := rfl
@[simp] theorem servedHost_conv (s : State) : (servedHost s).conv = s.conv := rfl
@[simp] theorem servedHost_touch (s : State) : (servedHost s).touch = s.touch := rfl
@[simp] theorem servedHost_claims (s : State) : (servedHost s).claims = s.claims := rfl
@[simp] theorem servedHost_engine (s : State) : (servedHost s).engine = s.engine := rfl
@[simp] theorem servedHost_events (s : State) : (servedHost s).events = s.events := rfl
@[simp] theorem servedHost_chime (s : State) : (servedHost s).chime = s.chime := rfl
@[simp] theorem servedHost_owed (s : State) : (servedHost s).owed = s.owed := rfl
@[simp] theorem servedHost_pending (s : State) : (servedHost s).pending = s.pending := rfl
@[simp] theorem servedHost_bus (s : State) : (servedHost s).bus = { s.bus with arbiter := s.bus.arbiter.servedHost } := rfl
@[simp] theorem servedHost_seg (s : State) (j : SegNo) : (servedHost s).seg j = s.seg j := rfl
@[simp] theorem servedHost_touchLine (s : State) (j : LineNo) : (servedHost s).touchLine j = s.touchLine j := rfl
@[simp] theorem servedHost_claim (s : State) (j : LineNo) : (servedHost s).claim j = s.claim j := rfl
@[simp] theorem servedHost_areaBase (s : State) : areaBase (servedHost s) = areaBase s := rfl

/-! ### servedPart -/

@[simp] theorem servedPart_mem (t : PartTurn) (s : State) : (servedPart t s).mem = s.mem := rfl
@[simp] theorem servedPart_pins (t : PartTurn) (s : State) : (servedPart t s).pins = s.pins := rfl
@[simp] theorem servedPart_segs (t : PartTurn) (s : State) : (servedPart t s).segs = s.segs := rfl
@[simp] theorem servedPart_queue (t : PartTurn) (s : State) : (servedPart t s).queue = s.queue := rfl
@[simp] theorem servedPart_asm (t : PartTurn) (s : State) : (servedPart t s).asm = s.asm := rfl
@[simp] theorem servedPart_stroke (t : PartTurn) (s : State) : (servedPart t s).stroke = s.stroke := rfl
@[simp] theorem servedPart_gate (t : PartTurn) (s : State) : (servedPart t s).gate = s.gate := rfl
@[simp] theorem servedPart_conv (t : PartTurn) (s : State) : (servedPart t s).conv = s.conv := rfl
@[simp] theorem servedPart_touch (t : PartTurn) (s : State) : (servedPart t s).touch = s.touch := rfl
@[simp] theorem servedPart_claims (t : PartTurn) (s : State) : (servedPart t s).claims = s.claims := rfl
@[simp] theorem servedPart_engine (t : PartTurn) (s : State) : (servedPart t s).engine = s.engine := rfl
@[simp] theorem servedPart_events (t : PartTurn) (s : State) : (servedPart t s).events = s.events := rfl
@[simp] theorem servedPart_chime (t : PartTurn) (s : State) : (servedPart t s).chime = s.chime := rfl
@[simp] theorem servedPart_owed (t : PartTurn) (s : State) : (servedPart t s).owed = s.owed := rfl
@[simp] theorem servedPart_pending (t : PartTurn) (s : State) : (servedPart t s).pending = s.pending := rfl
@[simp] theorem servedPart_bus (t : PartTurn) (s : State) : (servedPart t s).bus = { s.bus with arbiter := s.bus.arbiter.servedPart t } := rfl
@[simp] theorem servedPart_seg (t : PartTurn) (s : State) (j : SegNo) : (servedPart t s).seg j = s.seg j := rfl
@[simp] theorem servedPart_touchLine (t : PartTurn) (s : State) (j : LineNo) : (servedPart t s).touchLine j = s.touchLine j := rfl
@[simp] theorem servedPart_claim (t : PartTurn) (s : State) (j : LineNo) : (servedPart t s).claim j = s.claim j := rfl
@[simp] theorem servedPart_areaBase (t : PartTurn) (s : State) : areaBase (servedPart t s) = areaBase s := rfl

/-! ### readAt -/

@[simp] theorem readAt_mem (o : Nat) (a b : Bool) (s : State) : (readAt o a b s).mem = s.mem := rfl
@[simp] theorem readAt_pins (o : Nat) (a b : Bool) (s : State) : (readAt o a b s).pins = s.pins := rfl
@[simp] theorem readAt_segs (o : Nat) (a b : Bool) (s : State) : (readAt o a b s).segs = s.segs := rfl
@[simp] theorem readAt_queue (o : Nat) (a b : Bool) (s : State) : (readAt o a b s).queue = s.queue := rfl
@[simp] theorem readAt_asm (o : Nat) (a b : Bool) (s : State) : (readAt o a b s).asm = s.asm := rfl
@[simp] theorem readAt_stroke (o : Nat) (a b : Bool) (s : State) : (readAt o a b s).stroke = s.stroke := rfl
@[simp] theorem readAt_gate (o : Nat) (a b : Bool) (s : State) : (readAt o a b s).gate = s.gate := rfl
@[simp] theorem readAt_conv (o : Nat) (a b : Bool) (s : State) : (readAt o a b s).conv = s.conv := rfl
@[simp] theorem readAt_touch (o : Nat) (a b : Bool) (s : State) : (readAt o a b s).touch = s.touch := rfl
@[simp] theorem readAt_claims (o : Nat) (a b : Bool) (s : State) : (readAt o a b s).claims = s.claims := rfl
@[simp] theorem readAt_engine (o : Nat) (a b : Bool) (s : State) : (readAt o a b s).engine = s.engine := rfl
@[simp] theorem readAt_events (o : Nat) (a b : Bool) (s : State) : (readAt o a b s).events = s.events := rfl
@[simp] theorem readAt_chime (o : Nat) (a b : Bool) (s : State) : (readAt o a b s).chime = s.chime := rfl
@[simp] theorem readAt_owed (o : Nat) (a b : Bool) (s : State) : (readAt o a b s).owed = s.owed := rfl
@[simp] theorem readAt_pending (o : Nat) (a b : Bool) (s : State) : (readAt o a b s).pending = s.pending := rfl
@[simp] theorem readAt_bus (o : Nat) (a b : Bool) (s : State) : (readAt o a b s).bus = { s.bus with hostRead := some (hostReadOf o a b s), arbiter := s.bus.arbiter.servedHost } := rfl
@[simp] theorem readAt_seg (o : Nat) (a b : Bool) (s : State) (j : SegNo) : (readAt o a b s).seg j = s.seg j := rfl
@[simp] theorem readAt_touchLine (o : Nat) (a b : Bool) (s : State) (j : LineNo) : (readAt o a b s).touchLine j = s.touchLine j := rfl
@[simp] theorem readAt_claim (o : Nat) (a b : Bool) (s : State) (j : LineNo) : (readAt o a b s).claim j = s.claim j := rfl
@[simp] theorem readAt_areaBase (o : Nat) (a b : Bool) (s : State) : areaBase (readAt o a b s) = areaBase s := rfl

/-! ### writeWord -/

@[simp] theorem writeWord_pins (o : Nat) (v : Word) (s : State) : (writeWord o v s).pins = s.pins := rfl
@[simp] theorem writeWord_bus (o : Nat) (v : Word) (s : State) : (writeWord o v s).bus = s.bus := rfl
@[simp] theorem writeWord_segs (o : Nat) (v : Word) (s : State) : (writeWord o v s).segs = s.segs := rfl
@[simp] theorem writeWord_queue (o : Nat) (v : Word) (s : State) : (writeWord o v s).queue = s.queue := rfl
@[simp] theorem writeWord_asm (o : Nat) (v : Word) (s : State) : (writeWord o v s).asm = s.asm := rfl
@[simp] theorem writeWord_stroke (o : Nat) (v : Word) (s : State) : (writeWord o v s).stroke = s.stroke := rfl
@[simp] theorem writeWord_gate (o : Nat) (v : Word) (s : State) : (writeWord o v s).gate = s.gate := rfl
@[simp] theorem writeWord_conv (o : Nat) (v : Word) (s : State) : (writeWord o v s).conv = s.conv := rfl
@[simp] theorem writeWord_touch (o : Nat) (v : Word) (s : State) : (writeWord o v s).touch = s.touch := rfl
@[simp] theorem writeWord_claims (o : Nat) (v : Word) (s : State) : (writeWord o v s).claims = s.claims := rfl
@[simp] theorem writeWord_engine (o : Nat) (v : Word) (s : State) : (writeWord o v s).engine = s.engine := rfl
@[simp] theorem writeWord_events (o : Nat) (v : Word) (s : State) : (writeWord o v s).events = s.events := rfl
@[simp] theorem writeWord_chime (o : Nat) (v : Word) (s : State) : (writeWord o v s).chime = s.chime := rfl
@[simp] theorem writeWord_owed (o : Nat) (v : Word) (s : State) : (writeWord o v s).owed = s.owed := rfl
@[simp] theorem writeWord_pending (o : Nat) (v : Word) (s : State) : (writeWord o v s).pending = s.pending := rfl
@[simp] theorem writeWord_mem (o : Nat) (v : Word) (s : State) : (writeWord o v s).mem = s.mem.storeWord (areaBase s + o) v := rfl
@[simp] theorem writeWord_seg (o : Nat) (v : Word) (s : State) (j : SegNo) : (writeWord o v s).seg j = s.seg j := rfl
@[simp] theorem writeWord_touchLine (o : Nat) (v : Word) (s : State) (j : LineNo) : (writeWord o v s).touchLine j = s.touchLine j := rfl
@[simp] theorem writeWord_claim (o : Nat) (v : Word) (s : State) (j : LineNo) : (writeWord o v s).claim j = s.claim j := rfl
@[simp] theorem writeWord_areaBase (o : Nat) (v : Word) (s : State) : areaBase (writeWord o v s) = areaBase s := rfl

/-! ### startRecharge -/

@[simp] theorem startRecharge_mem (s : State) : (startRecharge s).mem = s.mem := rfl
@[simp] theorem startRecharge_pins (s : State) : (startRecharge s).pins = s.pins := rfl
@[simp] theorem startRecharge_bus (s : State) : (startRecharge s).bus = s.bus := rfl
@[simp] theorem startRecharge_segs (s : State) : (startRecharge s).segs = s.segs := rfl
@[simp] theorem startRecharge_queue (s : State) : (startRecharge s).queue = s.queue := rfl
@[simp] theorem startRecharge_asm (s : State) : (startRecharge s).asm = s.asm := rfl
@[simp] theorem startRecharge_gate (s : State) : (startRecharge s).gate = s.gate := rfl
@[simp] theorem startRecharge_conv (s : State) : (startRecharge s).conv = s.conv := rfl
@[simp] theorem startRecharge_touch (s : State) : (startRecharge s).touch = s.touch := rfl
@[simp] theorem startRecharge_claims (s : State) : (startRecharge s).claims = s.claims := rfl
@[simp] theorem startRecharge_engine (s : State) : (startRecharge s).engine = s.engine := rfl
@[simp] theorem startRecharge_events (s : State) : (startRecharge s).events = s.events := rfl
@[simp] theorem startRecharge_chime (s : State) : (startRecharge s).chime = s.chime := rfl
@[simp] theorem startRecharge_owed (s : State) : (startRecharge s).owed = s.owed := rfl
@[simp] theorem startRecharge_pending (s : State) : (startRecharge s).pending = s.pending := rfl
@[simp] theorem startRecharge_stroke (s : State) : (startRecharge s).stroke = { s.stroke with recharge := Timer.start (rechargeLength s.engine.copy) } := rfl
@[simp] theorem startRecharge_seg (s : State) (j : SegNo) : (startRecharge s).seg j = s.seg j := rfl
@[simp] theorem startRecharge_touchLine (s : State) (j : LineNo) : (startRecharge s).touchLine j = s.touchLine j := rfl
@[simp] theorem startRecharge_claim (s : State) (j : LineNo) : (startRecharge s).claim j = s.claim j := rfl
@[simp] theorem startRecharge_areaBase (s : State) : areaBase (startRecharge s) = areaBase s := rfl

/-! ### grant -/

@[simp] theorem grant_mem (jb : Job) (s : State) : (grant jb s).mem = s.mem := rfl
@[simp] theorem grant_pins (jb : Job) (s : State) : (grant jb s).pins = s.pins := rfl
@[simp] theorem grant_bus (jb : Job) (s : State) : (grant jb s).bus = s.bus := rfl
@[simp] theorem grant_segs (jb : Job) (s : State) : (grant jb s).segs = s.segs := rfl
@[simp] theorem grant_queue (jb : Job) (s : State) : (grant jb s).queue = s.queue := rfl
@[simp] theorem grant_asm (jb : Job) (s : State) : (grant jb s).asm = s.asm := rfl
@[simp] theorem grant_stroke (jb : Job) (s : State) : (grant jb s).stroke = s.stroke := rfl
@[simp] theorem grant_gate (jb : Job) (s : State) : (grant jb s).gate = s.gate := rfl
@[simp] theorem grant_touch (jb : Job) (s : State) : (grant jb s).touch = s.touch := rfl
@[simp] theorem grant_claims (jb : Job) (s : State) : (grant jb s).claims = s.claims := rfl
@[simp] theorem grant_engine (jb : Job) (s : State) : (grant jb s).engine = s.engine := rfl
@[simp] theorem grant_events (jb : Job) (s : State) : (grant jb s).events = s.events := rfl
@[simp] theorem grant_chime (jb : Job) (s : State) : (grant jb s).chime = s.chime := rfl
@[simp] theorem grant_owed (jb : Job) (s : State) : (grant jb s).owed = s.owed := rfl
@[simp] theorem grant_pending (jb : Job) (s : State) : (grant jb s).pending = s.pending := rfl
@[simp] theorem grant_conv (jb : Job) (s : State) : (grant jb s).conv = { s.conv with state := .converting, tap := jb.todo.head?.map Prod.fst, job := some jb } := rfl
@[simp] theorem grant_seg (jb : Job) (s : State) (j : SegNo) : (grant jb s).seg j = s.seg j := rfl
@[simp] theorem grant_touchLine (jb : Job) (s : State) (j : LineNo) : (grant jb s).touchLine j = s.touchLine j := rfl
@[simp] theorem grant_claim (jb : Job) (s : State) (j : LineNo) : (grant jb s).claim j = s.claim j := rfl
@[simp] theorem grant_areaBase (jb : Job) (s : State) : areaBase (grant jb s) = areaBase s := rfl

/-! ### freeJob -/

@[simp] theorem freeJob_mem (s : State) : (freeJob s).mem = s.mem := rfl
@[simp] theorem freeJob_pins (s : State) : (freeJob s).pins = s.pins := rfl
@[simp] theorem freeJob_bus (s : State) : (freeJob s).bus = s.bus := rfl
@[simp] theorem freeJob_segs (s : State) : (freeJob s).segs = s.segs := rfl
@[simp] theorem freeJob_queue (s : State) : (freeJob s).queue = s.queue := rfl
@[simp] theorem freeJob_asm (s : State) : (freeJob s).asm = s.asm := rfl
@[simp] theorem freeJob_stroke (s : State) : (freeJob s).stroke = s.stroke := rfl
@[simp] theorem freeJob_gate (s : State) : (freeJob s).gate = s.gate := rfl
@[simp] theorem freeJob_touch (s : State) : (freeJob s).touch = s.touch := rfl
@[simp] theorem freeJob_claims (s : State) : (freeJob s).claims = s.claims := rfl
@[simp] theorem freeJob_engine (s : State) : (freeJob s).engine = s.engine := rfl
@[simp] theorem freeJob_events (s : State) : (freeJob s).events = s.events := rfl
@[simp] theorem freeJob_chime (s : State) : (freeJob s).chime = s.chime := rfl
@[simp] theorem freeJob_owed (s : State) : (freeJob s).owed = s.owed := rfl
@[simp] theorem freeJob_pending (s : State) : (freeJob s).pending = s.pending := rfl
@[simp] theorem freeJob_conv (s : State) : (freeJob s).conv = { s.conv with state := .standby, job := none } := rfl
@[simp] theorem freeJob_seg (s : State) (j : SegNo) : (freeJob s).seg j = s.seg j := rfl
@[simp] theorem freeJob_touchLine (s : State) (j : LineNo) : (freeJob s).touchLine j = s.touchLine j := rfl
@[simp] theorem freeJob_claim (s : State) (j : LineNo) : (freeJob s).claim j = s.claim j := rfl
@[simp] theorem freeJob_areaBase (s : State) : areaBase (freeJob s) = areaBase s := rfl

/-! ### markDone -/

@[simp] theorem markDone_mem (i : SegNo) (s : State) : (markDone i s).mem = s.mem := rfl
@[simp] theorem markDone_pins (i : SegNo) (s : State) : (markDone i s).pins = s.pins := rfl
@[simp] theorem markDone_bus (i : SegNo) (s : State) : (markDone i s).bus = s.bus := rfl
@[simp] theorem markDone_segs (i : SegNo) (s : State) : (markDone i s).segs = s.segs := rfl
@[simp] theorem markDone_queue (i : SegNo) (s : State) : (markDone i s).queue = s.queue := rfl
@[simp] theorem markDone_asm (i : SegNo) (s : State) : (markDone i s).asm = s.asm := rfl
@[simp] theorem markDone_stroke (i : SegNo) (s : State) : (markDone i s).stroke = s.stroke := rfl
@[simp] theorem markDone_gate (i : SegNo) (s : State) : (markDone i s).gate = s.gate := rfl
@[simp] theorem markDone_touch (i : SegNo) (s : State) : (markDone i s).touch = s.touch := rfl
@[simp] theorem markDone_claims (i : SegNo) (s : State) : (markDone i s).claims = s.claims := rfl
@[simp] theorem markDone_engine (i : SegNo) (s : State) : (markDone i s).engine = s.engine := rfl
@[simp] theorem markDone_events (i : SegNo) (s : State) : (markDone i s).events = s.events := rfl
@[simp] theorem markDone_chime (i : SegNo) (s : State) : (markDone i s).chime = s.chime := rfl
@[simp] theorem markDone_owed (i : SegNo) (s : State) : (markDone i s).owed = s.owed := rfl
@[simp] theorem markDone_pending (i : SegNo) (s : State) : (markDone i s).pending = s.pending := rfl
@[simp] theorem markDone_conv (i : SegNo) (s : State) : (markDone i s).conv = { s.conv with sense := s.conv.sense.map fun r => { r with done := i :: r.done } } := rfl
@[simp] theorem markDone_seg (i : SegNo) (s : State) (j : SegNo) : (markDone i s).seg j = s.seg j := rfl
@[simp] theorem markDone_touchLine (i : SegNo) (s : State) (j : LineNo) : (markDone i s).touchLine j = s.touchLine j := rfl
@[simp] theorem markDone_claim (i : SegNo) (s : State) (j : LineNo) : (markDone i s).claim j = s.claim j := rfl
@[simp] theorem markDone_areaBase (i : SegNo) (s : State) : areaBase (markDone i s) = areaBase s := rfl

/-! ### postProducer -/

@[simp] theorem postProducer_mem (s : State) : (postProducer s).mem = s.mem := rfl
@[simp] theorem postProducer_pins (s : State) : (postProducer s).pins = s.pins := rfl
@[simp] theorem postProducer_segs (s : State) : (postProducer s).segs = s.segs := rfl
@[simp] theorem postProducer_queue (s : State) : (postProducer s).queue = s.queue := rfl
@[simp] theorem postProducer_asm (s : State) : (postProducer s).asm = s.asm := rfl
@[simp] theorem postProducer_stroke (s : State) : (postProducer s).stroke = s.stroke := rfl
@[simp] theorem postProducer_gate (s : State) : (postProducer s).gate = s.gate := rfl
@[simp] theorem postProducer_conv (s : State) : (postProducer s).conv = s.conv := rfl
@[simp] theorem postProducer_touch (s : State) : (postProducer s).touch = s.touch := rfl
@[simp] theorem postProducer_claims (s : State) : (postProducer s).claims = s.claims := rfl
@[simp] theorem postProducer_engine (s : State) : (postProducer s).engine = s.engine := rfl
@[simp] theorem postProducer_events (s : State) : (postProducer s).events = s.events := rfl
@[simp] theorem postProducer_chime (s : State) : (postProducer s).chime = s.chime := rfl
@[simp] theorem postProducer_owed (s : State) : (postProducer s).owed = s.owed := rfl
@[simp] theorem postProducer_pending (s : State) : (postProducer s).pending = s.pending := rfl
@[simp] theorem postProducer_bus (s : State) : (postProducer s).bus = { s.bus with posts := postTo s.bus.posts ⟨PartWord.offset .ringProducer, s.events.producer.setWidth 16⟩ } := rfl
@[simp] theorem postProducer_seg (s : State) (j : SegNo) : (postProducer s).seg j = s.seg j := rfl
@[simp] theorem postProducer_touchLine (s : State) (j : LineNo) : (postProducer s).touchLine j = s.touchLine j := rfl
@[simp] theorem postProducer_claim (s : State) (j : LineNo) : (postProducer s).claim j = s.claim j := rfl
@[simp] theorem postProducer_areaBase (s : State) : areaBase (postProducer s) = areaBase s := rfl

/-! ### postStatus -/

@[simp] theorem postStatus_mem (s : State) : (postStatus s).mem = s.mem := rfl
@[simp] theorem postStatus_pins (s : State) : (postStatus s).pins = s.pins := rfl
@[simp] theorem postStatus_segs (s : State) : (postStatus s).segs = s.segs := rfl
@[simp] theorem postStatus_queue (s : State) : (postStatus s).queue = s.queue := rfl
@[simp] theorem postStatus_asm (s : State) : (postStatus s).asm = s.asm := rfl
@[simp] theorem postStatus_stroke (s : State) : (postStatus s).stroke = s.stroke := rfl
@[simp] theorem postStatus_gate (s : State) : (postStatus s).gate = s.gate := rfl
@[simp] theorem postStatus_conv (s : State) : (postStatus s).conv = s.conv := rfl
@[simp] theorem postStatus_touch (s : State) : (postStatus s).touch = s.touch := rfl
@[simp] theorem postStatus_claims (s : State) : (postStatus s).claims = s.claims := rfl
@[simp] theorem postStatus_engine (s : State) : (postStatus s).engine = s.engine := rfl
@[simp] theorem postStatus_events (s : State) : (postStatus s).events = s.events := rfl
@[simp] theorem postStatus_chime (s : State) : (postStatus s).chime = s.chime := rfl
@[simp] theorem postStatus_owed (s : State) : (postStatus s).owed = s.owed := rfl
@[simp] theorem postStatus_pending (s : State) : (postStatus s).pending = s.pending := rfl
@[simp] theorem postStatus_bus (s : State) : (postStatus s).bus = { s.bus with posts := postTo s.bus.posts ⟨PartWord.offset .engineStatus, statusWord s⟩ } := rfl
@[simp] theorem postStatus_seg (s : State) (j : SegNo) : (postStatus s).seg j = s.seg j := rfl
@[simp] theorem postStatus_touchLine (s : State) (j : LineNo) : (postStatus s).touchLine j = s.touchLine j := rfl
@[simp] theorem postStatus_claim (s : State) (j : LineNo) : (postStatus s).claim j = s.claim j := rfl
@[simp] theorem postStatus_areaBase (s : State) : areaBase (postStatus s) = areaBase s := rfl

/-! ### setEvents -/

@[simp] theorem setEvents_mem (w : HostWrite) (s : State) : (setEvents w s).mem = s.mem := rfl
@[simp] theorem setEvents_pins (w : HostWrite) (s : State) : (setEvents w s).pins = s.pins := rfl
@[simp] theorem setEvents_bus (w : HostWrite) (s : State) : (setEvents w s).bus = s.bus := rfl
@[simp] theorem setEvents_segs (w : HostWrite) (s : State) : (setEvents w s).segs = s.segs := rfl
@[simp] theorem setEvents_queue (w : HostWrite) (s : State) : (setEvents w s).queue = s.queue := rfl
@[simp] theorem setEvents_asm (w : HostWrite) (s : State) : (setEvents w s).asm = s.asm := rfl
@[simp] theorem setEvents_stroke (w : HostWrite) (s : State) : (setEvents w s).stroke = s.stroke := rfl
@[simp] theorem setEvents_gate (w : HostWrite) (s : State) : (setEvents w s).gate = s.gate := rfl
@[simp] theorem setEvents_conv (w : HostWrite) (s : State) : (setEvents w s).conv = s.conv := rfl
@[simp] theorem setEvents_touch (w : HostWrite) (s : State) : (setEvents w s).touch = s.touch := rfl
@[simp] theorem setEvents_claims (w : HostWrite) (s : State) : (setEvents w s).claims = s.claims := rfl
@[simp] theorem setEvents_engine (w : HostWrite) (s : State) : (setEvents w s).engine = s.engine := rfl
@[simp] theorem setEvents_chime (w : HostWrite) (s : State) : (setEvents w s).chime = s.chime := rfl
@[simp] theorem setEvents_pending (w : HostWrite) (s : State) : (setEvents w s).pending = s.pending := rfl
@[simp] theorem setEvents_events (w : HostWrite) (s : State) : (setEvents w s).events = { s.events with pending := s.events.pending ||| w.bits.setWidth 13 } := rfl
@[simp] theorem setEvents_owed (w : HostWrite) (s : State) : (setEvents w s).owed = { s.owed with pending := true } := rfl
@[simp] theorem setEvents_seg (w : HostWrite) (s : State) (j : SegNo) : (setEvents w s).seg j = s.seg j := rfl
@[simp] theorem setEvents_touchLine (w : HostWrite) (s : State) (j : LineNo) : (setEvents w s).touchLine j = s.touchLine j := rfl
@[simp] theorem setEvents_claim (w : HostWrite) (s : State) (j : LineNo) : (setEvents w s).claim j = s.claim j := rfl
@[simp] theorem setEvents_areaBase (w : HostWrite) (s : State) : areaBase (setEvents w s) = areaBase s := rfl

/-! ### clearEvents -/

@[simp] theorem clearEvents_mem (w : HostWrite) (s : State) : (clearEvents w s).mem = s.mem := rfl
@[simp] theorem clearEvents_pins (w : HostWrite) (s : State) : (clearEvents w s).pins = s.pins := rfl
@[simp] theorem clearEvents_bus (w : HostWrite) (s : State) : (clearEvents w s).bus = s.bus := rfl
@[simp] theorem clearEvents_segs (w : HostWrite) (s : State) : (clearEvents w s).segs = s.segs := rfl
@[simp] theorem clearEvents_queue (w : HostWrite) (s : State) : (clearEvents w s).queue = s.queue := rfl
@[simp] theorem clearEvents_asm (w : HostWrite) (s : State) : (clearEvents w s).asm = s.asm := rfl
@[simp] theorem clearEvents_stroke (w : HostWrite) (s : State) : (clearEvents w s).stroke = s.stroke := rfl
@[simp] theorem clearEvents_gate (w : HostWrite) (s : State) : (clearEvents w s).gate = s.gate := rfl
@[simp] theorem clearEvents_conv (w : HostWrite) (s : State) : (clearEvents w s).conv = s.conv := rfl
@[simp] theorem clearEvents_touch (w : HostWrite) (s : State) : (clearEvents w s).touch = s.touch := rfl
@[simp] theorem clearEvents_claims (w : HostWrite) (s : State) : (clearEvents w s).claims = s.claims := rfl
@[simp] theorem clearEvents_engine (w : HostWrite) (s : State) : (clearEvents w s).engine = s.engine := rfl
@[simp] theorem clearEvents_chime (w : HostWrite) (s : State) : (clearEvents w s).chime = s.chime := rfl
@[simp] theorem clearEvents_pending (w : HostWrite) (s : State) : (clearEvents w s).pending = s.pending := rfl
@[simp] theorem clearEvents_events (w : HostWrite) (s : State) : (clearEvents w s).events = { s.events with pending := s.events.pending &&& ~~~w.bits.setWidth 13 } := rfl
@[simp] theorem clearEvents_owed (w : HostWrite) (s : State) : (clearEvents w s).owed = { s.owed with pending := true } := rfl
@[simp] theorem clearEvents_seg (w : HostWrite) (s : State) (j : SegNo) : (clearEvents w s).seg j = s.seg j := rfl
@[simp] theorem clearEvents_touchLine (w : HostWrite) (s : State) (j : LineNo) : (clearEvents w s).touchLine j = s.touchLine j := rfl
@[simp] theorem clearEvents_claim (w : HostWrite) (s : State) (j : LineNo) : (clearEvents w s).claim j = s.claim j := rfl
@[simp] theorem clearEvents_areaBase (w : HostWrite) (s : State) : areaBase (clearEvents w s) = areaBase s := rfl

/-! ### Records that an event's own effects give -/

@[simp] theorem seg_withJoins (hs ts : List SegNo) (f : SegNo → Segment) (s : State) (i : SegNo) :
    (withJoins hs ts f s).seg i = f i := by simp [withJoins, State.seg]

@[simp] theorem asm_withJoins (hs ts : List SegNo) (f : SegNo → Segment) (s : State) : (withJoins hs ts f s).asm = s.asm := by simp [withJoins]

@[simp] theorem conv_withJoins (hs ts : List SegNo) (f : SegNo → Segment) (s : State) : (withJoins hs ts f s).conv = s.conv := by simp [withJoins]

@[simp] theorem stroke_withJoins (hs ts : List SegNo) (f : SegNo → Segment) (s : State) : (withJoins hs ts f s).stroke = s.stroke := by simp [withJoins]

@[simp] theorem engine_withJoins (hs ts : List SegNo) (f : SegNo → Segment) (s : State) : (withJoins hs ts f s).engine = s.engine := by simp [withJoins]

@[simp] theorem gate_withJoins (hs ts : List SegNo) (f : SegNo → Segment) (s : State) : (withJoins hs ts f s).gate = s.gate := by simp [withJoins]

theorem mem_joining {q : List SegNo} {f : SegNo → Bool} {is : List SegNo} {i : SegNo} :
    i ∈ (is.filter fun i => !q.contains i && f i) ↔ i ∈ is ∧ i ∉ q ∧ f i = true := by
  simp [List.mem_filter]

/-- The queue of such a state is as R40 and R47 say, when no entry stood twice before, and when every segment that has become queue-able is
in one of the two lists, once. -/
theorem queueLawful_withJoins {hs ts : List SegNo} {f : SegNo → Segment} {s : State} (h : s.queue.entries.Nodup) (hj : (hs ++ ts).Nodup)
    (hall : ∀ i, queueable s.engine (f i) = true → i ∈ s.queue.entries ∨ i ∈ hs ++ ts) : QueueLawful (withJoins hs ts f s) := by
  obtain ⟨hhs, hts, hdis⟩ := List.nodup_append.1 hj
  have hq : (withJoins hs ts f s).queue.entries =
      (hs.filter fun i => !s.queue.entries.contains i && queueable s.engine (f i)) ++
        (s.queue.entries.filter fun i => queueable s.engine (f i)) ++
        (ts.filter fun i => !s.queue.entries.contains i && queueable s.engine (f i)) := by
    simp only [withJoins, Queue.entries, List.nil_append]
  refine ⟨?_, fun i => ?_⟩
  · rw [hq]
    refine List.nodup_append.2 ⟨List.nodup_append.2 ⟨hhs.filter _, h.filter _, ?_⟩, hts.filter _, ?_⟩
    · rintro a ha b hb rfl
      exact (mem_joining.1 ha).2.1 (List.mem_filter.1 hb).1
    · rintro a ha b hb rfl
      rcases List.mem_append.1 ha with ha | ha
      · exact hdis a (mem_joining.1 ha).1 a (mem_joining.1 hb).1 rfl
      · exact (mem_joining.1 hb).2.1 (List.mem_filter.1 ha).1
  · rw [hq, seg_withJoins, engine_withJoins, List.mem_append, List.mem_append, mem_joining, mem_joining, List.mem_filter]
    have := hall i
    rw [List.mem_append] at this
    tauto

@[simp] theorem seg_withRecords (f : SegNo → Segment) (s : State) (i : SegNo) : (withRecords f s).seg i = f i := by simp [withRecords]

@[simp] theorem asm_withRecords (f : SegNo → Segment) (s : State) : (withRecords f s).asm = s.asm := by simp [withRecords]

@[simp] theorem conv_withRecords (f : SegNo → Segment) (s : State) : (withRecords f s).conv = s.conv := by simp [withRecords]

@[simp] theorem stroke_withRecords (f : SegNo → Segment) (s : State) : (withRecords f s).stroke = s.stroke := by simp [withRecords]

@[simp] theorem engine_withRecords (f : SegNo → Segment) (s : State) : (withRecords f s).engine = s.engine := by simp [withRecords]

/-- The queue of such a state is as R40 and R47 say, whatever the records, when no entry stood twice before. -/
theorem queueLawful_withRecords (f : SegNo → Segment) {s : State} (h : s.queue.entries.Nodup) : QueueLawful (withRecords f s) :=
  queueLawful_withJoins h (List.nodup_finRange 96) fun i _ => .inr (List.mem_finRange i)

@[simp] theorem conv_jobEnded (s : State) (j : Job) (i : SegNo) (u : Segment) (rec : Option SenseRecord) :
    (jobEnded s j i u rec).conv = { s.conv with state := .standby, warmUp := .clear, job := none, sense := rec } := by simp [jobEnded]

@[simp] theorem asm_jobEnded (s : State) (j : Job) (i : SegNo) (u : Segment) (rec : Option SenseRecord) :
    (jobEnded s j i u rec).asm = captureForgotten s fun k => k == i && (s.seg k).discardAfter := by simp [jobEnded]

@[simp] theorem stroke_jobEnded (s : State) (j : Job) (i : SegNo) (u : Segment) (rec : Option SenseRecord) :
    (jobEnded s j i u rec).stroke = s.stroke := by simp [jobEnded]

@[simp] theorem engine_jobEnded (s : State) (j : Job) (i : SegNo) (u : Segment) (rec : Option SenseRecord) :
    (jobEnded s j i u rec).engine = s.engine := by simp [jobEnded]

@[simp] theorem seg_jobEnded (s : State) (j : Job) (i : SegNo) (u : Segment) (rec : Option SenseRecord) (k : SegNo) :
    (jobEnded s j i u rec).seg k = if k = i then u else s.seg k := by simp [jobEnded]

/-- A lawful queue before the end of a SWEEP or SENSE job gives a lawful one from which new work is judged. -/
theorem queueLawful_jobEnded {s : State} (h : QueueLawful s) (j : Job) (i : SegNo) (u : Segment) (rec : Option SenseRecord) :
    QueueLawful (jobEnded s j i u rec) := by
  unfold jobEnded
  refine queueLawful_withJoins h.1 (by split <;> simp) fun k hk => ?_
  by_cases hki : k = i
  · subst hki
    right
    split <;> simp
  · exact .inl ((h.2 k).2 (by simpa [hki] using hk))

@[simp] theorem conv_strokeEnded (s : State) (d : Driven) (cs : List Conversion) :
    (strokeEnded s d cs).conv = { s.conv with state := .standby, warmUp := .clear, job := none } := by simp [strokeEnded]

@[simp] theorem asm_strokeEnded (s : State) (d : Driven) (cs : List Conversion) :
    (strokeEnded s d cs).asm = captureForgotten s fun k => (s.seg k).discardAfter && d.members.any fun m => m.seg == k := by simp [strokeEnded]

@[simp] theorem stroke_strokeEnded (s : State) (d : Driven) (cs : List Conversion) :
    (strokeEnded s d cs).stroke = { s.stroke with driven := none } := by simp [strokeEnded]

@[simp] theorem engine_strokeEnded (s : State) (d : Driven) (cs : List Conversion) : (strokeEnded s d cs).engine = s.engine := by simp [strokeEnded]

/-- With the members of the stroke distinct, a member has the record of its finish. -/
theorem seg_strokeEnded_member {s : State} {d : Driven} {cs : List Conversion} (h : (d.members.map Member.seg).Nodup) {m : Member}
    (hm : m ∈ d.members) : (strokeEnded s d cs).seg m.seg = finishOf s cs m := by
  have hf : d.members.find? (fun m' => m'.seg == m.seg) = some m := by
    revert h hm
    generalize d.members = ms
    intro h hm
    induction ms with
    | nil => cases hm
    | cons a ms ih =>
      rw [List.map_cons, List.nodup_cons] at h
      rcases List.mem_cons.1 hm with rfl | hm
      · simp
      · have hne : (a.seg == m.seg) = false := by
          simp only [beq_eq_false_iff_ne, ne_eq]
          exact fun he => h.1 (he ▸ List.mem_map_of_mem hm)
        rw [List.find?_cons, hne]
        exact ih h.2 hm
  unfold strokeEnded
  rw [seg_withJoins]
  simp only [hf]

/-- Every other segment is as it was. -/
theorem seg_strokeEnded_other {s : State} {d : Driven} {cs : List Conversion} {k : SegNo} (h : k ∉ d.members.map Member.seg) :
    (strokeEnded s d cs).seg k = s.seg k := by
  have hf : d.members.find? (fun m => m.seg == k) = none := by
    rw [List.find?_eq_none]
    intro m hm he
    exact h (List.mem_map.2 ⟨m, hm, by simpa using he⟩)
  unfold strokeEnded
  rw [seg_withJoins]
  simp only [hf]

/-- A lawful queue before a stroke's end gives a lawful one from which new work is judged. -/
theorem queueLawful_strokeEnded {s : State} {d : Driven} (h : QueueLawful s) (hm : (d.members.map Member.seg).Nodup) (cs : List Conversion) :
    QueueLawful (strokeEnded s d cs) := by
  have hsub : ∀ f : Member → Bool, ((d.members.filter f).map Member.seg).Nodup := fun f => hm.sublist (List.filter_sublist.map _)
  have hinj : ∀ m ∈ d.members, ∀ m' ∈ d.members, m.seg = m'.seg → m = m' := fun m h1 m' h2 he =>
    List.inj_on_of_nodup_map hm h1 h2 he
  unfold strokeEnded
  refine queueLawful_withJoins h.1 (List.nodup_append.2 ⟨hsub _, hsub _, ?_⟩) fun k hk => ?_
  · rintro a ha b hb rfl
    obtain ⟨m, h1, rfl⟩ := List.mem_map.1 ha
    obtain ⟨m', h2, he⟩ := List.mem_map.1 hb
    rw [List.mem_filter] at h1 h2
    obtain rfl := hinj _ h1.1 _ h2.1 he.symm
    have h1 := h1.2
    have h2 := h2.2
    simp only [h2] at h1
    cases h1
  · by_cases hkm : k ∈ d.members.map Member.seg
    · right
      obtain ⟨m, h1, rfl⟩ := List.mem_map.1 hkm
      by_cases ht : (!m.touched && (s.seg m.seg).discardAfter) = true
      · exact List.mem_append_right _ (List.mem_map_of_mem (List.mem_filter.2 ⟨h1, ht⟩))
      · exact List.mem_append_left _ (List.mem_map_of_mem (List.mem_filter.2 ⟨h1, by simpa only [Bool.not_eq_true, Bool.not_eq_eq_eq_not, Bool.not_true] using ht⟩))
    · left
      have hf : d.members.find? (fun m => m.seg == k) = none := by
        rw [List.find?_eq_none]
        intro m h1 he
        exact hkm (List.mem_map.2 ⟨m, h1, by simpa using he⟩)
      exact (h.2 k).2 (by simpa only [hf] using hk)

end Sys2Proof.Machine
end

