-- ==== Sys2Proof/Laws/Memory.lean ====
section
/-! SUPPORT. Page memory: reading after writing, and the canonical form kept by every operation (log 1). -/

namespace Sys2Proof.Machine

/-! ### Sparse data -/

theorem sparseRead_write {α : Type} [DecidableEq α] (d : α) (l : List (Nat × α)) (hl : sparseWf d l = true) (a b : Nat) (v : α) :
    sparseRead d (sparseWrite d l a v) b = if b = a then v else sparseRead d l b := by
  induction l with
  | nil => by_cases h : v = d <;> simp [sparseWrite, sparseRead, h]
  | cons e rest ih =>
    obtain ⟨k, x⟩ := e
    simp only [sparseWf, Bool.and_eq_true, decide_eq_true_eq, List.all_eq_true] at hl
    obtain ⟨⟨hx, hk⟩, hr⟩ := hl
    have away : ∀ c, c < k + 1 → sparseRead d rest c = d := by
      intro c hc
      clear ih hr
      induction rest with
      | nil => rfl
      | cons f t iht =>
        have h1 := hk f (by simp)
        have : c ≠ f.1 := by omega
        simp only [sparseRead, this, if_false]
        exact iht fun g hg => hk g (by simp [hg])
    simp only [sparseWrite]
    split
    · split
      · subst v; simp only [sparseRead]
        split <;> rename_i h
        · have hb : b ≠ a := by omega
          simp [hb]
        · split
          · subst b; exact away a (by omega)
          · rfl
      · simp only [sparseRead]
    · split
      · subst a
        split
        · subst v
          split <;> rename_i h
          · subst b; exact away k (by omega)
          · simp [sparseRead, h]
        · simp only [sparseRead]
          split <;> rfl
      · simp only [sparseRead, ih hr]
        split <;> rename_i h h1 h2
        · have hb : b ≠ a := by omega
          simp [hb]
        · rfl

theorem sparseWf_write {α : Type} [DecidableEq α] (d : α) (l : List (Nat × α)) (hl : sparseWf d l = true) (a : Nat) (v : α) :
    sparseWf d (sparseWrite d l a v) = true ∧
      ∀ k, k < a → (∀ e ∈ l, k < e.1) → ∀ e ∈ sparseWrite d l a v, k < e.1 := by
  induction l with
  | nil => by_cases h : v = d <;> simp [sparseWrite, sparseWf, h]
  | cons e rest ih =>
    obtain ⟨k, x⟩ := e
    simp only [sparseWf, Bool.and_eq_true, decide_eq_true_eq, List.all_eq_true] at hl
    obtain ⟨⟨hx, hk⟩, hr⟩ := hl
    obtain ⟨ihw, ihl⟩ := ih hr
    simp only [sparseWrite]
    by_cases h1 : a < k
    · by_cases h2 : v = d
      · simp only [h1, h2, if_true, sparseWf, Bool.and_eq_true, decide_eq_true_eq, List.all_eq_true]
        exact ⟨⟨⟨hx, hk⟩, hr⟩, fun _ _ h => h⟩
      · simp only [h1, h2, if_true, if_false, sparseWf, Bool.and_eq_true, decide_eq_true_eq, List.all_eq_true, List.mem_cons]
        refine ⟨⟨⟨h2, ?_⟩, ⟨hx, hk⟩, hr⟩, ?_⟩
        · rintro f (rfl | hf)
          · exact h1
          · exact Nat.lt_trans h1 (hk f hf)
        · rintro m hm hall f (rfl | hf)
          · exact hm
          · exact hall f hf
    · by_cases h3 : a = k
      · subst h3
        by_cases h2 : v = d
        · simp only [h1, h2, if_true, if_false]
          exact ⟨hr, fun m _ hall f hf => hall f (List.mem_cons_of_mem _ hf)⟩
        · simp only [h1, h2, if_true, if_false, sparseWf, Bool.and_eq_true, decide_eq_true_eq, List.all_eq_true, List.mem_cons]
          refine ⟨⟨⟨h2, hk⟩, hr⟩, ?_⟩
          rintro m hm hall f (rfl | hf)
          · exact hm
          · exact hall f (.inr hf)
      · simp only [h1, h3, if_false, sparseWf, Bool.and_eq_true, decide_eq_true_eq, List.all_eq_true, List.mem_cons]
        refine ⟨⟨⟨hx, ihl k (by omega) hk⟩, ihw⟩, ?_⟩
        rintro m hm hall f (rfl | hf)
        · exact hall (k, x) (.inl rfl)
        · exact ihl m hm (fun g hg => hall g (.inr hg)) f hf

/-! ### One byte -/

theorem Memory.wf_parts {m : Memory} (h : m.wf = true) :
    sparseWf Config.blankByte m.bytes = true ∧ sparseWf Config.blankParity m.parity = true := by
  simpa [Memory.wf] using h

theorem Memory.byte_store {m : Memory} (h : m.wf = true) (a c : Nat) (v : Byte) (p : Bool) :
    (m.store a v p).byte c = if c = a then v else m.byte c :=
  sparseRead_write _ _ (wf_parts h).1 a c v

theorem Memory.par_store {m : Memory} (h : m.wf = true) (a c : Nat) (v : Byte) (p : Bool) :
    (m.store a v p).par c = if c = a then p else m.par c :=
  sparseRead_write _ _ (wf_parts h).2 a c p

theorem Memory.wf_store {m : Memory} (h : m.wf = true) (a : Nat) (v : Byte) (p : Bool) : (m.store a v p).wf = true := by
  simp [Memory.wf, Memory.store, (sparseWf_write _ _ (wf_parts h).1 a v).1, (sparseWf_write _ _ (wf_parts h).2 a p).1]

/-! ### Words of the part and host writes -/

theorem Memory.wf_storeWord {m : Memory} (h : m.wf = true) (a : Nat) (v : Word) : (m.storeWord a v).wf = true :=
  wf_store (wf_store h _ _ _) _ _ _

/-- What a word written by the part leaves: its two bytes, and every other byte as it was. -/
theorem Memory.byte_storeWord {m : Memory} (h : m.wf = true) (a c : Nat) (v : Word) :
    (m.storeWord a v).byte c = if c = a then lowByte v else if c = a + 1 then highByte v else m.byte c := by
  unfold Memory.storeWord
  rw [byte_store (wf_store h _ _ _), byte_store h]
  by_cases h1 : c = a
  · have : c ≠ a + 1 := by omega
    simp [h1]
  · simp [h1]

theorem Memory.par_storeWord {m : Memory} (h : m.wf = true) (a c : Nat) (v : Word) :
    (m.storeWord a v).par c =
      if c = a then madeParity (lowByte v) else if c = a + 1 then madeParity (highByte v) else m.par c := by
  unfold Memory.storeWord
  rw [par_store (wf_store h _ _ _), par_store h]
  by_cases h1 : c = a
  · have : c ≠ a + 1 := by omega
    simp [h1]
  · simp [h1]

theorem wordOf_parts (v : Word) : wordOf (lowByte v) (highByte v) = v := by
  apply BitVec.eq_of_toNat_eq
  simp only [wordOf, lowByte, highByte, BitVec.toNat_append, BitVec.extractLsb'_toNat, Nat.shiftRight_zero]
  have := v.isLt
  rw [Nat.shiftLeft_eq, ← Nat.mul_comm, ← Nat.two_pow_add_eq_or_of_lt (by omega)]
  simp only [Nat.shiftRight_eq_div_pow]
  omega

theorem wordOf_getLsbD (lo hi : Byte) (i : Nat) :
    (wordOf lo hi).getLsbD i = if i < 8 then lo.getLsbD i else hi.getLsbD (i - 8) :=
  BitVec.getLsbD_append

@[simp] theorem lowByte_wordOf (lo hi : Byte) : lowByte (wordOf lo hi) = lo := by
  refine BitVec.eq_of_getLsbD_eq fun i h => ?_
  simp only [lowByte, BitVec.getLsbD_extractLsb', wordOf_getLsbD]
  simp [h]

@[simp] theorem highByte_wordOf (lo hi : Byte) : highByte (wordOf lo hi) = hi := by
  refine BitVec.eq_of_getLsbD_eq fun i h => ?_
  simp only [highByte, BitVec.getLsbD_extractLsb', wordOf_getLsbD]
  simp [h]

theorem Memory.word_storeWord {m : Memory} (h : m.wf = true) (a : Nat) (v : Word) : (m.storeWord a v).word a = v := by
  simp [Memory.word, byte_storeWord h, wordOf_parts]

theorem Memory.word_storeWord_other {m : Memory} (h : m.wf = true) (a c : Nat) (v : Word)
    (h1 : c + 1 < a ∨ a + 1 < c) : (m.storeWord a v).word c = m.word c := by
  have : c ≠ a ∧ c ≠ a + 1 ∧ c + 1 ≠ a ∧ c + 1 ≠ a + 1 := by omega
  simp [Memory.word, byte_storeWord h, this]

theorem Memory.wf_storeHost {m : Memory} (h : m.wf = true) (a : Nat) (w : HostWrite) : (m.storeHost a w).wf = true := by
  unfold Memory.storeHost
  split <;> split <;> simp_all [wf_store]

/-- What a host write leaves: the enabled bytes as sent, and every other byte as it was. -/
theorem Memory.byte_storeHost {m : Memory} (h : m.wf = true) (a c : Nat) (w : HostWrite) :
    (m.storeHost a w).byte c =
      if c = a ∧ w.enLow then lowByte w.data else if c = a + 1 ∧ w.enHigh then highByte w.data else m.byte c := by
  unfold Memory.storeHost
  cases hl : w.enLow <;> cases hh : w.enHigh <;> simp [byte_store, wf_store, h]
  by_cases h1 : c = a
  · have : c ≠ a + 1 := by omega
    simp [h1]
  · simp [h1]

theorem Memory.par_storeHost {m : Memory} (h : m.wf = true) (a c : Nat) (w : HostWrite) :
    (m.storeHost a w).par c =
      if c = a ∧ w.enLow then w.parLow else if c = a + 1 ∧ w.enHigh then w.parHigh else m.par c := by
  unfold Memory.storeHost
  cases hl : w.enLow <;> cases hh : w.enHigh <;> simp [par_store, wf_store, h]
  by_cases h1 : c = a
  · have : c ≠ a + 1 := by omega
    simp [h1]
  · simp [h1]

/-! ### The post list written to memory -/

theorem wf_writePost {m : Memory} (h : m.wf = true) (base : Nat) (p : Post) : (writePost base p m).wf = true :=
  Memory.wf_storeWord h _ _

theorem wf_drainTo (base off : Nat) (ps : List Post) {m : Memory} (h : m.wf = true) :
    (drainTo base off ps m).2.wf = true := by
  induction ps generalizing m with
  | nil => exact h
  | cons p ps ih =>
    unfold drainTo
    split
    · exact wf_writePost h _ _
    · exact ih (wf_writePost h _ _)

theorem wf_drainHead {s : State} (h : s.mem.wf = true) : (drainHead s).mem.wf = true := by
  unfold drainHead
  split
  · exact h
  · exact wf_writePost h _ _

theorem wf_waitForPost (off : Nat) {s : State} (h : s.mem.wf = true) : (waitForPost off s).mem.wf = true := by
  unfold waitForPost
  split
  · exact wf_drainTo _ _ _ h
  · exact h

theorem wf_forwardArea (off : Nat) (w : HostWrite) {s : State} (h : s.mem.wf = true) :
    (forwardArea off w s).mem.wf = true := Memory.wf_storeHost (wf_waitForPost off h) _ _

theorem wf_forwardAddr (a : Nat) (w : HostWrite) {s : State} (h : s.mem.wf = true) :
    (forwardAddr a w s).mem.wf = true := by
  unfold forwardAddr
  split
  · exact wf_forwardArea _ _ h
  · exact Memory.wf_storeHost h _ _

/-- A host read changes memory by the posts that it waits for alone. -/
theorem wf_readArea (off : Nat) (lo hi : Bool) {s : State} (h : s.mem.wf = true) : (readArea off lo hi s).mem.wf = true :=
  wf_waitForPost off h

theorem wf_readAddr (a : Nat) (lo hi : Bool) {s : State} (h : s.mem.wf = true) : (readAddr a lo hi s).mem.wf = true := by
  unfold readAddr
  split
  · exact wf_readArea _ lo hi h
  · exact h

theorem wf_reset : State.reset.mem.wf = true := by decide

end Sys2Proof.Machine
end

