-- ==== Sys2Proof/Laws/Posts.lean ====
section
/-! SUPPORT. The post list: what posting leaves (R11), what a turn of the list leaves (R12), and what the wait of a host access leaves (R13). -/

namespace Sys2Proof.Machine

/-! ### Posting (R11) -/

theorem mem_postTo {ps : List Post} {p q : Post} :
    q ∈ postTo ps p ↔ (q ∈ ps ∧ q.offset ≠ p.offset) ∨ q = p := by
  simp [postTo]

theorem postTo_nodup {ps : List Post} (h : (ps.map Post.offset).Nodup) (p : Post) :
    ((postTo ps p).map Post.offset).Nodup := by
  have hs : (List.filter (fun q => q.offset != p.offset) ps).Sublist ps := List.filter_sublist
  simp only [postTo, List.map_append, List.map_cons, List.map_nil]
  refine List.Nodup.append (h.sublist (hs.map _)) (by simp) ?_
  simp [List.disjoint_singleton]

theorem hasPost_iff {s : State} {off : Nat} : hasPost s off = true ↔ ∃ p ∈ s.bus.posts, p.offset = off := by
  simp [hasPost]

theorem hasPost_post (o off : Nat) (v : Word) (s : State) :
    hasPost (post o v s) off = (off == o || hasPost s off) := by
  rw [Bool.eq_iff_iff, hasPost_iff, Bool.or_eq_true, beq_iff_eq, hasPost_iff]
  simp only [post_bus, mem_postTo]
  constructor
  · rintro ⟨p, (⟨hp, -⟩ | rfl), rfl⟩
    · exact .inr ⟨p, hp, rfl⟩
    · exact .inl rfl
  · rintro (rfl | ⟨p, hp, rfl⟩)
    · exact ⟨⟨off, v⟩, .inr rfl, rfl⟩
    · by_cases h : p.offset = o
      · exact ⟨⟨o, v⟩, .inr rfl, h.symm⟩
      · exact ⟨p, .inl ⟨hp, h⟩, rfl⟩

theorem post_mem_self (o : Nat) (v : Word) (s : State) : (⟨o, v⟩ : Post) ∈ (post o v s).bus.posts := by
  simp [mem_postTo]

/-- An entry of another word stays on the list. -/
theorem post_mem_other {o : Nat} {p : Post} (h : p.offset ≠ o) (v : Word) (s : State) :
    p ∈ (post o v s).bus.posts ↔ p ∈ s.bus.posts := by
  simp only [post_bus, mem_postTo]
  constructor
  · rintro (⟨hp, -⟩ | rfl)
    · exact hp
    · exact absurd rfl h
  · exact fun hp => .inl ⟨hp, h⟩

theorem PostsLawful.post {s : State} (h : PostsLawful s) {o : Nat} (ho : Postable o) (v : Word) :
    PostsLawful (post o v s) := by
  refine ⟨postTo_nodup h.1 _, ?_⟩
  intro p hp
  rcases mem_postTo.1 hp with ⟨hp, -⟩ | rfl
  · exact h.2 p hp
  · exact ho

theorem postable_word (p : PartWord) : Postable p.offset := .inl ⟨p, rfl⟩

theorem postable_claim (l : LineNo) : Postable (claimOffset l) := .inr ⟨l, rfl⟩

/-- Every posted word lies at an even offset of the area. -/
theorem Postable.even {off : Nat} (h : Postable off) : off % 2 = 0 ∧ off + 1 < Config.areaBytes := by
  rcases h with ⟨p, rfl⟩ | ⟨l, rfl⟩
  · cases p <;> first | decide | (simp only [PartWord.offset, Config.areaBytes]; omega)
  · simp only [claimOffset, Config.areaBytes]; omega

/-- The words that no block posts: the command, argument, event enable and ring consumer words. -/
theorem not_postable_hostWord {off : Nat}
    (h : off = commandOffset ∨ off = argumentOffset ∨ off = eventEnableOffset ∨ off = ringConsumerOffset) : ¬Postable off := by
  rintro (⟨p, hp⟩ | ⟨l, hl⟩)
  · rcases h with rfl | rfl | rfl | rfl <;> cases p <;>
      simp only [commandOffset, argumentOffset, eventEnableOffset, ringConsumerOffset, PartWord.offset] at hp <;> omega
  · rcases h with rfl | rfl | rfl | rfl <;>
      simp only [commandOffset, argumentOffset, eventEnableOffset, ringConsumerOffset, claimOffset] at hl <;> omega

/-- No block posts a word of a page buffer. -/
theorem not_postable_page (buf : Buffer) (word : Fin 480) : ¬Postable (buf.offset + 2 * word.val) := by
  rintro (⟨p, hp⟩ | ⟨l, hl⟩)
  · cases buf <;> cases p <;> simp only [Buffer.offset, PartWord.offset] at hp <;> omega
  · cases buf <;> simp only [Buffer.offset, claimOffset] at hl <;> omega

/-- A lawful post list holds no post of a word that no block posts. -/
theorem PostsLawful.hasPost_false {s : State} (h : PostsLawful s) {off : Nat} (ho : ¬Postable off) : hasPost s off = false := by
  by_contra hc
  obtain ⟨p, hp, rfl⟩ := hasPost_iff.1 (by simpa using hc)
  exact ho (h.2 p hp)

/-- The law of the post list depends on the list alone. -/
theorem PostsLawful.congr {s t : State} (h : PostsLawful s) (e : t.bus.posts = s.bus.posts) : PostsLawful t := by
  simpa [PostsLawful, e] using h

theorem PostsLawful.postAll {s : State} (h : PostsLawful s) {ps : List (Nat × Word)} (hp : ∀ p ∈ ps, Postable p.1) :
    PostsLawful (postAll ps s) := by
  induction ps generalizing s with
  | nil => exact h
  | cons p ps ih =>
    exact ih (h.post (hp p (by simp)) _) fun q hq => hp q (by simp [hq])

/-! ### Draining (R12, R13) -/

/-- What is left of the list after draining to a word is a tail of it. -/
theorem drainTo_suffix (base off : Nat) (ps : List Post) (m : Memory) : (drainTo base off ps m).1 <:+ ps := by
  induction ps generalizing m with
  | nil => exact List.suffix_rfl
  | cons p ps ih =>
    unfold drainTo
    split
    · exact List.suffix_cons _ _
    · exact (ih _).trans (List.suffix_cons _ _)

/-- With one entry for a word at most, none is left after draining to it. -/
theorem drainTo_gone {base off : Nat} {ps : List Post} (h : (ps.map Post.offset).Nodup) (m : Memory) :
    ∀ p ∈ (drainTo base off ps m).1, p.offset ≠ off := by
  induction ps generalizing m with
  | nil => simp [drainTo]
  | cons q ps ih =>
    simp only [List.map_cons, List.nodup_cons] at h
    unfold drainTo
    split
    · rename_i hq
      intro p hp e
      exact h.1 (List.mem_map.2 ⟨p, hp, e.trans hq.symm⟩)
    · exact ih h.2 _

/-- A byte that no drained entry covers keeps its value and its parity. -/
theorem drainTo_away {base off : Nat} {ps : List Post} {m : Memory} (hm : m.wf = true) {a : Nat}
    (h : ∀ p ∈ ps, p ∉ (drainTo base off ps m).1 → a ≠ base + p.offset ∧ a ≠ base + p.offset + 1)
    (hn : (ps.map Post.offset).Nodup) :
    (drainTo base off ps m).2.byte a = m.byte a ∧ (drainTo base off ps m).2.par a = m.par a := by
  induction ps generalizing m with
  | nil => simp [drainTo]
  | cons q ps ih =>
    simp only [List.map_cons, List.nodup_cons] at hn
    have hq : q ∉ (drainTo base off (q :: ps) m).1 := by
      unfold drainTo
      split
      · exact fun hq => hn.1 (List.mem_map.2 ⟨q, hq, rfl⟩)
      · exact fun hq => hn.1 (List.mem_map.2 ⟨q, (drainTo_suffix _ _ _ _).subset hq, rfl⟩)
    obtain ⟨h1, h2⟩ := h q (by simp) hq
    unfold drainTo at h ⊢
    split
    · simp [writePost, Memory.byte_storeWord hm, Memory.par_storeWord hm, h1, h2]
    · rename_i hne
      simp only [hne, if_false] at h
      have := ih (m := writePost base q m) (wf_writePost hm _ _) (fun p hp hp' => h p (by simp [hp]) hp') hn.2
      rw [this.1, this.2]
      simp [writePost, Memory.byte_storeWord hm, Memory.par_storeWord hm, h1, h2]

@[simp] theorem waitForPost_none {off : Nat} {s : State} (h : hasPost s off = false) : waitForPost off s = s := by
  simp [waitForPost, h]

theorem PostsLawful.wait {s : State} (h : PostsLawful s) (off : Nat) : PostsLawful (waitForPost off s) := by
  unfold waitForPost
  split
  · have hs := drainTo_suffix (areaBase s) off s.bus.posts s.mem
    exact ⟨h.1.sublist (hs.sublist.map _), fun p hp => h.2 p (hs.subset hp)⟩
  · exact h

theorem hasPost_wait {s : State} (h : PostsLawful s) (off : Nat) : hasPost (waitForPost off s) off = false := by
  by_cases hp : hasPost s off = true
  · rw [Bool.eq_false_iff, Ne, hasPost_iff]
    rintro ⟨p, hp', e⟩
    simp only [waitForPost, hp, if_true, servedPart_bus] at hp'
    exact drainTo_gone h.1 _ p hp' e
  · simp only [Bool.not_eq_true] at hp
    simp [hp]

theorem PostsLawful.drainHead {s : State} (h : PostsLawful s) : PostsLawful (drainHead s) := by
  unfold Machine.drainHead
  split
  · exact h
  · rename_i p ps e
    have h1 := h.1
    have h2 := h.2
    rw [e] at h1 h2
    simp only [List.map_cons, List.nodup_cons] at h1
    exact ⟨h1.2, fun q hq => h2 q (List.mem_cons_of_mem p hq)⟩

theorem PostsLawful.forwardArea {s : State} (h : PostsLawful s) (off : Nat) (w : HostWrite) :
    PostsLawful (forwardArea off w s) := (h.wait off).congr rfl

theorem PostsLawful.forwardAddr {s : State} (h : PostsLawful s) (a : Nat) (w : HostWrite) :
    PostsLawful (forwardAddr a w s) := by
  unfold Machine.forwardAddr
  split
  · exact h.forwardArea _ _
  · exact h.congr rfl

/-! ### Host reads (R2, R3, R13) -/

theorem PostsLawful.readArea {s : State} (h : PostsLawful s) (off : Nat) (lo hi : Bool) : PostsLawful (readArea off lo hi s) :=
  (h.wait off).congr rfl

theorem PostsLawful.readAddr {s : State} (h : PostsLawful s) (a : Nat) (lo hi : Bool) : PostsLawful (readAddr a lo hi s) := by
  unfold Machine.readAddr
  split
  · exact h.readArea _ lo hi
  · exact h.congr rfl

/-- No post of the word is pending once the read has been served. -/
theorem hasPost_readArea {s : State} (h : PostsLawful s) (off : Nat) (lo hi : Bool) : hasPost (readArea off lo hi s) off = false :=
  hasPost_wait h off

/-- A read of a word with no pending post changes the host's data and the arbiter alone. -/
theorem readArea_none {s : State} {off : Nat} (h : hasPost s off = false) (lo hi : Bool) :
    readArea off lo hi s = readAt (areaBase s + off) lo hi s := by simp [readArea, h]

/-- What a read returns is what memory holds after it. -/
theorem readAt_returns (a : Nat) (lo hi : Bool) (s : State) :
    (readAt a lo hi s).bus.hostRead = some (hostReadOf a lo hi (readAt a lo hi s)) := rfl

/-- A host write of a part-owned word in OFF does one of two things: it waits for a pending post of the word, or, where one is pending and
the part keeps R6, it is served at once (log 29). -/
theorem offWrite_or (off : Nat) (w : HostWrite) (s : State) :
    offWrite off w s = forwardArea off w s ∨ hasPost s off = true ∧ Config.offWriteWaits = false ∧ offWrite off w s = storeArea off w s := by
  unfold offWrite
  split
  · rename_i h
    exact .inr ⟨h.1, h.2, rfl⟩
  · exact .inl rfl

end Sys2Proof.Machine
end

