-- ==== Sys2Proof/Laws/Frames.lean ====
section
/-! SUPPORT. What the work on segments, strokes and jobs leaves alone (`still`), and what posting and the end of an event leave alone (`shape`, `firm`): one lemma for each shared operation, and the fields of the ones that statements meet. -/

namespace Sys2Proof.Machine

/-! ### Work: everything but the segments, the queue, the records and the converter -/

/-- The part of the state that work on segments, strokes and jobs leaves alone; of what an event owes, all but the mirror words. -/
structure Still where
  mem : Memory
  pins : Pins
  bus : BusPass
  gate : SupplyGate
  touch : TouchUnit
  claims : ClaimTable
  engine : Engine
  events : EventUnit
  chime : Chime
  results : List Word
  owesPending : Bool
  pending : List Instr

/-- The part of the state that work leaves alone. -/
def State.still (s : State) : Still :=
  ⟨s.mem, s.pins, s.bus, s.gate, s.touch, s.claims, s.engine, s.events, s.chime, s.owed.results, s.owed.pending, s.pending⟩

@[simp] theorem setSeg_still (i : SegNo) (r : Segment) (s : State) : (setSeg i r s).still = s.still := rfl
@[simp] theorem setQueue_still (q : Queue) (s : State) : (setQueue q s).still = s.still := rfl
@[simp] theorem setAsm_still (a : Option Assembly) (s : State) : (setAsm a s).still = s.still := rfl
@[simp] theorem setStroke_still (u : StrokeUnit) (s : State) : (setStroke u s).still = s.still := rfl
@[simp] theorem setConv_still (c : Converter) (s : State) : (setConv c s).still = s.still := rfl
@[simp] theorem startRecharge_still (s : State) : (startRecharge s).still = s.still := rfl
@[simp] theorem grant_still (j : Job) (s : State) : (grant j s).still = s.still := rfl
@[simp] theorem oweMirror_still (i : SegNo) (s : State) : (oweMirror i s).still = s.still := rfl
@[simp] theorem freeJob_still (s : State) : (freeJob s).still = s.still := rfl
@[simp] theorem markDone_still (i : SegNo) (s : State) : (markDone i s).still = s.still := rfl

theorem foldl_still {α : Type} {f : State → α → State} (h : ∀ s x, (f s x).still = s.still) (l : List α) (s : State) :
    (l.foldl f s).still = s.still := by
  induction l generalizing s with
  | nil => rfl
  | cons x l ih => exact (ih _).trans (h s x)

@[simp] theorem sync_still (e : QueueEnd) (i : SegNo) (s : State) : (sync e i s).still = s.still := by
  unfold sync
  split
  · split <;> rfl
  · rfl

@[simp] theorem putSeg_still (e : QueueEnd) (i : SegNo) (r : Segment) (s : State) : (putSeg e i r s).still = s.still := by
  simp [putSeg]

@[simp] theorem syncTail_still (is : List SegNo) (s : State) : (syncTail is s).still = s.still :=
  foldl_still (fun s i => sync_still .tail i s) is s

@[simp] theorem syncHead_still (is : List SegNo) (s : State) : (syncHead is s).still = s.still :=
  foldl_still (fun s i => sync_still .head i s) is.reverse s

@[simp] theorem setStates_still (st : SegState) (is : List SegNo) (s : State) : (setStates st is s).still = s.still :=
  foldl_still (f := fun s i => setSeg i { s.seg i with state := st } s) (fun _ _ => rfl) is s

@[simp] theorem mapSegs_still (f : Segment → Segment) (is : List SegNo) (s : State) : (mapSegs f is s).still = s.still :=
  foldl_still (f := fun s i => setSeg i (f (s.seg i)) s) (fun _ _ => rfl) is s

@[simp] theorem noteForgotten_still (i : SegNo) (s : State) : (noteForgotten i s).still = s.still := by
  unfold noteForgotten
  split
  · rfl
  · split
    · rfl
    · split <;> rfl

@[simp] theorem noteIfDiscarded_still (i : SegNo) (s : State) : (noteIfDiscarded i s).still = s.still := by
  unfold noteIfDiscarded
  split <;> simp

@[simp] theorem walkEnd_still (a : Assembly) (s : State) : (walkEnd a s).still = s.still := by
  unfold walkEnd
  split <;> rfl

@[simp] theorem captureStart_still (i : SegNo) (s : State) : (captureStart i s).still = s.still := by
  unfold captureStart
  split <;> simp

@[simp] theorem keepClean_still (i : SegNo) (s : State) : (keepClean i s).still = s.still := rfl

@[simp] theorem captureStore_still (s : State) : (captureStore s).still = s.still := by
  unfold captureStore
  split
  · rfl
  · split
    · rfl
    · split <;> simp

@[simp] theorem captureNone_still (i : SegNo) (s : State) : (captureNone i s).still = s.still := by simp [captureNone]

@[simp] theorem walkOn_still (n : Nat) (s : State) : (walkOn n s).still = s.still := by
  induction n generalizing s with
  | zero => rfl
  | succ n ih =>
    unfold walkOn
    split
    · rfl
    · split
      · simp
      · split
        · simp
        · split
          · simp only
            split <;> simp [ih]
          · simp [ih]

@[simp] theorem walkFromMark_still (s : State) : (walkFromMark s).still = s.still := walkOn_still _ s

@[simp] theorem startWalk_still (s : State) : (startWalk s).still = s.still := by simp [startWalk]

@[simp] theorem driveStart_still (s : State) : (driveStart s).still = s.still := by
  unfold driveStart
  split
  · rfl
  · simp only
    split <;> simp

@[simp] theorem driveExpires_still (s : State) : (driveExpires s).still = s.still := by
  unfold driveExpires
  split
  · rfl
  · split <;> simp

@[simp] theorem touchStroke_still (l : LineNo) (s : State) : (touchStroke l s).still = s.still := by
  unfold touchStroke
  split <;> simp

@[simp] theorem touchJob_still (l : LineNo) (s : State) : (touchJob l s).still = s.still := by
  unfold touchJob
  split
  · rfl
  · split <;> simp

@[simp] theorem abortMember_still (m : Member) (s : State) : (abortMember m s).still = s.still := by
  unfold abortMember
  simp only
  split <;> simp

@[simp] theorem abortMembers_still (ms : List Member) (s : State) :
    (ms.foldl (fun s m => abortMember m s) s).still = s.still :=
  foldl_still (fun s m => abortMember_still m s) ms s

@[simp] theorem abortDrive_still (s : State) : (abortDrive s).still = s.still := by
  unfold abortDrive
  split
  · rfl
  · split <;> simp

@[simp] theorem stopStroke_still (s : State) : (stopStroke s).still = s.still := by
  unfold stopStroke
  split
  · rfl
  · simp only
    split <;> simp

@[simp] theorem startSweep_still (i : SegNo) (s : State) : (startSweep i s).still = s.still := by simp [startSweep]

@[simp] theorem startSense_still (i : SegNo) (s : State) : (startSense i s).still = s.still := by
  unfold startSense
  simp only [grant_still]
  split <;> simp

@[simp] theorem judgeGrant_still (s : State) : (judgeGrant s).still = s.still := by
  unfold judgeGrant
  split
  · split
    · simp
    · split <;> simp
  · rfl

@[simp] theorem workRound_still (s : State) : (workRound s).still = s.still := by
  unfold workRound
  split
  · simp
  · split <;> simp

@[simp] theorem judgeWork_still (s : State) : (judgeWork s).still = s.still := by
  simp [judgeWork, Nat.repeat]

@[simp] theorem judge_still (s : State) : (judge s).still = s.still := by simp [judge]

@[simp] theorem captureEnd_still (i : SegNo) (s : State) : (captureEnd i s).still = s.still := by
  unfold captureEnd
  simp only
  split <;> simp

@[simp] theorem sweepUntouched_still (j : Job) (i : SegNo) (s : State) : (sweepUntouched j i s).still = s.still := by
  simp [sweepUntouched]

@[simp] theorem sweepTouched_still (i : SegNo) (s : State) : (sweepTouched i s).still = s.still := by simp [sweepTouched]

@[simp] theorem senseTouched_still (j : Job) (i : SegNo) (s : State) : (senseTouched j i s).still = s.still := by
  simp [senseTouched]

@[simp] theorem settleExpires_still (s : State) : (settleExpires s).still = s.still := by
  unfold settleExpires
  split
  · rfl
  · split <;> simp

@[simp] theorem rechargeExpires_still (s : State) : (rechargeExpires s).still = s.still := by
  unfold rechargeExpires
  split <;> simp

@[simp] theorem removeMember_still (i : SegNo) (s : State) : (removeMember i s).still = s.still := by
  unfold removeMember
  split <;> simp

@[simp] theorem forgetSeg_still (i : SegNo) (s : State) : (forgetSeg i s).still = s.still := by simp [forgetSeg]

@[simp] theorem discardSeg_still (i : SegNo) (s : State) : (discardSeg i s).still = s.still := by
  unfold discardSeg
  split <;> simp

@[simp] theorem dropEmptyRecord_still (s : State) : (dropEmptyRecord s).still = s.still := by
  unfold dropEmptyRecord
  split
  · rfl
  · split <;> simp

@[simp] theorem discardEffect_still (is : List SegNo) (s : State) : (discardEffect is s).still = s.still := by
  simp only [discardEffect, dropEmptyRecord_still, syncTail_still]
  exact foldl_still (fun s i => discardSeg_still i s) is s

theorem still_mem {s t : State} (h : t.still = s.still) : t.mem = s.mem := congrArg Still.mem h
theorem still_pins {s t : State} (h : t.still = s.still) : t.pins = s.pins := congrArg Still.pins h
theorem still_bus {s t : State} (h : t.still = s.still) : t.bus = s.bus := congrArg Still.bus h
theorem still_gate {s t : State} (h : t.still = s.still) : t.gate = s.gate := congrArg Still.gate h
theorem still_touch {s t : State} (h : t.still = s.still) : t.touch = s.touch := congrArg Still.touch h
theorem still_claims {s t : State} (h : t.still = s.still) : t.claims = s.claims := congrArg Still.claims h
theorem still_engine {s t : State} (h : t.still = s.still) : t.engine = s.engine := congrArg Still.engine h
theorem still_events {s t : State} (h : t.still = s.still) : t.events = s.events := congrArg Still.events h
theorem still_chime {s t : State} (h : t.still = s.still) : t.chime = s.chime := congrArg Still.chime h
theorem still_results {s t : State} (h : t.still = s.still) : t.owed.results = s.owed.results := congrArg Still.results h
theorem still_owesPending {s t : State} (h : t.still = s.still) : t.owed.pending = s.owed.pending := congrArg Still.owesPending h
theorem still_pending {s t : State} (h : t.still = s.still) : t.pending = s.pending := congrArg Still.pending h

@[simp] theorem putSeg_mem (e : QueueEnd) (i : SegNo) (r : Segment) (s : State) : (putSeg e i r s).mem = s.mem := congrArg Still.mem (putSeg_still e i r s)
@[simp] theorem putSeg_pins (e : QueueEnd) (i : SegNo) (r : Segment) (s : State) : (putSeg e i r s).pins = s.pins := congrArg Still.pins (putSeg_still e i r s)
@[simp] theorem putSeg_bus (e : QueueEnd) (i : SegNo) (r : Segment) (s : State) : (putSeg e i r s).bus = s.bus := congrArg Still.bus (putSeg_still e i r s)
@[simp] theorem putSeg_gate (e : QueueEnd) (i : SegNo) (r : Segment) (s : State) : (putSeg e i r s).gate = s.gate := congrArg Still.gate (putSeg_still e i r s)
@[simp] theorem putSeg_touch (e : QueueEnd) (i : SegNo) (r : Segment) (s : State) : (putSeg e i r s).touch = s.touch := congrArg Still.touch (putSeg_still e i r s)
@[simp] theorem putSeg_claims (e : QueueEnd) (i : SegNo) (r : Segment) (s : State) : (putSeg e i r s).claims = s.claims := congrArg Still.claims (putSeg_still e i r s)
@[simp] theorem putSeg_engine (e : QueueEnd) (i : SegNo) (r : Segment) (s : State) : (putSeg e i r s).engine = s.engine := congrArg Still.engine (putSeg_still e i r s)
@[simp] theorem putSeg_events (e : QueueEnd) (i : SegNo) (r : Segment) (s : State) : (putSeg e i r s).events = s.events := congrArg Still.events (putSeg_still e i r s)
@[simp] theorem putSeg_chime (e : QueueEnd) (i : SegNo) (r : Segment) (s : State) : (putSeg e i r s).chime = s.chime := congrArg Still.chime (putSeg_still e i r s)
@[simp] theorem putSeg_results (e : QueueEnd) (i : SegNo) (r : Segment) (s : State) : (putSeg e i r s).owed.results = s.owed.results := congrArg Still.results (putSeg_still e i r s)
@[simp] theorem putSeg_owesPending (e : QueueEnd) (i : SegNo) (r : Segment) (s : State) : (putSeg e i r s).owed.pending = s.owed.pending := congrArg Still.owesPending (putSeg_still e i r s)
@[simp] theorem putSeg_pending (e : QueueEnd) (i : SegNo) (r : Segment) (s : State) : (putSeg e i r s).pending = s.pending := congrArg Still.pending (putSeg_still e i r s)
@[simp] theorem putSeg_claim (e : QueueEnd) (i : SegNo) (r : Segment) (s : State) (k : LineNo) : (putSeg e i r s).claim k = s.claim k := by simp [State.claim]
@[simp] theorem putSeg_touchLine (e : QueueEnd) (i : SegNo) (r : Segment) (s : State) (k : LineNo) : (putSeg e i r s).touchLine k = s.touchLine k := by simp [State.touchLine]
@[simp] theorem putSeg_areaBase (e : QueueEnd) (i : SegNo) (r : Segment) (s : State) : areaBase (putSeg e i r s) = areaBase s := by simp [areaBase]

@[simp] theorem syncTail_mem (is : List SegNo) (s : State) : (syncTail is s).mem = s.mem := congrArg Still.mem (syncTail_still is s)
@[simp] theorem syncTail_pins (is : List SegNo) (s : State) : (syncTail is s).pins = s.pins := congrArg Still.pins (syncTail_still is s)
@[simp] theorem syncTail_bus (is : List SegNo) (s : State) : (syncTail is s).bus = s.bus := congrArg Still.bus (syncTail_still is s)
@[simp] theorem syncTail_gate (is : List SegNo) (s : State) : (syncTail is s).gate = s.gate := congrArg Still.gate (syncTail_still is s)
@[simp] theorem syncTail_touch (is : List SegNo) (s : State) : (syncTail is s).touch = s.touch := congrArg Still.touch (syncTail_still is s)
@[simp] theorem syncTail_claims (is : List SegNo) (s : State) : (syncTail is s).claims = s.claims := congrArg Still.claims (syncTail_still is s)
@[simp] theorem syncTail_engine (is : List SegNo) (s : State) : (syncTail is s).engine = s.engine := congrArg Still.engine (syncTail_still is s)
@[simp] theorem syncTail_events (is : List SegNo) (s : State) : (syncTail is s).events = s.events := congrArg Still.events (syncTail_still is s)
@[simp] theorem syncTail_chime (is : List SegNo) (s : State) : (syncTail is s).chime = s.chime := congrArg Still.chime (syncTail_still is s)
@[simp] theorem syncTail_results (is : List SegNo) (s : State) : (syncTail is s).owed.results = s.owed.results := congrArg Still.results (syncTail_still is s)
@[simp] theorem syncTail_owesPending (is : List SegNo) (s : State) : (syncTail is s).owed.pending = s.owed.pending := congrArg Still.owesPending (syncTail_still is s)
@[simp] theorem syncTail_pending (is : List SegNo) (s : State) : (syncTail is s).pending = s.pending := congrArg Still.pending (syncTail_still is s)
@[simp] theorem syncTail_claim (is : List SegNo) (s : State) (k : LineNo) : (syncTail is s).claim k = s.claim k := by simp [State.claim]
@[simp] theorem syncTail_touchLine (is : List SegNo) (s : State) (k : LineNo) : (syncTail is s).touchLine k = s.touchLine k := by simp [State.touchLine]
@[simp] theorem syncTail_areaBase (is : List SegNo) (s : State) : areaBase (syncTail is s) = areaBase s := by simp [areaBase]

@[simp] theorem syncHead_mem (is : List SegNo) (s : State) : (syncHead is s).mem = s.mem := congrArg Still.mem (syncHead_still is s)
@[simp] theorem syncHead_pins (is : List SegNo) (s : State) : (syncHead is s).pins = s.pins := congrArg Still.pins (syncHead_still is s)
@[simp] theorem syncHead_bus (is : List SegNo) (s : State) : (syncHead is s).bus = s.bus := congrArg Still.bus (syncHead_still is s)
@[simp] theorem syncHead_gate (is : List SegNo) (s : State) : (syncHead is s).gate = s.gate := congrArg Still.gate (syncHead_still is s)
@[simp] theorem syncHead_touch (is : List SegNo) (s : State) : (syncHead is s).touch = s.touch := congrArg Still.touch (syncHead_still is s)
@[simp] theorem syncHead_claims (is : List SegNo) (s : State) : (syncHead is s).claims = s.claims := congrArg Still.claims (syncHead_still is s)
@[simp] theorem syncHead_engine (is : List SegNo) (s : State) : (syncHead is s).engine = s.engine := congrArg Still.engine (syncHead_still is s)
@[simp] theorem syncHead_events (is : List SegNo) (s : State) : (syncHead is s).events = s.events := congrArg Still.events (syncHead_still is s)
@[simp] theorem syncHead_chime (is : List SegNo) (s : State) : (syncHead is s).chime = s.chime := congrArg Still.chime (syncHead_still is s)
@[simp] theorem syncHead_results (is : List SegNo) (s : State) : (syncHead is s).owed.results = s.owed.results := congrArg Still.results (syncHead_still is s)
@[simp] theorem syncHead_owesPending (is : List SegNo) (s : State) : (syncHead is s).owed.pending = s.owed.pending := congrArg Still.owesPending (syncHead_still is s)
@[simp] theorem syncHead_pending (is : List SegNo) (s : State) : (syncHead is s).pending = s.pending := congrArg Still.pending (syncHead_still is s)
@[simp] theorem syncHead_claim (is : List SegNo) (s : State) (k : LineNo) : (syncHead is s).claim k = s.claim k := by simp [State.claim]
@[simp] theorem syncHead_touchLine (is : List SegNo) (s : State) (k : LineNo) : (syncHead is s).touchLine k = s.touchLine k := by simp [State.touchLine]
@[simp] theorem syncHead_areaBase (is : List SegNo) (s : State) : areaBase (syncHead is s) = areaBase s := by simp [areaBase]

@[simp] theorem mapSegs_mem (f : Segment → Segment) (is : List SegNo) (s : State) : (mapSegs f is s).mem = s.mem := congrArg Still.mem (mapSegs_still f is s)
@[simp] theorem mapSegs_pins (f : Segment → Segment) (is : List SegNo) (s : State) : (mapSegs f is s).pins = s.pins := congrArg Still.pins (mapSegs_still f is s)
@[simp] theorem mapSegs_bus (f : Segment → Segment) (is : List SegNo) (s : State) : (mapSegs f is s).bus = s.bus := congrArg Still.bus (mapSegs_still f is s)
@[simp] theorem mapSegs_gate (f : Segment → Segment) (is : List SegNo) (s : State) : (mapSegs f is s).gate = s.gate := congrArg Still.gate (mapSegs_still f is s)
@[simp] theorem mapSegs_touch (f : Segment → Segment) (is : List SegNo) (s : State) : (mapSegs f is s).touch = s.touch := congrArg Still.touch (mapSegs_still f is s)
@[simp] theorem mapSegs_claims (f : Segment → Segment) (is : List SegNo) (s : State) : (mapSegs f is s).claims = s.claims := congrArg Still.claims (mapSegs_still f is s)
@[simp] theorem mapSegs_engine (f : Segment → Segment) (is : List SegNo) (s : State) : (mapSegs f is s).engine = s.engine := congrArg Still.engine (mapSegs_still f is s)
@[simp] theorem mapSegs_events (f : Segment → Segment) (is : List SegNo) (s : State) : (mapSegs f is s).events = s.events := congrArg Still.events (mapSegs_still f is s)
@[simp] theorem mapSegs_chime (f : Segment → Segment) (is : List SegNo) (s : State) : (mapSegs f is s).chime = s.chime := congrArg Still.chime (mapSegs_still f is s)
@[simp] theorem mapSegs_results (f : Segment → Segment) (is : List SegNo) (s : State) : (mapSegs f is s).owed.results = s.owed.results := congrArg Still.results (mapSegs_still f is s)
@[simp] theorem mapSegs_owesPending (f : Segment → Segment) (is : List SegNo) (s : State) : (mapSegs f is s).owed.pending = s.owed.pending := congrArg Still.owesPending (mapSegs_still f is s)
@[simp] theorem mapSegs_pending (f : Segment → Segment) (is : List SegNo) (s : State) : (mapSegs f is s).pending = s.pending := congrArg Still.pending (mapSegs_still f is s)
@[simp] theorem mapSegs_claim (f : Segment → Segment) (is : List SegNo) (s : State) (k : LineNo) : (mapSegs f is s).claim k = s.claim k := by simp [State.claim]
@[simp] theorem mapSegs_touchLine (f : Segment → Segment) (is : List SegNo) (s : State) (k : LineNo) : (mapSegs f is s).touchLine k = s.touchLine k := by simp [State.touchLine]
@[simp] theorem mapSegs_areaBase (f : Segment → Segment) (is : List SegNo) (s : State) : areaBase (mapSegs f is s) = areaBase s := by simp [areaBase]

@[simp] theorem walkFromMark_mem (s : State) : (walkFromMark s).mem = s.mem := congrArg Still.mem (walkFromMark_still s)
@[simp] theorem walkFromMark_pins (s : State) : (walkFromMark s).pins = s.pins := congrArg Still.pins (walkFromMark_still s)
@[simp] theorem walkFromMark_bus (s : State) : (walkFromMark s).bus = s.bus := congrArg Still.bus (walkFromMark_still s)
@[simp] theorem walkFromMark_gate (s : State) : (walkFromMark s).gate = s.gate := congrArg Still.gate (walkFromMark_still s)
@[simp] theorem walkFromMark_touch (s : State) : (walkFromMark s).touch = s.touch := congrArg Still.touch (walkFromMark_still s)
@[simp] theorem walkFromMark_claims (s : State) : (walkFromMark s).claims = s.claims := congrArg Still.claims (walkFromMark_still s)
@[simp] theorem walkFromMark_engine (s : State) : (walkFromMark s).engine = s.engine := congrArg Still.engine (walkFromMark_still s)
@[simp] theorem walkFromMark_events (s : State) : (walkFromMark s).events = s.events := congrArg Still.events (walkFromMark_still s)
@[simp] theorem walkFromMark_chime (s : State) : (walkFromMark s).chime = s.chime := congrArg Still.chime (walkFromMark_still s)
@[simp] theorem walkFromMark_results (s : State) : (walkFromMark s).owed.results = s.owed.results := congrArg Still.results (walkFromMark_still s)
@[simp] theorem walkFromMark_owesPending (s : State) : (walkFromMark s).owed.pending = s.owed.pending := congrArg Still.owesPending (walkFromMark_still s)
@[simp] theorem walkFromMark_pending (s : State) : (walkFromMark s).pending = s.pending := congrArg Still.pending (walkFromMark_still s)
@[simp] theorem walkFromMark_claim (s : State) (k : LineNo) : (walkFromMark s).claim k = s.claim k := by simp [State.claim]
@[simp] theorem walkFromMark_touchLine (s : State) (k : LineNo) : (walkFromMark s).touchLine k = s.touchLine k := by simp [State.touchLine]
@[simp] theorem walkFromMark_areaBase (s : State) : areaBase (walkFromMark s) = areaBase s := by simp [areaBase]

@[simp] theorem touchStroke_mem (l : LineNo) (s : State) : (touchStroke l s).mem = s.mem := congrArg Still.mem (touchStroke_still l s)
@[simp] theorem touchStroke_pins (l : LineNo) (s : State) : (touchStroke l s).pins = s.pins := congrArg Still.pins (touchStroke_still l s)
@[simp] theorem touchStroke_bus (l : LineNo) (s : State) : (touchStroke l s).bus = s.bus := congrArg Still.bus (touchStroke_still l s)
@[simp] theorem touchStroke_gate (l : LineNo) (s : State) : (touchStroke l s).gate = s.gate := congrArg Still.gate (touchStroke_still l s)
@[simp] theorem touchStroke_touch (l : LineNo) (s : State) : (touchStroke l s).touch = s.touch := congrArg Still.touch (touchStroke_still l s)
@[simp] theorem touchStroke_claims (l : LineNo) (s : State) : (touchStroke l s).claims = s.claims := congrArg Still.claims (touchStroke_still l s)
@[simp] theorem touchStroke_engine (l : LineNo) (s : State) : (touchStroke l s).engine = s.engine := congrArg Still.engine (touchStroke_still l s)
@[simp] theorem touchStroke_events (l : LineNo) (s : State) : (touchStroke l s).events = s.events := congrArg Still.events (touchStroke_still l s)
@[simp] theorem touchStroke_chime (l : LineNo) (s : State) : (touchStroke l s).chime = s.chime := congrArg Still.chime (touchStroke_still l s)
@[simp] theorem touchStroke_results (l : LineNo) (s : State) : (touchStroke l s).owed.results = s.owed.results := congrArg Still.results (touchStroke_still l s)
@[simp] theorem touchStroke_owesPending (l : LineNo) (s : State) : (touchStroke l s).owed.pending = s.owed.pending := congrArg Still.owesPending (touchStroke_still l s)
@[simp] theorem touchStroke_pending (l : LineNo) (s : State) : (touchStroke l s).pending = s.pending := congrArg Still.pending (touchStroke_still l s)
@[simp] theorem touchStroke_claim (l : LineNo) (s : State) (k : LineNo) : (touchStroke l s).claim k = s.claim k := by simp [State.claim]
@[simp] theorem touchStroke_touchLine (l : LineNo) (s : State) (k : LineNo) : (touchStroke l s).touchLine k = s.touchLine k := by simp [State.touchLine]
@[simp] theorem touchStroke_areaBase (l : LineNo) (s : State) : areaBase (touchStroke l s) = areaBase s := by simp [areaBase]

@[simp] theorem touchJob_mem (l : LineNo) (s : State) : (touchJob l s).mem = s.mem := congrArg Still.mem (touchJob_still l s)
@[simp] theorem touchJob_pins (l : LineNo) (s : State) : (touchJob l s).pins = s.pins := congrArg Still.pins (touchJob_still l s)
@[simp] theorem touchJob_bus (l : LineNo) (s : State) : (touchJob l s).bus = s.bus := congrArg Still.bus (touchJob_still l s)
@[simp] theorem touchJob_gate (l : LineNo) (s : State) : (touchJob l s).gate = s.gate := congrArg Still.gate (touchJob_still l s)
@[simp] theorem touchJob_touch (l : LineNo) (s : State) : (touchJob l s).touch = s.touch := congrArg Still.touch (touchJob_still l s)
@[simp] theorem touchJob_claims (l : LineNo) (s : State) : (touchJob l s).claims = s.claims := congrArg Still.claims (touchJob_still l s)
@[simp] theorem touchJob_engine (l : LineNo) (s : State) : (touchJob l s).engine = s.engine := congrArg Still.engine (touchJob_still l s)
@[simp] theorem touchJob_events (l : LineNo) (s : State) : (touchJob l s).events = s.events := congrArg Still.events (touchJob_still l s)
@[simp] theorem touchJob_chime (l : LineNo) (s : State) : (touchJob l s).chime = s.chime := congrArg Still.chime (touchJob_still l s)
@[simp] theorem touchJob_results (l : LineNo) (s : State) : (touchJob l s).owed.results = s.owed.results := congrArg Still.results (touchJob_still l s)
@[simp] theorem touchJob_owesPending (l : LineNo) (s : State) : (touchJob l s).owed.pending = s.owed.pending := congrArg Still.owesPending (touchJob_still l s)
@[simp] theorem touchJob_pending (l : LineNo) (s : State) : (touchJob l s).pending = s.pending := congrArg Still.pending (touchJob_still l s)
@[simp] theorem touchJob_claim (l : LineNo) (s : State) (k : LineNo) : (touchJob l s).claim k = s.claim k := by simp [State.claim]
@[simp] theorem touchJob_touchLine (l : LineNo) (s : State) (k : LineNo) : (touchJob l s).touchLine k = s.touchLine k := by simp [State.touchLine]
@[simp] theorem touchJob_areaBase (l : LineNo) (s : State) : areaBase (touchJob l s) = areaBase s := by simp [areaBase]

@[simp] theorem abortDrive_mem (s : State) : (abortDrive s).mem = s.mem := congrArg Still.mem (abortDrive_still s)
@[simp] theorem abortDrive_pins (s : State) : (abortDrive s).pins = s.pins := congrArg Still.pins (abortDrive_still s)
@[simp] theorem abortDrive_bus (s : State) : (abortDrive s).bus = s.bus := congrArg Still.bus (abortDrive_still s)
@[simp] theorem abortDrive_gate (s : State) : (abortDrive s).gate = s.gate := congrArg Still.gate (abortDrive_still s)
@[simp] theorem abortDrive_touch (s : State) : (abortDrive s).touch = s.touch := congrArg Still.touch (abortDrive_still s)
@[simp] theorem abortDrive_claims (s : State) : (abortDrive s).claims = s.claims := congrArg Still.claims (abortDrive_still s)
@[simp] theorem abortDrive_engine (s : State) : (abortDrive s).engine = s.engine := congrArg Still.engine (abortDrive_still s)
@[simp] theorem abortDrive_events (s : State) : (abortDrive s).events = s.events := congrArg Still.events (abortDrive_still s)
@[simp] theorem abortDrive_chime (s : State) : (abortDrive s).chime = s.chime := congrArg Still.chime (abortDrive_still s)
@[simp] theorem abortDrive_results (s : State) : (abortDrive s).owed.results = s.owed.results := congrArg Still.results (abortDrive_still s)
@[simp] theorem abortDrive_owesPending (s : State) : (abortDrive s).owed.pending = s.owed.pending := congrArg Still.owesPending (abortDrive_still s)
@[simp] theorem abortDrive_pending (s : State) : (abortDrive s).pending = s.pending := congrArg Still.pending (abortDrive_still s)
@[simp] theorem abortDrive_claim (s : State) (k : LineNo) : (abortDrive s).claim k = s.claim k := by simp [State.claim]
@[simp] theorem abortDrive_touchLine (s : State) (k : LineNo) : (abortDrive s).touchLine k = s.touchLine k := by simp [State.touchLine]
@[simp] theorem abortDrive_areaBase (s : State) : areaBase (abortDrive s) = areaBase s := by simp [areaBase]

@[simp] theorem stopStroke_mem (s : State) : (stopStroke s).mem = s.mem := congrArg Still.mem (stopStroke_still s)
@[simp] theorem stopStroke_pins (s : State) : (stopStroke s).pins = s.pins := congrArg Still.pins (stopStroke_still s)
@[simp] theorem stopStroke_bus (s : State) : (stopStroke s).bus = s.bus := congrArg Still.bus (stopStroke_still s)
@[simp] theorem stopStroke_gate (s : State) : (stopStroke s).gate = s.gate := congrArg Still.gate (stopStroke_still s)
@[simp] theorem stopStroke_touch (s : State) : (stopStroke s).touch = s.touch := congrArg Still.touch (stopStroke_still s)
@[simp] theorem stopStroke_claims (s : State) : (stopStroke s).claims = s.claims := congrArg Still.claims (stopStroke_still s)
@[simp] theorem stopStroke_engine (s : State) : (stopStroke s).engine = s.engine := congrArg Still.engine (stopStroke_still s)
@[simp] theorem stopStroke_events (s : State) : (stopStroke s).events = s.events := congrArg Still.events (stopStroke_still s)
@[simp] theorem stopStroke_chime (s : State) : (stopStroke s).chime = s.chime := congrArg Still.chime (stopStroke_still s)
@[simp] theorem stopStroke_results (s : State) : (stopStroke s).owed.results = s.owed.results := congrArg Still.results (stopStroke_still s)
@[simp] theorem stopStroke_owesPending (s : State) : (stopStroke s).owed.pending = s.owed.pending := congrArg Still.owesPending (stopStroke_still s)
@[simp] theorem stopStroke_pending (s : State) : (stopStroke s).pending = s.pending := congrArg Still.pending (stopStroke_still s)
@[simp] theorem stopStroke_claim (s : State) (k : LineNo) : (stopStroke s).claim k = s.claim k := by simp [State.claim]
@[simp] theorem stopStroke_touchLine (s : State) (k : LineNo) : (stopStroke s).touchLine k = s.touchLine k := by simp [State.touchLine]
@[simp] theorem stopStroke_areaBase (s : State) : areaBase (stopStroke s) = areaBase s := by simp [areaBase]

@[simp] theorem judge_mem (s : State) : (judge s).mem = s.mem := congrArg Still.mem (judge_still s)
@[simp] theorem judge_pins (s : State) : (judge s).pins = s.pins := congrArg Still.pins (judge_still s)
@[simp] theorem judge_bus (s : State) : (judge s).bus = s.bus := congrArg Still.bus (judge_still s)
@[simp] theorem judge_gate (s : State) : (judge s).gate = s.gate := congrArg Still.gate (judge_still s)
@[simp] theorem judge_touch (s : State) : (judge s).touch = s.touch := congrArg Still.touch (judge_still s)
@[simp] theorem judge_claims (s : State) : (judge s).claims = s.claims := congrArg Still.claims (judge_still s)
@[simp] theorem judge_engine (s : State) : (judge s).engine = s.engine := congrArg Still.engine (judge_still s)
@[simp] theorem judge_events (s : State) : (judge s).events = s.events := congrArg Still.events (judge_still s)
@[simp] theorem judge_chime (s : State) : (judge s).chime = s.chime := congrArg Still.chime (judge_still s)
@[simp] theorem judge_results (s : State) : (judge s).owed.results = s.owed.results := congrArg Still.results (judge_still s)
@[simp] theorem judge_owesPending (s : State) : (judge s).owed.pending = s.owed.pending := congrArg Still.owesPending (judge_still s)
@[simp] theorem judge_pending (s : State) : (judge s).pending = s.pending := congrArg Still.pending (judge_still s)
@[simp] theorem judge_claim (s : State) (k : LineNo) : (judge s).claim k = s.claim k := by simp [State.claim]
@[simp] theorem judge_touchLine (s : State) (k : LineNo) : (judge s).touchLine k = s.touchLine k := by simp [State.touchLine]
@[simp] theorem judge_areaBase (s : State) : areaBase (judge s) = areaBase s := by simp [areaBase]

@[simp] theorem discardEffect_mem (is : List SegNo) (s : State) : (discardEffect is s).mem = s.mem := congrArg Still.mem (discardEffect_still is s)
@[simp] theorem discardEffect_pins (is : List SegNo) (s : State) : (discardEffect is s).pins = s.pins := congrArg Still.pins (discardEffect_still is s)
@[simp] theorem discardEffect_bus (is : List SegNo) (s : State) : (discardEffect is s).bus = s.bus := congrArg Still.bus (discardEffect_still is s)
@[simp] theorem discardEffect_gate (is : List SegNo) (s : State) : (discardEffect is s).gate = s.gate := congrArg Still.gate (discardEffect_still is s)
@[simp] theorem discardEffect_touch (is : List SegNo) (s : State) : (discardEffect is s).touch = s.touch := congrArg Still.touch (discardEffect_still is s)
@[simp] theorem discardEffect_claims (is : List SegNo) (s : State) : (discardEffect is s).claims = s.claims := congrArg Still.claims (discardEffect_still is s)
@[simp] theorem discardEffect_engine (is : List SegNo) (s : State) : (discardEffect is s).engine = s.engine := congrArg Still.engine (discardEffect_still is s)
@[simp] theorem discardEffect_events (is : List SegNo) (s : State) : (discardEffect is s).events = s.events := congrArg Still.events (discardEffect_still is s)
@[simp] theorem discardEffect_chime (is : List SegNo) (s : State) : (discardEffect is s).chime = s.chime := congrArg Still.chime (discardEffect_still is s)
@[simp] theorem discardEffect_results (is : List SegNo) (s : State) : (discardEffect is s).owed.results = s.owed.results := congrArg Still.results (discardEffect_still is s)
@[simp] theorem discardEffect_owesPending (is : List SegNo) (s : State) : (discardEffect is s).owed.pending = s.owed.pending := congrArg Still.owesPending (discardEffect_still is s)
@[simp] theorem discardEffect_pending (is : List SegNo) (s : State) : (discardEffect is s).pending = s.pending := congrArg Still.pending (discardEffect_still is s)
@[simp] theorem discardEffect_claim (is : List SegNo) (s : State) (k : LineNo) : (discardEffect is s).claim k = s.claim k := by simp [State.claim]
@[simp] theorem discardEffect_touchLine (is : List SegNo) (s : State) (k : LineNo) : (discardEffect is s).touchLine k = s.touchLine k := by simp [State.touchLine]
@[simp] theorem discardEffect_areaBase (is : List SegNo) (s : State) : areaBase (discardEffect is s) = areaBase s := by simp [areaBase]

/-! ### Judging queue-ability: everything but the queue -/

/-- Judging queue-ability changes the queue alone. -/
theorem sync_eq (e : QueueEnd) (i : SegNo) (s : State) : sync e i s = setQueue (sync e i s).queue s := by
  unfold sync
  split
  · split <;> rfl
  · rfl

@[simp] theorem sync_segs (e : QueueEnd) (i : SegNo) (s : State) : (sync e i s).segs = s.segs := by rw [sync_eq]; rfl

@[simp] theorem sync_asm (e : QueueEnd) (i : SegNo) (s : State) : (sync e i s).asm = s.asm := by rw [sync_eq]; rfl

@[simp] theorem sync_stroke (e : QueueEnd) (i : SegNo) (s : State) : (sync e i s).stroke = s.stroke := by rw [sync_eq]; rfl

@[simp] theorem sync_conv (e : QueueEnd) (i : SegNo) (s : State) : (sync e i s).conv = s.conv := by rw [sync_eq]; rfl

@[simp] theorem sync_seg (e : QueueEnd) (i j : SegNo) (s : State) : (sync e i s).seg j = s.seg j := by rw [sync_eq]; rfl

theorem foldl_keeps {α β : Type} (p : State → β) {f : State → α → State} (h : ∀ s x, p (f s x) = p s) (l : List α) (s : State) :
    p (l.foldl f s) = p s := by
  induction l generalizing s with
  | nil => rfl
  | cons x l ih => exact (ih _).trans (h s x)

@[simp] theorem syncTail_segs (is : List SegNo) (s : State) : (syncTail is s).segs = s.segs :=
  foldl_keeps State.segs (fun s i => sync_segs .tail i s) is s

@[simp] theorem syncHead_segs (is : List SegNo) (s : State) : (syncHead is s).segs = s.segs :=
  foldl_keeps State.segs (fun s i => sync_segs .head i s) is.reverse s

@[simp] theorem syncTail_asm (is : List SegNo) (s : State) : (syncTail is s).asm = s.asm :=
  foldl_keeps State.asm (fun s i => sync_asm .tail i s) is s

@[simp] theorem syncHead_asm (is : List SegNo) (s : State) : (syncHead is s).asm = s.asm :=
  foldl_keeps State.asm (fun s i => sync_asm .head i s) is.reverse s

@[simp] theorem syncTail_stroke (is : List SegNo) (s : State) : (syncTail is s).stroke = s.stroke :=
  foldl_keeps State.stroke (fun s i => sync_stroke .tail i s) is s

@[simp] theorem syncHead_stroke (is : List SegNo) (s : State) : (syncHead is s).stroke = s.stroke :=
  foldl_keeps State.stroke (fun s i => sync_stroke .head i s) is.reverse s

@[simp] theorem syncTail_conv (is : List SegNo) (s : State) : (syncTail is s).conv = s.conv :=
  foldl_keeps State.conv (fun s i => sync_conv .tail i s) is s

@[simp] theorem syncHead_conv (is : List SegNo) (s : State) : (syncHead is s).conv = s.conv :=
  foldl_keeps State.conv (fun s i => sync_conv .head i s) is.reverse s

@[simp] theorem syncTail_seg (is : List SegNo) (s : State) (j : SegNo) : (syncTail is s).seg j = s.seg j := by
  simp [State.seg]

@[simp] theorem syncHead_seg (is : List SegNo) (s : State) (j : SegNo) : (syncHead is s).seg j = s.seg j := by
  simp [State.seg]

@[simp] theorem putSeg_asm (e : QueueEnd) (i : SegNo) (r : Segment) (s : State) : (putSeg e i r s).asm = s.asm := by simp [putSeg]

@[simp] theorem putSeg_stroke (e : QueueEnd) (i : SegNo) (r : Segment) (s : State) : (putSeg e i r s).stroke = s.stroke := by simp [putSeg]

@[simp] theorem putSeg_conv (e : QueueEnd) (i : SegNo) (r : Segment) (s : State) : (putSeg e i r s).conv = s.conv := by simp [putSeg]

@[simp] theorem putSeg_segs (e : QueueEnd) (i : SegNo) (r : Segment) (s : State) : (putSeg e i r s).segs = s.segs.set i r := by
  simp [putSeg]

theorem putSeg_seg (e : QueueEnd) (i j : SegNo) (r : Segment) (s : State) :
    (putSeg e i r s).seg j = if j = i then r else s.seg j := by simp [putSeg, seg_setSeg]

@[simp] theorem setStates_queue (st : SegState) (is : List SegNo) (s : State) : (setStates st is s).queue = s.queue :=
  foldl_keeps State.queue (f := fun s i => setSeg i { s.seg i with state := st } s) (fun _ _ => rfl) is s

@[simp] theorem mapSegs_queue (g : Segment → Segment) (is : List SegNo) (s : State) : (mapSegs g is s).queue = s.queue :=
  foldl_keeps State.queue (f := fun s i => setSeg i (g (s.seg i)) s) (fun _ _ => rfl) is s

@[simp] theorem setStates_asm (st : SegState) (is : List SegNo) (s : State) : (setStates st is s).asm = s.asm :=
  foldl_keeps State.asm (f := fun s i => setSeg i { s.seg i with state := st } s) (fun _ _ => rfl) is s

@[simp] theorem mapSegs_asm (g : Segment → Segment) (is : List SegNo) (s : State) : (mapSegs g is s).asm = s.asm :=
  foldl_keeps State.asm (f := fun s i => setSeg i (g (s.seg i)) s) (fun _ _ => rfl) is s

@[simp] theorem setStates_stroke (st : SegState) (is : List SegNo) (s : State) : (setStates st is s).stroke = s.stroke :=
  foldl_keeps State.stroke (f := fun s i => setSeg i { s.seg i with state := st } s) (fun _ _ => rfl) is s

@[simp] theorem mapSegs_stroke (g : Segment → Segment) (is : List SegNo) (s : State) : (mapSegs g is s).stroke = s.stroke :=
  foldl_keeps State.stroke (f := fun s i => setSeg i (g (s.seg i)) s) (fun _ _ => rfl) is s

@[simp] theorem setStates_conv (st : SegState) (is : List SegNo) (s : State) : (setStates st is s).conv = s.conv :=
  foldl_keeps State.conv (f := fun s i => setSeg i { s.seg i with state := st } s) (fun _ _ => rfl) is s

@[simp] theorem mapSegs_conv (g : Segment → Segment) (is : List SegNo) (s : State) : (mapSegs g is s).conv = s.conv :=
  foldl_keeps State.conv (f := fun s i => setSeg i (g (s.seg i)) s) (fun _ _ => rfl) is s

/-! ### Posting: everything but the post list, the pending set and what is owed -/

/-- The part of the state that posting, raising events and giving results leave alone. -/
structure Shape where
  mem : Memory
  pins : Pins
  segs : Vector Segment 96
  queue : Queue
  asm : Option Assembly
  stroke : StrokeUnit
  gate : SupplyGate
  conv : Converter
  touch : TouchUnit
  claims : ClaimTable
  engine : Engine
  chime : Chime
  pending : List Instr
  strap : BitVec 4
  argument : Word
  enable : Word
  arbiter : Arbiter
  hostRead : Option HostRead
  producer : BitVec 8
  consumer : BitVec 8

/-- The part of the state that posting leaves alone. -/
def State.shape (s : State) : Shape :=
  ⟨s.mem, s.pins, s.segs, s.queue, s.asm, s.stroke, s.gate, s.conv, s.touch, s.claims, s.engine, s.chime, s.pending,
    s.bus.strap, s.bus.argument, s.bus.enable, s.bus.arbiter, s.bus.hostRead, s.events.producer, s.events.consumer⟩

@[simp] theorem post_shape (o : Nat) (v : Word) (s : State) : (post o v s).shape = s.shape := rfl
@[simp] theorem raise_shape (e : Event) (s : State) : (raise e s).shape = s.shape := rfl
@[simp] theorem giveResult_shape (c : Byte) (r : ResultCode) (s : State) : (giveResult c r s).shape = s.shape := rfl
@[simp] theorem postStatus_shape (s : State) : (postStatus s).shape = s.shape := rfl
@[simp] theorem postProducer_shape (s : State) : (postProducer s).shape = s.shape := rfl
@[simp] theorem setEvents_shape (w : HostWrite) (s : State) : (setEvents w s).shape = s.shape := rfl
@[simp] theorem clearEvents_shape (w : HostWrite) (s : State) : (clearEvents w s).shape = s.shape := rfl

@[simp] theorem postAll_shape (ps : List (Nat × Word)) (s : State) : (postAll ps s).shape = s.shape :=
  foldl_keeps State.shape (f := fun s (p : Nat × Word) => post p.1 p.2 s) (fun _ _ => rfl) ps s

@[simp] theorem postMirrors_shape (is : List SegNo) (s : State) : (postMirrors is s).shape = s.shape :=
  foldl_keeps State.shape
    (f := fun s i => post (PartWord.offset (.mirror i)) (mirrorWord s.engine.shown (s.seg i)) s) (fun _ _ => rfl) is s

@[simp] theorem postResults_shape (s : State) : (postResults s).shape = s.shape :=
  foldl_keeps State.shape (f := fun s v => post (PartWord.offset .result) v s) (fun _ _ => rfl) s.owed.results s

@[simp] theorem postPending_shape (s : State) : (postPending s).shape = s.shape := by
  unfold postPending
  split <;> rfl

@[simp] theorem postStatusIf_shape (b s : State) : (postStatusIf b s).shape = s.shape := by
  unfold postStatusIf
  split <;> simp

@[simp] theorem closePosts_shape (b s : State) : (closePosts b s).shape = s.shape := by simp [closePosts]

@[simp] theorem refuse_shape (c : Byte) (r : ResultCode) (s : State) : (refuse c r s).shape = s.shape := by simp [refuse]

@[simp] theorem dropWrite_shape (off : Nat) (s : State) : (dropWrite off s).shape = s.shape := by simp [dropWrite]

/-! ### The end of an event: what judging the settled page and posting leave alone -/

/-- The part of the state that the end of an event leaves alone. -/
structure Firm where
  mem : Memory
  pins : Pins
  segs : Vector Segment 96
  queue : Queue
  asm : Option Assembly
  stroke : StrokeUnit
  gate : SupplyGate
  conv : Converter
  touch : TouchUnit
  claims : ClaimTable
  pending : List Instr
  strap : BitVec 4
  argument : Word
  enable : Word
  arbiter : Arbiter
  hostRead : Option HostRead
  engineState : EngineState
  copy : Vector Byte 32
  shown : Shown
  startOut : Bool
  reading : Option (List Word)
  producer : BitVec 8
  consumer : BitVec 8

/-- The part of the state that the end of an event leaves alone. -/
def State.firm (s : State) : Firm :=
  ⟨s.mem, s.pins, s.segs, s.queue, s.asm, s.stroke, s.gate, s.conv, s.touch, s.claims, s.pending,
    s.bus.strap, s.bus.argument, s.bus.enable, s.bus.arbiter, s.bus.hostRead,
    s.engine.state, s.engine.copy, s.engine.shown, s.engine.startOut, s.engine.reading, s.events.producer, s.events.consumer⟩

theorem firm_of_shape {s t : State} (h : t.shape = s.shape) : t.firm = s.firm := by
  simp only [State.shape, Shape.mk.injEq] at h
  simp [State.firm, h]

@[simp] theorem requestPageTone_firm (s : State) : (requestPageTone s).firm = s.firm := by
  unfold requestPageTone
  split
  · split <;> rfl
  · rfl

@[simp] theorem requestFaultTone_firm (s : State) : (requestFaultTone s).firm = s.firm := by
  unfold requestFaultTone
  split
  · split <;> rfl
  · rfl

@[simp] theorem requestSilence_firm (s : State) : (requestSilence s).firm = s.firm := by
  unfold requestSilence
  split <;> rfl

@[simp] theorem pageSettles_firm (s : State) : (pageSettles s).firm = s.firm := by
  unfold pageSettles
  simp only
  split
  · exact (requestPageTone_firm _).trans rfl
  · rfl

@[simp] theorem judgeSettled_firm (b : Bool) (u s : State) : (judgeSettled b u s).firm = s.firm := by
  unfold judgeSettled
  split
  · split <;> simp
  · split <;> rfl

@[simp] theorem closeEvent_firm (b s : State) : (closeEvent b s).firm = s.firm := by
  simp only [closeEvent, firm_of_shape (closePosts_shape _ _), judgeSettled_firm]

@[simp] theorem closeShow_firm (b s : State) : (closeShow b s).firm = s.firm := by
  simp only [closeShow, firm_of_shape (closePosts_shape _ _), judgeSettled_firm]

@[simp] theorem refuse_mem (c : Byte) (r : ResultCode) (s : State) : (refuse c r s).mem = s.mem := congrArg Shape.mem (refuse_shape c r s)
@[simp] theorem refuse_pins (c : Byte) (r : ResultCode) (s : State) : (refuse c r s).pins = s.pins := congrArg Shape.pins (refuse_shape c r s)
@[simp] theorem refuse_segs (c : Byte) (r : ResultCode) (s : State) : (refuse c r s).segs = s.segs := congrArg Shape.segs (refuse_shape c r s)
@[simp] theorem refuse_queue (c : Byte) (r : ResultCode) (s : State) : (refuse c r s).queue = s.queue := congrArg Shape.queue (refuse_shape c r s)
@[simp] theorem refuse_asm (c : Byte) (r : ResultCode) (s : State) : (refuse c r s).asm = s.asm := congrArg Shape.asm (refuse_shape c r s)
@[simp] theorem refuse_stroke (c : Byte) (r : ResultCode) (s : State) : (refuse c r s).stroke = s.stroke := congrArg Shape.stroke (refuse_shape c r s)
@[simp] theorem refuse_gate (c : Byte) (r : ResultCode) (s : State) : (refuse c r s).gate = s.gate := congrArg Shape.gate (refuse_shape c r s)
@[simp] theorem refuse_conv (c : Byte) (r : ResultCode) (s : State) : (refuse c r s).conv = s.conv := congrArg Shape.conv (refuse_shape c r s)
@[simp] theorem refuse_touch (c : Byte) (r : ResultCode) (s : State) : (refuse c r s).touch = s.touch := congrArg Shape.touch (refuse_shape c r s)
@[simp] theorem refuse_claims (c : Byte) (r : ResultCode) (s : State) : (refuse c r s).claims = s.claims := congrArg Shape.claims (refuse_shape c r s)
@[simp] theorem refuse_engine (c : Byte) (r : ResultCode) (s : State) : (refuse c r s).engine = s.engine := congrArg Shape.engine (refuse_shape c r s)
@[simp] theorem refuse_chime (c : Byte) (r : ResultCode) (s : State) : (refuse c r s).chime = s.chime := congrArg Shape.chime (refuse_shape c r s)
@[simp] theorem refuse_pending (c : Byte) (r : ResultCode) (s : State) : (refuse c r s).pending = s.pending := congrArg Shape.pending (refuse_shape c r s)
@[simp] theorem refuse_bus_strap (c : Byte) (r : ResultCode) (s : State) : (refuse c r s).bus.strap = s.bus.strap :=
  congrArg Shape.strap (refuse_shape c r s)
@[simp] theorem refuse_bus_argument (c : Byte) (r : ResultCode) (s : State) : (refuse c r s).bus.argument = s.bus.argument :=
  congrArg Shape.argument (refuse_shape c r s)
@[simp] theorem refuse_bus_enable (c : Byte) (r : ResultCode) (s : State) : (refuse c r s).bus.enable = s.bus.enable :=
  congrArg Shape.enable (refuse_shape c r s)
@[simp] theorem refuse_bus_arbiter (c : Byte) (r : ResultCode) (s : State) : (refuse c r s).bus.arbiter = s.bus.arbiter :=
  congrArg Shape.arbiter (refuse_shape c r s)
@[simp] theorem refuse_bus_hostRead (c : Byte) (r : ResultCode) (s : State) : (refuse c r s).bus.hostRead = s.bus.hostRead :=
  congrArg Shape.hostRead (refuse_shape c r s)
@[simp] theorem refuse_producer (c : Byte) (r : ResultCode) (s : State) : (refuse c r s).events.producer = s.events.producer :=
  congrArg Shape.producer (refuse_shape c r s)
@[simp] theorem refuse_consumer (c : Byte) (r : ResultCode) (s : State) : (refuse c r s).events.consumer = s.events.consumer :=
  congrArg Shape.consumer (refuse_shape c r s)
@[simp] theorem refuse_seg (c : Byte) (r : ResultCode) (s : State) (k : SegNo) : (refuse c r s).seg k = s.seg k := by simp [State.seg]
@[simp] theorem refuse_claim (c : Byte) (r : ResultCode) (s : State) (k : LineNo) : (refuse c r s).claim k = s.claim k := by simp [State.claim]
@[simp] theorem refuse_touchLine (c : Byte) (r : ResultCode) (s : State) (k : LineNo) : (refuse c r s).touchLine k = s.touchLine k := by simp [State.touchLine]
@[simp] theorem refuse_areaBase (c : Byte) (r : ResultCode) (s : State) : areaBase (refuse c r s) = areaBase s := by simp [areaBase]

@[simp] theorem closePosts_mem (b : State) (s : State) : (closePosts b s).mem = s.mem := congrArg Shape.mem (closePosts_shape b s)
@[simp] theorem closePosts_pins (b : State) (s : State) : (closePosts b s).pins = s.pins := congrArg Shape.pins (closePosts_shape b s)
@[simp] theorem closePosts_segs (b : State) (s : State) : (closePosts b s).segs = s.segs := congrArg Shape.segs (closePosts_shape b s)
@[simp] theorem closePosts_queue (b : State) (s : State) : (closePosts b s).queue = s.queue := congrArg Shape.queue (closePosts_shape b s)
@[simp] theorem closePosts_asm (b : State) (s : State) : (closePosts b s).asm = s.asm := congrArg Shape.asm (closePosts_shape b s)
@[simp] theorem closePosts_stroke (b : State) (s : State) : (closePosts b s).stroke = s.stroke := congrArg Shape.stroke (closePosts_shape b s)
@[simp] theorem closePosts_gate (b : State) (s : State) : (closePosts b s).gate = s.gate := congrArg Shape.gate (closePosts_shape b s)
@[simp] theorem closePosts_conv (b : State) (s : State) : (closePosts b s).conv = s.conv := congrArg Shape.conv (closePosts_shape b s)
@[simp] theorem closePosts_touch (b : State) (s : State) : (closePosts b s).touch = s.touch := congrArg Shape.touch (closePosts_shape b s)
@[simp] theorem closePosts_claims (b : State) (s : State) : (closePosts b s).claims = s.claims := congrArg Shape.claims (closePosts_shape b s)
@[simp] theorem closePosts_engine (b : State) (s : State) : (closePosts b s).engine = s.engine := congrArg Shape.engine (closePosts_shape b s)
@[simp] theorem closePosts_chime (b : State) (s : State) : (closePosts b s).chime = s.chime := congrArg Shape.chime (closePosts_shape b s)
@[simp] theorem closePosts_pending (b : State) (s : State) : (closePosts b s).pending = s.pending := congrArg Shape.pending (closePosts_shape b s)
@[simp] theorem closePosts_bus_strap (b : State) (s : State) : (closePosts b s).bus.strap = s.bus.strap :=
  congrArg Shape.strap (closePosts_shape b s)
@[simp] theorem closePosts_bus_argument (b : State) (s : State) : (closePosts b s).bus.argument = s.bus.argument :=
  congrArg Shape.argument (closePosts_shape b s)
@[simp] theorem closePosts_bus_enable (b : State) (s : State) : (closePosts b s).bus.enable = s.bus.enable :=
  congrArg Shape.enable (closePosts_shape b s)
@[simp] theorem closePosts_bus_arbiter (b : State) (s : State) : (closePosts b s).bus.arbiter = s.bus.arbiter :=
  congrArg Shape.arbiter (closePosts_shape b s)
@[simp] theorem closePosts_bus_hostRead (b : State) (s : State) : (closePosts b s).bus.hostRead = s.bus.hostRead :=
  congrArg Shape.hostRead (closePosts_shape b s)
@[simp] theorem closePosts_producer (b : State) (s : State) : (closePosts b s).events.producer = s.events.producer :=
  congrArg Shape.producer (closePosts_shape b s)
@[simp] theorem closePosts_consumer (b : State) (s : State) : (closePosts b s).events.consumer = s.events.consumer :=
  congrArg Shape.consumer (closePosts_shape b s)
@[simp] theorem closePosts_seg (b : State) (s : State) (k : SegNo) : (closePosts b s).seg k = s.seg k := by simp [State.seg]
@[simp] theorem closePosts_claim (b : State) (s : State) (k : LineNo) : (closePosts b s).claim k = s.claim k := by simp [State.claim]
@[simp] theorem closePosts_touchLine (b : State) (s : State) (k : LineNo) : (closePosts b s).touchLine k = s.touchLine k := by simp [State.touchLine]
@[simp] theorem closePosts_areaBase (b : State) (s : State) : areaBase (closePosts b s) = areaBase s := by simp [areaBase]

@[simp] theorem dropWrite_mem (off : Nat) (s : State) : (dropWrite off s).mem = s.mem := congrArg Shape.mem (dropWrite_shape off s)
@[simp] theorem dropWrite_pins (off : Nat) (s : State) : (dropWrite off s).pins = s.pins := congrArg Shape.pins (dropWrite_shape off s)
@[simp] theorem dropWrite_segs (off : Nat) (s : State) : (dropWrite off s).segs = s.segs := congrArg Shape.segs (dropWrite_shape off s)
@[simp] theorem dropWrite_queue (off : Nat) (s : State) : (dropWrite off s).queue = s.queue := congrArg Shape.queue (dropWrite_shape off s)
@[simp] theorem dropWrite_asm (off : Nat) (s : State) : (dropWrite off s).asm = s.asm := congrArg Shape.asm (dropWrite_shape off s)
@[simp] theorem dropWrite_stroke (off : Nat) (s : State) : (dropWrite off s).stroke = s.stroke := congrArg Shape.stroke (dropWrite_shape off s)
@[simp] theorem dropWrite_gate (off : Nat) (s : State) : (dropWrite off s).gate = s.gate := congrArg Shape.gate (dropWrite_shape off s)
@[simp] theorem dropWrite_conv (off : Nat) (s : State) : (dropWrite off s).conv = s.conv := congrArg Shape.conv (dropWrite_shape off s)
@[simp] theorem dropWrite_touch (off : Nat) (s : State) : (dropWrite off s).touch = s.touch := congrArg Shape.touch (dropWrite_shape off s)
@[simp] theorem dropWrite_claims (off : Nat) (s : State) : (dropWrite off s).claims = s.claims := congrArg Shape.claims (dropWrite_shape off s)
@[simp] theorem dropWrite_engine (off : Nat) (s : State) : (dropWrite off s).engine = s.engine := congrArg Shape.engine (dropWrite_shape off s)
@[simp] theorem dropWrite_chime (off : Nat) (s : State) : (dropWrite off s).chime = s.chime := congrArg Shape.chime (dropWrite_shape off s)
@[simp] theorem dropWrite_pending (off : Nat) (s : State) : (dropWrite off s).pending = s.pending := congrArg Shape.pending (dropWrite_shape off s)
@[simp] theorem dropWrite_bus_strap (off : Nat) (s : State) : (dropWrite off s).bus.strap = s.bus.strap :=
  congrArg Shape.strap (dropWrite_shape off s)
@[simp] theorem dropWrite_bus_argument (off : Nat) (s : State) : (dropWrite off s).bus.argument = s.bus.argument :=
  congrArg Shape.argument (dropWrite_shape off s)
@[simp] theorem dropWrite_bus_enable (off : Nat) (s : State) : (dropWrite off s).bus.enable = s.bus.enable :=
  congrArg Shape.enable (dropWrite_shape off s)
@[simp] theorem dropWrite_bus_arbiter (off : Nat) (s : State) : (dropWrite off s).bus.arbiter = s.bus.arbiter :=
  congrArg Shape.arbiter (dropWrite_shape off s)
@[simp] theorem dropWrite_bus_hostRead (off : Nat) (s : State) : (dropWrite off s).bus.hostRead = s.bus.hostRead :=
  congrArg Shape.hostRead (dropWrite_shape off s)
@[simp] theorem dropWrite_producer (off : Nat) (s : State) : (dropWrite off s).events.producer = s.events.producer :=
  congrArg Shape.producer (dropWrite_shape off s)
@[simp] theorem dropWrite_consumer (off : Nat) (s : State) : (dropWrite off s).events.consumer = s.events.consumer :=
  congrArg Shape.consumer (dropWrite_shape off s)
@[simp] theorem dropWrite_seg (off : Nat) (s : State) (k : SegNo) : (dropWrite off s).seg k = s.seg k := by simp [State.seg]
@[simp] theorem dropWrite_claim (off : Nat) (s : State) (k : LineNo) : (dropWrite off s).claim k = s.claim k := by simp [State.claim]
@[simp] theorem dropWrite_touchLine (off : Nat) (s : State) (k : LineNo) : (dropWrite off s).touchLine k = s.touchLine k := by simp [State.touchLine]
@[simp] theorem dropWrite_areaBase (off : Nat) (s : State) : areaBase (dropWrite off s) = areaBase s := by simp [areaBase]

@[simp] theorem postPending_mem (s : State) : (postPending s).mem = s.mem := congrArg Shape.mem (postPending_shape s)
@[simp] theorem postPending_pins (s : State) : (postPending s).pins = s.pins := congrArg Shape.pins (postPending_shape s)
@[simp] theorem postPending_segs (s : State) : (postPending s).segs = s.segs := congrArg Shape.segs (postPending_shape s)
@[simp] theorem postPending_queue (s : State) : (postPending s).queue = s.queue := congrArg Shape.queue (postPending_shape s)
@[simp] theorem postPending_asm (s : State) : (postPending s).asm = s.asm := congrArg Shape.asm (postPending_shape s)
@[simp] theorem postPending_stroke (s : State) : (postPending s).stroke = s.stroke := congrArg Shape.stroke (postPending_shape s)
@[simp] theorem postPending_gate (s : State) : (postPending s).gate = s.gate := congrArg Shape.gate (postPending_shape s)
@[simp] theorem postPending_conv (s : State) : (postPending s).conv = s.conv := congrArg Shape.conv (postPending_shape s)
@[simp] theorem postPending_touch (s : State) : (postPending s).touch = s.touch := congrArg Shape.touch (postPending_shape s)
@[simp] theorem postPending_claims (s : State) : (postPending s).claims = s.claims := congrArg Shape.claims (postPending_shape s)
@[simp] theorem postPending_engine (s : State) : (postPending s).engine = s.engine := congrArg Shape.engine (postPending_shape s)
@[simp] theorem postPending_chime (s : State) : (postPending s).chime = s.chime := congrArg Shape.chime (postPending_shape s)
@[simp] theorem postPending_pending (s : State) : (postPending s).pending = s.pending := congrArg Shape.pending (postPending_shape s)
@[simp] theorem postPending_bus_strap (s : State) : (postPending s).bus.strap = s.bus.strap :=
  congrArg Shape.strap (postPending_shape s)
@[simp] theorem postPending_bus_argument (s : State) : (postPending s).bus.argument = s.bus.argument :=
  congrArg Shape.argument (postPending_shape s)
@[simp] theorem postPending_bus_enable (s : State) : (postPending s).bus.enable = s.bus.enable :=
  congrArg Shape.enable (postPending_shape s)
@[simp] theorem postPending_bus_arbiter (s : State) : (postPending s).bus.arbiter = s.bus.arbiter :=
  congrArg Shape.arbiter (postPending_shape s)
@[simp] theorem postPending_bus_hostRead (s : State) : (postPending s).bus.hostRead = s.bus.hostRead :=
  congrArg Shape.hostRead (postPending_shape s)
@[simp] theorem postPending_producer (s : State) : (postPending s).events.producer = s.events.producer :=
  congrArg Shape.producer (postPending_shape s)
@[simp] theorem postPending_consumer (s : State) : (postPending s).events.consumer = s.events.consumer :=
  congrArg Shape.consumer (postPending_shape s)
@[simp] theorem postPending_seg (s : State) (k : SegNo) : (postPending s).seg k = s.seg k := by simp [State.seg]
@[simp] theorem postPending_claim (s : State) (k : LineNo) : (postPending s).claim k = s.claim k := by simp [State.claim]
@[simp] theorem postPending_touchLine (s : State) (k : LineNo) : (postPending s).touchLine k = s.touchLine k := by simp [State.touchLine]
@[simp] theorem postPending_areaBase (s : State) : areaBase (postPending s) = areaBase s := by simp [areaBase]

@[simp] theorem postResults_mem (s : State) : (postResults s).mem = s.mem := congrArg Shape.mem (postResults_shape s)
@[simp] theorem postResults_pins (s : State) : (postResults s).pins = s.pins := congrArg Shape.pins (postResults_shape s)
@[simp] theorem postResults_segs (s : State) : (postResults s).segs = s.segs := congrArg Shape.segs (postResults_shape s)
@[simp] theorem postResults_queue (s : State) : (postResults s).queue = s.queue := congrArg Shape.queue (postResults_shape s)
@[simp] theorem postResults_asm (s : State) : (postResults s).asm = s.asm := congrArg Shape.asm (postResults_shape s)
@[simp] theorem postResults_stroke (s : State) : (postResults s).stroke = s.stroke := congrArg Shape.stroke (postResults_shape s)
@[simp] theorem postResults_gate (s : State) : (postResults s).gate = s.gate := congrArg Shape.gate (postResults_shape s)
@[simp] theorem postResults_conv (s : State) : (postResults s).conv = s.conv := congrArg Shape.conv (postResults_shape s)
@[simp] theorem postResults_touch (s : State) : (postResults s).touch = s.touch := congrArg Shape.touch (postResults_shape s)
@[simp] theorem postResults_claims (s : State) : (postResults s).claims = s.claims := congrArg Shape.claims (postResults_shape s)
@[simp] theorem postResults_engine (s : State) : (postResults s).engine = s.engine := congrArg Shape.engine (postResults_shape s)
@[simp] theorem postResults_chime (s : State) : (postResults s).chime = s.chime := congrArg Shape.chime (postResults_shape s)
@[simp] theorem postResults_pending (s : State) : (postResults s).pending = s.pending := congrArg Shape.pending (postResults_shape s)
@[simp] theorem postResults_bus_strap (s : State) : (postResults s).bus.strap = s.bus.strap :=
  congrArg Shape.strap (postResults_shape s)
@[simp] theorem postResults_bus_argument (s : State) : (postResults s).bus.argument = s.bus.argument :=
  congrArg Shape.argument (postResults_shape s)
@[simp] theorem postResults_bus_enable (s : State) : (postResults s).bus.enable = s.bus.enable :=
  congrArg Shape.enable (postResults_shape s)
@[simp] theorem postResults_bus_arbiter (s : State) : (postResults s).bus.arbiter = s.bus.arbiter :=
  congrArg Shape.arbiter (postResults_shape s)
@[simp] theorem postResults_bus_hostRead (s : State) : (postResults s).bus.hostRead = s.bus.hostRead :=
  congrArg Shape.hostRead (postResults_shape s)
@[simp] theorem postResults_producer (s : State) : (postResults s).events.producer = s.events.producer :=
  congrArg Shape.producer (postResults_shape s)
@[simp] theorem postResults_consumer (s : State) : (postResults s).events.consumer = s.events.consumer :=
  congrArg Shape.consumer (postResults_shape s)
@[simp] theorem postResults_seg (s : State) (k : SegNo) : (postResults s).seg k = s.seg k := by simp [State.seg]
@[simp] theorem postResults_claim (s : State) (k : LineNo) : (postResults s).claim k = s.claim k := by simp [State.claim]
@[simp] theorem postResults_touchLine (s : State) (k : LineNo) : (postResults s).touchLine k = s.touchLine k := by simp [State.touchLine]
@[simp] theorem postResults_areaBase (s : State) : areaBase (postResults s) = areaBase s := by simp [areaBase]

@[simp] theorem postAll_mem (ps : List (Nat × Word)) (s : State) : (postAll ps s).mem = s.mem := congrArg Shape.mem (postAll_shape ps s)
@[simp] theorem postAll_pins (ps : List (Nat × Word)) (s : State) : (postAll ps s).pins = s.pins := congrArg Shape.pins (postAll_shape ps s)
@[simp] theorem postAll_segs (ps : List (Nat × Word)) (s : State) : (postAll ps s).segs = s.segs := congrArg Shape.segs (postAll_shape ps s)
@[simp] theorem postAll_queue (ps : List (Nat × Word)) (s : State) : (postAll ps s).queue = s.queue := congrArg Shape.queue (postAll_shape ps s)
@[simp] theorem postAll_asm (ps : List (Nat × Word)) (s : State) : (postAll ps s).asm = s.asm := congrArg Shape.asm (postAll_shape ps s)
@[simp] theorem postAll_stroke (ps : List (Nat × Word)) (s : State) : (postAll ps s).stroke = s.stroke := congrArg Shape.stroke (postAll_shape ps s)
@[simp] theorem postAll_gate (ps : List (Nat × Word)) (s : State) : (postAll ps s).gate = s.gate := congrArg Shape.gate (postAll_shape ps s)
@[simp] theorem postAll_conv (ps : List (Nat × Word)) (s : State) : (postAll ps s).conv = s.conv := congrArg Shape.conv (postAll_shape ps s)
@[simp] theorem postAll_touch (ps : List (Nat × Word)) (s : State) : (postAll ps s).touch = s.touch := congrArg Shape.touch (postAll_shape ps s)
@[simp] theorem postAll_claims (ps : List (Nat × Word)) (s : State) : (postAll ps s).claims = s.claims := congrArg Shape.claims (postAll_shape ps s)
@[simp] theorem postAll_engine (ps : List (Nat × Word)) (s : State) : (postAll ps s).engine = s.engine := congrArg Shape.engine (postAll_shape ps s)
@[simp] theorem postAll_chime (ps : List (Nat × Word)) (s : State) : (postAll ps s).chime = s.chime := congrArg Shape.chime (postAll_shape ps s)
@[simp] theorem postAll_pending (ps : List (Nat × Word)) (s : State) : (postAll ps s).pending = s.pending := congrArg Shape.pending (postAll_shape ps s)
@[simp] theorem postAll_bus_strap (ps : List (Nat × Word)) (s : State) : (postAll ps s).bus.strap = s.bus.strap :=
  congrArg Shape.strap (postAll_shape ps s)
@[simp] theorem postAll_bus_argument (ps : List (Nat × Word)) (s : State) : (postAll ps s).bus.argument = s.bus.argument :=
  congrArg Shape.argument (postAll_shape ps s)
@[simp] theorem postAll_bus_enable (ps : List (Nat × Word)) (s : State) : (postAll ps s).bus.enable = s.bus.enable :=
  congrArg Shape.enable (postAll_shape ps s)
@[simp] theorem postAll_bus_arbiter (ps : List (Nat × Word)) (s : State) : (postAll ps s).bus.arbiter = s.bus.arbiter :=
  congrArg Shape.arbiter (postAll_shape ps s)
@[simp] theorem postAll_bus_hostRead (ps : List (Nat × Word)) (s : State) : (postAll ps s).bus.hostRead = s.bus.hostRead :=
  congrArg Shape.hostRead (postAll_shape ps s)
@[simp] theorem postAll_producer (ps : List (Nat × Word)) (s : State) : (postAll ps s).events.producer = s.events.producer :=
  congrArg Shape.producer (postAll_shape ps s)
@[simp] theorem postAll_consumer (ps : List (Nat × Word)) (s : State) : (postAll ps s).events.consumer = s.events.consumer :=
  congrArg Shape.consumer (postAll_shape ps s)
@[simp] theorem postAll_seg (ps : List (Nat × Word)) (s : State) (k : SegNo) : (postAll ps s).seg k = s.seg k := by simp [State.seg]
@[simp] theorem postAll_claim (ps : List (Nat × Word)) (s : State) (k : LineNo) : (postAll ps s).claim k = s.claim k := by simp [State.claim]
@[simp] theorem postAll_touchLine (ps : List (Nat × Word)) (s : State) (k : LineNo) : (postAll ps s).touchLine k = s.touchLine k := by simp [State.touchLine]
@[simp] theorem postAll_areaBase (ps : List (Nat × Word)) (s : State) : areaBase (postAll ps s) = areaBase s := by simp [areaBase]

@[simp] theorem postMirrors_mem (is : List SegNo) (s : State) : (postMirrors is s).mem = s.mem := congrArg Shape.mem (postMirrors_shape is s)
@[simp] theorem postMirrors_pins (is : List SegNo) (s : State) : (postMirrors is s).pins = s.pins := congrArg Shape.pins (postMirrors_shape is s)
@[simp] theorem postMirrors_segs (is : List SegNo) (s : State) : (postMirrors is s).segs = s.segs := congrArg Shape.segs (postMirrors_shape is s)
@[simp] theorem postMirrors_queue (is : List SegNo) (s : State) : (postMirrors is s).queue = s.queue := congrArg Shape.queue (postMirrors_shape is s)
@[simp] theorem postMirrors_asm (is : List SegNo) (s : State) : (postMirrors is s).asm = s.asm := congrArg Shape.asm (postMirrors_shape is s)
@[simp] theorem postMirrors_stroke (is : List SegNo) (s : State) : (postMirrors is s).stroke = s.stroke := congrArg Shape.stroke (postMirrors_shape is s)
@[simp] theorem postMirrors_gate (is : List SegNo) (s : State) : (postMirrors is s).gate = s.gate := congrArg Shape.gate (postMirrors_shape is s)
@[simp] theorem postMirrors_conv (is : List SegNo) (s : State) : (postMirrors is s).conv = s.conv := congrArg Shape.conv (postMirrors_shape is s)
@[simp] theorem postMirrors_touch (is : List SegNo) (s : State) : (postMirrors is s).touch = s.touch := congrArg Shape.touch (postMirrors_shape is s)
@[simp] theorem postMirrors_claims (is : List SegNo) (s : State) : (postMirrors is s).claims = s.claims := congrArg Shape.claims (postMirrors_shape is s)
@[simp] theorem postMirrors_engine (is : List SegNo) (s : State) : (postMirrors is s).engine = s.engine := congrArg Shape.engine (postMirrors_shape is s)
@[simp] theorem postMirrors_chime (is : List SegNo) (s : State) : (postMirrors is s).chime = s.chime := congrArg Shape.chime (postMirrors_shape is s)
@[simp] theorem postMirrors_pending (is : List SegNo) (s : State) : (postMirrors is s).pending = s.pending := congrArg Shape.pending (postMirrors_shape is s)
@[simp] theorem postMirrors_bus_strap (is : List SegNo) (s : State) : (postMirrors is s).bus.strap = s.bus.strap :=
  congrArg Shape.strap (postMirrors_shape is s)
@[simp] theorem postMirrors_bus_argument (is : List SegNo) (s : State) : (postMirrors is s).bus.argument = s.bus.argument :=
  congrArg Shape.argument (postMirrors_shape is s)
@[simp] theorem postMirrors_bus_enable (is : List SegNo) (s : State) : (postMirrors is s).bus.enable = s.bus.enable :=
  congrArg Shape.enable (postMirrors_shape is s)
@[simp] theorem postMirrors_bus_arbiter (is : List SegNo) (s : State) : (postMirrors is s).bus.arbiter = s.bus.arbiter :=
  congrArg Shape.arbiter (postMirrors_shape is s)
@[simp] theorem postMirrors_bus_hostRead (is : List SegNo) (s : State) : (postMirrors is s).bus.hostRead = s.bus.hostRead :=
  congrArg Shape.hostRead (postMirrors_shape is s)
@[simp] theorem postMirrors_producer (is : List SegNo) (s : State) : (postMirrors is s).events.producer = s.events.producer :=
  congrArg Shape.producer (postMirrors_shape is s)
@[simp] theorem postMirrors_consumer (is : List SegNo) (s : State) : (postMirrors is s).events.consumer = s.events.consumer :=
  congrArg Shape.consumer (postMirrors_shape is s)
@[simp] theorem postMirrors_seg (is : List SegNo) (s : State) (k : SegNo) : (postMirrors is s).seg k = s.seg k := by simp [State.seg]
@[simp] theorem postMirrors_claim (is : List SegNo) (s : State) (k : LineNo) : (postMirrors is s).claim k = s.claim k := by simp [State.claim]
@[simp] theorem postMirrors_touchLine (is : List SegNo) (s : State) (k : LineNo) : (postMirrors is s).touchLine k = s.touchLine k := by simp [State.touchLine]
@[simp] theorem postMirrors_areaBase (is : List SegNo) (s : State) : areaBase (postMirrors is s) = areaBase s := by simp [areaBase]

@[simp] theorem closeEvent_mem (b : State) (s : State) : (closeEvent b s).mem = s.mem := congrArg Firm.mem (closeEvent_firm b s)
@[simp] theorem closeEvent_pins (b : State) (s : State) : (closeEvent b s).pins = s.pins := congrArg Firm.pins (closeEvent_firm b s)
@[simp] theorem closeEvent_segs (b : State) (s : State) : (closeEvent b s).segs = s.segs := congrArg Firm.segs (closeEvent_firm b s)
@[simp] theorem closeEvent_queue (b : State) (s : State) : (closeEvent b s).queue = s.queue := congrArg Firm.queue (closeEvent_firm b s)
@[simp] theorem closeEvent_asm (b : State) (s : State) : (closeEvent b s).asm = s.asm := congrArg Firm.asm (closeEvent_firm b s)
@[simp] theorem closeEvent_stroke (b : State) (s : State) : (closeEvent b s).stroke = s.stroke := congrArg Firm.stroke (closeEvent_firm b s)
@[simp] theorem closeEvent_gate (b : State) (s : State) : (closeEvent b s).gate = s.gate := congrArg Firm.gate (closeEvent_firm b s)
@[simp] theorem closeEvent_conv (b : State) (s : State) : (closeEvent b s).conv = s.conv := congrArg Firm.conv (closeEvent_firm b s)
@[simp] theorem closeEvent_touch (b : State) (s : State) : (closeEvent b s).touch = s.touch := congrArg Firm.touch (closeEvent_firm b s)
@[simp] theorem closeEvent_claims (b : State) (s : State) : (closeEvent b s).claims = s.claims := congrArg Firm.claims (closeEvent_firm b s)
@[simp] theorem closeEvent_pending (b : State) (s : State) : (closeEvent b s).pending = s.pending := congrArg Firm.pending (closeEvent_firm b s)
@[simp] theorem closeEvent_bus_strap (b : State) (s : State) : (closeEvent b s).bus.strap = s.bus.strap :=
  congrArg Firm.strap (closeEvent_firm b s)
@[simp] theorem closeEvent_bus_argument (b : State) (s : State) : (closeEvent b s).bus.argument = s.bus.argument :=
  congrArg Firm.argument (closeEvent_firm b s)
@[simp] theorem closeEvent_bus_enable (b : State) (s : State) : (closeEvent b s).bus.enable = s.bus.enable :=
  congrArg Firm.enable (closeEvent_firm b s)
@[simp] theorem closeEvent_bus_arbiter (b : State) (s : State) : (closeEvent b s).bus.arbiter = s.bus.arbiter :=
  congrArg Firm.arbiter (closeEvent_firm b s)
@[simp] theorem closeEvent_bus_hostRead (b : State) (s : State) : (closeEvent b s).bus.hostRead = s.bus.hostRead :=
  congrArg Firm.hostRead (closeEvent_firm b s)
@[simp] theorem closeEvent_engine_state (b : State) (s : State) : (closeEvent b s).engine.state = s.engine.state :=
  congrArg Firm.engineState (closeEvent_firm b s)
@[simp] theorem closeEvent_engine_copy (b : State) (s : State) : (closeEvent b s).engine.copy = s.engine.copy :=
  congrArg Firm.copy (closeEvent_firm b s)
@[simp] theorem closeEvent_engine_shown (b : State) (s : State) : (closeEvent b s).engine.shown = s.engine.shown :=
  congrArg Firm.shown (closeEvent_firm b s)
@[simp] theorem closeEvent_engine_startOut (b : State) (s : State) : (closeEvent b s).engine.startOut = s.engine.startOut :=
  congrArg Firm.startOut (closeEvent_firm b s)
@[simp] theorem closeEvent_engine_reading (b : State) (s : State) : (closeEvent b s).engine.reading = s.engine.reading :=
  congrArg Firm.reading (closeEvent_firm b s)
@[simp] theorem closeEvent_producer (b : State) (s : State) : (closeEvent b s).events.producer = s.events.producer :=
  congrArg Firm.producer (closeEvent_firm b s)
@[simp] theorem closeEvent_consumer (b : State) (s : State) : (closeEvent b s).events.consumer = s.events.consumer :=
  congrArg Firm.consumer (closeEvent_firm b s)
@[simp] theorem closeEvent_seg (b : State) (s : State) (k : SegNo) : (closeEvent b s).seg k = s.seg k := by simp [State.seg]
@[simp] theorem closeEvent_claim (b : State) (s : State) (k : LineNo) : (closeEvent b s).claim k = s.claim k := by simp [State.claim]
@[simp] theorem closeEvent_touchLine (b : State) (s : State) (k : LineNo) : (closeEvent b s).touchLine k = s.touchLine k := by simp [State.touchLine]
@[simp] theorem closeEvent_areaBase (b : State) (s : State) : areaBase (closeEvent b s) = areaBase s := by simp [areaBase]

@[simp] theorem closeShow_mem (b : State) (s : State) : (closeShow b s).mem = s.mem := congrArg Firm.mem (closeShow_firm b s)
@[simp] theorem closeShow_pins (b : State) (s : State) : (closeShow b s).pins = s.pins := congrArg Firm.pins (closeShow_firm b s)
@[simp] theorem closeShow_segs (b : State) (s : State) : (closeShow b s).segs = s.segs := congrArg Firm.segs (closeShow_firm b s)
@[simp] theorem closeShow_queue (b : State) (s : State) : (closeShow b s).queue = s.queue := congrArg Firm.queue (closeShow_firm b s)
@[simp] theorem closeShow_asm (b : State) (s : State) : (closeShow b s).asm = s.asm := congrArg Firm.asm (closeShow_firm b s)
@[simp] theorem closeShow_stroke (b : State) (s : State) : (closeShow b s).stroke = s.stroke := congrArg Firm.stroke (closeShow_firm b s)
@[simp] theorem closeShow_gate (b : State) (s : State) : (closeShow b s).gate = s.gate := congrArg Firm.gate (closeShow_firm b s)
@[simp] theorem closeShow_conv (b : State) (s : State) : (closeShow b s).conv = s.conv := congrArg Firm.conv (closeShow_firm b s)
@[simp] theorem closeShow_touch (b : State) (s : State) : (closeShow b s).touch = s.touch := congrArg Firm.touch (closeShow_firm b s)
@[simp] theorem closeShow_claims (b : State) (s : State) : (closeShow b s).claims = s.claims := congrArg Firm.claims (closeShow_firm b s)
@[simp] theorem closeShow_pending (b : State) (s : State) : (closeShow b s).pending = s.pending := congrArg Firm.pending (closeShow_firm b s)
@[simp] theorem closeShow_bus_strap (b : State) (s : State) : (closeShow b s).bus.strap = s.bus.strap :=
  congrArg Firm.strap (closeShow_firm b s)
@[simp] theorem closeShow_bus_argument (b : State) (s : State) : (closeShow b s).bus.argument = s.bus.argument :=
  congrArg Firm.argument (closeShow_firm b s)
@[simp] theorem closeShow_bus_enable (b : State) (s : State) : (closeShow b s).bus.enable = s.bus.enable :=
  congrArg Firm.enable (closeShow_firm b s)
@[simp] theorem closeShow_bus_arbiter (b : State) (s : State) : (closeShow b s).bus.arbiter = s.bus.arbiter :=
  congrArg Firm.arbiter (closeShow_firm b s)
@[simp] theorem closeShow_bus_hostRead (b : State) (s : State) : (closeShow b s).bus.hostRead = s.bus.hostRead :=
  congrArg Firm.hostRead (closeShow_firm b s)
@[simp] theorem closeShow_engine_state (b : State) (s : State) : (closeShow b s).engine.state = s.engine.state :=
  congrArg Firm.engineState (closeShow_firm b s)
@[simp] theorem closeShow_engine_copy (b : State) (s : State) : (closeShow b s).engine.copy = s.engine.copy :=
  congrArg Firm.copy (closeShow_firm b s)
@[simp] theorem closeShow_engine_shown (b : State) (s : State) : (closeShow b s).engine.shown = s.engine.shown :=
  congrArg Firm.shown (closeShow_firm b s)
@[simp] theorem closeShow_engine_startOut (b : State) (s : State) : (closeShow b s).engine.startOut = s.engine.startOut :=
  congrArg Firm.startOut (closeShow_firm b s)
@[simp] theorem closeShow_engine_reading (b : State) (s : State) : (closeShow b s).engine.reading = s.engine.reading :=
  congrArg Firm.reading (closeShow_firm b s)
@[simp] theorem closeShow_producer (b : State) (s : State) : (closeShow b s).events.producer = s.events.producer :=
  congrArg Firm.producer (closeShow_firm b s)
@[simp] theorem closeShow_consumer (b : State) (s : State) : (closeShow b s).events.consumer = s.events.consumer :=
  congrArg Firm.consumer (closeShow_firm b s)
@[simp] theorem closeShow_seg (b : State) (s : State) (k : SegNo) : (closeShow b s).seg k = s.seg k := by simp [State.seg]
@[simp] theorem closeShow_claim (b : State) (s : State) (k : LineNo) : (closeShow b s).claim k = s.claim k := by simp [State.claim]
@[simp] theorem closeShow_touchLine (b : State) (s : State) (k : LineNo) : (closeShow b s).touchLine k = s.touchLine k := by simp [State.touchLine]
@[simp] theorem closeShow_areaBase (b : State) (s : State) : areaBase (closeShow b s) = areaBase s := by simp [areaBase]

@[simp] theorem judgeSettled_mem (b : Bool) (u : State) (s : State) : (judgeSettled b u s).mem = s.mem := congrArg Firm.mem (judgeSettled_firm b u s)
@[simp] theorem judgeSettled_pins (b : Bool) (u : State) (s : State) : (judgeSettled b u s).pins = s.pins := congrArg Firm.pins (judgeSettled_firm b u s)
@[simp] theorem judgeSettled_segs (b : Bool) (u : State) (s : State) : (judgeSettled b u s).segs = s.segs := congrArg Firm.segs (judgeSettled_firm b u s)
@[simp] theorem judgeSettled_queue (b : Bool) (u : State) (s : State) : (judgeSettled b u s).queue = s.queue := congrArg Firm.queue (judgeSettled_firm b u s)
@[simp] theorem judgeSettled_asm (b : Bool) (u : State) (s : State) : (judgeSettled b u s).asm = s.asm := congrArg Firm.asm (judgeSettled_firm b u s)
@[simp] theorem judgeSettled_stroke (b : Bool) (u : State) (s : State) : (judgeSettled b u s).stroke = s.stroke := congrArg Firm.stroke (judgeSettled_firm b u s)
@[simp] theorem judgeSettled_gate (b : Bool) (u : State) (s : State) : (judgeSettled b u s).gate = s.gate := congrArg Firm.gate (judgeSettled_firm b u s)
@[simp] theorem judgeSettled_conv (b : Bool) (u : State) (s : State) : (judgeSettled b u s).conv = s.conv := congrArg Firm.conv (judgeSettled_firm b u s)
@[simp] theorem judgeSettled_touch (b : Bool) (u : State) (s : State) : (judgeSettled b u s).touch = s.touch := congrArg Firm.touch (judgeSettled_firm b u s)
@[simp] theorem judgeSettled_claims (b : Bool) (u : State) (s : State) : (judgeSettled b u s).claims = s.claims := congrArg Firm.claims (judgeSettled_firm b u s)
@[simp] theorem judgeSettled_pending (b : Bool) (u : State) (s : State) : (judgeSettled b u s).pending = s.pending := congrArg Firm.pending (judgeSettled_firm b u s)
@[simp] theorem judgeSettled_bus_strap (b : Bool) (u : State) (s : State) : (judgeSettled b u s).bus.strap = s.bus.strap :=
  congrArg Firm.strap (judgeSettled_firm b u s)
@[simp] theorem judgeSettled_bus_argument (b : Bool) (u : State) (s : State) : (judgeSettled b u s).bus.argument = s.bus.argument :=
  congrArg Firm.argument (judgeSettled_firm b u s)
@[simp] theorem judgeSettled_bus_enable (b : Bool) (u : State) (s : State) : (judgeSettled b u s).bus.enable = s.bus.enable :=
  congrArg Firm.enable (judgeSettled_firm b u s)
@[simp] theorem judgeSettled_bus_arbiter (b : Bool) (u : State) (s : State) : (judgeSettled b u s).bus.arbiter = s.bus.arbiter :=
  congrArg Firm.arbiter (judgeSettled_firm b u s)
@[simp] theorem judgeSettled_bus_hostRead (b : Bool) (u : State) (s : State) : (judgeSettled b u s).bus.hostRead = s.bus.hostRead :=
  congrArg Firm.hostRead (judgeSettled_firm b u s)
@[simp] theorem judgeSettled_engine_state (b : Bool) (u : State) (s : State) : (judgeSettled b u s).engine.state = s.engine.state :=
  congrArg Firm.engineState (judgeSettled_firm b u s)
@[simp] theorem judgeSettled_engine_copy (b : Bool) (u : State) (s : State) : (judgeSettled b u s).engine.copy = s.engine.copy :=
  congrArg Firm.copy (judgeSettled_firm b u s)
@[simp] theorem judgeSettled_engine_shown (b : Bool) (u : State) (s : State) : (judgeSettled b u s).engine.shown = s.engine.shown :=
  congrArg Firm.shown (judgeSettled_firm b u s)
@[simp] theorem judgeSettled_engine_startOut (b : Bool) (u : State) (s : State) : (judgeSettled b u s).engine.startOut = s.engine.startOut :=
  congrArg Firm.startOut (judgeSettled_firm b u s)
@[simp] theorem judgeSettled_engine_reading (b : Bool) (u : State) (s : State) : (judgeSettled b u s).engine.reading = s.engine.reading :=
  congrArg Firm.reading (judgeSettled_firm b u s)
@[simp] theorem judgeSettled_producer (b : Bool) (u : State) (s : State) : (judgeSettled b u s).events.producer = s.events.producer :=
  congrArg Firm.producer (judgeSettled_firm b u s)
@[simp] theorem judgeSettled_consumer (b : Bool) (u : State) (s : State) : (judgeSettled b u s).events.consumer = s.events.consumer :=
  congrArg Firm.consumer (judgeSettled_firm b u s)
@[simp] theorem judgeSettled_seg (b : Bool) (u : State) (s : State) (k : SegNo) : (judgeSettled b u s).seg k = s.seg k := by simp [State.seg]
@[simp] theorem judgeSettled_claim (b : Bool) (u : State) (s : State) (k : LineNo) : (judgeSettled b u s).claim k = s.claim k := by simp [State.claim]
@[simp] theorem judgeSettled_touchLine (b : Bool) (u : State) (s : State) (k : LineNo) : (judgeSettled b u s).touchLine k = s.touchLine k := by simp [State.touchLine]
@[simp] theorem judgeSettled_areaBase (b : Bool) (u : State) (s : State) : areaBase (judgeSettled b u s) = areaBase s := by simp [areaBase]

@[simp] theorem requestFaultTone_mem (s : State) : (requestFaultTone s).mem = s.mem := congrArg Firm.mem (requestFaultTone_firm s)
@[simp] theorem requestFaultTone_pins (s : State) : (requestFaultTone s).pins = s.pins := congrArg Firm.pins (requestFaultTone_firm s)
@[simp] theorem requestFaultTone_segs (s : State) : (requestFaultTone s).segs = s.segs := congrArg Firm.segs (requestFaultTone_firm s)
@[simp] theorem requestFaultTone_queue (s : State) : (requestFaultTone s).queue = s.queue := congrArg Firm.queue (requestFaultTone_firm s)
@[simp] theorem requestFaultTone_asm (s : State) : (requestFaultTone s).asm = s.asm := congrArg Firm.asm (requestFaultTone_firm s)
@[simp] theorem requestFaultTone_stroke (s : State) : (requestFaultTone s).stroke = s.stroke := congrArg Firm.stroke (requestFaultTone_firm s)
@[simp] theorem requestFaultTone_gate (s : State) : (requestFaultTone s).gate = s.gate := congrArg Firm.gate (requestFaultTone_firm s)
@[simp] theorem requestFaultTone_conv (s : State) : (requestFaultTone s).conv = s.conv := congrArg Firm.conv (requestFaultTone_firm s)
@[simp] theorem requestFaultTone_touch (s : State) : (requestFaultTone s).touch = s.touch := congrArg Firm.touch (requestFaultTone_firm s)
@[simp] theorem requestFaultTone_claims (s : State) : (requestFaultTone s).claims = s.claims := congrArg Firm.claims (requestFaultTone_firm s)
@[simp] theorem requestFaultTone_pending (s : State) : (requestFaultTone s).pending = s.pending := congrArg Firm.pending (requestFaultTone_firm s)
@[simp] theorem requestFaultTone_bus_strap (s : State) : (requestFaultTone s).bus.strap = s.bus.strap :=
  congrArg Firm.strap (requestFaultTone_firm s)
@[simp] theorem requestFaultTone_bus_argument (s : State) : (requestFaultTone s).bus.argument = s.bus.argument :=
  congrArg Firm.argument (requestFaultTone_firm s)
@[simp] theorem requestFaultTone_bus_enable (s : State) : (requestFaultTone s).bus.enable = s.bus.enable :=
  congrArg Firm.enable (requestFaultTone_firm s)
@[simp] theorem requestFaultTone_bus_arbiter (s : State) : (requestFaultTone s).bus.arbiter = s.bus.arbiter :=
  congrArg Firm.arbiter (requestFaultTone_firm s)
@[simp] theorem requestFaultTone_bus_hostRead (s : State) : (requestFaultTone s).bus.hostRead = s.bus.hostRead :=
  congrArg Firm.hostRead (requestFaultTone_firm s)
@[simp] theorem requestFaultTone_engine_state (s : State) : (requestFaultTone s).engine.state = s.engine.state :=
  congrArg Firm.engineState (requestFaultTone_firm s)
@[simp] theorem requestFaultTone_engine_copy (s : State) : (requestFaultTone s).engine.copy = s.engine.copy :=
  congrArg Firm.copy (requestFaultTone_firm s)
@[simp] theorem requestFaultTone_engine_shown (s : State) : (requestFaultTone s).engine.shown = s.engine.shown :=
  congrArg Firm.shown (requestFaultTone_firm s)
@[simp] theorem requestFaultTone_engine_startOut (s : State) : (requestFaultTone s).engine.startOut = s.engine.startOut :=
  congrArg Firm.startOut (requestFaultTone_firm s)
@[simp] theorem requestFaultTone_engine_reading (s : State) : (requestFaultTone s).engine.reading = s.engine.reading :=
  congrArg Firm.reading (requestFaultTone_firm s)
@[simp] theorem requestFaultTone_producer (s : State) : (requestFaultTone s).events.producer = s.events.producer :=
  congrArg Firm.producer (requestFaultTone_firm s)
@[simp] theorem requestFaultTone_consumer (s : State) : (requestFaultTone s).events.consumer = s.events.consumer :=
  congrArg Firm.consumer (requestFaultTone_firm s)
@[simp] theorem requestFaultTone_seg (s : State) (k : SegNo) : (requestFaultTone s).seg k = s.seg k := by simp [State.seg]
@[simp] theorem requestFaultTone_claim (s : State) (k : LineNo) : (requestFaultTone s).claim k = s.claim k := by simp [State.claim]
@[simp] theorem requestFaultTone_touchLine (s : State) (k : LineNo) : (requestFaultTone s).touchLine k = s.touchLine k := by simp [State.touchLine]
@[simp] theorem requestFaultTone_areaBase (s : State) : areaBase (requestFaultTone s) = areaBase s := by simp [areaBase]

@[simp] theorem requestPageTone_mem (s : State) : (requestPageTone s).mem = s.mem := congrArg Firm.mem (requestPageTone_firm s)
@[simp] theorem requestPageTone_pins (s : State) : (requestPageTone s).pins = s.pins := congrArg Firm.pins (requestPageTone_firm s)
@[simp] theorem requestPageTone_segs (s : State) : (requestPageTone s).segs = s.segs := congrArg Firm.segs (requestPageTone_firm s)
@[simp] theorem requestPageTone_queue (s : State) : (requestPageTone s).queue = s.queue := congrArg Firm.queue (requestPageTone_firm s)
@[simp] theorem requestPageTone_asm (s : State) : (requestPageTone s).asm = s.asm := congrArg Firm.asm (requestPageTone_firm s)
@[simp] theorem requestPageTone_stroke (s : State) : (requestPageTone s).stroke = s.stroke := congrArg Firm.stroke (requestPageTone_firm s)
@[simp] theorem requestPageTone_gate (s : State) : (requestPageTone s).gate = s.gate := congrArg Firm.gate (requestPageTone_firm s)
@[simp] theorem requestPageTone_conv (s : State) : (requestPageTone s).conv = s.conv := congrArg Firm.conv (requestPageTone_firm s)
@[simp] theorem requestPageTone_touch (s : State) : (requestPageTone s).touch = s.touch := congrArg Firm.touch (requestPageTone_firm s)
@[simp] theorem requestPageTone_claims (s : State) : (requestPageTone s).claims = s.claims := congrArg Firm.claims (requestPageTone_firm s)
@[simp] theorem requestPageTone_pending (s : State) : (requestPageTone s).pending = s.pending := congrArg Firm.pending (requestPageTone_firm s)
@[simp] theorem requestPageTone_bus_strap (s : State) : (requestPageTone s).bus.strap = s.bus.strap :=
  congrArg Firm.strap (requestPageTone_firm s)
@[simp] theorem requestPageTone_bus_argument (s : State) : (requestPageTone s).bus.argument = s.bus.argument :=
  congrArg Firm.argument (requestPageTone_firm s)
@[simp] theorem requestPageTone_bus_enable (s : State) : (requestPageTone s).bus.enable = s.bus.enable :=
  congrArg Firm.enable (requestPageTone_firm s)
@[simp] theorem requestPageTone_bus_arbiter (s : State) : (requestPageTone s).bus.arbiter = s.bus.arbiter :=
  congrArg Firm.arbiter (requestPageTone_firm s)
@[simp] theorem requestPageTone_bus_hostRead (s : State) : (requestPageTone s).bus.hostRead = s.bus.hostRead :=
  congrArg Firm.hostRead (requestPageTone_firm s)
@[simp] theorem requestPageTone_engine_state (s : State) : (requestPageTone s).engine.state = s.engine.state :=
  congrArg Firm.engineState (requestPageTone_firm s)
@[simp] theorem requestPageTone_engine_copy (s : State) : (requestPageTone s).engine.copy = s.engine.copy :=
  congrArg Firm.copy (requestPageTone_firm s)
@[simp] theorem requestPageTone_engine_shown (s : State) : (requestPageTone s).engine.shown = s.engine.shown :=
  congrArg Firm.shown (requestPageTone_firm s)
@[simp] theorem requestPageTone_engine_startOut (s : State) : (requestPageTone s).engine.startOut = s.engine.startOut :=
  congrArg Firm.startOut (requestPageTone_firm s)
@[simp] theorem requestPageTone_engine_reading (s : State) : (requestPageTone s).engine.reading = s.engine.reading :=
  congrArg Firm.reading (requestPageTone_firm s)
@[simp] theorem requestPageTone_producer (s : State) : (requestPageTone s).events.producer = s.events.producer :=
  congrArg Firm.producer (requestPageTone_firm s)
@[simp] theorem requestPageTone_consumer (s : State) : (requestPageTone s).events.consumer = s.events.consumer :=
  congrArg Firm.consumer (requestPageTone_firm s)
@[simp] theorem requestPageTone_seg (s : State) (k : SegNo) : (requestPageTone s).seg k = s.seg k := by simp [State.seg]
@[simp] theorem requestPageTone_claim (s : State) (k : LineNo) : (requestPageTone s).claim k = s.claim k := by simp [State.claim]
@[simp] theorem requestPageTone_touchLine (s : State) (k : LineNo) : (requestPageTone s).touchLine k = s.touchLine k := by simp [State.touchLine]
@[simp] theorem requestPageTone_areaBase (s : State) : areaBase (requestPageTone s) = areaBase s := by simp [areaBase]

@[simp] theorem requestSilence_mem (s : State) : (requestSilence s).mem = s.mem := congrArg Firm.mem (requestSilence_firm s)
@[simp] theorem requestSilence_pins (s : State) : (requestSilence s).pins = s.pins := congrArg Firm.pins (requestSilence_firm s)
@[simp] theorem requestSilence_segs (s : State) : (requestSilence s).segs = s.segs := congrArg Firm.segs (requestSilence_firm s)
@[simp] theorem requestSilence_queue (s : State) : (requestSilence s).queue = s.queue := congrArg Firm.queue (requestSilence_firm s)
@[simp] theorem requestSilence_asm (s : State) : (requestSilence s).asm = s.asm := congrArg Firm.asm (requestSilence_firm s)
@[simp] theorem requestSilence_stroke (s : State) : (requestSilence s).stroke = s.stroke := congrArg Firm.stroke (requestSilence_firm s)
@[simp] theorem requestSilence_gate (s : State) : (requestSilence s).gate = s.gate := congrArg Firm.gate (requestSilence_firm s)
@[simp] theorem requestSilence_conv (s : State) : (requestSilence s).conv = s.conv := congrArg Firm.conv (requestSilence_firm s)
@[simp] theorem requestSilence_touch (s : State) : (requestSilence s).touch = s.touch := congrArg Firm.touch (requestSilence_firm s)
@[simp] theorem requestSilence_claims (s : State) : (requestSilence s).claims = s.claims := congrArg Firm.claims (requestSilence_firm s)
@[simp] theorem requestSilence_pending (s : State) : (requestSilence s).pending = s.pending := congrArg Firm.pending (requestSilence_firm s)
@[simp] theorem requestSilence_bus_strap (s : State) : (requestSilence s).bus.strap = s.bus.strap :=
  congrArg Firm.strap (requestSilence_firm s)
@[simp] theorem requestSilence_bus_argument (s : State) : (requestSilence s).bus.argument = s.bus.argument :=
  congrArg Firm.argument (requestSilence_firm s)
@[simp] theorem requestSilence_bus_enable (s : State) : (requestSilence s).bus.enable = s.bus.enable :=
  congrArg Firm.enable (requestSilence_firm s)
@[simp] theorem requestSilence_bus_arbiter (s : State) : (requestSilence s).bus.arbiter = s.bus.arbiter :=
  congrArg Firm.arbiter (requestSilence_firm s)
@[simp] theorem requestSilence_bus_hostRead (s : State) : (requestSilence s).bus.hostRead = s.bus.hostRead :=
  congrArg Firm.hostRead (requestSilence_firm s)
@[simp] theorem requestSilence_engine_state (s : State) : (requestSilence s).engine.state = s.engine.state :=
  congrArg Firm.engineState (requestSilence_firm s)
@[simp] theorem requestSilence_engine_copy (s : State) : (requestSilence s).engine.copy = s.engine.copy :=
  congrArg Firm.copy (requestSilence_firm s)
@[simp] theorem requestSilence_engine_shown (s : State) : (requestSilence s).engine.shown = s.engine.shown :=
  congrArg Firm.shown (requestSilence_firm s)
@[simp] theorem requestSilence_engine_startOut (s : State) : (requestSilence s).engine.startOut = s.engine.startOut :=
  congrArg Firm.startOut (requestSilence_firm s)
@[simp] theorem requestSilence_engine_reading (s : State) : (requestSilence s).engine.reading = s.engine.reading :=
  congrArg Firm.reading (requestSilence_firm s)
@[simp] theorem requestSilence_producer (s : State) : (requestSilence s).events.producer = s.events.producer :=
  congrArg Firm.producer (requestSilence_firm s)
@[simp] theorem requestSilence_consumer (s : State) : (requestSilence s).events.consumer = s.events.consumer :=
  congrArg Firm.consumer (requestSilence_firm s)
@[simp] theorem requestSilence_seg (s : State) (k : SegNo) : (requestSilence s).seg k = s.seg k := by simp [State.seg]
@[simp] theorem requestSilence_claim (s : State) (k : LineNo) : (requestSilence s).claim k = s.claim k := by simp [State.claim]
@[simp] theorem requestSilence_touchLine (s : State) (k : LineNo) : (requestSilence s).touchLine k = s.touchLine k := by simp [State.touchLine]
@[simp] theorem requestSilence_areaBase (s : State) : areaBase (requestSilence s) = areaBase s := by simp [areaBase]

/-! ### Forwarding a host write: everything but memory, the post list and the arbiter -/

@[simp] theorem waitForPost_pins (off : Nat) (s : State) : (waitForPost off s).pins = s.pins := by unfold waitForPost; split <;> rfl
@[simp] theorem waitForPost_segs (off : Nat) (s : State) : (waitForPost off s).segs = s.segs := by unfold waitForPost; split <;> rfl
@[simp] theorem waitForPost_queue (off : Nat) (s : State) : (waitForPost off s).queue = s.queue := by unfold waitForPost; split <;> rfl
@[simp] theorem waitForPost_asm (off : Nat) (s : State) : (waitForPost off s).asm = s.asm := by unfold waitForPost; split <;> rfl
@[simp] theorem waitForPost_stroke (off : Nat) (s : State) : (waitForPost off s).stroke = s.stroke := by unfold waitForPost; split <;> rfl
@[simp] theorem waitForPost_gate (off : Nat) (s : State) : (waitForPost off s).gate = s.gate := by unfold waitForPost; split <;> rfl
@[simp] theorem waitForPost_conv (off : Nat) (s : State) : (waitForPost off s).conv = s.conv := by unfold waitForPost; split <;> rfl
@[simp] theorem waitForPost_touch (off : Nat) (s : State) : (waitForPost off s).touch = s.touch := by unfold waitForPost; split <;> rfl
@[simp] theorem waitForPost_claims (off : Nat) (s : State) : (waitForPost off s).claims = s.claims := by unfold waitForPost; split <;> rfl
@[simp] theorem waitForPost_engine (off : Nat) (s : State) : (waitForPost off s).engine = s.engine := by unfold waitForPost; split <;> rfl
@[simp] theorem waitForPost_events (off : Nat) (s : State) : (waitForPost off s).events = s.events := by unfold waitForPost; split <;> rfl
@[simp] theorem waitForPost_chime (off : Nat) (s : State) : (waitForPost off s).chime = s.chime := by unfold waitForPost; split <;> rfl
@[simp] theorem waitForPost_owed (off : Nat) (s : State) : (waitForPost off s).owed = s.owed := by unfold waitForPost; split <;> rfl
@[simp] theorem waitForPost_pending (off : Nat) (s : State) : (waitForPost off s).pending = s.pending := by unfold waitForPost; split <;> rfl
@[simp] theorem waitForPost_bus_strap (off : Nat) (s : State) : (waitForPost off s).bus.strap = s.bus.strap := by unfold waitForPost; split <;> rfl
@[simp] theorem waitForPost_bus_argument (off : Nat) (s : State) : (waitForPost off s).bus.argument = s.bus.argument := by unfold waitForPost; split <;> rfl
@[simp] theorem waitForPost_bus_enable (off : Nat) (s : State) : (waitForPost off s).bus.enable = s.bus.enable := by unfold waitForPost; split <;> rfl
@[simp] theorem waitForPost_bus_hostRead (off : Nat) (s : State) : (waitForPost off s).bus.hostRead = s.bus.hostRead := by unfold waitForPost; split <;> rfl
@[simp] theorem waitForPost_seg (off : Nat) (s : State) (k : SegNo) : (waitForPost off s).seg k = s.seg k := by simp [State.seg]
@[simp] theorem waitForPost_claim (off : Nat) (s : State) (k : LineNo) : (waitForPost off s).claim k = s.claim k := by simp [State.claim]
@[simp] theorem waitForPost_touchLine (off : Nat) (s : State) (k : LineNo) : (waitForPost off s).touchLine k = s.touchLine k := by simp [State.touchLine]
@[simp] theorem waitForPost_areaBase (off : Nat) (s : State) : areaBase (waitForPost off s) = areaBase s := by simp [areaBase]

@[simp] theorem forwardArea_pins (off : Nat) (w : HostWrite) (s : State) : (forwardArea off w s).pins = s.pins := waitForPost_pins off s
@[simp] theorem forwardArea_segs (off : Nat) (w : HostWrite) (s : State) : (forwardArea off w s).segs = s.segs := waitForPost_segs off s
@[simp] theorem forwardArea_queue (off : Nat) (w : HostWrite) (s : State) : (forwardArea off w s).queue = s.queue := waitForPost_queue off s
@[simp] theorem forwardArea_asm (off : Nat) (w : HostWrite) (s : State) : (forwardArea off w s).asm = s.asm := waitForPost_asm off s
@[simp] theorem forwardArea_stroke (off : Nat) (w : HostWrite) (s : State) : (forwardArea off w s).stroke = s.stroke := waitForPost_stroke off s
@[simp] theorem forwardArea_gate (off : Nat) (w : HostWrite) (s : State) : (forwardArea off w s).gate = s.gate := waitForPost_gate off s
@[simp] theorem forwardArea_conv (off : Nat) (w : HostWrite) (s : State) : (forwardArea off w s).conv = s.conv := waitForPost_conv off s
@[simp] theorem forwardArea_touch (off : Nat) (w : HostWrite) (s : State) : (forwardArea off w s).touch = s.touch := waitForPost_touch off s
@[simp] theorem forwardArea_claims (off : Nat) (w : HostWrite) (s : State) : (forwardArea off w s).claims = s.claims := waitForPost_claims off s
@[simp] theorem forwardArea_engine (off : Nat) (w : HostWrite) (s : State) : (forwardArea off w s).engine = s.engine := waitForPost_engine off s
@[simp] theorem forwardArea_events (off : Nat) (w : HostWrite) (s : State) : (forwardArea off w s).events = s.events := waitForPost_events off s
@[simp] theorem forwardArea_chime (off : Nat) (w : HostWrite) (s : State) : (forwardArea off w s).chime = s.chime := waitForPost_chime off s
@[simp] theorem forwardArea_owed (off : Nat) (w : HostWrite) (s : State) : (forwardArea off w s).owed = s.owed := waitForPost_owed off s
@[simp] theorem forwardArea_pending (off : Nat) (w : HostWrite) (s : State) : (forwardArea off w s).pending = s.pending := waitForPost_pending off s
@[simp] theorem forwardArea_bus_strap (off : Nat) (w : HostWrite) (s : State) : (forwardArea off w s).bus.strap = s.bus.strap := waitForPost_bus_strap off s
@[simp] theorem forwardArea_bus_argument (off : Nat) (w : HostWrite) (s : State) : (forwardArea off w s).bus.argument = s.bus.argument := waitForPost_bus_argument off s
@[simp] theorem forwardArea_bus_enable (off : Nat) (w : HostWrite) (s : State) : (forwardArea off w s).bus.enable = s.bus.enable := waitForPost_bus_enable off s
@[simp] theorem forwardArea_bus_hostRead (off : Nat) (w : HostWrite) (s : State) : (forwardArea off w s).bus.hostRead = s.bus.hostRead := waitForPost_bus_hostRead off s
@[simp] theorem forwardArea_seg (off : Nat) (w : HostWrite) (s : State) (k : SegNo) : (forwardArea off w s).seg k = s.seg k := by simp [State.seg]
@[simp] theorem forwardArea_claim (off : Nat) (w : HostWrite) (s : State) (k : LineNo) : (forwardArea off w s).claim k = s.claim k := by simp [State.claim]
@[simp] theorem forwardArea_touchLine (off : Nat) (w : HostWrite) (s : State) (k : LineNo) : (forwardArea off w s).touchLine k = s.touchLine k := by simp [State.touchLine]
@[simp] theorem forwardArea_areaBase (off : Nat) (w : HostWrite) (s : State) : areaBase (forwardArea off w s) = areaBase s := by simp [areaBase]

@[simp] theorem drainHead_pins (s : State) : (drainHead s).pins = s.pins := by unfold drainHead; split <;> rfl
@[simp] theorem drainHead_segs (s : State) : (drainHead s).segs = s.segs := by unfold drainHead; split <;> rfl
@[simp] theorem drainHead_queue (s : State) : (drainHead s).queue = s.queue := by unfold drainHead; split <;> rfl
@[simp] theorem drainHead_asm (s : State) : (drainHead s).asm = s.asm := by unfold drainHead; split <;> rfl
@[simp] theorem drainHead_stroke (s : State) : (drainHead s).stroke = s.stroke := by unfold drainHead; split <;> rfl
@[simp] theorem drainHead_gate (s : State) : (drainHead s).gate = s.gate := by unfold drainHead; split <;> rfl
@[simp] theorem drainHead_conv (s : State) : (drainHead s).conv = s.conv := by unfold drainHead; split <;> rfl
@[simp] theorem drainHead_touch (s : State) : (drainHead s).touch = s.touch := by unfold drainHead; split <;> rfl
@[simp] theorem drainHead_claims (s : State) : (drainHead s).claims = s.claims := by unfold drainHead; split <;> rfl
@[simp] theorem drainHead_engine (s : State) : (drainHead s).engine = s.engine := by unfold drainHead; split <;> rfl
@[simp] theorem drainHead_events (s : State) : (drainHead s).events = s.events := by unfold drainHead; split <;> rfl
@[simp] theorem drainHead_chime (s : State) : (drainHead s).chime = s.chime := by unfold drainHead; split <;> rfl
@[simp] theorem drainHead_owed (s : State) : (drainHead s).owed = s.owed := by unfold drainHead; split <;> rfl
@[simp] theorem drainHead_pending (s : State) : (drainHead s).pending = s.pending := by unfold drainHead; split <;> rfl
@[simp] theorem drainHead_bus_strap (s : State) : (drainHead s).bus.strap = s.bus.strap := by unfold drainHead; split <;> rfl
@[simp] theorem drainHead_bus_argument (s : State) : (drainHead s).bus.argument = s.bus.argument := by unfold drainHead; split <;> rfl
@[simp] theorem drainHead_bus_enable (s : State) : (drainHead s).bus.enable = s.bus.enable := by unfold drainHead; split <;> rfl
@[simp] theorem drainHead_bus_hostRead (s : State) : (drainHead s).bus.hostRead = s.bus.hostRead := by unfold drainHead; split <;> rfl
@[simp] theorem drainHead_seg (s : State) (k : SegNo) : (drainHead s).seg k = s.seg k := by simp [State.seg]
@[simp] theorem drainHead_claim (s : State) (k : LineNo) : (drainHead s).claim k = s.claim k := by simp [State.claim]
@[simp] theorem drainHead_touchLine (s : State) (k : LineNo) : (drainHead s).touchLine k = s.touchLine k := by simp [State.touchLine]
@[simp] theorem drainHead_areaBase (s : State) : areaBase (drainHead s) = areaBase s := by simp [areaBase]

end Sys2Proof.Machine
end

