-- ==== Sys2Proof/Laws/Work.lean ====
section
/-! SUPPORT. Induction over a walk and over the judging of new work: a property kept by each thing they can do is kept by the whole. -/

namespace Sys2Proof.Machine

/-- Whatever rule the part keeps, a segment so judged is as it was, or was CLEAN with changes or without a target and is STALE (R41, R74). -/
theorem Segment.keptCleanIf_or (yields : Bool) (r : Segment) :
    r.keptCleanIf yields = r ∨ yields = true ∧ r.state = .clean ∧ (r.target = none ∨ changeSet r ≠ 0) ∧
      r.keptCleanIf yields = { r with state := .stale } := by
  unfold Segment.keptCleanIf
  split
  · rename_i h
    exact .inr ⟨h.2.2, h.1, h.2.1, rfl⟩
  · exact .inl rfl

/-- A segment that is not CLEAN is as it was. -/
theorem Segment.keptCleanIf_other {yields : Bool} {r : Segment} (h : r.state ≠ .clean) : r.keptCleanIf yields = r := by
  simp [Segment.keptCleanIf, h]

/-- One that shows its target is as it was. -/
theorem Segment.keptCleanIf_shows {yields : Bool} {r : Segment} (h : ShowsTarget r) : r.keptCleanIf yields = r := by
  have ht : r.target ≠ none := fun hn => by have := h.1; simp [hn] at this
  simp [Segment.keptCleanIf, h.2, ht]

theorem walkOn_induct (P : State → Prop)
    (hend : ∀ s a, s.asm = some a → P s → P (walkEnd a s))
    (hpass : ∀ s a i rest, s.asm = some a → s.queue.behind = i :: rest → P s → P (setQueue (s.queue.passMark i rest) s))
    (hstart : ∀ s a i rest, s.asm = some a → s.queue.behind = i :: rest → eligible a s i = true → P s →
      P (captureStart i (setQueue (s.queue.passMark i rest) s)))
    (hnone : ∀ s a i rest, s.asm = some a → s.queue.behind = i :: rest → eligible a s i = true → s.engine.shown = .none → P s →
      P (captureNone i (setQueue (s.queue.passMark i rest) s))) :
    ∀ n s, P s → P (walkOn n s) := by
  intro n
  induction n with
  | zero => exact fun s h => h
  | succ n ih =>
    intro s h
    unfold walkOn
    split
    · exact h
    · rename_i a ha
      split
      · exact hend s a ha h
      · split
        · exact hend s a ha h
        · rename_i i rest hb
          split
          · rename_i he
            simp only
            split
            · rename_i hn
              exact ih _ (hnone s a i rest ha hb he hn h)
            · exact hstart s a i rest ha hb he h
          · exact ih _ (hpass s a i rest ha hb h)

theorem repeat_induct (P : State → Prop) {f : State → State} (h : ∀ s, P s → P (f s)) (n : Nat) (s : State) (hs : P s) :
    P (Nat.repeat f n s) := by
  induction n with
  | zero => exact hs
  | succ n ih => exact h _ ih

/-- What judging new work can do: start a drive, start a walk, and then start one sweep or one SENSE job. -/
theorem judge_induct (P : State → Prop)
    (hdrive : ∀ s, driveReady s = true → P s → P (driveStart s))
    (hwalk : ∀ s, walkReady s = true → P s → P (startWalk s))
    (hsweep : ∀ s i, mayGrant s = true → i ∈ s.queue.entries → sweepable s i = true → P s → P (startSweep i s))
    (hsense : ∀ s i, mayGrant s = true → sensePick s = some i → P s → P (startSense i s)) (s : State) (h : P s) :
    P (judge s) := by
  have hw : P (judgeWork s) := by
    refine repeat_induct P (fun s hs => ?_) 8 s h
    unfold workRound
    split
    · rename_i hd
      exact hdrive s hd hs
    · split
      · rename_i hr
        exact hwalk s hr hs
      · exact hs
  unfold judge judgeGrant
  split
  · rename_i hg
    split
    · rename_i i hi
      exact hsweep _ i hg (List.mem_of_find?_eq_some hi) (List.find?_some hi) hw
    · split
      · rename_i i hi
        exact hsense _ i hg hi hw
      · exact hw
  · exact hw

/-- Nothing starts in a state where no drive, no walk and no grant is ready. -/
theorem judge_quiet {s : State} (hd : driveReady s = false) (hw : walkReady s = false) (hg : mayGrant s = false) : judge s = s := by
  have hr : workRound s = s := by simp [workRound, hd, hw]
  have h8 : judgeWork s = s := by simp [judgeWork, Nat.repeat, hr]
  simp [judge, h8, judgeGrant, hg]

/-- With the engine not RUNNING no drive and no walk starts. -/
theorem judgeWork_notRunning {s : State} (h : s.engine.state ≠ .running) : judgeWork s = s := by
  have hr : workRound s = s := by simp [workRound, driveReady, walkReady, h]
  simp [judgeWork, Nat.repeat, hr]

/-- With the engine not RUNNING only a grant is judged. -/
theorem judge_notRunning {s : State} (h : s.engine.state ≠ .running) : judge s = judgeGrant s := by
  simp [judge, judgeWork_notRunning h]

end Sys2Proof.Machine
end

