-- ==== Sys2Proof/Laws/Queue.lean ====
section
/-! SUPPORT. The refresh queue: what joins, leaves and stays (R47 to R57), and the law of its contents kept by judging queue-ability. -/

namespace Sys2Proof.Machine

theorem mem_entries {q : Queue} {i : SegNo} : i ∈ q.entries ↔ i ∈ q.ahead ∨ i ∈ q.behind := by simp [Queue.entries]

theorem mem_join (q : Queue) (e : QueueEnd) (i j : SegNo) : j ∈ (q.join e i).entries ↔ j = i ∨ j ∈ q.entries := by
  cases e <;> simp only [Queue.join, Queue.joinHead, Queue.joinTail, mem_entries]
  · split <;> simp [Queue.entries, or_assoc]
  · simp only [List.mem_append, List.mem_singleton]; tauto

theorem mem_leave (q : Queue) (i j : SegNo) : j ∈ (q.leave i).entries ↔ j ≠ i ∧ j ∈ q.entries := by
  simp [Queue.leave, mem_entries, ← and_or_left, and_comm]

theorem entries_leave (q : Queue) (i : SegNo) : (q.leave i).entries = q.entries.filter (· != i) := by
  simp [Queue.leave, Queue.entries]

theorem nodup_leave {q : Queue} (h : q.entries.Nodup) (i : SegNo) : (q.leave i).entries.Nodup := by
  rw [entries_leave]
  exact h.filter _

theorem nodup_join {q : Queue} (h : q.entries.Nodup) (e : QueueEnd) {i : SegNo} (hi : i ∉ q.entries) :
    (q.join e i).entries.Nodup := by
  have key : ∀ l : List SegNo, l.Perm (i :: q.entries) → l.Nodup := fun l hl =>
    hl.nodup_iff.2 (List.nodup_cons.2 ⟨hi, h⟩)
  cases e <;> simp only [Queue.join, Queue.joinHead, Queue.joinTail]
  · split
    · exact key _ (List.Perm.refl _)
    · exact key _ (by simp [Queue.entries])
  · refine key _ ?_
    have := List.perm_append_comm (l₁ := q.entries) (l₂ := [i])
    simpa [Queue.entries] using this

@[simp] theorem entries_startWalk (q : Queue) : q.startWalk.entries = q.entries := by simp [Queue.startWalk, Queue.entries]

@[simp] theorem entries_endWalk (q : Queue) : q.endWalk.entries = q.entries := by simp [Queue.endWalk, Queue.entries]

theorem entries_passMark {q : Queue} {i : SegNo} {rest : List SegNo} (h : q.behind = i :: rest) :
    (q.passMark i rest).entries = q.entries := by simp [Queue.passMark, Queue.entries, h]

/-! ### Judging queue-ability (R40, R47) -/

theorem mem_sync (e : QueueEnd) (i j : SegNo) (s : State) :
    j ∈ (sync e i s).queue.entries ↔ if j = i then queueable s.engine (s.seg i) = true else j ∈ s.queue.entries := by
  unfold sync
  by_cases hq : queueable s.engine (s.seg i) = true
  · simp only [hq, if_true]
    by_cases hc : i ∈ s.queue.entries
    · by_cases hj : j = i <;> simp [hc, hj]
    · by_cases hj : j = i <;> simp [hc, hj, mem_join]
  · by_cases hj : j = i <;> simp [hq, hj, mem_leave]

theorem nodup_sync {s : State} (h : s.queue.entries.Nodup) (e : QueueEnd) (i : SegNo) : (sync e i s).queue.entries.Nodup := by
  unfold sync
  split
  · split
    · exact h
    · rename_i hc
      exact nodup_join h e (by simpa using hc)
  · exact nodup_leave h i

/-- The law of the queue on every segment outside a list. -/
def QueueLawfulBut (S : List SegNo) (s : State) : Prop :=
  s.queue.entries.Nodup ∧ ∀ i, i ∉ S → (i ∈ s.queue.entries ↔ queueable s.engine (s.seg i) = true)

theorem QueueLawful.but {s : State} (h : QueueLawful s) (S : List SegNo) : QueueLawfulBut S s := ⟨h.1, fun i _ => h.2 i⟩

theorem QueueLawfulBut.all {s : State} (h : QueueLawfulBut [] s) : QueueLawful s := ⟨h.1, fun i => h.2 i (by simp)⟩

theorem QueueLawfulBut.mono {S T : List SegNo} {s : State} (h : QueueLawfulBut S s) (hs : ∀ i ∈ S, i ∈ T) : QueueLawfulBut T s :=
  ⟨h.1, fun i hi => h.2 i fun hi' => hi (hs i hi')⟩

/-- The law depends on the queue, the records and the engine alone. -/
theorem QueueLawfulBut.congr {S : List SegNo} {s t : State} (h : QueueLawfulBut S s) (hq : t.queue.entries = s.queue.entries)
    (hs : ∀ i, i ∉ S → t.seg i = s.seg i) (he : t.engine = s.engine) : QueueLawfulBut S t :=
  ⟨by rw [hq]; exact h.1, fun i hi => by rw [hq, hs i hi, he]; exact h.2 i hi⟩

theorem QueueLawfulBut.setSeg {S : List SegNo} {s : State} (h : QueueLawfulBut S s) (i : SegNo) (r : Segment) :
    QueueLawfulBut (i :: S) (setSeg i r s) := by
  refine ⟨h.1, fun j hj => ?_⟩
  simp only [List.mem_cons, not_or] at hj
  rw [seg_setSeg_other hj.1]
  exact h.2 j hj.2

theorem QueueLawfulBut.sync {S : List SegNo} {s : State} (h : QueueLawfulBut S s) (e : QueueEnd) (i : SegNo) :
    QueueLawfulBut (S.filter (· != i)) (sync e i s) := by
  refine ⟨nodup_sync h.1 e i, fun j hj => ?_⟩
  have he : (Machine.sync e i s).engine = s.engine := congrArg Still.engine (sync_still e i s)
  rw [mem_sync, sync_seg, he]
  by_cases hji : j = i
  · simp [hji]
  · simp only [hji, if_false]
    exact h.2 j (by simpa [hji] using hj)

theorem QueueLawfulBut.syncs {e : QueueEnd} {is S : List SegNo} {s : State} (h : QueueLawfulBut S s) :
    QueueLawfulBut (S.filter fun i => !is.contains i) (is.foldl (fun s i => Machine.sync e i s) s) := by
  induction is generalizing S s with
  | nil => exact h.mono (by simp)
  | cons i is ih =>
    refine (ih (h.sync e i)).mono fun j => ?_
    simp only [List.mem_filter, List.contains_cons, Bool.not_or, Bool.and_eq_true]
    rintro ⟨⟨h1, h2⟩, h3⟩
    exact ⟨h1, by simpa [bne] using h2, h3⟩

/-- Judging the tail joins of every segment whose record changed restores the law. -/
theorem QueueLawfulBut.syncTail {is S : List SegNo} {s : State} (h : QueueLawfulBut S s) (hs : ∀ i ∈ S, i ∈ is) :
    QueueLawful (syncTail is s) := by
  refine ((h.syncs (e := .tail) (is := is)).mono (T := []) fun j => ?_).all
  simp only [List.mem_filter]
  rintro ⟨h1, h2⟩
  simp [hs j h1] at h2

/-- Judging the head joins of segments takes them out of the list of those still to be judged. -/
theorem QueueLawfulBut.syncHead {is S : List SegNo} {s : State} (h : QueueLawfulBut S s) :
    QueueLawfulBut (S.filter fun i => !is.contains i) (syncHead is s) := by
  refine (h.syncs (e := .head) (is := is.reverse)).mono fun j => ?_
  simp [List.mem_filter]

theorem QueueLawful.putSeg {s : State} (h : QueueLawful s) (e : QueueEnd) (i : SegNo) (r : Segment) :
    QueueLawful (putSeg e i r s) := by
  have := (((h.but []).setSeg i r).sync e i)
  exact (this.mono (T := []) (by simp)).all

end Sys2Proof.Machine
end

