-- ==== Sys2Proof/Laws/Events.lean ====
section
/-! SUPPORT. What exec and step answer: a next state, always; and what the end of an event posts, raises and leaves. -/

namespace Sys2Proof.Machine

/-! ### exec and step -/

/-- Every command has a next state: no event of the manual stops the part. -/
theorem exec_next (c : Instr) (s : State) : ∃ t, exec c s = .next t := by cases c <;> exact ⟨_, rfl⟩

/-- What a step can do: a millisecond passes on an empty queue, or the command at its front runs on the rest of it. -/
theorem step_cases {s t : State} (h : step s = .next t) :
    (s.pending = [] ∧ t = tick s) ∨ ∃ c rest, s.pending = c :: rest ∧ exec c { s with pending := rest } = .next t := by
  unfold step at h
  split at h
  · rename_i hp
    exact .inl ⟨hp, (Host.Outcome.next.inj h).symm⟩
  · rename_i c rest hp
    exact .inr ⟨c, rest, hp, h⟩

/-! ### Pending events -/

theorem isPending_raise (e f : Event) (s : State) : isPending (raise e s) f = (f == e || isPending s f) := by
  have : e.mask.getLsbD f.bit = (f == e) := by cases e <;> cases f <;> rfl
  simp [isPending, this, Bool.or_comm]

theorem isPending_giveResult (c : Byte) (r : ResultCode) (f : Event) (s : State) :
    isPending (giveResult c r s) f = (f == .cmdDone || isPending s f) := isPending_raise _ _ _

theorem isPending_congr {s t : State} (h : t.events.pending = s.events.pending) (f : Event) : isPending t f = isPending s f := by
  simp [isPending, h]

/-! ### The posts that end an event -/

theorem postAll_events (ps : List (Nat × Word)) (s : State) : (postAll ps s).events = s.events :=
  foldl_keeps State.events (f := fun s (p : Nat × Word) => post p.1 p.2 s) (fun _ _ => rfl) ps s

theorem postMirrors_events (is : List SegNo) (s : State) : (postMirrors is s).events = s.events :=
  foldl_keeps State.events (f := fun s i => post (PartWord.offset (.mirror i)) (mirrorWord s.engine.shown (s.seg i)) s)
    (fun _ _ => rfl) is s

theorem postMirrors_owed (is : List SegNo) (s : State) : (postMirrors is s).owed = ⟨[], s.owed.results, s.owed.pending⟩ := rfl

/-- An event posts the mirror word of each segment that it changed or whose post a rule of it names. -/
theorem mem_mirrorsToPost {b s : State} {i : SegNo} :
    i ∈ mirrorsToPost b s ↔ mirrorChanged b s i = true ∨ i ∈ s.owed.mirrors := by
  simp [mirrorsToPost, allSegs]

theorem postStatusIf_events (b s : State) : (postStatusIf b s).events = s.events := by unfold postStatusIf; split <;> rfl

theorem postStatusIf_owed (b s : State) : (postStatusIf b s).owed = s.owed := by unfold postStatusIf; split <;> rfl

theorem postResults_events (s : State) : (postResults s).events = s.events :=
  foldl_keeps State.events (f := fun s v => post (PartWord.offset .result) v s) (fun _ _ => rfl) s.owed.results s

theorem postResults_owed (s : State) : (postResults s).owed = ⟨s.owed.mirrors, [], s.owed.pending⟩ := by
  simp [postResults]

theorem postPending_events (s : State) : (postPending s).events = s.events := by unfold postPending; split <;> rfl

theorem postPending_owed (s : State) : (postPending s).owed = ⟨s.owed.mirrors, s.owed.results, false⟩ := by
  unfold postPending
  split
  · rfl
  · rename_i h
    cases ho : s.owed
    simp_all

@[simp] theorem closePosts_events (b s : State) : (closePosts b s).events = s.events := by
  simp [closePosts, postPending_events, postResults_events, postStatusIf_events, postMirrors_events]

/-- Nothing is owed after the end of an event. -/
theorem closePosts_owed (b s : State) : (closePosts b s).owed = Owed.nothing := by
  simp [closePosts, postPending_owed, postResults_owed, postStatusIf_owed, postMirrors_owed, Owed.nothing]

theorem closeEvent_owed (b s : State) : OwesNothing (closeEvent b s) := closePosts_owed _ _

theorem closeShow_owed (b s : State) : OwesNothing (closeShow b s) := closePosts_owed _ _

theorem refuse_owed (c : Byte) (r : ResultCode) {s : State} (h : s.owed.mirrors = []) : OwesNothing (refuse c r s) := by
  simp [refuse, OwesNothing, postPending_owed, postResults_owed, Owed.nothing, h]

/-- The post list and the pending word after the event pending word is posted. -/
theorem postPending_posts {s : State} (h : s.owed.pending = true) :
    (postPending s).bus.posts = postTo s.bus.posts ⟨PartWord.offset .eventPending, pendingWord s⟩ := by
  simp [postPending, h]

/-- Two words posted one after the other stand at the tail of the list. -/
theorem postTo_two (l : List Post) {p q : Post} (h : p.offset ≠ q.offset) : ∃ ps, postTo (postTo l p) q = ps ++ [p, q] :=
  ⟨(l.filter fun x => x.offset != p.offset).filter fun x => x.offset != q.offset, by simp [postTo, h]⟩

/-- The last two posts of an event that gives a result: the last result word given, and the event pending word (R164). -/
theorem postPending_postResults_tail {s : State} {vs : List Word} {v : Word} (hr : s.owed.results = vs ++ [v])
    (hp : s.owed.pending = true) :
    ∃ ps, (postPending (postResults s)).bus.posts =
      ps ++ [⟨PartWord.offset .result, v⟩, ⟨PartWord.offset .eventPending, pendingWord s⟩] := by
  have h1 : (postResults s).owed.pending = true := by simp [postResults_owed, hp]
  have h2 : (postResults s).bus.posts = postTo
      ((vs.foldl (fun s v => post (PartWord.offset .result) v s) s).bus.posts) ⟨PartWord.offset .result, v⟩ := by
    simp [postResults, hr]
  have h3 : pendingWord (postResults s) = pendingWord s := by simp [pendingWord, postResults_events]
  rw [postPending_posts h1, h2, h3]
  exact postTo_two _ (show PartWord.offset .result ≠ PartWord.offset .eventPending by decide)

/-- The last two posts of a closed event that gives a result (R164). -/
theorem closePosts_tail {b s : State} {vs : List Word} {v : Word} (hr : s.owed.results = vs ++ [v])
    (hp : s.owed.pending = true) :
    ∃ ps, (closePosts b s).bus.posts =
      ps ++ [⟨PartWord.offset .result, v⟩, ⟨PartWord.offset .eventPending, pendingWord s⟩] := by
  have he : pendingWord (postStatusIf b (postMirrors (mirrorsToPost b s) s)) = pendingWord s := by
    simp [pendingWord, postStatusIf_events, postMirrors_events]
  have := postPending_postResults_tail (s := postStatusIf b (postMirrors (mirrorsToPost b s) s)) (vs := vs) (v := v)
    (by simp [postStatusIf_owed, postMirrors_owed, hr]) (by simp [postStatusIf_owed, postMirrors_owed, hp])
  rwa [he] at this

/-! ### The law of the post list at the end of an event (R11) -/

theorem PostsLawful.foldl {α : Type} {f : State → α → State} (hf : ∀ s x, PostsLawful s → PostsLawful (f s x)) (l : List α)
    {s : State} (h : PostsLawful s) : PostsLawful (l.foldl f s) := by
  induction l generalizing s with
  | nil => exact h
  | cons x l ih => exact ih (hf s x h)

theorem PostsLawful.postMirrors {s : State} (h : PostsLawful s) (is : List SegNo) : PostsLawful (postMirrors is s) :=
  (PostsLawful.foldl (f := fun s i => Machine.post (PartWord.offset (.mirror i)) (mirrorWord s.engine.shown (s.seg i)) s)
    (fun _ i h => h.post (postable_word (.mirror i)) _) is h).congr rfl

theorem PostsLawful.postResults {s : State} (h : PostsLawful s) : PostsLawful (postResults s) :=
  (PostsLawful.foldl (f := fun s v => Machine.post (PartWord.offset .result) v s)
    (fun _ _ h => h.post (postable_word .result) _) s.owed.results h).congr rfl

theorem PostsLawful.postPending {s : State} (h : PostsLawful s) : PostsLawful (postPending s) := by
  unfold Machine.postPending
  split
  · exact (h.post (postable_word .eventPending) (pendingWord s)).congr rfl
  · exact h

theorem PostsLawful.postStatusIf {s : State} (h : PostsLawful s) (b : State) : PostsLawful (postStatusIf b s) := by
  unfold Machine.postStatusIf
  split
  · exact h
  · exact h.post (postable_word .engineStatus) _

theorem PostsLawful.closePosts {s : State} (h : PostsLawful s) (b : State) : PostsLawful (closePosts b s) :=
  ((h.postMirrors _).postStatusIf b).postResults.postPending

theorem PostsLawful.refuse {s : State} (h : PostsLawful s) (c : Byte) (r : ResultCode) : PostsLawful (refuse c r s) :=
  (PostsLawful.congr (t := giveResult c r s) h rfl).postResults.postPending

/-! ### Judging the settled page (R183) -/

@[simp] theorem requestPageTone_bus (s : State) : (requestPageTone s).bus = s.bus := by
  unfold requestPageTone
  split
  · split <;> rfl
  · rfl

@[simp] theorem requestPageTone_events (s : State) : (requestPageTone s).events = s.events := by
  unfold requestPageTone
  split
  · split <;> rfl
  · rfl

@[simp] theorem requestPageTone_owed (s : State) : (requestPageTone s).owed = s.owed := by
  unfold requestPageTone
  split
  · split <;> rfl
  · rfl

@[simp] theorem judgeSettled_bus (b : Bool) (u s : State) : (judgeSettled b u s).bus = s.bus := by
  unfold judgeSettled pageSettles
  split
  · split
    · simp only; split <;> simp
    · rfl
  · split <;> rfl

theorem judgeSettled_results (b : Bool) (u s : State) : (judgeSettled b u s).owed.results = s.owed.results := by
  unfold judgeSettled pageSettles
  split
  · split
    · simp only; split <;> simp
    · rfl
  · split <;> rfl

theorem judgeSettled_owesPending {s : State} (h : s.owed.pending = true) (b : Bool) (u : State) :
    (judgeSettled b u s).owed.pending = true := by
  unfold judgeSettled pageSettles
  split
  · split
    · simp only; split <;> simp
    · exact h
  · split <;> exact h

/-- Judging the settled page raises PAGE_DONE or nothing. -/
theorem judgeSettled_raises (b : Bool) (u s : State) :
    (judgeSettled b u s).events.pending = s.events.pending ∨
      (judgeSettled b u s).events.pending = s.events.pending ||| Event.pageDone.mask := by
  unfold judgeSettled pageSettles
  split
  · split
    · simp only; split <;> simp
    · exact .inl rfl
  · split <;> exact .inl rfl

/-- The end of an event leaves every event but PAGE_DONE as it was. -/
theorem isPending_closeEvent {f : Event} (hf : f ≠ .pageDone) (b s : State) : isPending (closeEvent b s) f = isPending s f := by
  have h : (closeEvent b s).events = (judgeSettled false b s).events := closePosts_events _ _
  have key : isPending (judgeSettled false b s) f = isPending s f := by
    rcases judgeSettled_raises false b s with e | e
    · exact isPending_congr e f
    · have : Event.pageDone.mask.getLsbD f.bit = false := by revert hf; cases f <;> simp <;> decide
      simp [isPending, e, this]
  rw [← key]
  exact isPending_congr (by rw [h]) f

/-- An event pending before the end of an event is pending after it. -/
theorem isPending_closeEvent_mono {f : Event} {b s : State} (h : isPending s f = true) : isPending (closeEvent b s) f = true := by
  have e1 : (closeEvent b s).events = (judgeSettled false b s).events := closePosts_events _ _
  have : isPending (closeEvent b s) f = isPending (judgeSettled false b s) f := isPending_congr (by rw [e1]) f
  rw [this]
  rcases judgeSettled_raises false b s with e | e
  · rwa [isPending_congr e f]
  · simp only [isPending] at h
    simp [isPending, e, h]

theorem PostsLawful.closeEvent {s : State} (h : PostsLawful s) (b : State) : PostsLawful (closeEvent b s) :=
  (h.congr (judgeSettled_bus false b s ▸ rfl : (judgeSettled false b s).bus.posts = s.bus.posts)).closePosts b

/-- The last two posts of a command that ends its event: its last result word, and the event pending word (R164). -/
theorem closeEvent_tail {b s : State} {vs : List Word} {v : Word} (hr : s.owed.results = vs ++ [v])
    (hp : s.owed.pending = true) :
    ∃ ps, (closeEvent b s).bus.posts =
      ps ++ [⟨PartWord.offset .result, v⟩, ⟨PartWord.offset .eventPending, pendingWord (closeEvent b s)⟩] := by
  have e : pendingWord (closeEvent b s) = pendingWord (judgeSettled false b s) := by
    simp [pendingWord, closeEvent]
  rw [e]
  exact closePosts_tail ((judgeSettled_results false b s).trans hr) (judgeSettled_owesPending hp false b)

end Sys2Proof.Machine
end

