-- ==== Sys2Proof/Laws/Mirrors.lean ====
section
/-! SUPPORT. A mirror word that is owed stays owed through the work that follows it in its event, and the end of the event posts it. -/

namespace Sys2Proof.Machine

/-- Every mirror word that `s` owes, `t` owes too. -/
def KeepsOwed (s t : State) : Prop := ∀ i, i ∈ s.owed.mirrors → i ∈ t.owed.mirrors

theorem KeepsOwed.refl (s : State) : KeepsOwed s s := fun _ h => h

theorem KeepsOwed.trans {s t u : State} (h : KeepsOwed s t) (k : KeepsOwed t u) : KeepsOwed s u := fun i hi => k i (h i hi)

theorem KeepsOwed.of_eq {s t : State} (h : t.owed.mirrors = s.owed.mirrors) : KeepsOwed s t := fun _ hi => h ▸ hi

theorem KeepsOwed.oweMirror (i : SegNo) (s : State) : KeepsOwed s (oweMirror i s) := fun _ h => List.mem_cons_of_mem _ h

theorem mem_oweMirror (i : SegNo) (s : State) : i ∈ (oweMirror i s).owed.mirrors := by simp

/-! ### Work that owes nothing more -/

@[simp] theorem sync_mirrors (e : QueueEnd) (i : SegNo) (s : State) : (sync e i s).owed.mirrors = s.owed.mirrors := by
  rw [sync_eq]; rfl

@[simp] theorem putSeg_mirrors (e : QueueEnd) (i : SegNo) (r : Segment) (s : State) :
    (putSeg e i r s).owed.mirrors = s.owed.mirrors := by simp [putSeg]

@[simp] theorem syncTail_mirrors (is : List SegNo) (s : State) : (syncTail is s).owed.mirrors = s.owed.mirrors :=
  foldl_keeps (fun s => s.owed.mirrors) (fun s i => sync_mirrors .tail i s) is s

@[simp] theorem syncHead_mirrors (is : List SegNo) (s : State) : (syncHead is s).owed.mirrors = s.owed.mirrors :=
  foldl_keeps (fun s => s.owed.mirrors) (fun s i => sync_mirrors .head i s) is.reverse s

@[simp] theorem setStates_mirrors (st : SegState) (is : List SegNo) (s : State) :
    (setStates st is s).owed.mirrors = s.owed.mirrors :=
  foldl_keeps (fun s => s.owed.mirrors) (f := fun s i => setSeg i { s.seg i with state := st } s) (fun _ _ => rfl) is s

@[simp] theorem walkEnd_mirrors (a : Assembly) (s : State) : (walkEnd a s).owed.mirrors = s.owed.mirrors := by
  unfold walkEnd
  split <;> rfl

@[simp] theorem driveStart_mirrors (s : State) : (driveStart s).owed.mirrors = s.owed.mirrors := by
  unfold driveStart
  split
  · rfl
  · simp only
    split <;> simp

/-! ### Work that may owe more -/

theorem captureStart_keepsOwed (i : SegNo) (s : State) : KeepsOwed s (captureStart i s) := by
  unfold captureStart
  split
  · exact (KeepsOwed.of_eq (by simp)).trans (.oweMirror i _)
  · exact (KeepsOwed.of_eq (by simp)).trans (.oweMirror i _)

theorem captureStore_keepsOwed (s : State) : KeepsOwed s (captureStore s) := by
  unfold captureStore
  split
  · exact .refl s
  · split
    · exact .refl s
    · split
      · exact (KeepsOwed.of_eq rfl).trans (.oweMirror _ _)
      · exact .of_eq rfl

/-- The end of a capture whose segment is still CAPTURING owes its mirror word (R68 to R72). -/
theorem captureStore_owes {s : State} {a : Assembly} {c : Capture} (ha : s.asm = some a) (hc : a.capture = some c)
    (h : (s.seg c.seg).state = .capturing) : c.seg ∈ (captureStore s).owed.mirrors := by
  simp [captureStore, ha, hc, h]

theorem captureNone_keepsOwed (i : SegNo) (s : State) : KeepsOwed s (captureNone i s) :=
  ((captureStart_keepsOwed i s).trans (captureStore_keepsOwed _)).trans (.of_eq (sync_mirrors _ _ _))

theorem walkFromMark_keepsOwed (s : State) : KeepsOwed s (walkFromMark s) :=
  walkOn_induct (KeepsOwed s) (fun _ _ _ h => h.trans (.of_eq (walkEnd_mirrors _ _))) (fun _ _ _ _ _ _ h => h.trans (.of_eq rfl))
    (fun u _ i rest _ _ _ h => h.trans (captureStart_keepsOwed i (setQueue (u.queue.passMark i rest) u)))
    (fun u _ i rest _ _ _ _ h => h.trans (captureNone_keepsOwed i (setQueue (u.queue.passMark i rest) u))) _ s (.refl s)

theorem startWalk_keepsOwed (s : State) : KeepsOwed s (startWalk s) :=
  walkFromMark_keepsOwed (setAsm (some Assembly.started) (setQueue s.queue.startWalk s))

theorem judgeWork_keepsOwed (s : State) : KeepsOwed s (judgeWork s) := by
  refine repeat_induct (KeepsOwed s) (fun u h => h.trans ?_) 8 s (.refl s)
  unfold workRound
  split
  · exact .of_eq (driveStart_mirrors u)
  · split
    · exact startWalk_keepsOwed u
    · exact .refl u

theorem startSweep_keepsOwed (i : SegNo) (s : State) : KeepsOwed s (startSweep i s) :=
  (KeepsOwed.of_eq (putSeg_mirrors _ _ _ _)).trans (.oweMirror i _)

theorem startSense_keepsOwed (i : SegNo) (s : State) : KeepsOwed s (startSense i s) := by
  unfold startSense
  refine KeepsOwed.trans ?_ (.of_eq (congrArg Owed.mirrors (grant_owed _ _)))
  split
  · exact .refl s
  · exact (KeepsOwed.of_eq (putSeg_mirrors _ _ _ _)).trans (.oweMirror i _)

theorem judgeGrant_keepsOwed (s : State) : KeepsOwed s (judgeGrant s) := by
  unfold judgeGrant
  split
  · split
    · exact startSweep_keepsOwed _ s
    · split
      · exact startSense_keepsOwed _ s
      · exact .refl s
  · exact .refl s

theorem judge_keepsOwed (s : State) : KeepsOwed s (judge s) := (judgeWork_keepsOwed s).trans (judgeGrant_keepsOwed _)

theorem judgeLoading_keepsOwed (s : State) : KeepsOwed s (judgeLoading s) := by
  unfold judgeLoading
  split
  · exact .of_eq rfl
  · exact .refl s

theorem senseCompletes_keepsOwed (s : State) : KeepsOwed s (senseCompletes s) := by
  unfold senseCompletes
  split
  · exact .refl s
  · split
    · exact .of_eq rfl
    · exact .refl s

theorem judgeSettled_keepsOwed (b : Bool) (u s : State) : KeepsOwed s (judgeSettled b u s) := by
  unfold judgeSettled pageSettles
  split
  · split
    · simp only
      split <;> exact .of_eq (by simp)
    · exact .refl s
  · split
    · exact .of_eq rfl
    · exact .refl s

/-! ### The end of the event -/

/-- A post of another word leaves a post where it is. -/
theorem Posted.post {s : State} {off : Nat} {v : Word} (h : Posted s off v) {o : Nat} (ho : off ≠ o) (w : Word) :
    Posted (Machine.post o w s) off v := (post_mem_other (p := ⟨off, v⟩) ho w s).2 h

theorem mirror_offset_inj {i j : SegNo} (h : PartWord.offset (.mirror i) = PartWord.offset (.mirror j)) : i = j := by
  exact Fin.ext (by simp only [PartWord.offset] at h; omega)

/-- Each segment named has its mirror word posted. -/
theorem posted_postMirrors {is : List SegNo} {s : State} {i : SegNo}
    (h : i ∈ is ∨ Posted s (PartWord.offset (.mirror i)) (mirrorWord s.engine.shown (s.seg i))) :
    Posted (postMirrors is s) (PartWord.offset (.mirror i)) (mirrorWord s.engine.shown (s.seg i)) := by
  show Posted (is.foldl (fun s i => post (PartWord.offset (.mirror i)) (mirrorWord s.engine.shown (s.seg i)) s) s) _ _
  induction is generalizing s with
  | nil => simpa using h
  | cons j is ih =>
    refine ih (s := Machine.post (PartWord.offset (.mirror j)) (mirrorWord s.engine.shown (s.seg j)) s) ?_
    by_cases hj : i = j
    · subst hj
      exact .inr (post_mem_self _ _ s)
    · rcases h with h | h
      · exact .inl ((List.mem_cons.1 h).resolve_left hj)
      · exact .inr (h.post (fun e => hj (mirror_offset_inj e)) _)

theorem Posted.postResults {s : State} {off : Nat} {v : Word} (h : Posted s off v) (ho : off ≠ PartWord.offset .result) :
    Posted (postResults s) off v := by
  show Posted (s.owed.results.foldl (fun s v => Machine.post (PartWord.offset .result) v s) s) off v
  induction s.owed.results generalizing s with
  | nil => exact h
  | cons w ws ih => exact ih (h.post ho w)

theorem Posted.postPending {s : State} {off : Nat} {v : Word} (h : Posted s off v) (ho : off ≠ PartWord.offset .eventPending) :
    Posted (postPending s) off v := by
  unfold Machine.postPending
  split
  · exact h.post ho (pendingWord s)
  · exact h

theorem Posted.postStatusIf {s : State} {off : Nat} {v : Word} (h : Posted s off v) (ho : off ≠ PartWord.offset .engineStatus)
    (b : State) : Posted (postStatusIf b s) off v := by
  unfold Machine.postStatusIf
  split
  · exact h
  · exact h.post ho _

/-- The posts that end an event hold the mirror word of each segment that the event changed or whose post a rule of it names. -/
theorem closePosts_posts_mirror {b s : State} {i : SegNo} (h : i ∈ mirrorsToPost b s) :
    Posted (closePosts b s) (PartWord.offset (.mirror i)) (mirrorWord s.engine.shown (s.seg i)) := by
  have e : ∀ o, o = PartWord.offset .result ∨ o = PartWord.offset .eventPending ∨ o = PartWord.offset .engineStatus →
      PartWord.offset (.mirror i) ≠ o := by
    rintro o (rfl | rfl | rfl) <;> simp only [PartWord.offset] <;> omega
  exact (((posted_postMirrors (.inl h)).postStatusIf (e _ (.inr (.inr rfl))) b).postResults (e _ (.inl rfl))).postPending
    (e _ (.inr (.inl rfl)))

/-- The end of an event posts each mirror word that is owed, with the segment as it stands after the event. -/
theorem closeEvent_posts_owed {b s : State} {i : SegNo} (h : i ∈ s.owed.mirrors) :
    Posted (closeEvent b s) (PartWord.offset (.mirror i))
      (mirrorWord (closeEvent b s).engine.shown ((closeEvent b s).seg i)) := by
  have := closePosts_posts_mirror (b := b) (mem_mirrorsToPost.2 (.inr (judgeSettled_keepsOwed false b s i h)))
  simpa [closeEvent] using this

end Sys2Proof.Machine
end

