-- ==== Sys2Proof/WellFormed.lean ====
section
/-! DEFINITION. Which terms of Instr are commands of the part: a host access enables at least one byte (R1), and BADCMD's code names no command (R162). Every other bound is in the operand's type. -/

namespace Sys2Proof

/-- "with one or both byte enables" (R1). -/
def HostWrite.wellFormed (w : HostWrite) : Bool := w.enLow || w.enHigh

/-- The byte enables of a host access (R1). -/
def HostAccess.wellFormed : HostAccess → Bool
  | .write w => w.wellFormed
  | .read enLow enHigh => enLow || enHigh

/-- "A code of 0, or from 12 to 255, names no command" (R162). -/
def namesNoCommand (code : Byte) : Bool := code.toNat == 0 || Nat.ble 12 code.toNat

/-- The check on a command's operands. -/
def Instr.wellFormed : Instr → Bool
  | .powerOnReset _ => true
  | .hostWriteForwarded _ access => access.wellFormed
  | .pageBufferWrite _ _ w => w.wellFormed
  | .partOwnedWordWrite _ w => w.wellFormed
  | .eventSetWordWrite w => w.wellFormed
  | .eventClearWordWrite w => w.wellFormed
  | .argumentWordWrite w => w.wellFormed
  | .eventEnableWordWrite w => w.wellFormed
  | .ringConsumerCountWrite w => w.wellFormed
  | .claimWordRead _ enLow enHigh => enLow || enHigh
  | .claimWordWrite _ w => w.wellFormed
  | .start _ => true
  | .stop _ => true
  | .pause _ => true
  | .resume _ => true
  | .showBuffer _ => true
  | .hold _ => true
  | .release _ => true
  | .discard _ => true
  | .promote _ => true
  | .sense _ => true
  | .clearFaults _ => true
  | .badcmd code _ => namesNoCommand code
  | .postWrite => true
  | .descriptorReadEnd => true
  | .captureReadEnd => true
  | .driveTimerExpiry => true
  | .settleTimerExpiry => true
  | .rechargeTimerExpiry => true
  | .conversionEnd _ => true
  | .supplyOkRise => true
  | .supplyOkFall => true
  | .rearmTimerExpiry => true
  | .touchInputChange _ _ => true
  | .guardTimerExpiry _ => true
  | .holdOffTimerExpiry _ => true
  | .claimWarnPoint _ => true
  | .claimExpiry _ => true
  | .lagWarnPoint => true
  | .lagLimitPoint => true
  | .durationTimerExpiry => true
  | .periodEnd => true

end Sys2Proof
end

