-- ==== Sys2Proof/Tests/Slice0.lean ====
section
/-! SUPPORT. Own tests: the well-formedness checks, the manual's examples, and for every statement with hypotheses a state that meets them. -/

namespace Sys2Proof.Tests

open Sys2Proof.Machine

set_option maxRecDepth 100000
set_option Elab.async false

/-! ### Small states -/

/-- A descriptor with every field accepted: 8-dot mode, the plain dot map, touch and Chime enabled, show A. -/
def copy : Descriptor :=
  #v[1, 8, 1, 2, 3, 4, 5, 6, 7, 8, 1, 1, 0, 4, 20, 30, 0xF4, 1, 0xD0, 7, 0x88, 0x13, 0x20, 3, 0x90, 1, 0xE8, 3, 0xF4, 1, 0, 0]

/-- The copy in 6-dot mode with the dot map of the manual's example (04, Example: one cell byte under a rearranged dot map). -/
def sixDot : Descriptor :=
  #v[1, 6, 1, 4, 2, 5, 3, 6, 7, 8, 1, 1, 0, 4, 20, 30, 0xF4, 1, 0xD0, 7, 0x88, 0x13, 0x20, 3, 0x90, 1, 0xE8, 3, 0xF4, 1, 0, 0]

/-- A record in a state. -/
def inState (st : SegState) : Segment := { Segment.reset with state := st }

/-- The engine in a state with the copy accepted, every segment CLEAN, the units of the run serving, the gate OPEN. -/
def calm (e : EngineState) : State := { State.reset with
  engine := { State.reset.engine with state := e, copy := copy }
  segs := Vector.replicate 96 (inState .clean)
  conv := { State.reset.conv with state := .standby }
  touch := { State.reset.touch with running := true }
  claims := { State.reset.claims with serving := true }
  gate := ⟨.opened, .idle⟩ }

/-- With the argument latch at a value. -/
def withArg (a : Word) (s : State) : State := { s with bus := { s.bus with argument := a } }

/-- RUNNING, line 5 TAKEN with its claim word 1, and segment 3 STALE and queued. -/
def busy : State :=
  setSeg 3 (inState .stale) (setQueue ⟨[], [3], false⟩ (setClaim 5 ⟨.taken, some 7, false⟩
    { calm .running with mem := (calm .running).mem.storeWord 0x124A 1 }))

/-- The same in PAUSED. -/
def busyPaused : State := setEngineState .paused busy

/-- A stroke with segment 3 as its member in a phase. -/
def stroking (e : EngineState) (ph : StrokePhase) (drive settle : Timer) : State :=
  setSeg 3 (inState ph.memberState) { calm e with stroke := ⟨some ⟨ph, [⟨3, 1, 2, false⟩]⟩, drive, settle, .idle, false⟩ }

/-- A job on segment 3, in PAUSED. -/
def working (st : SegState) (j : Job) : State :=
  setSeg 3 (inState st) { calm .paused with conv := ⟨.converting, some 3, .clear, some j, none⟩ }

/-- A capture of segment 3 from A with words read. -/
def capturing (e : EngineState) (st : SegState) (ws : List Word) : State :=
  setSeg 3 (inState st) (setQueue ⟨[3], [], true⟩ (setAsm (some ⟨.assembling, [], [3], some ⟨3, .a, ws, false, false⟩⟩) (calm e)))

/-- LOADING with descriptor words read. -/
def reading (ws : List Word) : State := { State.reset with
  engine := { State.reset.engine with state := .loading, reading := some ws, startOut := true }
  conv := { State.reset.conv with state := .standby, warmUp := .set }
  claims := { State.reset.claims with serving := true } }

/-- The first fifteen words of the copy; the sixteenth is the reserved word, which blank memory gives. -/
def copyWords : List Word :=
  [0x0801, 0x0201, 0x0403, 0x0605, 0x0807, 0x0101, 0x0400, 0x1E14, 0x01F4, 0x07D0, 0x1388, 0x0320, 0x0190, 0x03E8, 0x01F4]

/-- A host write of both bytes with good parity. -/
def put (data : Word) : HostWrite := ⟨data, true, true, madeParity (lowByte data), madeParity (highByte data)⟩

/-- The rest of a command write. -/
def cw : CommandWrite := ⟨0, true, true, true⟩

/-- The next state of a command. -/
def nx (c : Instr) (s : State) : State :=
  match exec c s with
  | .next t => t
  | _ => s

/-! ### Well-formedness -/

theorem test_wellFormed_hostWrite : (Instr.argumentWordWrite (put 5)).wellFormed = true := by decide
theorem test_wellFormed_no_enable : (Instr.argumentWordWrite ⟨5, false, false, true, true⟩).wellFormed = false := by decide
theorem test_wellFormed_no_enable_anywhere :
    ([fun w => .hostWriteForwarded 0 (.write w), .pageBufferWrite .a 0, .partOwnedWordWrite .result, .eventSetWordWrite, .eventClearWordWrite,
      .eventEnableWordWrite, .ringConsumerCountWrite, .claimWordWrite 0] : List (HostWrite → Instr)).all
        (fun f => !(f ⟨0, false, false, true, true⟩).wellFormed) = true := by decide
theorem test_wellFormed_hostRead_no_enable : (Instr.hostWriteForwarded 0 (.read false false)).wellFormed = false := by decide
theorem test_wellFormed_claimRead_no_enable : (Instr.claimWordRead 0 false false).wellFormed = false := by decide
theorem test_wellFormed_badcmd_names_command : (Instr.badcmd 11 cw).wellFormed = false := by decide
theorem test_wellFormed_badcmd : (Instr.badcmd 12 cw).wellFormed = true := by decide

/-! ### The manual's examples -/

/-- Cell byte 0x5B targets dots 1, 4, 5 and 3 (04, Example: one cell byte under a rearranged dot map). -/
theorem test_dot_map_example : cellTarget sixDot 0x5B = 0b00011101 := by decide +kernel

/-- A segment whose word in A is written is STALE with dirty set: mirror word 0x2001 (02, Example: one segment through a run of host
writes). -/
theorem test_mirror_example :
    mirrorWord .a ((nx (.pageBufferWrite .a 105 (put 0x0303)) (calm .paused)).seg 21) = 0x2001 := by decide +kernel

/-- START taken: status 0x0009, result 0x0001, event pending 0x0800 (09, Example: a START with a faulted segment). -/
theorem test_start_example :
    (nx (.start cw) { State.reset with gate := ⟨.opened, .idle⟩ }).bus.posts.drop 24 =
      [⟨0x1220, 0x0009⟩, ⟨0x1204, 0x0001⟩, ⟨0x1210, 0x0800⟩] := by decide +kernel

/-- SHOW B of a settled page: 96 mirrors, status 0x601A, result 0x0105, event pending 0x0800 (11, the SHOW B row). -/
theorem test_show_example :
    let s := nx (.showBuffer cw) (withArg 1 { calm .running with stroke := { (calm .running).stroke with chargeReady := true } })
    s.bus.posts.drop 96 = [⟨0x1220, 0x601A⟩, ⟨0x1204, 0x0105⟩, ⟨0x1210, 0x0800⟩] ∧
      s.bus.posts.take 2 = [⟨0x1000, 0x0003⟩, ⟨0x1002, 0x2001⟩] := by decide +kernel

/-! ### One command -/

theorem test_hold_marks : ((nx (.hold cw) (withArg 0x0104 (calm .paused))).seg 4).held = true := by decide +kernel
theorem test_stop_off : (nx (.stop cw) (stroking .running .drive (.running 0 4) .idle)).engine.state = .off := by decide +kernel
theorem test_discard_stale : ((nx (.discard cw) (withArg 0x0103 busyPaused)).seg 3).state = .sensing := by decide +kernel
theorem test_promote_queue :
    (nx (.promote cw) (withArg 0x0207 { busyPaused with queue := ⟨[], [3, 8, 7], false⟩ })).queue.behind = [7, 8, 3] := by decide +kernel
theorem test_sense_grant : (nx (.sense cw) (withArg 0x0110 (calm .paused))).conv.tap = some 16 := by decide +kernel
theorem test_drive_expiry :
    (nx .driveTimerExpiry (stroking .running .drive (.running 4 4) .idle)).stroke.recharge = .running 0 20 := by decide +kernel
theorem test_settle_expiry :
    ((nx .settleTimerExpiry (stroking .running .settle .idle (.running 2 2))).conv.job.map Job.todo) = some [(3, 0), (3, 1)] := by
  decide +kernel
theorem test_supply_fall : (nx .supplyOkFall (stroking .paused .drive (.running 0 4) .idle)).stroke.driven = none := by decide +kernel
theorem test_capture_member :
    (nx .captureReadEnd (capturing .paused .capturing [0, 0, 0, 0])).asm.map (fun a => a.members.map Member.cost) = some [80] := by
  delta nx exec execCaptureReadEnd captureReadEnds captureTakes captureEnd
  generalize Config.droppedKeepsPlace = keeps
  revert keeps
  decide +kernel
theorem test_acceptance : (nx .descriptorReadEnd (reading copyWords)).engine.copy = copy := by decide +kernel
theorem test_claim_expiry : ((nx (.claimExpiry 5) busyPaused).claim 5) = ⟨.free, none, false⟩ := by decide +kernel
/-- A claim that has not warned passes its warn point before it expires (R151). -/
theorem test_claim_expiry_warns : isPending (nx (.claimExpiry 5) busyPaused) .claimWarn = true := by decide +kernel
/-- The end of a touched sweep posts the mirror word, also where the segment is swept again at once: SENSING, as before (R119, R120). -/
theorem test_sweep_again_posts_mirror :
    (nx (.conversionEnd 0) (working .sensing ⟨.sweep, [3], [(3, 0)], [], true, .unsure⟩)).bus.posts =
      [⟨0x1006, 0x0007⟩] := by decide +kernel
/-- A capture that starts and ends in one event and leaves its segment STALE as before posts its mirror word (R65, R72). -/
theorem test_capture_unfitting_posts_mirror :
    let s := setSeg 3 { inState .stale with shadow := ⟨1, 0⟩ } (setAsm
      (some ⟨.assembling, List.replicate 3 ⟨4, (BitVec.allOnes 39).setWidth 80, 0, false⟩, [], none⟩) (setQueue ⟨[], [3], true⟩ { calm .paused with engine := { (calm .paused).engine with shown := .none } }))
    ((captureNone 3 s).seg 3).state = .stale ∧ (captureNone 3 s).owed.mirrors = [3, 3] := by decide +kernel
theorem test_touch_shield :
    ((nx (.touchInputChange 2 true) (calm .running)).touchLine 2) = ⟨.present, .running 0 30, .idle, true⟩ := by decide +kernel

/-! ### The laws of the states below -/

theorem busLawful_of {s : State} (hm : s.mem.wf = true) (hp : s.bus.posts = []) (ho : s.owed = Owed.nothing) : BusLawful s :=
  ⟨hm, ⟨by simp [hp], by simp [hp]⟩, ho⟩

/-- A state with nothing in flight. -/
theorem workLawful_of {s : State} (ha : s.asm = none) (hd : s.stroke.driven = none) (hj : s.conv.job = none)
    (hq : queuesRun s.engine = false → s.conv.sense = none ∧ s.queue.entries = []) : WorkLawful s :=
  ⟨by simp [ha], by simp [hd], by simp [hj], fun h => ⟨ha, hd, hj, (hq h).1, (hq h).2⟩⟩

/-- A state after acceptance with nothing in flight. -/
theorem workLawful_active {s : State} (ha : s.asm = none) (hd : s.stroke.driven = none) (hj : s.conv.job = none)
    (hq : queuesRun s.engine = true) : WorkLawful s :=
  workLawful_of ha hd hj fun h => absurd (hq.symm.trans h) (by decide)

theorem busLawful_withArg (a : Word) {s : State} (h : BusLawful s) : BusLawful (withArg a s) := ⟨h.1, h.2.1, h.2.2⟩

theorem busLawful_calm (e : EngineState) : BusLawful (calm e) := busLawful_of rfl rfl rfl
theorem wf_busy : busy.mem.wf = true := by decide +kernel
theorem busLawful_busy : BusLawful busy := busLawful_of wf_busy rfl rfl
theorem busLawful_busyPaused : BusLawful busyPaused := busLawful_of wf_busy rfl rfl

theorem workLawful_calm {e : EngineState} : WorkLawful (calm e) := workLawful_of rfl rfl rfl fun _ => ⟨rfl, rfl⟩
theorem workLawful_busy : WorkLawful busy := workLawful_of rfl rfl rfl fun h => absurd h (by decide)
theorem workLawful_busyPaused : WorkLawful busyPaused := workLawful_of rfl rfl rfl fun h => absurd h (by decide)

theorem claimWordsLawful_busy : ClaimWordsLawful busy := by
  have h : ∀ l : LineNo, busy.mem.word (areaBase busy + claimOffset l) = if (busy.claim l).claim = .taken then 1 else 0 := by
    decide +kernel
  exact fun _ l => ⟨fun hp => absurd hp (by simp [hasPost, show busy.bus.posts = [] from rfl]), fun _ => h l⟩

theorem claimWordsLawful_calm (e : EngineState) : ClaimWordsLawful (calm e) := by
  have h : ∀ l : LineNo, (calm .off).mem.word (areaBase (calm .off) + claimOffset l) = 0 ∧ ((calm .off).claim l).claim = .free := by
    decide +kernel
  refine fun _ l => ⟨fun hp => absurd hp (by simp [hasPost, show (calm e).bus.posts = [] from rfl]), fun _ => ?_⟩
  have := h l
  rw [show (calm e).claim l = (calm .off).claim l from rfl, this.2]
  exact this.1

theorem queueLawful_busyPaused : QueueLawful busyPaused := by
  have h : busyPaused.queue.entries.Nodup ∧ ∀ i, i ∈ busyPaused.queue.entries ↔ queueable busyPaused.engine (busyPaused.seg i) = true := by
    decide +kernel
  exact h

theorem workLawful_stroking (ph : StrokePhase) (hp : ph ≠ .verify) (e : EngineState) (he : e = .running ∨ e = .paused) (a c : Timer) :
    WorkLawful (stroking e ph a c) := by
  refine ⟨?_, ?_, ?_, ?_⟩
  · simp [stroking, calm, setSeg, State.reset, State.poweredOn]
  · intro d hd
    obtain rfl : (⟨ph, [⟨3, 1, 2, false⟩]⟩ : Driven) = d := Option.some.inj hd
    refine ⟨by simp, ?_, fun _ => rfl, fun h => absurd h hp⟩
    intro m hm
    obtain rfl := List.mem_singleton.1 hm
    simp [stroking, setSeg, State.seg, inState]
  · simp [stroking, calm, setSeg, State.reset, State.poweredOn]
  · intro h
    rcases he with rfl | rfl <;> simp [stroking, setSeg, calm, queuesRun] at h

/-- The last conversion of the VERIFY job of a stroke with segment 3 as its member, in PAUSED. -/
def verifying (touched : Bool) : State :=
  setSeg 3 (inState .verifying) { calm .paused with
    stroke := ⟨some ⟨.verify, [⟨3, 1, 2, touched⟩]⟩, .idle, .idle, .idle, false⟩
    conv := ⟨.converting, some 3, .clear, some ⟨.verify, [3], [(3, 1)], [⟨3, 0, 900, .up⟩], false, .unsure⟩, none⟩ }

theorem workLawful_verifying (x : Bool) : WorkLawful (verifying x) := by
  refine ⟨?_, ?_, ?_, ?_⟩
  · simp [verifying, calm, setSeg, State.reset, State.poweredOn]
  · intro d hd
    obtain rfl : (⟨.verify, [⟨3, 1, 2, x⟩]⟩ : Driven) = d := Option.some.inj hd
    refine ⟨by simp, ?_, fun h => absurd rfl h, fun _ => ⟨_, rfl, rfl⟩⟩
    intro m hm
    obtain rfl := List.mem_singleton.1 hm
    simp [verifying, setSeg, State.seg, inState, StrokePhase.memberState]
  · intro j hj
    obtain rfl := Option.some.inj hj
    exact ⟨rfl, _, rfl, rfl, rfl⟩
  · intro h
    simp [verifying, setSeg, calm, queuesRun] at h

theorem workLawful_capturing {e : EngineState} (he : e = .running ∨ e = .paused) (st : SegState) (ws : List Word) :
    WorkLawful (capturing e st ws) := by
  refine ⟨?_, ?_, ?_, ?_⟩
  · intro a ha
    obtain rfl : (⟨.assembling, [], [3], some ⟨3, .a, ws, false, false⟩⟩ : Assembly) = a := Option.some.inj ha
    refine ⟨by simp, by simp, ?_⟩
    intro c hc
    obtain rfl := Option.some.inj hc
    simp
  · simp [capturing, calm, setSeg, setQueue, setAsm, State.reset, State.poweredOn]
  · simp [capturing, calm, setSeg, setQueue, setAsm, State.reset, State.poweredOn]
  · intro h
    rcases he with rfl | rfl <;> simp [capturing, setSeg, setQueue, setAsm, calm, queuesRun] at h

/-- The capture of a segment in no stroke record. -/
theorem cleanLawful_capturing (e : EngineState) {st : SegState} (h : st ≠ .member ∧ st ≠ .moving ∧ st ≠ .verifying) (ws : List Word) :
    CleanLawful (capturing e st ws) := by
  have hseg : ∀ i, (capturing e st ws).seg i = inState st ∨ (capturing e st ws).seg i = inState .clean := by
    intro i
    by_cases hi : i = 3
    · exact .inl (by rw [hi]; exact seg_setSeg_self ..)
    · exact .inr ((seg_setSeg_other hi _ _).trans (by simp [calm, setQueue, setAsm, State.seg]))
  refine ⟨fun i _ => ?_, fun i hi => ?_, ?_, by simp [capturing, calm, setSeg, setQueue, setAsm, State.reset, State.poweredOn]⟩
  · rcases hseg i with hi | hi <;> rw [hi] <;> rfl
  · rcases hseg i with hj | hj <;> rw [hj] at hi <;> simp [inState, h.1, h.2.1, h.2.2] at hi
  · intro a c ha hc
    obtain rfl : (⟨.assembling, [], [3], some ⟨3, .a, ws, false, false⟩⟩ : Assembly) = a := Option.some.inj ha
    obtain rfl := Option.some.inj hc
    simpa [capturing, setSeg, State.seg, inState] using h

/-- Changes that the work in flight does not see keep its law. -/
theorem workLawful_like {s t : State} (h : WorkLawful s) (ha : t.asm = s.asm) (hs : t.segs = s.segs) (hd : t.stroke.driven = s.stroke.driven)
    (hc : t.conv = s.conv) (he : queuesRun t.engine = true) : WorkLawful t := by
  have hseg : ∀ i, t.seg i = s.seg i := fun i => by simp [State.seg, hs]
  refine ⟨?_, ?_, ?_, fun hf => absurd (he.symm.trans hf) (by decide)⟩
  · simpa [ha, hseg] using h.1
  · simpa [hd, hseg, hc] using h.2.1
  · intro j hj
    rw [hc] at hj ⊢
    have := h.2.2.1 j hj
    simpa [JobLawful, hd, hseg] using this

theorem queueLawful_of {s : State} (h : s.queue.entries.Nodup ∧ ∀ i, i ∈ s.queue.entries ↔ queueable s.engine (s.seg i) = true) :
    QueueLawful s := h

theorem queueLawful_calmPaused : QueueLawful (calm .paused) := queueLawful_of (by decide +kernel)

/-- An ARMED record with segment 3 that waits for charge alone. -/
def armed (r : Segment) : State := setSeg 3 r { calm .running with
  asm := some ⟨.armed, [⟨3, 1, 2, false⟩], [3], none⟩
  stroke := { (calm .running).stroke with recharge := .running 20 20 } }

/-- An ARMED record held back at the end of a sweep of segment 9, with segment 8 waiting for a sweep. -/
def heldBack (r : Segment) : State :=
  setSeg 8 (inState .unsure) (setSeg 9 (inState .sensing) (setQueue ⟨[], [8], false⟩
    (setConv ⟨.converting, some 9, .clear, some ⟨.sweep, [9], [(9, 79)], [], true, .unsure⟩, none⟩
      (setStroke { (armed r).stroke with chargeReady := true } (armed r)))))

/-! ### Every statement's hypotheses are met -/

theorem test_premises_StepRunsFrontCommand :
    (∃ c rest s, (s : State).pending = c :: rest) ∧ ∃ s : State, s.pending = [] :=
  ⟨⟨.postWrite, [], { State.reset with pending := [.postWrite] }, rfl⟩, State.reset, rfl⟩

/-- A millisecond on an empty queue: a claim timer that runs counts, and a recharge timer that has reached its length stays there. -/
theorem test_premises_MillisecondCounts :
    let s := { busy with stroke := { busy.stroke with recharge := .running 20 20 } }
    s.pending = [] ∧ (tick s).stroke.recharge = .running 20 20 ∧ ((tick s).claim 5).timer = some 8 := by decide +kernel

theorem test_premises_BusLawKept : ∃ s t, BusLawful s ∧ step s = .next t := ⟨busy, _, busLawful_busy, rfl⟩

theorem test_premises_ShieldAndClaimLawsKept : ∃ s t, ShieldsLawful s ∧ ClaimsLawful s ∧ step s = .next t := by
  refine ⟨busy, _, ?_, ?_, rfl⟩
  · intro l; revert l; decide +kernel
  · refine ⟨by decide, by decide, ?_⟩
    intro l; revert l; decide +kernel

theorem test_premises_ClaimWordLawKept : ∃ s t, BusLawful s ∧ ClaimWordsLawful s ∧ s.engine.state ≠ .off ∧ step s = .next t :=
  ⟨busy, _, busLawful_busy, claimWordsLawful_busy, by decide, rfl⟩

theorem test_premises_BoundsKept :
    ∃ s t, BudgetLawful s ∧ RingLawful s ∧ FaultListsLawful s ∧ s.stroke.driven.isSome = true ∧ step s = .next t := by
  refine ⟨stroking .running .drive (.running 0 4) .idle, _, ⟨?_, ?_⟩, show unconsumed 0 0 ≤ 64 by decide, ?_, rfl, rfl⟩
  · simp [stroking, calm, setSeg, State.reset, State.poweredOn]
  · intro d hd
    obtain rfl : (⟨.drive, [⟨3, 1, 2, false⟩]⟩ : Driven) = d := Option.some.inj hd
    decide +kernel
  · intro i; revert i; decide +kernel

/-- The exempt segment of the order clause has its witness in test_capture_end_dropped. -/
theorem test_premises_QueueLawKept : (∃ s t, QueueLawful s ∧ step s = .next t) ∧
    ∃ s t, QueueLawful s ∧ WorkLawful s ∧ exec (.resume cw) s = .next t ∧ s.queue.entries ≠ [] :=
  ⟨⟨busyPaused, _, queueLawful_busyPaused, rfl⟩, busyPaused, _, queueLawful_busyPaused, workLawful_busyPaused, rfl, by decide⟩

theorem test_premises_WorkLawKept : ∃ s t, WorkLawful s ∧ s.stroke.driven.isSome = true ∧ step s = .next t :=
  ⟨verifying false, _, workLawful_verifying false, rfl, rfl⟩

/-- START has been taken and its first post waits, with a descriptor read. -/
def waiting : State := { reading [] with bus := { (reading []).bus with posts := [⟨0x1204, 1⟩] } }

theorem test_premises_PortTurns :
    (∃ p ps, BusLawful waiting ∧ waiting.bus.posts = p :: ps) ∧ (∃ x, partTurn waiting .access = some x) ∧
      readOutstanding waiting = true ∧ waiting.bus.posts ≠ [] := by
  refine ⟨⟨_, _, ⟨rfl, ⟨by decide, ?_⟩, rfl⟩, rfl⟩, ⟨.post, by decide⟩, by decide, by decide⟩
  intro p hp
  obtain rfl := List.mem_singleton.1 hp
  exact .inl ⟨.result, rfl⟩

theorem test_premises_WritesInOff : BusLawful State.reset ∧ State.reset.engine.state = .off ∧
    hasPost State.reset (PartWord.offset .result) = false := ⟨busLawful_of rfl rfl rfl, rfl, rfl⟩

/-- A write in OFF to the result word with a post of it pending. -/
theorem test_premises_WritesInOff_pending :
    let s := { State.reset with bus := { State.reset.bus with posts := [⟨0x1204, 0x0105⟩] } }
    s.mem.wf = true ∧ PostsLawful s ∧ OwesNothing s ∧ s.engine.state = .off ∧ hasPost s (PartWord.offset .result) = true ∧
      (storeArea 0x1204 (put 7) s).bus.posts = s.bus.posts ∧ (forwardArea 0x1204 (put 7) s).bus.posts = [] ∧
      (storeArea 0x1204 (put 7) s).mem.word 0x1204 = 7 ∧ (forwardArea 0x1204 (put 7) s).mem.word 0x1204 = 7 :=
  ⟨rfl, ⟨by decide, fun p hp => .inl ⟨.result, by rw [List.mem_singleton.1 hp]; decide⟩⟩, rfl, rfl, by decide, by decide +kernel, by decide +kernel, by decide +kernel,
    by decide +kernel⟩

theorem test_premises_HostWriteByAddress_plain : BusLawful State.reset ∧
    placeOfAddr State.reset (hostAddr 0x1000) = .plain ∧ placeOfAddr State.reset (hostAddr 0x880) = .plain :=
  ⟨busLawful_of rfl rfl rfl, by decide, by decide⟩

theorem test_premises_HostWriteByAddress :
    placeOfAddr State.reset (hostAddr 0x1DF) = .pageBuffer .a 479 ∧ placeOfAddr State.reset (hostAddr 0x200) = .pageBuffer .b 0 ∧
    placeOfAddr State.reset (hostAddr 0x400) = .partOwned (.senseImage 0) ∧
    placeOfAddr State.reset (hostAddr 0x85F) = .partOwned (.mirror 95) ∧
    placeOfAddr State.reset (hostAddr 0xAFF) = .partOwned (.ring 63 3) ∧
    placeOfAddr State.reset (hostAddr 0x920) = .claim 0 ∧ placeOfAddr State.reset (hostAddr 0x937) = .claim 23 ∧
    placeOfAddr State.reset (hostAddr 0x938) = .plain ∧
    placeOfAddr State.reset (hostAddr 0x901) = .argument ∧ placeOfAddr State.reset (hostAddr 0x909) = .eventEnable ∧
    placeOfAddr State.reset (hostAddr 0x90A) = .eventSet ∧ placeOfAddr State.reset (hostAddr 0x90B) = .eventClear ∧
    placeOfAddr State.reset (hostAddr 0x941) = .ringConsumer ∧ placeOfAddr State.reset (hostAddr 0x900) = .command ∧
    BusLawful State.reset ∧ (∃ w, w = cw.toHost 9) ∧ ∃ w : HostWrite, w.enLow = false ∧ w.enHigh = true := by
  refine ⟨?_, ?_, ?_, ?_, ?_, ?_, ?_, ?_, ?_, ?_, ?_, ?_, ?_, ?_, busLawful_of rfl rfl rfl, ⟨_, rfl⟩, ⟨0, false, true, true, true⟩, rfl,
    rfl⟩ <;> decide +kernel

/-- An offset that no entry of the area map holds: the first byte behind page buffer A. -/
theorem test_premises_HostWriteByAddress_unlisted : 0x03C0 % 2 = 0 ∧ (∀ word : Fin 480, 0x03C0 ≠ 2 * word.val ∧ 0x03C0 ≠ 0x0400 + 2 * word.val) ∧
    (∀ l : LineNo, 0x03C0 ≠ 0x1240 + 2 * l.val) ∧ (∀ p : PartWord, 0x03C0 ≠ p.offset) ∧ placeOf 0x03C0 = .plain := by
  refine ⟨by decide, fun w => ⟨by omega, by omega⟩, fun l => by omega, fun p => ?_, by decide⟩
  cases p <;> simp only [PartWord.offset] <;> omega

theorem test_premises_OwnedWriteDropped : BusLawful busy ∧ busy.engine.state ≠ .off := ⟨busLawful_busy, by decide⟩

theorem test_premises_EventWordsAndAttn : BusLawful busy := busLawful_busy

theorem test_premises_ArgumentAndEnableWrites : BusLawful busy := busLawful_busy

/-- The clauses on either side of a difference of 64. -/
theorem test_premises_RingConsumerOffered :
    let s := { busy with events := ⟨0, 0x40, 0x10⟩ }
    BusLawful s ∧ (256 + s.events.producer.toNat - (lowByte (put 0x0000).data).toNat) % 256 = 64 ∧
      (256 + s.events.producer.toNat - (lowByte (put 0x00FF).data).toNat) % 256 = 65 ∧
      (put 0).enLow = true ∧ ∃ w : HostWrite, w.enLow = false ∧ w.enHigh = true :=
  ⟨busLawful_of wf_busy rfl rfl, by decide, by decide, rfl, ⟨0, false, true, true, true⟩, rfl, rfl⟩

theorem test_premises_ClaimReadTakes : BusLawful busy ∧ ClaimWordsLawful busy ∧ busy.engine.state ≠ .off ∧
    (busy.claim 23).claim = .free := ⟨busLawful_busy, claimWordsLawful_busy, by decide, by decide⟩

theorem test_premises_ClaimReadWithoutTake : (BusLawful busy ∧ ClaimWordsLawful busy ∧ busy.engine.state ≠ .off ∧
    (busy.claim 5).claim = .taken) ∧ (BusLawful State.reset ∧ State.reset.engine.state = .off) ∧
    placeOfAddr State.reset (hostAddr 0x920) = .claim 0 ∧
    (BusLawful waiting ∧ hostAddr 0x902 = areaBase waiting + 0x1204 ∧ Posted waiting 0x1204 1 ∧
      ∀ l, placeOfAddr waiting (hostAddr 0x902) ≠ .claim l) ∧
    ∀ off, hostAddr 0x900 = areaBase waiting + off → hasPost waiting off = false := by
  refine ⟨⟨busLawful_busy, claimWordsLawful_busy, by decide, by decide⟩, ⟨busLawful_of rfl rfl rfl, rfl⟩, by decide +kernel,
    ⟨⟨rfl, ⟨by decide, ?_⟩, rfl⟩, by decide, List.mem_singleton.2 rfl, by decide +kernel⟩, ?_⟩
  · intro p hp
    obtain rfl := List.mem_singleton.1 hp
    exact .inl ⟨.result, rfl⟩
  · intro off h
    rw [show areaBase waiting = 0 by decide, show hostAddr 0x900 = 0x1200 by decide, Nat.zero_add] at h
    subst h
    decide

/-- A host read of the result word waits for its pending post and returns the value posted (R13). -/
theorem test_read_returns_post :
    (nx (.hostWriteForwarded 0x902 (.read true true)) waiting).bus.hostRead = some ⟨some (1, false), some (0, true)⟩ := by decide +kernel

theorem test_premises_ClaimRelease : BusLawful busy ∧ ClaimWordsLawful busy ∧ busy.engine.state ≠ .off ∧
    (busy.claim 5).claim = .taken ∧ (put 0).enLow = true ∧ lowByte (put 0).data = 0 ∧ highByte (put 0).data = 0 :=
  ⟨busLawful_busy, claimWordsLawful_busy, by decide, by decide, rfl, by decide, by decide⟩

theorem test_premises_ClaimWriteToMemoryAlone_highByte : ∃ w : HostWrite, BusLawful busy ∧ ClaimWordsLawful busy ∧ busy.engine.state ≠ .off ∧
    w.enLow = false ∧ w.enHigh = true ∧ highByte w.data = 0 :=
  ⟨⟨0, false, true, true, true⟩, busLawful_busy, claimWordsLawful_busy, by decide, rfl, rfl, by decide⟩

theorem test_premises_ClaimNonZeroDropped : BusLawful busy ∧ busy.engine.state ≠ .off ∧
    ((put 1).enLow = true ∧ lowByte (put 1).data ≠ 0) ∧ (put 0x100).enHigh = true ∧ highByte (put 0x100).data ≠ 0 :=
  ⟨busLawful_busy, by decide, by decide, rfl, by decide⟩

theorem test_premises_ClaimWriteToMemoryAlone : (BusLawful State.reset ∧ State.reset.engine.state = .off) ∧ BusLawful busy ∧
    (busy.claim 4).claim = .free ∧ lowByte (put 0).data = 0 ∧ highByte (put 0).data = 0 :=
  ⟨⟨busLawful_of rfl rfl rfl, rfl⟩, busLawful_busy, by decide, by decide, by decide⟩

theorem test_premises_PageWriteMarksCells : (BusLawful busy ∧ busy.engine.state ≠ .off ∧ queuesRun busy.engine = true) ∧
    (BusLawful (reading []) ∧ (reading []).engine.state ≠ .off ∧ queuesRun (reading []).engine = false) ∧
    ∃ w : HostWrite, ∀ h : Fin 2, enabledByte w h.val = true ∧ badByte w h.val = true :=
  ⟨⟨busLawful_busy, by decide, by decide⟩, ⟨busLawful_of rfl rfl rfl, by decide, by decide⟩, ⟨0, true, true, false, false⟩, by decide⟩

/-- A write to the shown buffer on a CLEAN segment, in PAUSED with nothing in flight. -/
theorem test_premises_PageWriteMarksCells_shown :
    let s := calm .paused
    let t := nx (.pageBufferWrite .a 105 (put 0x0303)) s
    Quiet s ∧ queuesRun s.engine = true ∧ s.engine.shown = Buffer.a.shown ∧ s.engine.shown ≠ Buffer.b.shown ∧
      (105 : Fin 480).val / 5 = (21 : SegNo).val ∧ (s.seg 21).state = .clean ∧ (s.seg 21).held = false ∧ t.conv = s.conv ∧
      t.queue.entries = [21] ∧ QueueLawful s ∧ BusLawful s :=
  ⟨⟨by decide, .inl (by decide)⟩, by decide, rfl, by decide, by decide, by decide, by decide, by decide +kernel, by decide +kernel,
    queueLawful_calmPaused, busLawful_calm _⟩

/-- A write of one byte on the idle page in RUNNING: the segment is captured at once; with its line claimed it is STALE with dirty set, at the
tail. -/
theorem test_premises_PageWriteMarksCells_running :
    let w : HostWrite := { put 0x0303 with enHigh := false }
    let s := calm .running
    let shut := setClaim 5 ⟨.taken, some 1, false⟩ s
    let t := nx (.pageBufferWrite .a 105 w) s
    QueueLawful s ∧ QueueLawful shut ∧ (w.enLow = true ↔ w.enHigh = false) ∧ s.asm = none ∧ s.engine.shown ≠ .none ∧
      t.asm = captureOf s [] [] 21 ∧ (t.seg 21).state = .capturing ∧ (t.seg 21).dirty = false ∧
      ((nx (.pageBufferWrite .a 105 w) shut).seg 21).dirty = true ∧ ((nx (.pageBufferWrite .a 105 w) shut).seg 21).state = .stale ∧
      (nx (.pageBufferWrite .a 105 w) shut).queue.entries = [21] :=
  ⟨queueLawful_of (by decide +kernel), queueLawful_of (by decide +kernel), by decide, rfl, by decide, by decide +kernel, by decide +kernel,
    by decide +kernel, by decide +kernel, by decide +kernel, by decide +kernel⟩

theorem test_premises_CellWriteOnRecord : (Shown.a = Buffer.a.shown ∧ (inState .clean).state ≠ .faulted) ∧
    Shown.none ≠ Buffer.a.shown ∧ (inState .faulted).state = .faulted := by decide

theorem test_premises_CommandsRefused :
    (BusLawful busy ∧ busy.engine.state ≠ .off ∧ busy.engine.state ≠ .paused ∧ Active busy ∧ busy.conv.sense = none) ∧
    (BusLawful busyPaused ∧ busyPaused.engine.state ≠ .running) ∧
    (BusLawful State.reset ∧ State.reset.engine.state = .off ∧ ¬Active State.reset) ∧
    (∀ a, BusLawful (withArg a busy) ∧ Active (withArg a busy) ∧ (withArg a busy).bus.argument = a) ∧
    2 < (lowByte 3).toNat ∧ ¬GoodRange 0x0160 ∧ ¬GoodRange 0x0005 ∧ ¬GoodRange 0x6101 ∧ ¬GoodRange 0x025F :=
  ⟨⟨busLawful_busy, by decide, by decide, .inl rfl, rfl⟩, ⟨busLawful_busyPaused, by decide⟩,
    ⟨busLawful_of rfl rfl rfl, rfl, by decide⟩, fun a => ⟨busLawful_withArg a busLawful_busy, .inl rfl, rfl⟩,
    by decide, by decide, by decide, by decide, by decide⟩

theorem test_premises_CommandsRefused_busy :
    let s := { busy with conv := { busy.conv with sense := some ⟨0, 1, []⟩ } }
    BusLawful s ∧ Active s ∧ s.conv.sense ≠ none := ⟨⟨wf_busy, busLawful_busy.2.1, busLawful_busy.2.2⟩, .inl rfl, nofun⟩

theorem test_premises_StartTaken : BusLawful State.reset ∧ State.reset.engine.state = .off := ⟨busLawful_of rfl rfl rfl, rfl⟩

theorem busLawful_stroking (e : EngineState) (ph : StrokePhase) (a c : Timer) : BusLawful (stroking e ph a c) :=
  busLawful_of rfl rfl rfl

theorem test_premises_StopTaken :
    let s := stroking .running .drive (.running 0 4) .idle
    BusLawful s ∧ WorkLawful s ∧ s.engine.state ≠ .off ∧ s.stroke.driven ≠ none ∧ (s.seg 0).state = .clean ∧
      ((capturing .paused .capturing []).seg 3).state = .capturing ∧ (calm .running).stroke.driven = none ∧
      ((working .sensing ⟨.sweep, [3], [(3, 0)], [], false, .unsure⟩).seg 3).state = .sensing ∧ s.chime.state = .silent :=
  ⟨busLawful_stroking .., workLawful_stroking _ (by decide) _ (.inl rfl) _ _, by decide, by decide, by decide, by decide, rfl,
    by decide, rfl⟩

theorem test_premises_PauseAndResumeTaken : (BusLawful busy ∧ busy.engine.state = .running) ∧
    (BusLawful busyPaused ∧ busyPaused.engine.state = .paused ∧ busyPaused.asm = none ∧ busyPaused.engine.shown ≠ .none ∧
      QueueLawful busyPaused ∧ (nx (.resume cw) busyPaused).conv = busyPaused.conv ∧
      busyPaused.queue.entries.find? (fun i => (busyPaused.seg i).state == .stale &&
        (busyPaused.claim (lineOf i)).claim == .free && !(busyPaused.touchLine (lineOf i)).shield) = some 3) ∧
    let s := setClaim 0 ⟨.taken, some 7, false⟩ busyPaused
    ∀ i ∈ s.queue.entries, (s.seg i).state = .stale → (s.claim (lineOf i)).claim = .taken ∨ (s.touchLine (lineOf i)).shield = true :=
  ⟨⟨busLawful_busy, rfl⟩, ⟨busLawful_busyPaused, rfl, rfl, by decide, queueLawful_busyPaused, by decide +kernel, by decide +kernel⟩,
    by decide +kernel⟩

/-- An ARMED record at RESUME: driven when it is free to start, and waiting without charge. -/
theorem test_premises_PauseAndResumeTaken_armed :
    let s := setEngineState .paused (armed (inState .member))
    let free := { s with stroke := { s.stroke with chargeReady := true } }
    BusLawful s ∧ BusLawful free ∧ s.engine.state = .paused ∧
      s.asm.map (fun a => (a.phase, a.members)) = some (.armed, [⟨3, 1, 2, false⟩]) ∧ ¬DriveFree s ∧ DriveFree free ∧
      (nx (.resume cw) free).moduleLink = [(3, 1, 2)] ∧ (nx (.resume cw) s).asm = s.asm :=
  ⟨busLawful_of rfl rfl rfl, busLawful_of rfl rfl rfl, rfl, rfl, by decide, by decide, by decide +kernel, by decide +kernel⟩

/-- RESUME under NONE, where a capture ends in the event that starts it: the entry is CLEAN where every pin stands DOWN, and else a member,
of an ARMED record that waits for charge, and of a driven one with charge (R66, R70, R71). -/
theorem test_premises_WalkJudged_none :
    let blank := { busyPaused with engine := { busyPaused.engine with shown := .none } }
    let low := setSeg 3 { inState .stale with shadow := ⟨0, BitVec.allOnes 80⟩ } blank
    let charged := setStroke { blank.stroke with chargeReady := true } blank
    let member : Member := ⟨3, 0, BitVec.allOnes 80, false⟩
    let after (s : State) := nx (.resume cw) s
    (∀ s ∈ [blank, low, charged], s.asm = none ∧ s.engine.shown = .none ∧ s.queue.entries.find? (freeEntry s (after s)) = some 3) ∧
      QueueLawful blank ∧ changeSet (blanked (blank.seg 3)) ≠ 0 ∧ changeSet (blanked (low.seg 3)) = 0 ∧
      ¬DriveFree blank ∧ DriveFree charged ∧
      (after blank).asm = some ⟨.armed, [member], [], none⟩ ∧ ((after blank).seg 3).state = .member ∧
      (after charged).stroke = driving charged [member] ∧ ((after charged).seg 3).target = some 0 ∧
      (after low).asm = none ∧ ((after low).seg 3).state = .clean :=
  ⟨by decide +kernel, queueLawful_of (by decide +kernel), by decide +kernel, by decide +kernel, by decide, by decide, by decide +kernel,
    by decide +kernel, by decide +kernel, by decide +kernel, by decide +kernel, by decide +kernel⟩

/-- SHOW in PAUSED with every line shielded, so that no job starts: the queued segment 3, then the CLEAN ones in ascending order. -/
theorem test_premises_ShowTaken_joins :
    let s := withArg 1 { busyPaused with touch := ⟨true, Vector.replicate 24 ⟨.present, .idle, .idle, true⟩⟩ }
    let t := nx (.showBuffer cw) s
    QueueLawful s ∧ s.engine.state = .paused ∧ t.conv = s.conv ∧ t.queue.entries = 3 :: allSegs.filter fun i => i != 3 :=
  ⟨queueLawful_of (by decide +kernel), rfl, by decide +kernel, by decide +kernel⟩

/-- SHOW in RUNNING: with no record a walk captures the first segment from the buffer named; with a capture under way no walk starts. -/
theorem test_premises_ShowTaken_running :
    let s := withArg 1 (calm .running)
    let held := withArg 1 (capturing .running .capturing [1])
    let t := nx (.showBuffer cw) s
    BusLawful s ∧ WorkLawful s ∧ Active s ∧ QueueLawful s ∧ s.asm = none ∧
      t.asm = some ⟨.assembling, [], [0], some ⟨0, .b, [], false, false⟩⟩ ∧ (t.seg 0).dirty = false ∧
      t.seg 1 = { inState .stale with dirty := true } ∧ Quiet held ∧ QueueLawful held ∧ held.engine.state = .running ∧
      (nx (.showBuffer cw) held).asm = held.asm ∧ ((nx (.showBuffer cw) held).seg 3).dirty = true :=
  ⟨busLawful_withArg _ (busLawful_calm _), workLawful_active rfl rfl rfl rfl, .inl rfl, queueLawful_of (by decide +kernel), rfl,
    by decide +kernel, by decide +kernel, by decide +kernel, ⟨by decide, .inr (by decide)⟩, queueLawful_of (by decide +kernel), rfl,
    by decide +kernel, by decide +kernel⟩

/-- RELEASE, CLEAR_FAULTS, DISCARD and SENSE in RUNNING, from a state with no record. -/
theorem test_premises_range_running :
    let held := setSeg 8 { inState .stale with held := true } (withArg 0x0108 (calm .running))
    let bad := setSeg 8 { inState .faulted with faults := [⟨7, .midway⟩] } (withArg 0x0108 (calm .running))
    QueueLawful held ∧ QueueLawful bad ∧ BusLawful held ∧ BusLawful bad ∧ WorkLawful bad ∧ GoodRange bad.bus.argument ∧
      (nx (.release cw) held).asm = captureOf held [] [] 8 ∧ (nx (.clearFaults cw) bad).conv.job.map Job.segs = some [8] ∧
      (nx (.discard cw) held).queue.entries = [] ∧ ((nx (.discard cw) held).seg 8).state = .unsure ∧
      (nx (.sense cw) bad).conv.job.map Job.segs = some [8] :=
  ⟨queueLawful_of (by decide +kernel), queueLawful_of (by decide +kernel), busLawful_of rfl rfl rfl, busLawful_of rfl rfl rfl,
    workLawful_active rfl rfl rfl rfl, by decide, by decide +kernel, by decide +kernel, by decide +kernel, by decide +kernel,
    by decide +kernel⟩

theorem test_premises_ShowTaken : (∀ a : Word, BusLawful (withArg a busyPaused) ∧ WorkLawful (withArg a busyPaused) ∧
    Active (withArg a busyPaused) ∧ (withArg a busyPaused).engine.state = .paused) ∧
    lowByte 0xFF00 = 0 ∧ lowByte 1 = 1 ∧ lowByte 2 = 2 :=
  ⟨fun a => ⟨busLawful_withArg a busLawful_busyPaused, workLawful_active rfl rfl rfl rfl, .inr rfl, rfl⟩,
    by decide, by decide, by decide⟩

/-- What the commands on ranges assume, with the ranges at their bounds: the whole page, and segment 95 alone. -/
theorem premises_range (a : Word) (ha : a = 0x6000 ∨ a = 0x015F ∨ a = 0x0103) : BusLawful (withArg a busyPaused) ∧
    WorkLawful (withArg a busyPaused) ∧ QueueLawful (withArg a busyPaused) ∧ Active (withArg a busyPaused) ∧
    GoodRange (withArg a busyPaused).bus.argument :=
  ⟨busLawful_withArg a busLawful_busyPaused, workLawful_active rfl rfl rfl rfl, queueLawful_busyPaused,
    .inr rfl, by rcases ha with rfl | rfl | rfl <;> decide⟩

theorem test_premises_HoldTaken : BusLawful (withArg 0x6000 busyPaused) ∧ Active (withArg 0x6000 busyPaused) ∧
    GoodRange (withArg 0x6000 busyPaused).bus.argument :=
  have h := premises_range _ (.inl rfl); ⟨h.1, h.2.2.2.1, h.2.2.2.2⟩

theorem test_premises_ReleaseTaken : BusLawful (withArg 0x015F busyPaused) ∧ Active (withArg 0x015F busyPaused) ∧
    GoodRange (withArg 0x015F busyPaused).bus.argument ∧ busyPaused.engine.state = .paused ∧ QueueLawful (withArg 0x015F busyPaused) :=
  have h := premises_range _ (.inr (.inl rfl)); ⟨h.1, h.2.2.2.1, h.2.2.2.2, rfl, h.2.2.1⟩

theorem test_premises_DiscardTaken : BusLawful (withArg 0x0103 busyPaused) ∧ WorkLawful (withArg 0x0103 busyPaused) ∧
    Active (withArg 0x0103 busyPaused) ∧ GoodRange (withArg 0x0103 busyPaused).bus.argument ∧
    Covered (withArg 0x0103 busyPaused).bus.argument 3 ∧ ((withArg 0x0103 busyPaused).seg 3).state = .stale :=
  have h := premises_range _ (.inr (.inr rfl)); ⟨h.1, h.2.1, h.2.2.2.1, h.2.2.2.2, by decide, by decide⟩

/-- A capture under way of a segment discarded; and CLEAN segments that join, with the converter OFF. -/
theorem test_premises_DiscardTaken_more :
    (let s := withArg 0x0103 (capturing .paused .capturing [1]);
      BusLawful s ∧ WorkLawful s ∧ Active s ∧ GoodRange s.bus.argument ∧
      ∃ a cap, s.asm = some a ∧ a.phase = .assembling ∧ a.capture = some cap ∧ Covered s.bus.argument cap.seg ∧
        (s.seg cap.seg).state = .capturing) ∧
    let s := withArg 0x0204 { calm .paused with conv := State.reset.conv }
    BusLawful s ∧ WorkLawful s ∧ GoodRange s.bus.argument ∧ s.engine.state = .paused ∧ QueueLawful s ∧
      (nx (.discard cw) s).conv = s.conv ∧ (nx (.discard cw) s).queue.entries = [4, 5] :=
  ⟨⟨busLawful_of rfl rfl rfl, workLawful_like (workLawful_capturing (.inr rfl) .capturing [1]) rfl rfl rfl rfl rfl, .inr rfl, by decide,
    _, _, rfl, rfl, rfl, by decide, by decide⟩, busLawful_of rfl rfl rfl, workLawful_active rfl rfl rfl rfl, by decide, rfl,
    queueLawful_of (by decide +kernel), by decide +kernel, by decide +kernel⟩

theorem test_premises_PromoteTaken : BusLawful (withArg 0x0103 busyPaused) ∧ QueueLawful (withArg 0x0103 busyPaused) ∧
    Active (withArg 0x0103 busyPaused) ∧ GoodRange (withArg 0x0103 busyPaused).bus.argument ∧
    QueueLawful (capturing .paused .capturing []) ∧ (capturing .paused .capturing []).queue.mark = true :=
  have h := premises_range _ (.inr (.inr rfl)); ⟨h.1, h.2.2.1, h.2.2.2.1, h.2.2.2.2, queueLawful_of (by decide +kernel), rfl⟩

/-- The last clause's premises too: the converter free, no sweep waiting, and segment 3 the lowest eligible. -/
theorem test_premises_SenseTaken :
    let s := withArg 0x0103 busyPaused
    BusLawful s ∧ Active s ∧ GoodRange s.bus.argument ∧ s.conv.sense = none ∧ s.engine.state = .paused ∧ s.conv.state = .standby ∧
      s.conv.job = none ∧ s.stroke.driven = none ∧ (∀ k ∈ s.queue.entries, (s.seg k).state = .unsure → shielded s (lineOf k) = true) ∧
      Covered s.bus.argument 3 ∧ (s.seg 3).state.senseable = true ∧ shielded s (lineOf 3) = false ∧
      ∀ k : SegNo, Covered s.bus.argument k → k.val < 3 → (s.seg k).state.senseable = false ∨ shielded s (lineOf k) = true :=
  have h := premises_range _ (.inr (.inr rfl))
  ⟨h.1, h.2.2.2.1, h.2.2.2.2, rfl, rfl, rfl, rfl, rfl, by decide +kernel, by decide, by decide, by decide, by decide +kernel⟩

theorem test_premises_ClearFaultsTaken :
    let s := setSeg 3 { inState .stale with faults := [⟨7, .midway⟩] } (withArg 0x0103 busyPaused)
    BusLawful s ∧ WorkLawful s ∧ Active s ∧ GoodRange s.bus.argument ∧ Covered s.bus.argument 3 ∧ (s.seg 3).faults ≠ [] ∧
      (s.seg 3).state = .stale ∧ ¬Covered s.bus.argument 4 ∧ s.engine.state = .paused :=
  ⟨busLawful_of wf_busy rfl rfl, workLawful_active rfl rfl rfl rfl, .inr rfl, by decide, by decide,
    by decide, by decide, by decide, rfl⟩

/-- CLEAR_FAULTS on a FAULTED segment of a shielded line, which joins behind the queued one. -/
theorem test_premises_ClearFaultsTaken_joins :
    let s := setSeg 4 { inState .faulted with faults := [⟨7, .midway⟩] } (withArg 0x0104
      { busyPaused with touch := ⟨true, Vector.replicate 24 ⟨.present, .idle, .idle, true⟩⟩ })
    let t := nx (.clearFaults cw) s
    QueueLawful s ∧ Covered s.bus.argument 4 ∧ s.engine.state = .paused ∧ t.conv = s.conv ∧ t.queue.entries = [3, 4] :=
  ⟨queueLawful_of (by decide +kernel), by decide, rfl, by decide +kernel, by decide +kernel⟩

/-- An accepted descriptor, and one refused at byte 6, whose dot repeats an earlier one. -/
theorem test_premises_DescriptorValues : firstBadOffset copy = none ∧ firstBadOffset sixDot = none ∧
    firstBadOffset (copy.set 6 4) = some 6 := by decide +kernel

/-- The first failing field's offset, at values on the far side of its bounds. -/
theorem test_first_bad_offset : ∀ c ∈ [((0 : Fin 32), (2 : Byte), 0), (1, 7, 1), (2, 9, 2), (9, 1, 9), (10, 2, 10), (12, 3, 12),
      (13, 0, 13), (13, 9, 13), (14, 9, 14), (15, 101, 15), (17, 12, 16), (19, 40, 18), (21, 118, 20), (23, 4, 22), (25, 2, 24),
      (27, 8, 26), (29, 0, 28)],
    firstBadOffset (copy.set c.1 c.2.1) = some c.2.2 := by decide +kernel

theorem test_premises_DescriptorReads :
    (reading []).engine.state = .loading ∧ (reading []).engine.reading = some [] ∧ ([] : List Word).length < 15 ∧
    (List.replicate 14 (0 : Word)).length < 15 ∧ BusLawful (reading (List.replicate 15 0)) ∧ (List.replicate 15 (0 : Word)).length = 15 ∧
    firstBadOffset (descriptorOf (List.replicate 15 0 ++ [(reading []).mem.word (areaBase (reading []) + 0x111E)])) = some 0 := by
  exact ⟨rfl, rfl, by decide, by decide, busLawful_of rfl rfl rfl, rfl, by decide +kernel⟩

/-- Reads that STOP has left at the port: one of the descriptor, and one of a capture (R9, R81, R166). -/
theorem test_premises_abandoned_reads :
    let left (s : State) := nx (.stop cw) s
    let served (s : State) : State := { s with bus := { s.bus with arbiter := ⟨some .part, some .read, false⟩ } }
    let d := left (reading [1, 2])
    let c := left (capturing .running .capturing [1, 2])
    (d.bus.arbiter.abandoned = true ∧ d.engine.state ≠ .loading ∧ nx .descriptorReadEnd d = served d) ∧
      c.bus.arbiter.abandoned = true ∧ c.asm = none ∧ c.mem.wf = true ∧ c.owed = Owed.nothing ∧ nx .captureReadEnd c = served c := by
  decide +kernel

theorem test_premises_CaptureReads_abandoned :
    let s := { calm .running with bus := { (calm .running).bus with arbiter := ⟨none, none, true⟩ } }
    BusLawful s ∧ s.bus.arbiter.abandoned = true ∧ s.asm = none := ⟨busLawful_of rfl rfl rfl, rfl, rfl⟩

/-- LOADING before the last read, with segment 0 UNSURE and not shielded; with line 0 claimed at the warn point; and with every segment
FAULTED. -/
theorem test_premises_DescriptorAccepted :
    let s := setClaim 0 ⟨.taken, some 1500, false⟩ (reading copyWords)
    let f := { reading copyWords with segs := Vector.replicate 96 (inState .faulted) }
    BusLawful s ∧ WorkLawful s ∧ s.engine.state = .loading ∧ s.engine.reading = some copyWords ∧ copyWords.length = 15 ∧
      copy = descriptorOf (copyWords ++ [s.mem.word (areaBase s + 0x111E)]) ∧ firstBadOffset copy = none ∧
      s.conv.state = .standby ∧ (s.seg 0).state ≠ .faulted ∧ copy[10] = 1 ∧ s.pins.touch[(0 : LineNo)] = false ∧
      (s.claim 0).claim = .taken ∧ 3 * claimLimit copy ≤ 4 * 1500 ∧ 1500 < claimLimit copy ∧ (s.claim 1).claim = .free ∧
      BusLawful f ∧ WorkLawful f ∧ ∀ i, (f.seg i).state = .faulted :=
  ⟨busLawful_of rfl rfl rfl, workLawful_of rfl rfl rfl fun _ => ⟨rfl, rfl⟩, rfl, rfl, rfl, by decide +kernel, by decide +kernel, rfl,
    by decide, rfl, rfl, by decide, by decide +kernel, by decide +kernel, by decide, busLawful_of rfl rfl rfl,
    workLawful_of rfl rfl rfl fun _ => ⟨rfl, rfl⟩, by decide +kernel⟩

theorem test_premises_TargetAndChangeSet : firstBadOffset sixDot = none ∧
    ({ inState .stale with target := some 5 } : Segment).target = some 5 ∧
    ({ inState .stale with target := some 5 } : Segment).state ≠ .faulted ∧ (inState .stale).target = none ∧
    (inState .faulted).state = .faulted := by
  refine ⟨by decide +kernel, rfl, by decide, rfl, rfl⟩

theorem test_premises_CostOfChangeSet :
    raiseSet { inState .stale with target := some (BitVec.allOnes 80) } = BitVec.allOnes 80 ∧
    lowerSet { inState .stale with target := some 0 } = BitVec.allOnes 80 ∧
    (captureOutcome Assembly.started ⟨3, .a, [0, 0, 0, 0, 0], false, false⟩ copy (inState .capturing)).2.isSome = true := by
  decide +kernel

theorem test_premises_CaptureReads :
    let s := capturing .running .capturing [1, 2, 3]
    ∃ a cap, BusLawful s ∧ s.asm = some a ∧ a.capture = some cap ∧ cap.buffer = Buffer.a.shown ∧ cap.words.length < 4 ∧
      goodParity (s.mem.byte (areaBase s + 36)) (s.mem.par (areaBase s + 36)) = true :=
  ⟨_, _, busLawful_of rfl rfl rfl, rfl, rfl, rfl, by decide, by decide⟩

/-- A bad byte under the read. -/
theorem test_bad_byte_marked :
    let s := capturing .running .capturing [1, 2, 3]
    ((nx .captureReadEnd { s with mem := s.mem.store 36 0 false }).seg 3).suspectA = 0b1000000 := by decide +kernel

theorem test_premises_CaptureOutcomes :
    let c : Capture := ⟨3, .a, [0, 0, 0, 0, 0], false, false⟩
    c.badRead = false ∧ (inState .capturing).dirty = false ∧
      changeSet { inState .capturing with target := some (targetOf copy c.cells) } ≠ 0 ∧
      changeSet { inState .capturing with target := some (targetOf copy c.cells), shadow := ⟨0, BitVec.allOnes 80⟩ } = 0 := by
  decide +kernel

/-- The fifth read of a segment CAPTURING, and of one that has moved on, in PAUSED and in RUNNING. -/
theorem test_premises_CaptureEnds :
    ∀ e ∈ [EngineState.running, .paused], ∀ st ∈ [SegState.capturing, .unsure, .sensing, .stale, .clean, .faulted],
    let s := capturing e st [0, 0, 0, 0]
    ∃ a cap, WorkLawful s ∧ CleanLawful s ∧ s.asm = some a ∧ a.capture = some cap ∧ cap.buffer = Buffer.a.shown ∧ cap.words.length = 4 ∧
      (s.seg cap.seg).state = st ∧ s.engine.state = e ∧ s.conv.sense = none ∧ a.phase = .assembling ∧ s.queue.behind = [] := by
  intro e he st hst
  have he' : e = .running ∨ e = .paused := by simpa using he
  have hst' : st ≠ .member ∧ st ≠ .moving ∧ st ≠ .verifying := by revert st; decide
  refine ⟨_, _, workLawful_capturing he' st _, cleanLawful_capturing e hst' _, rfl, rfl, rfl, rfl, ?_, rfl, rfl, rfl, rfl⟩
  simp [capturing, setSeg, State.seg, inState]

/-- The laws of a state whose only work in flight is a capture. -/
theorem lawful_captures {s : State} {a : Assembly} {c : Capture} (ha : s.asm = some a) (hc : a.capture = some c)
    (hd : s.stroke.driven = none) (hj : s.conv.job = none) (hq : queuesRun s.engine = true)
    (hw : (a.members.map Member.seg).Nodup ∧ (∀ m ∈ a.members, (s.seg m.seg).state = .member) ∧ c.seg ∈ a.captured)
    (hs : (∀ i, (s.seg i).state = .clean → (s.seg i).dirty = false) ∧
      (∀ i, (s.seg i).state = .member ∨ (s.seg i).state = .moving ∨ (s.seg i).state = .verifying → (s.seg i).target.isSome = true) ∧
      (s.seg c.seg).state ≠ .member ∧ (s.seg c.seg).state ≠ .moving ∧ (s.seg c.seg).state ≠ .verifying) :
    WorkLawful s ∧ CleanLawful s := by
  refine ⟨⟨?_, by simp [hd], by simp [hj], fun h => absurd (hq.symm.trans h) (by decide)⟩, hs.1, hs.2.1, ?_, by simp [hj]⟩
  · intro a' ha'
    obtain rfl := Option.some.inj (ha.symm.trans ha')
    refine ⟨hw.1, hw.2.1, fun c' hc' => ?_⟩
    obtain rfl := Option.some.inj (hc.symm.trans hc')
    exact hw.2.2
  · intro a' c' ha' hc'
    obtain rfl := Option.some.inj (ha.symm.trans ha')
    obtain rfl := Option.some.inj (hc.symm.trans hc')
    exact hs.2.2

/-- The end of a capture in RUNNING and in PAUSED: the record waits ARMED, and, with the segment written meanwhile, it is dropped in PAUSED;
and in RUNNING with the drive free the member is driven. -/
theorem test_capture_end_walk_ends :
    let s (e : EngineState) := capturing e .capturing [0, 0, 0, 0]
    let dirty := setSeg 3 { inState .capturing with dirty := true } (s .paused)
    let free := { s .running with stroke := { (s .running).stroke with chargeReady := true } }
    (QueueLawful (s .running) ∧ QueueLawful (s .paused) ∧ QueueLawful dirty) ∧
    (∀ e ∈ [EngineState.running, .paused], ¬DriveFree (s e) ∧
      (nx .captureReadEnd (s e)).asm = some ⟨.armed, [⟨3, 0, BitVec.allOnes 80, false⟩], [], none⟩ ∧
      (nx .captureReadEnd (s e)).queue.entries = []) ∧
    ((nx .captureReadEnd dirty).asm = none ∧ (nx .captureReadEnd dirty).queue.entries = [3]) ∧
    (nx .captureReadEnd free).moduleLink = [(3, 0, BitVec.allOnes 80)] ∧ DriveFree free := by
  refine ⟨⟨queueLawful_of (by decide +kernel), queueLawful_of (by decide +kernel), queueLawful_of (by decide +kernel)⟩, ?_⟩
  delta nx exec execCaptureReadEnd captureReadEnds captureTakes captureEnd
  generalize Config.droppedKeepsPlace = keeps
  revert keeps
  decide +kernel

/-- A capture of segment 37 with segment 36 in the record and segment 7 ahead in the queue, the drive free, lines 1 and 9 claimed. -/
def claimedWalk : State :=
  let s := setClaim 1 ⟨.taken, some 1, false⟩ (setClaim 9 ⟨.taken, some 1, false⟩ (calm .running))
  setSeg 7 (inState .stale) (setSeg 36 { inState .member with target := some 1 } (setSeg 37 (inState .capturing)
    (setAsm (some ⟨.assembling, [⟨36, 1, 2, false⟩], [37, 36], some ⟨37, .a, [0, 0, 0, 0], false, false⟩⟩)
      (setQueue ⟨[7, 37], [], true⟩ { s with stroke := { s.stroke with chargeReady := true } }))))

theorem lawful_claimedWalk : WorkLawful claimedWalk ∧ CleanLawful claimedWalk :=
  lawful_captures rfl rfl rfl rfl rfl (by decide +kernel) (by decide +kernel)

/-- Both members are dropped in the event of the capture end, STALE with their targets. Segment 36 rejoins at the head, and so does 37 behind it
in a part that keeps R50, R51 and R85; in one that keeps R61, 37 keeps its place (log 30). With no entry before 37 the two agree (11, A second
reader takes the freed line, row 8). -/
theorem test_capture_end_dropped :
    QueueLawful claimedWalk ∧ DriveFree claimedWalk ∧ underCapture claimedWalk 37 = true ∧
      keptMembers claimedWalk [⟨36, 1, 2, false⟩, ⟨37, 0, BitVec.allOnes 80, false⟩] = [] ∧
      (nx .captureReadEnd claimedWalk).queue.entries = (if Config.droppedKeepsPlace then [36, 7, 37] else [36, 37, 7]) ∧
      (nx .captureReadEnd (setQueue ⟨[37], [], true⟩ (setSeg 7 (inState .clean) claimedWalk))).queue.entries = [36, 37] ∧
      (nx .captureReadEnd claimedWalk).asm = none ∧ ((nx .captureReadEnd claimedWalk).seg 37).state = .stale ∧
      ((nx .captureReadEnd claimedWalk).seg 37).target = some 0 := by
  refine ⟨queueLawful_of (by decide +kernel), ?_⟩
  delta nx exec execCaptureReadEnd captureReadEnds captureTakes captureEnd
  generalize Config.droppedKeepsPlace = keeps
  revert keeps
  decide +kernel

/-- The end of a capture with an entry behind the walk mark, which is captured next, the member in the record; and in RUNNING one that leaves
no member, after which a new walk captures the segment again. -/
theorem test_premises_CaptureEnds_walk :
    let s (e : EngineState) := setSeg 7 (inState .stale) (setQueue ⟨[3], [7], true⟩ (capturing e .capturing [0, 0, 0, 0]))
    let again := setSeg 3 { inState .capturing with dirty := true } (capturing .running .capturing [0, 0, 0, 0])
    (∀ e ∈ [EngineState.running, .paused], WorkLawful (s e) ∧ CleanLawful (s e) ∧ QueueLawful (s e) ∧
      ∃ a, (s e).asm = some a ∧ nextOfWalk (s e) a = some 7) ∧
    (∃ a, again.asm = some a ∧ nextOfWalk again a = none) ∧
    (∀ e ∈ [EngineState.running, .paused],
      (nx .captureReadEnd (s e)).asm = captureOf (s e) [⟨3, 0, BitVec.allOnes 80, false⟩] [3] 7 ∧
        (nx .captureReadEnd (s e)).queue.entries = [7]) ∧
    (nx .captureReadEnd again).asm = captureOf again [] [] 3 ∧ ((nx .captureReadEnd again).seg 3).dirty = false := by
  refine ⟨fun e he => ?_, ⟨_, rfl, by decide +kernel⟩, ?_⟩
  · have he' : e = .running ∨ e = .paused := by simpa using he
    rcases he' with rfl | rfl <;>
      exact and_assoc.1 ⟨lawful_captures rfl rfl rfl rfl rfl (by decide +kernel) (by decide +kernel), queueLawful_of (by decide +kernel),
        _, rfl, by decide +kernel⟩
  delta nx exec execCaptureReadEnd captureReadEnds captureTakes captureEnd
  generalize Config.droppedKeepsPlace = keeps
  revert keeps
  decide +kernel

/-- A CLEAN segment that a new target leaves with changes: STALE in a part that keeps R41, and as it was in one that keeps R74; one that shows
its target stays CLEAN in both. -/
theorem test_clean_gives_way :
    let r := { inState .clean with target := some 0 }
    let shows := { inState .clean with target := some 1, shadow := ⟨1, ~~~1⟩ }
    changeSet r ≠ 0 ∧ r.keptCleanIf true = { r with state := .stale } ∧ r.keptCleanIf false = r ∧
    (∀ b, shows.keptCleanIf b = shows) ∧ captureMovedOn ⟨3, .a, [0, 0, 0, 0, 0], false, false⟩ copy (inState .clean) = r ∧
    badAt { capturing .paused .capturing [0, 0, 0, 0] with mem := (⟨[], []⟩ : Memory).store 39 0 false } 38 1 = true := by decide +kernel

theorem test_premises_StrokeTimers :
    (let s := stroking .running .drive (.running 4 4) .idle;
      BusLawful s ∧ (∃ ms, s.stroke.driven = some ⟨.drive, ms⟩) ∧ s.stroke.drive.runs = true) ∧
    let s := stroking .running .settle .idle (.running 2 2)
    BusLawful s ∧ (∃ ms, s.stroke.driven = some ⟨.settle, ms⟩) ∧ s.stroke.settle.runs = true :=
  ⟨⟨busLawful_stroking .., ⟨_, rfl⟩, rfl⟩, busLawful_stroking .., ⟨_, rfl⟩, rfl⟩

theorem test_premises_RechargeExpires :
    (let s := armed (inState .member);
      s.stroke.recharge.runs = true ∧ s.asm.map (fun a => (a.phase, a.members)) = some (.armed, [⟨3, 1, 2, false⟩]) ∧
      s.stroke.driven = none ∧ s.gate.state = .opened ∧ s.engine.state = .running ∧ s.conv.job = none ∧
      dropped s ⟨3, 1, 2, false⟩ = false) ∧
    dropped (armed { inState .member with dirty := true }) ⟨3, 1, 2, false⟩ = true ∧ busy.asm = none ∧ busy.engine.shown ≠ .none ∧
    busyPaused.engine.state ≠ .running := by decide +kernel

theorem workLawful_armed {r : Segment} (hr : r.state = .member) : WorkLawful (armed r) := by
  refine ⟨?_, ?_, ?_, ?_⟩
  · intro a ha
    obtain rfl : (⟨.armed, [⟨3, 1, 2, false⟩], [3], none⟩ : Assembly) = a := Option.some.inj ha
    refine ⟨by simp, fun m hm => ?_, by simp⟩
    obtain rfl := List.mem_singleton.1 hm
    simp [armed, setSeg, State.seg, hr]
  · simp [armed, calm, setSeg, State.reset, State.poweredOn]
  · simp [armed, calm, setSeg, State.reset, State.poweredOn]
  · intro h
    simp [armed, setSeg, calm, queuesRun] at h

/-- The recheck drops a dirty member, which joins at the head and is captured again at once. -/
theorem test_premises_RechargeExpires_dropped :
    let s := armed { inState .member with dirty := true }
    let t := nx .rechargeTimerExpiry s
    WorkLawful s ∧ QueueLawful s ∧ s.engine.shown ≠ .none ∧ t.conv = s.conv ∧ t.queue.entries = [3] ∧ (t.seg 3).state = .capturing :=
  ⟨workLawful_armed rfl, queueLawful_of (by decide +kernel), by decide, by decide +kernel, by decide +kernel, by decide +kernel⟩

/-- Charge-ready is set, and nothing else of the stroke unit changes: with a record ASSEMBLING, with the gate CLOSED, a stroke driven, a job
running. -/
theorem test_premises_RechargeExpires_waits :
    let s := armed (inState .member)
    let assembling := setAsm (some ⟨.assembling, [], [3], some ⟨3, .a, [], false, false⟩⟩) s
    let shut := setGate ⟨.closed, .idle⟩ s
    let driven := setStroke { s.stroke with driven := some ⟨.settle, [⟨4, 1, 0, false⟩]⟩ } s
    let job := setConv { s.conv with job := some ⟨.sweep, [4], [(4, 0)], [], false, .unsure⟩ } s
    ∀ u ∈ [assembling, shut, driven, job], u.stroke.recharge.runs = true ∧ u.asm.isSome = true ∧
      (nx .rechargeTimerExpiry u).stroke = { u.stroke with recharge := .idle, chargeReady := true } := by decide +kernel

theorem test_drive_start : (nx .rechargeTimerExpiry (armed (inState .member))).moduleLink = [(3, 1, 2)] := by decide +kernel

theorem test_premises_ConversionTaken :
    let s := working .sensing ⟨.sweep, [3], [(3, 0), (3, 1)], [], false, .unsure⟩
    let u := { s with conv := { s.conv with warmUp := .set } }
    (BusLawful s ∧ s.conv.state = .converting ∧ (∃ j, s.conv.job = some j ∧ j.todo = (3, 0) :: [(3, 1)]) ∧ s.conv.warmUp = .clear) ∧
    BusLawful u ∧ u.conv.state = .converting ∧ (∃ j, u.conv.job = some j ∧ j.todo = (3, 0) :: [(3, 1)]) ∧ u.conv.warmUp = .set :=
  ⟨⟨busLawful_of rfl rfl rfl, rfl, ⟨_, rfl, rfl⟩, rfl⟩, busLawful_of rfl rfl rfl, rfl, ⟨_, rfl, rfl⟩, rfl⟩

/-- The warm-up: its value is thrown away with the mark set, and the mark is clear when the second conversion's value is handed to the job
(R109). -/
theorem test_warm_up :
    let s := working .sensing ⟨.sweep, [3], [(3, 0), (3, 1)], [], false, .unsure⟩
    let one := nx (.conversionEnd 9) { s with conv := { s.conv with warmUp := .set } }
    let two := nx (.conversionEnd 900) one
    one.conv.warmUp = .made ∧ one.conv.job = s.conv.job ∧ two.conv.warmUp = .clear ∧
      two.conv.job.map Job.results = some [⟨3, 0, 900, .up⟩] := by decide +kernel

/-- The clauses of a failure: none before, one before, two before with room in the fault list and with none. -/
theorem test_premises_VerifyOutcomes :
    let r (es : List RetryEntry) (fs : List FaultEntry) : Segment := { inState .verifying with retry := es, faults := fs }
    (r [] []).state ≠ .faulted ∧ PinClass.midway ≠ .up ∧ (∀ e ∈ (r [] []).retry, e.pin ≠ 4) ∧
    (r [⟨4, .one⟩] []).retry.Pairwise (fun x y => x.pin.val < y.pin.val) ∧ (⟨4, .one⟩ : RetryEntry) ∈ (r [⟨4, .one⟩] []).retry ∧
    (⟨4, .two⟩ : RetryEntry) ∈ (r [⟨4, .two⟩] []).retry ∧ (r [⟨4, .two⟩] []).faults.length < 4 ∧
    4 ≤ (r [⟨4, .two⟩] [⟨0, .midway⟩, ⟨1, .midway⟩, ⟨2, .midway⟩, ⟨3, .midway⟩]).faults.length ∧
    (inState .faulted).state = .faulted := by
  refine ⟨by decide, by decide, by decide, by simp, by decide, by decide, by decide, by decide, by decide⟩

/-- Both sides of the bound of 64 unconsumed records. -/
theorem test_premises_FaultRecords : ((0x40 : BitVec 8) - 0x01).toNat < 64 ∧ 64 ≤ ((0x40 : BitVec 8) - 0).toNat := by decide

theorem test_premises_StrokeEnds : ∀ x : Bool,
    ∃ j d, WorkLawful (verifying x) ∧ (verifying x).engine.state = .paused ∧ (verifying x).conv.sense = none ∧
      (verifying x).conv.state = .converting ∧ (verifying x).conv.warmUp = .clear ∧ (verifying x).conv.job = some j ∧
      j.kind = .verify ∧ j.todo = [(3, 1)] ∧ (verifying x).stroke.driven = some d ∧ ∃ m ∈ d.members, m.touched = x :=
  fun x => ⟨_, _, workLawful_verifying x, rfl, rfl, rfl, rfl, rfl, rfl, rfl, rfl, _, List.mem_singleton.2 rfl, rfl⟩

/-- The stroke of `verifying false` and its conversions, the last of value 900. -/
def verified : Driven := ⟨.verify, [⟨3, 1, 2, false⟩]⟩
def verifiedPins : List Conversion := [⟨3, 0, 900, .up⟩, ⟨3, 1, 900, .up⟩]

/-- That stroke in RUNNING, its segment with a target that its second pin misses. -/
def missing : State := setSeg 3 { inState .verifying with target := some 9 } (setEngineState .running (verifying false))

/-- The end of a stroke in RUNNING with no record. -/
theorem test_premises_StrokeEnds_running : ∀ x : Bool,
    let s := setEngineState .running (verifying x)
    WorkLawful s ∧ Active s ∧ s.asm = none ∧ s.engine.shown ≠ .none :=
  fun x => ⟨workLawful_like (workLawful_verifying x) rfl rfl rfl rfl rfl, .inl rfl, rfl, show Shown.a ≠ .none by decide⟩

/-- There the member finished STALE is captured at once by a new walk (R63, R95). -/
theorem test_stroke_end_walks :
    let after := strokeEnded missing verified verifiedPins
    let t := nx (.conversionEnd 900) missing
    QueueLawful missing ∧ missing.asm = none ∧ after.queue.entries.find? (freeEntry after t) = some 3 ∧
      t.asm = captureOf after [] [] 3 ∧ t.seg 3 = { after.seg 3 with state := .capturing, dirty := false } ∧
      (after.seg 3).retry.length = 1 ∧ t.stroke = after.stroke ∧ t.queue.entries = [3] :=
  ⟨queueLawful_of (by decide +kernel), rfl, by decide +kernel⟩

/-- Under NONE its capture ends in the event too: it is the member of an ARMED record, or of the drive where one is free to start. -/
theorem test_stroke_end_blanks :
    let s (ready : Bool) := { missing with
      engine := { missing.engine with shown := .none }, stroke := { missing.stroke with chargeReady := ready } }
    let after (ready : Bool) := strokeEnded (s ready) verified verifiedPins
    let t (ready : Bool) := nx (.conversionEnd 900) (s ready)
    (QueueLawful (s false) ∧ QueueLawful (s true)) ∧ ¬DriveFree (after false) ∧ DriveFree (after true) ∧
      (t false).asm = some ⟨.armed, [⟨3, 0, BitVec.allOnes 80, false⟩], [], none⟩ ∧
      (t true).stroke = driving (after true) [⟨3, 0, BitVec.allOnes 80, false⟩] :=
  ⟨⟨queueLawful_of (by decide +kernel), queueLawful_of (by decide +kernel)⟩, by decide +kernel⟩

/-- The same stroke's end with an ARMED record of segment 9 that waited only for it. -/
def waitsForStroke (r : Segment) : State :=
  setAsm (some ⟨.armed, [⟨9, 1, 2, false⟩], [], none⟩) (setSeg 9 r { missing with stroke := { missing.stroke with chargeReady := true } })

theorem workLawful_waitsForStroke {r : Segment} (hr : r.state = .member) : WorkLawful (waitsForStroke r) := by
  refine ⟨fun a ha => ?_, fun d hd => ?_, fun j hj => ?_, fun h => absurd (show true = false from h) (by decide)⟩
  · obtain rfl : (⟨.armed, [⟨9, 1, 2, false⟩], [], none⟩ : Assembly) = a := Option.some.inj ha
    refine ⟨by decide, fun m hm => ?_, fun c hc => nomatch hc⟩
    obtain rfl := List.mem_singleton.1 hm
    simp [waitsForStroke, setAsm, setSeg, State.seg, hr]
  · obtain rfl : verified = d := Option.some.inj hd
    refine ⟨by decide, fun m hm => ?_, fun h => absurd rfl h, fun _ => ⟨_, rfl, rfl⟩⟩
    obtain rfl := List.mem_singleton.1 hm
    simp [waitsForStroke, missing, setAsm, setSeg, setEngineState, State.seg, verified, StrokePhase.memberState, inState]
  · obtain rfl := Option.some.inj hj
    exact ⟨rfl, _, rfl, rfl, rfl⟩

/-- It is driven in that event; and one that the recheck drops is STALE at the head, where a new walk captures it (R84 to R86, R95). -/
theorem test_premises_StrokeEnds_drives :
    let kept := waitsForStroke { inState .member with target := some 1 }
    let out := waitsForStroke { inState .member with target := some 1, dirty := true }
    let after (s : State) := strokeEnded s verified verifiedPins
    (WorkLawful kept ∧ WorkLawful out ∧ QueueLawful kept ∧ QueueLawful out) ∧ DriveFree (after kept) ∧ DriveFree (after out) ∧
      keptMembers (after kept) [⟨9, 1, 2, false⟩] = [⟨9, 1, 2, false⟩] ∧ keptMembers (after out) [⟨9, 1, 2, false⟩] = [] ∧
      (nx (.conversionEnd 900) kept).stroke = driving (after kept) [⟨9, 1, 2, false⟩] ∧
      (nx (.conversionEnd 900) kept).queue.entries = [3] ∧ (nx (.conversionEnd 900) out).stroke = (after out).stroke ∧
      (nx (.conversionEnd 900) out).asm = captureOf out [] [] 9 ∧ (nx (.conversionEnd 900) out).queue.entries = [9, 3] :=
  ⟨⟨workLawful_waitsForStroke rfl, workLawful_waitsForStroke rfl, queueLawful_of (by decide +kernel), queueLawful_of (by decide +kernel)⟩,
    by decide +kernel⟩

/-- The end of a stroke in RUNNING while a walk captures segment 11: the member, held back by no record, rejoins at the head, and the walk's
record stays as it was. -/
theorem test_premises_StrokeEnds_assembling :
    let s := setAsm (some ⟨.assembling, [], [11], some ⟨11, .a, [1], false, false⟩⟩)
      (setSeg 11 (inState .capturing) (setQueue ⟨[11], [], true⟩ missing))
    let t := nx (.conversionEnd 900) s
    WorkLawful s ∧ QueueLawful s ∧ Quiet (strokeEnded s verified verifiedPins) ∧ s.conv.sense = none ∧ t.conv.job = none ∧
      (t.seg 3).state = .stale ∧ t.queue.entries = [3, 11] ∧ t.asm = s.asm ∧ (t.seg 11).state = .capturing := by
  refine ⟨⟨?_, ?_, ?_, fun h => absurd h (by decide)⟩, queueLawful_of (by decide +kernel), by decide +kernel, rfl, by decide +kernel⟩
  · intro a ha
    obtain rfl : (⟨.assembling, [], [11], some ⟨11, .a, [1], false, false⟩⟩ : Assembly) = a := Option.some.inj ha
    refine ⟨by decide, by decide, fun c hc => ?_⟩
    obtain rfl := Option.some.inj hc
    decide
  · intro d hd
    obtain rfl : verified = d := Option.some.inj hd
    exact ⟨by decide, by decide +kernel, fun h => absurd rfl h, fun _ => ⟨_, rfl, rfl⟩⟩
  · intro j hj
    obtain rfl := Option.some.inj hj
    exact ⟨rfl, _, rfl, rfl, rfl⟩

/-- A stroke's end that gives a pin up: its record, the tone, and the segment at the head of the queue. -/
theorem test_premises_StrokeEnds_asks :
    let s := setSeg 3 { inState .verifying with target := some 9, shadow := ⟨0, ~~~11⟩, retry := [⟨1, .two⟩] } (verifying false)
    let t := nx (.conversionEnd 900) s
    QueueLawful s ∧ t.conv.job = none ∧ t.queue.entries = [3] ∧ t.events.producer = 1 ∧ t.chime.state = .fault ∧
      strokeAsks s [⟨3, 1, 2, false⟩] [⟨3, 0, 900, .up⟩, ⟨3, 1, 900, .up⟩] = [⟨3, 0, 2, 1, 3, .a, 900⟩] :=
  ⟨queueLawful_of (by decide +kernel), by decide +kernel, by decide +kernel, by decide +kernel, by decide +kernel, by decide +kernel⟩

/-- The last sweep: of a run in PAUSED, and of LOADING with every other segment STALE. -/
theorem test_premises_SweepEnds :
    (let s := working .sensing ⟨.sweep, [3], [(3, 79)], [], false, .unsure⟩;
      s.conv.state = .converting ∧ s.conv.warmUp = .clear ∧ s.conv.sense = none ∧ s.engine.state = .paused ∧
      (∃ j, s.conv.job = some j ∧ j.kind = .sweep ∧ j.segs = [3] ∧ j.todo = [(3, 79)] ∧ j.touched = false) ∧
      (s.seg 3).discardAfter = false ∧ (s.seg 3).state = .sensing ∧ (s.seg 3).held = false ∧ suspect s.engine.shown (s.seg 3) = false ∧
      QueueLawful s) ∧
    let s := setEngineState .loading (working .sensing ⟨.sweep, [3], [(3, 79)], [], false, .unsure⟩)
    BusLawful s ∧ s.engine.state = .loading ∧ s.engine.reading = none ∧
      ∀ k, k ≠ 3 → (s.seg k).state ≠ .unsure ∧ (s.seg k).state ≠ .sensing := by
  have h : let s := working .sensing ⟨.sweep, [3], [(3, 79)], [], false, .unsure⟩
      s.queue.entries.Nodup ∧ ∀ i, i ∈ s.queue.entries ↔ queueable s.engine (s.seg i) = true := by decide +kernel
  exact ⟨⟨rfl, rfl, rfl, rfl, ⟨_, rfl, rfl, rfl, rfl, rfl⟩, by decide, by decide, by decide, by decide, h⟩,
    busLawful_of rfl rfl rfl, rfl, rfl, by decide +kernel⟩

/-- A sweep in LOADING with another segment still UNSURE on a shielded line: the swept one is STALE at the head. -/
theorem test_premises_SweepEnds_loading :
    let s := setTouchLine 2 ⟨.present, .idle, .idle, true⟩ (setSeg 8 (inState .unsure) (setQueue ⟨[], [8], false⟩
      (setEngineState .loading (working .sensing ⟨.sweep, [3], [(3, 79)], [], false, .unsure⟩))))
    let t := nx (.conversionEnd 0) s
    s.engine.state = .loading ∧ s.engine.reading = none ∧ ((8 : SegNo) ≠ 3 ∧ (s.seg 8).state = .unsure) ∧ QueueLawful s ∧
      (t.seg 3).state = .stale ∧ t.queue.entries = [3, 8] ∧ t.engine.state = .loading :=
  ⟨rfl, rfl, by decide, queueLawful_of (by decide +kernel), by decide +kernel, by decide +kernel, by decide +kernel⟩

/-- A sweep of segment 3 at its last conversion, and its segment as value 0 leaves it. -/
def lastSweep : Job := ⟨.sweep, [3], [(3, 79)], [], false, .unsure⟩
def lastSwept : Segment := { inState .stale with shadow := (inState .sensing).shadow.sense 79 .down }

/-- A sweep's end in RUNNING while a walk captures segment 11, and with an ARMED record that waits for its recharge. -/
theorem test_premises_SweepEnds_running :
    let sweep := setEngineState .running (working .sensing lastSweep)
    let walk := setAsm (some ⟨.assembling, [], [11], some ⟨11, .a, [1], false, false⟩⟩)
      (setSeg 11 (inState .capturing) (setQueue ⟨[11], [], true⟩ sweep))
    let waits := setAsm (some ⟨.armed, [⟨9, 1, 2, false⟩], [], none⟩) (setSeg 9 (inState .member) sweep)
    (QueueLawful walk ∧ QueueLawful waits) ∧
      (∀ s ∈ [walk, waits], Quiet (jobEnded s lastSweep 3 lastSwept none) ∧ (nx (.conversionEnd 0) s).seg 3 = lastSwept ∧
        (nx (.conversionEnd 0) s).asm = s.asm) ∧
      (nx (.conversionEnd 0) walk).queue.entries = [3, 11] ∧ (nx (.conversionEnd 0) waits).queue.entries = [3] :=
  ⟨⟨queueLawful_of (by decide +kernel), queueLawful_of (by decide +kernel)⟩, by decide +kernel, by decide +kernel, by decide +kernel⟩

/-- A sweep's end in RUNNING with no record, and the last of LOADING: a walk captures the segment in the same event (R63, R120, R170). -/
theorem test_sweep_end_walks : ∀ e ∈ [EngineState.running, .loading],
    let s := setEngineState e (working .sensing lastSweep)
    let after := setEngineState .running (jobEnded s lastSweep 3 lastSwept none)
    let t := nx (.conversionEnd 0) s
    QueueLawful s ∧ s.asm = none ∧ s.engine.reading = none ∧ (∀ k, (after.seg k).state ≠ .unsure ∧ (after.seg k).state ≠ .sensing) ∧
      ¬Quiet after ∧ after.queue.entries.find? (freeEntry after t) = some 3 ∧ t.engine.state = .running ∧
      t.asm = captureOf after [] [] 3 ∧ t.seg 3 = { after.seg 3 with state := .capturing } ∧ t.queue.entries = [3] := by
  intro e he
  have he' : e = .running ∨ e = .loading := by simpa using he
  rcases he' with rfl | rfl <;> exact ⟨queueLawful_of (by decide +kernel), rfl, rfl, by decide +kernel⟩

/-- A sweep that ends on a segment with discard-after set whose capture is still under way: the capture finds it forgotten (R22, R39, R74). -/
theorem test_sweep_forgets_capture :
    let s := setSeg 3 { inState .sensing with discardAfter := true } (setAsm (some ⟨.assembling, [], [3], some ⟨3, .a, [1], false, false⟩⟩)
      (working .sensing ⟨.sweep, [3], [(3, 79)], [], false, .unsure⟩))
    (nx (.conversionEnd 0) s).asm = captureForgotten s (· == 3) ∧ captureForgotten s (· == 3) ≠ s.asm := by decide +kernel

/-- The grants that PAUSE lets be judged: a SWEEP before a SENSE job, the SENSE job with no entry to sweep, none with a stroke in DRIVE; and
the hold-back at a sweep's end, with a member that is driven and with one that the recheck drops. -/
theorem test_premises_GrantOrder :
    let s := setConv { busy.conv with sense := some ⟨3, 2, []⟩ } busy
    let unsure := setSeg 3 (inState .unsure) s
    let driving := setStroke { s.stroke with driven := some ⟨.drive, [⟨9, 1, 0, false⟩]⟩ } unsure
    BusLawful s ∧ BusLawful unsure ∧ BusLawful driving ∧
      (nx (.pause cw) unsure).conv.job.map Job.kind = some .sweep ∧
      (nx (.pause cw) s).conv.job.map Job.kind = some .sense ∧ (nx (.pause cw) driving).conv = driving.conv ∧
      (nx (.pause cw) busy).conv = busy.conv :=
  ⟨busLawful_of wf_busy rfl rfl, busLawful_of wf_busy rfl rfl, busLawful_of wf_busy rfl rfl, by decide +kernel, by decide +kernel,
    by decide +kernel, by decide +kernel⟩

theorem workLawful_heldBack (r : Segment) (hr : r.state = .member) : WorkLawful (heldBack r) := by
  refine ⟨?_, ?_, ?_, ?_⟩
  · intro a ha
    obtain rfl : (⟨.armed, [⟨3, 1, 2, false⟩], [3], none⟩ : Assembly) = a := Option.some.inj ha
    refine ⟨by simp, fun m hm => ?_, by simp⟩
    obtain rfl := List.mem_singleton.1 hm
    simp [heldBack, armed, setSeg, setConv, setQueue, setStroke, State.seg, hr]
  · simp [heldBack, armed, calm, setSeg, setConv, setQueue, setStroke, State.reset, State.poweredOn]
  · intro j hj
    obtain rfl : (⟨.sweep, [9], [(9, 79)], [], true, .unsure⟩ : Job) = j := Option.some.inj hj
    exact ⟨rfl, 9, rfl, by simp [heldBack, setSeg, setConv, setQueue, setStroke, State.seg, inState]⟩
  · intro h
    simp [heldBack, armed, setSeg, setConv, setQueue, setStroke, calm, queuesRun] at h

theorem test_premises_GrantOrder_holdBack :
    let s := heldBack (inState .member)
    let d := heldBack { inState .member with dirty := true }
    WorkLawful s ∧ WorkLawful d ∧ (QueueLawful s ∧ QueueLawful d) ∧
      keptMembers s [⟨3, 1, 2, false⟩] ≠ [] ∧ keptMembers d [⟨3, 1, 2, false⟩] = [] ∧
      (nx (.conversionEnd 0) s).moduleLink = [(3, 1, 2)] ∧ (nx (.conversionEnd 0) s).conv.job = none ∧
      (nx (.conversionEnd 0) d).conv.job.map Job.kind = some .sweep :=
  ⟨workLawful_heldBack _ rfl, workLawful_heldBack _ rfl, ⟨queueLawful_of (by decide +kernel), queueLawful_of (by decide +kernel)⟩,
    by decide +kernel, by decide +kernel, by decide +kernel, by decide +kernel, by decide +kernel⟩

/-- A touched sweep, with discard-after clear and set. -/
theorem test_premises_SweepEnds_touched : ∀ b : Bool,
    let s := setSeg 3 { inState .sensing with discardAfter := b } (working .sensing ⟨.sweep, [3], [(3, 79)], [], true, .unsure⟩)
    s.conv.state = .converting ∧ s.conv.warmUp = .clear ∧ s.conv.sense = none ∧ s.engine.state = .paused ∧
      (∃ j, s.conv.job = some j ∧ j.kind = .sweep ∧ j.segs = [3] ∧ j.todo = [(3, 79)] ∧ j.touched = true) ∧
      (s.seg 3).discardAfter = b :=
  fun b => ⟨rfl, rfl, rfl, rfl, ⟨_, rfl, rfl, rfl, rfl, rfl⟩, by simp⟩

/-- A SENSE of segments 3 and 4 at the end of the job on 3: with 4 still to do, and with 4 done. -/
theorem test_premises_SenseEnds : ∀ x : Bool, ∀ ds ∈ [[], [(4 : SegNo)]],
    let w := working .sensing ⟨.sense, [3], [(3, 79)], [], x, .clean⟩
    let s := { w with conv := { w.conv with sense := some ⟨3, 2, ds⟩ } }
    ∃ j rec, BusLawful s ∧ s.conv.state = .converting ∧ s.conv.warmUp = .clear ∧ s.conv.job = some j ∧ j.kind = .sense ∧
      j.segs = [3] ∧ j.todo = [(3, 79)] ∧ s.conv.sense = some rec ∧ (3 : SegNo) ∈ rec.range ∧ (3 : SegNo) ∉ rec.done ∧
      j.touched = x ∧ rec.done = ds := by
  intro x ds hds
  refine ⟨_, _, busLawful_of rfl rfl rfl, rfl, rfl, rfl, rfl, rfl, rfl, rfl, show (3 : SegNo) ∈ segRange 3 2 by decide +kernel, ?_, rfl, rfl⟩
  rcases List.mem_cons.1 hds with rfl | h
  · decide
  · obtain rfl := List.mem_singleton.1 h
    decide

/-- The clauses of a touched job on a segment that was CLEAN: no changes, and changes, where a sweep takes the UNSURE segment at once. -/
theorem test_premises_SenseEnds_clean :
    let at' (r : Segment) := setSeg 3 r (working .sensing ⟨.sense, [3], [(3, 79)], [], true, .clean⟩)
    ∀ r ∈ [{ inState .sensing with target := some 1, shadow := ⟨1, ~~~1⟩ }, { inState .sensing with target := some 1 }],
      (at' r).engine.state = .paused ∧ ((at' r).seg 3).discardAfter = false ∧ ((at' r).seg 3).dirty = false ∧
      ((nx (.conversionEnd 0) (at' r)).seg 3).state =
        (if changeSet r = 0 then .clean else .sensing) := by decide +kernel

/-- A touched job on a segment that was CLEAN and has lost its target, the shield still on: it "returns to CLEAN when its dirty mark is clear
and its change set is empty, as R126 gives" (R41), in PAUSED, and in RUNNING while a walk captures another segment. -/
theorem test_premises_SenseEnds_running :
    let j : Job := ⟨.sense, [3], [(3, 79)], [], true, .clean⟩
    let job := working .sensing j
    let s := setTouchLine 0 ⟨.present, .idle, .idle, true⟩ { job with conv := { job.conv with sense := some ⟨3, 1, []⟩ } }
    let walk := setAsm (some ⟨.assembling, [], [11], some ⟨11, .a, [1], false, false⟩⟩)
      (setSeg 11 (inState .capturing) (setQueue ⟨[11], [], true⟩ (setEngineState .running s)))
    QueueLawful s ∧ QueueLawful walk ∧ BusLawful walk ∧
      (∀ x ∈ [s, walk], Quiet (jobEnded x j 3 (inState .clean) x.conv.sense) ∧ (x.seg 3).target = none ∧
        (nx (.conversionEnd 0) x).seg 3 = inState .clean ∧ (nx (.conversionEnd 0) x).asm = x.asm) ∧
      (nx (.conversionEnd 0) walk).queue.entries = [11] :=
  ⟨queueLawful_of (by decide +kernel), queueLawful_of (by decide +kernel), busLawful_of rfl rfl rfl, by decide +kernel, by decide +kernel⟩

/-- A SENSE job's end in RUNNING with no record: a walk captures the segment it leaves STALE in the same event (R63, R125); on a claimed line
none starts. -/
theorem test_sense_end_walks :
    let j : Job := ⟨.sense, [3], [(3, 79)], [], false, .stale⟩
    let w := setEngineState .running (working .sensing j)
    let s := { w with conv := { w.conv with sense := some ⟨3, 1, []⟩ } }
    let taken := setClaim 0 ⟨.taken, some 1, false⟩ s
    let after (x : State) := jobEnded x j 3 lastSwept none
    let t := nx (.conversionEnd 0) s
    (BusLawful s ∧ QueueLawful s ∧ QueueLawful taken) ∧ s.asm = none ∧ ¬Quiet (after s) ∧
      (after s).queue.entries.find? (freeEntry (after s) t) = some 3 ∧ t.asm = captureOf (after s) [] [] 3 ∧
      t.seg 3 = { lastSwept with state := .capturing } ∧ t.queue.entries = [3] ∧
      (nx (.conversionEnd 0) taken).asm = none ∧ (nx (.conversionEnd 0) taken).seg 3 = lastSwept :=
  ⟨⟨busLawful_of rfl rfl rfl, queueLawful_of (by decide +kernel), queueLawful_of (by decide +kernel)⟩, by decide +kernel⟩

/-- And with an ARMED record that waited only for the converter: it is driven in that event (R84, R113). -/
theorem test_sense_end_drives :
    let j : Job := ⟨.sense, [9], [(9, 79)], [], false, .stale⟩
    let s := setConv ⟨.converting, some 9, .clear, some j, some ⟨9, 1, []⟩⟩ (setQueue ⟨[], [], false⟩ (setSeg 8 (inState .clean)
      (heldBack (inState .member))))
    QueueLawful s ∧ BusLawful s ∧ DriveFree (jobEnded s j 9 lastSwept none) ∧ (nx (.conversionEnd 0) s).moduleLink = [(3, 1, 2)] ∧
      (nx (.conversionEnd 0) s).queue.entries = [9] ∧ (nx (.conversionEnd 0) s).conv.job = none :=
  ⟨queueLawful_of (by decide +kernel), busLawful_of rfl rfl rfl, by decide +kernel⟩

/-- A SENSE job that ends in PAUSED on a segment freed from FAULTED during the job, queued as UNSURE, and on one with discard-after set. -/
theorem test_premises_SenseEnds_freed : ∀ x ∈ [false, true],
    let job (b : SegState) := (working .unsure ⟨.sense, [3], [(3, 79)], [], x, b⟩)
    let freed := setQueue ⟨[], [8, 3], false⟩ (setSeg 8 (inState .stale) (job .faulted))
    let gone := setQueue ⟨[], [8], false⟩ (setSeg 8 (inState .stale) (setSeg 3 { inState .sensing with discardAfter := true } (job .stale)))
    QueueLawful freed ∧ QueueLawful gone ∧
      ((nx (.conversionEnd 0) freed).seg 3).state = (if x then .sensing else .stale) ∧
      (nx (.conversionEnd 0) freed).queue.entries = (if x then [8] else [8, 3]) ∧
      (nx (.conversionEnd 0) gone).seg 3 = { inState .sensing with shadow := ⟨0, 0⟩ } := by
  intro x hx
  rcases List.mem_cons.1 hx with rfl | h
  · exact ⟨queueLawful_of (by decide +kernel), queueLawful_of (by decide +kernel), by decide +kernel⟩
  · obtain rfl := List.mem_singleton.1 h
    exact ⟨queueLawful_of (by decide +kernel), queueLawful_of (by decide +kernel), by decide +kernel⟩

theorem test_premises_SupplyGateTaken :
    (BusLawful State.reset ∧ State.reset.gate.state = .closed) ∧ (BusLawful busy ∧ busy.gate.state ≠ .closed) ∧
    let s := { busy with gate := ⟨.rearming, .running 50 50⟩ }
    BusLawful s ∧ s.gate.state = .rearming ∧ s.gate.rearm.runs = true :=
  ⟨⟨busLawful_of rfl rfl rfl, rfl⟩, ⟨busLawful_busy, by decide⟩, busLawful_of wf_busy rfl rfl, rfl, rfl⟩

theorem test_premises_SupplyLostWhileOpen :
    (let s := stroking .running .drive (.running 0 4) .idle;
      BusLawful s ∧ WorkLawful s ∧ s.gate.state = .opened ∧ chimeEnabled s.engine.copy = true ∧ s.chime.state = .silent ∧
      ∃ d, s.stroke.driven = some d ∧ d.phase = .drive) ∧
    let s := stroking .running .settle .idle (.running 0 2)
    BusLawful s ∧ WorkLawful s ∧ s.gate.state = .opened ∧ ∃ d, s.stroke.driven = some d ∧ d.phase ≠ .drive :=
  ⟨⟨busLawful_stroking .., workLawful_stroking _ (by decide) _ (.inl rfl) _ _, rfl, by decide, rfl, _, rfl, rfl⟩,
    busLawful_stroking .., workLawful_stroking _ (by decide) _ (.inl rfl) _ _, rfl, _, rfl, by decide⟩

/-- The members of an aborted stroke at the head of the queue, in member order; on a line without a shield the first is swept at once. -/
theorem test_premises_SupplyLostWhileOpen_queue :
    let s := setSeg 8 (inState .stale) (setQueue ⟨[], [8], false⟩ (stroking .paused .drive (.running 0 4) .idle))
    let two := setSeg 2 (inState .moving) (setStroke { s.stroke with driven := some ⟨.drive, [⟨3, 1, 2, false⟩, ⟨2, 1, 0, false⟩]⟩ } s)
    QueueLawful s ∧ s.engine.state ≠ .running ∧ (nx .supplyOkFall s).queue.entries = [8] ∧
      (nx .supplyOkFall (setTouchLine 0 ⟨.present, .idle, .idle, true⟩ two)).queue.entries = [3, 2, 8] :=
  ⟨queueLawful_of (by decide +kernel), by decide, by decide +kernel, by decide +kernel⟩

/-- The Chime at the request for the fault tone: SOUNDING PAGE, SOUNDING FAULT, and with chime enable 0. -/
theorem test_premises_SupplyLostWhileOpen_chime :
    let s := stroking .running .settle .idle (.running 0 2)
    let page := { s with chime := ⟨.page, some 500, .running 0 150, .none⟩ }
    let fault := { s with chime := ⟨.fault, some 500, .running 0 500, .none⟩ }
    let off := { s with engine := { s.engine with copy := s.engine.copy.set 11 0 } }
    (chimeEnabled page.engine.copy = true ∧ (nx .supplyOkFall page).chime = { page.chime with next := .fault }) ∧
    (chimeEnabled fault.engine.copy = true ∧ (nx .supplyOkFall fault).chime = fault.chime) ∧
    chimeEnabled off.engine.copy = false ∧ (nx .supplyOkFall off).chime = off.chime := by decide +kernel

/-- A line's record, in RUNNING with that line's pin low. -/
def line2 (t : TouchLine) : State := { busy with touch := { busy.touch with lines := busy.touch.lines.set 2 t } }

theorem test_premises_TouchTaken : (∀ t, BusLawful (line2 t) ∧ (line2 t).touch.running = true ∧ (line2 t).touchLine 2 = t ∧
      (line2 t).pins.touch[(2 : LineNo)] = false ∧ (line2 t).stroke.driven = none ∧ (line2 t).conv.job = none) ∧ State.reset.touch.running = false ∧
    copy[16].toNat + 256 * copy[17].toNat ≠ 0 ∧ firstBadOffset ((copy.set 16 0).set 17 0) = none ∧
    (TouchLine.mk .absent (.running 30 30) .idle false).accepted = (if false then .present else .absent) ∧
    (TouchLine.mk .present (.running 30 30) .idle true).accepted ≠ (if false then .present else .absent) ∧
    (TouchLine.mk .absent .idle (.running 0 500) true).holdOff.runs = true :=
  ⟨fun _ => ⟨busLawful_of wf_busy rfl rfl, rfl, by simp [line2, State.touchLine], rfl, rfl, rfl⟩, rfl, by decide, by decide +kernel,
    rfl, by decide, rfl⟩

/-- A line freed of its claim, and of its shield, in RUNNING and in PAUSED: a walk captures its entry, and a sweep takes an UNSURE one. -/
theorem test_premises_WorkJudged :
    let claimed := setClaim 0 ⟨.taken, some 7, false⟩ busy
    let shielded := setTouchLine 0 ⟨.absent, .idle, .running 0 500, true⟩ busy
    let unsure := setSeg 3 (inState .unsure) shielded
    let asmOf (c : Instr) (s : State) := (nx c s).asm
    (QueueLawful busy ∧ busy.engine.state = .running ∧ busy.asm = none ∧ busy.engine.shown ≠ .none) ∧
      (QueueLawful claimed ∧ QueueLawful shielded ∧ QueueLawful unsure) ∧
      asmOf (.claimExpiry 0) claimed = captureOf claimed [] [] 3 ∧
      asmOf (.claimWordWrite 5 (put 0)) busy = captureOf busy [] [] 3 ∧
      asmOf (.holdOffTimerExpiry 0) shielded = captureOf shielded [] [] 3 ∧
      asmOf (.holdOffTimerExpiry 0) (setEngineState .paused shielded) = none ∧
      (nx (.holdOffTimerExpiry 0) unsure).conv.job.map Job.segs = some [3] ∧
      ∃ a, (capturing .running .capturing []).asm = some a ∧ a.phase ≠ .armed :=
  ⟨⟨queueLawful_of (by decide +kernel), rfl, rfl, by decide⟩,
    ⟨queueLawful_of (by decide +kernel), queueLawful_of (by decide +kernel), queueLawful_of (by decide +kernel)⟩, by decide +kernel,
    by decide +kernel, by decide +kernel, by decide +kernel, by decide +kernel, _, rfl, by decide⟩

theorem test_premises_TimerPoints : ∀ b : Bool,
    (let s := setClaim 5 ⟨.taken, some 7, b⟩ busy;
      BusLawful s ∧ queuesRun s.engine = true ∧ (s.claim 5).claim = .taken ∧ (s.claim 5).warned = b) ∧
    let s := { busy with engine := { busy.engine with lag := some 5000, lagWarned := b } }
    BusLawful s ∧ s.engine.state = .running ∧ s.engine.lag = some 5000 ∧ s.engine.lagWarned = b := fun b =>
  ⟨⟨busLawful_of wf_busy rfl rfl, rfl, by simp, by simp⟩, busLawful_of wf_busy rfl rfl, rfl, rfl, rfl⟩

/-- A stretch that has not warned passes its warn point before its limit (R184). -/
theorem test_lag_limit_warns :
    let t := nx .lagLimitPoint { busy with engine := { busy.engine with lag := some 5000 } }
    isPending t .lagWarn = true ∧ isPending t .lagLimit = true ∧ t.engine.lag = none := by decide +kernel

theorem test_premises_ChimeTimers : ∀ n : NextMark,
    let s := { busy with chime := ⟨.page, some 1000, .running 150 150, n⟩ }
    s.chime.duration = .running 150 150 ∧ s.chime.state ≠ .silent ∧ s.chime.next = n ∧ s.chime.tone = some 1000 ∧ 1000 ∣ 150 * 1000 ∧
      ¬1000 ∣ 150 * 333 := fun _ => ⟨rfl, by simp, rfl, rfl, by decide, by decide⟩

/-- "A page-ready tone at 400 Hz lasts exactly 60 periods": the expiry on the end of the last silences it at once (R196). -/
theorem test_duration_on_period_end :
    (nx .durationTimerExpiry { busy with chime := ⟨.page, some 400, .running 150 150, .none⟩ }).chime = Chime.silent ∧
    (nx .durationTimerExpiry { busy with chime := ⟨.page, some 333, .running 150 150, .none⟩ }).chime.next = .silent := by decide +kernel

theorem test_premises_EventWithoutCause : OwesNothing State.reset ∧ takesPlace .postWrite State.reset = false := ⟨rfl, rfl⟩

/-- A command that changes a mirror word, a status field and the pending set. -/
theorem test_premises_ChangesArePosted :
    let s := withArg 0x0103 busyPaused
    let t := nx (.hold cw) s
    BusLawful s ∧ exec (.hold cw) s = .next t ∧ mirrorWord t.engine.shown (t.seg 3) ≠ mirrorWord s.engine.shown (s.seg 3) ∧
      statusFields t ≠ statusFields s ∧ t.events.pending ≠ s.events.pending := by
  have h : let s := withArg 0x0103 busyPaused
      let t := nx (.hold cw) s
      mirrorWord t.engine.shown (t.seg 3) ≠ mirrorWord s.engine.shown (s.seg 3) ∧
        statusFields t ≠ statusFields s ∧ t.events.pending ≠ s.events.pending := by decide +kernel
  exact ⟨(premises_range _ (.inr (.inr rfl))).1, rfl, h⟩

/-- A stroke's end that leaves its segment CLEAN. -/
def arriving : State :=
  setSeg 3 { inState .verifying with target := some 1, shadow := ⟨0, ~~~3⟩ } (verifying false)

theorem test_premises_BecomesClean : WorkLawful arriving ∧ exec (.conversionEnd 0) arriving = .next (nx (.conversionEnd 0) arriving) ∧
    (arriving.seg 3).state ≠ .clean ∧ ((nx (.conversionEnd 0) arriving).seg 3).state = .clean := by
  refine ⟨?_, rfl, by decide, by decide +kernel⟩
  refine ⟨?_, ?_, ?_, ?_⟩
  · simp [arriving, verifying, calm, setSeg, State.reset, State.poweredOn]
  · intro d hd
    obtain rfl : (⟨.verify, [⟨3, 1, 2, false⟩]⟩ : Driven) = d := Option.some.inj hd
    refine ⟨by simp, ?_, fun h => absurd rfl h, fun _ => ⟨_, rfl, rfl⟩⟩
    intro m hm
    obtain rfl := List.mem_singleton.1 hm
    simp [arriving, setSeg, State.seg, StrokePhase.memberState, inState]
  · intro j hj
    obtain rfl := Option.some.inj hj
    exact ⟨rfl, _, rfl, rfl, rfl⟩
  · intro h
    simp [arriving, verifying, setSeg, calm, queuesRun] at h

/-- A lawful CLEAN segment, after reset. -/
theorem test_premises_BecomesClean_law :
    let s := setSeg 3 { inState .clean with target := some 1, shadow := ⟨1, ~~~1⟩ } State.reset
    (∃ t, step s = .next t) ∧ WorkLawful s ∧ CleanLawful s ∧ (s.seg 3).state = .clean ∧ ShowsTarget (s.seg 3) := by
  refine ⟨⟨_, rfl⟩, workLawful_of rfl rfl rfl fun _ => ⟨rfl, rfl⟩, ⟨?_, ?_, nofun, nofun⟩, by decide +kernel, by decide +kernel⟩
  · decide +kernel
  · decide +kernel

/-- The end of a touched SENSE job that began on a CLEAN segment with a target, which returns it to CLEAN (R126). -/
theorem test_premises_BecomesClean_touched :
    let job := setTouchLine 0 ⟨.present, .idle, .idle, true⟩ (working .sensing ⟨.sense, [3], [(3, 79)], [], true, .clean⟩)
    let s := setSeg 3 { inState .sensing with target := some 1, shadow := ⟨1, ~~~1⟩ } job
    (s.seg 3).target.isSome = true ∧ ((nx (.conversionEnd 0) s).seg 3).state = .clean ∧ (s.seg 3).state ≠ .clean := by decide +kernel

end Sys2Proof.Tests
end

/-! ### The cost of a change set (R26) -/

namespace Sys2Proof.Machine

/-- Each of the 80 pins of a segment is in a set or in its complement. -/
theorem length_pinsOf_add_not (m : PinSet) : (pinsOf m).length + (pinsOf (~~~m)).length = 80 := by
  have hnot : pinsOf (~~~m) = allPins.filter fun p => !m.getLsbD p.val := by simp [pinsOf]
  calc (pinsOf m).length + (pinsOf (~~~m)).length
      = (allPins.filter fun p => m.getLsbD p.val).length + (allPins.filter fun p => !m.getLsbD p.val).length := by
        rw [hnot, pinsOf]
    _ = allPins.length := (List.length_eq_length_filter_add fun p : Pin => m.getLsbD p.val).symm
    _ = 80 := List.length_finRange

@[simp] theorem pinsOf_zero : pinsOf 0#80 = [] := by simp [pinsOf]

theorem length_pinsOf_allOnes : (pinsOf (BitVec.allOnes 80)).length = 80 := by
  simpa only [BitVec.not_allOnes, pinsOf_zero, List.length_nil, Nat.add_zero] using length_pinsOf_add_not (BitVec.allOnes 80)

/-- Disjoint sets share the 80 pins: the second lies in the complement of the first. -/
theorem length_pinsOf_add_le_of_disjoint {a b : PinSet} (h : a &&& b = 0) :
    (pinsOf a).length + (pinsOf b).length ≤ 80 := by
  have hsub : ∀ p : Pin, b.getLsbD p.val = true → (~~~a).getLsbD p.val = true := by
    intro p hb
    have hbit : (a &&& b).getLsbD p.val = false := by simp [h]
    rw [BitVec.getLsbD_and, hb, Bool.and_true] at hbit
    simpa using hbit
  have hle : (pinsOf b).length ≤ (pinsOf (~~~a)).length :=
    (List.monotone_filter_right allPins hsub).length_le
  have hcompl := length_pinsOf_add_not a
  omega

/-- No pin is both raised and lowered (R25). -/
theorem raiseSet_and_lowerSet (r : Segment) : raiseSet r &&& lowerSet r = 0 := by
  ext i
  rw [raiseSet, lowerSet]
  generalize r.target.getD 0 = target
  cases h : target[i] <;> simp [h]

/-- A cost is largest when every pin is raised (R26). -/
theorem costOf_le_of_disjoint {raise lower : PinSet} (h : raise &&& lower = 0) : costOf raise lower ≤ 160 := by
  have hcount := length_pinsOf_add_le_of_disjoint h
  unfold costOf
  omega

theorem lowerSet_eq_zero_of_raiseSet_allOnes {r : Segment} (h : raiseSet r = BitVec.allOnes 80) : lowerSet r = 0 := by
  rw [← BitVec.allOnes_and (x := lowerSet r), ← h, raiseSet_and_lowerSet]

theorem raiseSet_eq_zero_of_lowerSet_allOnes {r : Segment} (h : lowerSet r = BitVec.allOnes 80) : raiseSet r = 0 := by
  rw [← BitVec.and_allOnes (x := raiseSet r), ← h, raiseSet_and_lowerSet]

/-- A capture that gives a member had no bad read and no write meanwhile, and fits the record (R68 to R72). -/
theorem captureOutcome_some {a : Assembly} {c : Capture} {d : Descriptor} {r : Segment} {m : Member}
    (h : (captureOutcome a c d r).2 = some m) :
    c.badRead = false ∧ r.dirty = false ∧ a.members.length < Config.maxMembers ∧ m.cost ≤ budgetLeft a := by
  simp only [captureOutcome] at h
  split at h
  case isTrue => simp at h
  case isFalse hbad =>
  split at h
  case isTrue => simp at h
  case isFalse hdirty =>
  split at h
  case isTrue => simp at h
  case isFalse =>
  split at h
  case isFalse => simp at h
  case isTrue hfits =>
  obtain ⟨hroom, hcost⟩ := hfits
  obtain rfl := Option.some.inj h
  exact ⟨by simpa using hbad, by simpa using hdirty, hroom, hcost⟩

/-- Settles O40: the range comes from the raise set and the lower set being disjoint. -/
theorem costOfChangeSet : Obligations.CostOfChangeSet := by
  unfold Obligations.CostOfChangeSet
  refine ⟨fun _ _ => rfl, fun r => costOf_le_of_disjoint (raiseSet_and_lowerSet r), ?zero, ?raised, ?lowered, ?budget⟩
  case zero => simp [costOf]
  case raised =>
    intro r h
    rw [lowerSet_eq_zero_of_raiseSet_allOnes h, h, costOf, length_pinsOf_allOnes]
    simp
  case lowered =>
    intro r h
    rw [raiseSet_eq_zero_of_lowerSet_allOnes h, h, costOf, length_pinsOf_allOnes]
    simp
  case budget =>
    intro a c d r m h
    obtain ⟨-, -, -, hcost⟩ := captureOutcome_some h
    exact hcost

end Sys2Proof.Machine

/-! ### Dropped writes (R6, R8, R149) -/

namespace Sys2Proof.Machine

/-- The words of the area map and the claim words lie apart (01, Area map). -/
theorem offset_ne_claimOffset (p : PartWord) (l : LineNo) : p.offset ≠ claimOffset l := by
  cases p <;> simp only [PartWord.offset, claimOffset] <;> omega

/-- An event that owes nothing else owes nothing once the event pending word is posted. -/
theorem dropWrite_owed {s : State} (h : OwesNothing s) (off : Nat) : (dropWrite off s).owed = s.owed := by
  rw [dropWrite, postPending_owed, raise_owed, post_owed, h]
  rfl

theorem dropWrite_events (off : Nat) (s : State) :
    (dropWrite off s).events = { s.events with pending := s.events.pending ||| Event.ownedWrite.mask } := by
  rw [dropWrite, postPending_events, raise_events, post_events]

theorem pendingWord_dropWrite (off : Nat) (s : State) :
    pendingWord (dropWrite off s) = pendingWord (raise .ownedWrite s) := by
  rw [pendingWord, dropWrite_events, pendingWord, raise_events]

/-- The detail word is posted before the event pending word (R190). -/
theorem dropWrite_bus (off : Nat) (s : State) : (dropWrite off s).bus = { s.bus with
    posts := postTo (postTo s.bus.posts ⟨PartWord.offset .ownedDetail, BitVec.ofNat 16 off⟩) (pendingPost (dropWrite off s)) } := by
  rw [pendingPost, pendingWord_dropWrite]
  rfl

/-- A dropped write raises OWNED_WRITE and no other event. -/
theorem isPending_dropWrite (off : Nat) (s : State) (e : Event) :
    isPending (dropWrite off s) e = (e == .ownedWrite || isPending s e) := by
  rw [← isPending_raise]
  exact isPending_congr (by rw [dropWrite_events, raise_events]) e

theorem endsWith_dropWrite (off : Nat) (s : State) :
    EndsWith (dropWrite off s) [⟨PartWord.offset .ownedDetail, BitVec.ofNat 16 off⟩, pendingPost (dropWrite off s)] := by
  rw [EndsWith, dropWrite_bus]
  exact postTo_two _ (show PartWord.offset .ownedDetail ≠ PartWord.offset .eventPending by decide)

/-- A state with the same shape that owes the same differs at the post list and the pending set at most. -/
theorem onlyPortAndEvents_of_shape {s t : State} (hshape : t.shape = s.shape) (howed : t.owed = s.owed) :
    OnlyPortAndEvents s t := by
  rcases s with ⟨_, _, ⟨_, _, _, _, _, _⟩, _, _, _, _, _, _, _, _, _, ⟨_, _, _⟩, _, _, _⟩
  rcases t with ⟨_, _, ⟨_, _, _, _, _, _⟩, _, _, _, _, _, _, _, _, _, ⟨_, _, _⟩, _, _, _⟩
  simp_all [State.shape, OnlyPortAndEvents]

theorem onlyPortAndEvents_dropWrite {s : State} (h : OwesNothing s) (off : Nat) : OnlyPortAndEvents s (dropWrite off s) :=
  onlyPortAndEvents_of_shape (dropWrite_shape off s) (dropWrite_owed h off)

theorem sameMemory_dropWrite (off : Nat) (s : State) : SameMemory s (dropWrite off s) := by
  intro a
  rw [SameByte, dropWrite_mem]
  exact ⟨rfl, rfl⟩

/-- A post of a word of the area map touches no claim word (R145). -/
theorem ClaimWordsLawful.post {s : State} (h : ClaimWordsLawful s) (p : PartWord) (v : Word) :
    ClaimWordsLawful (post p.offset v s) := by
  intro hs l
  have hne := offset_ne_claimOffset p l
  obtain ⟨hposted, hunposted⟩ := h hs l
  have hhas : hasPost (Machine.post p.offset v s) (claimOffset l) = hasPost s (claimOffset l) := by
    simp [hasPost_post, hne.symm]
  rw [hhas]
  refine ⟨fun hp => ?posted, hunposted⟩
  obtain ⟨hfree, hzero⟩ := hposted hp
  refine ⟨hfree, fun q hq hoff => hzero q ?_ hoff⟩
  rwa [post_mem_other (hoff ▸ hne.symm)] at hq

theorem ClaimWordsLawful.raise {s : State} (h : ClaimWordsLawful s) (e : Event) : ClaimWordsLawful (raise e s) := h

theorem ClaimWordsLawful.postPending {s : State} (h : ClaimWordsLawful s) : ClaimWordsLawful (postPending s) := by
  unfold Machine.postPending
  split
  · exact h.post .eventPending (pendingWord s)
  · exact h

theorem ClaimWordsLawful.dropWrite {s : State} (h : ClaimWordsLawful s) (off : Nat) : ClaimWordsLawful (dropWrite off s) :=
  ((h.post .ownedDetail _).raise .ownedWrite).postPending

/-- A write with a non-zero enabled byte is not all zero (R8). -/
theorem allZero_eq_false_iff (w : HostWrite) : w.allZero = false ↔
    w.enLow = true ∧ lowByte w.data ≠ 0 ∨ w.enHigh = true ∧ highByte w.data ≠ 0 := by
  rw [HostWrite.allZero, Bool.and_eq_false_iff]
  simp

/-- A write of a non-zero byte to a claim word is dropped outside OFF (R149). -/
theorem claimWrite_nonZero {l : LineNo} {w : HostWrite} {s : State} (hs : s.engine.state ≠ .off) (hw : w.allZero = false) :
    claimWrite l w s = dropWrite (claimOffset l) s := by
  simp [claimWrite, isOff, hs, hw]

/-- Settles O21: the write is dropped whole, and neither of the two words that a dropped write posts is a claim word. -/
theorem claimNonZeroDropped : Obligations.ClaimNonZeroDropped := by
  unfold Obligations.ClaimNonZeroDropped
  intro l w s ⟨_, _, howes⟩ hs hw
  have hexec : exec (.claimWordWrite l w) s = .next (dropWrite (claimOffset l) s) :=
    congrArg Host.Outcome.next (claimWrite_nonZero hs ((allZero_eq_false_iff w).2 hw))
  refine ⟨_, hexec, onlyPortAndEvents_dropWrite howes _, sameMemory_dropWrite _ s, dropWrite_claims _ s, ?raised, ?others,
    endsWith_dropWrite _ s, fun h => h.dropWrite _⟩
  case raised => simp [isPending_dropWrite]
  case others =>
    intro e he
    simp [isPending_dropWrite, he]

end Sys2Proof.Machine

/-! ### Command writes and ranges (R2, R13, R162, R163) -/

namespace Sys2Proof.Machine

/-- A host write to a word without a pending post is served at once (R13). -/
theorem forwardArea_none {off : Nat} {s : State} (h : hasPost s off = false) (w : HostWrite) :
    forwardArea off w s = storeArea off w s := by
  rw [forwardArea, waitForPost_none h]

/-- Memory that a host write was stored in reads as that write and, elsewhere, as before (R2). -/
theorem storedOnly_of_mem {s t : State} {a : Nat} {w : HostWrite} (hwf : s.mem.wf = true) (h : t.mem = s.mem.storeHost a w) :
    StoredOnly s t a w := by
  have hbyte := fun c => Memory.byte_storeHost hwf a c w
  have hpar := fun c => Memory.par_storeHost hwf a c w
  refine ⟨⟨fun hlow => ?low, fun hhigh => ?high⟩, fun c hc => ?others⟩
  case low => simp [h, hbyte, hpar, hlow]
  case high => simp [h, hbyte, hpar, hhigh]
  case others =>
    obtain ⟨hlow, hhigh⟩ := not_or.1 hc
    rw [SameByte, h, hbyte, hpar, if_neg hlow, if_neg hhigh, if_neg hlow, if_neg hhigh]
    exact ⟨rfl, rfl⟩

/-- No block posts the command word, so a command write never waits. -/
theorem takeWrite_eq {s : State} (h : PostsLawful s) (code : Byte) (c : CommandWrite) (act : State → State) :
    takeWrite code c act s = act (storeArea commandOffset (c.toHost code) s) := by
  rw [takeWrite, forwardArea_none (h.hasPost_false (not_postable_hostWord (.inl rfl)))]

theorem goodRange_iff (a : Word) : goodRange a = true ↔ GoodRange a := by
  simp only [goodRange, Bool.and_eq_true, decide_eq_true_eq, and_assoc]
  exact Iff.rfl

theorem mem_argRange {a : Word} {i : SegNo} : i ∈ argRange a ↔ Covered a i := by
  simp only [argRange, segRange, allSegs, List.mem_filter, List.mem_finRange, true_and, Bool.and_eq_true, decide_eq_true_eq]
  exact Iff.rfl

theorem contains_argRange (a : Word) (i : SegNo) : (argRange a).contains i = decide (Covered a i) := by
  rw [Bool.eq_iff_iff, List.contains_iff_mem, mem_argRange, decide_eq_true_iff]

/-- A range lists its segments in ascending order (00_scope.md, Ranges). -/
theorem pairwise_lt_argRange (a : Word) : (argRange a).Pairwise fun i k => i.val < k.val := by
  rw [argRange, segRange]
  exact (List.pairwise_lt_finRange 96).filter _

/-- RUNNING and PAUSED take a command on a good range (R163). -/
theorem rangeCommand_taken {s : State} (hs : Active s) (hr : GoodRange s.bus.argument) (code : Byte)
    (act : List SegNo → State → State) : rangeCommand code act s = act (argRange s.bus.argument) s := by
  have hruns : runsOrPaused s = true := by simpa [runsOrPaused] using hs
  rw [rangeCommand, hruns, (goodRange_iff _).2 hr]
  rfl

/-! ### The queue after PROMOTE (R55) -/

/-- The segments that PROMOTE moves: the queued ones of the range, in range order (R55). -/
def Queue.promoted (q : Queue) (range : List SegNo) : List SegNo := range.filter fun i => q.entries.contains i

theorem mem_promoted {q : Queue} {range : List SegNo} {i : SegNo} : i ∈ q.promoted range ↔ i ∈ range ∧ i ∈ q.entries := by
  simp [Queue.promoted]

@[simp] theorem mark_promote (q : Queue) (range : List SegNo) : (q.promote range).mark = q.mark := by
  unfold Queue.promote
  split
  case isTrue h => exact h.symm
  case isFalse h => exact (Bool.eq_false_iff.2 h).symm

/-- The segments moved stand at the head, the others behind them in their order. -/
theorem entries_promote (q : Queue) (range : List SegNo) :
    (q.promote range).entries = q.promoted range ++ q.entries.filter fun i => !range.contains i := by
  unfold Queue.promote
  split <;> simp [Queue.entries, Queue.promoted]

/-- Under a walk mark each side of it keeps its segments but those moved, which all stand ahead of it. -/
theorem promote_of_mark {q : Queue} (h : q.mark = true) (range : List SegNo) : q.promote range =
    ⟨q.promoted range ++ q.ahead.filter fun i => !range.contains i, q.behind.filter fun i => !range.contains i, true⟩ := by
  rw [Queue.promote, if_pos h]
  rfl

/-- PROMOTE reorders the queue: nothing joins and nothing leaves. -/
theorem perm_promote {q : Queue} {range : List SegNo} (hq : q.entries.Nodup) (hr : range.Nodup) :
    (q.promote range).entries.Perm q.entries := by
  have hmoved : (q.promoted range).Perm (q.entries.filter fun i => range.contains i) :=
    (List.perm_ext_iff_of_nodup (hr.filter _) (hq.filter _)).2 fun i => by
      simp [and_comm]
  rw [entries_promote]
  exact (hmoved.append_right _).trans (List.filter_append_perm _ _)

/-! ### Events that change no word shown to the host (R161, R164, R183) -/

/-- An event that leaves the engine state and the settled condition as they were judges nothing of the page (R183, R184). -/
theorem judgeSettled_of_same {b s : State} (hset : settled s = settled b) (hst : s.engine.state = b.engine.state) :
    judgeSettled false b s = s := by
  rw [judgeSettled, hset, hst]
  cases h : settled b <;> simp

theorem postMirrors_nil {s : State} (h : s.owed.mirrors = []) : postMirrors [] s = s := by
  change { s with owed := { s.owed with mirrors := [] } } = s
  rw [← h]

/-- An event that changes no word shown to the host, and owes no mirror word, posts its result words and the event pending word
alone (R42, R161). -/
theorem closePosts_of_same {b s : State} (hm : ∀ i, mirrorChanged b s i = false) (howed : s.owed.mirrors = [])
    (hf : statusFields b = statusFields s) : closePosts b s = postPending (postResults s) := by
  have hnone : mirrorsToPost b s = [] := List.eq_nil_iff_forall_not_mem.2 fun i hi => by
    simpa [hm i, howed] using mem_mirrorsToPost.1 hi
  rw [closePosts, hnone, postMirrors_nil howed, postStatusIf, if_pos hf]

/-- A command that only reorders the queue ends as a refusal does: with its result, CMD_DONE and their two words. -/
theorem closeEvent_setQueue {s : State} (howes : OwesNothing s) {q : Queue} (hlen : q.entries.length = s.queue.entries.length)
    (code : Byte) (r : ResultCode) :
    closeEvent s (giveResult code r (setQueue q s)) = refuse code r (setQueue q s) := by
  have hempty : q.entries.isEmpty = s.queue.entries.isEmpty := by
    rw [Bool.eq_iff_iff, List.isEmpty_iff_length_eq_zero, List.isEmpty_iff_length_eq_zero, hlen]
  have hset : settled (giveResult code r (setQueue q s)) = settled s := by
    simp [settled, hempty]
  have howed : (giveResult code r (setQueue q s)).owed.mirrors = [] := by
    simp [show s.owed = Owed.nothing from howes, Owed.nothing]
  rw [closeEvent, judgeSettled_of_same hset rfl, refuse]
  refine closePosts_of_same (fun i => ?mirror) howed ?status
  case mirror => simp [mirrorChanged]
  case status => simp [statusFields, hlen]

/-- Two words posted one after the other leave the entries of the other words, and then stand in that order (R11). -/
theorem postTo_postTo (l : List Post) {p q : Post} (h : p.offset ≠ q.offset) :
    postTo (postTo l p) q = (l.filter fun x => x.offset != p.offset && x.offset != q.offset) ++ [p, q] := by
  simp [postTo, h, Bool.and_comm]

/-- What ending with a result alone changes, where nothing else is owed: the two words posted, and CMD_DONE (R164). -/
theorem refuse_eq {s : State} (howes : OwesNothing s) (code : Byte) (r : ResultCode) : refuse code r s =
    { s with
      bus := { s.bus with posts := postTo (postTo s.bus.posts (resultPost code r)) (pendingPost (giveResult code r s)) }
      events := (giveResult code r s).events } := by
  have hs : s = { s with owed := Owed.nothing } := by rw [← show s.owed = Owed.nothing from howes]
  rw [hs]
  rfl

theorem isPending_refuse (code : Byte) (r : ResultCode) (e : Event) {s : State} (howes : OwesNothing s) :
    isPending (refuse code r s) e = (e == .cmdDone || isPending s e) := by
  rw [← isPending_giveResult code r]
  exact isPending_congr (by rw [refuse_eq howes]) e

/-! ### PROMOTE (R180) -/

/-- PROMOTE taken: the command word stored, the queue reordered, and the result DONE (R55, R180). -/
theorem exec_promote {s : State} (hbus : BusLawful s) (hq : s.queue.entries.Nodup) (hs : Active s)
    (hr : GoodRange s.bus.argument) (c : CommandWrite) : exec (.promote c) s =
      .next (refuse 9 .done (setQueue (s.queue.promote (argRange s.bus.argument)) (storeArea commandOffset (c.toHost 9) s))) := by
  obtain ⟨-, hposts, howes⟩ := hbus
  have hrange : (argRange s.bus.argument).Nodup := (pairwise_lt_argRange _).imp fun h => Fin.ne_of_lt h
  have hlen := (perm_promote hq hrange).length_eq
  refine congrArg Host.Outcome.next ((takeWrite_eq hposts 9 c takePromote).trans ?_)
  refine (rangeCommand_taken (s := storeArea commandOffset (c.toHost 9) s) hs hr 9 promoteRange).trans ?_
  exact closeEvent_setQueue (s := storeArea commandOffset (c.toHost 9) s) howes hlen 9 .done

/-- Settles O33: the new queue is a permutation of the old one, so that the length in the status word stays and nothing but the result
is posted. -/
theorem promoteTaken : Obligations.PromoteTaken := by
  unfold Obligations.PromoteTaken
  intro c s hbus hqueue hs hr
  have ⟨hwf, _, howes⟩ := hbus
  have hu : OwesNothing (setQueue (s.queue.promote (argRange s.bus.argument)) (storeArea commandOffset (c.toHost 9) s)) := howes
  refine ⟨_, exec_promote hbus hqueue.1 hs hr c, storedOnly_of_mem hwf (refuse_mem _ _ _), ?state, ?done, ?others, ?posts,
    s.queue.promoted (argRange s.bus.argument), s.queue.entries.filter (fun i => decide (¬Covered s.bus.argument i)),
    ?entries, ?ordered, ?promoted, List.filter_sublist, ?rest, ?mark, ?sides⟩
  case state =>
    rw [refuse_eq hu]
    rfl
  case done =>
    rw [isPending_refuse _ _ _ hu]
    rfl
  case others =>
    intro e he
    rw [isPending_refuse _ _ _ hu, beq_false_of_ne he]
    rfl
  case posts =>
    rw [refuse_eq hu]
    exact postTo_postTo _ (show PartWord.offset .result ≠ PartWord.offset .eventPending by decide)
  case entries =>
    rw [refuse_queue, setQueue_queue, entries_promote]
    simp only [contains_argRange, decide_not]
  case ordered => exact (pairwise_lt_argRange _).filter _
  case promoted =>
    intro i
    rw [mem_promoted, mem_argRange, and_comm]
  case rest =>
    intro i
    rw [List.mem_filter, decide_eq_true_iff]
  case mark =>
    rw [refuse_queue]
    exact mark_promote _ _
  case sides =>
    intro hmark
    rw [refuse_queue, setQueue_queue, promote_of_mark hmark]
    simp only [contains_argRange, decide_not, and_self]

end Sys2Proof.Machine

/-! ### The ring consumer count (R193) -/

namespace Sys2Proof.Machine

/-- The counts are of eight bits, so their difference is taken mod 256 (R191, R193). -/
theorem unconsumed_eq_mod (producer v : BitVec 8) : unconsumed producer v = (256 + producer.toNat - v.toNat) % 256 := by
  have hv := v.isLt
  rw [unconsumed, BitVec.toNat_sub]
  omega

@[simp] theorem offerConsumer_mem (v : BitVec 8) (s : State) : (offerConsumer v s).mem = s.mem := by
  unfold offerConsumer
  split <;> rfl

theorem offerConsumer_accepted {v : BitVec 8} {s : State} (h : unconsumed s.events.producer v ≤ Config.ringSlots) :
    offerConsumer v s = { s with events := { s.events with consumer := v } } := if_pos h

theorem offerConsumer_refused {v : BitVec 8} {s : State} (h : Config.ringSlots < unconsumed s.events.producer v) :
    offerConsumer v s = raise .ringIndexBad s := if_neg (Nat.not_le.2 h)

/-- An event that raised nothing does not post the event pending word (R187). -/
theorem postPending_of_owesNothing {s : State} (h : OwesNothing s) : postPending s = s := by
  rw [postPending, h]
  rfl

/-- What an event that raises an event and owes nothing else changes: the pending set, and the post of its word (R186, R187). -/
theorem postPending_raise_eq {s : State} (h : OwesNothing s) (e : Event) : postPending (raise e s) =
    { s with
      bus := { s.bus with posts := postTo s.bus.posts (pendingPost (raise e s)) }
      events := (raise e s).events } := by
  have hs : s = { s with owed := Owed.nothing } := by rw [← show s.owed = Owed.nothing from h]
  rw [hs]
  rfl

/-- No block posts the ring consumer count word (R191), so a write of it never waits. -/
theorem ringConsumerWrite_eq {s : State} (h : PostsLawful s) (w : HostWrite) : ringConsumerWrite w s =
    if w.enLow then postPending (offerConsumer (lowByte w.data) (storeArea ringConsumerOffset w s))
    else storeArea ringConsumerOffset w s := by
  have hnone : hasPost s ringConsumerOffset = false :=
    h.hasPost_false (not_postable_hostWord (.inr (.inr (.inr rfl))))
  rw [ringConsumerWrite, forwardArea_none hnone]

theorem ringConsumerWrite_mem {s : State} (h : PostsLawful s) (w : HostWrite) :
    (ringConsumerWrite w s).mem = s.mem.storeHost (areaBase s + ringConsumerOffset) w := by
  rw [ringConsumerWrite_eq h]
  split
  · rw [postPending_mem, offerConsumer_mem]
    rfl
  · rfl

/-- A write that does not enable the low byte offers no count. -/
theorem ringConsumerWrite_unoffered {s : State} {w : HostWrite} (h : PostsLawful s) (hlow : w.enLow = false) :
    ringConsumerWrite w s = storeArea ringConsumerOffset w s := by
  rw [ringConsumerWrite_eq h, hlow]
  rfl

/-- An accepted count becomes C, and nothing is posted. -/
theorem ringConsumerWrite_accepted {s : State} {w : HostWrite} (h : BusLawful s) (hlow : w.enLow = true)
    (hle : unconsumed s.events.producer (lowByte w.data) ≤ Config.ringSlots) : ringConsumerWrite w s =
    { storeArea ringConsumerOffset w s with events := { s.events with consumer := lowByte w.data } } := by
  obtain ⟨-, hposts, howes⟩ := h
  rw [ringConsumerWrite_eq hposts, if_pos hlow, offerConsumer_accepted (s := storeArea ringConsumerOffset w s) hle]
  exact postPending_of_owesNothing howes

/-- A refused count leaves C, and RING_INDEX_BAD is raised. -/
theorem ringConsumerWrite_refused {s : State} {w : HostWrite} (h : BusLawful s) (hlow : w.enLow = true)
    (hlt : Config.ringSlots < unconsumed s.events.producer (lowByte w.data)) : ringConsumerWrite w s =
    { storeArea ringConsumerOffset w s with
      bus := { (storeArea ringConsumerOffset w s).bus with
        posts := postTo s.bus.posts (pendingPost (raise .ringIndexBad s)) }
      events := (raise .ringIndexBad s).events } := by
  obtain ⟨-, hposts, howes⟩ := h
  rw [ringConsumerWrite_eq hposts, if_pos hlow, offerConsumer_refused (s := storeArea ringConsumerOffset w s) hlt]
  exact postPending_raise_eq (s := storeArea ringConsumerOffset w s) howes .ringIndexBad

/-- Whatever becomes of the count, a write of the word reaches memory, the post list, the arbiter, the pending set and C alone. -/
theorem ringConsumerWrite_frame {s : State} (h : BusLawful s) (w : HostWrite) : ringConsumerWrite w s = { s with
    mem := (ringConsumerWrite w s).mem
    bus := { s.bus with posts := (ringConsumerWrite w s).bus.posts, arbiter := (ringConsumerWrite w s).bus.arbiter }
    events := { s.events with
      pending := (ringConsumerWrite w s).events.pending
      consumer := (ringConsumerWrite w s).events.consumer } } := by
  cases hlow : w.enLow with
  | false =>
    rw [ringConsumerWrite_unoffered h.2.1 hlow]
    rfl
  | true =>
    rcases Nat.lt_or_ge Config.ringSlots (unconsumed s.events.producer (lowByte w.data)) with hlt | hle
    · rw [ringConsumerWrite_refused h hlow hlt]
      rfl
    · rw [ringConsumerWrite_accepted h hlow hle]
      rfl

/-- Settles O17: the word is never posted, so the write is stored at once, and (P − v) mod 256 is the difference of the 8-bit counts. -/
theorem ringConsumerOffered : Obligations.RingConsumerOffered := by
  unfold Obligations.RingConsumerOffered
  intro w s hbus
  have ⟨hwf, hposts, _⟩ := hbus
  refine ⟨ringConsumerWrite w s, rfl, storedOnly_of_mem hwf (ringConsumerWrite_mem hposts w), ringConsumerWrite_frame hbus w,
    fun hlow hle => ?accepted, fun hlow hlt => ?refused, fun hlow => ?unoffered⟩
  case accepted =>
    rw [← unconsumed_eq_mod] at hle
    rw [ringConsumerWrite_accepted hbus hlow hle]
    exact ⟨rfl, rfl, rfl⟩
  case refused =>
    rw [← unconsumed_eq_mod] at hlt
    have heq := ringConsumerWrite_refused hbus hlow hlt
    have hpending (e : Event) : isPending (ringConsumerWrite w s) e = (e == .ringIndexBad || isPending s e) := by
      rw [← isPending_raise]
      exact isPending_congr (by rw [heq]) e
    refine ⟨by rw [heq]; rfl, hpending .ringIndexBad, fun e he => ?_, by rw [heq]; exact ⟨_, rfl⟩⟩
    rw [hpending, beq_false_of_ne he, Bool.false_or]
  case unoffered =>
    rw [ringConsumerWrite_unoffered hposts hlow]
    exact ⟨rfl, rfl⟩

end Sys2Proof.Machine

/-! ### What a command can do -/

namespace Sys2Proof.Machine

/-- The commands that may change the order of the queue: PROMOTE, by its name, its code or its address (R55, R180). -/
def Reorders (cmd : Instr) : Prop :=
  (∃ k, cmd = .promote k) ∨ (∃ code k, cmd = .badcmd code k) ∨ ∃ addr access, cmd = .hostWriteForwarded addr access

/-- What a command that is taken can do: it is refused with a result, or it has its effect and its event ends (R162 to R182). -/
inductive Taken (cmd : Instr) (s : State) : State → Prop
  | refused (code : Byte) (r : ResultCode) : Taken cmd s (refuse code r s)
  | start (h : s.engine.state = .off) : Taken cmd s (closeEvent s (startEffect s))
  | stop (h : s.engine.state ≠ .off) : Taken cmd s (closeEvent s (stopEffect s))
  | pause (h : s.engine.state = .running) :
      Taken cmd s (closeEvent s (giveResult 3 .done (judge (clearLag (setEngineState .paused s)))))
  | resume (h : s.engine.state = .paused) : Taken cmd s (closeEvent s (giveResult 4 .done (judge (setEngineState .running s))))
  | showBuffer (h : Active s) (named : Shown) : Taken cmd s (closeShow s (giveResult 5 .done (judge (showParts named s))))
  | hold (h : Active s) (is : List SegNo) : Taken cmd s (holdRange is s)
  | release (h : Active s) (is : List SegNo) : Taken cmd s (releaseRange is s)
  | discard (h : Active s) (is : List SegNo) : Taken cmd s (discardRange is s)
  | promote (hc : Reorders cmd) (h : Active s) (a : Word) : Taken cmd s (promoteRange (argRange a) s)
  | sense (h : Active s) (hs : s.conv.sense = none) : Taken cmd s (senseRange s)
  | clearFaults (h : Active s) (is : List SegNo) : Taken cmd s (clearRange is s)

variable {cmd : Instr}

theorem active_of_runsOrPaused {s : State} (h : ¬runsOrPaused s = false) : Active s := by
  rw [Active, or_iff_not_imp_left]
  simpa [runsOrPaused] using h

/-- A range command is refused, or takes the range of its argument in RUNNING or PAUSED (R163). -/
theorem rangeCommand_cases (code : Byte) (act : List SegNo → State → State) (s : State) :
    (∃ r, rangeCommand code act s = refuse code r s) ∨
      Active s ∧ rangeCommand code act s = act (argRange s.bus.argument) s := by
  unfold rangeCommand
  split
  · exact .inl ⟨_, rfl⟩
  · rename_i h
    split
    · exact .inl ⟨_, rfl⟩
    · exact .inr ⟨active_of_runsOrPaused h, rfl⟩

/-- A range command whose taken form is known. -/
theorem taken_rangeCommand {code : Byte} {act : List SegNo → State → State} {s : State}
    (h : Active s → Taken cmd s (act (argRange s.bus.argument) s)) : Taken cmd s (rangeCommand code act s) := by
  rcases rangeCommand_cases code act s with ⟨r, hr⟩ | ⟨ha, hr⟩
  · exact hr ▸ .refused code r
  · exact hr ▸ h ha

theorem taken_takeStart (s : State) : Taken cmd s (takeStart s) := by
  unfold takeStart
  split
  · rename_i h
    exact .start (by simpa [isOff] using h)
  · exact .refused _ _

theorem taken_takeStop (s : State) : Taken cmd s (takeStop s) := by
  unfold takeStop
  split
  · exact .refused _ _
  · rename_i h
    exact .stop (by simpa [isOff] using h)

theorem taken_takePause (s : State) : Taken cmd s (takePause s) := by
  unfold takePause
  split
  · rename_i h
    exact .pause h
  · exact .refused _ _

theorem taken_takeResume (s : State) : Taken cmd s (takeResume s) := by
  unfold takeResume
  split
  · rename_i h
    exact .resume h
  · exact .refused _ _

theorem taken_takeShow (s : State) : Taken cmd s (takeShow s) := by
  unfold takeShow
  split
  · exact .refused _ _
  · rename_i h
    split
    · exact .refused _ _
    · exact .showBuffer (active_of_runsOrPaused h) _

theorem taken_takeSense (s : State) : Taken cmd s (takeSense s) := by
  unfold takeSense
  split
  · exact .refused _ _
  · rename_i h
    split
    · exact .refused _ _
    · rename_i hs
      split
      · exact .refused _ _
      · exact .sense (active_of_runsOrPaused h) (by simpa using hs)

/-- What the command of a code does, whatever the code. -/
theorem takeCode_taken (hc : Reorders cmd) (code : Byte) (s : State) : Taken cmd s (takeCode code s) := by
  unfold takeCode
  split
  · exact taken_takeStart s
  · exact taken_takeStop s
  · exact taken_takePause s
  · exact taken_takeResume s
  · exact taken_takeShow s
  · exact taken_rangeCommand fun h => .hold h _
  · exact taken_rangeCommand fun h => .release h _
  · exact taken_rangeCommand fun h => .discard h _
  · exact taken_rangeCommand fun h => .promote hc h _
  · exact taken_takeSense s
  · exact taken_rangeCommand fun h => .clearFaults h _
  · exact .refused _ _

/-- The events of the part's own units, each with what it does before its event ends. -/
inductive Happens (cmd : Instr) (s : State) : State → Prop
  | captureRead (hc : cmd = .captureReadEnd) : Happens cmd s (captureReadEnds s)
  | settle : Happens cmd s (settleExpires s)
  | recharge : Happens cmd s (rechargeExpires s)
  | conversion (v : BitVec 10) (hc : cmd = .conversionEnd v) : Happens cmd s (conversionEnds v s)
  | supplyRise : Happens cmd s (supplyRises s)
  | supplyFall : Happens cmd s (supplyFalls s)
  | rearm : Happens cmd s (rearmExpires s)
  | touchInput (l : LineNo) (high : Bool) : Happens cmd s (touchChanges l high s)
  | guardEnd (l : LineNo) : Happens cmd s (guardExpires l s)
  | holdOffEnd (l : LineNo) : Happens cmd s (holdOffExpires l s)
  | claimWarn (l : LineNo) : Happens cmd s (claimWarnPoint l s)
  | claimLimit (l : LineNo) : Happens cmd s (claimLimitPoint l s)

/-- What a command can do to a state, with the commands that several rows or addresses spell brought together. -/
inductive Meaning (cmd : Instr) (s : State) : State → Prop
  | reset (strap : BitVec 4) (hc : cmd = .powerOnReset strap) : Meaning cmd s (State.poweredOn s.mem s.pins strap s.pending)
  | forward (addr : BitVec 22) (w : HostWrite) (h : placeOfAddr s (hostAddr addr) = .plain) :
      Meaning cmd s (forwardAddr (hostAddr addr) w s)
  | read (a : Nat) (lo hi : Bool) : Meaning cmd s (readAddr a lo hi s)
  | page (buf : Buffer) (word : Fin 480) (w : HostWrite) : Meaning cmd s (pageWrite buf word w s)
  | owned (p : PartWord) (w : HostWrite) : Meaning cmd s (ownedWrite p.offset w s)
  | eventSet (w : HostWrite) : Meaning cmd s (eventSetWrite w s)
  | eventClear (w : HostWrite) : Meaning cmd s (eventClearWrite w s)
  | argument (w : HostWrite) : Meaning cmd s (argumentWrite w s)
  | enable (w : HostWrite) : Meaning cmd s (enableWrite w s)
  | ringConsumer (w : HostWrite) : Meaning cmd s (ringConsumerWrite w s)
  | claimRead (l : LineNo) (lo hi : Bool) : Meaning cmd s (claimRead l lo hi s)
  | claimWrite (l : LineNo) (w : HostWrite) : Meaning cmd s (claimWrite l w s)
  | commandWord (w : HostWrite) : Meaning cmd s (forwardArea commandOffset w s)
  | command (w : HostWrite) (t : State) (h : Taken cmd (forwardArea commandOffset w s) t) : Meaning cmd s t
  | drain : Meaning cmd s (drainHead s)
  | descriptorRead : Meaning cmd s (descriptorReadEnds s)
  | driveExpiry : Meaning cmd s (closePosts s (driveExpires s))
  | event (u : State) (h : Happens cmd s u) : Meaning cmd s (closeEvent s u)
  | lagWarn : Meaning cmd s (postPending (lagWarns s))
  | lagLimit : Meaning cmd s (postPending (lagLimits s))
  | duration : Meaning cmd s (durationExpires s)
  | period : Meaning cmd s (periodEnds s)

theorem meaning_commandWrite (hc : Reorders cmd) (w : HostWrite) (s : State) : Meaning cmd s (commandWrite w s) := by
  unfold commandWrite
  simp only
  split
  · exact .command w _ (takeCode_taken hc _ _)
  · exact .commandWord w

theorem meaning_hostWrite (hc : Reorders cmd) (addr : BitVec 22) (w : HostWrite) (s : State) : Meaning cmd s (hostWrite (hostAddr addr) w s) := by
  unfold hostWrite
  split
  · rename_i h
    exact .forward addr w h
  · exact .page _ _ w
  · exact .owned _ w
  · exact .claimWrite _ w
  · exact meaning_commandWrite hc w s
  · exact .argument w
  · exact .enable w
  · exact .eventSet w
  · exact .eventClear w
  · exact .ringConsumer w

theorem meaning_hostRead (a : Nat) (lo hi : Bool) (s : State) : Meaning cmd s (hostRead a lo hi s) := by
  unfold hostRead
  split
  · exact .claimRead _ lo hi
  · exact .read a lo hi

theorem meaning_hostAccess (hc : Reorders cmd) (addr : BitVec 22) (access : HostAccess) (s : State) :
    Meaning cmd s (hostAccess (hostAddr addr) access s) := by
  cases access with
  | write w => exact meaning_hostWrite hc addr w s
  | read lo hi => exact meaning_hostRead _ lo hi s

/-- Every command has one of these meanings. -/
theorem exec_meaning {c : Instr} {s t : State} (h : exec c s = .next t) : Meaning c s t := by
  obtain ⟨u, hu, hm⟩ : ∃ u, exec c s = .next u ∧ Meaning c s u := by
    cases c with
    | powerOnReset strap => exact ⟨_, rfl, .reset strap rfl⟩
    | hostWriteForwarded addr access => exact ⟨_, rfl, meaning_hostAccess (.inr (.inr ⟨addr, access, rfl⟩)) addr access s⟩
    | pageBufferWrite buf word w => exact ⟨_, rfl, .page buf word w⟩
    | partOwnedWordWrite p w => exact ⟨_, rfl, .owned p w⟩
    | eventSetWordWrite w => exact ⟨_, rfl, .eventSet w⟩
    | eventClearWordWrite w => exact ⟨_, rfl, .eventClear w⟩
    | argumentWordWrite w => exact ⟨_, rfl, .argument w⟩
    | eventEnableWordWrite w => exact ⟨_, rfl, .enable w⟩
    | ringConsumerCountWrite w => exact ⟨_, rfl, .ringConsumer w⟩
    | claimWordRead line lo hi => exact ⟨_, rfl, .claimRead line lo hi⟩
    | claimWordWrite line w => exact ⟨_, rfl, .claimWrite line w⟩
    | start c => exact ⟨_, rfl, .command _ _ (taken_takeStart _)⟩
    | stop c => exact ⟨_, rfl, .command _ _ (taken_takeStop _)⟩
    | pause c => exact ⟨_, rfl, .command _ _ (taken_takePause _)⟩
    | resume c => exact ⟨_, rfl, .command _ _ (taken_takeResume _)⟩
    | showBuffer c => exact ⟨_, rfl, .command _ _ (taken_takeShow _)⟩
    | hold c => exact ⟨_, rfl, .command _ _ (taken_rangeCommand fun h => .hold h _)⟩
    | release c => exact ⟨_, rfl, .command _ _ (taken_rangeCommand fun h => .release h _)⟩
    | discard c => exact ⟨_, rfl, .command _ _ (taken_rangeCommand fun h => .discard h _)⟩
    | promote c => exact ⟨_, rfl, .command _ _ (taken_rangeCommand fun h => .promote (.inl ⟨c, rfl⟩) h _)⟩
    | sense c => exact ⟨_, rfl, .command _ _ (taken_takeSense _)⟩
    | clearFaults c => exact ⟨_, rfl, .command _ _ (taken_rangeCommand fun h => .clearFaults h _)⟩
    | badcmd code c => exact ⟨_, rfl, .command _ _ (takeCode_taken (.inr (.inl ⟨code, c, rfl⟩)) code _)⟩
    | postWrite => exact ⟨_, rfl, .drain⟩
    | descriptorReadEnd => exact ⟨_, rfl, .descriptorRead⟩
    | captureReadEnd => exact ⟨_, rfl, .event _ (.captureRead rfl)⟩
    | driveTimerExpiry => exact ⟨_, rfl, .driveExpiry⟩
    | settleTimerExpiry => exact ⟨_, rfl, .event _ .settle⟩
    | rechargeTimerExpiry => exact ⟨_, rfl, .event _ .recharge⟩
    | conversionEnd v => exact ⟨_, rfl, .event _ (.conversion v rfl)⟩
    | supplyOkRise => exact ⟨_, rfl, .event _ .supplyRise⟩
    | supplyOkFall => exact ⟨_, rfl, .event _ .supplyFall⟩
    | rearmTimerExpiry => exact ⟨_, rfl, .event _ .rearm⟩
    | touchInputChange line high => exact ⟨_, rfl, .event _ (.touchInput line high)⟩
    | guardTimerExpiry line => exact ⟨_, rfl, .event _ (.guardEnd line)⟩
    | holdOffTimerExpiry line => exact ⟨_, rfl, .event _ (.holdOffEnd line)⟩
    | claimWarnPoint line => exact ⟨_, rfl, .event _ (.claimWarn line)⟩
    | claimExpiry line => exact ⟨_, rfl, .event _ (.claimLimit line)⟩
    | lagWarnPoint => exact ⟨_, rfl, .lagWarn⟩
    | lagLimitPoint => exact ⟨_, rfl, .lagLimit⟩
    | durationTimerExpiry => exact ⟨_, rfl, .duration⟩
    | periodEnd => exact ⟨_, rfl, .period⟩
  obtain rfl : u = t := Host.Outcome.next.inj (hu.symm.trans h)
  exact hm

/-- A law of states that the queue of commands does not matter to is kept by every step when a millisecond and every meaning keep it. -/
theorem step_keeps {P : State → Prop} (hpending : ∀ s rest, P s → P { s with pending := rest })
    (htick : ∀ s, P s → P (tick s)) (hmeaning : ∀ cmd s t, P s → Meaning cmd s t → P t) {s t : State} (hs : P s)
    (h : step s = .next t) : P t := by
  rcases step_cases h with ⟨_, rfl⟩ | ⟨c, rest, _, hc⟩
  · exact htick s hs
  · exact hmeaning _ _ _ (hpending s rest hs) (exec_meaning hc)

end Sys2Proof.Machine

/-! ### Work that leaves memory, the claims and the shields (R11, R42, R161, R187) -/

namespace Sys2Proof.Machine

/-- A post list after words of the area map, the claim words not among them, have been posted one after another (R11). -/
inductive PostsOver (l : List Post) : List Post → Prop
  | same : PostsOver l l
  | posted {k : List Post} (h : PostsOver l k) (p : PartWord) (v : Word) : PostsOver l (postTo k ⟨p.offset, v⟩)

theorem PostsOver.trans {l k m : List Post} (h : PostsOver l k) (h' : PostsOver k m) : PostsOver l m := by
  induction h' with
  | same => exact h
  | posted _ p v ih => exact ih.posted p v

/-- Posting words of the area map leaves the entries of the claim words (01, Area map). -/
theorem PostsOver.mem_claim {l k : List Post} (h : PostsOver l k) {q : Post} {line : LineNo} (hq : q.offset = claimOffset line) :
    q ∈ k ↔ q ∈ l := by
  induction h with
  | same => exact Iff.rfl
  | posted _ p v ih =>
    have hne : q.offset ≠ p.offset := hq ▸ (offset_ne_claimOffset p line).symm
    rw [mem_postTo, ← ih]
    constructor
    · rintro (⟨hk, -⟩ | rfl)
      · exact hk
      · exact absurd rfl hne
    · exact fun hk => .inl ⟨hk, hne⟩

theorem PostsOver.nodup {l k : List Post} (h : PostsOver l k) (hl : (l.map Post.offset).Nodup) : (k.map Post.offset).Nodup := by
  induction h with
  | same => exact hl
  | posted _ p v ih => exact postTo_nodup ih _

theorem PostsOver.postable {l k : List Post} (h : PostsOver l k) (hl : ∀ q ∈ l, Postable q.offset) : ∀ q ∈ k, Postable q.offset := by
  induction h with
  | same => exact hl
  | posted _ p v ih =>
    intro q hq
    rcases mem_postTo.1 hq with ⟨hq, -⟩ | rfl
    · exact ih q hq
    · exact postable_word p

/-- What neither the work on segments nor the end of an event changes: memory, the straps, the claims and the touch records, whether the engine is OFF, and
of the post list the claim words. -/
structure PortWork (s t : State) : Prop where
  mem : t.mem = s.mem
  strap : t.bus.strap = s.bus.strap
  claims : t.claims = s.claims
  touch : t.touch = s.touch
  off : t.engine.state = .off ↔ s.engine.state = .off
  posts : PostsOver s.bus.posts t.bus.posts

theorem PortWork.refl (s : State) : PortWork s s := ⟨rfl, rfl, rfl, rfl, Iff.rfl, .same⟩

theorem PortWork.trans {s t u : State} (h : PortWork s t) (k : PortWork t u) : PortWork s u :=
  ⟨k.mem.trans h.mem, k.strap.trans h.strap, k.claims.trans h.claims, k.touch.trans h.touch, k.off.trans h.off, h.posts.trans k.posts⟩

theorem PortWork.of_eq {s t : State} (hmem : t.mem = s.mem) (hstrap : t.bus.strap = s.bus.strap) (hclaims : t.claims = s.claims)
    (htouch : t.touch = s.touch) (hstate : t.engine.state = s.engine.state) (hposts : t.bus.posts = s.bus.posts) : PortWork s t :=
  ⟨hmem, hstrap, hclaims, htouch, by rw [hstate], hposts ▸ .same⟩

/-- The work on segments, strokes and jobs does not reach the memory port. -/
theorem PortWork.of_still {s t : State} (h : t.still = s.still) : PortWork s t :=
  .of_eq (still_mem h) (congrArg BusPass.strap (still_bus h)) (still_claims h) (still_touch h) (congrArg Engine.state (still_engine h))
    (congrArg BusPass.posts (still_bus h))

theorem PortWork.of_firm {s t : State} (h : t.firm = s.firm) (hposts : t.bus.posts = s.bus.posts) : PortWork s t :=
  .of_eq (congrArg Firm.mem h) (congrArg Firm.strap h) (congrArg Firm.claims h) (congrArg Firm.touch h) (congrArg Firm.engineState h) hposts

theorem portWork_post (p : PartWord) (v : Word) (s : State) : PortWork s (post p.offset v s) :=
  ⟨rfl, rfl, rfl, rfl, Iff.rfl, .posted .same p v⟩

theorem portWork_raise (e : Event) (s : State) : PortWork s (raise e s) := .of_eq rfl rfl rfl rfl rfl rfl

theorem portWork_giveResult (code : Byte) (r : ResultCode) (s : State) : PortWork s (giveResult code r s) := .of_eq rfl rfl rfl rfl rfl rfl

theorem portWork_foldl {α : Type} {f : State → α → State} (h : ∀ s x, PortWork s (f s x)) (l : List α) (s : State) :
    PortWork s (l.foldl f s) := by
  induction l generalizing s with
  | nil => exact .refl s
  | cons x l ih => exact (h s x).trans (ih (f s x))

theorem portWork_postAll {ps : List (Nat × Word)} (h : ∀ p ∈ ps, ∃ w : PartWord, p.1 = w.offset) (s : State) :
    PortWork s (postAll ps s) := by
  induction ps generalizing s with
  | nil => exact .refl s
  | cons p ps ih =>
    obtain ⟨w, hw⟩ := h p (by simp)
    have hp : PortWork s (post p.1 p.2 s) := by
      rw [hw]
      exact portWork_post w p.2 s
    exact hp.trans (ih (fun q hq => h q (by simp [hq])) _)

/-! ### The end of an event -/

theorem portWork_postMirrors (is : List SegNo) (s : State) : PortWork s (postMirrors is s) :=
  (portWork_foldl (f := fun s i => post (PartWord.offset (.mirror i)) (mirrorWord s.engine.shown (s.seg i)) s)
    (fun s i => portWork_post (.mirror i) _ s) is s).trans (.of_eq rfl rfl rfl rfl rfl rfl)

theorem portWork_postResults (s : State) : PortWork s (postResults s) :=
  (portWork_foldl (f := fun s v => post (PartWord.offset .result) v s) (fun s v => portWork_post .result v s)
    s.owed.results s).trans (.of_eq rfl rfl rfl rfl rfl rfl)

theorem portWork_postPending (s : State) : PortWork s (postPending s) := by
  unfold postPending
  split
  · exact (portWork_post .eventPending (pendingWord s) s).trans (.of_eq rfl rfl rfl rfl rfl rfl)
  · exact .refl s

theorem portWork_postStatusIf (b s : State) : PortWork s (postStatusIf b s) := by
  unfold postStatusIf
  split
  · exact .refl s
  · exact portWork_post .engineStatus _ s

theorem portWork_closePosts (b s : State) : PortWork s (closePosts b s) :=
  ((portWork_postMirrors _ s).trans (portWork_postStatusIf b _)).trans ((portWork_postResults _).trans (portWork_postPending _))

theorem portWork_judgeSettled (show' : Bool) (b s : State) : PortWork s (judgeSettled show' b s) :=
  .of_firm (judgeSettled_firm show' b s) (by rw [judgeSettled_bus])

theorem portWork_closeEvent (b s : State) : PortWork s (closeEvent b s) :=
  (portWork_judgeSettled false b s).trans (portWork_closePosts b _)

theorem portWork_closeShow (b s : State) : PortWork s (closeShow b s) :=
  (portWork_judgeSettled true b s).trans (portWork_closePosts b _)

theorem portWork_refuse (code : Byte) (r : ResultCode) (s : State) : PortWork s (refuse code r s) :=
  (portWork_giveResult code r s).trans ((portWork_postResults _).trans (portWork_postPending _))

theorem portWork_dropWrite (off : Nat) (s : State) : PortWork s (dropWrite off s) :=
  ((portWork_post .ownedDetail _ s).trans (portWork_raise _ _)).trans (portWork_postPending _)

/-! ### The ends of jobs -/

@[simp] theorem requestFaultTone_bus (s : State) : (requestFaultTone s).bus = s.bus := by
  unfold requestFaultTone
  split
  · split <;> rfl
  · rfl

theorem portWork_requestFaultTone (s : State) : PortWork s (requestFaultTone s) :=
  .of_firm (requestFaultTone_firm s) (by rw [requestFaultTone_bus])

/-- The four words of a record go to the four words of its slot (R191). -/
theorem recordPosts_words (producer : BitVec 8) (f : FaultRecord) :
    ∀ p ∈ recordPosts producer f, ∃ w : PartWord, p.1 = w.offset := by
  have hslot : producer.toNat % 64 < 64 := Nat.mod_lt _ (by decide)
  intro p hp
  simp only [recordPosts, FaultRecord.words, Config.ringSlots, List.zipIdx_cons, List.zipIdx_nil, List.map_cons, List.map_nil,
    List.mem_cons, List.not_mem_nil, or_false] at hp
  rcases hp with rfl | rfl | rfl | rfl
  · exact ⟨.ring ⟨_, hslot⟩ 0, rfl⟩
  · exact ⟨.ring ⟨_, hslot⟩ 1, rfl⟩
  · exact ⟨.ring ⟨_, hslot⟩ 2, rfl⟩
  · exact ⟨.ring ⟨_, hslot⟩ 3, rfl⟩

theorem portWork_postProducer (s : State) : PortWork s (postProducer s) := portWork_post .ringProducer _ s

theorem portWork_requestRecord (f : FaultRecord) (s : State) : PortWork s (requestRecord f s) := by
  have hposts := portWork_postAll (recordPosts_words s.events.producer f) (raise .faultNew s)
  have hcount (u : State) : PortWork u (postProducer { u with events := { u.events with producer := u.events.producer + 1 } }) := by
    refine PortWork.trans ?_ (portWork_postProducer _)
    exact .of_eq rfl rfl rfl rfl rfl rfl
  unfold requestRecord
  simp only
  split
  · exact (portWork_raise .faultNew s).trans (hposts.trans (hcount _))
  · exact (portWork_raise .faultNew s).trans (portWork_raise .ringFull _)

theorem portWork_reportFault (f : FaultRecord) (s : State) : PortWork s (reportFault f s) :=
  (portWork_requestRecord f s).trans (portWork_requestFaultTone _)

theorem portWork_finishMember (cs : List Conversion) (m : Member) (s : State) : PortWork s (finishMember cs m s) := by
  have hnote : PortWork s (if (s.seg m.seg).discardAfter then noteForgotten m.seg s else s) := .of_still (by split <;> simp)
  unfold finishMember
  simp only
  generalize (if (s.seg m.seg).discardAfter then noteForgotten m.seg s else s) = u at hnote
  refine hnote.trans ?_
  split
  · exact .of_still (setSeg_still _ _ _)
  · exact PortWork.trans (.of_still (setSeg_still _ _ u)) (portWork_foldl (fun s f => portWork_reportFault f s) _ _)

theorem portWork_strokeEnd (cs : List Conversion) (s : State) : PortWork s (strokeEnd cs s) := by
  unfold strokeEnd
  split
  · exact .refl s
  · rename_i d _
    exact (portWork_foldl (fun s m => portWork_finishMember cs m s) d.members s).trans (.of_still (by simp))

theorem portWork_judgeLoading (s : State) : PortWork s (judgeLoading s) := by
  unfold judgeLoading
  split
  case isTrue h => exact ⟨rfl, rfl, rfl, rfl, by simp [h.1], .same⟩
  case isFalse => exact .refl s

theorem portWork_sweepEnd (j : Job) (i : SegNo) (s : State) : PortWork s (sweepEnd j i s) := by
  refine PortWork.trans (.of_still ?_) (portWork_judgeLoading _)
  split <;> simp

/-- The sense image words of a segment are words of the area map (R125). -/
theorem imagePosts_words (i : SegNo) (r : Segment) (cs : List Conversion) :
    ∀ p ∈ imagePosts i r cs, ∃ w : PartWord, p.1 = w.offset := by
  intro p hp
  obtain ⟨k, -, rfl⟩ := List.mem_map.1 hp
  exact ⟨.senseImage (cellOf i k), rfl⟩

theorem portWork_senseUntouched (j : Job) (i : SegNo) (s : State) : PortWork s (senseUntouched j i s) :=
  (portWork_postAll (imagePosts_words i (s.seg i) j.results) s).trans (.of_still (by simp [senseUntouched]))

theorem portWork_senseCompletes (s : State) : PortWork s (senseCompletes s) := by
  unfold senseCompletes
  split
  · exact .refl s
  · split
    · exact .of_eq rfl rfl rfl rfl rfl rfl
    · exact .refl s

theorem portWork_senseEnd (j : Job) (i : SegNo) (s : State) : PortWork s (senseEnd j i s) := by
  refine PortWork.trans ?_ (portWork_senseCompletes _)
  split
  · exact .of_still (senseTouched_still _ _ _)
  · exact portWork_senseUntouched _ _ _

theorem portWork_jobEnd (j : Job) (s : State) : PortWork s (jobEnd j s) := by
  unfold jobEnd
  refine (PortWork.of_still (freeJob_still s)).trans ?_
  simp only
  split
  · exact portWork_strokeEnd _ _
  · split
    · exact .refl _
    · exact portWork_sweepEnd _ _ _
  · split
    · exact .refl _
    · exact portWork_senseEnd _ _ _

theorem portWork_judge (s : State) : PortWork s (judge s) := .of_still (judge_still s)

theorem portWork_conversionEnds (v : BitVec 10) (s : State) : PortWork s (conversionEnds v s) := by
  unfold conversionEnds
  split
  · split
    · exact .refl s
    · split
      · exact .refl s
      · split
        · exact .of_still (setConv_still _ _)
        · refine PortWork.trans (.of_still (setConv_still { s.conv with warmUp := .clear } s)) ?_
          unfold takeValue
          simp only
          split
          · exact (portWork_jobEnd _ _).trans (portWork_judge _)
          · exact .of_still (setConv_still _ _)
  · exact .refl s

/-! ### The other events -/

theorem portWork_servedPart (turn : PartTurn) (s : State) : PortWork s (servedPart turn s) := .of_eq rfl rfl rfl rfl rfl rfl

theorem portWork_abandonedRead (s : State) : PortWork s (abandonedRead s) := by
  unfold abandonedRead
  split
  · exact portWork_servedPart _ s
  · exact .refl s

theorem portWork_captureByte (buf : Buffer) (i : SegNo) (k : Fin 10) (bad : Bool) (s : State) :
    PortWork s (captureByte buf i k bad s) := by
  unfold captureByte
  split
  · exact (PortWork.of_still (putSeg_still _ _ _ s)).trans ((portWork_post .parityDetail _ _).trans (portWork_raise _ _))
  · exact .refl s

theorem portWork_captureTakes (a : Assembly) (c : Capture) (buf : Buffer) (w : Word) (lo hi : Bool) (s : State) :
    PortWork s (captureTakes a c buf w lo hi s) := by
  unfold captureTakes
  simp only
  refine ((portWork_captureByte buf c.seg (readCell c.words.length 0) lo s).trans
    (portWork_captureByte buf c.seg (readCell c.words.length 1) hi _)).trans (.of_still ?_)
  split <;> simp

theorem portWork_captureReadEnds (s : State) : PortWork s (captureReadEnds s) := by
  unfold captureReadEnds
  split
  · exact portWork_abandonedRead s
  · split
    · exact portWork_abandonedRead s
    · split
      · exact portWork_abandonedRead s
      · exact (portWork_servedPart _ s).trans (portWork_captureTakes _ _ _ _ _ _ _)

theorem portWork_setSupply (high : Bool) (s : State) : PortWork s (setSupply high s) := .of_eq rfl rfl rfl rfl rfl rfl

theorem portWork_setGate (g : SupplyGate) (s : State) : PortWork s (setGate g s) := .of_eq rfl rfl rfl rfl rfl rfl

theorem portWork_supplyRises (s : State) : PortWork s (supplyRises s) := by
  unfold supplyRises
  simp only
  split
  · exact (portWork_setSupply _ s).trans (portWork_setGate _ _)
  · exact portWork_setSupply _ s
  · exact portWork_setSupply _ s

theorem portWork_gateLost (s : State) : PortWork s (gateLost s) :=
  have hlost := (portWork_setGate ⟨.closed, .idle⟩ s).trans (portWork_raise .supplyLost _)
  (hlost.trans (.of_still (by simp))).trans ((portWork_requestFaultTone _).trans (portWork_judge _))

theorem portWork_supplyFalls (s : State) : PortWork s (supplyFalls s) := by
  unfold supplyFalls
  simp only
  split
  · exact portWork_setSupply _ s
  · exact (portWork_setSupply _ s).trans ((portWork_setGate _ _).trans (portWork_raise _ _))
  · exact (portWork_setSupply _ s).trans (portWork_gateLost _)

theorem portWork_rearmExpires (s : State) : PortWork s (rearmExpires s) := by
  unfold rearmExpires
  split
  · exact ((portWork_setGate ⟨.opened, .idle⟩ s).trans (portWork_raise .supplyBack _)).trans (.of_still (by simp))
  · exact .refl s

theorem portWork_syncTail (is : List SegNo) (s : State) : PortWork s (syncTail is s) := .of_still (syncTail_still is s)

/-- Of the commands only START and STOP reach the claims. -/
theorem Taken.portWork {cmd : Instr} {s t : State} (h : Taken cmd s t) :
    PortWork s t ∨ s.engine.state = .off ∧ t = closeEvent s (startEffect s) ∨
      s.engine.state ≠ .off ∧ t = closeEvent s (stopEffect s) := by
  have hgive : ∀ {u : State} (code : Byte) (r : ResultCode), PortWork s u → PortWork s (closeEvent s (giveResult code r u)) :=
    fun code r h => (h.trans (portWork_giveResult code r _)).trans (portWork_closeEvent s _)
  cases h with
  | refused code r => exact .inl (portWork_refuse code r s)
  | start h => exact .inr (.inl ⟨h, rfl⟩)
  | stop h => exact .inr (.inr ⟨h, rfl⟩)
  | pause h =>
    have hpaused : PortWork s (clearLag (setEngineState .paused s)) := ⟨rfl, rfl, rfl, rfl, by simp [h], .same⟩
    exact .inl (hgive _ _ (hpaused.trans (portWork_judge _)))
  | resume h =>
    have hrunning : PortWork s (setEngineState .running s) := ⟨rfl, rfl, rfl, rfl, by simp [h], .same⟩
    exact .inl (hgive _ _ (hrunning.trans (portWork_judge _)))
  | showBuffer h named =>
    have hshown : PortWork s (showParts named s) := by
      refine PortWork.trans ?_ (portWork_syncTail _ _)
      exact .of_eq rfl rfl rfl rfl rfl rfl
    exact .inl (((hshown.trans (portWork_judge _)).trans (portWork_giveResult _ _ _)).trans (portWork_closeShow s _))
  | hold h is => exact .inl (hgive _ _ (.of_still (by simp [holdEffect])))
  | release h is => exact .inl (hgive _ _ (.of_still (by simp [releaseEffect])))
  | discard h is => exact .inl (hgive _ _ (.of_still (by simp)))
  | promote h a => exact .inl (hgive _ _ (.of_still (setQueue_still _ s)))
  | sense h hs => exact .inl (hgive _ _ (.of_still (by simp)))
  | clearFaults h is => exact .inl (hgive _ _ (.of_still (by simp [clearEffect])))

end Sys2Proof.Machine

/-! ### The laws of the memory port, the claim words, the claims and the shields -/

namespace Sys2Proof.Machine

/-- Memory canonical and the post list lawful: the law of the memory port within an event. -/
def PortLawful (s : State) : Prop := s.mem.wf = true ∧ PostsLawful s

/-- A touch record's shield follows its accepted level and its hold-off (R131, R135, R136). -/
def ShieldGood (r : TouchLine) : Prop :=
  r.shield = (r.accepted == .present || r.holdOff.runs) ∧ (r.accepted = .present → r.holdOff.runs = false)

/-- A claim's timer and its warned mark belong to a TAKEN line (R144). -/
def ClaimGood (c : Claim) : Prop := (c.timer.isSome = true ↔ c.claim = .taken) ∧ (c.warned = true → c.claim = .taken)

/-- Each of the four laws holds after if it held before; they are brought together because the same things keep them. -/
structure LawsKept (s t : State) : Prop where
  port : PortLawful s → PortLawful t
  words : PortLawful s → ClaimWordsLawful s → ClaimWordsLawful t
  shields : ShieldsLawful s → ShieldsLawful t
  claims : ClaimsLawful s → ClaimsLawful t

theorem LawsKept.refl (s : State) : LawsKept s s := ⟨id, fun _ => id, id, id⟩

theorem LawsKept.trans {s t u : State} (h : LawsKept s t) (k : LawsKept t u) : LawsKept s u :=
  ⟨fun hp => k.port (h.port hp), fun hp hw => k.words (h.port hp) (h.words hp hw), fun hs => k.shields (h.shields hs),
    fun hc => k.claims (h.claims hc)⟩

theorem hasPost_eq_of_mem {s t : State} {off : Nat} (h : ∀ p : Post, p.offset = off → (p ∈ t.bus.posts ↔ p ∈ s.bus.posts)) :
    hasPost t off = hasPost s off := by
  rw [Bool.eq_iff_iff, hasPost_iff, hasPost_iff]
  exact exists_congr fun p => ⟨fun ⟨hp, ho⟩ => ⟨(h p ho).1 hp, ho⟩, fun ⟨hp, ho⟩ => ⟨(h p ho).2 hp, ho⟩⟩

/-- The law of the claim words reads memory, the posts and the claims at the claim words alone. -/
theorem ClaimWordsLawful.congr {s t : State} (h : ClaimWordsLawful s) (hoff : t.engine.state ≠ .off → s.engine.state ≠ .off)
    (hword : ∀ l, t.mem.word (areaBase t + claimOffset l) = s.mem.word (areaBase s + claimOffset l))
    (hposts : ∀ (p : Post) (l : LineNo), p.offset = claimOffset l → (p ∈ t.bus.posts ↔ p ∈ s.bus.posts))
    (hclaim : ∀ l, (t.claim l).claim = (s.claim l).claim) : ClaimWordsLawful t := by
  intro ht l
  obtain ⟨hpending, hheld⟩ := h (hoff ht) l
  rw [hasPost_eq_of_mem fun p hp => hposts p l hp, hword, hclaim]
  exact ⟨fun hp => ⟨(hpending hp).1, fun p hmem hp' => (hpending hp).2 p ((hposts p l hp').1 hmem) hp'⟩, hheld⟩

theorem ShieldsLawful.congr {s t : State} (h : ShieldsLawful s) (ht : t.touch = s.touch) : ShieldsLawful t := by
  simpa [ShieldsLawful, State.touchLine, ht] using h

theorem ClaimsLawful.congr {s t : State} (h : ClaimsLawful s) (ht : t.claims = s.claims)
    (hoff : t.engine.state = .off ↔ s.engine.state = .off) : ClaimsLawful t := by
  simpa [ClaimsLawful, State.claim, ht, hoff] using h

theorem PortLawful.congr {s t : State} (h : PortLawful s) (hm : t.mem = s.mem) (hp : t.bus.posts = s.bus.posts) : PortLawful t :=
  ⟨hm ▸ h.1, h.2.congr hp⟩

/-- What reaches none of the port's words, claims and shields keeps the four laws. -/
theorem PortWork.kept {s t : State} (h : PortWork s t) : LawsKept s t where
  port hs := ⟨h.mem ▸ hs.1, h.posts.nodup hs.2.1, h.posts.postable hs.2.2⟩
  words _ hs := hs.congr (fun ht => fun hoff => ht (h.off.2 hoff)) (fun l => by rw [h.mem, areaBase, h.strap, areaBase])
    (fun _ _ hp => h.posts.mem_claim hp) (fun l => by rw [State.claim, h.claims, State.claim])
  shields hs := hs.congr h.touch
  claims hs := hs.congr h.claims h.off

theorem kept_closeEvent {s u : State} (b : State) (h : LawsKept s u) : LawsKept s (closeEvent b u) :=
  h.trans (portWork_closeEvent b u).kept

/-! ### Claims -/

theorem claimOffset_inj {l k : LineNo} (h : claimOffset l = claimOffset k) : l = k := by
  simp only [claimOffset] at h
  exact Fin.ext (by omega)

/-- A claim record of a TAKEN line is replaced by another: its timer and its marks (R150). -/
theorem kept_setClaim {l : LineNo} {c : Claim} {s : State} (htaken : (s.claim l).claim = .taken) (hc : c.claim = .taken)
    (htimer : c.timer.isSome = true ∨ c.timer = (s.claim l).timer) : LawsKept s (setClaim l c s) where
  port := id
  words _ hs := hs.congr id (fun _ => rfl) (fun _ _ _ => Iff.rfl) fun k => by
    rw [claim_set]
    split
    · rename_i h
      rw [h, htaken, hc]
    · rfl
  shields := id
  claims := by
    rintro ⟨hserve, hfree, hgood⟩
    refine ⟨hserve, fun hs => ?_, fun k => ?_⟩
    · have := hfree hs l
      simp [this, Claim.freed] at htaken
    · rw [claim_set]
      split
      · rcases htimer with h | h
        · simp [h, hc]
        · simpa [h, hc, htaken] using (hgood l).1
      · exact hgood k

/-- An expiry frees the line and posts 0 to its claim word (R145, R151). -/
theorem kept_freed (l : LineNo) (s : State) : LawsKept s (post (claimOffset l) 0 (setClaim l Claim.freed s)) where
  port hs := ⟨hs.1, (PostsLawful.congr (t := setClaim l Claim.freed s) hs.2 rfl).post (postable_claim l) 0⟩
  words _ hs := by
    intro hoff k
    obtain ⟨hpending, hheld⟩ := hs hoff k
    by_cases hk : k = l
    · subst hk
      have hpost : hasPost (post (claimOffset k) 0 (setClaim k Claim.freed s)) (claimOffset k) = true := by
        simp [hasPost_post]
      refine ⟨fun _ => ⟨by simp [Claim.freed], fun p hp ho => ?_⟩, fun h => absurd (hpost.symm.trans h) (by decide)⟩
      rcases mem_postTo.1 hp with ⟨-, hne⟩ | rfl
      · exact absurd ho hne
      · rfl
    · have hne : claimOffset k ≠ claimOffset l := fun h => hk (claimOffset_inj h)
      have hclaim : (post (claimOffset l) 0 (setClaim l Claim.freed s)).claim k = s.claim k := by
        rw [post_claim, claim_set, if_neg hk]
      have hpost : hasPost (post (claimOffset l) 0 (setClaim l Claim.freed s)) (claimOffset k) = hasPost s (claimOffset k) := by
        rw [hasPost_post, beq_false_of_ne hne]
        rfl
      rw [hclaim, hpost]
      refine ⟨fun h => ⟨(hpending h).1, fun p hp ho => (hpending h).2 p ?_ ho⟩, hheld⟩
      exact (post_mem_other (ho ▸ hne) 0 (setClaim l Claim.freed s)).1 hp
  shields := id
  claims := by
    rintro ⟨hserve, hfree, hgood⟩
    refine ⟨hserve, fun hs k => ?_, fun k => ?_⟩
    · rw [post_claim, claim_set]
      split
      · rfl
      · exact hfree hs k
    · rw [post_claim, claim_set]
      split
      · simp [Claim.freed]
      · exact hgood k

theorem kept_claimWarns {l : LineNo} {s : State} (h : (s.claim l).claim = .taken) : LawsKept s (claimWarns l s) :=
  (kept_setClaim (c := { s.claim l with warned := true }) h h (.inr rfl)).trans (portWork_raise _ _).kept

theorem kept_claimPassesWarn {l : LineNo} {s : State} (h : (s.claim l).claim = .taken) : LawsKept s (claimPassesWarn l s) := by
  unfold claimPassesWarn
  split
  · exact .refl s
  · exact kept_claimWarns h

theorem kept_claimExpires (l : LineNo) (s : State) : LawsKept s (claimExpires l s) :=
  (kept_freed l s).trans ((portWork_post .claimDetail _ _).trans (portWork_raise _ _)).kept

theorem kept_claimWarnPoint (l : LineNo) (s : State) : LawsKept s (claimWarnPoint l s) := by
  unfold claimWarnPoint
  simp only
  split
  · rename_i h
    refine (kept_setClaim (c := { s.claim l with timer := some _ }) h.2.1 h.2.1 (.inl rfl)).trans (kept_claimWarns ?_)
    rw [claim_set_self]
    exact h.2.1
  · exact .refl s

theorem kept_claimLimitPoint (l : LineNo) (s : State) : LawsKept s (claimLimitPoint l s) := by
  unfold claimLimitPoint
  split
  · rename_i h
    have htaken : (s.claim l).claim = .taken := by simpa [claimed] using h.2
    exact ((kept_claimPassesWarn htaken).trans (kept_claimExpires l _)).trans (portWork_judge _).kept
  · exact .refl s

theorem kept_judgeClaim (l : LineNo) (s : State) : LawsKept s (judgeClaim l s) := by
  unfold judgeClaim
  simp only
  split
  · exact .refl s
  · split
    · rename_i htaken
      have hwarn : ∀ n : Nat, LawsKept s (if warnCount (claimLimit s.engine.copy) ≤ n then claimPassesWarn l s else s) := by
        intro n
        split
        · exact kept_claimPassesWarn htaken
        · exact .refl s
      split
      · exact (hwarn _).trans (kept_claimExpires l _)
      · exact hwarn _
    · exact .refl s

theorem kept_judgeClaims (s : State) : LawsKept s (judgeClaims s) := by
  unfold judgeClaims
  generalize allLines = ls
  induction ls generalizing s with
  | nil => exact .refl s
  | cons l ls ih => exact (kept_judgeClaim l s).trans (ih _)

/-! ### Touch records -/

/-- A touch record of a running unit is replaced by one whose shield is right (R131). -/
theorem kept_setTouchLine {l : LineNo} {r : TouchLine} {s : State} (hrun : s.touch.running = true)
    (hr : ShieldGood (s.touchLine l) → ShieldGood r) : LawsKept s (setTouchLine l r s) where
  port := id
  words _ hs := hs
  shields hs := by
    have hlines : ∀ k, ShieldGood (s.touchLine k) := by
      rw [ShieldsLawful, if_pos hrun] at hs
      exact hs
    have hset : ∀ k, ShieldGood ((setTouchLine l r s).touchLine k) := by
      intro k
      rw [touchLine_set]
      split
      · exact hr (hlines l)
      · exact hlines k
    rw [ShieldsLawful, if_pos (show (setTouchLine l r s).touch.running = true from hrun)]
    exact hset
  claims := id

theorem kept_acceptLevel {l : LineNo} {high : Bool} {s : State} (hrun : s.touch.running = true)
    (hne : (s.touchLine l).accepted ≠ Level.ofInput high) : LawsKept s (acceptLevel l high s) := by
  unfold acceptLevel
  cases high with
  | true =>
    have hset := kept_setTouchLine (l := l) (r := ⟨.present, Timer.start (guardLength s.engine.copy), .idle, true⟩) hrun
      fun _ => by simp [ShieldGood, Timer.runs]
    simp only [if_true, acceptPresent]
    split
    · exact hset
    · exact hset.trans (PortWork.of_still (by simp)).kept
  | false =>
    simp only [Bool.false_eq_true, if_false, acceptAbsent]
    split
    · exact (kept_setTouchLine hrun fun _ => by simp [ShieldGood, Timer.runs]).trans (portWork_judge _).kept
    · refine kept_setTouchLine hrun fun hgood => ?_
      have hpresent : (s.touchLine l).accepted = .present := by
        cases h : (s.touchLine l).accepted with
        | present => rfl
        | absent => exact absurd h hne
      simp [ShieldGood, Timer.runs, Timer.start, hgood.1, hpresent]

theorem kept_touchChanges (l : LineNo) (high : Bool) (s : State) : LawsKept s (touchChanges l high s) := by
  have hpin : PortWork s (setTouchPin l high s) := .of_eq rfl rfl rfl rfl rfl rfl
  unfold touchChanges
  simp only
  split
  · rename_i h
    exact hpin.kept.trans (kept_acceptLevel h.1 h.2.2)
  · exact hpin.kept

theorem kept_guardExpires (l : LineNo) (s : State) : LawsKept s (guardExpires l s) := by
  unfold guardExpires
  split
  · rename_i h
    split
    · exact kept_setTouchLine h.1 id
    · rename_i hne
      exact kept_acceptLevel h.1 hne
  · exact .refl s

theorem kept_holdOffExpires (l : LineNo) (s : State) : LawsKept s (holdOffExpires l s) := by
  unfold holdOffExpires
  split
  · rename_i h
    refine (kept_setTouchLine h.1 fun hgood => ?_).trans (portWork_judge _).kept
    have habsent : (s.touchLine l).accepted = .absent := by
      cases ha : (s.touchLine l).accepted with
      | absent => rfl
      | present => simp [hgood.2 ha] at h
    simp [ShieldGood, Timer.runs, habsent]
  · exact .refl s

/-- The unit that starts at acceptance has sampled its inputs (R132). -/
theorem kept_touchStarts (s : State) : LawsKept s (touchStarts s) where
  port := id
  words _ hs := hs
  shields _ := by
    unfold ShieldsLawful touchStarts
    cases h : touchEnabled s.engine.copy with
    | true =>
      simp only [if_true]
      intro l
      simp only [State.touchLine, Fin.getElem_fin, Vector.getElem_map, TouchLine.sampled]
      split <;> simp [TouchLine.stopped, Timer.runs]
    | false => simp [TouchUnit.stopped, State.touchLine]
  claims := id

/-! ### The part's own events -/

theorem Happens.kept {cmd : Instr} {s u : State} (h : Happens cmd s u) : LawsKept s u := by
  cases h with
  | captureRead => exact (portWork_captureReadEnds s).kept
  | settle => exact (PortWork.of_still (settleExpires_still s)).kept
  | recharge => exact (PortWork.of_still (rechargeExpires_still s)).kept
  | conversion v => exact (portWork_conversionEnds v s).kept
  | supplyRise => exact (portWork_supplyRises s).kept
  | supplyFall => exact (portWork_supplyFalls s).kept
  | rearm => exact (portWork_rearmExpires s).kept
  | touchInput l high => exact kept_touchChanges l high s
  | guardEnd l => exact kept_guardExpires l s
  | holdOffEnd l => exact kept_holdOffExpires l s
  | claimWarn l => exact kept_claimWarnPoint l s
  | claimLimit l => exact kept_claimLimitPoint l s

/-! ### OFF: the power-on reset, STOP and BADDESC -/

/-- With the engine OFF the claim words are plain memory, and a stopped table and a stopped unit are lawful (R131, R144, R145). -/
theorem LawsKept.stopped {s t : State} (hport : PortLawful s → PortLawful t) (hoff : t.engine.state = .off)
    (hclaims : t.claims = ClaimTable.stopped) (hshields : ShieldsLawful s → ShieldsLawful t) : LawsKept s t where
  port := hport
  words _ _ := fun ht => absurd hoff ht
  shields := hshields
  claims _ := by simp [ClaimsLawful, State.claim, hclaims, hoff, ClaimTable.stopped, Claim.freed]

theorem ShieldsLawful.of_stopped {t : State} (h : t.touch = TouchUnit.stopped) : ShieldsLawful t := by
  simp [ShieldsLawful, State.touchLine, h, TouchUnit.stopped]

theorem kept_poweredOn (strap : BitVec 4) (s : State) : LawsKept s (State.poweredOn s.mem s.pins strap s.pending) :=
  .stopped (fun hs => ⟨hs.1, by simp [PostsLawful, State.poweredOn]⟩) rfl rfl fun _ => .of_stopped rfl

@[simp] theorem abortResults_bus (s : State) : (abortResults s).bus = s.bus := by
  unfold abortResults
  simp only
  split <;> split <;> rfl

@[simp] theorem abortResults_shape (s : State) : (abortResults s).shape = s.shape := by
  unfold abortResults
  simp only
  split <;> split <;> rfl

@[simp] theorem requestSilence_bus (s : State) : (requestSilence s).bus = s.bus := by
  unfold requestSilence
  split <;> rfl

theorem kept_stopEffect (s : State) : LawsKept s (stopEffect s) := by
  have hmem : (abortResults s).mem = s.mem := congrArg Shape.mem (abortResults_shape s)
  refine .stopped (fun hs => hs.congr ?_ ?_) ?_ ?_ fun _ => .of_stopped ?_
  · simp [stopEffect, hmem]
  · simp [stopEffect]
  · simp [stopEffect]
  · simp [stopEffect]
  · simp [stopEffect]

theorem kept_badDescriptor (off : Nat) (s : State) : LawsKept s (badDescriptor off s) :=
  .stopped (fun hs => ⟨hs.1, hs.2.post (postable_word .descriptorDetail) _⟩) rfl rfl fun hs => hs.congr rfl

/-! ### START (R165) -/

/-- Posting zeros to claim words leaves every pending claim word one, and each word posted pending. -/
theorem postAll_zeros {ls : List LineNo} {l : LineNo} {s : State}
    (h : l ∈ ls ∨ hasPost s (claimOffset l) = true ∧ ∀ p ∈ s.bus.posts, p.offset = claimOffset l → p.value = 0) :
    hasPost (postAll (ls.map fun l => (claimOffset l, 0)) s) (claimOffset l) = true ∧
      ∀ p ∈ (postAll (ls.map fun l => (claimOffset l, 0)) s).bus.posts, p.offset = claimOffset l → p.value = 0 := by
  induction ls generalizing s with
  | nil => exact h.resolve_left (by simp)
  | cons k ls ih =>
    refine ih (s := post (claimOffset k) 0 s) ?_
    by_cases hk : l = k
    · subst hk
      refine .inr ⟨by simp [hasPost_post], fun p hp ho => ?_⟩
      rcases mem_postTo.1 hp with ⟨-, hne⟩ | rfl
      · exact absurd ho hne
      · rfl
    · rcases h with h | ⟨hpost, hzero⟩
      · exact .inl ((List.mem_cons.1 h).resolve_left hk)
      · refine .inr ⟨by simp [hasPost_post, hpost], fun p hp ho => hzero p ?_ ho⟩
        exact (post_mem_other (fun e => hk (claimOffset_inj (ho.symm.trans e))) 0 s).1 hp

/-- The blocks that START opens, before it posts anything (R165). -/
def opened (s : State) : State := { s with
  engine := { s.engine with state := .loading, startOut := true, reading := some [], lag := none, lagWarned := false }
  conv := { s.conv with state := .standby, warmUp := .set }
  claims := ⟨true, Vector.replicate 24 Claim.freed⟩ }

theorem startEffect_eq (s : State) : startEffect s = giveResult 1 .accepted (postAll claimZeros (opened s)) := rfl

@[simp] theorem opened_claim (s : State) (l : LineNo) : (opened s).claim l = Claim.freed := by simp [opened, State.claim]

/-- With every claim word posted as 0 and every line FREE the four laws are kept. -/
theorem kept_openedZeros {ls : List LineNo} (hall : ∀ l, l ∈ ls) (s : State) :
    LawsKept s (postAll (ls.map fun l => (claimOffset l, 0)) (opened s)) where
  port hs := by
    refine ⟨by rw [postAll_mem]; exact hs.1, PostsLawful.postAll (PostsLawful.congr (t := opened s) hs.2 rfl) fun p hp => ?_⟩
    obtain ⟨l, -, rfl⟩ := List.mem_map.1 hp
    exact postable_claim l
  words _ _ _ l := by
    obtain ⟨hpost, hzero⟩ := postAll_zeros (s := opened s) (.inl (hall l))
    refine ⟨fun _ => ⟨by rw [postAll_claim, opened_claim]; rfl, hzero⟩, fun h => absurd (hpost.symm.trans h) (by decide)⟩
  shields hs := hs.congr (by rw [postAll_touch]; rfl)
  claims _ := by simp [ClaimsLawful, opened, State.claim, Claim.freed]

theorem kept_startEffect (s : State) : LawsKept s (startEffect s) := by
  rw [startEffect_eq, claimZeros]
  exact (kept_openedZeros List.mem_finRange s).trans (portWork_giveResult _ _ _).kept

end Sys2Proof.Machine

/-! ### Host accesses and the laws (R2, R8, R10, R12, R13) -/

namespace Sys2Proof.Machine

/-- A host write to a byte address, as it stands in memory and at the arbiter (R2, R9). -/
def storeAt (a : Nat) (w : HostWrite) (s : State) : State := servedHost { s with mem := s.mem.storeHost a w }

theorem storeArea_eq (off : Nat) (w : HostWrite) (s : State) : storeArea off w s = storeAt (areaBase s + off) w s := rfl

theorem Memory.word_storeHost_other {m : Memory} (h : m.wf = true) (a c : Nat) (w : HostWrite) (hc : c + 1 < a ∨ a + 1 < c) :
    (m.storeHost a w).word c = m.word c := by
  have : c ≠ a ∧ c ≠ a + 1 ∧ c + 1 ≠ a ∧ c + 1 ≠ a + 1 := by omega
  simp [Memory.word, Memory.byte_storeHost h, this]

theorem areaBase_even (s : State) : areaBase s % 2 = 0 := by
  rw [areaBase, Config.areaBytes]
  omega

theorem claimOffset_even (l : LineNo) : claimOffset l % 2 = 0 := by
  rw [claimOffset]
  omega

/-- Two even addresses that differ are of words that lie apart. -/
theorem apart_of_even {a c : Nat} (ha : a % 2 = 0) (hc : c % 2 = 0) (h : a ≠ c) : c + 1 < a ∨ a + 1 < c := by omega

theorem claimAddr_even (s : State) (l : LineNo) : (areaBase s + claimOffset l) % 2 = 0 := by
  have := areaBase_even s
  have := claimOffset_even l
  omega

/-- The words of two lines lie apart. -/
theorem claimAddr_apart (s : State) {l k : LineNo} (h : k ≠ l) :
    areaBase s + claimOffset k + 1 < areaBase s + claimOffset l ∨ areaBase s + claimOffset l + 1 < areaBase s + claimOffset k :=
  apart_of_even (claimAddr_even s l) (claimAddr_even s k) fun e => h (claimOffset_inj (by omega))

/-- A host write of a word that is no claim word reaches none of what the four laws speak of. -/
theorem kept_storeAt {a : Nat} {w : HostWrite} {s : State} (heven : a % 2 = 0) (ha : ∀ l, a ≠ areaBase s + claimOffset l) :
    LawsKept s (storeAt a w s) where
  port hs := ⟨Memory.wf_storeHost hs.1 a w, hs.2.congr rfl⟩
  words hp hs := hs.congr id
    (fun l => Memory.word_storeHost_other hp.1 _ _ w
      (apart_of_even heven (claimAddr_even s l) (ha l)))
    (fun _ _ _ => Iff.rfl) fun _ => rfl
  shields := id
  claims := id

/-! ### Turns of the post list (R12, R13) -/

/-- What the law of the claim words says of a post list, of memory and of the claims (R145). -/
def ClaimWordsHold (base : Nat) (claim : LineNo → ClaimState) (ps : List Post) (m : Memory) : Prop :=
  ∀ l, ((∃ p ∈ ps, p.offset = claimOffset l) → claim l = .free ∧ ∀ p ∈ ps, p.offset = claimOffset l → p.value = 0) ∧
    ((∀ p ∈ ps, p.offset ≠ claimOffset l) → m.word (base + claimOffset l) = if claim l = .taken then 1 else 0)

theorem claimWordsLawful_iff (s : State) : ClaimWordsLawful s ↔
    (s.engine.state ≠ .off → ClaimWordsHold (areaBase s) (fun l => (s.claim l).claim) s.bus.posts s.mem) := by
  refine forall_congr' fun _ => forall_congr' fun l => ?_
  rw [← Bool.not_eq_true, hasPost_iff]
  simp

/-- The head entry written: a claim word's entry was a 0 for a FREE line, and memory holds it now. -/
theorem ClaimWordsHold.written {base : Nat} {claim : LineNo → ClaimState} {p : Post} {ps : List Post} {m : Memory}
    (h : ClaimWordsHold base claim (p :: ps) m) (hm : m.wf = true) (hbase : base % 2 = 0) (hp : Postable p.offset) :
    ClaimWordsHold base claim ps (writePost base p m) := by
  intro l
  obtain ⟨hpending, hheld⟩ := h l
  by_cases hl : p.offset = claimOffset l
  · obtain ⟨hfree, hzero⟩ := hpending ⟨p, by simp, hl⟩
    refine ⟨fun _ => ⟨hfree, fun q hq => hzero q (by simp [hq])⟩, fun _ => ?_⟩
    rw [writePost, hl, Memory.word_storeWord hm, hzero p (by simp) hl, hfree]
    rfl
  · refine ⟨fun ⟨q, hq, ho⟩ => ?_, fun hnone => ?_⟩
    · obtain ⟨hfree, hzero⟩ := hpending ⟨q, by simp [hq], ho⟩
      exact ⟨hfree, fun q hq => hzero q (by simp [hq])⟩
    · have hapart := apart_of_even (a := base + p.offset) (c := base + claimOffset l)
        (by have := hp.even; omega) (by have := claimOffset_even l; omega) (by omega)
      rw [writePost, Memory.word_storeWord_other hm _ _ _ hapart]
      exact hheld (by simpa [hl] using hnone)

theorem ClaimWordsHold.drained {base off : Nat} {claim : LineNo → ClaimState} {ps : List Post} {m : Memory}
    (h : ClaimWordsHold base claim ps m) (hm : m.wf = true) (hbase : base % 2 = 0) (hp : ∀ p ∈ ps, Postable p.offset) :
    ClaimWordsHold base claim (drainTo base off ps m).1 (drainTo base off ps m).2 := by
  induction ps generalizing m with
  | nil => exact h
  | cons p ps ih =>
    have hw := h.written hm hbase (hp p (by simp))
    unfold drainTo
    split
    · exact hw
    · exact ih hw (wf_writePost hm base p) fun q hq => hp q (by simp [hq])

theorem kept_waitForPost (off : Nat) (s : State) : LawsKept s (waitForPost off s) where
  port hs := ⟨wf_waitForPost off hs.1, hs.2.wait off⟩
  words hp hs := by
    unfold waitForPost
    split
    · rw [claimWordsLawful_iff] at hs ⊢
      exact fun hoff => (hs hoff).drained hp.1 (areaBase_even s) hp.2.2
    · exact hs
  shields hs := hs.congr (waitForPost_touch off s)
  claims hs := hs.congr (waitForPost_claims off s) (by rw [waitForPost_engine])

theorem kept_drainHead (s : State) : LawsKept s (drainHead s) where
  port hs := ⟨wf_drainHead hs.1, hs.2.drainHead⟩
  words hp hs := by
    unfold drainHead
    split
    · exact hs
    · rename_i p ps hposts
      rw [claimWordsLawful_iff] at hs ⊢
      intro hoff
      have := hs hoff
      rw [hposts] at this
      exact this.written hp.1 (areaBase_even s) (hp.2.2 p (by simp [hposts]))
  shields hs := hs.congr (drainHead_touch s)
  claims hs := hs.congr (drainHead_claims s) (by rw [drainHead_engine])

/-- The offset of a word that the claim table does not own. -/
def NoClaimWord (off : Nat) : Prop := off % 2 = 0 ∧ ∀ l, off ≠ claimOffset l

theorem kept_storeArea {off : Nat} (h : NoClaimWord off) (w : HostWrite) (s : State) : LawsKept s (storeArea off w s) :=
  kept_storeAt (by have := areaBase_even s; have := h.1; omega) fun l => by have := h.2 l; omega

theorem kept_forwardArea {off : Nat} (h : NoClaimWord off) (w : HostWrite) (s : State) : LawsKept s (forwardArea off w s) :=
  (kept_waitForPost off s).trans (kept_storeArea h w _)

theorem noClaimWord_hostWord {off : Nat}
    (h : off = commandOffset ∨ off = argumentOffset ∨ off = eventEnableOffset ∨ off = ringConsumerOffset) : NoClaimWord off := by
  rcases h with rfl | rfl | rfl | rfl <;>
    exact ⟨rfl, fun l => by simp only [commandOffset, argumentOffset, eventEnableOffset, ringConsumerOffset, claimOffset]; omega⟩

theorem noClaimWord_page (buf : Buffer) (word : Fin 480) : NoClaimWord (buf.offset + 2 * word.val) := by
  cases buf <;> exact ⟨by simp only [Buffer.offset]; omega, fun l => by simp only [Buffer.offset, claimOffset]; omega⟩

theorem kept_command (w : HostWrite) (s : State) : LawsKept s (forwardArea commandOffset w s) :=
  kept_forwardArea (noClaimWord_hostWord (.inl rfl)) w s

theorem placeOf_claim (l : LineNo) : placeOf (claimOffset l) = .claim l := by
  revert l
  decide

/-- A host write of plain memory is of an even address that is no claim word's (R1). -/
theorem kept_forwardAddr {addr : BitVec 22} {w : HostWrite} {s : State} (h : placeOfAddr s (hostAddr addr) = .plain) :
    LawsKept s (forwardAddr (hostAddr addr) w s) := by
  have heven : hostAddr addr % 2 = 0 := by rw [hostAddr]; omega
  have hbase := areaBase_even s
  unfold placeOfAddr at h
  unfold forwardAddr
  split at h
  · rename_i harea
    rw [if_pos harea]
    refine kept_forwardArea ⟨by omega, fun l ho => ?_⟩ w s
    rw [ho, placeOf_claim] at h
    cases h
  · rename_i harea
    rw [if_neg harea]
    refine kept_storeAt heven fun l ho => harea ⟨by omega, ?_⟩
    rw [ho, claimOffset, Config.areaBytes]
    omega

/-! ### Host reads and takes (R10, R146) -/

theorem portWork_readAt (a : Nat) (lo hi : Bool) (s : State) : PortWork s (readAt a lo hi s) := .of_eq rfl rfl rfl rfl rfl rfl

theorem kept_readArea (off : Nat) (lo hi : Bool) (s : State) : LawsKept s (readArea off lo hi s) :=
  (kept_waitForPost off s).trans (portWork_readAt _ lo hi _).kept

theorem kept_readAddr (a : Nat) (lo hi : Bool) (s : State) : LawsKept s (readAddr a lo hi s) := by
  unfold readAddr
  split
  · exact kept_readArea _ lo hi s
  · exact (portWork_readAt _ lo hi s).kept

/-- A take of a FREE line whose word has no pending post: the claim and the word change in one access (R10). -/
theorem kept_take {l : LineNo} {s : State} (hoff : s.engine.state ≠ .off) (hnone : hasPost s (claimOffset l) = false) :
    LawsKept s (writeWord (claimOffset l) 1 (setClaim l ⟨.taken, some 0, false⟩ s)) where
  port hs := ⟨Memory.wf_storeWord hs.1 _ _, hs.2.congr rfl⟩
  words hp hs := by
    intro _ k
    by_cases hk : k = l
    · subst hk
      refine ⟨fun h => absurd (hnone.symm.trans h) (by decide), fun _ => ?_⟩
      rw [writeWord_claim, claim_set_self, if_pos rfl]
      exact Memory.word_storeWord hp.1 _ _
    · have hapart := claimAddr_apart s hk
      rw [writeWord_claim, claim_set, if_neg hk]
      refine ⟨(hs hoff k).1, fun h => ?_⟩
      exact (Memory.word_storeWord_other hp.1 _ _ _ hapart).trans ((hs hoff k).2 h)
  shields := id
  claims := by
    rintro ⟨hserve, hfree, hgood⟩
    refine ⟨hserve, fun hs => absurd (hserve.2 hoff) (by simpa using hs), fun k => ?_⟩
    rw [writeWord_claim, claim_set]
    split
    · simp
    · exact hgood k

/-- A take needs the law of the post list, by which the read has left no post of the word. -/
theorem LawsKept.of_port {s t : State} (hport : PortLawful s → PortLawful t) (hshields : ShieldsLawful s → ShieldsLawful t)
    (hclaims : ClaimsLawful s → ClaimsLawful t) (h : PortLawful s → LawsKept s t) : LawsKept s t :=
  ⟨hport, fun hp => (h hp).words hp, hshields, hclaims⟩

theorem ClaimsLawful.take {l : LineNo} {s : State} (h : ClaimsLawful s) (hoff : s.engine.state ≠ .off) :
    ClaimsLawful (writeWord (claimOffset l) 1 (setClaim l ⟨.taken, some 0, false⟩ s)) := by
  obtain ⟨hserve, -, hgood⟩ := h
  refine ⟨hserve, fun hs => absurd (hserve.2 hoff) (by simpa using hs), fun k => ?_⟩
  rw [writeWord_claim, claim_set]
  split
  · simp
  · exact hgood k

theorem kept_claimRead (l : LineNo) (lo hi : Bool) (s : State) : LawsKept s (claimRead l lo hi s) := by
  have hread := kept_readArea (claimOffset l) lo hi s
  unfold claimRead
  simp only
  split
  · rename_i h
    have hoff : (readArea (claimOffset l) lo hi s).engine.state ≠ .off := by simpa [isOff] using h.1
    refine .of_port (fun hs => ⟨Memory.wf_storeWord (hread.port hs).1 _ _, (hread.port hs).2.congr rfl⟩)
      (fun hs => hread.shields hs) (fun hs => (hread.claims hs).take hoff) fun hs => ?_
    exact hread.trans (kept_take hoff (hasPost_readArea hs.2 _ lo hi))
  · exact hread

/-! ### Writes of claim words (R8, R147) -/

theorem allZero_iff (w : HostWrite) : w.allZero = true ↔
    (w.enLow = true → lowByte w.data = 0) ∧ (w.enHigh = true → highByte w.data = 0) := by
  rw [HostWrite.allZero, Bool.and_eq_true]
  cases w.enLow <;> cases w.enHigh <;> simp

theorem word_eq_iff (v : Word) (lo hi : Byte) : v = wordOf lo hi ↔ lowByte v = lo ∧ highByte v = hi := by
  constructor
  · rintro rfl
    simp
  · rintro ⟨rfl, rfl⟩
    exact (wordOf_parts v).symm

/-- The value of a claim word at rest (R145). -/
def claimValue (c : ClaimState) : Word := if c = .taken then 1 else 0

theorem claimValue_eq (c : ClaimState) : claimValue c = wordOf (if c = .taken then 1 else 0) 0 := by
  cases c <;> decide

theorem Memory.word_eq_claimValue_iff {m : Memory} {a : Nat} {c : ClaimState} :
    m.word a = claimValue c ↔ m.byte a = (if c = .taken then 1 else 0) ∧ m.byte (a + 1) = 0 := by
  rw [claimValue_eq, word_eq_iff, Memory.word, lowByte_wordOf, highByte_wordOf]

/-- Zeros written to a claim word leave it as a word of its line, which is FREE from then on where the low byte is written. -/
theorem Memory.word_storeHost_zeros {m : Memory} (hm : m.wf = true) {a : Nat} {w : HostWrite} (hw : w.allZero = true) {c : ClaimState}
    (h : m.word a = claimValue c) : (m.storeHost a w).word a = claimValue (if w.enLow then .free else c) := by
  obtain ⟨hlow, hhigh⟩ := (allZero_iff w).1 hw
  rw [Memory.word_eq_claimValue_iff] at h ⊢
  rw [Memory.byte_storeHost hm, Memory.byte_storeHost hm]
  cases hl : w.enLow <;> cases hh : w.enHigh <;> simp_all

/-- A write of zeros to a claim word and, where it writes the low byte of a TAKEN line's, the release (R147). -/
def zeroed (l : LineNo) (w : HostWrite) (s : State) : State :=
  let s := forwardArea (claimOffset l) w s
  if w.enLow ∧ claimed s l then setClaim l Claim.freed s else s

theorem zeroed_claim (l k : LineNo) (w : HostWrite) (s : State) :
    ((zeroed l w s).claim k).claim = if k = l ∧ w.enLow = true then .free else (s.claim k).claim := by
  unfold zeroed
  simp only [claimed, forwardArea_claim]
  cases hl : w.enLow with
  | false => simp
  | true =>
    cases hc : (s.claim l).claim with
    | free =>
      by_cases hk : k = l
      · simp [hk, hc]
      · simp [hk]
    | taken =>
      by_cases hk : k = l
      · simp [hk, Claim.freed]
      · simp [hk, claim_set]

theorem zeroed_frame (l : LineNo) (w : HostWrite) (s : State) : (zeroed l w s).mem = (forwardArea (claimOffset l) w s).mem ∧
    (zeroed l w s).bus = (forwardArea (claimOffset l) w s).bus ∧ (zeroed l w s).engine = s.engine ∧
    (zeroed l w s).touch = s.touch := by
  unfold zeroed
  simp only
  split <;> simp

theorem kept_zeroed {l : LineNo} {w : HostWrite} {s : State} (hoff : s.engine.state ≠ .off) (hw : w.allZero = true) :
    LawsKept s (zeroed l w s) := by
  obtain ⟨hmem, hbus, hengine, htouch⟩ := zeroed_frame l w s
  have hbase : areaBase (zeroed l w s) = areaBase s := by rw [areaBase, hbus, areaBase]; simp
  refine ⟨fun hs => ?port, fun hp hs => ?words, fun hs => hs.congr htouch, ?claims⟩
  case port =>
    exact ⟨hmem ▸ wf_forwardArea _ w hs.1, (hs.2.forwardArea (claimOffset l) w).congr (congrArg BusPass.posts hbus)⟩
  case words =>
    intro _ k
    have hwait := (kept_waitForPost (claimOffset l) s).words hp hs
    have hwf := wf_waitForPost (claimOffset l) hp.1
    have hcl (k : LineNo) : (waitForPost (claimOffset l) s).claim k = s.claim k := waitForPost_claim _ _ _
    obtain ⟨hpending, hheld⟩ := hwait (by rwa [waitForPost_engine]) k
    have hpost : hasPost (zeroed l w s) (claimOffset k) = hasPost (waitForPost (claimOffset l) s) (claimOffset k) := by
      rw [hasPost, hbus]
      rfl
    have hposts : (zeroed l w s).bus.posts = (waitForPost (claimOffset l) s).bus.posts := by
      rw [hbus]
      rfl
    rw [hcl] at hpending hheld
    rw [hpost, hposts, hmem, hbase, zeroed_claim]
    by_cases hk : k = l
    · subst hk
      have hnone := hasPost_wait hp.2 (claimOffset k)
      refine ⟨fun h => absurd (hnone.symm.trans h) (by decide), fun h => ?_⟩
      have := Memory.word_storeHost_zeros hwf hw (hheld h)
      rw [waitForPost_areaBase] at this
      simpa [forwardArea, storeArea, claimValue] using this
    · have hapart := claimAddr_apart s hk
      rw [if_neg (fun h => hk h.1)]
      refine ⟨hpending, fun h => ?_⟩
      have hstay := Memory.word_storeHost_other hwf _ _ w hapart
      have := hheld h
      rw [waitForPost_areaBase] at this
      rw [← this, ← hstay]
      simp [forwardArea, storeArea]
  case claims =>
    rintro ⟨hserve, hfree, hgood⟩
    have hkeep : ClaimsLawful (forwardArea (claimOffset l) w s) :=
      ClaimsLawful.congr ⟨hserve, hfree, hgood⟩ (forwardArea_claims _ _ _) (by rw [forwardArea_engine])
    unfold zeroed
    simp only
    split
    · exact ((kept_freed l _).claims hkeep).congr rfl Iff.rfl
    · exact hkeep

theorem kept_claimWrite (l : LineNo) (w : HostWrite) (s : State) : LawsKept s (claimWrite l w s) := by
  unfold claimWrite
  split
  · rename_i hoff
    have hoff : s.engine.state = .off := by simpa [isOff] using hoff
    refine ⟨fun hs => ⟨wf_forwardArea _ w hs.1, hs.2.forwardArea _ w⟩, fun _ _ h => absurd hoff (by simpa using h),
      fun hs => hs.congr (forwardArea_touch _ _ _), fun hs => hs.congr (forwardArea_claims _ _ _) (by rw [forwardArea_engine])⟩
  · rename_i hoff
    have hoff : s.engine.state ≠ .off := by simpa [isOff] using hoff
    split
    · rename_i hw
      have hz := kept_zeroed (l := l) hoff hw
      unfold zeroed at hz
      simp only at hz ⊢
      unfold releaseClaim
      cases hl : w.enLow with
      | false => simpa [hl] using hz
      | true =>
        split at hz
        · rename_i hc
          rw [if_pos rfl, if_pos hc.2]
          exact kept_closeEvent _ (hz.trans (portWork_judge _).kept)
        · rename_i hc
          rw [if_pos rfl, if_neg (fun h => hc ⟨hl, h⟩)]
          exact hz
    · exact (portWork_dropWrite _ s).kept

/-! ### Words with an event of their own -/

theorem kept_ownedWrite (p : PartWord) (w : HostWrite) (s : State) : LawsKept s (ownedWrite p.offset w s) := by
  have hword : NoClaimWord p.offset := ⟨(postable_word p).even.1, offset_ne_claimOffset p⟩
  unfold ownedWrite
  split
  · rcases offWrite_or p.offset w s with h | ⟨-, -, h⟩ <;> rw [h]
    · exact kept_forwardArea hword w s
    · exact kept_storeArea hword w s
  · exact (portWork_dropWrite _ s).kept

theorem portWork_reportParity (buf : Buffer) (cell : Fin 960) (bad : Bool) (s : State) : PortWork s (reportParity buf cell bad s) := by
  unfold reportParity
  split
  · exact (portWork_post .parityDetail _ s).trans (portWork_raise _ _)
  · exact .refl s

theorem portWork_takeReport (buf : Buffer) (cell : Fin 960) (bad : Bool) (s : State) : PortWork s (takeReport buf cell bad s) := by
  refine .of_still ?_
  unfold takeReport
  simp only
  split <;> simp

theorem portWork_cellByte (buf : Buffer) (cell : Fin 960) (bad : Bool) (s : State) : PortWork s (cellByte buf cell bad s) :=
  ((portWork_reportParity buf cell bad s).trans (portWork_takeReport _ _ _ _)).trans (portWork_closeEvent _ _)

theorem kept_pageWrite (buf : Buffer) (word : Fin 480) (w : HostWrite) (s : State) : LawsKept s (pageWrite buf word w s) := by
  refine (kept_forwardArea (noClaimWord_page buf word) w s).trans ?_
  unfold pageWrite
  simp only
  split
  · exact .refl _
  · have hbyte : ∀ (en : Bool) (h : Fin 2) (bad : Bool) (u : State),
        LawsKept u (if en then cellByte buf (wordCell word h) bad u else u) := by
      intro en h bad u
      split
      · exact (portWork_cellByte _ _ _ u).kept
      · exact .refl u
    exact (hbyte _ 0 _ _).trans (hbyte _ 1 _ _)

theorem portWork_offerConsumer (v : BitVec 8) (s : State) : PortWork s (offerConsumer v s) := by
  unfold offerConsumer
  split
  · exact .of_eq rfl rfl rfl rfl rfl rfl
  · exact portWork_raise _ s

theorem kept_ringConsumerWrite (w : HostWrite) (s : State) : LawsKept s (ringConsumerWrite w s) := by
  refine (kept_forwardArea (noClaimWord_hostWord (.inr (.inr (.inr rfl)))) w s).trans ?_
  unfold ringConsumerWrite
  simp only
  split
  · exact ((portWork_offerConsumer _ _).trans (portWork_postPending _)).kept
  · exact .refl _

theorem portWork_argument (v : Word) (s : State) : PortWork s { s with bus := { s.bus with argument := v } } :=
  .of_eq rfl rfl rfl rfl rfl rfl

theorem portWork_enable (v : Word) (s : State) : PortWork s { s with bus := { s.bus with enable := v } } :=
  .of_eq rfl rfl rfl rfl rfl rfl

theorem Taken.kept {cmd : Instr} {s t : State} (h : Taken cmd s t) : LawsKept s t := by
  rcases h.portWork with h | ⟨-, rfl⟩ | ⟨-, rfl⟩
  · exact h.kept
  · exact kept_closeEvent s (kept_startEffect s)
  · exact kept_closeEvent s (kept_stopEffect s)

/-! ### The descriptor (R166 to R168) -/

/-- The records that acceptance sets before it judges anything (R168). -/
def acceptRecords (d : Descriptor) (s : State) : State := { s with
  engine := { s.engine with copy := d, shown := initialShow d, showPending := true, reading := none }
  segs := s.segs.map Segment.initialised
  events := { s.events with producer := 0, consumer := 0 } }

theorem acceptParts_eq (d : Descriptor) (s : State) :
    acceptParts d s = judgeClaims (touchStarts (syncTail allSegs (acceptRecords d s))) := rfl

theorem portWork_acceptRecords (d : Descriptor) (s : State) : PortWork s (acceptRecords d s) := .of_eq rfl rfl rfl rfl rfl rfl

theorem kept_acceptDescriptor (d : Descriptor) (s : State) : LawsKept s (acceptDescriptor d s) := by
  refine LawsKept.trans ?_ ((portWork_judgeLoading _).trans (portWork_judge _)).kept
  rw [acceptParts_eq]
  exact (((portWork_acceptRecords d s).trans (portWork_syncTail _ _)).kept.trans (kept_touchStarts _)).trans (kept_judgeClaims _)

theorem portWork_postStatus (s : State) : PortWork s (postStatus s) := portWork_post .engineStatus _ s

theorem portWork_closeAcceptance (b s : State) : PortWork s (closeAcceptance b s) := by
  have hposts := (portWork_judgeSettled false b s).trans ((portWork_postMirrors allSegs _).trans (portWork_postProducer _))
  unfold closeAcceptance
  simp only
  generalize postProducer (postMirrors allSegs (judgeSettled false b s)) = u at hposts
  refine (hposts.trans ((portWork_post .eventPending (pendingWord u) u).trans (portWork_postStatus _))).trans ?_
  split
  · exact .of_eq rfl rfl rfl rfl rfl rfl
  · exact (portWork_postResults _).trans (portWork_postPending _)

theorem portWork_reading (ws : List Word) (s : State) : PortWork s { s with engine := { s.engine with reading := some ws } } :=
  .of_eq rfl rfl rfl rfl rfl rfl

theorem kept_descriptorReadEnds (s : State) : LawsKept s (descriptorReadEnds s) := by
  unfold descriptorReadEnds
  split
  · refine (portWork_servedPart .read s).kept.trans ?_
    unfold descriptorTakes
    split
    · exact (portWork_reading _ _).kept
    · unfold judgeDescriptor
      split
      · exact kept_closeEvent _ (kept_badDescriptor _ _)
      · exact (kept_acceptDescriptor _ _).trans (portWork_closeAcceptance _ _).kept
  · exact (portWork_abandonedRead s).kept

/-! ### Every event and every millisecond -/

theorem portWork_lagWarns (s : State) : PortWork s (lagWarns s) := by
  unfold lagWarns
  split
  · exact .refl s
  · split
    · exact .of_eq rfl rfl rfl rfl rfl rfl
    · exact .refl s

theorem portWork_lagLimits (s : State) : PortWork s (lagLimits s) := by
  unfold lagLimits
  split
  · exact .refl s
  · split
    · exact (portWork_lagWarns s).trans (.of_eq rfl rfl rfl rfl rfl rfl)
    · exact .refl s

theorem portWork_setChime (c : Chime) (s : State) : PortWork s (setChime c s) := .of_eq rfl rfl rfl rfl rfl rfl

theorem portWork_periodEnds (s : State) : PortWork s (periodEnds s) := by
  unfold periodEnds
  split
  · exact .refl s
  · split
    · exact .refl s
    · exact portWork_setChime _ s
    · exact portWork_setChime _ s

theorem portWork_durationExpires (s : State) : PortWork s (durationExpires s) := by
  unfold durationExpires
  split
  · simp only
    split
    · exact (portWork_setChime _ s).trans (portWork_periodEnds _)
    · exact portWork_setChime _ s
  · exact .refl s

theorem portWork_setEvents (w : HostWrite) (s : State) : PortWork s (eventSetWrite w s) :=
  have h : PortWork s (setEvents w s) := .of_eq rfl rfl rfl rfl rfl rfl
  h.trans (portWork_postPending _)

theorem portWork_clearEvents (w : HostWrite) (s : State) : PortWork s (eventClearWrite w s) :=
  have h : PortWork s (clearEvents w s) := .of_eq rfl rfl rfl rfl rfl rfl
  h.trans (portWork_postPending _)

theorem Meaning.kept {cmd : Instr} {s t : State} (h : Meaning cmd s t) : LawsKept s t := by
  cases h with
  | reset strap => exact kept_poweredOn strap s
  | forward addr w h => exact kept_forwardAddr h
  | read a lo hi => exact kept_readAddr a lo hi s
  | page buf word w => exact kept_pageWrite buf word w s
  | owned p w => exact kept_ownedWrite p w s
  | eventSet w => exact (portWork_setEvents w s).kept
  | eventClear w => exact (portWork_clearEvents w s).kept
  | argument w =>
    exact (kept_forwardArea (noClaimWord_hostWord (.inr (.inl rfl))) w s).trans (portWork_argument _ _).kept
  | enable w =>
    exact (kept_forwardArea (noClaimWord_hostWord (.inr (.inr (.inl rfl)))) w s).trans (portWork_enable _ _).kept
  | ringConsumer w => exact kept_ringConsumerWrite w s
  | claimRead l lo hi => exact kept_claimRead l lo hi s
  | claimWrite l w => exact kept_claimWrite l w s
  | commandWord w => exact kept_command w s
  | command w t h => exact (kept_command w s).trans h.kept
  | drain => exact kept_drainHead s
  | descriptorRead => exact kept_descriptorReadEnds s
  | driveExpiry => exact ((PortWork.of_still (driveExpires_still s)).trans (portWork_closePosts s _)).kept
  | event u h => exact kept_closeEvent s h.kept
  | lagWarn => exact ((portWork_lagWarns s).trans (portWork_postPending _)).kept
  | lagLimit => exact ((portWork_lagLimits s).trans (portWork_postPending _)).kept
  | duration => exact (portWork_durationExpires s).kept
  | period => exact (portWork_periodEnds s).kept

@[simp] theorem Timer.runs_tick (t : Timer) : t.tick.runs = t.runs := by cases t <;> rfl

theorem tick_touchLine (s : State) (l : LineNo) : (tick s).touchLine l = (s.touchLine l).tick := by
  simp [tick, State.touchLine]

theorem tick_claim (s : State) (l : LineNo) : (tick s).claim l = (s.claim l).tick := by simp [tick, State.claim]

/-- Counting changes no level, no shield, and no claim, and starts and stops no timer. -/
theorem kept_tick (s : State) : LawsKept s (tick s) where
  port := id
  words _ hs := hs.congr id (fun _ => rfl) (fun _ _ _ => Iff.rfl) fun l => by rw [tick_claim]; rfl
  shields hs := by
    unfold ShieldsLawful at hs ⊢
    simp only [tick_touchLine]
    split at hs
    · rename_i hrun
      rw [if_pos (show (tick s).touch.running = true from hrun)]
      simpa [TouchLine.tick] using hs
    · rename_i hrun
      rw [if_neg (show ¬(tick s).touch.running = true from hrun)]
      intro l
      rw [hs l]
      rfl
  claims := by
    rintro ⟨hserve, hfree, hgood⟩
    refine ⟨hserve, fun hs l => ?_, fun l => ?_⟩
    · rw [tick_claim, hfree hs l]
      rfl
    · rw [tick_claim]
      simpa [Claim.tick] using hgood l

end Sys2Proof.Machine

/-! ### What every step keeps of the port, the claims and the shields -/

namespace Sys2Proof.Machine

theorem waitForPost_of_owed {s : State} (h : OwesNothing s) (off : Nat) : OwesNothing (waitForPost off s) := by
  rw [OwesNothing, waitForPost_owed]
  exact h

theorem forwardArea_of_owed {s : State} (h : OwesNothing s) (off : Nat) (w : HostWrite) : OwesNothing (forwardArea off w s) :=
  waitForPost_of_owed h off

/-- An event that owes the event pending word alone owes nothing once it is posted. -/
theorem postPending_owesNothing {s : State} (hm : s.owed.mirrors = []) (hr : s.owed.results = []) : OwesNothing (postPending s) := by
  rw [OwesNothing, postPending_owed, hm, hr]
  rfl

theorem Taken.owesNothing {cmd : Instr} {s t : State} (hs : OwesNothing s) (h : Taken cmd s t) : OwesNothing t := by
  cases h with
  | refused code r => exact refuse_owed code r (by rw [hs]; rfl)
  | showBuffer => exact closeShow_owed _ _
  | start => exact closeEvent_owed _ _
  | stop => exact closeEvent_owed _ _
  | pause => exact closeEvent_owed _ _
  | resume => exact closeEvent_owed _ _
  | hold => exact closeEvent_owed _ _
  | release => exact closeEvent_owed _ _
  | discard => exact closeEvent_owed _ _
  | promote => exact closeEvent_owed _ _
  | sense => exact closeEvent_owed _ _
  | clearFaults => exact closeEvent_owed _ _

theorem closeAcceptance_owed (b s : State) : OwesNothing (closeAcceptance b s) := by
  unfold closeAcceptance
  simp only
  split
  · rename_i h
    have hr : (postMirrors allSegs (judgeSettled false b s)).owed.results = [] := by simpa using h
    rw [postMirrors_owed] at hr
    simp only [OwesNothing, Owed.nothing, postStatus_owed, post_owed, postProducer_owed, postMirrors_owed]
    rw [show (judgeSettled false b s).owed.results = [] from hr]
  · simp [OwesNothing, Owed.nothing, postPending_owed, postResults_owed, postMirrors_owed]

theorem descriptorReadEnds_owed {s : State} (hs : OwesNothing s) : OwesNothing (descriptorReadEnds s) := by
  unfold descriptorReadEnds
  split
  · unfold descriptorTakes
    split
    · exact hs
    · unfold judgeDescriptor
      split
      · exact closeEvent_owed _ _
      · exact closeAcceptance_owed _ _
  · unfold abandonedRead
    split <;> exact hs

theorem pageWrite_owed {s : State} (hs : OwesNothing s) (buf : Buffer) (word : Fin 480) (w : HostWrite) :
    OwesNothing (pageWrite buf word w s) := by
  have hbyte : ∀ (en : Bool) (h : Fin 2) (bad : Bool) (u : State), OwesNothing u →
      OwesNothing (if en then cellByte buf (wordCell word h) bad u else u) := by
    intro en h bad u hu
    split
    · exact closeEvent_owed _ _
    · exact hu
  have hstored := forwardArea_of_owed hs (buf.offset + 2 * word.val) w
  unfold pageWrite
  simp only
  split
  · exact hstored
  · exact hbyte _ 1 _ _ (hbyte _ 0 _ _ hstored)

theorem claimWrite_owed {s : State} (hs : OwesNothing s) (l : LineNo) (w : HostWrite) : OwesNothing (claimWrite l w s) := by
  have hstored := forwardArea_of_owed hs (claimOffset l) w
  unfold claimWrite
  split
  · exact hstored
  · split
    · simp only
      split
      · unfold releaseClaim
        split
        · exact closeEvent_owed _ _
        · exact hstored
      · exact hstored
    · rw [OwesNothing, dropWrite_owed hs]
      exact hs

theorem ownedWrite_owed {s : State} (hs : OwesNothing s) (off : Nat) (w : HostWrite) : OwesNothing (ownedWrite off w s) := by
  unfold ownedWrite
  split
  · rcases offWrite_or off w s with h | ⟨-, -, h⟩ <;> rw [h]
    · exact forwardArea_of_owed hs off w
    · exact hs
  · rw [OwesNothing, dropWrite_owed hs]
    exact hs

theorem ringConsumerWrite_owed {s : State} (hs : OwesNothing s) (w : HostWrite) : OwesNothing (ringConsumerWrite w s) := by
  have hstored := forwardArea_of_owed hs ringConsumerOffset w
  unfold ringConsumerWrite
  simp only
  split
  · unfold offerConsumer
    split <;> exact postPending_owesNothing (congrArg Owed.mirrors hstored) (congrArg Owed.results hstored)
  · exact hstored

theorem lagWarns_owed {s : State} (hs : OwesNothing s) : (lagWarns s).owed.mirrors = [] ∧ (lagWarns s).owed.results = [] := by
  have h : s.owed.mirrors = [] ∧ s.owed.results = [] := ⟨congrArg Owed.mirrors hs, congrArg Owed.results hs⟩
  unfold lagWarns
  split
  · exact h
  · split <;> exact h

theorem lagLimits_owed {s : State} (hs : OwesNothing s) : (lagLimits s).owed.mirrors = [] ∧ (lagLimits s).owed.results = [] := by
  unfold lagLimits
  split
  · exact ⟨congrArg Owed.mirrors hs, congrArg Owed.results hs⟩
  · split
    · exact lagWarns_owed hs
    · exact ⟨congrArg Owed.mirrors hs, congrArg Owed.results hs⟩

@[simp] theorem periodEnds_owed (s : State) : (periodEnds s).owed = s.owed := by
  unfold periodEnds
  split
  · rfl
  · split <;> rfl

@[simp] theorem durationExpires_owed (s : State) : (durationExpires s).owed = s.owed := by
  unfold durationExpires
  split
  · simp only
    split <;> simp
  · rfl

@[simp] theorem readArea_owed (off : Nat) (lo hi : Bool) (s : State) : (readArea off lo hi s).owed = s.owed := by
  simp [readArea]

/-- Every event ends with nothing owed (log 10). -/
theorem Meaning.owesNothing {cmd : Instr} {s t : State} (hs : OwesNothing s) (h : Meaning cmd s t) : OwesNothing t := by
  have hm : s.owed.mirrors = [] := congrArg Owed.mirrors hs
  have hr : s.owed.results = [] := congrArg Owed.results hs
  cases h with
  | reset strap => rfl
  | forward addr w h =>
    unfold forwardAddr
    split
    · exact forwardArea_of_owed hs _ w
    · exact hs
  | read a lo hi =>
    unfold readAddr
    split
    · exact (readArea_owed _ lo hi s).trans hs
    · exact hs
  | page buf word w => exact pageWrite_owed hs buf word w
  | owned p w => exact ownedWrite_owed hs _ w
  | eventSet w => exact postPending_owesNothing hm hr
  | eventClear w => exact postPending_owesNothing hm hr
  | argument w => exact forwardArea_of_owed hs argumentOffset w
  | enable w => exact forwardArea_of_owed hs eventEnableOffset w
  | ringConsumer w => exact ringConsumerWrite_owed hs w
  | claimRead l lo hi =>
    unfold Machine.claimRead
    simp only
    split <;> exact (readArea_owed _ lo hi s).trans hs
  | claimWrite l w => exact claimWrite_owed hs l w
  | commandWord w => exact forwardArea_of_owed hs commandOffset w
  | command w t h => exact h.owesNothing (forwardArea_of_owed hs commandOffset w)
  | drain => exact (drainHead_owed s).trans hs
  | descriptorRead => exact descriptorReadEnds_owed hs
  | driveExpiry => exact closePosts_owed _ _
  | event u h => exact closeEvent_owed _ _
  | lagWarn => exact postPending_owesNothing (lagWarns_owed hs).1 (lagWarns_owed hs).2
  | lagLimit => exact postPending_owesNothing (lagLimits_owed hs).1 (lagLimits_owed hs).2
  | duration => exact (durationExpires_owed s).trans hs
  | period => exact (periodEnds_owed s).trans hs

theorem BusLawful.port {s : State} (h : BusLawful s) : PortLawful s := ⟨h.1, h.2.1⟩

theorem BusLawful.meaning {cmd : Instr} {s t : State} (h : BusLawful s) (hm : Meaning cmd s t) : BusLawful t := by
  obtain ⟨hwf, hposts⟩ := hm.kept.port h.port
  exact ⟨hwf, hposts, hm.owesNothing h.2.2⟩

/-- Settles O5: every meaning keeps memory canonical and the post list lawful, and the posts that end an event leave nothing owed. -/
theorem busLawKept : Obligations.BusLawKept := by
  unfold Obligations.BusLawKept
  intro s t hs
  exact step_keeps (P := BusLawful) (fun _ _ h => h) (fun _ h => h) (fun _ _ _ h hm => h.meaning hm) hs

/-- Settles O6: a shield changes with its level and its hold-off alone, and a claim with its timer. -/
theorem shieldAndClaimLawsKept : Obligations.ShieldAndClaimLawsKept := by
  unfold Obligations.ShieldAndClaimLawsKept
  refine ⟨fun s t hs => ?shields, fun s t hs => ?claims⟩
  case shields =>
    exact step_keeps (P := ShieldsLawful) (fun _ _ h => h) (fun u h => (kept_tick u).shields h) (fun _ _ _ h hm => hm.kept.shields h) hs
  case claims =>
    exact step_keeps (P := ClaimsLawful) (fun _ _ h => h) (fun u h => (kept_tick u).claims h) (fun _ _ _ h hm => hm.kept.claims h) hs

/-- Settles O7: a claim word changes in memory with its claim, and a pending one is the 0 of a line that an expiry or START has freed. -/
theorem claimWordLawKept : Obligations.ClaimWordLawKept := by
  unfold Obligations.ClaimWordLawKept
  intro s t hbus hwords h
  have hkeep := step_keeps (P := fun s => BusLawful s ∧ ClaimWordsLawful s) (fun _ _ h => h)
    (fun u h => ⟨h.1, (kept_tick u).words h.1.port h.2⟩)
    (fun _ _ _ h hm => ⟨h.1.meaning hm, hm.kept.words h.1.port h.2⟩) ⟨hbus, hwords⟩ h
  exact hkeep.2

end Sys2Proof.Machine

/-! ### What work keeps of every segment record -/

namespace Sys2Proof.Machine

/-- Every segment's record after is related to its record before. -/
def SegRel (R : Segment → Segment → Prop) (s t : State) : Prop := ∀ i, R (s.seg i) (t.seg i)

theorem SegRel.of_segs {R : Segment → Segment → Prop} (hR : ∀ r, R r r) {s t : State} (h : t.segs = s.segs) : SegRel R s t := by
  intro i
  rw [State.seg, State.seg, h]
  exact hR _

theorem SegRel.setSeg {R : Segment → Segment → Prop} (hR : ∀ r, R r r) {i : SegNo} {r : Segment} {s : State}
    (h : R (s.seg i) r) : SegRel R s (setSeg i r s) := by
  intro k
  rw [seg_setSeg]
  split
  · rename_i hk
    exact hk ▸ h
  · exact hR _

theorem SegRel.trans {R : Segment → Segment → Prop} (hR : ∀ r u v, R r u → R u v → R r v) {s t u : State} (h : SegRel R s t)
    (k : SegRel R t u) : SegRel R s u := fun i => hR _ _ _ (h i) (k i)

theorem SegRel.foldl {R : Segment → Segment → Prop} (hrefl : ∀ r, R r r) (htrans : ∀ r u v, R r u → R u v → R r v) {α : Type}
    {f : State → α → State} (h : ∀ s x, SegRel R s (f s x)) (l : List α) (s : State) : SegRel R s (l.foldl f s) := by
  induction l generalizing s with
  | nil => exact .of_segs hrefl rfl
  | cons x l ih => exact .trans htrans (h s x) (ih _)

/-! ### Walks, drives and grants keep the marks -/

theorem marksKept_refl (r : Segment) : MarksKept r r := ⟨rfl, rfl, rfl, rfl, rfl, rfl, rfl⟩

theorem marksKept_trans (r u v : Segment) (h : MarksKept r u) (k : MarksKept u v) : MarksKept r v := by
  obtain ⟨h1, h2, h3, h4, h5, h6, h7⟩ := h
  obtain ⟨k1, k2, k3, k4, k5, k6, k7⟩ := k
  exact ⟨k1.trans h1, k2.trans h2, k3.trans h3, k4.trans h4, k5.trans h5, k6.trans h6, k7.trans h7⟩

theorem marksKept_state (r : Segment) (st : SegState) : MarksKept r { r with state := st } := marksKept_refl r

theorem marksKept_captured (r : Segment) (st : SegState) (dirty : Bool) (target : Option PinSet) :
    MarksKept r { r with state := st, dirty := dirty, target := target } := marksKept_refl r

/-- The marks, the lists and the shadow of every record are kept. -/
abbrev AllMarksKept (s t : State) : Prop := SegRel MarksKept s t

theorem AllMarksKept.refl (s : State) : AllMarksKept s s := fun _ => marksKept_refl _

theorem AllMarksKept.trans {s t u : State} (h : AllMarksKept s t) (k : AllMarksKept t u) : AllMarksKept s u :=
  SegRel.trans marksKept_trans h k

theorem AllMarksKept.of_segs {s t : State} (h : t.segs = s.segs) : AllMarksKept s t := SegRel.of_segs marksKept_refl h

theorem allMarksKept_setSeg {i : SegNo} {r : Segment} {s : State} (h : MarksKept (s.seg i) r) : AllMarksKept s (setSeg i r s) :=
  SegRel.setSeg marksKept_refl h

theorem allMarksKept_putSeg {e : QueueEnd} {i : SegNo} {r : Segment} {s : State} (h : MarksKept (s.seg i) r) :
    AllMarksKept s (putSeg e i r s) :=
  (allMarksKept_setSeg h).trans (.of_segs (sync_segs e i _))

theorem AllMarksKept.oweMirror {s t : State} (h : AllMarksKept s t) (i : SegNo) : AllMarksKept s (oweMirror i t) := h

theorem AllMarksKept.grant {s t : State} (h : AllMarksKept s t) (j : Job) : AllMarksKept s (grant j t) := h

theorem allMarksKept_setStates (st : SegState) (is : List SegNo) (s : State) : AllMarksKept s (setStates st is s) :=
  SegRel.foldl marksKept_refl marksKept_trans (f := fun s i => setSeg i { s.seg i with state := st } s)
    (fun _ _ => allMarksKept_setSeg (marksKept_state _ _)) is s

theorem allMarksKept_captureStart (i : SegNo) (s : State) : AllMarksKept s (captureStart i s) := by
  have hput (u : State) : AllMarksKept u (oweMirror i (putSeg .tail i { u.seg i with state := .capturing, dirty := false } u)) :=
    AllMarksKept.oweMirror (allMarksKept_putSeg (marksKept_captured _ _ _ _)) i
  unfold captureStart
  simp only
  split
  · exact hput s
  · exact AllMarksKept.trans (.of_segs rfl) (hput (setAsm _ s))

/-- Capture end gives a record its target and its state alone (R67 to R72). -/
theorem captureOutcome_marks (a : Assembly) (c : Capture) (d : Descriptor) (r : Segment) :
    (captureOutcome a c d r).1 =
      { r with target := (captureOutcome a c d r).1.target, state := (captureOutcome a c d r).1.state } := by
  unfold captureOutcome
  split
  · rfl
  · simp only
    split
    · rfl
    · split
      · rfl
      · split <;> rfl

theorem captureMovedOn_marks (c : Capture) (d : Descriptor) (r : Segment) :
    captureMovedOn c d r = { r with target := (captureMovedOn c d r).target } := by
  unfold captureMovedOn
  split
  · rfl
  · split <;> rfl

theorem allMarksKept_captureStore (s : State) : AllMarksKept s (captureStore s) := by
  unfold captureStore
  split
  · exact .refl s
  · split
    · exact .refl s
    · split
      · refine AllMarksKept.trans (t := setAsm _ s) (.of_segs rfl) (.trans (allMarksKept_setSeg ?_) (.of_segs rfl))
        rw [captureOutcome_marks]
        exact marksKept_captured _ _ _ _
      · refine AllMarksKept.trans (t := setAsm _ s) (.of_segs rfl) (allMarksKept_setSeg ?_)
        rw [captureMovedOn_marks]
        exact marksKept_captured _ _ _ _

theorem walkEnd_segs (a : Assembly) (s : State) : (walkEnd a s).segs = s.segs := by
  unfold walkEnd
  split <;> rfl

theorem allMarksKept_walkFromMark (s : State) : AllMarksKept s (walkFromMark s) :=
  walkOn_induct (AllMarksKept s) (fun _ _ _ h => h.trans (.of_segs (walkEnd_segs _ _))) (fun _ _ _ _ _ _ h => h.trans (.of_segs rfl))
    (fun u _ i rest _ _ _ h => h.trans (allMarksKept_captureStart i (setQueue (u.queue.passMark i rest) u)))
    (fun u _ i rest _ _ _ _ h =>
      (h.trans (allMarksKept_captureStart i (setQueue (u.queue.passMark i rest) u))).trans
        ((allMarksKept_captureStore _).trans (.of_segs (sync_segs _ _ _)))) _ s (.refl s)

theorem allMarksKept_startWalk (s : State) : AllMarksKept s (startWalk s) :=
  AllMarksKept.trans (t := setAsm (some Assembly.started) (setQueue s.queue.startWalk s)) (.of_segs rfl)
    (allMarksKept_walkFromMark _)

theorem allMarksKept_driveStart (s : State) : AllMarksKept s (driveStart s) := by
  unfold driveStart
  split
  · exact .refl s
  · rename_i a _
    have hout : AllMarksKept s (syncHead ((a.members.filter (dropped s)).map Member.seg)
        (setStates .stale ((a.members.filter (dropped s)).map Member.seg) (setAsm none s))) :=
      (AllMarksKept.of_segs rfl).trans ((allMarksKept_setStates _ _ (setAsm none s)).trans (.of_segs (syncHead_segs _ _)))
    simp only
    split
    · exact hout
    · exact hout.trans ((allMarksKept_setStates _ _ _).trans (.of_segs (syncTail_segs _ _)))

theorem allMarksKept_startSweep (i : SegNo) (s : State) : AllMarksKept s (startSweep i s) :=
  AllMarksKept.grant (AllMarksKept.oweMirror (allMarksKept_putSeg (marksKept_state _ _)) i) _

theorem allMarksKept_startSense (i : SegNo) (s : State) : AllMarksKept s (startSense i s) := by
  unfold startSense
  simp only
  split
  · exact .of_segs rfl
  · exact AllMarksKept.grant (AllMarksKept.oweMirror (allMarksKept_putSeg (marksKept_state _ _)) i) _

theorem allMarksKept_judge (s : State) : AllMarksKept s (judge s) :=
  judge_induct (AllMarksKept s) (fun u _ h => h.trans (allMarksKept_driveStart u)) (fun u _ h => h.trans (allMarksKept_startWalk u))
    (fun u i _ _ _ h => h.trans (allMarksKept_startSweep i u)) (fun u i _ _ h => h.trans (allMarksKept_startSense i u)) s (.refl s)

theorem keptCleanIf_marks (yields : Bool) (r : Segment) : r.keptCleanIf yields = { r with state := (r.keptCleanIf yields).state } := by
  rcases r.keptCleanIf_or yields with h | ⟨-, -, -, h⟩ <;> rw [h]

theorem allMarksKept_captureEnd (i : SegNo) (s : State) : AllMarksKept s (captureEnd i s) := by
  have hkeep : AllMarksKept s (keepClean i (captureStore s)) := by
    refine (allMarksKept_captureStore s).trans (allMarksKept_setSeg ?_)
    rw [keptCleanIf_marks]
    exact marksKept_state _ _
  unfold captureEnd
  simp only
  split
  · exact (hkeep.trans ((allMarksKept_walkFromMark _).trans (allMarksKept_judge _))).trans (.of_segs (sync_segs _ _ _))
  · exact (hkeep.trans (.of_segs (sync_segs _ _ _))).trans ((allMarksKept_walkFromMark _).trans (allMarksKept_judge _))

end Sys2Proof.Machine

/-! ### The fault lists (R37, R117, R118, R182) -/

namespace Sys2Proof.Machine

/-- A fault list of four pins at most stays one. -/
def FaultsFit (r u : Segment) : Prop := r.faults.length ≤ 4 → u.faults.length ≤ 4

theorem faultsFit_refl (r : Segment) : FaultsFit r r := id

theorem faultsFit_trans (r u v : Segment) (h : FaultsFit r u) (k : FaultsFit u v) : FaultsFit r v := fun hr => k (h hr)

theorem faultsFit_of_eq {r u : Segment} (h : u.faults = r.faults) : FaultsFit r u := fun hr => h ▸ hr

theorem Segment.faults_ended (r : Segment) (st : SegState) : (r.ended st).faults = r.faults := by
  unfold Segment.ended
  split <;> rfl

/-- A sixth pin is not given up: a fifth fault retires the segment (R118). -/
theorem faultsFit_judgePin (m : Member) (shown : Shown) (j : Judged) (c : Conversion) : FaultsFit j.record (judgePin m shown j c).record := by
  unfold judgePin
  simp only
  split
  · exact faultsFit_of_eq rfl
  · split
    · exact faultsFit_of_eq rfl
    · split
      · exact faultsFit_of_eq rfl
      · exact faultsFit_of_eq rfl
      · split
        · rename_i h
          intro _
          simp only [Config.maxFaults] at h
          simpa using h
        · exact faultsFit_of_eq rfl

theorem faultsFit_judgePins (m : Member) (shown : Shown) (r : Segment) (cs : List Conversion) :
    FaultsFit r (judgePins m shown r cs).record := by
  unfold judgePins
  suffices h : ∀ j : Judged, FaultsFit j.record (cs.foldl (judgePin m shown) j).record from h ⟨r, []⟩
  induction cs with
  | nil => exact fun j => faultsFit_refl _
  | cons c cs ih => exact fun j => faultsFit_trans _ _ _ (faultsFit_judgePin m shown j c) (ih _)

theorem faultsFit_finishUntouched (r : Segment) : FaultsFit r (finishUntouched r) := by
  unfold finishUntouched
  split
  · split <;> exact faultsFit_of_eq rfl
  · exact faultsFit_of_eq (Segment.faults_ended _ _)

/-- Every fault list fits after if it fitted before. -/
abbrev AllFaultsFit (s t : State) : Prop := SegRel FaultsFit s t

theorem AllFaultsFit.trans {s t u : State} (h : AllFaultsFit s t) (k : AllFaultsFit t u) : AllFaultsFit s u :=
  SegRel.trans faultsFit_trans h k

theorem AllFaultsFit.of_segs {s t : State} (h : t.segs = s.segs) : AllFaultsFit s t := SegRel.of_segs faultsFit_refl h

theorem AllMarksKept.faults {s t : State} (h : AllMarksKept s t) : AllFaultsFit s t := fun i => by
  obtain ⟨-, -, -, -, -, hfaults, -⟩ := h i
  exact faultsFit_of_eq hfaults

theorem allFaultsFit_setSeg {i : SegNo} {r : Segment} {s : State} (h : FaultsFit (s.seg i) r) : AllFaultsFit s (setSeg i r s) :=
  SegRel.setSeg faultsFit_refl h

theorem allFaultsFit_putSeg {e : QueueEnd} {i : SegNo} {r : Segment} {s : State} (h : FaultsFit (s.seg i) r) :
    AllFaultsFit s (putSeg e i r s) :=
  (allFaultsFit_setSeg h).trans (.of_segs (sync_segs e i _))

theorem allFaultsFit_foldl {α : Type} {f : State → α → State} (h : ∀ s x, AllFaultsFit s (f s x)) (l : List α) (s : State) :
    AllFaultsFit s (l.foldl f s) :=
  SegRel.foldl faultsFit_refl faultsFit_trans h l s

theorem allFaultsFit_mapSegs {f : Segment → Segment} (h : ∀ r, FaultsFit r (f r)) (is : List SegNo) (s : State) :
    AllFaultsFit s (mapSegs f is s) :=
  allFaultsFit_foldl (f := fun s i => setSeg i (f (s.seg i)) s) (fun _ _ => allFaultsFit_setSeg (h _)) is s

theorem noteForgotten_segs (i : SegNo) (s : State) : (noteForgotten i s).segs = s.segs := by
  unfold noteForgotten
  split
  · rfl
  · split
    · rfl
    · split <;> rfl

theorem noteIfDiscarded_segs (i : SegNo) (s : State) : (noteIfDiscarded i s).segs = s.segs := by
  unfold noteIfDiscarded
  split
  · exact noteForgotten_segs i s
  · rfl

@[simp] theorem noteForgotten_seg (i k : SegNo) (s : State) : (noteForgotten i s).seg k = s.seg k := by
  rw [State.seg, noteForgotten_segs]
  rfl

@[simp] theorem noteIfDiscarded_seg (i k : SegNo) (s : State) : (noteIfDiscarded i s).seg k = s.seg k := by
  rw [State.seg, noteIfDiscarded_segs]
  rfl

theorem requestRecord_segs (f : FaultRecord) (s : State) : (requestRecord f s).segs = s.segs := by
  unfold requestRecord
  simp only
  split <;> simp

theorem reportFault_segs (f : FaultRecord) (s : State) : (reportFault f s).segs = s.segs := by
  rw [reportFault, requestFaultTone_segs, requestRecord_segs]

theorem reportFaults_segs (asks : List FaultRecord) (s : State) : (asks.foldl (fun s f => reportFault f s) s).segs = s.segs :=
  foldl_keeps State.segs (fun s f => reportFault_segs f s) asks s

theorem allFaultsFit_finishMember (cs : List Conversion) (m : Member) (s : State) : AllFaultsFit s (finishMember cs m s) := by
  have hnote : (if (s.seg m.seg).discardAfter then noteForgotten m.seg s else s).segs = s.segs := by
    split
    · exact noteForgotten_segs _ s
    · rfl
  unfold finishMember
  simp only
  generalize (if (s.seg m.seg).discardAfter then noteForgotten m.seg s else s) = u at hnote
  have hseg : u.seg m.seg = s.seg m.seg := by rw [State.seg, hnote]; rfl
  refine AllFaultsFit.trans (t := u) (.of_segs hnote) ?_
  split
  · refine allFaultsFit_setSeg (faultsFit_of_eq ?_)
    rw [finishTouched, Segment.faults_ended, hseg]
    rfl
  · refine (allFaultsFit_setSeg ?_).trans (.of_segs (reportFaults_segs _ _))
    rw [hseg]
    exact faultsFit_trans _ _ _ (faultsFit_judgePins _ _ _ _) (faultsFit_finishUntouched _)

theorem allFaultsFit_strokeEnd (cs : List Conversion) (s : State) : AllFaultsFit s (strokeEnd cs s) := by
  unfold strokeEnd
  split
  · exact .of_segs rfl
  · rename_i d _
    exact (allFaultsFit_foldl (fun s m => allFaultsFit_finishMember cs m s) d.members s).trans (.of_segs (by simp))

theorem judgeLoading_segs (s : State) : (judgeLoading s).segs = s.segs := by
  unfold judgeLoading
  split <;> rfl

theorem allFaultsFit_sweepEnd (j : Job) (i : SegNo) (s : State) : AllFaultsFit s (sweepEnd j i s) := by
  refine AllFaultsFit.trans ?_ (.of_segs (judgeLoading_segs _))
  have hnote : AllFaultsFit s (noteIfDiscarded i s) := .of_segs (noteIfDiscarded_segs i s)
  split
  · refine (hnote.trans (allFaultsFit_putSeg (faultsFit_of_eq ?_))).trans (.of_segs rfl)
    rw [Segment.faults_ended, noteIfDiscarded_seg]
  · refine (hnote.trans (allFaultsFit_putSeg (faultsFit_of_eq ?_))).trans (.of_segs rfl)
    rw [Segment.faults_ended, noteIfDiscarded_seg]
    rfl

theorem senseCompletes_segs (s : State) : (senseCompletes s).segs = s.segs := by
  unfold senseCompletes
  split
  · rfl
  · split <;> rfl

theorem senseUntouchedRecord_faults (before : SegState) (r : Segment) : (senseUntouchedRecord before r).faults = r.faults := by
  unfold senseUntouchedRecord
  split
  · rfl
  · exact Segment.faults_ended _ _

theorem senseTouchedRecord_faults (before : SegState) (r : Segment) : (senseTouchedRecord before r).faults = r.faults := by
  unfold senseTouchedRecord
  split
  · rfl
  · exact Segment.faults_ended _ _

theorem allFaultsFit_senseEnd (j : Job) (i : SegNo) (s : State) : AllFaultsFit s (senseEnd j i s) := by
  refine AllFaultsFit.trans ?_ (.of_segs (senseCompletes_segs _))
  split
  · refine AllFaultsFit.trans (.of_segs (noteIfDiscarded_segs i s)) ((allFaultsFit_putSeg (faultsFit_of_eq ?_)).trans (.of_segs rfl))
    rw [senseTouchedRecord_faults, noteIfDiscarded_seg]
  · have hposts : AllFaultsFit s (noteIfDiscarded i (markDone i (postAll (imagePosts i (s.seg i) j.results) s))) :=
      .of_segs (by rw [noteIfDiscarded_segs, markDone_segs, postAll_segs])
    refine hposts.trans (allFaultsFit_putSeg (faultsFit_of_eq ?_))
    rw [senseUntouchedRecord_faults, noteIfDiscarded_seg, markDone_seg, postAll_seg]
    rfl

theorem allFaultsFit_jobEnd (j : Job) (s : State) : AllFaultsFit s (jobEnd j s) := by
  refine AllFaultsFit.trans (t := freeJob s) (.of_segs rfl) ?_
  unfold jobEnd
  simp only
  split
  · exact allFaultsFit_strokeEnd _ _
  · split
    · exact .of_segs rfl
    · exact allFaultsFit_sweepEnd _ _ _
  · split
    · exact .of_segs rfl
    · exact allFaultsFit_senseEnd _ _ _

end Sys2Proof.Machine

/-! ### Every event as a course of acts on the work -/

namespace Sys2Proof.Machine

/-- The part of the state that the laws of the work speak of is the same: the records, the queue, the Assembler's record, the driven
stroke, the converter, and of the engine the shown buffer and whether the queue runs, and the ring counts. -/
structure SameWork (s t : State) : Prop where
  segs : t.segs = s.segs
  queue : t.queue = s.queue
  asm : t.asm = s.asm
  driven : t.stroke.driven = s.stroke.driven
  conv : t.conv = s.conv
  runs : queuesRun t.engine = queuesRun s.engine
  shown : t.engine.shown = s.engine.shown
  ring : t.events.producer = s.events.producer ∧ t.events.consumer = s.events.consumer

theorem SameWork.refl (s : State) : SameWork s s := ⟨rfl, rfl, rfl, rfl, rfl, rfl, rfl, ⟨rfl, rfl⟩⟩

theorem SameWork.trans {s t u : State} (h : SameWork s t) (k : SameWork t u) : SameWork s u :=
  ⟨k.segs.trans h.segs, k.queue.trans h.queue, k.asm.trans h.asm, k.driven.trans h.driven, k.conv.trans h.conv,
    k.runs.trans h.runs, k.shown.trans h.shown, k.ring.1.trans h.ring.1, k.ring.2.trans h.ring.2⟩

theorem SameWork.seg {s t : State} (h : SameWork s t) (i : SegNo) : t.seg i = s.seg i := by rw [State.seg, h.segs]; rfl

theorem queuesRun_congr {e f : Engine} (hs : f.state = e.state) (hr : f.reading = e.reading) : queuesRun f = queuesRun e := by
  rw [queuesRun, hs, hr]
  rfl

theorem SameWork.of_firm {s t : State} (h : t.firm = s.firm) : SameWork s t :=
  ⟨congrArg Firm.segs h, congrArg Firm.queue h, congrArg Firm.asm h, congrArg (fun f => f.stroke.driven) h, congrArg Firm.conv h,
    queuesRun_congr (congrArg Firm.engineState h) (congrArg Firm.reading h), congrArg Firm.shown h,
    congrArg Firm.producer h, congrArg Firm.consumer h⟩

theorem SameWork.of_shape {s t : State} (h : t.shape = s.shape) : SameWork s t := .of_firm (firm_of_shape h)

theorem sameWork_closeEvent (b s : State) : SameWork s (closeEvent b s) := .of_firm (closeEvent_firm b s)

theorem sameWork_closeShow (b s : State) : SameWork s (closeShow b s) := .of_firm (closeShow_firm b s)

theorem sameWork_closePosts (b s : State) : SameWork s (closePosts b s) := .of_shape (closePosts_shape b s)

theorem sameWork_refuse (code : Byte) (r : ResultCode) (s : State) : SameWork s (refuse code r s) := .of_shape (refuse_shape code r s)

theorem sameWork_dropWrite (off : Nat) (s : State) : SameWork s (dropWrite off s) := .of_shape (dropWrite_shape off s)

theorem sameWork_forwardArea (off : Nat) (w : HostWrite) (s : State) : SameWork s (forwardArea off w s) :=
  ⟨by simp, by simp, by simp, by simp, by simp, by simp, by simp, by simp⟩

theorem sameWork_readArea (off : Nat) (lo hi : Bool) (s : State) : SameWork s (readArea off lo hi s) :=
  ⟨by simp [readArea], by simp [readArea], by simp [readArea], by simp [readArea], by simp [readArea], by simp [readArea],
    by simp [readArea], by simp [readArea]⟩

variable {cmd : Instr}

/-- The acts by which an event changes the work: each with what holds where it happens. -/
inductive Act (cmd : Instr) (s : State) : State → Prop
  | same {t : State} (h : SameWork s t) : Act cmd s t
  | judged : Act cmd s (judge s)
  | written (buf : Buffer) (k : Fin 10) (bad : Bool) (i : SegNo) (h : queuesRun s.engine = true) :
      Act cmd s (putSeg .tail i ((s.seg i).cellWrite s.engine.shown buf k bad) s)
  | marked (buf : Buffer) (k : Fin 10) {a : Assembly} {c : Capture} (ha : s.asm = some a) (hc : a.capture = some c) :
      Act cmd s (putSeg .tail c.seg ((s.seg c.seg).mark buf k true) s)
  | read {a : Assembly} {c : Capture} (ha : s.asm = some a) (hc : a.capture = some c) (d : Capture) (hd : d.seg = c.seg)
      (hf : d.forgotten = c.forgotten) : Act cmd s (setAsm (some { a with capture := some d }) s)
  | captureEnds (hcmd : cmd = .captureReadEnd) {a : Assembly} {c : Capture} (ha : s.asm = some a) (hc : a.capture = some c) : Act cmd s (captureEnd c.seg s)
  | settleExpires : Act cmd s (settleExpires s)
  | driveExpires : Act cmd s (driveExpires s)
  | value {j : Job} (hj : s.conv.job = some j) (hs : s.conv.state = .converting) (c : Converter) (g : Job) (hc : c.state = .converting)
      (hsense : c.sense = s.conv.sense) (hg : c.job = some g) (hk : g.kind = j.kind) (hsegs : g.segs = j.segs)
      (hb : g.before = j.before) (ht : g.touched = j.touched) : Act cmd s (setConv c s)
  | jobEnds (hcmd : ∃ v, cmd = .conversionEnd v) {j : Job} (hj : s.conv.job = some j) (hs : s.conv.state = .converting) (g : Job) (hk : g.kind = j.kind)
      (hsegs : g.segs = j.segs) (hb : g.before = j.before) (ht : g.touched = j.touched) : Act cmd s (jobEnd g s)
  | abortDrive : Act cmd s (abortDrive s)
  | touchStroke (l : LineNo) : Act cmd s (touchStroke l s)
  | touchJob (l : LineNo) : Act cmd s (touchJob l s)
  | opened (h : s.engine.state = .off) : Act cmd s (opened s)
  | stopped (h : s.engine.state ≠ .off) : Act cmd s (stopEffect s)
  | shown (h : Active s) (named : Shown) : Act cmd s (showParts named s)
  | held (h : Active s) (b : Bool) (is : List SegNo) : Act cmd s (syncTail is (mapSegs (fun r => { r with held := b }) is s))
  | cleared (h : Active s) (is : List SegNo) : Act cmd s (syncTail is (mapSegs Segment.cleared is s))
  | discarded (h : Active s) (is : List SegNo) : Act cmd s (discardEffect is s)
  | promoted (hcmd : Reorders cmd) (h : Active s) (a : Word) : Act cmd s (setQueue (s.queue.promote (argRange a)) s)
  | sensed (h : Active s) (hs : s.conv.sense = none) (r : SenseRecord) : Act cmd s (setConv { s.conv with sense := some r } s)
  | refusedDescriptor (h : queuesRun s.engine = false) (off : Nat) : Act cmd s (badDescriptor off s)
  | accepted (h : queuesRun s.engine = false) (hl : s.engine.state = .loading) (d : Descriptor) :
      Act cmd s (syncTail allSegs (acceptRecords d s))
  | loaded : Act cmd s (judgeLoading s)
  | offered (v : BitVec 8) : Act cmd s (offerConsumer v s)
  | reset (strap : BitVec 4) : Act cmd s (State.poweredOn s.mem s.pins strap s.pending)

/-- A course of acts, one after another. -/
inductive Course (cmd : Instr) (s : State) : State → Prop
  | start : Course cmd s s
  | act {t u : State} (h : Course cmd s t) (k : Act cmd t u) : Course cmd s u

theorem Course.trans {s t u : State} (h : Course cmd s t) (k : Course cmd t u) : Course cmd s u := by
  induction k with
  | start => exact h
  | act _ a ih => exact ih.act a

theorem Act.course {s t : State} (h : Act cmd s t) : Course cmd s t := .act .start h

theorem SameWork.course {s t : State} (h : SameWork s t) : Course cmd s t := .act .start (.same h)

theorem Course.then {s t u : State} (h : Course cmd s t) (k : SameWork t u) : Course cmd s u := h.act (.same k)

/-- What every act keeps, a course of acts keeps. -/
theorem Course.keeps {P : State → Prop} (hP : ∀ s t, P s → Act cmd s t → P t) {s t : State} (h : Course cmd s t) (hs : P s) : P t := by
  induction h with
  | start => exact hs
  | act _ a ih => exact hP _ _ ih a

/-! ### Events that end and commands that are taken -/

theorem Course.closed {s t : State} (h : Course cmd s t) (b : State) : Course cmd s (closeEvent b t) := h.then (sameWork_closeEvent b t)

theorem sameWork_giveResult (code : Byte) (r : ResultCode) (s : State) : SameWork s (giveResult code r s) := .of_shape rfl

theorem sameWork_postAll (ps : List (Nat × Word)) (s : State) : SameWork s (postAll ps s) := .of_shape (postAll_shape ps s)

theorem active_runs {s : State} (h : Active s) : queuesRun s.engine = true := by
  rcases h with h | h <;> simp [queuesRun, h]

theorem Taken.course {s t : State} (h : Taken cmd s t) : Course cmd s t := by
  have hgive : ∀ {u : State} (code : Byte) (r : ResultCode), Course cmd s u → Course cmd s (closeEvent s (giveResult code r u)) :=
    fun code r h => (h.then (sameWork_giveResult code r _)).closed s
  cases h with
  | refused code r => exact (sameWork_refuse code r s).course
  | start h =>
    rw [startEffect_eq]
    exact hgive _ _ ((Act.opened h).course.then (sameWork_postAll _ _))
  | stop h => exact (Act.stopped h).course.closed s
  | pause h =>
    have hpaused : SameWork s (clearLag (setEngineState .paused s)) := ⟨rfl, rfl, rfl, rfl, rfl, by simp [queuesRun, h], rfl, ⟨rfl, rfl⟩⟩
    exact hgive _ _ (hpaused.course.act .judged)
  | resume h =>
    have hrunning : SameWork s (setEngineState .running s) := ⟨rfl, rfl, rfl, rfl, rfl, by simp [queuesRun, h], rfl, ⟨rfl, rfl⟩⟩
    exact hgive _ _ (hrunning.course.act .judged)
  | showBuffer h named =>
    exact (((Act.shown h named).course.act .judged).then (sameWork_giveResult _ _ _)).then (sameWork_closeShow _ _)
  | hold h is => exact hgive _ _ (Act.held h true is).course
  | release h is => exact hgive _ _ ((Act.held h false is).course.act .judged)
  | discard h is => exact hgive _ _ ((Act.discarded h is).course.act .judged)
  | promote hc h a => exact hgive _ _ (Act.promoted hc h a).course
  | sense h hs => exact hgive _ _ ((Act.sensed h hs _).course.act .judged)
  | clearFaults h is => exact hgive _ _ ((Act.cleared h is).course.act .judged)

/-! ### The part's own events -/

theorem sameWork_raise (e : Event) (s : State) : SameWork s (raise e s) := .of_shape rfl

theorem sameWork_post (off : Nat) (v : Word) (s : State) : SameWork s (post off v s) := .of_shape rfl

theorem sameWork_servedPart (turn : PartTurn) (s : State) : SameWork s (servedPart turn s) := ⟨rfl, rfl, rfl, rfl, rfl, rfl, rfl, ⟨rfl, rfl⟩⟩

theorem course_abandonedRead (s : State) : Course cmd s (abandonedRead s) := by
  unfold abandonedRead
  split
  · exact (sameWork_servedPart .read s).course
  · exact .start

theorem captureByte_asm (buf : Buffer) (i : SegNo) (k : Fin 10) (bad : Bool) (s : State) : (captureByte buf i k bad s).asm = s.asm := by
  unfold captureByte
  split <;> simp

theorem course_captureByte {a : Assembly} {c : Capture} {s : State} (ha : s.asm = some a) (hc : a.capture = some c) (buf : Buffer)
    (k : Fin 10) (bad : Bool) : Course cmd s (captureByte buf c.seg k bad s) := by
  unfold captureByte
  split
  · exact ((Act.marked buf k ha hc).course.then (sameWork_post _ _ _)).then (sameWork_raise _ _)
  · exact .start

theorem course_captureTakes (hcmd : cmd = .captureReadEnd) {a : Assembly} {c : Capture} {s : State} (ha : s.asm = some a) (hc : a.capture = some c) (buf : Buffer)
    (w : Word) (lo hi : Bool) : Course cmd s (captureTakes a c buf w lo hi s) := by
  have hlow := course_captureByte (cmd := cmd) ha hc buf (readCell c.words.length 0) lo
  have hhigh := course_captureByte (cmd := cmd) ((captureByte_asm buf c.seg (readCell c.words.length 0) lo s).trans ha) hc buf
    (readCell c.words.length 1) hi
  unfold captureTakes
  simp only
  generalize hu : captureByte buf c.seg (readCell c.words.length 1) hi (captureByte buf c.seg (readCell c.words.length 0) lo s) = u
    at hhigh
  have hasm : u.asm = some a := by rw [← hu, captureByte_asm, captureByte_asm, ha]
  have hread : ∀ d : Capture, d.seg = c.seg → d.forgotten = c.forgotten →
      Course cmd s (setAsm (some { a with capture := some d }) u) :=
    fun d hd hf => (hlow.trans hhigh).act (.read hasm hc d hd hf)
  split
  · exact hread _ rfl rfl
  · exact (hread { c with words := c.words ++ [w], badRead := c.badRead || lo || hi } rfl rfl).act
      (.captureEnds hcmd (c := { c with words := c.words ++ [w], badRead := c.badRead || lo || hi }) rfl rfl)

theorem course_captureReadEnds (hcmd : cmd = .captureReadEnd) (s : State) : Course cmd s (captureReadEnds s) := by
  unfold captureReadEnds
  split
  · exact course_abandonedRead s
  · rename_i a ha
    split
    · exact course_abandonedRead s
    · rename_i c hc
      split
      · exact course_abandonedRead s
      · exact (sameWork_servedPart .read s).course.trans (course_captureTakes hcmd (s := servedPart .read s) ha hc _ _ _ _)

theorem course_conversionEnds (hcmd : ∃ v, cmd = .conversionEnd v) (v : BitVec 10) (s : State) : Course cmd s (conversionEnds v s) := by
  unfold conversionEnds
  split
  · rename_i hs
    split
    · exact .start
    · rename_i j hj
      split
      · exact .start
      · rename_i i p rest htodo
        split
        · exact (Act.value (cmd := cmd) hj hs { s.conv with warmUp := .made } j hs rfl hj rfl rfl rfl rfl).course
        · have hclear := (Act.value (cmd := cmd) hj hs { s.conv with warmUp := .clear } j hs rfl hj rfl rfl rfl rfl).course
          have htaken := fun g hk hsegs hb ht => hclear.act
            (Act.jobEnds hcmd (s := setConv { s.conv with warmUp := .clear } s) hj hs g hk hsegs hb ht)
          unfold takeValue
          simp only
          split
          · refine Course.act ?_ .judged
            exact htaken { j with todo := [], results := j.results ++ [⟨i, p, v, classify s.engine.copy v⟩] } rfl rfl rfl rfl
          · exact hclear.act (.value (s := setConv { s.conv with warmUp := .clear } s) hj hs _ _ hs rfl rfl rfl rfl rfl rfl)
  · exact .start

theorem sameWork_setGate (g : SupplyGate) (s : State) : SameWork s (setGate g s) := ⟨rfl, rfl, rfl, rfl, rfl, rfl, rfl, ⟨rfl, rfl⟩⟩

theorem sameWork_setSupply (high : Bool) (s : State) : SameWork s (setSupply high s) := ⟨rfl, rfl, rfl, rfl, rfl, rfl, rfl, ⟨rfl, rfl⟩⟩

/-- The timers and charge-ready of the stroke unit are no part of the work. -/
theorem sameWork_setStroke {u : StrokeUnit} {s : State} (h : u.driven = s.stroke.driven) : SameWork s (setStroke u s) :=
  ⟨rfl, rfl, rfl, h, rfl, rfl, rfl, ⟨rfl, rfl⟩⟩

theorem course_supplyRises (s : State) : Course cmd s (supplyRises s) := by
  have hhigh : Course cmd s _ := (sameWork_setSupply true s).course
  unfold supplyRises
  simp only
  split
  · exact hhigh.then (sameWork_setGate _ _)
  · exact hhigh
  · exact hhigh

theorem course_gateLost (s : State) : Course cmd s (gateLost s) := by
  have hlost : Course cmd s _ := ((sameWork_setGate ⟨.closed, .idle⟩ s).trans (sameWork_raise .supplyLost _)).course
  have hstroke := hlost.then (sameWork_setStroke (u := { s.stroke with chargeReady := false, recharge := .idle }) rfl)
  exact ((hstroke.act .abortDrive).then (.of_firm (requestFaultTone_firm _))).act .judged

theorem course_supplyFalls (s : State) : Course cmd s (supplyFalls s) := by
  have hlow := sameWork_setSupply false s
  unfold supplyFalls
  simp only
  split
  · exact hlow.course
  · exact ((hlow.trans (sameWork_setGate _ _)).trans (sameWork_raise _ _)).course
  · exact hlow.course.trans (course_gateLost _)

theorem sameWork_startRecharge (s : State) : SameWork s (startRecharge s) := ⟨rfl, rfl, rfl, rfl, rfl, rfl, rfl, ⟨rfl, rfl⟩⟩

theorem course_rearmExpires (s : State) : Course cmd s (rearmExpires s) := by
  unfold rearmExpires
  split
  · have hopen := (sameWork_setGate ⟨.opened, .idle⟩ s).trans (sameWork_raise .supplyBack _)
    refine (hopen.trans ?_).course
    exact SameWork.trans (sameWork_setStroke (u := { s.stroke with chargeReady := false }) rfl) (sameWork_startRecharge _)
  · exact .start

theorem sameWork_setTouchLine (l : LineNo) (r : TouchLine) (s : State) : SameWork s (setTouchLine l r s) :=
  ⟨rfl, rfl, rfl, rfl, rfl, rfl, rfl, ⟨rfl, rfl⟩⟩

theorem course_acceptLevel (l : LineNo) (high : Bool) (s : State) : Course cmd s (acceptLevel l high s) := by
  have hset := fun r => SameWork.course (cmd := cmd) (sameWork_setTouchLine l r s)
  unfold acceptLevel acceptPresent acceptAbsent
  simp only
  split
  · split
    · exact hset _
    · exact ((hset _).act (.touchStroke l)).act (.touchJob l)
  · split
    · exact (hset _).act .judged
    · exact hset _

theorem course_touchChanges (l : LineNo) (high : Bool) (s : State) : Course cmd s (touchChanges l high s) := by
  have hpin : SameWork s (setTouchPin l high s) := ⟨rfl, rfl, rfl, rfl, rfl, rfl, rfl, ⟨rfl, rfl⟩⟩
  unfold touchChanges
  simp only
  split
  · exact hpin.course.trans (course_acceptLevel l high _)
  · exact hpin.course

theorem course_guardExpires (l : LineNo) (s : State) : Course cmd s (guardExpires l s) := by
  unfold guardExpires
  split
  · split
    · exact (sameWork_setTouchLine l _ s).course
    · exact course_acceptLevel l _ s
  · exact .start

theorem course_holdOffExpires (l : LineNo) (s : State) : Course cmd s (holdOffExpires l s) := by
  unfold holdOffExpires
  split
  · exact (sameWork_setTouchLine l _ s).course.act .judged
  · exact .start

theorem sameWork_setClaim (l : LineNo) (c : Claim) (s : State) : SameWork s (setClaim l c s) := ⟨rfl, rfl, rfl, rfl, rfl, rfl, rfl, ⟨rfl, rfl⟩⟩

theorem sameWork_claimWarns (l : LineNo) (s : State) : SameWork s (claimWarns l s) := ⟨rfl, rfl, rfl, rfl, rfl, rfl, rfl, ⟨rfl, rfl⟩⟩

theorem sameWork_claimPassesWarn (l : LineNo) (s : State) : SameWork s (claimPassesWarn l s) := by
  unfold claimPassesWarn
  split
  · exact .refl s
  · exact sameWork_claimWarns l s

theorem sameWork_claimExpires (l : LineNo) (s : State) : SameWork s (claimExpires l s) := ⟨rfl, rfl, rfl, rfl, rfl, rfl, rfl, ⟨rfl, rfl⟩⟩

theorem sameWork_claimWarnPoint (l : LineNo) (s : State) : SameWork s (claimWarnPoint l s) := by
  unfold claimWarnPoint
  simp only
  split
  · exact (sameWork_setClaim l _ s).trans (sameWork_claimWarns l _)
  · exact .refl s

theorem course_claimLimitPoint (l : LineNo) (s : State) : Course cmd s (claimLimitPoint l s) := by
  unfold claimLimitPoint
  split
  · exact ((sameWork_claimPassesWarn l s).trans (sameWork_claimExpires l _)).course.act .judged
  · exact .start

theorem course_rechargeExpires (s : State) : Course cmd s (rechargeExpires s) := by
  unfold rechargeExpires
  split
  · exact (sameWork_setStroke (u := { s.stroke with recharge := .idle, chargeReady := true }) rfl).course.act .judged
  · exact .start

theorem Happens.course {s u : State} (h : Happens cmd s u) : Course cmd s u := by
  cases h with
  | captureRead hc => exact course_captureReadEnds hc s
  | settle => exact Act.settleExpires.course
  | recharge => exact course_rechargeExpires s
  | conversion v hc => exact course_conversionEnds ⟨v, hc⟩ v s
  | supplyRise => exact course_supplyRises s
  | supplyFall => exact course_supplyFalls s
  | rearm => exact course_rearmExpires s
  | touchInput l high => exact course_touchChanges l high s
  | guardEnd l => exact course_guardExpires l s
  | holdOffEnd l => exact course_holdOffExpires l s
  | claimWarn l => exact (sameWork_claimWarnPoint l s).course
  | claimLimit l => exact course_claimLimitPoint l s

/-! ### The descriptor -/

theorem sameWork_judgeClaim (l : LineNo) (s : State) : SameWork s (judgeClaim l s) := by
  unfold judgeClaim
  simp only
  split
  · exact .refl s
  · split
    · have hwarn : ∀ n : Nat, SameWork s (if warnCount (claimLimit s.engine.copy) ≤ n then claimPassesWarn l s else s) := by
        intro n
        split
        · exact sameWork_claimPassesWarn l s
        · exact .refl s
      split
      · exact (hwarn _).trans (sameWork_claimExpires l _)
      · exact hwarn _
    · exact .refl s

theorem sameWork_judgeClaims (s : State) : SameWork s (judgeClaims s) := by
  unfold judgeClaims
  generalize allLines = ls
  induction ls generalizing s with
  | nil => exact .refl s
  | cons l ls ih => exact (sameWork_judgeClaim l s).trans (ih _)

theorem sameWork_touchStarts (s : State) : SameWork s (touchStarts s) := ⟨rfl, rfl, rfl, rfl, rfl, rfl, rfl, ⟨rfl, rfl⟩⟩

theorem course_acceptDescriptor {s : State} (h : queuesRun s.engine = false) (hl : s.engine.state = .loading) (d : Descriptor) :
    Course cmd s (acceptDescriptor d s) := by
  rw [acceptDescriptor, acceptParts_eq]
  have hparts := (Act.accepted (cmd := cmd) h hl d).course.then ((sameWork_touchStarts _).trans (sameWork_judgeClaims _))
  exact (hparts.act .loaded).act .judged

theorem sameWork_closeAcceptance (b s : State) : SameWork s (closeAcceptance b s) := by
  have hposts : SameWork s (postProducer (postMirrors allSegs (judgeSettled false b s))) :=
    SameWork.trans (.of_firm (judgeSettled_firm false b s)) (.of_shape (by simp))
  unfold closeAcceptance
  simp only
  generalize postProducer (postMirrors allSegs (judgeSettled false b s)) = u at hposts
  have hstatus := hposts.trans (SameWork.of_shape (t := postStatus (post (PartWord.offset .eventPending) (pendingWord u) u)) rfl)
  split
  · exact hstatus.trans (.of_shape rfl)
  · exact hstatus.trans (.of_shape (by simp))

theorem sameWork_reading {s : State} (h : queuesRun s.engine = false) (hl : s.engine.state = .loading) (ws : List Word) :
    SameWork s { s with engine := { s.engine with reading := some ws } } :=
  ⟨rfl, rfl, rfl, rfl, rfl, by rw [h, queuesRun, hl]; rfl, rfl, ⟨rfl, rfl⟩⟩

theorem course_descriptorReadEnds (s : State) : Course cmd s (descriptorReadEnds s) := by
  unfold descriptorReadEnds
  split
  · rename_i ws hstate hreading
    have hserved : Course cmd s _ := (sameWork_servedPart .read s).course
    have hruns : queuesRun (servedPart .read s).engine = false := by simp [queuesRun, hstate, hreading]
    have hl : (servedPart .read s).engine.state = .loading := hstate
    refine hserved.trans ?_
    unfold descriptorTakes
    split
    · exact (sameWork_reading hruns hl _).course
    · unfold judgeDescriptor
      split
      · exact (Act.refusedDescriptor hruns _).course.closed _
      · exact (course_acceptDescriptor hruns hl _).then (sameWork_closeAcceptance _ _)
  · exact course_abandonedRead s

/-! ### Host accesses -/

theorem course_takeReport (buf : Buffer) (cell : Fin 960) (bad : Bool) (s : State) : Course cmd s (takeReport buf cell bad s) := by
  unfold takeReport
  simp only
  split
  · rename_i h
    exact (Act.written buf (cellInSeg cell) bad (segOfCell cell) h).course.act .judged
  · exact .start

theorem sameWork_reportParity (buf : Buffer) (cell : Fin 960) (bad : Bool) (s : State) : SameWork s (reportParity buf cell bad s) := by
  unfold reportParity
  split
  · exact .of_shape rfl
  · exact .refl s

theorem course_cellByte (buf : Buffer) (cell : Fin 960) (bad : Bool) (s : State) : Course cmd s (cellByte buf cell bad s) :=
  ((sameWork_reportParity buf cell bad s).course.trans (course_takeReport buf cell bad _)).closed s

theorem course_pageWrite (buf : Buffer) (word : Fin 480) (w : HostWrite) (s : State) : Course cmd s (pageWrite buf word w s) := by
  have hbyte : ∀ (en : Bool) (h : Fin 2) (bad : Bool) (u : State),
      Course cmd u (if en then cellByte buf (wordCell word h) bad u else u) := by
    intro en h bad u
    split
    · exact course_cellByte _ _ _ u
    · exact .start
  have hstored : Course cmd s _ := (sameWork_forwardArea (buf.offset + 2 * word.val) w s).course
  unfold pageWrite
  simp only
  split
  · exact hstored
  · exact (hstored.trans (hbyte _ 0 _ _)).trans (hbyte _ 1 _ _)

theorem sameWork_ownedWrite (off : Nat) (w : HostWrite) (s : State) : SameWork s (ownedWrite off w s) := by
  unfold ownedWrite
  split
  · rcases offWrite_or off w s with h | ⟨-, -, h⟩ <;> rw [h]
    · exact sameWork_forwardArea off w s
    · exact ⟨rfl, rfl, rfl, rfl, rfl, rfl, rfl, ⟨rfl, rfl⟩⟩
  · exact sameWork_dropWrite off s

theorem sameWork_claimRead (l : LineNo) (lo hi : Bool) (s : State) : SameWork s (claimRead l lo hi s) := by
  have hread := sameWork_readArea (claimOffset l) lo hi s
  unfold claimRead
  simp only
  split
  · exact hread.trans ⟨rfl, rfl, rfl, rfl, rfl, rfl, rfl, ⟨rfl, rfl⟩⟩
  · exact hread

theorem course_claimWrite (l : LineNo) (w : HostWrite) (s : State) : Course cmd s (claimWrite l w s) := by
  have hstored : Course cmd s _ := (sameWork_forwardArea (claimOffset l) w s).course
  unfold claimWrite
  split
  · exact hstored
  · split
    · simp only
      split
      · unfold releaseClaim
        split
        · exact ((hstored.then (sameWork_setClaim l _ _)).act .judged).closed _
        · exact hstored
      · exact hstored
    · exact (sameWork_dropWrite _ s).course

theorem course_ringConsumerWrite (w : HostWrite) (s : State) : Course cmd s (ringConsumerWrite w s) := by
  have hstored : Course cmd s _ := (sameWork_forwardArea ringConsumerOffset w s).course
  unfold ringConsumerWrite
  simp only
  split
  · exact (hstored.act (.offered _)).then (.of_shape (postPending_shape _))
  · exact hstored

theorem sameWork_forwardAddr (a : Nat) (w : HostWrite) (s : State) : SameWork s (forwardAddr a w s) := by
  unfold forwardAddr
  split
  · exact sameWork_forwardArea _ w s
  · exact ⟨rfl, rfl, rfl, rfl, rfl, rfl, rfl, ⟨rfl, rfl⟩⟩

theorem sameWork_readAddr (a : Nat) (lo hi : Bool) (s : State) : SameWork s (readAddr a lo hi s) := by
  unfold readAddr
  split
  · exact sameWork_readArea _ lo hi s
  · exact ⟨rfl, rfl, rfl, rfl, rfl, rfl, rfl, ⟨rfl, rfl⟩⟩

theorem sameWork_drainHead (s : State) : SameWork s (drainHead s) :=
  ⟨by simp, by simp, by simp, by simp, by simp, by simp, by simp, by simp⟩

theorem sameWork_lagWarns (s : State) : SameWork s (lagWarns s) := by
  unfold lagWarns
  split
  · exact .refl s
  · split
    · exact ⟨rfl, rfl, rfl, rfl, rfl, rfl, rfl, ⟨rfl, rfl⟩⟩
    · exact .refl s

theorem sameWork_lagLimits (s : State) : SameWork s (lagLimits s) := by
  unfold lagLimits
  split
  · exact .refl s
  · split
    · exact (sameWork_lagWarns s).trans ⟨rfl, rfl, rfl, rfl, rfl, rfl, rfl, ⟨rfl, rfl⟩⟩
    · exact .refl s

theorem sameWork_setChime (c : Chime) (s : State) : SameWork s (setChime c s) := ⟨rfl, rfl, rfl, rfl, rfl, rfl, rfl, ⟨rfl, rfl⟩⟩

theorem sameWork_periodEnds (s : State) : SameWork s (periodEnds s) := by
  unfold periodEnds
  split
  · exact .refl s
  · split
    · exact .refl s
    · exact sameWork_setChime _ s
    · exact sameWork_setChime _ s

theorem sameWork_durationExpires (s : State) : SameWork s (durationExpires s) := by
  unfold durationExpires
  split
  · simp only
    split
    · exact (sameWork_setChime _ s).trans (sameWork_periodEnds _)
    · exact sameWork_setChime _ s
  · exact .refl s

theorem sameWork_tick (s : State) : SameWork s (tick s) := ⟨rfl, rfl, rfl, rfl, rfl, rfl, rfl, ⟨rfl, rfl⟩⟩

theorem sameWork_setBus (b : BusPass) (s : State) : SameWork s { s with bus := b } := ⟨rfl, rfl, rfl, rfl, rfl, rfl, rfl, ⟨rfl, rfl⟩⟩

/-- Every event is a course of acts. -/
theorem Meaning.course {s t : State} (h : Meaning cmd s t) : Course cmd s t := by
  cases h with
  | reset strap => exact (Act.reset strap).course
  | forward addr w h => exact (sameWork_forwardAddr _ w s).course
  | read a lo hi => exact (sameWork_readAddr a lo hi s).course
  | page buf word w => exact course_pageWrite buf word w s
  | owned p w => exact (sameWork_ownedWrite _ w s).course
  | eventSet w => exact (SameWork.of_shape (s := s) (t := eventSetWrite w s) (by simp [eventSetWrite])).course
  | eventClear w => exact (SameWork.of_shape (s := s) (t := eventClearWrite w s) (by simp [eventClearWrite])).course
  | argument w => exact ((sameWork_forwardArea _ w s).trans (sameWork_setBus _ _)).course
  | enable w => exact ((sameWork_forwardArea _ w s).trans (sameWork_setBus _ _)).course
  | ringConsumer w => exact course_ringConsumerWrite w s
  | claimRead l lo hi => exact (sameWork_claimRead l lo hi s).course
  | claimWrite l w => exact course_claimWrite l w s
  | commandWord w => exact (sameWork_forwardArea _ w s).course
  | command w t h => exact (sameWork_forwardArea commandOffset w s).course.trans h.course
  | drain => exact (sameWork_drainHead s).course
  | descriptorRead => exact course_descriptorReadEnds s
  | driveExpiry => exact Act.driveExpires.course.then (sameWork_closePosts s _)
  | event u h => exact h.course.closed s
  | lagWarn => exact ((sameWork_lagWarns s).trans (.of_shape (postPending_shape _))).course
  | lagLimit => exact ((sameWork_lagLimits s).trans (.of_shape (postPending_shape _))).course
  | duration => exact (sameWork_durationExpires s).course
  | period => exact (sameWork_periodEnds s).course

/-- A law of the work that every act keeps is kept by every step. -/
theorem step_keeps_work {P : State → Prop} (hP : ∀ cmd s t, P s → Act cmd s t → P t) {s t : State} (hs : P s) (h : step s = .next t) : P t := by
  refine step_keeps (P := P) (fun u rest hu => hP .postWrite _ _ hu (.same ⟨rfl, rfl, rfl, rfl, rfl, rfl, rfl, ⟨rfl, rfl⟩⟩))
    (fun u hu => hP .postWrite _ _ hu (.same (sameWork_tick u))) (fun cmd u v hu hm => hm.course.keeps (hP cmd) hu) hs h

end Sys2Proof.Machine

/-! ### What a walk, a drive and a grant can do, one rule for each -/

namespace Sys2Proof.Machine

/-- A property that the steps of a walk keep (R56, R65 to R73). -/
structure WalkRules (P : State → Prop) : Prop where
  ends : ∀ s a, s.asm = some a → P s → P (walkEnd a s)
  passes : ∀ s i rest, s.queue.behind = i :: rest → P s → P (setQueue (s.queue.passMark i rest) s)
  starts : ∀ s a i, s.asm = some a → freeStale s i = true → P s → P (captureStart i s)
  stores : ∀ s, P s → P (captureStore s)
  syncs : ∀ i s, P s → P (sync .tail i s)

/-- A property that the judging of new work keeps (R63, R84, R112). -/
structure JudgeRules (P : State → Prop) : Prop extends WalkRules P where
  opens : ∀ s, walkReady s = true → P s → P (setAsm (some Assembly.started) (setQueue s.queue.startWalk s))
  drives : ∀ s, driveReady s = true → P s → P (driveStart s)
  sweeps : ∀ s i, mayGrant s = true → i ∈ s.queue.entries → sweepable s i = true → P s → P (startSweep i s)
  senses : ∀ s i, mayGrant s = true → sensePick s = some i → P s → P (startSense i s)

theorem eligible_freeStale {a : Assembly} {s : State} {i : SegNo} (h : eligible a s i = true) : freeStale s i = true := by
  rw [eligible, Bool.and_eq_true] at h
  exact h.1

theorem WalkRules.walk {P : State → Prop} (r : WalkRules P) {s : State} (h : P s) : P (walkFromMark s) := by
  refine walkOn_induct P (fun u a ha hu => r.ends u a ha hu) (fun u a i rest _ hb hu => r.passes u i rest hb hu) ?_ ?_ _ s h
  · intro u a i rest ha hb he hu
    exact r.starts _ a i ha (eligible_freeStale (s := u) he) (r.passes u i rest hb hu)
  · intro u a i rest ha hb he _ hu
    exact r.syncs i _ (r.stores _ (r.starts _ a i ha (eligible_freeStale (s := u) he) (r.passes u i rest hb hu)))

theorem JudgeRules.judge {P : State → Prop} (r : JudgeRules P) {s : State} (h : P s) : P (judge s) :=
  judge_induct P r.drives (fun u hw hu => r.walk (r.opens u hw hu)) r.sweeps r.senses s h

/-- The end of a capture keeps what new work keeps, if judging R41 for its segment keeps it. -/
theorem JudgeRules.captureEnd {P : State → Prop} (r : JudgeRules P) {i : SegNo} {s : State}
    (h : P (keepClean i (captureStore s))) : P (captureEnd i s) := by
  unfold Machine.captureEnd
  simp only
  split
  · exact r.syncs i _ (r.judge (r.walk h))
  · exact r.judge (r.walk (r.syncs i _ h))

theorem captureStart_of_asm {a : Assembly} {s : State} (ha : s.asm = some a) (i : SegNo) :
    captureStart i s = oweMirror i (putSeg .tail i { s.seg i with state := .capturing, dirty := false }
      (setAsm (some { a with captured := i :: a.captured, capture := some ⟨i, s.engine.shown, [], false, false⟩ }) s)) := by
  rw [captureStart, ha]
  rfl

/-- A capture's end either finds no capture, or one of a segment still CAPTURING, or one of a segment that has moved on. -/
theorem captureStore_cases (s : State) :
    captureStore s = s ∨ ∃ a c, s.asm = some a ∧ a.capture = some c ∧
      ((s.seg c.seg).state = .capturing ∧
        captureStore s = oweMirror c.seg (setSeg c.seg (captureOutcome a c s.engine.copy (s.seg c.seg)).1
          (setAsm (some { a with
            members := a.members ++ (captureOutcome a c s.engine.copy (s.seg c.seg)).2.toList, capture := none }) s)) ∨
      (s.seg c.seg).state ≠ .capturing ∧
        captureStore s = setSeg c.seg (captureMovedOn c s.engine.copy (s.seg c.seg)) (setAsm (some { a with capture := none }) s)) := by
  cases ha : s.asm with
  | none => exact .inl (by rw [captureStore, ha])
  | some a =>
    cases hc : a.capture with
    | none =>
      left
      rw [captureStore, ha]
      simp only [hc]
    | some c =>
      refine .inr ⟨a, c, rfl, hc, ?_⟩
      by_cases hs : (s.seg c.seg).state = .capturing
      · exact .inl ⟨hs, by rw [captureStore, ha]; simp only [hc, hs, if_true]⟩
      · exact .inr ⟨hs, by rw [captureStore, ha]; simp only [hc, hs, if_false]⟩

end Sys2Proof.Machine

/-! ### The fault lists over every act -/

namespace Sys2Proof.Machine

theorem Segment.mark_marks (r : Segment) (buf : Buffer) (k : Fin 10) (bad : Bool) :
    r.mark buf k bad = { r with suspectA := (r.mark buf k bad).suspectA, suspectB := (r.mark buf k bad).suspectB } := by
  cases buf <;> rfl

theorem Segment.touchContent_marks (r : Segment) :
    r.touchContent = { r with dirty := r.touchContent.dirty, state := r.touchContent.state } := by
  unfold Segment.touchContent
  split <;> rfl

theorem Segment.faults_mark (r : Segment) (buf : Buffer) (k : Fin 10) (bad : Bool) : (r.mark buf k bad).faults = r.faults := by
  rw [Segment.mark_marks]

theorem Segment.faults_cellWrite (r : Segment) (shown : Shown) (buf : Buffer) (k : Fin 10) (bad : Bool) :
    (r.cellWrite shown buf k bad).faults = r.faults := by
  unfold Segment.cellWrite
  simp only
  split
  · rw [Segment.touchContent_marks]
    exact r.faults_mark buf k bad
  · exact r.faults_mark buf k bad

theorem Segment.faults_stopped (r : Segment) : r.stopped.faults = r.faults := by
  unfold Segment.stopped
  split
  · rfl
  · rfl
  · exact Segment.faults_ended _ _
  · rfl

theorem faultsFit_cleared (r : Segment) : FaultsFit r r.cleared := by
  unfold Segment.cleared
  split
  · exact faultsFit_refl r
  · exact fun _ => Nat.zero_le 4

/-- The record of a segment after one function has been applied to every record. -/
theorem seg_map {s t : State} {f : Segment → Segment} (h : t.segs = s.segs.map f) (i : SegNo) : t.seg i = f (s.seg i) := by
  rw [State.seg, h]
  simp [State.seg]

theorem allFaultsFit_map {f : Segment → Segment} (hf : ∀ r, (f r).faults = r.faults) {s t : State} (h : t.segs = s.segs.map f) :
    AllFaultsFit s t := fun i => by
  rw [seg_map h]
  exact faultsFit_of_eq (hf _)

theorem settleExpires_faults (s : State) : AllFaultsFit s (settleExpires s) := by
  unfold settleExpires
  split
  · exact .of_segs rfl
  · rename_i d _
    split
    · exact ((allMarksKept_setStates .verifying (d.members.map Member.seg) s).trans (.of_segs (syncTail_segs _ _))).faults
    · exact .of_segs rfl

theorem driveExpires_segs (s : State) : (driveExpires s).segs = s.segs := by
  unfold driveExpires
  split
  · rfl
  · split <;> rfl

theorem touchStroke_segs (l : LineNo) (s : State) : (touchStroke l s).segs = s.segs := by
  unfold touchStroke
  split <;> rfl

theorem touchJob_segs (l : LineNo) (s : State) : (touchJob l s).segs = s.segs := by
  unfold touchJob
  split
  · rfl
  · split <;> rfl

theorem allFaultsFit_abortMember (s : State) (m : Member) : AllFaultsFit s (abortMember m s) := by
  have hnote : (if (s.seg m.seg).discardAfter then noteForgotten m.seg s else s).segs = s.segs := by
    split
    · exact noteForgotten_segs _ s
    · rfl
  unfold abortMember
  simp only
  generalize (if (s.seg m.seg).discardAfter then noteForgotten m.seg s else s) = u at hnote
  have hseg : u.seg m.seg = s.seg m.seg := by rw [State.seg, hnote]; rfl
  refine AllFaultsFit.trans (t := u) (.of_segs hnote) (allFaultsFit_setSeg (faultsFit_of_eq ?_))
  rw [Segment.faults_ended, hseg]
  rfl

theorem allFaultsFit_abortDrive (s : State) : AllFaultsFit s (abortDrive s) := by
  unfold abortDrive
  split
  · exact .of_segs rfl
  · rename_i d _
    split
    · exact (allFaultsFit_foldl allFaultsFit_abortMember d.members s).trans (.of_segs (by simp))
    · exact .of_segs rfl

theorem abortResults_segs (s : State) : (abortResults s).segs = s.segs := congrArg Shape.segs (abortResults_shape s)

theorem allFaultsFit_stopStroke (s : State) : AllFaultsFit s (stopStroke s) := by
  unfold stopStroke
  split
  · exact .of_segs rfl
  · rename_i d _
    refine (allFaultsFit_foldl allFaultsFit_abortMember d.members s).trans (.of_segs ?_)
    simp only
    split <;> rfl

theorem stopEffect_segs (s : State) : (stopEffect s).segs = (stopStroke (abortResults s)).segs.map Segment.stopped := by
  unfold stopEffect
  simp only [giveResult_segs, requestSilence_segs]

theorem allFaultsFit_stopEffect (s : State) : AllFaultsFit s (stopEffect s) :=
  (AllFaultsFit.of_segs (abortResults_segs s)).trans
    ((allFaultsFit_stopStroke _).trans (allFaultsFit_map Segment.faults_stopped (stopEffect_segs s)))

theorem allFaultsFit_discardSeg (s : State) (i : SegNo) : AllFaultsFit s (discardSeg i s) := by
  have hforget : AllFaultsFit s (forgetSeg i s) :=
    (allFaultsFit_setSeg (r := { (s.seg i).forget with state := .unsure }) (faultsFit_of_eq rfl)).trans
      (.of_segs (noteForgotten_segs i _))
  have hset : AllFaultsFit s (setSeg i { s.seg i with discardAfter := true } s) := allFaultsFit_setSeg (faultsFit_of_eq rfl)
  have hremove : (removeMember i (forgetSeg i s)).segs = (forgetSeg i s).segs := by
    unfold removeMember
    split <;> rfl
  unfold discardSeg
  cases (s.seg i).state with
  | clean => exact hforget
  | stale => exact hforget
  | unsure => exact hforget
  | capturing => exact hforget
  | member => exact hforget.trans (.of_segs hremove)
  | moving => exact hset
  | verifying => exact hset
  | sensing => exact hset
  | faulted => exact .of_segs rfl

theorem dropEmptyRecord_segs (s : State) : (dropEmptyRecord s).segs = s.segs := by
  unfold dropEmptyRecord
  split
  · rfl
  · split <;> rfl

theorem offerConsumer_segs (v : BitVec 8) (s : State) : (offerConsumer v s).segs = s.segs := by
  unfold offerConsumer
  split <;> rfl

theorem Act.faultLists {cmd : Instr} {s t : State} (h : Act cmd s t) (hs : FaultListsLawful s) : FaultListsLawful t := by
  have hfits : AllFaultsFit s t → FaultListsLawful t := fun hst i => hst i (hs i)
  cases h with
  | same h => exact hfits (.of_segs h.segs)
  | judged => exact hfits (allMarksKept_judge s).faults
  | written buf k bad i _ => exact hfits (allFaultsFit_putSeg (faultsFit_of_eq (Segment.faults_cellWrite _ _ _ _ _)))
  | marked buf k _ _ => exact hfits (allFaultsFit_putSeg (faultsFit_of_eq (Segment.faults_mark _ _ _ _)))
  | read _ _ d _ _ => exact hfits (.of_segs rfl)
  | captureEnds _ _ _ => exact hfits (allMarksKept_captureEnd _ s).faults
  | settleExpires => exact hfits (settleExpires_faults s)
  | driveExpires => exact hfits (.of_segs (driveExpires_segs s))
  | value _ _ c g _ _ _ _ _ _ _ => exact hfits (.of_segs rfl)
  | jobEnds _ _ _ g _ _ _ _ => exact hfits (allFaultsFit_jobEnd g s)
  | abortDrive => exact hfits (allFaultsFit_abortDrive s)
  | touchStroke l => exact hfits (.of_segs (touchStroke_segs l s))
  | touchJob l => exact hfits (.of_segs (touchJob_segs l s))
  | opened _ => exact hfits (.of_segs rfl)
  | stopped _ => exact hfits (allFaultsFit_stopEffect s)
  | shown _ named =>
    refine hfits (allFaultsFit_map (f := Segment.touchContent) (fun r => ?_) (syncTail_segs _ _))
    rw [Segment.touchContent_marks]
  | held _ b is =>
    exact hfits ((allFaultsFit_mapSegs (f := fun r => { r with held := b }) (fun r => faultsFit_of_eq rfl) is s).trans (.of_segs (syncTail_segs _ _)))
  | cleared _ is => exact hfits ((allFaultsFit_mapSegs faultsFit_cleared is s).trans (.of_segs (syncTail_segs _ _)))
  | discarded _ is =>
    exact hfits ((allFaultsFit_foldl allFaultsFit_discardSeg is s).trans
      (.of_segs ((dropEmptyRecord_segs _).trans (syncTail_segs _ _))))
  | promoted _ _ a => exact hfits (.of_segs rfl)
  | sensed _ _ r => exact hfits (.of_segs rfl)
  | refusedDescriptor _ off => exact hfits (.of_segs rfl)
  | accepted _ _ d => exact hfits (allFaultsFit_map (f := Segment.initialised) (fun _ => rfl) (syncTail_segs _ _))
  | loaded => exact hfits (.of_segs (judgeLoading_segs s))
  | offered v => exact hfits (.of_segs (offerConsumer_segs v s))
  | reset strap =>
    intro i
    have hreset : (State.poweredOn s.mem s.pins strap s.pending).seg i = Segment.reset := by simp [State.seg, State.poweredOn]
    rw [hreset]
    exact Nat.zero_le 4

end Sys2Proof.Machine

/-! ### What fault reports leave alone, and what a capture keeps when its segment is forgotten -/

namespace Sys2Proof.Machine

/-- The part of the state that reports of faults leave alone. -/
structure Body where
  segs : Vector Segment 96
  queue : Queue
  asm : Option Assembly
  stroke : StrokeUnit
  gate : SupplyGate
  conv : Converter
  touch : TouchUnit
  claims : ClaimTable
  engine : Engine
  pins : Pins
  pending : List Instr

def State.body (s : State) : Body :=
  ⟨s.segs, s.queue, s.asm, s.stroke, s.gate, s.conv, s.touch, s.claims, s.engine, s.pins, s.pending⟩

theorem body_of_shape {s t : State} (h : t.shape = s.shape) : t.body = s.body := by
  simp only [State.shape, Shape.mk.injEq] at h
  simp [State.body, h]

theorem seg_of_body {s t : State} (h : t.body = s.body) (i : SegNo) : t.seg i = s.seg i := by
  rw [State.seg, show t.segs = s.segs from congrArg Body.segs h]
  rfl

theorem requestRecord_body (f : FaultRecord) (s : State) : (requestRecord f s).body = s.body := by
  have hposts (n : BitVec 8) (u : State) : (postProducer { u with events := { u.events with producer := n } }).body = u.body := rfl
  unfold requestRecord
  simp only
  split
  · exact (hposts _ _).trans ((body_of_shape (postAll_shape _ _)).trans rfl)
  · rfl

theorem requestFaultTone_body (s : State) : (requestFaultTone s).body = s.body := by
  unfold requestFaultTone
  split
  · split <;> rfl
  · rfl

theorem reportFault_body (f : FaultRecord) (s : State) : (reportFault f s).body = s.body :=
  (requestFaultTone_body _).trans (requestRecord_body f s)

theorem reportFaults_body (fs : List FaultRecord) (s : State) : (fs.foldl (fun s f => reportFault f s) s).body = s.body :=
  foldl_keeps State.body (fun s f => reportFault_body f s) fs s

/-- What of the Assembler's record stays when the capture learns that its segment has been forgotten. -/
def Assembly.frame (a : Assembly) : AssemblyPhase × List Member × List SegNo × Option SegNo :=
  (a.phase, a.members, a.captured, a.capture.map Capture.seg)

theorem captureForgotten_frame (s : State) (gone : SegNo → Bool) :
    (captureForgotten s gone).map Assembly.frame = s.asm.map Assembly.frame := by
  rw [captureForgotten, Option.map_map]
  congr 1
  funext a
  simp only [Function.comp_apply, Assembly.frame, Option.map_map]
  congr 4
  funext c
  simp only [Function.comp_apply]
  split <;> rfl

theorem asm_of_frame {o p : Option Assembly} {a : Assembly} (h : p.map Assembly.frame = o.map Assembly.frame) (ha : p = some a) :
    ∃ b, o = some b ∧ b.phase = a.phase ∧ b.members = a.members ∧ b.captured = a.captured ∧
      b.capture.map Capture.seg = a.capture.map Capture.seg := by
  subst ha
  cases o with
  | none => simp at h
  | some b =>
    simp only [Option.map_some, Option.some.injEq, Assembly.frame, Prod.mk.injEq] at h
    obtain ⟨hphase, hmembers, hcaptured, hcapture⟩ := h
    exact ⟨b, rfl, hphase.symm, hmembers.symm, hcaptured.symm, hcapture.symm⟩

theorem captureForgotten_none (s : State) : (captureForgotten s fun _ => false) = s.asm := by
  simp [captureForgotten]

theorem noteForgotten_eq (i : SegNo) (s : State) : noteForgotten i s = setAsm (captureForgotten s fun k => i == k) s := by
  unfold noteForgotten captureForgotten
  cases ha : s.asm with
  | none => exact congrArg (fun o => setAsm o s) ha
  | some a =>
    cases hc : a.capture with
    | none =>
      simp only [Option.map_some, hc, Option.map_none]
      rw [← hc, ← ha]
      rfl
    | some c =>
      simp only [Option.map_some, hc]
      by_cases hi : c.seg = i
      · subst hi
        simp [setAsm]
      · have hne : (i == c.seg) = false := by simpa using fun h => hi h.symm
        simp only [hi, if_false, hne, Bool.false_eq_true]
        rw [← hc, ← ha]
        rfl

/-- A capture learns of the forgotten segment if its discard-after flag is set. -/
theorem noteIf_eq (d : Bool) (i : SegNo) (s : State) :
    (if d then noteForgotten i s else s) = setAsm (captureForgotten s fun k => d && i == k) s := by
  cases d with
  | false =>
    simp only [Bool.false_and, captureForgotten_none]
    rfl
  | true => simpa using noteForgotten_eq i s

theorem noteIfDiscarded_eq (i : SegNo) (s : State) :
    noteIfDiscarded i s = setAsm (captureForgotten s fun k => (s.seg i).discardAfter && i == k) s := noteIf_eq _ i s

end Sys2Proof.Machine

/-! ### The ends of the members of a stroke (R95 to R99) -/

namespace Sys2Proof.Machine

/-- The record with which a stroke's end finishes a member. -/
def finishRecord (cs : List Conversion) (s : State) (m : Member) : Segment :=
  if m.touched then finishTouched m (s.seg m.seg)
  else finishUntouched (judgePins m s.engine.shown (s.seg m.seg) (cs.filter fun c => c.seg = m.seg)).record

/-- The record of an aborted member. -/
def abortRecord (s : State) (m : Member) : Segment := ((s.seg m.seg).unknow (m.raise ||| m.lower)).ended .unsure

/-- A member has ended with a record, and a capture of its segment has learnt of a discard-after flag. -/
def memberEnded (r : Segment) (m : Member) (s : State) : State :=
  setSeg m.seg r (setAsm (captureForgotten s fun k => (s.seg m.seg).discardAfter && m.seg == k) s)

theorem memberEnded_asm (r : Segment) (m : Member) (s : State) :
    (memberEnded r m s).asm = captureForgotten s fun k => (s.seg m.seg).discardAfter && m.seg == k := rfl

theorem finishMember_body (cs : List Conversion) (m : Member) (s : State) :
    (finishMember cs m s).body = (memberEnded (finishRecord cs s m) m s).body := by
  unfold finishMember finishRecord memberEnded
  simp only [noteIf_eq]
  cases m.touched with
  | true => rfl
  | false => exact reportFaults_body _ _

theorem abortMember_eq (m : Member) (s : State) : abortMember m s = memberEnded (abortRecord s m) m s := by
  unfold abortMember abortRecord memberEnded
  simp only [noteIf_eq]

/-- The members of a stroke have ended, each with its record. -/
def membersEnded (rec : Member → Segment) (ms : List Member) (s : State) : State := { s with
  segs := Vector.ofFn fun k => match ms.find? fun m => m.seg == k with
    | none => s.seg k
    | some m => rec m
  asm := captureForgotten s fun k => (s.seg k).discardAfter && ms.any fun m => m.seg == k }

theorem membersEnded_seg (rec : Member → Segment) (ms : List Member) (s : State) (k : SegNo) :
    (membersEnded rec ms s).seg k = match ms.find? fun m => m.seg == k with
      | none => s.seg k
      | some m => rec m := by
  simp [State.seg, membersEnded]

theorem membersEnded_other {rec : Member → Segment} {ms : List Member} {s : State} {k : SegNo} (h : k ∉ ms.map Member.seg) :
    (membersEnded rec ms s).seg k = s.seg k := by
  have hnone : (ms.find? fun m => m.seg == k) = none :=
    List.find?_eq_none.2 fun m hm hk => h (List.mem_map.2 ⟨m, hm, eq_of_beq hk⟩)
  rw [membersEnded_seg, hnone]

/-- In a list of members each of another segment the member of a segment is found by it. -/
theorem find_member {ms : List Member} (hn : (ms.map Member.seg).Nodup) {m : Member} (hm : m ∈ ms) :
    (ms.find? fun x => x.seg == m.seg) = some m := by
  induction ms with
  | nil => simp at hm
  | cons x ms ih =>
    rw [List.map_cons, List.nodup_cons] at hn
    rcases List.mem_cons.1 hm with rfl | hm
    · simp
    · have hne : x.seg ≠ m.seg := fun h => hn.1 (h ▸ List.mem_map_of_mem hm)
      rw [List.find?_cons_of_neg (by simpa using hne)]
      exact ih hn.2 hm

theorem membersEnded_member {rec : Member → Segment} {ms : List Member} {s : State} (hn : (ms.map Member.seg).Nodup) {m : Member}
    (hm : m ∈ ms) : (membersEnded rec ms s).seg m.seg = rec m := by
  rw [membersEnded_seg, find_member hn hm]

theorem membersEnded_nil (rec : Member → Segment) (s : State) : membersEnded rec [] s = s := by
  have hsegs : (Vector.ofFn fun k : SegNo => s.seg k) = s.segs := by
    ext i hi
    simp [State.seg]
  simp only [membersEnded, List.find?_nil, List.any_nil, Bool.and_false, captureForgotten_none, hsegs]

/-- Ending the first member and then the others ends them all. -/
theorem membersEnded_cons {rec rec' : Member → Segment} {m : Member} {ms : List Member} {s : State} (hm : m.seg ∉ ms.map Member.seg)
    (hrec : ∀ x ∈ ms, rec' x = rec x) :
    membersEnded rec' ms (memberEnded (rec m) m s) = membersEnded rec (m :: ms) s := by
  have hfind (k : SegNo) : (match ms.find? fun x => x.seg == k with
        | none => (memberEnded (rec m) m s).seg k
        | some x => rec' x) =
      match (m :: ms).find? fun x => x.seg == k with
        | none => s.seg k
        | some x => rec x := by
    by_cases hk : m.seg = k
    · subst hk
      have hnone : (ms.find? fun x => x.seg == m.seg) = none :=
        List.find?_eq_none.2 fun x hx hxk => hm (List.mem_map.2 ⟨x, hx, eq_of_beq hxk⟩)
      rw [hnone, List.find?_cons_of_pos (by simp)]
      exact seg_setSeg_self _ _ _
    · rw [List.find?_cons_of_neg (by simpa using hk)]
      cases hf : ms.find? fun x => x.seg == k with
      | none => exact seg_setSeg_other (fun h => hk h.symm) _ _
      | some x => exact hrec x (List.mem_of_find?_eq_some hf)
  have hasm : (captureForgotten (memberEnded (rec m) m s) fun k =>
        ((memberEnded (rec m) m s).seg k).discardAfter && ms.any fun x => x.seg == k) =
      captureForgotten s fun k => (s.seg k).discardAfter && (m :: ms).any fun x => x.seg == k := by
    rw [captureForgotten, memberEnded_asm, captureForgotten, Option.map_map, captureForgotten]
    congr 1
    funext a
    simp only [Function.comp_apply, Option.map_map]
    congr 2
    funext c
    simp only [Function.comp_apply]
    by_cases hk : m.seg = c.seg
    · have hany : (ms.any fun x => x.seg == c.seg) = false := by
        rw [List.any_eq_false]
        exact fun x hx hxk => hm (List.mem_map.2 ⟨x, hx, (eq_of_beq hxk).trans hk.symm⟩)
      by_cases hd : (s.seg c.seg).discardAfter = true <;> simp [hk, hd, hany]
    · have hseg : (memberEnded (rec m) m s).seg c.seg = s.seg c.seg := seg_setSeg_other (fun h => hk h.symm) _ _
      simp [hk, hseg]
  simp only [membersEnded]
  rw [hasm]
  simp only [hfind]
  rfl

/-- The records of several members, ended one after another by what ends one of them. -/
theorem foldl_membersEnded {f : State → Member → State} {rec : State → Member → Segment}
    (hf : ∀ s m, (f s m).body = (memberEnded (rec s m) m s).body)
    (hrec : ∀ s t m, t.seg m.seg = s.seg m.seg → t.engine = s.engine → rec t m = rec s m) {ms : List Member}
    (hn : (ms.map Member.seg).Nodup) (s : State) : (ms.foldl f s).body = (membersEnded (rec s) ms s).body := by
  induction ms generalizing s with
  | nil => rw [membersEnded_nil]; rfl
  | cons m ms ih =>
    rw [List.map_cons, List.nodup_cons] at hn
    have hone := hf s m
    have hother : ∀ x ∈ ms, rec (f s m) x = rec s x := by
      intro x hx
      refine hrec s (f s m) x ?_ (congrArg Body.engine hone)
      rw [seg_of_body hone]
      exact seg_setSeg_other (fun h : x.seg = m.seg => hn.1 (List.mem_map.2 ⟨x, hx, h⟩)) _ _
    have hbody : ∀ {u v : State} (r : Member → Segment), u.body = v.body → (membersEnded r ms u).body = (membersEnded r ms v).body := by
      intro u v r h
      have hseg := seg_of_body h
      have hasm : u.asm = v.asm := congrArg Body.asm h
      simp only [State.body, Body.mk.injEq] at h
      simp only [State.body, membersEnded, captureForgotten, hseg, hasm, h]
    rw [List.foldl_cons, ih hn.2, hbody _ hone, membersEnded_cons hn.1 hother]

theorem finishMembers_body {cs : List Conversion} {ms : List Member} (hn : (ms.map Member.seg).Nodup) (s : State) :
    (ms.foldl (fun s m => finishMember cs m s) s).body = (membersEnded (finishRecord cs s) ms s).body :=
  foldl_membersEnded (fun s m => finishMember_body cs m s) (fun s t m hseg he => by simp only [finishRecord, hseg, he]) hn s

theorem abortMembers_body {ms : List Member} (hn : (ms.map Member.seg).Nodup) (s : State) :
    (ms.foldl (fun s m => abortMember m s) s).body = (membersEnded (abortRecord s) ms s).body :=
  foldl_membersEnded (fun s m => by rw [abortMember_eq]) (fun s t m hseg _ => by simp only [abortRecord, hseg]) hn s

/-- What is left of the work in flight when a member ends, whether or not another member is of its segment. -/
theorem memberEnded_frame (r : Segment) (m : Member) (s : State) :
    (memberEnded r m s).asm.map Assembly.frame = s.asm.map Assembly.frame := by
  rw [memberEnded_asm, captureForgotten_frame]

end Sys2Proof.Machine

/-! ### The budget of the stroke records (R62, R83, R87) -/

namespace Sys2Proof.Machine

theorem totalCost_sublist {ms ns : List Member} (h : ms.Sublist ns) : totalCost ms ≤ totalCost ns :=
  (h.map Member.cost).sum_le_sum fun _ _ => Nat.zero_le _

theorem totalCost_untouched (ms : List Member) : totalCost (ms.map fun m => { m with touched := false }) = totalCost ms := by
  simp only [totalCost, List.map_map]
  rfl

theorem BudgetLawful.congr {s t : State} (h : BudgetLawful s) (hf : t.asm.map Assembly.frame = s.asm.map Assembly.frame)
    (hd : t.stroke.driven = s.stroke.driven) : BudgetLawful t := by
  refine ⟨fun a ha => ?_, fun d hd' => h.2 d (hd ▸ hd')⟩
  obtain ⟨b, hb, hphase, hmembers, -, -⟩ := asm_of_frame hf ha
  rw [← hphase, ← hmembers]
  exact h.1 b hb

/-- With no record and no driven stroke there is nothing to bound. -/
theorem BudgetLawful.idle {s : State} (ha : s.asm = none) (hd : s.stroke.driven = none) : BudgetLawful s :=
  ⟨fun a h => by simp [ha] at h, fun d h => by simp [hd] at h⟩

theorem BudgetLawful.setAsm {s : State} (h : BudgetLawful s) {a : Assembly}
    (ha : a.members.length ≤ 4 ∧ totalCost a.members ≤ 240 ∧ (a.phase = .armed → a.members ≠ [])) :
    BudgetLawful (setAsm (some a) s) :=
  ⟨fun _ hb => Option.some.inj hb ▸ ha, h.2⟩

theorem BudgetLawful.dropAsm {s : State} (h : BudgetLawful s) : BudgetLawful (Machine.setAsm none s) :=
  ⟨fun _ ha => (nomatch ha), h.2⟩

theorem BudgetLawful.setStroke {s : State} (h : BudgetLawful s) {u : StrokeUnit}
    (hu : ∀ d, u.driven = some d → d.members.length ≤ 4 ∧ totalCost d.members ≤ 240 ∧ d.members ≠ []) :
    BudgetLawful (Machine.setStroke u s) := ⟨h.1, hu⟩

theorem BudgetLawful.putSeg {s : State} (h : BudgetLawful s) (e : QueueEnd) (i : SegNo) (r : Segment) :
    BudgetLawful (Machine.putSeg e i r s) := h.congr (by rw [putSeg_asm]) (by rw [putSeg_stroke])

theorem budget_walkEnd {s : State} {a : Assembly} (ha : s.asm = some a) (h : BudgetLawful s) : BudgetLawful (walkEnd a s) := by
  obtain ⟨hlength, hcost, -⟩ := h.1 a ha
  unfold walkEnd
  simp only
  split
  · exact BudgetLawful.dropAsm (s := setQueue s.queue.endWalk s) h
  · rename_i hne
    exact BudgetLawful.setAsm (s := setQueue s.queue.endWalk s) h ⟨hlength, hcost, fun _ (hnil : a.members = []) => hne (by simp [hnil])⟩

theorem budget_captureStart {s : State} {a : Assembly} {i : SegNo} (ha : s.asm = some a) (h : BudgetLawful s) :
    BudgetLawful (captureStart i s) := by
  rw [captureStart_of_asm ha]
  refine BudgetLawful.putSeg (BudgetLawful.setAsm h ?_) .tail i _
  exact h.1 a ha

/-- A capture's end adds a member only within the budget (R70, R71). -/
theorem budget_captureStore {s : State} (h : BudgetLawful s) : BudgetLawful (captureStore s) := by
  rcases captureStore_cases s with heq | ⟨a, c, ha, -, ⟨-, heq⟩ | ⟨-, heq⟩⟩
  · rwa [heq]
  · rw [heq]
    obtain ⟨hlength, hcost, harmed⟩ := h.1 a ha
    refine BudgetLawful.setAsm h ?_
    cases ho : (captureOutcome a c s.engine.copy (s.seg c.seg)).2 with
    | none => simpa using ⟨hlength, hcost, harmed⟩
    | some m =>
      obtain ⟨-, -, hroom, hleft⟩ := captureOutcome_some ho
      simp only [Config.maxMembers] at hroom
      simp only [budgetLeft, Config.budget] at hleft
      have hsum : totalCost (a.members ++ [m]) = totalCost a.members + m.cost := by simp [totalCost]
      refine ⟨?_, ?_, by simp⟩
      · simp only [Option.toList_some, List.length_append, List.length_cons, List.length_nil]
        omega
      · simp only [Option.toList_some, hsum]
        omega
  · rw [heq]
    exact BudgetLawful.setAsm h (h.1 a ha)

/-- The members that a recheck keeps are some of the record's (R85, R87). -/
theorem budget_driveStart {s : State} (h : BudgetLawful s) : BudgetLawful (driveStart s) := by
  unfold driveStart
  split
  · exact h
  · rename_i a ha
    obtain ⟨hlength, hcost, -⟩ := h.1 a ha
    have hout : BudgetLawful (syncHead ((a.members.filter (dropped s)).map Member.seg)
        (setStates .stale ((a.members.filter (dropped s)).map Member.seg) (setAsm none s))) :=
      h.dropAsm.congr (by simp) (by simp)
    simp only
    split
    · exact hout
    · rename_i hkept
      have hsub : (a.members.filter fun m => !dropped s m).Sublist a.members := List.filter_sublist
      refine BudgetLawful.setStroke (hout.congr (by simp) (by simp)) fun d hd => ?_
      obtain rfl := Option.some.inj hd
      refine ⟨?_, ?_, fun hnil => hkept (by simp only at hnil; rw [hnil]; rfl)⟩
      · rw [List.length_map]
        exact hsub.length_le.trans hlength
      · rw [totalCost_untouched]
        exact (totalCost_sublist hsub).trans hcost

theorem startSense_asm (i : SegNo) (s : State) : (startSense i s).asm = s.asm := by
  simp only [startSense, grant_asm]
  split <;> simp

theorem startSense_stroke (i : SegNo) (s : State) : (startSense i s).stroke = s.stroke := by
  simp only [startSense, grant_stroke]
  split <;> simp

theorem startSweep_asm (i : SegNo) (s : State) : (startSweep i s).asm = s.asm := by simp [startSweep]

theorem startSweep_stroke (i : SegNo) (s : State) : (startSweep i s).stroke = s.stroke := by simp [startSweep]

theorem budgetRules : JudgeRules BudgetLawful where
  ends _ _ ha h := budget_walkEnd ha h
  passes _ _ _ _ h := h
  starts _ _ _ ha _ h := budget_captureStart ha h
  stores _ h := budget_captureStore h
  syncs _ _ h := h.congr (by simp) (by simp)
  opens s _ h := by
    refine BudgetLawful.setAsm (s := setQueue s.queue.startWalk s) h ?_
    simp [Assembly.started, totalCost]
  drives _ _ h := budget_driveStart h
  sweeps _ _ _ _ _ h := h.congr (by rw [startSweep_asm]) (by rw [startSweep_stroke])
  senses _ _ _ _ h := h.congr (by rw [startSense_asm]) (by rw [startSense_stroke])

/-- The record's frame and the stroke, over the ends of members. -/
theorem foldl_frame {f : State → Member → State} {rec : State → Member → Segment}
    (hf : ∀ s m, (f s m).body = (memberEnded (rec s m) m s).body) (ms : List Member) (s : State) :
    ((ms.foldl f s).asm.map Assembly.frame, (ms.foldl f s).stroke) = (s.asm.map Assembly.frame, s.stroke) := by
  refine foldl_keeps (fun u => (u.asm.map Assembly.frame, u.stroke)) (fun u m => ?_) ms s
  have hasm : (f u m).asm = (memberEnded (rec u m) m u).asm := congrArg Body.asm (hf u m)
  have hstroke : (f u m).stroke = u.stroke := congrArg Body.stroke (hf u m)
  simp only [hasm, hstroke, memberEnded_frame]

theorem budget_strokeEnd (cs : List Conversion) {s : State} (h : BudgetLawful s) : BudgetLawful (strokeEnd cs s) := by
  unfold strokeEnd
  split
  · exact h
  · rename_i d _
    obtain ⟨hframe, hstroke⟩ := Prod.mk.inj (foldl_frame (fun s m => finishMember_body cs m s) d.members s)
    have hended : BudgetLawful (d.members.foldl (fun s m => finishMember cs m s) s) := h.congr hframe (by rw [hstroke])
    refine BudgetLawful.congr (hended.setStroke (u := { s.stroke with driven := none }) fun _ hd => (nomatch hd)) (by simp) (by simp)

theorem judgeLoading_asm (s : State) : (judgeLoading s).asm = s.asm := by
  unfold judgeLoading
  split <;> rfl

theorem judgeLoading_stroke (s : State) : (judgeLoading s).stroke = s.stroke := by
  unfold judgeLoading
  split <;> rfl

theorem senseCompletes_asm (s : State) : (senseCompletes s).asm = s.asm := by
  unfold senseCompletes
  split
  · rfl
  · split <;> rfl

theorem senseCompletes_stroke (s : State) : (senseCompletes s).stroke = s.stroke := by
  unfold senseCompletes
  split
  · rfl
  · split <;> rfl

theorem noteIfDiscarded_frame (i : SegNo) (s : State) :
    (noteIfDiscarded i s).asm.map Assembly.frame = s.asm.map Assembly.frame := by
  rw [noteIfDiscarded_eq, setAsm_asm, captureForgotten_frame]

theorem noteIfDiscarded_stroke (i : SegNo) (s : State) : (noteIfDiscarded i s).stroke = s.stroke := by
  rw [noteIfDiscarded_eq]
  rfl

theorem jobEnd_sweep_frame {j : Job} {i : SegNo} (s : State) :
    (sweepEnd j i s).asm.map Assembly.frame = s.asm.map Assembly.frame ∧ (sweepEnd j i s).stroke = s.stroke := by
  unfold sweepEnd sweepTouched sweepUntouched
  rw [judgeLoading_asm, judgeLoading_stroke]
  cases j.touched <;> simp [noteIfDiscarded_frame, noteIfDiscarded_stroke]

theorem jobEnd_sense_frame {j : Job} {i : SegNo} (s : State) :
    (senseEnd j i s).asm.map Assembly.frame = s.asm.map Assembly.frame ∧ (senseEnd j i s).stroke = s.stroke := by
  unfold senseEnd senseTouched senseUntouched
  rw [senseCompletes_asm, senseCompletes_stroke]
  cases j.touched <;> simp [noteIfDiscarded_frame, noteIfDiscarded_stroke]

theorem budget_jobEnd (j : Job) {s : State} (h : BudgetLawful s) : BudgetLawful (jobEnd j s) := by
  have hfreed : BudgetLawful (freeJob s) := h
  unfold jobEnd
  simp only
  split
  · exact budget_strokeEnd _ hfreed
  · split
    · exact hfreed
    · obtain ⟨hframe, hstroke⟩ := jobEnd_sweep_frame (j := j) (freeJob s)
      exact hfreed.congr hframe (by rw [hstroke])
  · split
    · exact hfreed
    · obtain ⟨hframe, hstroke⟩ := jobEnd_sense_frame (j := j) (freeJob s)
      exact hfreed.congr hframe (by rw [hstroke])

end Sys2Proof.Machine

/-! ### The bounds over every act (O8) -/

namespace Sys2Proof.Machine

theorem budget_settleExpires {s : State} (h : BudgetLawful s) : BudgetLawful (settleExpires s) := by
  unfold settleExpires
  split
  · exact h
  · rename_i d hd
    split
    · have hmembers := h.2 d hd
      have hset : BudgetLawful (syncTail (d.members.map Member.seg) (setStates .verifying (d.members.map Member.seg) s)) :=
        h.congr (by simp) (by simp)
      exact hset.setStroke fun e he => Option.some.inj he ▸ hmembers
    · exact h

theorem budget_driveExpires {s : State} (h : BudgetLawful s) : BudgetLawful (driveExpires s) := by
  unfold driveExpires
  split
  · exact h
  · rename_i d hd
    split
    · have hmembers := h.2 d hd
      exact BudgetLawful.setStroke h fun e he => Option.some.inj he ▸ hmembers
    · exact h

theorem budget_abortDrive {s : State} (h : BudgetLawful s) : BudgetLawful (abortDrive s) := by
  unfold abortDrive
  split
  · exact h
  · rename_i d _
    split
    · obtain ⟨hframe, hstroke⟩ := Prod.mk.inj (foldl_frame (fun s m => congrArg State.body (abortMember_eq m s)) d.members s)
      have hended : BudgetLawful (d.members.foldl (fun s m => abortMember m s) s) := h.congr hframe (by rw [hstroke])
      exact BudgetLawful.congr (hended.setStroke (u := { s.stroke with driven := none, drive := .idle }) fun _ hd => (nomatch hd))
        (by simp) (by simp)
    · exact h

/-- A touched mark changes no member's cost. -/
theorem budget_touchStroke (l : LineNo) {s : State} (h : BudgetLawful s) : BudgetLawful (touchStroke l s) := by
  unfold touchStroke
  split
  · exact h
  · rename_i d hd
    obtain ⟨hlength, hcost, hne⟩ := h.2 d hd
    refine BudgetLawful.setStroke h fun e he => ?_
    obtain rfl := Option.some.inj he
    refine ⟨by simpa using hlength, ?_, by simpa using hne⟩
    refine le_of_eq_of_le ?_ hcost
    simp only [totalCost, List.map_map]
    congr 2
    funext m
    simp only [Function.comp_apply]
    split <;> rfl

theorem touchJob_asm (l : LineNo) (s : State) : (touchJob l s).asm = s.asm := by
  unfold touchJob
  split
  · rfl
  · split <;> rfl

theorem touchJob_stroke (l : LineNo) (s : State) : (touchJob l s).stroke = s.stroke := by
  unfold touchJob
  split
  · rfl
  · split <;> rfl

theorem forgetSeg_eq (i : SegNo) (s : State) :
    forgetSeg i s = setAsm (captureForgotten s fun k => i == k) (setSeg i { (s.seg i).forget with state := .unsure } s) := by
  rw [forgetSeg, noteForgotten_eq]
  rfl

/-- Members may have left the Assembler's record, and the stroke unit is as it was. -/
structure Shrinks (s t : State) : Prop where
  stroke : t.stroke = s.stroke
  asm : ∀ a, t.asm = some a → ∃ b, s.asm = some b ∧ b.phase = a.phase ∧ a.members.Sublist b.members

theorem Shrinks.of_frame {s t : State} (hs : t.stroke = s.stroke) (hf : t.asm.map Assembly.frame = s.asm.map Assembly.frame) :
    Shrinks s t :=
  ⟨hs, fun a ha => by
    obtain ⟨b, hb, hphase, hmembers, -, -⟩ := asm_of_frame hf ha
    exact ⟨b, hb, hphase, hmembers ▸ List.Sublist.refl _⟩⟩

theorem Shrinks.trans {s t u : State} (h : Shrinks s t) (k : Shrinks t u) : Shrinks s u :=
  ⟨k.stroke.trans h.stroke, fun a ha => by
    obtain ⟨b, hb, hab, hsub⟩ := k.asm a ha
    obtain ⟨c, hc, hbc, hsub'⟩ := h.asm b hb
    exact ⟨c, hc, hbc.trans hab, hsub.trans hsub'⟩⟩

theorem shrinks_forgetSeg (i : SegNo) (s : State) : Shrinks s (forgetSeg i s) := by
  rw [forgetSeg_eq]
  exact .of_frame rfl (by rw [setAsm_asm, captureForgotten_frame])

theorem shrinks_removeMember (i : SegNo) (s : State) : Shrinks s (removeMember i s) := by
  unfold removeMember
  split
  · exact .of_frame rfl rfl
  · rename_i a ha
    exact ⟨rfl, fun b hb => Option.some.inj hb ▸ ⟨a, ha, rfl, List.filter_sublist⟩⟩

theorem shrinks_discardSeg (s : State) (i : SegNo) : Shrinks s (discardSeg i s) := by
  have hset : Shrinks s (setSeg i { s.seg i with discardAfter := true } s) := .of_frame rfl rfl
  have hforget := shrinks_forgetSeg i s
  unfold discardSeg
  cases (s.seg i).state with
  | clean => exact hforget
  | stale => exact hforget
  | unsure => exact hforget
  | capturing => exact hforget
  | member => exact hforget.trans (shrinks_removeMember i _)
  | moving => exact hset
  | verifying => exact hset
  | sensing => exact hset
  | faulted => exact .of_frame rfl rfl

theorem shrinks_discardSegs (is : List SegNo) (s : State) : Shrinks s (is.foldl (fun s i => discardSeg i s) s) := by
  induction is generalizing s with
  | nil => exact .of_frame rfl rfl
  | cons i is ih => exact (shrinks_discardSeg s i).trans (ih _)

/-- An ARMED record that members have left keeps one, or is dropped (R78). -/
theorem budget_dropEmptyRecord {s t : State} (h : BudgetLawful s) (hst : Shrinks s t) : BudgetLawful (dropEmptyRecord t) := by
  have hdriven : ∀ d, t.stroke.driven = some d → d.members.length ≤ 4 ∧ totalCost d.members ≤ 240 ∧ d.members ≠ [] :=
    fun d hd => h.2 d (hst.stroke ▸ hd)
  unfold dropEmptyRecord
  split
  · rename_i ha
    exact ⟨fun a ha' => by simp [ha] at ha', hdriven⟩
  · rename_i a ha
    split
    · exact ⟨fun _ hb => (nomatch hb), hdriven⟩
    · rename_i hne
      obtain ⟨b, hb, -, hsub⟩ := hst.asm a ha
      obtain ⟨hlength, hcost, -⟩ := h.1 b hb
      refine ⟨fun a' ha' => ?_, hdriven⟩
      obtain rfl := Option.some.inj (ha.symm.trans ha')
      exact ⟨hsub.length_le.trans hlength, (totalCost_sublist hsub).trans hcost, fun harmed hnil => hne ⟨harmed, by simp [hnil]⟩⟩

theorem budget_discardEffect (is : List SegNo) {s : State} (h : BudgetLawful s) : BudgetLawful (discardEffect is s) :=
  budget_dropEmptyRecord h ((shrinks_discardSegs is s).trans (.of_frame (syncTail_stroke _ _) (by rw [syncTail_asm])))

theorem stopStroke_driven (s : State) : (stopStroke s).stroke.driven = none := by
  unfold stopStroke
  split
  · assumption
  · simp only
    split <;> rfl

theorem stopEffect_asm (s : State) : (stopEffect s).asm = none := by
  unfold stopEffect
  simp only [giveResult_asm, requestSilence_asm]

theorem stopEffect_driven (s : State) : (stopEffect s).stroke.driven = none := by
  unfold stopEffect
  simp only [giveResult_stroke, requestSilence_stroke]
  exact stopStroke_driven _

theorem offerConsumer_asm (v : BitVec 8) (s : State) : (offerConsumer v s).asm = s.asm := by
  unfold offerConsumer
  split <;> rfl

theorem offerConsumer_stroke (v : BitVec 8) (s : State) : (offerConsumer v s).stroke = s.stroke := by
  unfold offerConsumer
  split <;> rfl

theorem Act.budget {cmd : Instr} {s t : State} (h : Act cmd s t) (hs : BudgetLawful s) : BudgetLawful t := by
  cases h with
  | same h => exact hs.congr (by rw [h.asm]) h.driven
  | judged => exact budgetRules.judge hs
  | written buf k bad i _ => exact hs.putSeg .tail i _
  | marked buf k _ _ => exact hs.putSeg .tail _ _
  | read ha _ d _ _ =>
    have hmembers := hs.1 _ ha
    exact BudgetLawful.setAsm hs hmembers
  | captureEnds _ _ _ => exact budgetRules.captureEnd (budget_captureStore hs)
  | settleExpires => exact budget_settleExpires hs
  | driveExpires => exact budget_driveExpires hs
  | value _ _ c g _ _ _ _ _ _ _ => exact hs
  | jobEnds _ _ _ g _ _ _ _ => exact budget_jobEnd g hs
  | abortDrive => exact budget_abortDrive hs
  | touchStroke l => exact budget_touchStroke l hs
  | touchJob l => exact hs.congr (by rw [touchJob_asm]) (by rw [touchJob_stroke])
  | opened _ => exact hs
  | stopped _ => exact .idle (stopEffect_asm s) (stopEffect_driven s)
  | shown _ named => exact hs.congr (by rw [showParts, syncTail_asm]) (by rw [showParts, syncTail_stroke])
  | held _ b is => exact hs.congr (by simp) (by simp)
  | cleared _ is => exact hs.congr (by simp) (by simp)
  | discarded _ is => exact budget_discardEffect is hs
  | promoted _ _ a => exact hs
  | sensed _ _ r => exact hs
  | refusedDescriptor _ off => exact hs
  | accepted _ _ d => exact hs.congr (by rw [syncTail_asm]; rfl) (by rw [syncTail_stroke]; rfl)
  | loaded => exact hs.congr (by rw [judgeLoading_asm]) (by rw [judgeLoading_stroke])
  | offered v => exact hs.congr (by rw [offerConsumer_asm]) (by rw [offerConsumer_stroke])
  | reset strap => exact .idle rfl rfl

end Sys2Proof.Machine

namespace Sys2Proof.Machine

theorem RingLawful.congr {s t : State} (h : RingLawful s)
    (hr : t.events.producer = s.events.producer ∧ t.events.consumer = s.events.consumer) : RingLawful t := by
  obtain ⟨hp, hc⟩ := hr
  rw [RingLawful, hp, hc]
  exact h

theorem RingLawful.of_still {s t : State} (h : RingLawful s) (hst : t.still = s.still) : RingLawful t :=
  h.congr ⟨by rw [still_events hst], by rw [still_events hst]⟩

theorem RingLawful.of_shape {s t : State} (h : RingLawful s) (hst : t.shape = s.shape) : RingLawful t :=
  h.congr ⟨congrArg Shape.producer hst, congrArg Shape.consumer hst⟩

theorem RingLawful.of_firm {s t : State} (h : RingLawful s) (hst : t.firm = s.firm) : RingLawful t :=
  h.congr ⟨congrArg Firm.producer hst, congrArg Firm.consumer hst⟩

/-- One more record is unconsumed after one is published. -/
theorem unconsumed_succ {p c : BitVec 8} (h : unconsumed p c < 64) : unconsumed (p + 1) c = unconsumed p c + 1 := by
  unfold unconsumed at *
  bv_omega

theorem ring_requestRecord (f : FaultRecord) {s : State} (h : RingLawful s) : RingLawful (requestRecord f s) := by
  unfold requestRecord
  simp only
  split
  · rename_i hroom
    have hring : RingLawful { postAll (recordPosts s.events.producer f) (raise .faultNew s) with
        events := { (postAll (recordPosts s.events.producer f) (raise .faultNew s)).events with producer := s.events.producer + 1 } } := by
      have hfew : unconsumed s.events.producer s.events.consumer < 64 := hroom
      simp only [RingLawful, postAll_events, raise_events, unconsumed_succ hfew]
      omega
    exact hring.congr ⟨by simp, by simp⟩
  · exact h

theorem ring_reportFault (f : FaultRecord) {s : State} (h : RingLawful s) : RingLawful (reportFault f s) :=
  (ring_requestRecord f h).of_firm (requestFaultTone_firm _)

theorem foldl_preserves {α : Type} {P : State → Prop} {f : State → α → State} (h : ∀ s x, P s → P (f s x)) (l : List α) {s : State}
    (hs : P s) : P (l.foldl f s) := by
  induction l generalizing s with
  | nil => exact hs
  | cons x l ih => exact ih (h s x hs)

theorem ring_finishMember (cs : List Conversion) (m : Member) {s : State} (h : RingLawful s) : RingLawful (finishMember cs m s) := by
  have hnote : RingLawful (if (s.seg m.seg).discardAfter then noteForgotten m.seg s else s) := by
    rw [noteIf_eq]
    exact h
  unfold finishMember
  simp only
  split
  · exact hnote
  · exact foldl_preserves (fun u f hu => ring_reportFault f hu) _ hnote

theorem ring_strokeEnd (cs : List Conversion) {s : State} (h : RingLawful s) : RingLawful (strokeEnd cs s) := by
  unfold strokeEnd
  split
  · exact h
  · rename_i d _
    have hended : RingLawful (d.members.foldl (fun s m => finishMember cs m s) s) :=
      foldl_preserves (fun u m hu => ring_finishMember cs m hu) _ h
    exact hended.of_still (by simp)

theorem ring_judgeLoading {s : State} (h : RingLawful s) : RingLawful (judgeLoading s) := by
  unfold judgeLoading
  split
  · exact h
  · exact h

theorem ring_senseCompletes {s : State} (h : RingLawful s) : RingLawful (senseCompletes s) := by
  unfold senseCompletes
  split
  · exact h
  · split
    · exact h
    · exact h

theorem ring_jobEnd (j : Job) {s : State} (h : RingLawful s) : RingLawful (jobEnd j s) := by
  have hfreed : RingLawful (freeJob s) := h
  unfold jobEnd
  simp only
  split
  · exact ring_strokeEnd _ hfreed
  · split
    · exact hfreed
    · refine ring_judgeLoading (hfreed.of_still ?_)
      split <;> simp
  · split
    · exact hfreed
    · rename_i i _ _
      refine ring_senseCompletes ?_
      split
      · exact hfreed.of_still (by simp)
      · exact RingLawful.of_still (s := postAll (imagePosts i ((freeJob s).seg i) j.results) (freeJob s))
          (hfreed.of_shape (postAll_shape _ _)) (by simp [senseUntouched])

theorem ring_stopEffect {s : State} (h : RingLawful s) : RingLawful (stopEffect s) := by
  have hstroke : RingLawful (stopStroke (abortResults s)) := (h.of_shape (abortResults_shape s)).of_still (stopStroke_still _)
  unfold stopEffect
  exact hstroke.congr ⟨by simp, by simp⟩

theorem ringLawful_zero {s : State} (hp : s.events.producer = 0) (hc : s.events.consumer = 0) : RingLawful s := by
  simp [RingLawful, unconsumed, hp, hc]

theorem ring_offerConsumer (v : BitVec 8) {s : State} (h : RingLawful s) : RingLawful (offerConsumer v s) := by
  unfold offerConsumer
  split
  · assumption
  · exact h

theorem Act.ring {cmd : Instr} {s t : State} (h : Act cmd s t) (hs : RingLawful s) : RingLawful t := by
  cases h with
  | same h => exact hs.congr h.ring
  | judged => exact hs.of_still (judge_still s)
  | written buf k bad i _ => exact hs.of_still (putSeg_still _ _ _ s)
  | marked buf k _ _ => exact hs.of_still (putSeg_still _ _ _ s)
  | read _ _ d _ _ => exact hs
  | captureEnds _ _ _ => exact hs.of_still (captureEnd_still _ s)
  | settleExpires => exact hs.of_still (settleExpires_still s)
  | driveExpires => exact hs.of_still (driveExpires_still s)
  | value _ _ c g _ _ _ _ _ _ _ => exact hs
  | jobEnds _ _ _ g _ _ _ _ => exact ring_jobEnd g hs
  | abortDrive => exact hs.of_still (abortDrive_still s)
  | touchStroke l => exact hs.of_still (touchStroke_still l s)
  | touchJob l => exact hs.of_still (touchJob_still l s)
  | opened _ => exact hs
  | stopped _ => exact ring_stopEffect hs
  | shown _ named => exact hs.congr ⟨by simp [showParts], by simp [showParts]⟩
  | held _ b is => exact hs.of_still (by simp)
  | cleared _ is => exact hs.of_still (by simp)
  | discarded _ is => exact hs.of_still (discardEffect_still is s)
  | promoted _ _ a => exact hs
  | sensed _ _ r => exact hs
  | refusedDescriptor _ off => exact hs
  | accepted _ _ d =>
    have hzero : RingLawful (acceptRecords d s) := ringLawful_zero rfl rfl
    exact hzero.of_still (syncTail_still _ _)
  | loaded => exact ring_judgeLoading hs
  | offered v => exact ring_offerConsumer v hs
  | reset strap => exact ringLawful_zero rfl rfl

/-- Settles O8: each of the three laws is kept by every act, and a step is a course of acts. -/
theorem boundsKept : Obligations.BoundsKept := by
  unfold Obligations.BoundsKept
  refine ⟨fun s t hs h => ?_, fun s t hs h => ?_, fun s t hs h => ?_⟩
  case refine_1 => exact step_keeps_work (fun _ _ _ hu ha => ha.budget hu) hs h
  case refine_2 => exact step_keeps_work (fun _ _ _ hu ha => ha.ring hu) hs h
  case refine_3 => exact step_keeps_work (fun _ _ _ hu ha => ha.faultLists hu) hs h

end Sys2Proof.Machine

/-! ### The rules of the work in flight (R20, R62, R83, R112) -/

namespace Sys2Proof.Machine

/-- What the laws of the work say of a driven stroke: its phase and its segments. -/
def Driven.frame (d : Driven) : StrokePhase × List SegNo := (d.phase, d.members.map Member.seg)

/-- What the laws of the work say of a job: its kind, its segments and the state it began in. -/
def Job.hold (j : Job) : JobKind × List SegNo × SegState := (j.kind, j.segs, j.before)

theorem driven_of_frame {o p : Option Driven} {d : Driven} (h : p.map Driven.frame = o.map Driven.frame) (hd : p = some d) :
    ∃ e, o = some e ∧ e.phase = d.phase ∧ e.members.map Member.seg = d.members.map Member.seg := by
  subst hd
  cases o with
  | none => simp at h
  | some e =>
    simp only [Option.map_some, Option.some.injEq, Driven.frame, Prod.mk.injEq] at h
    exact ⟨e, rfl, h.1.symm, h.2.symm⟩

theorem job_of_hold {o p : Option Job} {j : Job} (h : p.map Job.hold = o.map Job.hold) (hj : p = some j) :
    ∃ k, o = some k ∧ k.kind = j.kind ∧ k.segs = j.segs ∧ k.before = j.before := by
  subst hj
  cases o with
  | none => simp at h
  | some k =>
    simp only [Option.map_some, Option.some.injEq, Job.hold, Prod.mk.injEq] at h
    obtain ⟨hkind, hsegs, hbefore⟩ := h
    exact ⟨k, rfl, hkind.symm, hsegs.symm, hbefore.symm⟩

/-- A change of a segment's state that no work in flight minds: of a segment that no stroke record and no job holds, or CLEAR_FAULTS on one
that a SENSE job reads (R122). -/
def Moves (st u : SegState) : Prop := u = st ∨ st = .clean ∨ st = .stale ∨ st = .capturing ∨ st = .faulted ∧ u = .unsure

theorem Moves.refl (st : SegState) : Moves st st := .inl rfl

theorem Moves.trans {st u v : SegState} (h : Moves st u) (k : Moves u v) : Moves st v := by
  rcases h with rfl | rfl | rfl | rfl | ⟨rfl, rfl⟩
  · exact k
  · exact .inr (.inl rfl)
  · exact .inr (.inr (.inl rfl))
  · exact .inr (.inr (.inr (.inl rfl)))
  · rcases k with rfl | h | h | h | h
    · exact .inr (.inr (.inr (.inr ⟨rfl, rfl⟩)))
    · simp at h
    · simp at h
    · simp at h
    · simp at h

/-- A segment in a state of work keeps it. -/
theorem Moves.kept {st u v : SegState} (h : Moves st u) (hst : st = v) (hv : v = .member ∨ v = .moving ∨ v = .verifying ∨ v = .sensing ∨ v = .unsure) :
    u = v := by
  subst hst
  rcases h with h | rfl | rfl | rfl | ⟨rfl, -⟩
  · exact h
  all_goals simp at hv

/-- Every segment's state is as it was, or has changed in a way that no work in flight minds. -/
abbrev AllMove (s t : State) : Prop := SegRel (fun r u => Moves r.state u.state) s t

theorem AllMove.of_segs {s t : State} (h : t.segs = s.segs) : AllMove s t := SegRel.of_segs (fun _ => .refl _) h

theorem AllMove.trans {s t u : State} (h : AllMove s t) (k : AllMove t u) : AllMove s u :=
  SegRel.trans (R := fun r u => Moves r.state u.state) (fun _ _ _ => Moves.trans) h k

theorem allMove_setSeg {i : SegNo} {r : Segment} {s : State} (h : Moves (s.seg i).state r.state) : AllMove s (setSeg i r s) :=
  SegRel.setSeg (fun _ => .refl _) h

theorem allMove_putSeg {e : QueueEnd} {i : SegNo} {r : Segment} {s : State} (h : Moves (s.seg i).state r.state) :
    AllMove s (putSeg e i r s) :=
  (allMove_setSeg h).trans (.of_segs (sync_segs e i _))

theorem allMove_foldl {α : Type} {f : State → α → State} (h : ∀ s x, AllMove s (f s x)) (l : List α) (s : State) :
    AllMove s (l.foldl f s) :=
  SegRel.foldl (R := fun r u => Moves r.state u.state) (fun _ => .refl _) (fun _ _ _ => Moves.trans) h l s

theorem allMove_mapSegs {f : Segment → Segment} (h : ∀ r, Moves r.state (f r).state) (is : List SegNo) (s : State) :
    AllMove s (mapSegs f is s) :=
  allMove_foldl (f := fun s i => setSeg i (f (s.seg i)) s) (fun _ _ => allMove_setSeg (h _)) is s

theorem JobLawful.moved {s t : State} {j k : Job} (h : JobLawful s k) (hk : k.kind = j.kind ∧ k.segs = j.segs ∧ k.before = j.before)
    (hd : t.stroke.driven.map Driven.frame = s.stroke.driven.map Driven.frame) (hseg : AllMove s t) : JobLawful t j := by
  obtain ⟨hkind, hsegs, hbefore⟩ := hk
  unfold JobLawful at h ⊢
  rw [hkind, hsegs, hbefore] at h
  cases hj : j.kind with
  | verify =>
    rw [hj] at h
    obtain ⟨d, hds, hphase, hms⟩ := h
    obtain ⟨e, he, hphase', hms'⟩ := driven_of_frame hd.symm hds
    exact ⟨e, he, hphase'.trans hphase, hms.trans hms'.symm⟩
  | sweep =>
    rw [hj] at h
    obtain ⟨i, hi, hstate⟩ := h
    exact ⟨i, hi, (hseg i).kept hstate (by simp)⟩
  | sense =>
    rw [hj] at h
    obtain ⟨i, hi, hstate⟩ := h
    refine ⟨i, hi, ?_⟩
    rcases hstate with hstate | ⟨hb, hstate | hstate⟩
    · exact .inl ((hseg i).kept hstate (by simp))
    · refine .inr ⟨hb, ?_⟩
      rcases hseg i with h | h | h | h | ⟨-, h⟩
      · exact .inl (h.trans hstate)
      · simp [hstate] at h
      · simp [hstate] at h
      · simp [hstate] at h
      · exact .inr h
    · exact .inr ⟨hb, .inr ((hseg i).kept hstate (by simp))⟩

/-- The Assembler's record agrees with the segment states: the first part of the law. -/
def AsmAgrees (s : State) (a : Assembly) : Prop :=
  (a.members.map Member.seg).Nodup ∧ (∀ m ∈ a.members, (s.seg m.seg).state = .member) ∧ ∀ c, a.capture = some c → c.seg ∈ a.captured

theorem AsmAgrees.moved {s t : State} {a b : Assembly} (h : AsmAgrees s b) (hm : b.members = a.members) (hc : b.captured = a.captured)
    (hcap : b.capture.map Capture.seg = a.capture.map Capture.seg)
    (hseg : ∀ k, (s.seg k).state = .member → (t.seg k).state = .member) : AsmAgrees t a := by
  obtain ⟨hnodup, hstate, hcapture⟩ := h
  refine ⟨hm ▸ hnodup, fun m hma => hseg _ (hstate m (hm ▸ hma)), fun c hca => ?_⟩
  rw [hca] at hcap
  obtain ⟨d, hd, hdc⟩ := Option.map_eq_some_iff.1 hcap
  rw [← hdc, ← hc]
  exact hcapture d hd

theorem asmAgrees_of_frame {s t : State} (h : WorkLawful s) (hf : t.asm.map Assembly.frame = s.asm.map Assembly.frame)
    (hseg : ∀ k, (s.seg k).state = .member → (t.seg k).state = .member) (a : Assembly) (ha : t.asm = some a) : AsmAgrees t a := by
  obtain ⟨b, hb, -, hm, hc, hcap⟩ := asm_of_frame hf ha
  exact AsmAgrees.moved (h.1 b hb) hm hc hcap hseg

/-- The same work in flight, over segments whose changes no work minds. -/
theorem WorkLawful.moved {s t : State} (h : WorkLawful s) (hf : t.asm.map Assembly.frame = s.asm.map Assembly.frame)
    (hd : t.stroke.driven.map Driven.frame = s.stroke.driven.map Driven.frame)
    (hj : t.conv.job.map Job.hold = s.conv.job.map Job.hold) (hc : t.conv.state = s.conv.state) (hseg : AllMove s t)
    (hrest : queuesRun t.engine = false → queuesRun s.engine = false ∧ t.conv.sense = s.conv.sense ∧ t.queue.entries = s.queue.entries) :
    WorkLawful t := by
  obtain ⟨-, hdriven, hjob, hidle⟩ := id h
  have hnone : s.conv.job = none → t.conv.job = none := fun hn => by simpa [hn] using hj
  refine ⟨asmAgrees_of_frame h hf fun k hk => (hseg k).kept hk (by simp), fun d ht => ?_, fun j ht => ?_, fun hrun => ?_⟩
  · obtain ⟨e, he, hphase, hms⟩ := driven_of_frame hd ht
    obtain ⟨hnodup, hstate, hquiet, hverify⟩ := hdriven e he
    refine ⟨hms ▸ hnodup, fun m hm => ?_, fun hp => hnone (hquiet (hphase ▸ hp)), fun hp => ?_⟩
    · obtain ⟨m', hm', hmm⟩ := List.mem_map.1 (hms ▸ List.mem_map_of_mem hm : m.seg ∈ e.members.map Member.seg)
      have hold := hstate m' hm'
      rw [hmm, hphase] at hold
      exact (hseg m.seg).kept hold (by cases d.phase <;> simp [StrokePhase.memberState])
    · obtain ⟨k, hk, hkind⟩ := hverify (hphase.trans hp)
      obtain ⟨j, hj', hjk, -⟩ := job_of_hold hj.symm hk
      exact ⟨j, hj', hjk.trans hkind⟩
  · obtain ⟨k, hk, hhold⟩ := job_of_hold hj ht
    obtain ⟨hconv, hlawful⟩ := hjob k hk
    exact ⟨hc.trans hconv, hlawful.moved hhold hd hseg⟩
  · obtain ⟨hrun', hsense, hq⟩ := hrest hrun
    obtain ⟨ha, hdr, hjn, hsn, hqn⟩ := hidle hrun'
    exact ⟨by simpa [ha] using hf, by simpa [hdr] using hd, hnone hjn, hsense.trans hsn, hq.trans hqn⟩

/-- No work in flight. -/
theorem WorkLawful.idle {s : State} (ha : s.asm = none) (hd : s.stroke.driven = none) (hj : s.conv.job = none)
    (hrest : queuesRun s.engine = false → s.conv.sense = none ∧ s.queue.entries = []) : WorkLawful s :=
  ⟨fun a h => by simp [ha] at h, fun d h => by simp [hd] at h, fun j h => by simp [hj] at h, fun h => ⟨ha, hd, hj, hrest h⟩⟩

/-- With the Assembler's record replaced by one that agrees with the segment states, or dropped. -/
theorem WorkLawful.withAsm {s : State} (h : WorkLawful s) (hrun : queuesRun s.engine = true) {o : Option Assembly}
    (ho : ∀ a, o = some a → AsmAgrees s a) : WorkLawful (setAsm o s) := by
  obtain ⟨-, hdriven, hjob, -⟩ := h
  exact ⟨ho, hdriven, hjob, fun hr => absurd (hrun.symm.trans hr) (by simp)⟩

/-- No stroke is driven, and a job that runs is lawful. -/
theorem WorkLawful.undriven {s t : State} (h : WorkLawful s) (hf : t.asm.map Assembly.frame = s.asm.map Assembly.frame)
    (hd : t.stroke.driven = none) (hj : ∀ j, t.conv.job = some j → t.conv.state = .converting ∧ JobLawful t j)
    (hrun : queuesRun t.engine = true) (hseg : ∀ k, (s.seg k).state = .member → (t.seg k).state = .member) : WorkLawful t :=
  ⟨asmAgrees_of_frame h hf hseg, fun d ht => by simp [hd] at ht, hj, fun hr => absurd (hrun.symm.trans hr) (by simp)⟩

/-- In RUNNING, PAUSED and LOADING after acceptance, as wherever something is in flight. -/
theorem runs_of_asm {s : State} (h : WorkLawful s) {a : Assembly} (ha : s.asm = some a) : queuesRun s.engine = true := by
  obtain ⟨-, -, -, hidle⟩ := h
  by_contra hr
  obtain ⟨hn, -⟩ := hidle (by simpa using hr)
  simp [hn] at ha

theorem runs_of_driven {s : State} (h : WorkLawful s) {d : Driven} (hd : s.stroke.driven = some d) : queuesRun s.engine = true := by
  obtain ⟨-, -, -, hidle⟩ := h
  by_contra hr
  obtain ⟨-, hn, -⟩ := hidle (by simpa using hr)
  simp [hn] at hd

theorem runs_of_job {s : State} (h : WorkLawful s) {j : Job} (hj : s.conv.job = some j) : queuesRun s.engine = true := by
  obtain ⟨-, -, -, hidle⟩ := h
  by_contra hr
  obtain ⟨-, -, hn, -⟩ := hidle (by simpa using hr)
  simp [hn] at hj

/-- A SWEEP or a SENSE job runs over no driven stroke (R112). -/
theorem undriven_of_job {s : State} (h : WorkLawful s) {j : Job} (hj : s.conv.job = some j) (hk : j.kind ≠ .verify) :
    s.stroke.driven = none := by
  obtain ⟨-, hdriven, -, -⟩ := h
  cases hd : s.stroke.driven with
  | none => rfl
  | some d =>
    obtain ⟨-, -, hquiet, hverify⟩ := hdriven d hd
    by_cases hp : d.phase = .verify
    · obtain ⟨k, hk', hkind⟩ := hverify hp
      rw [hj] at hk'
      exact absurd (Option.some.inj hk' ▸ hkind) hk
    · exact absurd (hquiet hp) (by simp [hj])

/-- A grant finds no driven stroke and no job (R112). -/
theorem mayGrant_free {s : State} (h : WorkLawful s) (hg : mayGrant s = true) :
    s.stroke.driven = none ∧ s.conv.job = none ∧ s.conv.state = .standby := by
  simp only [mayGrant, Bool.and_eq_true, beq_iff_eq, Option.isNone_iff_eq_none] at hg
  obtain ⟨⟨⟨hstandby, hjob⟩, hpulse⟩, -⟩ := hg
  refine ⟨?_, hjob, hstandby⟩
  cases hd : s.stroke.driven with
  | none => rfl
  | some d =>
    have hp : d.phase = .verify := by simpa [pulseQuiet, hd] using hpulse
    obtain ⟨-, hdriven, -, -⟩ := h
    obtain ⟨-, -, -, hverify⟩ := hdriven d hd
    obtain ⟨k, hk, -⟩ := hverify hp
    simp [hjob] at hk

/-- With nothing in flight and nothing queued nothing starts. -/
theorem judge_idle {s : State} (h : WorkLawful s) (hrun : queuesRun s.engine = false) : judge s = s := by
  obtain ⟨-, -, -, hidle⟩ := h
  obtain ⟨-, -, -, hsense, hq⟩ := hidle hrun
  have hstate : s.engine.state ≠ .running := fun he => by simp [queuesRun, he] at hrun
  rw [judge_notRunning hstate, judgeGrant, hq]
  simp [sensePick, hsense]

end Sys2Proof.Machine

/-! ### The equations of drives, captures and jobs -/

namespace Sys2Proof.Machine

theorem driveReady_iff (s : State) : driveReady s = true ↔
    (∃ a, s.asm = some a ∧ a.phase = .armed) ∧ s.stroke.driven = none ∧ s.stroke.chargeReady = true ∧ s.gate.state = .opened ∧
      s.engine.state = .running ∧ s.conv.job = none := by
  cases ha : s.asm <;> simp [driveReady, ha, and_assoc]

theorem setStates_seg (st : SegState) (is : List SegNo) (s : State) (k : SegNo) :
    (setStates st is s).seg k = if k ∈ is then { s.seg k with state := st } else s.seg k := by
  induction is generalizing s with
  | nil => simp [setStates]
  | cons i is ih =>
    have hstep : setStates st (i :: is) s = setStates st is (setSeg i { s.seg i with state := st } s) := rfl
    rw [hstep, ih, seg_setSeg]
    by_cases hk : k = i
    · subst hk
      simp
    · simp [hk]

/-- The four outcomes of a capture of a segment still CAPTURING, the last one by whether it fits (R68 to R72). -/
theorem captureOutcome_cases (a : Assembly) (c : Capture) (d : Descriptor) (r : Segment) :
    let u : Segment := { r with target := some (c.target d) }
    (c.badRead = true ∧ captureOutcome a c d r = ({ r with target := none, state := .stale }, none)) ∨
    (c.badRead = false ∧ r.dirty = true ∧ captureOutcome a c d r = ({ u with state := .stale }, none)) ∨
    (c.badRead = false ∧ r.dirty = false ∧ changeSet u = 0 ∧ captureOutcome a c d r = ({ u with state := .clean }, none)) ∨
    (c.badRead = false ∧ r.dirty = false ∧ changeSet u ≠ 0 ∧
      (a.members.length < Config.maxMembers ∧ costOf (raiseSet u) (lowerSet u) ≤ budgetLeft a) ∧
      captureOutcome a c d r = ({ u with state := .member }, some ⟨c.seg, raiseSet u, lowerSet u, false⟩)) ∨
    (c.badRead = false ∧ r.dirty = false ∧ changeSet u ≠ 0 ∧
      ¬(a.members.length < Config.maxMembers ∧ costOf (raiseSet u) (lowerSet u) ≤ budgetLeft a) ∧
      captureOutcome a c d r = ({ u with state := .stale }, none)) := by
  intro u
  have hdef : captureOutcome a c d r =
      if c.badRead then ({ r with target := none, state := .stale }, none)
      else if r.dirty then ({ u with state := .stale }, none)
      else if changeSet u = 0 then ({ u with state := .clean }, none)
      else if a.members.length < Config.maxMembers ∧ costOf (raiseSet u) (lowerSet u) ≤ budgetLeft a then
        ({ u with state := .member }, some ⟨c.seg, raiseSet u, lowerSet u, false⟩)
      else ({ u with state := .stale }, none) := rfl
  by_cases hbad : c.badRead = true
  · exact .inl ⟨hbad, by rw [hdef, if_pos hbad]⟩
  rw [if_neg hbad] at hdef
  have hgood := Bool.eq_false_iff.2 hbad
  by_cases hdirty : r.dirty = true
  · exact .inr (.inl ⟨hgood, hdirty, by rw [hdef, if_pos hdirty]⟩)
  rw [if_neg hdirty] at hdef
  have hquiet := Bool.eq_false_iff.2 hdirty
  by_cases hchange : changeSet u = 0
  · exact .inr (.inr (.inl ⟨hgood, hquiet, hchange, by rw [hdef, if_pos hchange]⟩))
  rw [if_neg hchange] at hdef
  by_cases hfits : a.members.length < Config.maxMembers ∧ costOf (raiseSet u) (lowerSet u) ≤ budgetLeft a
  · exact .inr (.inr (.inr (.inl ⟨hgood, hquiet, hchange, hfits, by rw [hdef, if_pos hfits]⟩)))
  · exact .inr (.inr (.inr (.inr ⟨hgood, hquiet, hchange, hfits, by rw [hdef, if_neg hfits]⟩)))

/-- A capture that gives a member makes its segment MEMBER. -/
theorem captureOutcome_member {a : Assembly} {c : Capture} {d : Descriptor} {r : Segment} {m : Member}
    (h : (captureOutcome a c d r).2 = some m) : m.seg = c.seg ∧ (captureOutcome a c d r).1.state = .member := by
  rcases captureOutcome_cases a c d r with ⟨-, ho⟩ | ⟨-, -, ho⟩ | ⟨-, -, -, ho⟩ | ⟨-, -, -, -, ho⟩ | ⟨-, -, -, -, ho⟩
  · simp [ho] at h
  · simp [ho] at h
  · simp [ho] at h
  · rw [ho] at h ⊢
    obtain rfl := Option.some.inj h
    exact ⟨rfl, rfl⟩
  · simp [ho] at h

theorem judgeLoading_runs (s : State) : queuesRun (judgeLoading s).engine = queuesRun s.engine := by
  unfold judgeLoading
  split
  · rename_i h
    obtain ⟨hloading, hreading, -⟩ := h
    simp [queuesRun, hloading, hreading]
  · rfl

theorem judgeLoading_conv (s : State) : (judgeLoading s).conv = s.conv := by
  unfold judgeLoading
  split <;> rfl

theorem judgeLoading_queue (s : State) : (judgeLoading s).queue = s.queue := by
  unfold judgeLoading
  split <;> rfl

theorem senseCompletes_job (s : State) : (senseCompletes s).conv.job = s.conv.job := by
  unfold senseCompletes
  split
  · rfl
  · split <;> rfl

theorem senseCompletes_engine (s : State) : (senseCompletes s).engine = s.engine := by
  unfold senseCompletes
  split
  · rfl
  · split <;> rfl

end Sys2Proof.Machine

/-! ### The work in flight over walks, drives and grants -/

namespace Sys2Proof.Machine

/-- The law of the work in flight, where the queue runs. -/
structure WorkRuns (s : State) : Prop where
  work : WorkLawful s
  runs : queuesRun s.engine = true

theorem WorkRuns.moved {s t : State} (h : WorkRuns s) (hf : t.asm.map Assembly.frame = s.asm.map Assembly.frame)
    (hd : t.stroke.driven.map Driven.frame = s.stroke.driven.map Driven.frame)
    (hj : t.conv.job.map Job.hold = s.conv.job.map Job.hold) (hc : t.conv.state = s.conv.state) (hseg : AllMove s t)
    (he : queuesRun t.engine = queuesRun s.engine) : WorkRuns t :=
  ⟨h.work.moved hf hd hj hc hseg fun hr => absurd (h.runs.symm.trans (he.symm.trans hr)) (by simp), he.trans h.runs⟩

theorem WorkRuns.withAsm {s : State} (h : WorkRuns s) {o : Option Assembly} (ho : ∀ a, o = some a → AsmAgrees s a) :
    WorkRuns (setAsm o s) := ⟨h.work.withAsm h.runs ho, h.runs⟩

theorem work_walkEnd {s : State} {a : Assembly} (ha : s.asm = some a) (h : WorkRuns s) : WorkRuns (walkEnd a s) := by
  have hqueue : WorkRuns (setQueue s.queue.endWalk s) := h.moved rfl rfl rfl rfl (.of_segs rfl) rfl
  obtain ⟨hnodup, hstate, -⟩ := h.work.1 a ha
  unfold walkEnd
  simp only
  split
  · exact hqueue.withAsm fun _ hn => (nomatch hn)
  · refine hqueue.withAsm fun b hb => ?_
    obtain rfl := Option.some.inj hb
    exact ⟨hnodup, hstate, fun _ hn => (nomatch hn)⟩

theorem freeStale_stale {s : State} {i : SegNo} (h : freeStale s i = true) : (s.seg i).state = .stale := by
  simp only [freeStale, Bool.and_eq_true, beq_iff_eq] at h
  exact h.1.1

theorem work_captureStart {s : State} {a : Assembly} {i : SegNo} (ha : s.asm = some a) (hi : (s.seg i).state = .stale)
    (h : WorkRuns s) : WorkRuns (captureStart i s) := by
  obtain ⟨hnodup, hstate, -⟩ := h.work.1 a ha
  have hasm : WorkRuns (setAsm (some { a with captured := i :: a.captured, capture := some ⟨i, s.engine.shown, [], false, false⟩ }) s) := by
    refine h.withAsm fun b hb => ?_
    obtain rfl := Option.some.inj hb
    refine ⟨hnodup, hstate, fun c hc => ?_⟩
    obtain rfl := Option.some.inj hc
    exact List.mem_cons_self
  rw [captureStart_of_asm ha]
  refine hasm.moved ?_ ?_ ?_ ?_ (allMove_putSeg (.inr (.inr (.inl hi)))) ?_ <;> simp

/-- A new member is of a segment that was CAPTURING, and so of none of the members before it. -/
theorem work_captureStore {s : State} (h : WorkRuns s) : WorkRuns (captureStore s) := by
  rcases captureStore_cases s with heq | ⟨a, c, ha, hc, ⟨hcap, heq⟩ | ⟨-, heq⟩⟩
  · rwa [heq]
  · obtain ⟨hnodup, hstate, -⟩ := h.work.1 a ha
    generalize ho : captureOutcome a c s.engine.copy (s.seg c.seg) = o at heq
    have hset : WorkRuns (oweMirror c.seg (setSeg c.seg o.1 s)) :=
      h.moved rfl rfl rfl rfl (allMove_setSeg (.inr (.inr (.inr (.inl hcap))))) rfl
    rw [heq]
    refine hset.withAsm (o := some { a with members := a.members ++ o.2.toList, capture := none }) fun b hb => ?_
    obtain rfl := Option.some.inj hb
    have hother : ∀ m ∈ a.members, m.seg ≠ c.seg := fun m hm he => by
      have := hstate m hm
      rw [he, hcap] at this
      simp at this
    have hkept : ∀ m ∈ a.members, ((oweMirror c.seg (setSeg c.seg o.1 s)).seg m.seg).state = .member := fun m hm => by
      have hseg : (oweMirror c.seg (setSeg c.seg o.1 s)).seg m.seg = s.seg m.seg := seg_setSeg_other (hother m hm) _ _
      rw [hseg]
      exact hstate m hm
    cases hm : o.2 with
    | none => exact ⟨by simpa using hnodup, by simpa using hkept, fun _ hn => (nomatch hn)⟩
    | some m =>
      obtain ⟨hseg, hmember⟩ := captureOutcome_member (ho ▸ hm)
      rw [ho] at hmember
      refine ⟨?_, fun m' hm' => ?_, fun _ hn => (nomatch hn)⟩
      · simp only [Option.toList_some, List.map_append, List.map_cons, List.map_nil]
        refine List.Nodup.append hnodup (by simp) fun x hx hx' => ?_
        obtain ⟨m', hm', rfl⟩ := List.mem_map.1 hx
        exact hother m' hm' ((List.mem_singleton.1 hx').trans hseg)
      · rcases List.mem_append.1 hm' with hm' | hm'
        · exact hkept m' hm'
        · obtain rfl : m' = m := by simpa using hm'
          have hnew : (oweMirror c.seg (setSeg c.seg o.1 s)).seg m'.seg = o.1 := by
            rw [hseg]
            exact seg_setSeg_self _ _ _
          rw [hnew]
          exact hmember
  · obtain ⟨hnodup, hstate, -⟩ := h.work.1 a ha
    have hasm : WorkRuns (setAsm (some { a with capture := none }) s) := by
      refine h.withAsm fun b hb => ?_
      obtain rfl := Option.some.inj hb
      exact ⟨hnodup, hstate, fun _ hn => (nomatch hn)⟩
    rw [heq]
    refine hasm.moved rfl rfl rfl rfl (allMove_setSeg (.inl ?_)) rfl
    rw [captureMovedOn_marks]
    rfl

/-- A recheck's dropped members become STALE and the others MOVING, in a stroke that holds them alone (R85 to R87). -/
theorem work_driveStart {s : State} (hr : driveReady s = true) (h : WorkRuns s) : WorkRuns (driveStart s) := by
  obtain ⟨⟨a, ha, -⟩, hdriven, -, -, hrunning, hjob⟩ := (driveReady_iff s).1 hr
  obtain ⟨hnodup, -, -⟩ := h.work.1 a ha
  have hengine : queuesRun (driveStart s).engine = true := by rw [still_engine (driveStart_still s)]; exact h.runs
  refine ⟨?_, hengine⟩
  have hrun : ∀ {p : Prop}, queuesRun (driveStart s).engine = false → p := fun hf => absurd (hengine.symm.trans hf) (by simp)
  rw [driveStart, ha] at hrun ⊢
  simp only at hrun ⊢
  split
  · exact .idle (by simp) (by simpa using hdriven) (by simpa using hjob) fun _ => by simp_all
  · rename_i hkept
    simp only [hkept] at hrun
    refine ⟨fun b hb => by simp at hb, fun d hd => ?_, fun j hj => by simp [hjob] at hj, hrun⟩
    obtain rfl := Option.some.inj hd
    refine ⟨?_, fun m hm => ?_, fun _ => by simpa using hjob, fun hp => by simp at hp⟩
    · simp only [List.map_map]
      exact hnodup.sublist (List.filter_sublist.map _)
    · have hmem : m.seg ∈ ((a.members.filter fun m => !dropped s m).map fun m => { m with touched := false }).map Member.seg :=
        List.mem_map_of_mem hm
      simp only [setStroke_seg, syncTail_seg, setStates_seg, if_pos hmem]
      rfl

theorem sensePick_senseable {s : State} {i : SegNo} (h : sensePick s = some i) : (s.seg i).state.senseable = true := by
  unfold sensePick at h
  split at h
  · simp at h
  · have hi := List.find?_some h
    simp only [senseEligible, Bool.and_eq_true] at hi
    exact hi.1.2

theorem startSweep_seg (i k : SegNo) (s : State) :
    (startSweep i s).seg k = if k = i then { s.seg i with state := .sensing } else s.seg k := by
  simp only [startSweep, grant_seg, oweMirror_seg, putSeg_seg]

theorem startSense_seg (i k : SegNo) (s : State) : (startSense i s).seg k =
    if k = i then { s.seg i with state := if (s.seg i).state = .faulted then .faulted else .sensing } else s.seg k := by
  unfold startSense
  simp only [grant_seg]
  split
  · rename_i hf
    split
    · rename_i hk
      subst hk
      conv_lhs => rw [show s.seg k = { s.seg k with state := (s.seg k).state } from rfl, hf]
    · rfl
  · rw [oweMirror_seg, putSeg_seg]

theorem startSweep_conv (i : SegNo) (s : State) : (startSweep i s).conv = { s.conv with
    state := .converting
    tap := ((pinsOf (~~~faultPins (s.seg i))).map fun p => (i, p)).head?.map Prod.fst
    job := some ⟨.sweep, [i], (pinsOf (~~~faultPins (s.seg i))).map fun p => (i, p), [], false, (s.seg i).state⟩ } := by
  simp [startSweep, grant]

theorem startSense_conv (i : SegNo) (s : State) : (startSense i s).conv = { s.conv with
    state := .converting
    tap := (allPins.map fun p => (i, p)).head?.map Prod.fst
    job := some ⟨.sense, [i], allPins.map fun p => (i, p), [], false, (s.seg i).state⟩ } := by
  unfold startSense
  simp only
  split <;> simp [grant]

theorem work_startSweep {s : State} {i : SegNo} (hg : mayGrant s = true) (hi : sweepable s i = true) (h : WorkRuns s) :
    WorkRuns (startSweep i s) := by
  obtain ⟨hdriven, -, -⟩ := mayGrant_free h.work hg
  have hunsure : (s.seg i).state = .unsure := by
    simp only [sweepable, Bool.and_eq_true, beq_iff_eq] at hi
    exact hi.1
  have hruns : queuesRun (startSweep i s).engine = true := by rw [still_engine (startSweep_still i s)]; exact h.runs
  refine ⟨h.work.undriven (by rw [startSweep_asm]) (by rw [startSweep_stroke, hdriven]) (fun j hj => ?_) hruns fun k hk => ?_, hruns⟩
  · rw [startSweep_conv] at hj ⊢
    obtain rfl := Option.some.inj hj
    exact ⟨rfl, i, rfl, by rw [startSweep_seg]; simp⟩
  · rw [startSweep_seg]
    split
    · rename_i hki
      rw [hki, hunsure] at hk
      simp at hk
    · exact hk

theorem work_startSense {s : State} {i : SegNo} (hg : mayGrant s = true) (hi : sensePick s = some i) (h : WorkRuns s) :
    WorkRuns (startSense i s) := by
  obtain ⟨hdriven, -, -⟩ := mayGrant_free h.work hg
  have hsenseable := sensePick_senseable hi
  have hruns : queuesRun (startSense i s).engine = true := by rw [still_engine (startSense_still i s)]; exact h.runs
  refine ⟨h.work.undriven (by rw [startSense_asm]) (by rw [startSense_stroke, hdriven]) (fun j hj => ?_) hruns fun k hk => ?_, hruns⟩
  · rw [startSense_conv] at hj ⊢
    obtain rfl := Option.some.inj hj
    refine ⟨rfl, i, rfl, ?_⟩
    rw [startSense_seg, if_pos rfl]
    by_cases hf : (s.seg i).state = .faulted
    · exact .inr ⟨hf, .inl (by simp [hf])⟩
    · exact .inl (by simp [hf])
  · rw [startSense_seg]
    split
    · rename_i hki
      rw [hki] at hk
      simp [hk, SegState.senseable] at hsenseable
    · exact hk

theorem workRules : JudgeRules WorkRuns where
  ends _ _ ha h := work_walkEnd ha h
  passes _ _ _ _ h := h.moved rfl rfl rfl rfl (.of_segs rfl) rfl
  starts _ _ _ ha hi h := work_captureStart ha (freeStale_stale hi) h
  stores _ h := work_captureStore h
  syncs i s h := h.moved (by rw [sync_asm]) (by rw [sync_stroke]) (by rw [sync_conv]) (by rw [sync_conv])
    (.of_segs (sync_segs .tail i s)) (by rw [still_engine (sync_still .tail i s)])
  opens s _ h := by
    have hqueue : WorkRuns (setQueue s.queue.startWalk s) := h.moved rfl rfl rfl rfl (.of_segs rfl) rfl
    refine hqueue.withAsm fun a ha => ?_
    obtain rfl := Option.some.inj ha
    exact ⟨by simp [Assembly.started], by simp [Assembly.started], by simp [Assembly.started]⟩
  drives _ hr h := work_driveStart hr h
  sweeps _ _ hg _ hi h := work_startSweep hg hi h
  senses _ _ hg hi h := work_startSense hg hi h

theorem work_judge {s : State} (h : WorkLawful s) : WorkLawful (judge s) := by
  cases hrun : queuesRun s.engine with
  | true => exact (workRules.judge ⟨h, hrun⟩).work
  | false => rwa [judge_idle h hrun]

end Sys2Proof.Machine

/-! ### The work in flight over the ends of strokes and jobs -/

namespace Sys2Proof.Machine

@[simp] theorem noteIfDiscarded_engine (i : SegNo) (s : State) : (noteIfDiscarded i s).engine = s.engine :=
  still_engine (noteIfDiscarded_still i s)

@[simp] theorem setStates_engine (st : SegState) (is : List SegNo) (s : State) : (setStates st is s).engine = s.engine :=
  still_engine (setStates_still st is s)

theorem body_engine {s t : State} (h : t.body = s.body) : t.engine = s.engine := congrArg Body.engine h

theorem body_conv {s t : State} (h : t.body = s.body) : t.conv = s.conv := congrArg Body.conv h

@[simp] theorem membersEnded_engine (rec : Member → Segment) (ms : List Member) (s : State) :
    (membersEnded rec ms s).engine = s.engine := by simp only [membersEnded]

@[simp] theorem membersEnded_conv (rec : Member → Segment) (ms : List Member) (s : State) :
    (membersEnded rec ms s).conv = s.conv := by simp only [membersEnded]

theorem memberState_of_phase (p : StrokePhase) : p.memberState = .moving ∨ p.memberState = .verifying := by cases p <;> simp [StrokePhase.memberState]

/-- A MEMBER of the Assembler's record is none of the driven stroke's. -/
theorem member_not_driven {s : State} (h : WorkLawful s) {d : Driven} (hd : s.stroke.driven = some d) {k : SegNo}
    (hk : (s.seg k).state = .member) : k ∉ d.members.map Member.seg := by
  intro hmem
  obtain ⟨m, hm, rfl⟩ := List.mem_map.1 hmem
  obtain ⟨-, hstate, -⟩ := h.2.1 d hd
  rw [hstate m hm] at hk
  rcases memberState_of_phase d.phase with hp | hp <;> simp [hp] at hk

/-- The same stroke in its next phase, its members in the state of it. -/
theorem WorkLawful.nextPhase {s t : State} (h : WorkLawful s) {d e : Driven} (hd : s.stroke.driven = some d)
    (hms : e.members.map Member.seg = d.members.map Member.seg) (ht : t.stroke.driven = some e)
    (hf : t.asm.map Assembly.frame = s.asm.map Assembly.frame) (hrun : queuesRun t.engine = queuesRun s.engine)
    (hstate : ∀ m ∈ e.members, (t.seg m.seg).state = e.phase.memberState)
    (hother : ∀ k, k ∉ d.members.map Member.seg → t.seg k = s.seg k)
    (hquiet : e.phase ≠ .verify → t.conv.job = none)
    (hverify : e.phase = .verify → ∃ j, t.conv.job = some j ∧ j.kind = .verify)
    (hj : ∀ j, t.conv.job = some j → t.conv.state = .converting ∧ JobLawful t j) : WorkLawful t := by
  have hruns : queuesRun t.engine = true := hrun.trans (runs_of_driven h hd)
  obtain ⟨hnodup, -, -⟩ := h.2.1 d hd
  refine ⟨asmAgrees_of_frame h hf fun k hk => ?_, fun x hx => ?_, hj, fun hr => absurd (hruns.symm.trans hr) (by simp)⟩
  · rw [hother k (member_not_driven h hd hk)]
    exact hk
  · obtain rfl := Option.some.inj (ht.symm.trans hx)
    exact ⟨hms ▸ hnodup, hstate, hquiet, hverify⟩

theorem work_driveExpires {s : State} (h : WorkLawful s) : WorkLawful (driveExpires s) := by
  unfold driveExpires
  split
  · exact h
  · rename_i d hd
    split
    · rename_i hp
      obtain ⟨-, hstate, hquiet, -⟩ := h.2.1 d hd
      have hjob : s.conv.job = none := hquiet (by simp [hp.1])
      refine h.nextPhase hd (e := { d with phase := .settle }) rfl rfl rfl rfl (fun m hm => ?_) (fun _ _ => rfl)
        (fun _ => hjob) (fun hv => by simp at hv) fun j hj => by simp [hjob] at hj
      have := hstate m hm
      rwa [hp.1] at this
    · exact h

/-- The members become VERIFYING, and the VERIFY job runs over them (R90, R114). -/
theorem work_settleExpires {s : State} (h : WorkLawful s) : WorkLawful (settleExpires s) := by
  unfold settleExpires
  split
  · exact h
  · rename_i d hd
    split
    · refine h.nextPhase hd (e := { d with phase := .verify }) rfl rfl ?_ ?_ (fun m hm => ?_) (fun k hk => ?_) (fun hv => absurd rfl hv)
        (fun _ => ⟨_, rfl, rfl⟩) fun j hj => ?_
      · simp
      · simp
      · simp [setStates_seg, List.mem_map_of_mem hm, StrokePhase.memberState]
      · simp [setStates_seg, hk]
      · obtain rfl := Option.some.inj hj
        exact ⟨rfl, _, rfl, rfl, rfl⟩
    · exact h

theorem work_touchStroke (l : LineNo) {s : State} (h : WorkLawful s) : WorkLawful (touchStroke l s) := by
  unfold touchStroke
  split
  · exact h
  · rename_i d hd
    have hms : (d.members.map fun m => if lineOf m.seg = l ∧ conversionsEnded s d m = false then { m with touched := true } else m).map
        Member.seg = d.members.map Member.seg := by
      rw [List.map_map]
      congr 1
      funext m
      simp only [Function.comp_apply]
      split <;> rfl
    refine h.moved rfl ?_ rfl rfl (.of_segs rfl) fun hr => ⟨hr, rfl, rfl⟩
    rw [hd]
    exact congrArg (fun l => some (d.phase, l)) hms

theorem work_touchJob (l : LineNo) {s : State} (h : WorkLawful s) : WorkLawful (touchJob l s) := by
  unfold touchJob
  split
  · exact h
  · rename_i j hj
    split
    · refine h.moved rfl rfl ?_ rfl (.of_segs rfl) fun hr => ⟨hr, rfl, rfl⟩
      rw [hj]
      rfl
    · exact h

/-- An abort over the members of a driven stroke leaves every other record. -/
theorem abortMembers_other {s : State} {ms : List Member} (hn : (ms.map Member.seg).Nodup) {k : SegNo} (hk : k ∉ ms.map Member.seg) :
    (ms.foldl (fun s m => abortMember m s) s).seg k = s.seg k := by
  rw [seg_of_body (abortMembers_body hn s), membersEnded_other hk]

theorem work_abortDrive {s : State} (h : WorkLawful s) : WorkLawful (abortDrive s) := by
  unfold abortDrive
  split
  · exact h
  · rename_i d hd
    split
    · rename_i hp
      obtain ⟨hnodup, -, hquiet, -⟩ := h.2.1 d hd
      have hjob : s.conv.job = none := hquiet (by simp [hp])
      have hbody := abortMembers_body hnodup s
      obtain ⟨hframe, -⟩ := Prod.mk.inj (foldl_frame (fun s m => congrArg State.body (abortMember_eq m s)) d.members s)
      have hconv : (d.members.foldl (fun s m => abortMember m s) s).conv = s.conv := by
        rw [body_conv hbody, membersEnded_conv]
      have hengine : (d.members.foldl (fun s m => abortMember m s) s).engine = s.engine := by
        rw [body_engine hbody, membersEnded_engine]
      refine h.undriven ?_ ?_ (fun j hj => ?_) ?_ fun k hk => ?_
      · simpa using hframe
      · simp
      · simp [hconv, hjob] at hj
      · simp only [syncHead_engine, setStroke_engine, hengine]
        exact runs_of_driven h hd
      · simp only [syncHead_seg, setStroke_seg]
        rw [abortMembers_other hnodup (member_not_driven h hd hk)]
        exact hk
    · exact h

/-- The end of a VERIFY job: its stroke is freed, and only the members' records change (R95). -/
theorem work_strokeEnd {s : State} (h : WorkLawful s) {j : Job} (hj : s.conv.job = some j) (hk : j.kind = .verify) (cs : List Conversion) :
    WorkLawful (strokeEnd cs (freeJob s)) := by
  have hlawful := (h.2.2.1 j hj).2
  rw [JobLawful, hk] at hlawful
  obtain ⟨d, hd, -, -⟩ := hlawful
  obtain ⟨hnodup, -, -, -⟩ := h.2.1 d hd
  have hbody := finishMembers_body (cs := cs) hnodup (freeJob s)
  obtain ⟨hframe, -⟩ := Prod.mk.inj (foldl_frame (fun s m => finishMember_body cs m s) d.members (freeJob s))
  have hdriven : (freeJob s).stroke.driven = some d := hd
  have hconv : (d.members.foldl (fun s m => finishMember cs m s) (freeJob s)).conv = (freeJob s).conv := by
    rw [body_conv hbody, membersEnded_conv]
  have hengine : (d.members.foldl (fun s m => finishMember cs m s) (freeJob s)).engine = s.engine := by
    rw [body_engine hbody, membersEnded_engine, freeJob_engine]
  unfold strokeEnd
  rw [hdriven]
  refine h.undriven ?_ ?_ (fun k hk => ?_) ?_ fun k hk => ?_
  · simpa using hframe
  · simp
  · simp [hconv] at hk
  · simp only [syncTail_engine, syncHead_engine, setStroke_engine, hengine]
    exact runs_of_driven h hd
  · simp only [syncTail_seg, syncHead_seg, setStroke_seg]
    rw [seg_of_body hbody, membersEnded_other (member_not_driven h hd hk)]
    exact hk

/-- What the end of a SWEEP or SENSE job leaves alone: the frame of the Assembler's record, the stroke, every other record; and no job runs. -/
structure JobEndKeeps (i : SegNo) (s t : State) : Prop where
  frame : t.asm.map Assembly.frame = s.asm.map Assembly.frame
  stroke : t.stroke = s.stroke
  job : t.conv.job = none
  runs : queuesRun t.engine = queuesRun s.engine
  other : ∀ k, k ≠ i → t.seg k = s.seg k

theorem sweepEnd_keeps (j : Job) (i : SegNo) (s : State) : JobEndKeeps i s (sweepEnd j i (freeJob s)) := by
  obtain ⟨hframe, hstroke⟩ := jobEnd_sweep_frame (j := j) (i := i) (freeJob s)
  refine ⟨hframe, hstroke, ?_, ?_, fun k hk => ?_⟩
  · rw [sweepEnd, judgeLoading_conv]
    cases j.touched <;> simp [sweepTouched, sweepUntouched, noteIfDiscarded_eq]
  · rw [sweepEnd, judgeLoading_runs]
    cases j.touched <;> simp [sweepTouched, sweepUntouched]
  · rw [sweepEnd, State.seg, judgeLoading_segs]
    change State.seg _ k = _
    cases j.touched <;> simp [sweepTouched, sweepUntouched, putSeg_seg, hk]

theorem senseEnd_keeps (j : Job) (i : SegNo) (s : State) : JobEndKeeps i s (senseEnd j i (freeJob s)) := by
  obtain ⟨hframe, hstroke⟩ := jobEnd_sense_frame (j := j) (i := i) (freeJob s)
  refine ⟨hframe, hstroke, ?_, ?_, fun k hk => ?_⟩
  · rw [senseEnd, senseCompletes_job]
    cases j.touched <;> simp [senseTouched, senseUntouched, noteIfDiscarded_eq]
  · rw [senseEnd, senseCompletes_engine]
    cases j.touched <;> simp [senseTouched, senseUntouched]
  · rw [senseEnd, State.seg, senseCompletes_segs]
    change State.seg _ k = _
    cases j.touched <;> simp [senseTouched, senseUntouched, putSeg_seg, hk]

/-- The end of a SWEEP or SENSE job frees its segment, which no stroke record holds. -/
theorem WorkLawful.jobEnded {s t : State} (h : WorkLawful s) {j : Job} (hj : s.conv.job = some j) (hk : j.kind ≠ .verify) {i : SegNo}
    (hi : (s.seg i).state ≠ .member) (ht : JobEndKeeps i s t) : WorkLawful t := by
  refine h.undriven ht.frame (by rw [ht.stroke, undriven_of_job h hj hk]) (fun k hk => by simp [ht.job] at hk)
    (ht.runs.trans (runs_of_job h hj)) fun k hk => ?_
  have hne : k ≠ i := fun he => hi (he ▸ hk)
  rw [ht.other k hne]
  exact hk

/-- The end of a job that runs, whatever it has converted. -/
theorem work_jobEnd {s : State} (h : WorkLawful s) {j g : Job} (hj : s.conv.job = some j)
    (hg : j.kind = g.kind ∧ j.segs = g.segs) : WorkLawful (jobEnd g s) := by
  obtain ⟨hkind, hsegs⟩ := hg
  have hlawful := (h.2.2.1 j hj).2
  unfold jobEnd
  simp only
  cases hk : g.kind with
  | verify => exact work_strokeEnd h hj (hkind.trans hk) _
  | sweep =>
    rw [JobLawful, hkind, hk] at hlawful
    obtain ⟨i, hi, hstate⟩ := hlawful
    rw [← hsegs, hi]
    exact h.jobEnded hj (by simp [hkind, hk]) (by simp [hstate]) (sweepEnd_keeps g i s)
  | sense =>
    rw [JobLawful, hkind, hk] at hlawful
    obtain ⟨i, hi, hstate⟩ := hlawful
    rw [← hsegs, hi]
    refine h.jobEnded hj (by simp [hkind, hk]) (fun hm => ?_) (senseEnd_keeps g i s)
    simp [hm] at hstate

end Sys2Proof.Machine

/-! ### The work in flight over every act (O10) -/

namespace Sys2Proof.Machine

theorem Segment.state_mark (r : Segment) (buf : Buffer) (k : Fin 10) (bad : Bool) : (r.mark buf k bad).state = r.state := by
  rw [Segment.mark_marks]

theorem moves_touchContent (r : Segment) : Moves r.state r.touchContent.state := by
  unfold Segment.touchContent
  split
  · exact .refl _
  · by_cases hc : r.state = .clean
    · exact .inr (.inl hc)
    · simp only [hc, if_false]
      exact .refl _

theorem moves_cellWrite (r : Segment) (shown : Shown) (buf : Buffer) (k : Fin 10) (bad : Bool) :
    Moves r.state (r.cellWrite shown buf k bad).state := by
  unfold Segment.cellWrite
  simp only
  split
  · exact r.state_mark buf k bad ▸ moves_touchContent _
  · exact .inl (r.state_mark buf k bad)

theorem moves_cleared (r : Segment) : Moves r.state r.cleared.state := by
  unfold Segment.cleared
  split
  · exact .refl _
  · cases hs : r.state <;> simp [SegState.cleared, Moves]

theorem keepClean_work {i : SegNo} {s : State} (h : WorkRuns s) : WorkRuns (keepClean i s) := by
  refine h.moved rfl rfl rfl rfl (allMove_setSeg ?_) rfl
  rcases (s.seg i).keptCleanIf_or Config.captureGivesWay with hk | ⟨-, hclean, -, -⟩
  · rw [hk]
    exact .refl _
  · exact .inr (.inl hclean)

theorem moves_forget (s : State) (i : SegNo) (hi : (s.seg i).state = .clean ∨ (s.seg i).state = .stale ∨ (s.seg i).state = .unsure ∨
    (s.seg i).state = .capturing) : AllMove s (forgetSeg i s) := by
  rw [forgetSeg_eq]
  refine AllMove.trans (allMove_setSeg (r := { (s.seg i).forget with state := .unsure }) ?_) (.of_segs rfl)
  rcases hi with h | h | h | h
  · exact .inr (.inl h)
  · exact .inr (.inr (.inl h))
  · exact .inl h.symm
  · exact .inr (.inr (.inr (.inl h)))

theorem work_forgetSeg {s : State} {i : SegNo} (h : WorkRuns s) (hi : (s.seg i).state = .clean ∨ (s.seg i).state = .stale ∨
    (s.seg i).state = .unsure ∨ (s.seg i).state = .capturing) : WorkRuns (forgetSeg i s) := by
  have hmove := moves_forget s i hi
  rw [forgetSeg_eq] at hmove ⊢
  exact h.moved (by rw [setAsm_asm, captureForgotten_frame]) rfl rfl rfl hmove rfl

theorem forgetSeg_seg (i k : SegNo) (s : State) :
    (forgetSeg i s).seg k = if k = i then { (s.seg i).forget with state := .unsure } else s.seg k := by
  rw [forgetSeg_eq]
  exact seg_setSeg i k _ s

theorem forgetSeg_asm_frame (i : SegNo) (s : State) : (forgetSeg i s).asm.map Assembly.frame = s.asm.map Assembly.frame := by
  rw [forgetSeg_eq, setAsm_asm, captureForgotten_frame]

/-- A discarded member leaves the record with its segment (R78). -/
theorem work_discardMember {s : State} {i : SegNo} (h : WorkRuns s) (hi : (s.seg i).state = .member) :
    WorkRuns (removeMember i (forgetSeg i s)) := by
  have hstill : (removeMember i (forgetSeg i s)).still = s.still := by simp
  have hengine := still_engine hstill
  refine ⟨?_, by rw [hengine]; exact h.runs⟩
  obtain ⟨-, hdriven, hjob, -⟩ := h.work
  have hrest : (removeMember i (forgetSeg i s)).conv = s.conv ∧ (removeMember i (forgetSeg i s)).stroke = s.stroke ∧
      (removeMember i (forgetSeg i s)).segs = (forgetSeg i s).segs := by
    unfold removeMember
    rw [forgetSeg_eq]
    split
    · exact ⟨rfl, rfl, rfl⟩
    · exact ⟨rfl, rfl, rfl⟩
  obtain ⟨hconv, hstroke, hsegs⟩ := hrest
  have hother : ∀ k, k ≠ i → (removeMember i (forgetSeg i s)).seg k = s.seg k := fun k hk => by
    rw [State.seg, hsegs]
    exact (forgetSeg_seg i k s).trans (if_neg hk)
  have hkept : ∀ {k : SegNo} {v : SegState}, (s.seg k).state = v → v ≠ .member →
      ((removeMember i (forgetSeg i s)).seg k).state = v := fun {k v} hk hv => by
    rw [hother k fun he => hv (by rw [← hk, he, hi])]
    exact hk
  refine ⟨fun a ha => ?_, fun d hd => ?_, fun j hj => ?_, fun hr => ?_⟩
  · unfold removeMember at ha
    cases hf : (forgetSeg i s).asm with
    | none =>
      rw [hf] at ha
      simp [hf] at ha
    | some b =>
      rw [hf] at ha
      obtain rfl := Option.some.inj ha
      obtain ⟨c, hc, -, hm, hcapd, hcap⟩ := asm_of_frame (forgetSeg_asm_frame i s) hf
      obtain ⟨hnodup, hstate, hcapture⟩ := h.work.1 c hc
      have hagrees : AsmAgrees s b := AsmAgrees.moved ⟨hnodup, hstate, hcapture⟩ hm hcapd hcap fun _ hk => hk
      obtain ⟨hnodup, hstate, hcapture⟩ := hagrees
      refine ⟨hnodup.sublist (List.filter_sublist.map _), fun m hm => ?_, hcapture⟩
      obtain ⟨hmb, hne⟩ := List.mem_filter.1 hm
      rw [hother m.seg (by simpa using hne)]
      exact hstate m hmb
  · rw [hstroke] at hd
    obtain ⟨hnodup, hstate, hquiet, hverify⟩ := hdriven d hd
    rw [hconv]
    refine ⟨hnodup, fun m hm => hkept (hstate m hm) ?_, hquiet, hverify⟩
    rcases memberState_of_phase d.phase with hp | hp <;> simp [hp]
  · rw [hconv] at hj ⊢
    obtain ⟨hstate, hlawful⟩ := hjob j hj
    refine ⟨hstate, ?_⟩
    unfold JobLawful at hlawful ⊢
    rw [hstroke]
    cases hk : j.kind with
    | verify => simpa [hk] using hlawful
    | sweep =>
      rw [hk] at hlawful
      obtain ⟨k, hk, hsensing⟩ := hlawful
      exact ⟨k, hk, hkept hsensing (by simp)⟩
    | sense =>
      rw [hk] at hlawful
      obtain ⟨k, hk, hsensing | ⟨hb, hf | hu⟩⟩ := hlawful
      · exact ⟨k, hk, .inl (hkept hsensing (by simp))⟩
      · exact ⟨k, hk, .inr ⟨hb, .inl (hkept hf (by simp))⟩⟩
      · exact ⟨k, hk, .inr ⟨hb, .inr (hkept hu (by simp))⟩⟩
  · rw [hengine, h.runs] at hr
    simp at hr

theorem work_discardSeg {s : State} (i : SegNo) (h : WorkRuns s) : WorkRuns (discardSeg i s) := by
  have hset : WorkRuns (setSeg i { s.seg i with discardAfter := true } s) :=
    h.moved rfl rfl rfl rfl (allMove_setSeg (.refl _)) rfl
  unfold discardSeg
  cases hi : (s.seg i).state with
  | clean => exact work_forgetSeg h (by simp [hi])
  | stale => exact work_forgetSeg h (by simp [hi])
  | unsure => exact work_forgetSeg h (by simp [hi])
  | capturing => exact work_forgetSeg h (by simp [hi])
  | member => exact work_discardMember h hi
  | moving => exact hset
  | verifying => exact hset
  | sensing => exact hset
  | faulted => exact h

theorem work_discardEffect {s : State} (is : List SegNo) (h : WorkRuns s) : WorkRuns (discardEffect is s) := by
  have hsegs : WorkRuns (is.foldl (fun s i => discardSeg i s) s) := foldl_preserves (fun u i hu => work_discardSeg i hu) is h
  have hsync : WorkRuns (syncTail is (is.foldl (fun s i => discardSeg i s) s)) :=
    hsegs.moved (by rw [syncTail_asm]) (by rw [syncTail_stroke]) (by rw [syncTail_conv]) (by rw [syncTail_conv])
      (.of_segs (syncTail_segs _ _)) (by rw [syncTail_engine])
  unfold discardEffect dropEmptyRecord
  split
  · exact hsync
  · split
    · exact hsync.withAsm fun _ hn => (nomatch hn)
    · exact hsync

theorem stopEffect_rest (s : State) :
    (stopEffect s).conv.job = none ∧ (stopEffect s).conv.sense = none ∧ (stopEffect s).queue.entries = [] := by
  unfold stopEffect
  simp [Queue.empty, Queue.entries]

theorem Act.work {cmd : Instr} {s t : State} (h : Act cmd s t) (hs : WorkLawful s) : WorkLawful t := by
  have hruns : queuesRun s.engine = true → WorkRuns s := fun hr => ⟨hs, hr⟩
  have hidle : queuesRun s.engine = false →
      s.asm = none ∧ s.stroke.driven = none ∧ s.conv.job = none ∧ s.conv.sense = none ∧ s.queue.entries = [] := hs.2.2.2
  cases h with
  | same h =>
    refine hs.moved (by rw [h.asm]) (by rw [h.driven]) (by rw [h.conv]) (by rw [h.conv]) (.of_segs h.segs) fun hr => ?_
    exact ⟨h.runs.symm.trans hr, by rw [h.conv], by rw [h.queue]⟩
  | judged => exact work_judge hs
  | written buf k bad i hr =>
    exact ((hruns hr).moved (by rw [putSeg_asm]) (by rw [putSeg_stroke]) (by rw [putSeg_conv]) (by rw [putSeg_conv])
      (allMove_putSeg (moves_cellWrite _ _ _ _ _)) (by rw [putSeg_engine])).work
  | marked buf k ha _ =>
    exact ((hruns (runs_of_asm hs ha)).moved (by rw [putSeg_asm]) (by rw [putSeg_stroke]) (by rw [putSeg_conv]) (by rw [putSeg_conv])
      (allMove_putSeg (.inl (Segment.state_mark _ _ _ _))) (by rw [putSeg_engine])).work
  | read ha hc d hd _ =>
    obtain ⟨hnodup, hstate, hcapture⟩ := hs.1 _ ha
    refine ((hruns (runs_of_asm hs ha)).withAsm fun b hb => ?_).work
    obtain rfl := Option.some.inj hb
    refine ⟨hnodup, hstate, fun c hc' => ?_⟩
    obtain rfl := Option.some.inj hc'
    rw [hd]
    exact hcapture _ hc
  | captureEnds _ ha _ => exact (workRules.captureEnd (keepClean_work (work_captureStore (hruns (runs_of_asm hs ha))))).work
  | settleExpires => exact work_settleExpires hs
  | driveExpires => exact work_driveExpires hs
  | value hj hconv c g hc hsense hg hk hsegs hb _ =>
    refine hs.moved rfl rfl ?_ (hc.trans hconv.symm) (.of_segs rfl) fun hr => ⟨hr, hsense, rfl⟩
    rw [setConv_conv, hg, hj]
    exact congrArg some (by simp only [Job.hold, hk, hsegs, hb])
  | jobEnds _ hj _ g hk hsegs _ _ => exact work_jobEnd hs hj ⟨hk.symm, hsegs.symm⟩
  | abortDrive => exact work_abortDrive hs
  | touchStroke l => exact work_touchStroke l hs
  | touchJob l => exact work_touchJob l hs
  | opened hoff =>
    obtain ⟨ha, hd, hj, hsn, hq⟩ := hidle (by simp [queuesRun, hoff])
    exact .idle ha hd hj fun _ => ⟨hsn, hq⟩
  | stopped _ =>
    obtain ⟨hj, hsn, hq⟩ := stopEffect_rest s
    exact .idle (stopEffect_asm s) (stopEffect_driven s) hj fun _ => ⟨hsn, hq⟩
  | shown ha named =>
    refine ((hruns (active_runs ha)).moved (by rw [showParts, syncTail_asm]) (by rw [showParts, syncTail_stroke])
      (by rw [showParts, syncTail_conv]) (by rw [showParts, syncTail_conv]) (fun i => ?_) (by rw [showParts, syncTail_engine]; rfl)).work
    have hseg : (showParts named s).seg i = (s.seg i).touchContent := by
      rw [showParts, syncTail_seg]
      exact seg_map rfl i
    rw [hseg]
    exact moves_touchContent _
  | held ha b is =>
    exact ((hruns (active_runs ha)).moved (by simp) (by simp) (by simp) (by simp)
      ((allMove_mapSegs (f := fun r => { r with held := b }) (fun _ => .refl _) is s).trans (.of_segs (syncTail_segs _ _))) (by simp)).work
  | cleared ha is =>
    exact ((hruns (active_runs ha)).moved (by simp) (by simp) (by simp) (by simp)
      ((allMove_mapSegs moves_cleared is s).trans (.of_segs (syncTail_segs _ _))) (by simp)).work
  | discarded ha is => exact (work_discardEffect is (hruns (active_runs ha))).work
  | promoted _ ha a =>
    refine WorkRuns.work (WorkRuns.moved (hruns (active_runs ha)) ?_ ?_ ?_ ?_ (.of_segs ?_) ?_)
    all_goals rfl
  | sensed ha _ r =>
    refine WorkRuns.work (WorkRuns.moved (hruns (active_runs ha)) ?_ ?_ ?_ ?_ (.of_segs ?_) ?_)
    all_goals rfl
  | refusedDescriptor hr off =>
    obtain ⟨ha, hd, hj, hsn, hq⟩ := hidle hr
    exact .idle ha hd hj fun _ => ⟨hsn, hq⟩
  | accepted hr hl d =>
    obtain ⟨ha, hd, hj, -, -⟩ := hidle hr
    refine .idle (by rw [syncTail_asm]; exact ha) (by rw [syncTail_stroke]; exact hd) (by rw [syncTail_conv]; exact hj) fun hf => ?_
    rw [syncTail_engine] at hf
    simp [queuesRun, acceptRecords, hl] at hf
  | loaded =>
    refine hs.moved (by rw [judgeLoading_asm]) (by rw [judgeLoading_stroke]) (by rw [judgeLoading_conv]) (by rw [judgeLoading_conv])
      (.of_segs (judgeLoading_segs s)) fun hr => ?_
    exact ⟨(judgeLoading_runs s).symm.trans hr, by rw [judgeLoading_conv], by rw [judgeLoading_queue]⟩
  | offered v =>
    have hsame : (offerConsumer v s).conv = s.conv ∧ (offerConsumer v s).queue = s.queue ∧ (offerConsumer v s).engine = s.engine := by
      unfold offerConsumer
      split <;> exact ⟨rfl, rfl, rfl⟩
    obtain ⟨hconv, hqueue, hengine⟩ := hsame
    exact hs.moved (by rw [offerConsumer_asm]) (by rw [offerConsumer_stroke]) (by rw [hconv]) (by rw [hconv])
      (.of_segs (offerConsumer_segs v s)) fun hr => ⟨by rw [← hengine]; exact hr, by rw [hconv], by rw [hqueue]⟩
  | reset strap => exact .idle rfl rfl rfl fun _ => ⟨rfl, rfl⟩

/-- Settles O10: the law is kept by every act, and a step is a course of acts. -/
theorem workLawKept : Obligations.WorkLawKept := by
  unfold Obligations.WorkLawKept
  exact fun s t hs h => step_keeps_work (fun _ _ _ hu ha => ha.work hu) hs h

end Sys2Proof.Machine

/-! ### How a segment becomes CLEAN (R25, R41) -/

namespace Sys2Proof.Machine

/-- A record with dirty clear that shows its target. -/
def Fresh (u : Segment) : Prop := u.dirty = false ∧ ShowsTarget u

/-- What a record shows is as it was. -/
def SameShown (r u : Segment) : Prop := u.target = r.target ∧ u.shadow = r.shadow ∧ u.faults = r.faults ∧ u.dirty = r.dirty

/-- A record is CLEAN only afresh, or as it was CLEAN before. -/
def Settles (r u : Segment) : Prop := u.state = .clean → Fresh u ∨ r.state = .clean ∧ SameShown r u

theorem changeSet_of_shown {r u : Segment} (h : SameShown r u) (hr : r.state ≠ .faulted) (hu : u.state ≠ .faulted) :
    changeSet u = changeSet r := by
  obtain ⟨htarget, hshadow, hfaults, -⟩ := h
  simp only [changeSet, htarget, hshadow, hr, hu, if_false, faultPins, hfaults]

theorem SameShown.fresh {r u : Segment} (h : SameShown r u) (hr : r.state = .clean) (hu : u.state = .clean) (hf : Fresh r) : Fresh u := by
  have hchange := changeSet_of_shown h (by simp [hr]) (by simp [hu])
  obtain ⟨htarget, -, -, hdirty⟩ := h
  obtain ⟨hclear, htarget', hchange'⟩ := hf
  exact ⟨hdirty.trans hclear, by rw [htarget]; exact htarget', by rw [hchange]; exact hchange'⟩

theorem settles_refl (r : Segment) : Settles r r := fun h => .inr ⟨h, rfl, rfl, rfl, rfl⟩

theorem settles_trans (r u v : Segment) (h : Settles r u) (k : Settles u v) : Settles r v := by
  intro hv
  rcases k hv with hfresh | ⟨hu, hshown⟩
  · exact .inl hfresh
  · rcases h hu with hfresh | ⟨hr, hshown'⟩
    · exact .inl (hshown.fresh hu hv hfresh)
    · obtain ⟨h1, h2, h3, h4⟩ := hshown
      obtain ⟨k1, k2, k3, k4⟩ := hshown'
      exact .inr ⟨hr, h1.trans k1, h2.trans k2, h3.trans k3, h4.trans k4⟩

theorem settles_of_ne {r u : Segment} (h : u.state ≠ .clean) : Settles r u := fun hu => absurd hu h

theorem settles_of_same {r u : Segment} (hs : u.state = r.state) (h : SameShown r u) : Settles r u :=
  fun hu => .inr ⟨hs ▸ hu, h⟩

abbrev AllSettle (s t : State) : Prop := SegRel Settles s t

theorem AllSettle.refl (s : State) : AllSettle s s := fun _ => settles_refl _

theorem AllSettle.of_segs {s t : State} (h : t.segs = s.segs) : AllSettle s t := SegRel.of_segs settles_refl h

theorem AllSettle.trans {s t u : State} (h : AllSettle s t) (k : AllSettle t u) : AllSettle s u := SegRel.trans settles_trans h k

theorem allSettle_setSeg {i : SegNo} {r : Segment} {s : State} (h : Settles (s.seg i) r) : AllSettle s (setSeg i r s) :=
  SegRel.setSeg settles_refl h

theorem allSettle_putSeg {e : QueueEnd} {i : SegNo} {r : Segment} {s : State} (h : Settles (s.seg i) r) :
    AllSettle s (putSeg e i r s) :=
  (allSettle_setSeg h).trans (.of_segs (sync_segs e i _))

theorem allSettle_foldl {α : Type} {f : State → α → State} (h : ∀ s x, AllSettle s (f s x)) (l : List α) (s : State) :
    AllSettle s (l.foldl f s) :=
  SegRel.foldl settles_refl settles_trans h l s

theorem allSettle_mapSegs {f : Segment → Segment} (h : ∀ r, Settles r (f r)) (is : List SegNo) (s : State) :
    AllSettle s (mapSegs f is s) :=
  allSettle_foldl (f := fun s i => setSeg i (f (s.seg i)) s) (fun _ _ => allSettle_setSeg (h _)) is s

theorem allSettle_setStates {st : SegState} (h : st ≠ .clean) (is : List SegNo) (s : State) : AllSettle s (setStates st is s) :=
  allSettle_foldl (f := fun s i => setSeg i { s.seg i with state := st } s) (fun _ _ => allSettle_setSeg (settles_of_ne h)) is s

/-- A capture's end makes a segment CLEAN only with dirty clear and with no changes (R70). -/
theorem captureOutcome_fresh (a : Assembly) (c : Capture) (d : Descriptor) {r : Segment} (hr : r.state ≠ .faulted)
    (h : (captureOutcome a c d r).1.state = .clean) : Fresh (captureOutcome a c d r).1 := by
  rcases captureOutcome_cases a c d r with ⟨-, ho⟩ | ⟨-, -, ho⟩ | ⟨-, hdirty, hchange, ho⟩ | ⟨-, -, -, -, ho⟩ | ⟨-, -, -, -, ho⟩
  · simp [ho] at h
  · simp [ho] at h
  · rw [ho]
    refine ⟨hdirty, rfl, ?_⟩
    rw [← hchange]
    exact changeSet_of_shown ⟨rfl, rfl, rfl, rfl⟩ hr (by simp)
  · simp [ho] at h
  · simp [ho] at h

/-- The capture that starts and ends in one event under NONE, with the record that a walk has (R66). -/
def blankCapture (s : State) (i : SegNo) : Capture := ⟨i, s.engine.shown, [], false, false⟩

/-- The outcome of a capture that starts and ends in one event. -/
def blankOutcome (s : State) (a : Assembly) (i : SegNo) : Segment × Option Member :=
  captureOutcome { a with captured := i :: a.captured, capture := some (blankCapture s i) } (blankCapture s i) s.engine.copy
    { s.seg i with state := .capturing, dirty := false }

theorem captureStart_seg (i k : SegNo) (s : State) :
    (captureStart i s).seg k = if k = i then { s.seg i with state := .capturing, dirty := false } else s.seg k := by
  unfold captureStart
  cases s.asm with
  | none => exact putSeg_seg _ _ _ _ _
  | some a => exact putSeg_seg _ _ _ _ _

theorem captureStart_asm {a : Assembly} {s : State} (ha : s.asm = some a) (i : SegNo) :
    (captureStart i s).asm = some { a with captured := i :: a.captured, capture := some (blankCapture s i) } := by
  rw [captureStart_of_asm ha, oweMirror_asm, putSeg_asm]
  rfl

theorem captureNone_of_asm {a : Assembly} {s : State} (ha : s.asm = some a) (i : SegNo) :
    captureNone i s = sync .tail i (oweMirror i (setSeg i (blankOutcome s a i).1 (setAsm (some { a with
      captured := i :: a.captured
      members := a.members ++ (blankOutcome s a i).2.toList
      capture := none }) (captureStart i s)))) := by
  have hseg : (captureStart i s).seg i = { s.seg i with state := .capturing, dirty := false } := by rw [captureStart_seg, if_pos rfl]
  have hcapturing : ((captureStart i s).seg (blankCapture s i).seg).state = .capturing := congrArg Segment.state hseg
  have hcopy : (captureStart i s).engine.copy = s.engine.copy := by rw [still_engine (captureStart_still i s)]
  rw [captureNone, captureStore, captureStart_asm ha]
  simp only
  rw [if_pos hcapturing]
  simp only [blankCapture, blankOutcome, hseg, hcopy]

theorem captureNone_seg {a : Assembly} {s : State} (ha : s.asm = some a) (i k : SegNo) :
    (captureNone i s).seg k = if k = i then (blankOutcome s a i).1 else s.seg k := by
  rw [captureNone_of_asm ha, sync_seg, oweMirror_seg, seg_setSeg]
  split
  · rfl
  · rename_i hk
    rw [setAsm_seg, captureStart_seg, if_neg hk]

theorem allSettle_captureStart (i : SegNo) (s : State) : AllSettle s (captureStart i s) := by
  intro k
  rw [captureStart_seg]
  split
  · exact settles_of_ne (by simp)
  · exact settles_refl _

theorem allSettle_captureNone {a : Assembly} {s : State} (ha : s.asm = some a) (i : SegNo) : AllSettle s (captureNone i s) := by
  intro k
  rw [captureNone_seg ha]
  split
  · exact fun h => .inl (captureOutcome_fresh _ _ _ (by simp) h)
  · exact settles_refl _

theorem allSettle_walkFromMark (s : State) : AllSettle s (walkFromMark s) :=
  walkOn_induct (AllSettle s) (fun _ _ _ h => h.trans (.of_segs (walkEnd_segs _ _))) (fun _ _ _ _ _ _ h => h.trans (.of_segs rfl))
    (fun u _ i rest _ _ _ h => h.trans (allSettle_captureStart i (setQueue (u.queue.passMark i rest) u)))
    (fun u _ i rest ha _ _ _ h => h.trans (allSettle_captureNone (s := setQueue (u.queue.passMark i rest) u) ha i)) _ s (.refl s)

theorem allSettle_driveStart (s : State) : AllSettle s (driveStart s) := by
  unfold driveStart
  split
  · exact .refl s
  · rename_i a _
    have hout : AllSettle s (syncHead ((a.members.filter (dropped s)).map Member.seg)
        (setStates .stale ((a.members.filter (dropped s)).map Member.seg) (setAsm none s))) :=
      (AllSettle.of_segs rfl).trans ((allSettle_setStates (by simp) _ (setAsm none s)).trans (.of_segs (syncHead_segs _ _)))
    simp only
    split
    · exact hout
    · exact hout.trans ((allSettle_setStates (by simp) _ _).trans (.of_segs (syncTail_segs _ _)))

theorem allSettle_startSweep (i : SegNo) (s : State) : AllSettle s (startSweep i s) := by
  intro k
  rw [startSweep_seg]
  split
  · exact settles_of_ne (by simp)
  · exact settles_refl _

theorem allSettle_startSense (i : SegNo) (s : State) : AllSettle s (startSense i s) := by
  intro k
  rw [startSense_seg]
  split
  · refine settles_of_ne ?_
    simp only
    split <;> simp
  · exact settles_refl _

theorem allSettle_judge (s : State) : AllSettle s (judge s) :=
  judge_induct (AllSettle s) (fun u _ h => h.trans (allSettle_driveStart u))
    (fun u _ h => h.trans ((AllSettle.of_segs (t := setAsm (some Assembly.started) (setQueue u.queue.startWalk u)) rfl).trans
      (allSettle_walkFromMark _)))
    (fun u i _ _ _ h => h.trans (allSettle_startSweep i u)) (fun u i _ _ h => h.trans (allSettle_startSense i u)) s (.refl s)

/-! ### The other acts -/

theorem settles_touchContent (r : Segment) : Settles r r.touchContent := by
  refine settles_of_ne ?_
  unfold Segment.touchContent
  split
  · rename_i h
    simp [h]
  · simp only
    split
    · simp
    · assumption

theorem settles_mark (r : Segment) (buf : Buffer) (k : Fin 10) (bad : Bool) : Settles r (r.mark buf k bad) := by
  rw [Segment.mark_marks]
  exact settles_of_same rfl ⟨rfl, rfl, rfl, rfl⟩

theorem settles_cellWrite (r : Segment) (shown : Shown) (buf : Buffer) (k : Fin 10) (bad : Bool) :
    Settles r (r.cellWrite shown buf k bad) := by
  have hmark := settles_mark r buf k bad
  unfold Segment.cellWrite
  simp only
  split
  · exact settles_trans _ _ _ hmark (settles_touchContent _)
  · exact hmark

theorem settles_cleared (r : Segment) : Settles r r.cleared := by
  unfold Segment.cleared
  split
  · exact settles_refl r
  · refine settles_of_ne ?_
    cases hs : r.state <;> simp [SegState.cleared]

theorem Segment.state_ended (r : Segment) (st : SegState) : (r.ended st).state = if r.discardAfter then .unsure else st := by
  unfold Segment.ended
  split <;> rfl

theorem settles_unsure (r u : Segment) : Settles r (u.ended .unsure) := by
  refine settles_of_ne ?_
  rw [Segment.state_ended]
  split <;> simp

theorem settles_stopped (r : Segment) : Settles r r.stopped := by
  unfold Segment.stopped
  split
  · exact settles_of_ne (by simp)
  · exact settles_of_ne (by simp)
  · exact settles_unsure r r
  · exact settles_refl r

theorem settles_initialised (r : Segment) : Settles r r.initialised := by
  refine settles_of_ne ?_
  unfold Segment.initialised
  simp only
  split <;> simp

theorem allSettle_abortMember (s : State) (m : Member) : AllSettle s (abortMember m s) := by
  rw [abortMember_eq]
  exact (AllSettle.of_segs (t := setAsm _ s) rfl).trans (allSettle_setSeg (settles_unsure _ _))

theorem allSettle_abortDrive (s : State) : AllSettle s (abortDrive s) := by
  unfold abortDrive
  split
  · exact .refl s
  · rename_i d _
    split
    · exact (allSettle_foldl allSettle_abortMember d.members s).trans (.of_segs (by simp))
    · exact .refl s

theorem allSettle_stopStroke (s : State) : AllSettle s (stopStroke s) := by
  unfold stopStroke
  split
  · exact .refl s
  · rename_i d _
    refine (allSettle_foldl allSettle_abortMember d.members s).trans (.of_segs ?_)
    simp only
    split <;> rfl

theorem allSettle_map {f : Segment → Segment} (hf : ∀ r, Settles r (f r)) {s t : State} (h : t.segs = s.segs.map f) :
    AllSettle s t := fun i => by
  rw [seg_map h]
  exact hf _

theorem allSettle_stopEffect (s : State) : AllSettle s (stopEffect s) :=
  (AllSettle.of_segs (abortResults_segs s)).trans ((allSettle_stopStroke _).trans (allSettle_map settles_stopped (stopEffect_segs s)))

theorem allSettle_settleExpires (s : State) : AllSettle s (settleExpires s) := by
  unfold settleExpires
  split
  · exact .refl s
  · rename_i d _
    split
    · exact (allSettle_setStates (by simp) (d.members.map Member.seg) s).trans (.of_segs (syncTail_segs _ _))
    · exact .refl s

theorem removeMember_segs (i : SegNo) (s : State) : (removeMember i s).segs = s.segs := by
  unfold removeMember
  split <;> rfl

theorem allSettle_forgetSeg (i : SegNo) (s : State) : AllSettle s (forgetSeg i s) := by
  intro k
  rw [forgetSeg_seg]
  split
  · exact settles_of_ne (by simp)
  · exact settles_refl _

theorem allSettle_discardSeg (s : State) (i : SegNo) : AllSettle s (discardSeg i s) := by
  have hset : AllSettle s (setSeg i { s.seg i with discardAfter := true } s) :=
    allSettle_setSeg (settles_of_same rfl ⟨rfl, rfl, rfl, rfl⟩)
  have hforget := allSettle_forgetSeg i s
  unfold discardSeg
  cases (s.seg i).state with
  | clean => exact hforget
  | stale => exact hforget
  | unsure => exact hforget
  | capturing => exact hforget
  | member => exact hforget.trans (.of_segs (removeMember_segs i _))
  | moving => exact hset
  | verifying => exact hset
  | sensing => exact hset
  | faulted => exact .refl s

/-- The end of a capture, as an act. -/
def EndsCapture (cmd : Instr) (s t : State) : Prop :=
  cmd = .captureReadEnd ∧ ∃ a c, s.asm = some a ∧ a.capture = some c ∧ t = captureEnd c.seg s

/-- The end of a job, as an act. -/
def EndsJob (cmd : Instr) (s t : State) : Prop :=
  (∃ v, cmd = .conversionEnd v) ∧ ∃ j g, s.conv.job = some j ∧ g.kind = j.kind ∧ g.segs = j.segs ∧ g.before = j.before ∧ t = jobEnd g s

/-- Every act but the end of a capture and the end of a job. -/
theorem Act.settles {cmd : Instr} {s t : State} (h : Act cmd s t) : AllSettle s t ∨ EndsCapture cmd s t ∨ EndsJob cmd s t := by
  cases h with
  | same h => exact .inl (.of_segs h.segs)
  | judged => exact .inl (allSettle_judge s)
  | written buf k bad i _ => exact .inl (allSettle_putSeg (settles_cellWrite _ _ _ _ _))
  | marked buf k _ _ => exact .inl (allSettle_putSeg (settles_mark _ _ _ _))
  | read _ _ d _ _ => exact .inl (.of_segs rfl)
  | captureEnds hc ha hcap => exact .inr (.inl ⟨hc, _, _, ha, hcap, rfl⟩)
  | settleExpires => exact .inl (allSettle_settleExpires s)
  | driveExpires => exact .inl (.of_segs (driveExpires_segs s))
  | value _ _ c g _ _ _ _ _ _ _ => exact .inl (.of_segs rfl)
  | jobEnds hc hj _ g hk hsegs hb _ => exact .inr (.inr ⟨hc, _, g, hj, hk, hsegs, hb, rfl⟩)
  | abortDrive => exact .inl (allSettle_abortDrive s)
  | touchStroke l => exact .inl (.of_segs (touchStroke_segs l s))
  | touchJob l => exact .inl (.of_segs (touchJob_segs l s))
  | opened _ => exact .inl (.of_segs rfl)
  | stopped _ => exact .inl (allSettle_stopEffect s)
  | shown _ named => exact .inl (allSettle_map settles_touchContent (syncTail_segs _ _))
  | held _ b is =>
    exact .inl ((allSettle_mapSegs (f := fun r => { r with held := b }) (fun r => settles_of_same rfl ⟨rfl, rfl, rfl, rfl⟩) is s).trans
      (.of_segs (syncTail_segs _ _)))
  | cleared _ is => exact .inl ((allSettle_mapSegs settles_cleared is s).trans (.of_segs (syncTail_segs _ _)))
  | discarded _ is =>
    exact .inl ((allSettle_foldl allSettle_discardSeg is s).trans (.of_segs ((dropEmptyRecord_segs _).trans (syncTail_segs _ _))))
  | promoted _ _ a => exact .inl (.of_segs rfl)
  | sensed _ _ r => exact .inl (.of_segs rfl)
  | refusedDescriptor _ off => exact .inl (.of_segs rfl)
  | accepted _ _ d => exact .inl (allSettle_map settles_initialised (syncTail_segs _ _))
  | loaded => exact .inl (.of_segs (judgeLoading_segs s))
  | offered v => exact .inl (.of_segs (offerConsumer_segs v s))
  | reset strap =>
    refine .inl fun i => ?_
    have hreset : (State.poweredOn s.mem s.pins strap s.pending).seg i = Segment.reset := by simp [State.seg, State.poweredOn]
    rw [hreset]
    exact settles_of_ne (by simp [Segment.reset])

theorem Course.settles {cmd : Instr} {s t : State} (h : Course cmd s t) (hcap : cmd ≠ .captureReadEnd)
    (hconv : ∀ v, cmd ≠ .conversionEnd v) : AllSettle s t := by
  induction h with
  | start => exact .refl s
  | act _ a ih =>
    rcases a.settles with hs | ⟨hc, -⟩ | ⟨⟨v, hv⟩, -⟩
    · exact ih.trans hs
    · exact absurd hc hcap
    · exact absurd hv (hconv v)

end Sys2Proof.Machine

/-! ### The ends of captures and of jobs, and the segments that they leave CLEAN -/

namespace Sys2Proof.Machine

/-- What a capture's end makes of its segment, with R41 judged for it: a CLEAN one that the segment has moved on to may be left with
changes (R74; log 26). -/
structure CaptureLeaves (r u : Segment) : Prop where
  settles : r.state ≠ .clean → Settles r u
  shows : Config.captureGivesWay = true → u.state = .clean → ShowsTarget u
  dirty : u.state = .clean → u.dirty = false ∨ r.state = .clean ∧ u.dirty = r.dirty

theorem Settles.leaves {r u : Segment} (h : Settles r u) (hr : r.state ≠ .clean) : CaptureLeaves r u :=
  ⟨fun _ => h,
    fun _ hu => (h hu).elim (fun hf => hf.2) fun hs => absurd hs.1 hr,
    fun hu => (h hu).elim (fun hf => .inl hf.1) fun hs => absurd hs.1 hr⟩

theorem captureLeaves_movedOn (c : Capture) (d : Descriptor) (r : Segment) :
    CaptureLeaves r ((captureMovedOn c d r).keptCleanIf Config.captureGivesWay) := by
  have hstate : (captureMovedOn c d r).state = r.state := by rw [captureMovedOn_marks]
  have hdirty : (captureMovedOn c d r).dirty = r.dirty := by rw [captureMovedOn_marks]
  rcases (captureMovedOn c d r).keptCleanIf_or Config.captureGivesWay with hk | ⟨-, -, -, hk⟩
  · refine ⟨fun hr => settles_of_ne ?_, fun hway hu => ?_, fun hu => .inr ?_⟩
    · rw [hk, hstate]
      exact hr
    · by_contra hshows
      have hchanged : (captureMovedOn c d r).target = none ∨ changeSet (captureMovedOn c d r) ≠ 0 := by
        rw [hk] at hshows
        by_contra hn
        simp only [not_or, not_not] at hn
        exact hshows ⟨Option.isSome_iff_ne_none.2 hn.1, hn.2⟩
      have hstale : (captureMovedOn c d r).keptCleanIf Config.captureGivesWay = { captureMovedOn c d r with state := .stale } := by
        rw [hk] at hu
        exact if_pos ⟨hu, hchanged, hway⟩
      simp [hstale] at hu
    · rw [hk, hstate] at hu
      exact ⟨hu, by rw [hk, hdirty]⟩
  · have hne : ((captureMovedOn c d r).keptCleanIf Config.captureGivesWay).state ≠ .clean := by simp [hk]
    exact ⟨fun _ => settles_of_ne hne, fun _ hu => absurd hu hne, fun hu => absurd hu hne⟩

theorem captureLeaves_outcome {a : Assembly} {c : Capture} {d : Descriptor} {r : Segment} (hr : r.state = .capturing) :
    CaptureLeaves r ((captureOutcome a c d r).1.keptCleanIf Config.captureGivesWay) := by
  have houtcome : Settles r (captureOutcome a c d r).1 := fun h => .inl (captureOutcome_fresh a c d (by simp [hr]) h)
  refine Settles.leaves ?_ (by simp [hr])
  rcases (captureOutcome a c d r).1.keptCleanIf_or Config.captureGivesWay with hk | ⟨-, -, -, hk⟩
  · rw [hk]
    exact houtcome
  · rw [hk]
    exact settles_of_ne (by simp)

/-- A capture's end, with R41 judged for its segment, changes the record of that segment alone. -/
theorem captureEnds_leaves {a : Assembly} {c : Capture} {s : State} (ha : s.asm = some a) (hc : a.capture = some c) (k : SegNo) :
    if k = c.seg then CaptureLeaves (s.seg k) ((keepClean c.seg (captureStore s)).seg k)
    else (keepClean c.seg (captureStore s)).seg k = s.seg k := by
  have hkeep : (keepClean c.seg (captureStore s)).seg k =
      if k = c.seg then ((captureStore s).seg c.seg).keptCleanIf Config.captureGivesWay else (captureStore s).seg k :=
    seg_setSeg _ _ _ _
  rw [hkeep]
  rcases captureStore_cases s with heq | ⟨b, d, hb, hd, hcases⟩
  · rw [captureStore, ha] at heq
    simp only [hc] at heq
    have hsame := congrArg (fun u => u.asm) heq
    split at hsame
    all_goals
      simp only [oweMirror_asm, setSeg_asm, setAsm_asm, ha, Option.some.injEq] at hsame
      have hnone := congrArg Assembly.capture hsame
      simp [hc] at hnone
  · obtain rfl := Option.some.inj (ha.symm.trans hb)
    obtain rfl := Option.some.inj (hc.symm.trans hd)
    rcases hcases with ⟨hcap, heq⟩ | ⟨-, heq⟩
    · split
      · rename_i hk
        subst hk
        rw [heq, oweMirror_seg, seg_setSeg_self]
        exact captureLeaves_outcome hcap
      · rename_i hk
        rw [heq, oweMirror_seg, seg_setSeg_other hk]
        rfl
    · split
      · rename_i hk
        subst hk
        rw [heq, seg_setSeg_self]
        exact captureLeaves_movedOn _ _ _
      · rename_i hk
        rw [heq, seg_setSeg_other hk]
        rfl

theorem captureEnd_settles (i : SegNo) (s : State) : AllSettle (keepClean i (captureStore s)) (captureEnd i s) := by
  unfold captureEnd
  simp only
  split
  · exact ((allSettle_walkFromMark _).trans (allSettle_judge _)).trans (.of_segs (sync_segs _ _ _))
  · exact (AllSettle.of_segs (sync_segs _ _ _)).trans ((allSettle_walkFromMark _).trans (allSettle_judge _))

theorem CaptureLeaves.then {r u v : Segment} (h : CaptureLeaves r u) (k : Settles u v) : CaptureLeaves r v := by
  refine ⟨fun hr => settles_trans _ _ _ (h.settles hr) k, fun hway hv => ?_, fun hv => ?_⟩
  · rcases k hv with hf | ⟨hu, hshown⟩
    · exact hf.2
    · obtain ⟨htarget, hchange⟩ := h.shows hway hu
      have hsame := changeSet_of_shown hshown (by simp [hu]) (by simp [hv])
      obtain ⟨ht, -, -, -⟩ := hshown
      exact ⟨by rw [ht]; exact htarget, by rw [hsame]; exact hchange⟩
  · rcases k hv with hf | ⟨hu, -, -, -, hd⟩
    · exact .inl hf.1
    · rcases h.dirty hu with hu' | ⟨hr, hu'⟩
      · exact .inl (hd.trans hu')
      · exact .inr ⟨hr, hd.trans hu'⟩

theorem captureEnd_leaves {a : Assembly} {c : Capture} {s : State} (ha : s.asm = some a) (hc : a.capture = some c) (k : SegNo) :
    if k = c.seg then CaptureLeaves (s.seg k) ((captureEnd c.seg s).seg k) else Settles (s.seg k) ((captureEnd c.seg s).seg k) := by
  have hstore := captureEnds_leaves ha hc k
  have hwork := captureEnd_settles c.seg s k
  split at hstore
  · rename_i hk
    rw [if_pos hk]
    exact hstore.then hwork
  · rename_i hk
    rw [if_neg hk]
    rw [hstore] at hwork
    exact hwork

/-! ### The ends of jobs -/

/-- The outcomes of a member's pins give its record a shadow, a retry list, a fault list and a state, and nothing else (R115 to R118). -/
theorem judgePin_marks (m : Member) (shown : Shown) (j : Judged) (c : Conversion) :
    (judgePin m shown j c).record = { j.record with
      state := (judgePin m shown j c).record.state
      shadow := (judgePin m shown j c).record.shadow
      retry := (judgePin m shown j c).record.retry
      faults := (judgePin m shown j c).record.faults } := by
  unfold judgePin
  simp only
  split
  · rfl
  · split
    · rfl
    · split
      · rfl
      · rfl
      · split <;> rfl

theorem judgePins_marks (m : Member) (shown : Shown) (r : Segment) (cs : List Conversion) :
    (judgePins m shown r cs).record = { r with
      state := (judgePins m shown r cs).record.state
      shadow := (judgePins m shown r cs).record.shadow
      retry := (judgePins m shown r cs).record.retry
      faults := (judgePins m shown r cs).record.faults } := by
  unfold judgePins
  suffices h : ∀ j : Judged, ∃ st sh re fa,
      (cs.foldl (judgePin m shown) j).record = { j.record with state := st, shadow := sh, retry := re, faults := fa } by
    obtain ⟨st, sh, re, fa, h⟩ := h ⟨r, []⟩
    rw [h]
  induction cs with
  | nil => exact fun j => ⟨_, _, _, _, rfl⟩
  | cons c cs ih =>
    intro j
    obtain ⟨st, sh, re, fa, h⟩ := ih (judgePin m shown j c)
    refine ⟨st, sh, re, fa, ?_⟩
    rw [List.foldl_cons, h, judgePin_marks]

/-- What the end of a job leaves CLEAN has dirty clear and no changes, and has a target if the job's own record had one. -/
def Finishes (r u : Segment) : Prop :=
  u.state = .clean → u.dirty = false ∧ changeSet u = 0 ∧ (r.target.isSome = true → u.target.isSome = true)

theorem finishes_of_ne {r u : Segment} (h : u.state ≠ .clean) : Finishes r u := fun hu => absurd hu h

/-- A record that ends in a state, CLEAN only with dirty clear and no changes. -/
theorem finishes_ended {r q : Segment} {st : SegState} (hq : q.state ≠ .faulted) (ht : q.target = r.target)
    (hst : st = .clean → q.dirty = false ∧ changeSet q = 0) : Finishes r (q.ended st) := by
  intro hu
  unfold Segment.ended at hu ⊢
  split at hu
  · simp at hu
  · rename_i hd
    rw [if_neg hd]
    have hclean : st = .clean := hu
    obtain ⟨hdirty, hchange⟩ := hst hclean
    refine ⟨hdirty, ?_, fun h => by rw [ht]; exact h⟩
    rw [← hchange]
    exact changeSet_of_shown ⟨rfl, rfl, rfl, rfl⟩ hq (by simp [hclean])

theorem finishes_finishRecord (cs : List Conversion) (s : State) (m : Member) : Finishes (s.seg m.seg) (finishRecord cs s m) := by
  unfold finishRecord
  split
  · refine finishes_of_ne ?_
    rw [finishTouched, Segment.state_ended]
    split <;> simp
  · generalize hq : (judgePins m s.engine.shown (s.seg m.seg) (cs.filter fun c => c.seg = m.seg)).record = q
    have htarget : q.target = (s.seg m.seg).target := by rw [← hq, judgePins_marks]
    unfold finishUntouched
    split
    · rename_i hf
      refine finishes_of_ne ?_
      split
      · change q.state ≠ _
        simp [hf]
      · simp [hf]
    · rename_i hf
      refine finishes_ended hf htarget fun h => ?_
      by_contra hn
      have hbusy : changeSet q ≠ 0 ∨ q.dirty = true := by
        by_contra hb
        simp only [not_or, not_not, Bool.not_eq_true] at hb
        exact hn ⟨hb.2, hb.1⟩
      rw [if_pos hbusy] at h
      simp at h

theorem finishes_senseUntouched {before : SegState} {r : Segment} {cs : List Conversion}
    (h : r.state = .faulted → before = .faulted) : Finishes r (senseUntouchedRecord before (r.senseAll cs)) := by
  have hstate : (r.senseAll cs).state = r.state := rfl
  unfold senseUntouchedRecord
  split
  · rename_i hf
    exact finishes_of_ne (by simp [hf.2])
  · rename_i hf
    refine finishes_ended (fun hq => hf ⟨h (hstate ▸ hq), hq⟩) rfl fun hst => ?_
    split at hst
    · rename_i hclean
      exact ⟨hclean.2.1, hclean.2.2⟩
    · simp at hst

theorem finishes_senseTouched {before : SegState} {r : Segment} (h : r.state = .faulted → before = .faulted) :
    Finishes r (senseTouchedRecord before r) := by
  unfold senseTouchedRecord
  split
  · rename_i hf
    exact finishes_of_ne (by simp [hf.2])
  · rename_i hf
    refine finishes_ended (fun hq => hf ⟨h hq, hq⟩) rfl fun hst => ?_
    split at hst
    · split at hst
      · simp at hst
      · rename_i hdirty
        split at hst
        · rename_i hchange
          exact ⟨by simpa using hdirty, hchange⟩
        · simp at hst
    · rename_i hb
      split at hst
      · simp at hst
      · exact absurd hst hb

theorem strokeEnd_seg {cs : List Conversion} {s : State} {d : Driven} (hd : s.stroke.driven = some d)
    (hn : (d.members.map Member.seg).Nodup) (k : SegNo) :
    (strokeEnd cs s).seg k = (membersEnded (finishRecord cs s) d.members s).seg k := by
  rw [← seg_of_body (finishMembers_body hn s), strokeEnd, hd]
  simp

theorem sweepEnd_seg (j : Job) (i k : SegNo) (s : State) : (sweepEnd j i s).seg k =
    if k = i then (if j.touched then (s.seg i).ended .unsure else ((s.seg i).senseAll j.results).ended .stale) else s.seg k := by
  rw [sweepEnd, State.seg, judgeLoading_segs]
  change State.seg _ k = _
  cases j.touched <;> simp [sweepTouched, sweepUntouched, putSeg_seg]

theorem senseEnd_seg (j : Job) (i k : SegNo) (s : State) : (senseEnd j i s).seg k =
    if k = i then (if j.touched then senseTouchedRecord j.before (s.seg i)
      else senseUntouchedRecord j.before ((s.seg i).senseAll j.results)) else s.seg k := by
  rw [senseEnd, State.seg, senseCompletes_segs]
  change State.seg _ k = _
  cases j.touched <;> simp [senseTouched, senseUntouched, putSeg_seg]

/-- The end of a running job leaves a record as it was, or finishes it. -/
theorem jobEnd_finishes {s : State} (h : WorkLawful s) {j g : Job} (hj : s.conv.job = some j)
    (hkind : g.kind = j.kind) (hsegs : g.segs = j.segs) (hbefore : g.before = j.before) (k : SegNo) :
    (jobEnd g s).seg k = s.seg k ∨ Finishes (s.seg k) ((jobEnd g s).seg k) := by
  have hlawful := (h.2.2.1 j hj).2
  unfold jobEnd
  simp only
  cases hk : g.kind with
  | verify =>
    rw [JobLawful, ← hkind, hk] at hlawful
    obtain ⟨d, hd, -, -⟩ := hlawful
    obtain ⟨hnodup, -⟩ := h.2.1 d hd
    simp only
    rw [strokeEnd_seg (s := freeJob s) hd hnodup]
    by_cases hmem : k ∈ d.members.map Member.seg
    · obtain ⟨m, hm, rfl⟩ := List.mem_map.1 hmem
      rw [membersEnded_member hnodup hm]
      exact .inr (finishes_finishRecord _ (freeJob s) m)
    · exact .inl (membersEnded_other hmem)
  | sweep =>
    rw [JobLawful, ← hkind, hk] at hlawful
    obtain ⟨i, hi, -⟩ := hlawful
    rw [hsegs, hi]
    simp only
    rw [sweepEnd_seg]
    split
    · right
      refine finishes_of_ne ?_
      split
      · rw [Segment.state_ended]
        split <;> simp
      · rw [Segment.state_ended]
        split <;> simp
    · exact .inl rfl
  | sense =>
    rw [JobLawful, ← hkind, hk] at hlawful
    obtain ⟨i, hi, hstate⟩ := hlawful
    rw [hsegs, hi]
    simp only
    rw [senseEnd_seg]
    have hfaulted : ((freeJob s).seg i).state = .faulted → g.before = .faulted := fun hf => by
      rw [freeJob_seg] at hf
      rw [hbefore]
      rcases hstate with hs | ⟨hb, -⟩
      · simp [hs] at hf
      · exact hb
    split
    · rename_i hki
      subst hki
      right
      split
      · exact finishes_senseTouched hfaulted
      · exact finishes_senseUntouched hfaulted
    · exact .inl rfl

end Sys2Proof.Machine

/-! ### The targets of the stroke records, and the capture and the SENSE job under way (R22, R65, R123) -/

namespace Sys2Proof.Machine

/-- A member of a stroke record, by its state. -/
def AtWork (st : SegState) : Prop := st = .member ∨ st = .moving ∨ st = .verifying

/-- A record that is at work was at work before, and kept a target that it had. -/
def Rests (r u : Segment) : Prop := AtWork u.state → AtWork r.state ∧ (r.target.isSome = true → u.target.isSome = true)

theorem rests_refl (r : Segment) : Rests r r := fun h => ⟨h, id⟩

theorem rests_trans (r u v : Segment) (h : Rests r u) (k : Rests u v) : Rests r v := fun hv => by
  obtain ⟨hu, htarget⟩ := k hv
  obtain ⟨hr, htarget'⟩ := h hu
  exact ⟨hr, fun hs => htarget (htarget' hs)⟩

theorem rests_of_ne {r u : Segment} (h : ¬AtWork u.state) : Rests r u := fun hu => absurd hu h

theorem rests_of_same {r u : Segment} (hs : u.state = r.state) (ht : u.target = r.target) : Rests r u :=
  fun hu => ⟨hs ▸ hu, fun h => by rw [ht]; exact h⟩

abbrev AllRest (s t : State) : Prop := SegRel Rests s t

theorem AllRest.of_segs {s t : State} (h : t.segs = s.segs) : AllRest s t := SegRel.of_segs rests_refl h

theorem AllRest.trans {s t u : State} (h : AllRest s t) (k : AllRest t u) : AllRest s u := SegRel.trans rests_trans h k

theorem allRest_setSeg {i : SegNo} {r : Segment} {s : State} (h : Rests (s.seg i) r) : AllRest s (setSeg i r s) :=
  SegRel.setSeg rests_refl h

theorem allRest_putSeg {e : QueueEnd} {i : SegNo} {r : Segment} {s : State} (h : Rests (s.seg i) r) : AllRest s (putSeg e i r s) :=
  (allRest_setSeg h).trans (.of_segs (sync_segs e i _))

theorem allRest_foldl {α : Type} {f : State → α → State} (h : ∀ s x, AllRest s (f s x)) (l : List α) (s : State) :
    AllRest s (l.foldl f s) :=
  SegRel.foldl rests_refl rests_trans h l s

theorem allRest_mapSegs {f : Segment → Segment} (h : ∀ r, Rests r (f r)) (is : List SegNo) (s : State) : AllRest s (mapSegs f is s) :=
  allRest_foldl (f := fun s i => setSeg i (f (s.seg i)) s) (fun _ _ => allRest_setSeg (h _)) is s

theorem allRest_map {f : Segment → Segment} (hf : ∀ r, Rests r (f r)) {s t : State} (h : t.segs = s.segs.map f) : AllRest s t :=
  fun i => by
    rw [seg_map h]
    exact hf _

/-- A capture under way, of the segment that a capture was under way of before. -/
def CapturesFrom (s t : State) : Prop :=
  ∀ a c, t.asm = some a → a.capture = some c → ∃ b d, s.asm = some b ∧ b.capture = some d ∧ d.seg = c.seg

theorem capturesFrom_of_frame {s t : State} (hf : t.asm.map Assembly.frame = s.asm.map Assembly.frame) : CapturesFrom s t := by
  intro a c ha hc
  obtain ⟨b, hb, -, -, -, hcap⟩ := asm_of_frame hf ha
  rw [hc] at hcap
  obtain ⟨d, hd, hdc⟩ := Option.map_eq_some_iff.1 hcap
  exact ⟨b, d, hb, hd, hdc⟩

theorem capturesFrom_none {s t : State} (h : ∀ a, t.asm = some a → a.capture = none) : CapturesFrom s t :=
  fun a c ha hc => by simp [h a ha] at hc

/-- The parts of the law on CLEAN segments that speak of the work in flight. -/
structure TargetsHeld (s : State) : Prop where
  targets : ∀ i, AtWork (s.seg i).state → (s.seg i).target.isSome = true
  capture : ∀ a c, s.asm = some a → a.capture = some c → ¬AtWork (s.seg c.seg).state
  sense : ∀ j, s.conv.job = some j → j.kind = .sense → j.before.senseable = true

theorem cleanLawful_iff (s : State) :
    CleanLawful s ↔ (∀ i, (s.seg i).state = .clean → (s.seg i).dirty = false) ∧ TargetsHeld s := by
  constructor
  · rintro ⟨hdirty, htargets, hcapture, hsense⟩
    refine ⟨hdirty, htargets, fun a c ha hc hw => ?_, hsense⟩
    obtain ⟨h1, h2, h3⟩ := hcapture a c ha hc
    rcases hw with h | h | h
    · exact h1 h
    · exact h2 h
    · exact h3 h
  · rintro ⟨hdirty, h⟩
    refine ⟨hdirty, h.targets, fun a c ha hc => ?_, h.sense⟩
    have hw := h.capture a c ha hc
    exact ⟨fun hs => hw (.inl hs), fun hs => hw (.inr (.inl hs)), fun hs => hw (.inr (.inr hs))⟩

theorem TargetsHeld.moved {s t : State} (h : TargetsHeld s) (hseg : AllRest s t) (hcap : CapturesFrom s t)
    (hjob : t.conv.job.map Job.hold = s.conv.job.map Job.hold ∨ t.conv.job = none) : TargetsHeld t where
  targets i hi := by
    obtain ⟨hr, htarget⟩ := hseg i hi
    exact htarget (h.targets i hr)
  capture a c ha hc hw := by
    obtain ⟨b, d, hb, hd, hdc⟩ := hcap a c ha hc
    exact h.capture b d hb hd (hdc ▸ (hseg c.seg hw).1)
  sense j hj hk := by
    rcases hjob with hhold | hnone
    · obtain ⟨k, hk', hkind, -, hbefore⟩ := job_of_hold hhold hj
      rw [← hbefore]
      exact h.sense k hk' (hkind.trans hk)
    · simp [hnone] at hj

end Sys2Proof.Machine

/-! ### The targets and the capture under way, over every act (O60) -/

namespace Sys2Proof.Machine

theorem not_atWork {st : SegState} (h : st.senseable = true ∨ st = .capturing ∨ st = .sensing) : ¬AtWork st := by
  rcases h with h | rfl | rfl
  · rintro (rfl | rfl | rfl) <;> simp [SegState.senseable] at h
  · simp [AtWork]
  · simp [AtWork]

theorem atWork_of_driven {s : State} (h : WorkLawful s) {d : Driven} (hd : s.stroke.driven = some d) {k : SegNo}
    (hk : k ∈ d.members.map Member.seg) : AtWork (s.seg k).state := by
  obtain ⟨m, hm, rfl⟩ := List.mem_map.1 hk
  obtain ⟨-, hstate, -⟩ := h.2.1 d hd
  rw [hstate m hm]
  rcases memberState_of_phase d.phase with hp | hp
  · exact .inr (.inl hp)
  · exact .inr (.inr hp)

/-- Giving the segments of a list a state moves those at work on, or frees them. -/
theorem allRest_setStates {st : SegState} {is : List SegNo} {s : State} (h : AtWork st → ∀ i ∈ is, AtWork (s.seg i).state) :
    AllRest s (setStates st is s) := by
  intro k
  rw [setStates_seg]
  split
  · rename_i hk
    exact fun hw => ⟨h hw k hk, id⟩
  · exact rests_refl _

/-- The laws of the work in flight, where the queue runs, with the targets of the stroke records. -/
structure TargetRuns (s : State) : Prop extends WorkRuns s where
  held : TargetsHeld s

theorem TargetRuns.moved {s t : State} (h : TargetRuns s) (ht : WorkRuns t) (hseg : AllRest s t) (hcap : CapturesFrom s t)
    (hjob : t.conv.job.map Job.hold = s.conv.job.map Job.hold ∨ t.conv.job = none) : TargetRuns t :=
  ⟨ht, h.held.moved hseg hcap hjob⟩

theorem walkEnd_capture (a : Assembly) (s : State) (b : Assembly) (hb : (walkEnd a s).asm = some b) : b.capture = none := by
  unfold walkEnd at hb
  simp only at hb
  split at hb
  · simp at hb
  · obtain rfl := Option.some.inj hb
    rfl

theorem walkEnd_conv (a : Assembly) (s : State) : (walkEnd a s).conv = s.conv := by
  unfold walkEnd
  simp only
  split <;> rfl

theorem targets_captureStart {s : State} {a : Assembly} {i : SegNo} (ha : s.asm = some a) (hi : (s.seg i).state = .stale)
    (h : TargetRuns s) : TargetRuns (captureStart i s) := by
  have hrest : AllRest s (captureStart i s) := by
    intro k
    rw [captureStart_seg]
    split
    · exact rests_of_ne (not_atWork (.inr (.inl rfl)))
    · exact rests_refl _
  have hconv : (captureStart i s).conv = s.conv := by rw [captureStart_of_asm ha, oweMirror_conv, putSeg_conv]; rfl
  refine ⟨work_captureStart ha hi h.toWorkRuns, fun k hk => ?_, fun b c hb hc => ?_, fun j hj => ?_⟩
  · obtain ⟨hr, htarget⟩ := hrest k hk
    exact htarget (h.held.targets k hr)
  · rw [captureStart_asm ha] at hb
    obtain rfl := Option.some.inj hb
    obtain rfl := Option.some.inj hc
    have hseg : ((captureStart i s).seg (blankCapture s i).seg).state = .capturing := by
      rw [captureStart_seg]
      simp [blankCapture]
    rw [hseg]
    exact not_atWork (.inr (.inl rfl))
  · rw [hconv] at hj
    exact h.held.sense j hj

theorem captureOutcome_target (a : Assembly) (c : Capture) (d : Descriptor) (r : Segment)
    (h : AtWork (captureOutcome a c d r).1.state) : (captureOutcome a c d r).1.target.isSome = true := by
  rcases captureOutcome_cases a c d r with ⟨-, ho⟩ | ⟨-, -, ho⟩ | ⟨-, -, -, ho⟩ | ⟨-, -, -, -, ho⟩ | ⟨-, -, -, -, ho⟩
  · simp [ho, AtWork] at h
  all_goals rw [ho]; rfl

theorem captureStore_conv (s : State) : (captureStore s).conv = s.conv := by
  rcases captureStore_cases s with heq | ⟨a, c, -, -, ⟨-, heq⟩ | ⟨-, heq⟩⟩
  · rw [heq]
  · rw [heq]
    rfl
  · rw [heq]
    rfl

theorem targets_captureStore {s : State} (h : TargetRuns s) : TargetRuns (captureStore s) := by
  have hwork := work_captureStore h.toWorkRuns
  have hsense : ∀ j, (captureStore s).conv.job = some j → j.kind = .sense → j.before.senseable = true := by
    rw [captureStore_conv]
    exact h.held.sense
  rcases captureStore_cases s with heq | ⟨a, c, ha, hc, ⟨-, heq⟩ | ⟨-, heq⟩⟩
  · rwa [heq]
  · refine ⟨hwork, fun k hk => ?_, fun b d hb hd => ?_, hsense⟩
    · rw [heq, oweMirror_seg, seg_setSeg] at hk ⊢
      split
      · rename_i hkc
        rw [if_pos hkc] at hk
        exact captureOutcome_target _ _ _ _ hk
      · rename_i hkc
        rw [if_neg hkc] at hk
        exact h.held.targets k hk
    · rw [heq] at hb
      obtain rfl := Option.some.inj hb
      simp at hd
  · have hne := h.held.capture a c ha hc
    refine h.moved hwork ?_ (capturesFrom_none fun b hb => ?_) (.inl (by rw [captureStore_conv]))
    · rw [heq]
      refine AllRest.trans (t := setAsm (some { a with capture := none }) s) (.of_segs rfl) (allRest_setSeg (rests_of_ne ?_))
      rw [captureMovedOn_marks]
      exact hne
    · rw [heq] at hb
      obtain rfl := Option.some.inj hb
      rfl

theorem driveStart_asm (s : State) : (driveStart s).asm = none := by
  unfold driveStart
  split
  · assumption
  · simp only
    split <;> simp

theorem driveStart_conv (s : State) : (driveStart s).conv = s.conv := by
  unfold driveStart
  split
  · rfl
  · simp only
    split <;> simp

theorem targets_driveStart {s : State} (hr : driveReady s = true) (h : TargetRuns s) : TargetRuns (driveStart s) := by
  refine h.moved (work_driveStart hr h.toWorkRuns) ?_ (capturesFrom_none fun a ha => by simp [driveStart_asm] at ha)
    (.inl (by rw [driveStart_conv]))
  unfold driveStart
  split
  · exact .of_segs rfl
  · rename_i a ha
    obtain ⟨-, hstate, -⟩ := h.work.1 a ha
    generalize hout : (a.members.filter (dropped s)).map Member.seg = out
    have hstale : AllRest s (syncHead out (setStates .stale out (setAsm none s))) :=
      (AllRest.of_segs rfl).trans ((allRest_setStates (s := setAsm none s) fun hw => absurd hw (not_atWork (.inl rfl))).trans
        (.of_segs (syncHead_segs _ _)))
    simp only
    split
    · exact hstale
    · intro k
      simp only [setStroke_seg, syncTail_seg, setStates_seg, syncHead_seg]
      split
      · rename_i hk
        intro _
        obtain ⟨m', hm', rfl⟩ := List.mem_map.1 hk
        obtain ⟨m, hm, rfl⟩ := List.mem_map.1 hm'
        have hmember : (s.seg m.seg).state = .member := hstate m (List.mem_filter.1 hm).1
        refine ⟨.inl hmember, fun ht => ?_⟩
        split
        · exact ht
        · exact ht
      · split
        · exact rests_of_ne (not_atWork (.inl rfl))
        · exact rests_refl _

theorem allRest_startSweep (i : SegNo) (s : State) : AllRest s (startSweep i s) := by
  intro k
  rw [startSweep_seg]
  split
  · exact rests_of_ne (not_atWork (.inr (.inr rfl)))
  · exact rests_refl _

theorem allRest_startSense (i : SegNo) (s : State) : AllRest s (startSense i s) := by
  intro k
  rw [startSense_seg]
  split
  · refine rests_of_ne ?_
    simp only
    split
    · exact not_atWork (.inl rfl)
    · exact not_atWork (.inr (.inr rfl))
  · exact rests_refl _

theorem targets_startSweep {s : State} {i : SegNo} (hg : mayGrant s = true) (hi : sweepable s i = true) (h : TargetRuns s) :
    TargetRuns (startSweep i s) := by
  have hrest := allRest_startSweep i s
  refine ⟨work_startSweep hg hi h.toWorkRuns, fun k hk => (hrest k hk).2 (h.held.targets k (hrest k hk).1), fun a c ha hc hw => ?_,
    fun j hj hk => ?_⟩
  · rw [startSweep_asm] at ha
    exact h.held.capture a c ha hc (hrest _ hw).1
  · rw [startSweep_conv] at hj
    obtain rfl := Option.some.inj hj
    simp at hk

theorem targets_startSense {s : State} {i : SegNo} (hg : mayGrant s = true) (hi : sensePick s = some i) (h : TargetRuns s) :
    TargetRuns (startSense i s) := by
  have hrest := allRest_startSense i s
  refine ⟨work_startSense hg hi h.toWorkRuns, fun k hk => (hrest k hk).2 (h.held.targets k (hrest k hk).1), fun a c ha hc hw => ?_,
    fun j hj _ => ?_⟩
  · rw [startSense_asm] at ha
    exact h.held.capture a c ha hc (hrest _ hw).1
  · rw [startSense_conv] at hj
    obtain rfl := Option.some.inj hj
    exact sensePick_senseable hi

theorem targetRules : JudgeRules TargetRuns where
  ends s a ha h := h.moved (work_walkEnd ha h.toWorkRuns) (.of_segs (walkEnd_segs _ _)) (capturesFrom_none (walkEnd_capture a s))
    (.inl (by rw [walkEnd_conv]))
  passes s i rest hb h := h.moved (workRules.passes s i rest hb h.toWorkRuns) (.of_segs rfl) (capturesFrom_of_frame rfl) (.inl rfl)
  starts _ _ _ ha hi h := targets_captureStart ha (freeStale_stale hi) h
  stores _ h := targets_captureStore h
  syncs i s h := h.moved (workRules.syncs i s h.toWorkRuns) (.of_segs (sync_segs _ _ _)) (capturesFrom_of_frame (by rw [sync_asm]))
    (.inl (by rw [sync_conv]))
  opens s hw h := h.moved (workRules.opens s hw h.toWorkRuns) (.of_segs rfl)
    (capturesFrom_none fun a ha => by obtain rfl := Option.some.inj ha; rfl) (.inl rfl)
  drives _ hr h := targets_driveStart hr h
  sweeps _ _ hg _ hi h := targets_startSweep hg hi h
  senses _ _ hg hi h := targets_startSense hg hi h

theorem keepClean_targets {i : SegNo} {s : State} (h : TargetRuns s) : TargetRuns (keepClean i s) := by
  refine h.moved (keepClean_work h.toWorkRuns) (allRest_setSeg ?_) (capturesFrom_of_frame rfl) (.inl rfl)
  rcases (s.seg i).keptCleanIf_or Config.captureGivesWay with hk | ⟨-, -, -, hk⟩
  · rw [hk]
    exact rests_refl _
  · rw [hk]
    exact rests_of_ne (not_atWork (.inl rfl))

/-! ### The records that ends of work leave -/

theorem not_atWork_ended {r : Segment} {st : SegState} (h : ¬AtWork st) : ¬AtWork (r.ended st).state := by
  rw [Segment.state_ended]
  split
  · exact not_atWork (.inl rfl)
  · exact h

theorem not_atWork_finishRecord (cs : List Conversion) (s : State) (m : Member) : ¬AtWork (finishRecord cs s m).state := by
  unfold finishRecord
  split
  · exact not_atWork_ended (not_atWork (.inl rfl))
  · unfold finishUntouched
    split
    · rename_i hf
      have hfaulted : ∀ q : Segment, q.state = .faulted → ¬AtWork (if q.discardAfter then q.discarded else q).state := fun q hq => by
        split
        · exact not_atWork (.inl (by rw [show q.discarded.state = q.state from rfl, hq]; rfl))
        · exact not_atWork (.inl (by rw [hq]; rfl))
      exact hfaulted _ hf
    · refine not_atWork_ended ?_
      split
      · exact not_atWork (.inl rfl)
      · exact not_atWork (.inl rfl)

theorem not_atWork_senseUntouched (before : SegState) (r : Segment) : ¬AtWork (senseUntouchedRecord before r).state := by
  unfold senseUntouchedRecord
  split
  · rename_i hf
    exact not_atWork (.inl (by rw [hf.2]; rfl))
  · refine not_atWork_ended ?_
    split
    · exact not_atWork (.inl rfl)
    · exact not_atWork (.inl rfl)

theorem not_atWork_senseTouched {before : SegState} (hb : before.senseable = true) (r : Segment) :
    ¬AtWork (senseTouchedRecord before r).state := by
  unfold senseTouchedRecord
  split
  · rename_i hf
    exact not_atWork (.inl (by rw [hf.2]; rfl))
  · refine not_atWork_ended ?_
    split
    · split
      · exact not_atWork (.inl rfl)
      · split
        · exact not_atWork (.inl rfl)
        · exact not_atWork (.inl rfl)
    · split
      · exact not_atWork (.inl rfl)
      · exact not_atWork (.inl hb)

theorem jobEnd_rests {s : State} (h : WorkLawful s) {j g : Job} (hj : s.conv.job = some j) (hkind : g.kind = j.kind)
    (hsegs : g.segs = j.segs) (hb : g.kind = .sense → g.before.senseable = true) : AllRest s (jobEnd g s) := by
  intro k
  have hlawful := (h.2.2.1 j hj).2
  unfold jobEnd
  simp only
  cases hk : g.kind with
  | verify =>
    rw [JobLawful, ← hkind, hk] at hlawful
    obtain ⟨d, hd, -, -⟩ := hlawful
    obtain ⟨hnodup, -⟩ := h.2.1 d hd
    simp only
    rw [strokeEnd_seg (s := freeJob s) hd hnodup]
    by_cases hmem : k ∈ d.members.map Member.seg
    · obtain ⟨m, hm, rfl⟩ := List.mem_map.1 hmem
      rw [membersEnded_member hnodup hm]
      exact rests_of_ne (not_atWork_finishRecord _ _ _)
    · rw [membersEnded_other hmem]
      exact rests_refl _
  | sweep =>
    rw [JobLawful, ← hkind, hk] at hlawful
    obtain ⟨i, hi, -⟩ := hlawful
    rw [hsegs, hi]
    simp only
    rw [sweepEnd_seg]
    split
    · refine rests_of_ne ?_
      split
      · exact not_atWork_ended (not_atWork (.inl rfl))
      · exact not_atWork_ended (not_atWork (.inl rfl))
    · exact rests_refl _
  | sense =>
    rw [JobLawful, ← hkind, hk] at hlawful
    obtain ⟨i, hi, -⟩ := hlawful
    rw [hsegs, hi]
    simp only
    rw [senseEnd_seg]
    split
    · refine rests_of_ne ?_
      split
      · exact not_atWork_senseTouched (hb hk) _
      · exact not_atWork_senseUntouched _ _
    · exact rests_refl _

/-- The end of a running job leaves the frame of the Assembler's record, and no job. -/
theorem jobEnd_frame {s : State} (h : WorkLawful s) {j g : Job} (hj : s.conv.job = some j) (hkind : g.kind = j.kind)
    (hsegs : g.segs = j.segs) :
    (jobEnd g s).asm.map Assembly.frame = s.asm.map Assembly.frame ∧ (jobEnd g s).conv.job = none := by
  have hlawful := (h.2.2.1 j hj).2
  unfold jobEnd
  simp only
  cases hk : g.kind with
  | verify =>
    rw [JobLawful, ← hkind, hk] at hlawful
    obtain ⟨d, hd, -, -⟩ := hlawful
    obtain ⟨hnodup, -⟩ := h.2.1 d hd
    obtain ⟨hframe, -⟩ := Prod.mk.inj (foldl_frame (fun s m => finishMember_body g.results m s) d.members (freeJob s))
    have hdriven : (freeJob s).stroke.driven = some d := hd
    have hconv : (d.members.foldl (fun s m => finishMember g.results m s) (freeJob s)).conv = (freeJob s).conv := by
      rw [body_conv (finishMembers_body hnodup (freeJob s)), membersEnded_conv]
    simp only
    rw [strokeEnd, hdriven]
    exact ⟨by simpa using hframe, by simp [hconv]⟩
  | sweep =>
    rw [JobLawful, ← hkind, hk] at hlawful
    obtain ⟨i, hi, -⟩ := hlawful
    rw [hsegs, hi]
    have hkeeps := sweepEnd_keeps g i s
    exact ⟨hkeeps.frame, hkeeps.job⟩
  | sense =>
    rw [JobLawful, ← hkind, hk] at hlawful
    obtain ⟨i, hi, -⟩ := hlawful
    rw [hsegs, hi]
    have hkeeps := senseEnd_keeps g i s
    exact ⟨hkeeps.frame, hkeeps.job⟩

theorem rests_touchContent (r : Segment) : Rests r r.touchContent := by
  unfold Segment.touchContent
  split
  · exact rests_refl r
  · by_cases hc : r.state = .clean
    · exact rests_of_ne (by simp [hc, AtWork])
    · exact rests_of_same (by simp [hc]) rfl

theorem rests_mark (r : Segment) (buf : Buffer) (k : Fin 10) (bad : Bool) : Rests r (r.mark buf k bad) := by
  rw [Segment.mark_marks]
  exact rests_of_same rfl rfl

theorem rests_cellWrite (r : Segment) (shown : Shown) (buf : Buffer) (k : Fin 10) (bad : Bool) : Rests r (r.cellWrite shown buf k bad) := by
  have hmark := rests_mark r buf k bad
  unfold Segment.cellWrite
  simp only
  split
  · exact rests_trans _ _ _ hmark (rests_touchContent _)
  · exact hmark

theorem rests_cleared (r : Segment) : Rests r r.cleared := by
  unfold Segment.cleared
  split
  · exact rests_refl r
  · cases hs : r.state <;> simp [Rests, AtWork, SegState.cleared, hs, Segment.unknow]

theorem allRest_abortMember (s : State) (m : Member) : AllRest s (abortMember m s) := by
  rw [abortMember_eq]
  exact (AllRest.of_segs (t := setAsm _ s) rfl).trans (allRest_setSeg (rests_of_ne (not_atWork_ended (not_atWork (.inl rfl)))))

theorem allRest_abortDrive (s : State) : AllRest s (abortDrive s) := by
  unfold abortDrive
  split
  · exact .of_segs rfl
  · rename_i d _
    split
    · exact (allRest_foldl allRest_abortMember d.members s).trans (.of_segs (by simp))
    · exact .of_segs rfl

theorem abortDrive_frame (s : State) :
    (abortDrive s).asm.map Assembly.frame = s.asm.map Assembly.frame ∧ (abortDrive s).conv = s.conv := by
  have hconv (ms : List Member) : (ms.foldl (fun s m => abortMember m s) s).conv = s.conv :=
    foldl_keeps State.conv (fun u m => by rw [abortMember_eq]; rfl) ms s
  unfold abortDrive
  split
  · exact ⟨rfl, rfl⟩
  · rename_i d _
    obtain ⟨hframe, -⟩ := Prod.mk.inj (foldl_frame (fun s m => congrArg State.body (abortMember_eq m s)) d.members s)
    split
    · exact ⟨by simpa using hframe, by simp [hconv]⟩
    · exact ⟨rfl, rfl⟩

theorem allRest_discardSeg (s : State) (i : SegNo) : AllRest s (discardSeg i s) := by
  have hset : AllRest s (setSeg i { s.seg i with discardAfter := true } s) := allRest_setSeg (rests_of_same rfl rfl)
  have hforget : AllRest s (forgetSeg i s) := by
    intro k
    rw [forgetSeg_seg]
    split
    · exact rests_of_ne (not_atWork (.inl rfl))
    · exact rests_refl _
  unfold discardSeg
  cases (s.seg i).state with
  | clean => exact hforget
  | stale => exact hforget
  | unsure => exact hforget
  | capturing => exact hforget
  | member => exact hforget.trans (.of_segs (removeMember_segs i _))
  | moving => exact hset
  | verifying => exact hset
  | sensing => exact hset
  | faulted => exact .of_segs rfl

theorem capturesFrom_trans {s t u : State} (h : CapturesFrom s t) (k : CapturesFrom t u) : CapturesFrom s u := by
  intro a c ha hc
  obtain ⟨b, d, hb, hd, hdc⟩ := k a c ha hc
  obtain ⟨b', d', hb', hd', hdc'⟩ := h b d hb hd
  exact ⟨b', d', hb', hd', hdc'.trans hdc⟩

theorem capturesFrom_removeMember (i : SegNo) (s : State) : CapturesFrom s (removeMember i s) := by
  unfold removeMember
  split
  · exact capturesFrom_of_frame rfl
  · rename_i a ha
    intro b c hb hc
    obtain rfl := Option.some.inj hb
    exact ⟨a, c, ha, hc, rfl⟩

theorem capturesFrom_discardSeg (i : SegNo) (s : State) : CapturesFrom s (discardSeg i s) := by
  have hforget : CapturesFrom s (forgetSeg i s) := capturesFrom_of_frame (forgetSeg_asm_frame i s)
  unfold discardSeg
  cases (s.seg i).state with
  | clean => exact hforget
  | stale => exact hforget
  | unsure => exact hforget
  | capturing => exact hforget
  | member => exact capturesFrom_trans hforget (capturesFrom_removeMember i _)
  | moving => exact capturesFrom_of_frame rfl
  | verifying => exact capturesFrom_of_frame rfl
  | sensing => exact capturesFrom_of_frame rfl
  | faulted => exact capturesFrom_of_frame rfl

theorem capturesFrom_discardEffect (is : List SegNo) (s : State) : CapturesFrom s (discardEffect is s) := by
  have hsegs : CapturesFrom s (is.foldl (fun s i => discardSeg i s) s) := by
    induction is generalizing s with
    | nil => exact capturesFrom_of_frame rfl
    | cons i is ih => exact capturesFrom_trans (capturesFrom_discardSeg i s) (ih _)
  have hsync := capturesFrom_trans hsegs (capturesFrom_of_frame (by rw [syncTail_asm] : (syncTail is _).asm.map _ = _))
  unfold discardEffect dropEmptyRecord
  split
  · exact hsync
  · split
    · exact capturesFrom_none fun a ha => by simp at ha
    · exact hsync

theorem dropEmptyRecord_conv (s : State) : (dropEmptyRecord s).conv = s.conv := by
  unfold dropEmptyRecord
  split
  · rfl
  · split <;> rfl

theorem discardSeg_conv (i : SegNo) (s : State) : (discardSeg i s).conv = s.conv := by
  unfold discardSeg removeMember
  simp only [forgetSeg_eq]
  cases (s.seg i).state
  case member => simp only; split <;> rfl
  all_goals rfl

theorem discardEffect_conv (is : List SegNo) (s : State) : (discardEffect is s).conv = s.conv := by
  rw [discardEffect, dropEmptyRecord_conv, syncTail_conv]
  exact foldl_keeps State.conv (fun u i => discardSeg_conv i u) is s

theorem settleExpires_asm (s : State) : (settleExpires s).asm = s.asm := by
  unfold settleExpires
  split
  · rfl
  · split <;> simp

end Sys2Proof.Machine

/-! ### The law on CLEAN segments, kept (O60) -/

namespace Sys2Proof.Machine

theorem rests_stopped (r : Segment) : Rests r r.stopped := by
  unfold Segment.stopped
  split
  · exact rests_of_ne (not_atWork (.inl rfl))
  · exact rests_of_ne (not_atWork (.inl rfl))
  · exact rests_of_ne (not_atWork_ended (not_atWork (.inl rfl)))
  · exact rests_refl r

theorem allRest_stopEffect (s : State) : AllRest s (stopEffect s) := by
  have hstroke (u : State) : AllRest u (stopStroke u) := by
    unfold stopStroke
    split
    · exact .of_segs rfl
    · rename_i d _
      refine (allRest_foldl allRest_abortMember d.members u).trans (.of_segs ?_)
      simp only
      split <;> rfl
  exact (AllRest.of_segs (abortResults_segs s)).trans ((hstroke _).trans (allRest_map rests_stopped (stopEffect_segs s)))

theorem rests_initialised (r : Segment) : Rests r r.initialised := by
  refine rests_of_ne (not_atWork (.inl ?_))
  unfold Segment.initialised
  simp only
  split <;> rfl

theorem targets_settleExpires {s : State} (hw : WorkLawful s) (h : TargetsHeld s) : TargetsHeld (settleExpires s) := by
  have hcap : CapturesFrom s (settleExpires s) := capturesFrom_of_frame (by rw [settleExpires_asm])
  unfold settleExpires at hcap ⊢
  split
  · exact h
  · rename_i d hd
    simp only [hd] at hcap
    split
    · rename_i hp
      rw [if_pos hp] at hcap
      have hrest : AllRest s (setStates .verifying (d.members.map Member.seg) s) :=
        allRest_setStates fun _ i hi => atWork_of_driven hw hd hi
      have hseg : AllRest s (grant ⟨.verify, d.members.map Member.seg, verifyPins d.members, [], false, .unsure⟩
          (setStroke { s.stroke with driven := some { d with phase := .verify }, settle := .idle }
            (syncTail (d.members.map Member.seg) (setStates .verifying (d.members.map Member.seg) s)))) :=
        hrest.trans (.of_segs (syncTail_segs _ _))
      have hmoved : TargetsHeld { s with segs := (setStates .verifying (d.members.map Member.seg) s).segs } :=
        h.moved hrest (capturesFrom_of_frame rfl) (.inl rfl)
      refine ⟨fun i hi => ?_, fun a c ha hc hwork => ?_, fun j hj hk => ?_⟩
      · have hat := hseg i
        simp only [syncTail_stroke, setStates_stroke] at hi ⊢
        obtain ⟨hr, htarget⟩ := hat hi
        exact htarget (h.targets i hr)
      · obtain ⟨b, e, hb, he, hec⟩ := hcap a c ha hc
        refine h.capture b e hb he (hec ▸ ?_)
        have hat := hseg c.seg
        simp only [syncTail_stroke, setStates_stroke] at hwork
        exact (hat hwork).1
      · obtain rfl := Option.some.inj hj
        simp at hk
    · exact h

theorem driveExpires_same (s : State) : (driveExpires s).asm = s.asm ∧ (driveExpires s).conv = s.conv := by
  unfold driveExpires
  split
  · exact ⟨rfl, rfl⟩
  · split <;> exact ⟨rfl, rfl⟩

theorem touchStroke_same (l : LineNo) (s : State) : (touchStroke l s).asm = s.asm ∧ (touchStroke l s).conv = s.conv := by
  unfold touchStroke
  split <;> exact ⟨rfl, rfl⟩

theorem touchJob_hold (l : LineNo) (s : State) : (touchJob l s).conv.job.map Job.hold = s.conv.job.map Job.hold := by
  unfold touchJob
  split
  · rfl
  · rename_i j hj
    split
    · rw [hj]
      rfl
    · rfl

theorem Act.targets {cmd : Instr} {s t : State} (h : Act cmd s t) (hw : WorkLawful s) (hs : TargetsHeld s) : TargetsHeld t := by
  have hruns : queuesRun s.engine = true → TargetRuns s := fun hr => ⟨⟨hw, hr⟩, hs⟩
  cases h with
  | same h => exact hs.moved (.of_segs h.segs) (capturesFrom_of_frame (by rw [h.asm])) (.inl (by rw [h.conv]))
  | judged =>
    cases hrun : queuesRun s.engine with
    | true => exact (targetRules.judge (hruns hrun)).held
    | false => rwa [judge_idle hw hrun]
  | written buf k bad i hr =>
    exact hs.moved (allRest_putSeg (rests_cellWrite _ _ _ _ _)) (capturesFrom_of_frame (by rw [putSeg_asm])) (.inl (by rw [putSeg_conv]))
  | marked buf k ha _ =>
    exact hs.moved (allRest_putSeg (rests_mark _ _ _ _)) (capturesFrom_of_frame (by rw [putSeg_asm])) (.inl (by rw [putSeg_conv]))
  | read ha hc d hd _ =>
    refine hs.moved (.of_segs rfl) (fun b c hb hc' => ?_) (.inl rfl)
    obtain rfl := Option.some.inj hb
    obtain rfl := Option.some.inj hc'
    exact ⟨_, _, ha, hc, hd.symm⟩
  | captureEnds _ ha _ =>
    exact (targetRules.captureEnd (keepClean_targets (targets_captureStore (hruns (runs_of_asm hw ha))))).held
  | settleExpires => exact targets_settleExpires hw hs
  | driveExpires =>
    obtain ⟨hasm, hconv⟩ := driveExpires_same s
    exact hs.moved (.of_segs (driveExpires_segs s)) (capturesFrom_of_frame (by rw [hasm])) (.inl (by rw [hconv]))
  | value hj hconv c g hc hsense hg hk hsegs hb _ =>
    refine hs.moved (.of_segs rfl) (capturesFrom_of_frame rfl) (.inl ?_)
    rw [setConv_conv, hg, hj]
    exact congrArg some (by simp only [Job.hold, hk, hsegs, hb])
  | jobEnds _ hj _ g hk hsegs hb _ =>
    obtain ⟨hframe, hnone⟩ := jobEnd_frame hw hj hk hsegs
    refine hs.moved (jobEnd_rests hw hj hk hsegs fun hsense => ?_) (capturesFrom_of_frame hframe) (.inr hnone)
    rw [hb]
    exact hs.sense _ hj (hk ▸ hsense)
  | abortDrive =>
    obtain ⟨hframe, hconv⟩ := abortDrive_frame s
    exact hs.moved (allRest_abortDrive s) (capturesFrom_of_frame hframe) (.inl (by rw [hconv]))
  | touchStroke l =>
    obtain ⟨hasm, hconv⟩ := touchStroke_same l s
    exact hs.moved (.of_segs (touchStroke_segs l s)) (capturesFrom_of_frame (by rw [hasm])) (.inl (by rw [hconv]))
  | touchJob l =>
    exact hs.moved (.of_segs (touchJob_segs l s)) (capturesFrom_of_frame (by rw [touchJob_asm])) (.inl (touchJob_hold l s))
  | opened hoff => exact hs.moved (.of_segs rfl) (capturesFrom_of_frame rfl) (.inl rfl)
  | stopped _ =>
    obtain ⟨hj, -, -⟩ := stopEffect_rest s
    exact hs.moved (allRest_stopEffect s) (capturesFrom_none fun a ha => by simp [stopEffect_asm] at ha) (.inr hj)
  | shown _ named =>
    exact hs.moved (allRest_map rests_touchContent (syncTail_segs _ _)) (capturesFrom_of_frame (by rw [showParts, syncTail_asm]))
      (.inl (by rw [showParts, syncTail_conv]))
  | held _ b is =>
    exact hs.moved ((allRest_mapSegs (f := fun r => { r with held := b }) (fun r => rests_of_same rfl rfl) is s).trans
      (.of_segs (syncTail_segs _ _))) (capturesFrom_of_frame (by simp)) (.inl (by simp))
  | cleared _ is =>
    exact hs.moved ((allRest_mapSegs rests_cleared is s).trans (.of_segs (syncTail_segs _ _))) (capturesFrom_of_frame (by simp))
      (.inl (by simp))
  | discarded _ is =>
    exact hs.moved ((allRest_foldl allRest_discardSeg is s).trans (.of_segs ((dropEmptyRecord_segs _).trans (syncTail_segs _ _))))
      (capturesFrom_discardEffect is s) (.inl (by rw [discardEffect_conv]))
  | promoted _ _ a => exact hs.moved (.of_segs rfl) (capturesFrom_of_frame rfl) (.inl rfl)
  | sensed _ _ r => exact hs.moved (.of_segs rfl) (capturesFrom_of_frame rfl) (.inl rfl)
  | refusedDescriptor _ off => exact hs.moved (.of_segs rfl) (capturesFrom_of_frame rfl) (.inl rfl)
  | accepted _ _ d =>
    exact hs.moved (allRest_map rests_initialised (syncTail_segs _ _)) (capturesFrom_of_frame (by rw [syncTail_asm]; rfl))
      (.inl (by rw [syncTail_conv]; rfl))
  | loaded =>
    exact hs.moved (.of_segs (judgeLoading_segs s)) (capturesFrom_of_frame (by rw [judgeLoading_asm])) (.inl (by rw [judgeLoading_conv]))
  | offered v =>
    have hconv : (offerConsumer v s).conv = s.conv := by
      unfold offerConsumer
      split <;> rfl
    exact hs.moved (.of_segs (offerConsumer_segs v s)) (capturesFrom_of_frame (by rw [offerConsumer_asm])) (.inl (by rw [hconv]))
  | reset strap =>
    refine ⟨fun i hi => ?_, fun a c ha => (nomatch ha), fun j hj => (nomatch hj)⟩
    have hreset : (State.poweredOn s.mem s.pins strap s.pending).seg i = Segment.reset := by simp [State.seg, State.poweredOn]
    rw [hreset] at hi
    exact absurd hi (not_atWork (.inl rfl))

/-- Every act keeps the dirty mark of a CLEAN segment clear. -/
theorem Act.dirtyClear {cmd : Instr} {s t : State} (h : Act cmd s t) (hw : WorkLawful s)
    (hs : ∀ i, (s.seg i).state = .clean → (s.seg i).dirty = false) (i : SegNo) (hi : (t.seg i).state = .clean) :
    (t.seg i).dirty = false := by
  have hsettles : Settles (s.seg i) (t.seg i) → (t.seg i).dirty = false := fun hset => by
    rcases hset hi with hf | ⟨hc, -, -, -, hd⟩
    · exact hf.1
    · exact hd.trans (hs i hc)
  rcases h.settles with hall | ⟨-, a, c, ha, hc, rfl⟩ | ⟨-, j, g, hj, hk, hsegs, hb, rfl⟩
  · exact hsettles (hall i)
  · have hleaves := captureEnd_leaves ha hc i
    split at hleaves
    · rcases hleaves.dirty hi with hd | ⟨hcl, hd⟩
      · exact hd
      · exact hd.trans (hs i hcl)
    · exact hsettles hleaves
  · rcases jobEnd_finishes hw hj hk hsegs hb i with heq | hfin
    · rw [heq] at hi ⊢
      exact hs i hi
    · exact (hfin hi).1

theorem Act.clean {cmd : Instr} {s t : State} (h : Act cmd s t) (hw : WorkLawful s) (hs : CleanLawful s) : CleanLawful t := by
  obtain ⟨hdirty, htargets⟩ := (cleanLawful_iff s).1 hs
  exact (cleanLawful_iff t).2 ⟨h.dirtyClear hw hdirty, h.targets hw htargets⟩

theorem step_cleanLawful {s t : State} (hw : WorkLawful s) (hs : CleanLawful s) (h : step s = .next t) : CleanLawful t := by
  have hkeep := step_keeps_work (P := fun s => WorkLawful s ∧ CleanLawful s)
    (fun _ _ _ hu ha => ⟨ha.work hu.1, ha.clean hu.1 hu.2⟩) ⟨hw, hs⟩ h
  exact hkeep.2

/-! ### The two events that may end work CLEAN -/

theorem captureByte_same (buf : Buffer) (i : SegNo) (k : Fin 10) (bad : Bool) (s : State) (j : SegNo) :
    ((captureByte buf i k bad s).seg j).state = (s.seg j).state ∧ SameShown (s.seg j) ((captureByte buf i k bad s).seg j) := by
  unfold captureByte
  split
  · rw [raise_seg, post_seg, putSeg_seg]
    split
    · rename_i hj
      rw [Segment.mark_marks, hj]
      exact ⟨rfl, rfl, rfl, rfl, rfl⟩
    · exact ⟨rfl, rfl, rfl, rfl, rfl⟩
  · exact ⟨rfl, rfl, rfl, rfl, rfl⟩

theorem CaptureLeaves.from {r' r u : Segment} (h : CaptureLeaves r u) (hs : r.state = r'.state) (hr : SameShown r' r) :
    CaptureLeaves r' u where
  settles hne := settles_trans _ _ _ (settles_of_same hs hr) (h.settles (hs ▸ hne))
  shows := h.shows
  dirty hu := by
    obtain ⟨-, -, -, hd⟩ := hr
    rcases h.dirty hu with h1 | ⟨h1, h2⟩
    · exact .inl h1
    · exact .inr ⟨hs ▸ h1, h2.trans hd⟩

theorem captureTakes_leaves {a : Assembly} {c : Capture} {s : State} (buf : Buffer) (w : Word)
    (lo hi : Bool) (k : SegNo) :
    c.seg = k ∧ CaptureLeaves (s.seg k) ((captureTakes a c buf w lo hi s).seg k) ∨
      Settles (s.seg k) ((captureTakes a c buf w lo hi s).seg k) := by
  obtain ⟨hs1, ht1, hh1, hf1, hd1⟩ := captureByte_same buf c.seg (readCell c.words.length 0) lo s k
  obtain ⟨hs2, ht2, hh2, hf2, hd2⟩ := captureByte_same buf c.seg (readCell c.words.length 1) hi
    (captureByte buf c.seg (readCell c.words.length 0) lo s) k
  unfold captureTakes
  simp only
  generalize hu : captureByte buf c.seg (readCell c.words.length 1) hi (captureByte buf c.seg (readCell c.words.length 0) lo s) = u at *
  have hstate : (u.seg k).state = (s.seg k).state := hs2.trans hs1
  have hshown : SameShown (s.seg k) (u.seg k) := ⟨ht2.trans ht1, hh2.trans hh1, hf2.trans hf1, hd2.trans hd1⟩
  split
  · exact .inr (settles_of_same hstate hshown)
  · have hleaves := captureEnd_leaves (c := { c with words := c.words ++ [w], badRead := c.badRead || lo || hi })
      (s := setAsm (some { a with capture := some { c with words := c.words ++ [w], badRead := c.badRead || lo || hi } }) u) rfl rfl k
    split at hleaves
    · rename_i hk
      exact .inl ⟨hk.symm, hleaves.from hstate hshown⟩
    · exact .inr (settles_trans _ _ _ (settles_of_same hstate hshown) hleaves)

theorem abandonedRead_segs (s : State) : (abandonedRead s).segs = s.segs := by
  unfold abandonedRead
  split <;> rfl

theorem captureReadEnds_leaves (s : State) (k : SegNo) :
    (∃ a c, s.asm = some a ∧ a.capture = some c ∧ c.seg = k) ∧ CaptureLeaves (s.seg k) ((captureReadEnds s).seg k) ∨
      Settles (s.seg k) ((captureReadEnds s).seg k) := by
  have habandoned : Settles (s.seg k) ((abandonedRead s).seg k) := AllSettle.of_segs (abandonedRead_segs s) k
  unfold captureReadEnds
  split
  · exact .inr habandoned
  · rename_i a ha
    split
    · exact .inr habandoned
    · rename_i c hc
      split
      · exact .inr habandoned
      · rename_i buf hbuf
        rcases captureTakes_leaves (s := servedPart .read s) (a := a) (c := c) buf
          (s.mem.word (areaBase s + captureOffset buf c.seg c.words.length))
          (!goodParity (s.mem.byte (areaBase s + captureOffset buf c.seg c.words.length))
            (s.mem.par (areaBase s + captureOffset buf c.seg c.words.length)))
          (!goodParity (s.mem.byte (areaBase s + captureOffset buf c.seg c.words.length + 1))
            (s.mem.par (areaBase s + captureOffset buf c.seg c.words.length + 1))) k with ⟨hk, hl⟩ | hs
        · exact .inl ⟨⟨a, c, ha, hc, hk⟩, hl⟩
        · exact .inr hs

/-- The value that a conversion hands to its job, with the pins still to convert. -/
def handed (s : State) (j : Job) (i : SegNo) (p : Pin) (rest : List (SegNo × Pin)) (v : BitVec 10) : Job :=
  { j with todo := rest, results := j.results ++ [⟨i, p, v, classify s.engine.copy v⟩] }

/-- A conversion's end changes the converter alone, or ends the job and lets new work start (R108 to R110). -/
theorem conversionEnds_cases (v : BitVec 10) (s : State) :
    (∃ c, conversionEnds v s = setConv c s) ∨
      ∃ j i p, s.conv.job = some j ∧ s.conv.state = .converting ∧ j.todo = [(i, p)] ∧ s.conv.warmUp ≠ .set ∧
        conversionEnds v s = judge (jobEnd (handed s j i p [] v) (setConv { s.conv with warmUp := .clear } s)) := by
  unfold conversionEnds
  split
  · rename_i hconv
    split
    · exact .inl ⟨s.conv, rfl⟩
    · rename_i j hj
      split
      · exact .inl ⟨s.conv, rfl⟩
      · rename_i i p rest htodo
        split
        · exact .inl ⟨_, rfl⟩
        · rename_i hwarm
          cases rest with
          | nil => exact .inr ⟨j, i, p, hj, hconv, htodo, hwarm, rfl⟩
          | cons next rest => exact .inl ⟨_, rfl⟩
  · exact .inl ⟨s.conv, rfl⟩

theorem work_clearWarmUp {s : State} (h : WorkLawful s) (w : WarmUp) : WorkLawful (setConv { s.conv with warmUp := w } s) :=
  h.moved rfl rfl rfl rfl (.of_segs rfl) fun hr => ⟨hr, rfl, rfl⟩

theorem senseTouched_clean {before : SegState} {r : Segment} (h : (senseTouchedRecord before r).state = .clean) : before = .clean := by
  unfold senseTouchedRecord at h
  split at h
  · rename_i hf
    simp [hf.2] at h
  · rw [Segment.state_ended] at h
    split at h
    · simp at h
    · split at h
      · assumption
      · split at h
        · simp at h
        · exact h

theorem senseUntouched_clean {before : SegState} {r : Segment} (h : (senseUntouchedRecord before r).state = .clean) :
    r.target.isSome = true ∧ (senseUntouchedRecord before r).target = r.target := by
  unfold senseUntouchedRecord at h ⊢
  split at h
  · rename_i hf
    simp [hf.2] at h
  · rename_i hf
    rw [if_neg hf]
    rw [Segment.state_ended] at h
    split at h
    · simp at h
    · rename_i hd
      split at h
      · rename_i hclean
        exact ⟨hclean.1, by rw [Segment.ended, if_neg hd]⟩
      · simp at h

theorem senseTouched_target {before : SegState} {r : Segment} (h : (senseTouchedRecord before r).state = .clean) :
    (senseTouchedRecord before r).target = r.target := by
  unfold senseTouchedRecord at h ⊢
  split at h
  · rename_i hf
    simp [hf.2] at h
  · rename_i hf
    rw [if_neg hf]
    rw [Segment.state_ended] at h
    split at h
    · simp at h
    · rename_i hd
      rw [Segment.ended, if_neg hd]

/-- What the end of a job leaves CLEAN has a target, but after a touched SENSE job that began on a CLEAN segment without one. -/
theorem jobEnd_target {s : State} (h : WorkLawful s) (ht : TargetsHeld s) {j g : Job} (hj : s.conv.job = some j)
    (hkind : g.kind = j.kind) (hsegs : g.segs = j.segs) (hbefore : g.before = j.before) (k : SegNo)
    (hsense : g.kind = .sense → g.segs = [k] → g.before = .clean → g.touched = true → (s.seg k).target.isSome = true)
    (hk : ((jobEnd g s).seg k).state = .clean) :
    (jobEnd g s).seg k = s.seg k ∨ ((jobEnd g s).seg k).target.isSome = true := by
  rcases jobEnd_finishes h hj hkind hsegs hbefore k with hsame | hfin
  · exact .inl hsame
  obtain ⟨-, -, htarget⟩ := hfin hk
  have hlawful := (h.2.2.1 j hj).2
  unfold jobEnd at hk htarget ⊢
  simp only at hk htarget ⊢
  cases hg : g.kind with
  | verify =>
    rw [hg] at hk htarget
    rw [JobLawful, ← hkind, hg] at hlawful
    obtain ⟨d, hd, -, -⟩ := hlawful
    obtain ⟨hnodup, -⟩ := h.2.1 d hd
    by_cases hmem : k ∈ d.members.map Member.seg
    · exact .inr (htarget (ht.targets k (atWork_of_driven h hd hmem)))
    · left
      simp only
      rw [strokeEnd_seg (s := freeJob s) hd hnodup]
      exact membersEnded_other hmem
  | sweep =>
    rw [hg] at hk
    rw [JobLawful, ← hkind, hg] at hlawful
    obtain ⟨i, hi, -⟩ := hlawful
    rw [hsegs, hi] at hk ⊢
    simp only at hk ⊢
    rw [sweepEnd_seg] at hk ⊢
    split at hk
    · split at hk
      all_goals
        rw [Segment.state_ended] at hk
        split at hk <;> simp at hk
    · rename_i hki
      rw [if_neg hki]
      exact .inl rfl
  | sense =>
    rw [hg] at hk htarget
    rw [JobLawful, ← hkind, hg] at hlawful
    obtain ⟨i, hi, -⟩ := hlawful
    rw [hsegs, hi] at hk htarget ⊢
    simp only at hk htarget ⊢
    rw [senseEnd_seg] at hk htarget ⊢
    split at hk
    · rename_i hki
      subst hki
      rw [if_pos rfl] at htarget ⊢
      right
      split at hk
      · rename_i htouched
        exact htarget (hsense hg (hsegs.trans hi) (senseTouched_clean hk) htouched)
      · rename_i htouched
        rw [if_neg htouched]
        obtain ⟨hsome, heq⟩ := senseUntouched_clean hk
        rw [heq]
        exact hsome
    · rename_i hki
      rw [if_neg hki]
      exact .inl rfl

theorem closeEvent_segment (b s : State) (k : SegNo) : (closeEvent b s).seg k = s.seg k := by
  rw [State.seg, (sameWork_closeEvent b s).segs]
  rfl

/-- A record that is CLEAN only with dirty clear and with what it shows. -/
def Tidy (r : Segment) : Prop := r.state = .clean → r.dirty = false ∧ changeSet r = 0

theorem Settles.tidy {r u : Segment} (h : Settles r u) (hr : Tidy r) : Tidy u := fun hu => by
  rcases h hu with hf | ⟨hc, hshown⟩
  · exact ⟨hf.1, hf.2.2⟩
  · obtain ⟨hd, hch⟩ := hr hc
    have hsame := changeSet_of_shown hshown (by simp [hc]) (by simp [hu])
    obtain ⟨-, -, -, hdirty⟩ := hshown
    exact ⟨hdirty.trans hd, by rw [hsame]; exact hch⟩

theorem Settles.showing {r u : Segment} (h : Settles r u) (hr : r.state = .clean → ShowsTarget r) (hu : u.state = .clean) :
    ShowsTarget u := by
  rcases h hu with hf | ⟨hc, hshown⟩
  · exact hf.2
  · obtain ⟨htarget, hchange⟩ := hr hc
    have hsame := changeSet_of_shown hshown (by simp [hc]) (by simp [hu])
    obtain ⟨ht, -, -, -⟩ := hshown
    exact ⟨by rw [ht]; exact htarget, by rw [hsame]; exact hchange⟩

theorem exec_becomesTidy {c : Instr} {s t : State} {i : SegNo} (hw : WorkLawful s) (h : exec c s = .next t)
    (hs : (s.seg i).state ≠ .clean) : Tidy (t.seg i) := by
  have hstart : Tidy (s.seg i) := fun hc => absurd hc hs
  by_cases hcap : c = .captureReadEnd
  · subst hcap
    obtain rfl : closeEvent s (captureReadEnds s) = t := Host.Outcome.next.inj h
    rw [closeEvent_segment]
    rcases captureReadEnds_leaves s i with ⟨-, hl⟩ | hset
    · exact (hl.settles hs).tidy hstart
    · exact hset.tidy hstart
  by_cases hconv : ∃ v, c = .conversionEnd v
  · obtain ⟨v, rfl⟩ := hconv
    obtain rfl : closeEvent s (conversionEnds v s) = t := Host.Outcome.next.inj h
    rw [closeEvent_segment]
    rcases conversionEnds_cases v s with ⟨c, heq⟩ | ⟨j, k, p, hj, -, -, -, heq⟩
    · rw [heq]
      exact hstart
    · rw [heq]
      refine (allSettle_judge _ i).tidy ?_
      rcases jobEnd_finishes (work_clearWarmUp hw .clear) (g := handed s j k p [] v) hj rfl rfl rfl i with hsame | hfin
      · rw [hsame]
        exact hstart
      · exact fun hc => ⟨(hfin hc).1, (hfin hc).2.1⟩
  · exact ((exec_meaning h).course.settles hcap (fun v hv => hconv ⟨v, hv⟩) i).tidy hstart

theorem exec_shows {c : Instr} {s t : State} {i : SegNo} (hw : WorkLawful s) (hclean : CleanLawful s) (h : exec c s = .next t)
    (hs : (s.seg i).state = .clean → ShowsTarget (s.seg i))
    (hway : c = .captureReadEnd → (s.seg i).state = .clean → (∃ a cap, s.asm = some a ∧ a.capture = some cap ∧ cap.seg = i) →
      Config.captureGivesWay = true)
    (hsense : (∃ v, c = .conversionEnd v) → ∀ j, s.conv.job = some j → j.kind = .sense → j.segs = [i] → j.before = .clean →
      j.touched = true → (s.seg i).target.isSome = true) (hi : (t.seg i).state = .clean) : ShowsTarget (t.seg i) := by
  by_cases hcap : c = .captureReadEnd
  · subst hcap
    obtain rfl : closeEvent s (captureReadEnds s) = t := Host.Outcome.next.inj h
    rw [closeEvent_segment] at hi ⊢
    rcases captureReadEnds_leaves s i with ⟨hunder, hl⟩ | hset
    · by_cases hc : (s.seg i).state = .clean
      · exact hl.shows (hway rfl hc hunder) hi
      · exact (hl.settles hc).showing hs hi
    · exact hset.showing hs hi
  by_cases hconv : ∃ v, c = .conversionEnd v
  · have hends := hsense hconv
    obtain ⟨v, rfl⟩ := hconv
    obtain rfl : closeEvent s (conversionEnds v s) = t := Host.Outcome.next.inj h
    rw [closeEvent_segment] at hi ⊢
    rcases conversionEnds_cases v s with ⟨c, heq⟩ | ⟨j, k, p, hj, -, -, -, heq⟩
    · rw [heq] at hi ⊢
      exact hs hi
    · rw [heq] at hi ⊢
      refine (allSettle_judge _ i).showing (fun hc => ?_) hi
      obtain ⟨-, htargets⟩ := (cleanLawful_iff s).1 hclean
      have htargets' : TargetsHeld (setConv { s.conv with warmUp := .clear } s) :=
        htargets.moved (.of_segs rfl) (capturesFrom_of_frame rfl) (.inl rfl)
      have hwork := work_clearWarmUp hw .clear
      rcases jobEnd_target hwork htargets' (g := handed s j k p [] v) hj rfl rfl rfl i (fun hk hsegs hb ht =>
        hends j hj hk hsegs hb ht) hc with hsame | htarget
      · rw [hsame] at hc ⊢
        exact hs hc
      · rcases jobEnd_finishes hwork (g := handed s j k p [] v) hj rfl rfl rfl i with hsame | hfin
        · rw [hsame] at hc ⊢
          exact hs hc
        · exact ⟨htarget, (hfin hc).2.1⟩
  · exact ((exec_meaning h).course.settles hcap (fun v hv => hconv ⟨v, hv⟩) i).showing hs hi

/-- Settles O60: a record becomes CLEAN at the end of a capture, of a stroke or of a SENSE job alone, each of which judges its change set. -/
theorem becomesClean : Obligations.BecomesClean := by
  unfold Obligations.BecomesClean
  refine ⟨fun s t hw hs h => ?_, fun c s t i hw hclean h hi hs hway hsense => ?_, fun c s t i hw h hs hi => ?_⟩
  case refine_1 => exact step_cleanLawful hw hs h
  case refine_2 => exact exec_shows hw hclean h hs hway hsense hi
  case refine_3 => exact exec_becomesTidy hw h hs hi

end Sys2Proof.Machine

/-! ### The law of the queue over walks, drives and grants (R40, R47) -/

namespace Sys2Proof.Machine

/-- Queue-ability depends on the engine only by whether its queue runs and by its shown buffer. -/
theorem queueable_congr {e f : Engine} (hr : queuesRun f = queuesRun e) (hs : f.shown = e.shown) (r : Segment) :
    queueable f r = queueable e r := by rw [queueable, hr, hs, ← queueable]

/-- The law depends on the entries and on the queue-ability of the segments that it speaks of. -/
theorem QueueLawfulBut.agree {S : List SegNo} {s t : State} (h : QueueLawfulBut S s) (hq : t.queue.entries = s.queue.entries)
    (hs : ∀ i, i ∉ S → queueable t.engine (t.seg i) = queueable s.engine (s.seg i)) : QueueLawfulBut S t :=
  ⟨hq ▸ h.1, fun i hi => by rw [hq, hs i hi]; exact h.2 i hi⟩

theorem QueueLawful.agree {s t : State} (h : QueueLawful s) (hq : t.queue.entries = s.queue.entries)
    (hs : ∀ i, queueable t.engine (t.seg i) = queueable s.engine (s.seg i)) : QueueLawful t :=
  ((h.but []).agree hq fun i _ => hs i).all

theorem QueueLawfulBut.putSeg {S : List SegNo} {s : State} (h : QueueLawfulBut S s) (e : QueueEnd) (i : SegNo) (r : Segment) :
    QueueLawfulBut S (Machine.putSeg e i r s) := by
  refine ((h.setSeg i r).sync e i).mono fun k hk => ?_
  obtain ⟨hmem, hne⟩ := List.mem_filter.1 hk
  rcases List.mem_cons.1 hmem with rfl | hmem
  · simp at hne
  · exact hmem

theorem QueueLawfulBut.setStates {S : List SegNo} {s : State} (h : QueueLawfulBut S s) (st : SegState) (is : List SegNo) :
    QueueLawfulBut (is ++ S) (Machine.setStates st is s) := by
  refine QueueLawfulBut.congr (s := s) (h.mono fun i hi => List.mem_append_right _ hi) (by rw [setStates_queue]) (fun i hi => ?_)
    (setStates_engine st is s)
  rw [setStates_seg, if_neg fun hmem => hi (List.mem_append_left _ hmem)]

/-- Judging the tail joins of some segments takes them out of the list of those still to be judged. -/
theorem QueueLawfulBut.syncTails {is S : List SegNo} {s : State} (h : QueueLawfulBut S s) :
    QueueLawfulBut (S.filter fun i => !is.contains i) (Machine.syncTail is s) := h.syncs (e := .tail)

theorem QueueLawfulBut.setAsm {S : List SegNo} {s : State} (h : QueueLawfulBut S s) (a : Option Assembly) :
    QueueLawfulBut S (Machine.setAsm a s) := h

theorem QueueLawfulBut.setStroke {S : List SegNo} {s : State} (h : QueueLawfulBut S s) (u : StrokeUnit) :
    QueueLawfulBut S (Machine.setStroke u s) := h

theorem queue_walkEnd {S : List SegNo} {s : State} (a : Assembly) (h : QueueLawfulBut S s) : QueueLawfulBut S (walkEnd a s) := by
  have hqueue : QueueLawfulBut S (setQueue s.queue.endWalk s) := h.congr (entries_endWalk _) (fun _ _ => rfl) rfl
  unfold walkEnd
  simp only
  split
  · exact hqueue
  · exact hqueue

theorem queue_captureStart {S : List SegNo} {s : State} (i : SegNo) (h : QueueLawfulBut S s) : QueueLawfulBut S (captureStart i s) := by
  unfold captureStart
  split
  · exact h.putSeg .tail i _
  · exact (h.setAsm _).putSeg .tail i _

/-- A capture's end changes the record of its segment alone. -/
theorem queue_captureStore {S : List SegNo} {s : State} (h : QueueLawfulBut S s) {i : SegNo}
    (hi : ∀ a c, s.asm = some a → a.capture = some c → c.seg = i) : QueueLawfulBut (i :: S) (captureStore s) := by
  rcases captureStore_cases s with heq | ⟨a, c, ha, hc, ⟨-, heq⟩ | ⟨-, heq⟩⟩
  · rw [heq]
    exact h.mono fun k hk => List.mem_cons_of_mem _ hk
  · rw [heq, hi a c ha hc]
    exact h.setSeg i _
  · rw [heq, hi a c ha hc]
    exact h.setSeg i _

theorem queue_captureNone {S : List SegNo} {s : State} {a : Assembly} (ha : s.asm = some a) (i : SegNo) (h : QueueLawfulBut S s) :
    QueueLawfulBut S (captureNone i s) := by
  have hstore : QueueLawfulBut (i :: S) (captureStore (captureStart i s)) := by
    refine queue_captureStore (queue_captureStart i h) fun b c hb hc => ?_
    rw [captureStart_asm ha] at hb
    obtain rfl := Option.some.inj hb
    obtain rfl := Option.some.inj hc
    rfl
  refine (hstore.sync .tail i).mono fun k hk => ?_
  obtain ⟨hmem, hne⟩ := List.mem_filter.1 hk
  rcases List.mem_cons.1 hmem with rfl | hmem
  · simp at hne
  · exact hmem

theorem queue_walkFromMark {S : List SegNo} {s : State} (h : QueueLawfulBut S s) : QueueLawfulBut S (walkFromMark s) := by
  have hpass : ∀ {u : State} {i : SegNo} {rest : List SegNo}, u.queue.behind = i :: rest → QueueLawfulBut S u →
      QueueLawfulBut S (setQueue (u.queue.passMark i rest) u) :=
    fun hb hu => hu.congr (entries_passMark hb) (fun _ _ => rfl) rfl
  exact walkOn_induct (QueueLawfulBut S) (fun u a _ hu => queue_walkEnd a hu) (fun u a i rest _ hb hu => hpass hb hu)
    (fun u a i rest _ hb _ hu => queue_captureStart i (hpass hb hu))
    (fun u a i rest ha hb _ _ hu => queue_captureNone (s := setQueue (u.queue.passMark i rest) u) ha i (hpass hb hu)) _ s h

/-- Of a list and the segments judged, those not judged are of the list. -/
theorem mem_of_judged {is S : List SegNo} {k : SegNo} (hk : k ∈ (is ++ S).filter fun i => !is.contains i) : k ∈ S := by
  obtain ⟨hmem, hne⟩ := List.mem_filter.1 hk
  rcases List.mem_append.1 hmem with hmem | hmem
  · simp [hmem] at hne
  · exact hmem

theorem queue_driveStart {S : List SegNo} {s : State} (h : QueueLawfulBut S s) : QueueLawfulBut S (driveStart s) := by
  unfold driveStart
  split
  · exact h
  · rename_i a _
    have hout : QueueLawfulBut S (syncHead ((a.members.filter (dropped s)).map Member.seg)
        (setStates .stale ((a.members.filter (dropped s)).map Member.seg) (setAsm none s))) :=
      ((h.setAsm none).setStates .stale _).syncHead.mono fun k hk => mem_of_judged hk
    simp only
    split
    · exact hout
    · exact (QueueLawfulBut.syncTails (hout.setStates .moving _)).mono fun k hk => mem_of_judged hk

theorem queue_startSense {S : List SegNo} {s : State} (i : SegNo) (h : QueueLawfulBut S s) : QueueLawfulBut S (startSense i s) := by
  unfold startSense
  simp only
  split
  · exact h
  · exact h.putSeg .tail i _

theorem queue_judge {S : List SegNo} {s : State} (h : QueueLawfulBut S s) : QueueLawfulBut S (judge s) := by
  refine judge_induct (QueueLawfulBut S) (fun u _ hu => queue_driveStart hu) (fun u _ hu => queue_walkFromMark ?_)
    (fun u i _ _ _ hu => QueueLawfulBut.putSeg hu .tail i _) (fun u i _ _ hu => queue_startSense i hu) s h
  exact QueueLawfulBut.congr (s := u) hu (entries_startWalk _) (fun _ _ => rfl) rfl

theorem QueueLawful.walk {s : State} (h : QueueLawful s) : QueueLawful (walkFromMark s) := (queue_walkFromMark (h.but [])).all

theorem QueueLawful.judge {s : State} (h : QueueLawful s) : QueueLawful (Machine.judge s) := (queue_judge (h.but [])).all

theorem QueueLawfulBut.syncOne {s : State} {i : SegNo} (h : QueueLawfulBut [i] s) (e : QueueEnd) : QueueLawful (Machine.sync e i s) :=
  ((h.sync e i).mono (T := []) fun k hk => by simp at hk).all

theorem queue_captureEnd {a : Assembly} {c : Capture} {s : State} (ha : s.asm = some a) (hc : a.capture = some c) (h : QueueLawful s) :
    QueueLawful (captureEnd c.seg s) := by
  have hstore : QueueLawfulBut [c.seg] (captureStore s) := by
    refine queue_captureStore (h.but []) fun b d hb hd => ?_
    obtain rfl := Option.some.inj (ha.symm.trans hb)
    obtain rfl := Option.some.inj (hc.symm.trans hd)
    rfl
  have hkeep : QueueLawfulBut [c.seg] (keepClean c.seg (captureStore s)) :=
    (hstore.setSeg c.seg _).mono fun k hk => by simpa using hk
  unfold captureEnd
  simp only
  split
  · exact (queue_judge (queue_walkFromMark hkeep)).syncOne .tail
  · exact ((hkeep.syncOne .tail).walk).judge

end Sys2Proof.Machine

/-! ### The law of the queue over the ends of strokes and jobs and over every act -/

namespace Sys2Proof.Machine

theorem QueueLawfulBut.of_body {S : List SegNo} {s t : State} (h : QueueLawfulBut S s) (hb : t.body = s.body) : QueueLawfulBut S t :=
  h.congr (congrArg (fun b => b.queue.entries) hb) (fun i _ => seg_of_body hb i) (body_engine hb)

/-- The ends of members leave their segments to be judged. -/
theorem queue_foldlMembers {f : State → Member → State} {rec : State → Member → Segment}
    (hf : ∀ s m, (f s m).body = (memberEnded (rec s m) m s).body) (ms : List Member) {S : List SegNo} {s : State}
    (h : QueueLawfulBut S s) : QueueLawfulBut (ms.map Member.seg ++ S) (ms.foldl f s) := by
  induction ms generalizing S s with
  | nil => exact h
  | cons m ms ih =>
    have hone : QueueLawfulBut (m.seg :: S) (f s m) :=
      QueueLawfulBut.of_body ((h.setAsm _).setSeg m.seg (rec s m)) (hf s m)
    refine (ih hone).mono fun k hk => ?_
    simp only [List.mem_append, List.mem_cons, List.map_cons] at hk ⊢
    tauto

/-- The members of a stroke end are bound for the head or for the tail. -/
theorem headBound_or_tailBound {s : State} {ms : List Member} {m : Member} (hm : m ∈ ms) :
    m.seg ∈ headBound s ms ∨ m.seg ∈ tailBound s ms := by
  by_cases hb : (m.touched || !(s.seg m.seg).discardAfter) = true
  · exact .inl (List.mem_map_of_mem (List.mem_filter.2 ⟨hm, hb⟩))
  · refine .inr (List.mem_map_of_mem (List.mem_filter.2 ⟨hm, ?_⟩))
    simpa using hb

theorem queue_strokeEnd (cs : List Conversion) {s : State} (h : QueueLawful s) : QueueLawful (strokeEnd cs s) := by
  unfold strokeEnd
  split
  · exact h
  · rename_i d _
    have hended := queue_foldlMembers (fun s m => finishMember_body cs m s) d.members (h.but [])
    refine QueueLawfulBut.syncTail ((hended.setStroke _).syncHead (is := headBound s d.members)) fun k hk => ?_
    obtain ⟨hmem, hne⟩ := List.mem_filter.1 hk
    rw [List.append_nil] at hmem
    obtain ⟨m, hm, rfl⟩ := List.mem_map.1 hmem
    rcases headBound_or_tailBound (s := s) hm with hhead | htail
    · simp [hhead] at hne
    · exact htail

theorem judgeLoading_shown (s : State) : (judgeLoading s).engine.shown = s.engine.shown := by
  unfold judgeLoading
  split <;> rfl

theorem queue_judgeLoading {s : State} (h : QueueLawful s) : QueueLawful (judgeLoading s) := by
  refine h.agree (by rw [judgeLoading_queue]) fun i => ?_
  rw [queueable_congr (judgeLoading_runs s) (judgeLoading_shown s), State.seg, judgeLoading_segs]
  rfl

theorem senseCompletes_queue (s : State) : (senseCompletes s).queue = s.queue := by
  unfold senseCompletes
  split
  · rfl
  · split <;> rfl

theorem queue_senseCompletes {s : State} (h : QueueLawful s) : QueueLawful (senseCompletes s) := by
  refine h.agree (by rw [senseCompletes_queue]) fun i => ?_
  rw [senseCompletes_engine, State.seg, senseCompletes_segs]
  rfl

theorem queue_noteIfDiscarded {s : State} (i : SegNo) (h : QueueLawful s) : QueueLawful (noteIfDiscarded i s) := by
  rw [noteIfDiscarded_eq]
  exact h

theorem queue_postAll {s : State} (ps : List (Nat × Word)) (h : QueueLawful s) : QueueLawful (postAll ps s) := by
  have hshape := postAll_shape ps s
  refine h.agree (congrArg (fun u => u.queue.entries) hshape) fun i => ?_
  rw [show (postAll ps s).engine = s.engine from congrArg Shape.engine hshape, postAll_seg]

theorem queue_jobEnd (g : Job) {s : State} (h : QueueLawful s) : QueueLawful (jobEnd g s) := by
  have hfreed : QueueLawful (freeJob s) := h
  unfold jobEnd
  simp only
  split
  · exact queue_strokeEnd _ hfreed
  · split
    · exact hfreed
    · refine queue_judgeLoading ?_
      split
      · exact QueueLawful.putSeg (queue_noteIfDiscarded _ hfreed) _ _ _
      · exact QueueLawful.putSeg (queue_noteIfDiscarded _ hfreed) _ _ _
  · split
    · exact hfreed
    · refine queue_senseCompletes ?_
      split
      · exact QueueLawful.putSeg (queue_noteIfDiscarded _ hfreed) _ _ _
      · refine QueueLawful.putSeg (queue_noteIfDiscarded _ ?_) _ _ _
        exact queue_postAll _ hfreed

theorem queue_abortDrive {s : State} (h : QueueLawful s) : QueueLawful (abortDrive s) := by
  unfold abortDrive
  split
  · exact h
  · rename_i d _
    split
    · have hended := queue_foldlMembers (fun s m => congrArg State.body (abortMember_eq m s)) d.members (h.but [])
      refine (((hended.setStroke _).syncHead (is := d.members.map Member.seg)).mono (T := []) fun k hk => ?_).all
      exact mem_of_judged hk
    · exact h

theorem queue_settleExpires {s : State} (h : QueueLawful s) : QueueLawful (settleExpires s) := by
  unfold settleExpires
  split
  · exact h
  · rename_i d _
    split
    · exact QueueLawfulBut.syncTail ((h.but []).setStates .verifying (d.members.map Member.seg)) fun k hk => by simpa using hk
    · exact h

theorem queue_mapSegs (f : Segment → Segment) (is : List SegNo) {s : State} (h : QueueLawful s) :
    QueueLawful (syncTail is (mapSegs f is s)) := by
  have hmap : ∀ (js : List SegNo) {S : List SegNo} {u : State}, QueueLawfulBut S u → QueueLawfulBut (js ++ S) (mapSegs f js u) := by
    intro js
    induction js with
    | nil => exact fun hu => hu
    | cons j js ih =>
      intro S u hu
      refine (ih (hu.setSeg j (f (u.seg j)))).mono fun k hk => ?_
      simp only [List.mem_append, List.mem_cons] at hk ⊢
      tauto
  exact QueueLawfulBut.syncTail (hmap is (h.but [])) fun k hk => by simpa using hk

theorem discardSeg_other {i k : SegNo} (h : k ≠ i) (s : State) : (discardSeg i s).seg k = s.seg k := by
  have hset : (setSeg i { s.seg i with discardAfter := true } s).seg k = s.seg k := seg_setSeg_other h _ _
  have hforget : (forgetSeg i s).seg k = s.seg k := by rw [forgetSeg_seg, if_neg h]
  unfold discardSeg
  cases (s.seg i).state with
  | clean => exact hforget
  | stale => exact hforget
  | unsure => exact hforget
  | capturing => exact hforget
  | member =>
    simp only
    rw [State.seg, removeMember_segs]
    exact hforget
  | moving => exact hset
  | verifying => exact hset
  | sensing => exact hset
  | faulted => rfl

theorem removeMember_queue (i : SegNo) (s : State) : (removeMember i s).queue = s.queue := by
  unfold removeMember
  split <;> rfl

theorem forgetSeg_queue (i : SegNo) (s : State) : (forgetSeg i s).queue = s.queue := by
  rw [forgetSeg_eq]
  rfl

theorem discardSeg_queue (i : SegNo) (s : State) : (discardSeg i s).queue = s.queue := by
  unfold discardSeg
  cases (s.seg i).state with
  | clean => exact forgetSeg_queue i s
  | stale => exact forgetSeg_queue i s
  | unsure => exact forgetSeg_queue i s
  | capturing => exact forgetSeg_queue i s
  | member => exact (removeMember_queue i _).trans (forgetSeg_queue i s)
  | moving => rfl
  | verifying => rfl
  | sensing => rfl
  | faulted => rfl

theorem queue_discardSegs (is : List SegNo) {S : List SegNo} {s : State} (h : QueueLawfulBut S s) :
    QueueLawfulBut (is ++ S) (is.foldl (fun s i => discardSeg i s) s) := by
  induction is generalizing S s with
  | nil => exact h
  | cons i is ih =>
    have hone : QueueLawfulBut (i :: S) (discardSeg i s) :=
      QueueLawfulBut.congr (s := s) (h.mono fun k hk => List.mem_cons_of_mem _ hk) (by rw [discardSeg_queue])
        (fun k hk => discardSeg_other (fun he : k = i => hk (List.mem_cons.2 (.inl he))) s) (still_engine (discardSeg_still i s))
    refine (ih hone).mono fun k hk => ?_
    simp only [List.mem_append, List.mem_cons, List.cons_append] at hk ⊢
    tauto

theorem dropEmptyRecord_same (s : State) : (dropEmptyRecord s).queue = s.queue ∧ (dropEmptyRecord s).engine = s.engine := by
  unfold dropEmptyRecord
  split
  · exact ⟨rfl, rfl⟩
  · split <;> exact ⟨rfl, rfl⟩

theorem queue_discardEffect (is : List SegNo) {s : State} (h : QueueLawful s) : QueueLawful (discardEffect is s) := by
  have hsync : QueueLawful (syncTail is (is.foldl (fun s i => discardSeg i s) s)) :=
    QueueLawfulBut.syncTail (queue_discardSegs is (h.but [])) fun k hk => by simpa using hk
  obtain ⟨hq, he⟩ := dropEmptyRecord_same (syncTail is (is.foldl (fun s i => discardSeg i s) s))
  refine hsync.agree (congrArg Queue.entries hq) fun i => ?_
  rw [discardEffect, he, State.seg, dropEmptyRecord_segs]
  rfl

/-- Whatever the records have become, judging every segment restores the law. -/
theorem queue_syncAll {s t : State} (h : QueueLawful s) (hq : t.queue.entries = s.queue.entries) : QueueLawful (syncTail allSegs t) := by
  refine QueueLawfulBut.syncTail (S := allSegs) ⟨hq ▸ h.1, fun i hi => absurd (List.mem_finRange i) hi⟩ fun k hk => hk

/-- Where no segment is queue-able the queue is empty. -/
theorem QueueLawful.empty {s : State} (hr : queuesRun s.engine = false) (hq : s.queue.entries = []) : QueueLawful s := by
  refine ⟨by rw [hq]; exact List.nodup_nil, fun i => ?_⟩
  simp [hq, queueable, hr]

theorem entries_nil {s : State} (h : QueueLawful s) (hr : queuesRun s.engine = false) : s.queue.entries = [] := by
  refine List.eq_nil_iff_forall_not_mem.2 fun i hi => ?_
  have hqueueable := (h.2 i).1 hi
  simp [queueable, hr] at hqueueable

theorem Act.queue {cmd : Instr} {s t : State} (h : Act cmd s t) (hs : QueueLawful s) : QueueLawful t := by
  cases h with
  | same h => exact hs.agree (by rw [h.queue]) fun i => by rw [queueable_congr h.runs h.shown, h.seg]
  | judged => exact hs.judge
  | written buf k bad i _ => exact hs.putSeg _ _ _
  | marked buf k _ _ => exact hs.putSeg _ _ _
  | read _ _ d _ _ => exact hs
  | captureEnds _ ha hc => exact queue_captureEnd ha hc hs
  | settleExpires => exact queue_settleExpires hs
  | driveExpires =>
    refine hs.agree ?_ fun i => by rw [still_engine (driveExpires_still s), State.seg, driveExpires_segs]; rfl
    unfold Machine.driveExpires
    split
    · rfl
    · split <;> rfl
  | value _ _ c g _ _ _ _ _ _ _ => exact hs
  | jobEnds _ _ _ g _ _ _ _ => exact queue_jobEnd g hs
  | abortDrive => exact queue_abortDrive hs
  | touchStroke l =>
    refine hs.agree ?_ fun i => by rw [still_engine (touchStroke_still l s), State.seg, touchStroke_segs]; rfl
    unfold Machine.touchStroke
    split <;> rfl
  | touchJob l =>
    refine hs.agree ?_ fun i => by rw [still_engine (touchJob_still l s), State.seg, touchJob_segs]; rfl
    unfold Machine.touchJob
    split
    · rfl
    · split <;> rfl
  | opened hoff =>
    have hnil := entries_nil hs (by simp [queuesRun, hoff])
    exact .empty rfl hnil
  | stopped _ =>
    obtain ⟨-, -, hq⟩ := stopEffect_rest s
    exact .empty (by simp [stopEffect, queuesRun]) hq
  | shown _ named => exact queue_syncAll hs rfl
  | held _ b is => exact queue_mapSegs _ is hs
  | cleared _ is => exact queue_mapSegs _ is hs
  | discarded _ is => exact queue_discardEffect is hs
  | promoted _ _ a =>
    have hperm := perm_promote hs.1 ((pairwise_lt_argRange a).imp fun h => Fin.ne_of_val_ne (ne_of_lt h))
    exact ⟨hperm.nodup_iff.2 hs.1, fun i => hperm.mem_iff.trans (hs.2 i)⟩
  | sensed _ _ r => exact hs
  | refusedDescriptor hr off =>
    have hnil := entries_nil hs hr
    exact .empty rfl hnil
  | accepted _ _ d => exact queue_syncAll hs rfl
  | loaded => exact queue_judgeLoading hs
  | offered v =>
    have hsame : (offerConsumer v s).queue = s.queue ∧ (offerConsumer v s).engine = s.engine := by
      unfold offerConsumer
      split <;> exact ⟨rfl, rfl⟩
    obtain ⟨hq, he⟩ := hsame
    exact hs.agree (by rw [hq]) fun i => by rw [he, State.seg, offerConsumer_segs]; rfl
  | reset strap => exact .empty rfl rfl

theorem step_queueLawful {s t : State} (hs : QueueLawful s) (h : step s = .next t) : QueueLawful t :=
  step_keeps_work (fun _ _ _ hu ha => ha.queue hu) hs h

end Sys2Proof.Machine

/-! ### What judging queue-ability makes of the entries (R47 to R53) -/

namespace Sys2Proof.Machine

theorem entries_joinHead (q : Queue) (i : SegNo) : (q.joinHead i).entries = i :: q.entries := by
  unfold Queue.joinHead
  split <;> simp [Queue.entries]

theorem entries_joinTail (q : Queue) (i : SegNo) : (q.joinTail i).entries = q.entries ++ [i] := by
  simp [Queue.joinTail, Queue.entries]

theorem sync_entries_present {e : QueueEnd} {i : SegNo} {s : State} (hq : queueable s.engine (s.seg i) = true)
    (hi : i ∈ s.queue.entries) : (sync e i s).queue = s.queue := by
  have hc : s.queue.entries.contains i = true := by simpa using hi
  rw [sync, if_pos hq, if_pos hc]

theorem sync_entries_joins {e : QueueEnd} {i : SegNo} {s : State} (hq : queueable s.engine (s.seg i) = true)
    (hi : i ∉ s.queue.entries) : (sync e i s).queue = s.queue.join e i := by
  have hc : ¬s.queue.entries.contains i = true := by simpa using hi
  rw [sync, if_pos hq, if_neg hc]
  rfl

theorem sync_entries_leaves {e : QueueEnd} {i : SegNo} {s : State} (hq : queueable s.engine (s.seg i) = false) :
    (sync e i s).queue = s.queue.leave i := by
  rw [sync, if_neg (by simp [hq])]
  rfl

/-- What judging a segment makes of the queue depends on the queue, the engine and the segment's record. -/
theorem sync_queue_congr {e : QueueEnd} {i : SegNo} {s t : State} (hq : t.queue = s.queue) (he : t.engine = s.engine)
    (hseg : t.seg i = s.seg i) : (sync e i t).queue = (sync e i s).queue := by
  cases hr : queueable s.engine (s.seg i) with
  | false => rw [sync_entries_leaves hr, sync_entries_leaves (by rw [he, hseg]; exact hr), hq]
  | true =>
    have hr' : queueable t.engine (t.seg i) = true := by rw [he, hseg]; exact hr
    by_cases hi : i ∈ s.queue.entries
    · rw [sync_entries_present hr hi, sync_entries_present hr' (by rw [hq]; exact hi), hq]
    · rw [sync_entries_joins hr hi, sync_entries_joins hr' (by rw [hq]; exact hi), hq]

theorem mem_syncs {e : QueueEnd} {is : List SegNo} {s : State} {k : SegNo} :
    k ∈ (is.foldl (fun s i => sync e i s) s).queue.entries ↔
      if k ∈ is then queueable s.engine (s.seg k) = true else k ∈ s.queue.entries := by
  induction is generalizing s with
  | nil => simp
  | cons i is ih =>
    rw [List.foldl_cons, ih, mem_sync, sync_seg, still_engine (sync_still e i s)]
    by_cases hk : k = i
    · subst hk
      simp
    · simp [hk]

theorem mem_syncTail {is : List SegNo} {s : State} {k : SegNo} :
    k ∈ (syncTail is s).queue.entries ↔ if k ∈ is then queueable s.engine (s.seg k) = true else k ∈ s.queue.entries := mem_syncs

theorem mem_syncHead {is : List SegNo} {s : State} {k : SegNo} :
    k ∈ (syncHead is s).queue.entries ↔ if k ∈ is then queueable s.engine (s.seg k) = true else k ∈ s.queue.entries := by
  rw [syncHead, mem_syncs]
  simp

/-! ### The order of the entries (R48, R61) -/

/-- The entries that are of a list stand in the order of the list. -/
def InOrder (Q : List SegNo) (s : State) : Prop := (s.queue.entries.filter fun i => decide (i ∈ Q)).Sublist Q

theorem InOrder.congr {Q : List SegNo} {s t : State} (h : InOrder Q s) (hq : t.queue.entries = s.queue.entries) : InOrder Q t := by
  rw [InOrder, hq]
  exact h

theorem filter_cons_other {Q l : List SegNo} {i : SegNo} (h : i ∉ Q) :
    ((i :: l).filter fun k => decide (k ∈ Q)) = l.filter fun k => decide (k ∈ Q) :=
  List.filter_cons_of_neg (by simpa using h)

/-- Judging queue-ability keeps the order, when no segment of the list rejoins. -/
theorem InOrder.sync {Q : List SegNo} {s : State} (h : InOrder Q s) (e : QueueEnd) {i : SegNo}
    (hi : i ∈ Q → queueable s.engine (s.seg i) = true → i ∈ s.queue.entries) : InOrder Q (Machine.sync e i s) := by
  by_cases hq : queueable s.engine (s.seg i) = true
  · by_cases hmem : i ∈ s.queue.entries
    · exact h.congr (by rw [sync_entries_present hq hmem])
    · have hout : i ∉ Q := fun hQ => hmem (hi hQ hq)
      rw [InOrder, sync_entries_joins hq hmem]
      cases e with
      | head =>
        rw [Queue.join, entries_joinHead, filter_cons_other hout]
        exact h
      | tail =>
        rw [Queue.join, entries_joinTail, List.filter_append, filter_cons_other hout, List.filter_nil, List.append_nil]
        exact h
  · rw [InOrder, sync_entries_leaves (by simpa using hq), entries_leave]
    exact (List.filter_sublist.filter _).trans h

theorem InOrder.syncs {Q : List SegNo} {e : QueueEnd} {is : List SegNo} {s : State} (h : InOrder Q s)
    (hi : ∀ i ∈ is, i ∈ Q → queueable s.engine (s.seg i) = true → i ∈ s.queue.entries) :
    InOrder Q (is.foldl (fun s i => Machine.sync e i s) s) := by
  induction is generalizing s with
  | nil => exact h
  | cons i is ih =>
    refine ih (h.sync e (hi i List.mem_cons_self)) fun k hk hQ hq => ?_
    rw [sync_seg, still_engine (sync_still e i s)] at hq
    rw [mem_sync]
    split
    · rename_i hki
      exact hki ▸ hq
    · exact hi k (List.mem_cons_of_mem _ hk) hQ hq

theorem InOrder.syncTail {Q : List SegNo} {is : List SegNo} {s : State} (h : InOrder Q s)
    (hi : ∀ i ∈ is, i ∈ Q → queueable s.engine (s.seg i) = true → i ∈ s.queue.entries) : InOrder Q (Machine.syncTail is s) := h.syncs hi

theorem InOrder.syncHead {Q : List SegNo} {is : List SegNo} {s : State} (h : InOrder Q s)
    (hi : ∀ i ∈ is, i ∈ Q → queueable s.engine (s.seg i) = true → i ∈ s.queue.entries) : InOrder Q (Machine.syncHead is s) :=
  h.syncs fun i hmem => hi i (List.mem_reverse.1 hmem)

/-- The entries of a list that are still entries, in an order kept. -/
theorem filter_of_inOrder {Q : List SegNo} {t : State} (hQ : Q.Nodup) (h : InOrder Q t) :
    (Q.filter fun i => decide (i ∈ t.queue.entries)) = t.queue.entries.filter fun i => decide (i ∈ Q) := by
  generalize hX : (t.queue.entries.filter fun i => decide (i ∈ Q)) = X at h
  have hmem : ∀ i ∈ Q, (i ∈ t.queue.entries ↔ i ∈ X) := fun i hi => by
    rw [← hX, List.mem_filter]
    simp [hi]
  have hfilter : (Q.filter fun i => decide (i ∈ t.queue.entries)) = Q.filter fun i => decide (i ∈ X) :=
    List.filter_congr fun i hi => by simp [hmem i hi]
  rw [InOrder, hX] at h
  rw [hfilter]
  clear hfilter hmem hX
  induction h with
  | slnil => rfl
  | cons i hsub ih =>
    rename_i l₁ l₂
    rw [List.nodup_cons] at hQ
    rw [List.filter_cons_of_neg (by simpa using fun hi => hQ.1 (hsub.subset hi))]
    exact ih hQ.2
  | cons_cons i hsub ih =>
    rename_i l₁ l₂
    rw [List.nodup_cons] at hQ
    rw [List.filter_cons_of_pos (by simp)]
    congr 1
    refine Eq.trans (List.filter_congr fun k hk => ?_) (ih hQ.2)
    have hne : k ≠ i := fun he => hQ.1 (he ▸ hk)
    simp [hne]

/-! ### The order over walks, drives and grants -/

/-- No drive can start in this event (R84). -/
def Blocked (s : State) : Prop := ¬(s.engine.state = .running ∧ DriveFree s)

/-- Entries of a list are in order, the queue is judged but for members, and a member of the record that is of the list is one that no
recheck drops, under NONE, or one that no drive of this event rechecks, or one that is still queued. -/
structure Ordered (Q : List SegNo) (s : State) : Prop extends WorkRuns s where
  order : InOrder Q s
  judged : ∀ k, (s.seg k).state ≠ .member → (k ∈ s.queue.entries ↔ queueable s.engine (s.seg k) = true)
  members : ∀ a, s.asm = some a → ∀ m ∈ a.members, m.seg ∈ Q →
    (s.engine.shown = .none ∧ dropped s m = false) ∨ Blocked s ∨ m.seg ∈ s.queue.entries

theorem dropped_congr {s t : State} {m : Member} (hseg : t.seg m.seg = s.seg m.seg) (he : t.engine.shown = s.engine.shown)
    (hc : t.claims = s.claims) (ht : t.touch = s.touch) : dropped t m = dropped s m := by
  simp only [dropped, hseg, he, claimed, shielded, State.claim, State.touchLine, hc, ht]

theorem dropped_of_still {s t : State} {m : Member} (h : t.still = s.still) (hseg : t.seg m.seg = s.seg m.seg) :
    dropped t m = dropped s m :=
  dropped_congr hseg (by rw [still_engine h]) (still_claims h) (still_touch h)

theorem Blocked.congr {s t : State} (h : Blocked s) (he : t.engine = s.engine) (hs : t.stroke = s.stroke) (hg : t.gate = s.gate)
    (hc : t.conv.job = s.conv.job) : Blocked t := by
  rintro ⟨hr, hd, hready, hgate, hj⟩
  exact h ⟨he ▸ hr, hs ▸ hd, hs ▸ hready, hg ▸ hgate, hc ▸ hj⟩

theorem blocked_of_job {s : State} {j : Job} (h : s.conv.job = some j) : Blocked s := by
  rintro ⟨-, -, -, -, hn⟩
  simp [h] at hn

theorem driveReady_not_blocked {s : State} (h : driveReady s = true) : ¬Blocked s := by
  obtain ⟨-, hd, hready, hgate, hrun, hj⟩ := (driveReady_iff s).1 h
  exact fun hb => hb ⟨hrun, hd, hready, hgate, hj⟩

/-- A step of a walk that leaves the records and the entries, and whose record has no new member. -/
theorem Ordered.moved {Q : List SegNo} {s t : State} (h : Ordered Q s) (ht : WorkRuns t) (hst : t.still = s.still)
    (hsegs : t.segs = s.segs) (hq : t.queue.entries = s.queue.entries) (hstroke : t.stroke = s.stroke) (hconv : t.conv = s.conv)
    (hms : ∀ a, t.asm = some a → ∃ b, s.asm = some b ∧ ∀ m ∈ a.members, m ∈ b.members) : Ordered Q t := by
  have hseg : ∀ k, t.seg k = s.seg k := fun k => by rw [State.seg, hsegs]; rfl
  refine ⟨ht, h.order.congr hq, fun k hk => ?_, fun a ha m hm hQ => ?_⟩
  · rw [hq, hseg, still_engine hst]
    exact h.judged k (hseg k ▸ hk)
  · obtain ⟨b, hb, hsub⟩ := hms a ha
    rw [still_engine hst, dropped_of_still hst (hseg _), hq]
    rcases h.members b hb m (hsub m hm) hQ with hd | hd | hd
    · exact .inl hd
    · exact .inr (.inl (hd.congr (still_engine hst) hstroke (still_gate hst) (by rw [hconv])))
    · exact .inr (.inr hd)

theorem walkEnd_stroke (a : Assembly) (s : State) : (walkEnd a s).stroke = s.stroke := by
  unfold walkEnd
  simp only
  split <;> rfl

theorem walkEnd_entries (a : Assembly) (s : State) : (walkEnd a s).queue.entries = s.queue.entries := by
  unfold walkEnd
  simp only
  split
  · exact entries_endWalk _
  · exact entries_endWalk _

theorem ordered_walkEnd {Q : List SegNo} {s : State} {a : Assembly} (ha : s.asm = some a) (h : Ordered Q s) :
    Ordered Q (walkEnd a s) := by
  refine h.moved (work_walkEnd ha h.toWorkRuns) (walkEnd_still a s) (walkEnd_segs a s) (walkEnd_entries a s) (walkEnd_stroke a s)
    (walkEnd_conv a s) fun b hb => ⟨a, ha, ?_⟩
  unfold walkEnd at hb
  simp only at hb
  split at hb
  · simp at hb
  · obtain rfl := Option.some.inj hb
    exact fun m hm => hm

theorem ordered_pass {Q : List SegNo} {s : State} {i : SegNo} {rest : List SegNo} (hb : s.queue.behind = i :: rest) (h : Ordered Q s) :
    Ordered Q (setQueue (s.queue.passMark i rest) s) :=
  h.moved (workRules.passes s i rest hb h.toWorkRuns) rfl rfl (entries_passMark hb) rfl rfl fun a ha => ⟨a, ha, fun _ hm => hm⟩

/-- A change of a queued segment that is no member, with its queue-ability judged, and perhaps with a new member of that segment. -/
theorem Ordered.synced {Q : List SegNo} {s t : State} {i : SegNo} (h : Ordered Q s) (ht : WorkRuns t) (hst : t.still = s.still)
    (hi : (s.seg i).state ≠ .member) (hmem : i ∈ Q → i ∈ s.queue.entries) (e : QueueEnd) (r : Segment)
    (hseg : ∀ k, t.seg k = if k = i then r else s.seg k)
    (hq : t.queue.entries = (sync e i (setSeg i r s)).queue.entries) (hblock : Blocked s → Blocked t)
    (hms : ∀ a, t.asm = some a → ∀ m ∈ a.members, (∃ b, s.asm = some b ∧ m ∈ b.members) ∨
      m.seg = i ∧ t.engine.shown = .none ∧ dropped t m = false) : Ordered Q t := by
  have hother : ∀ k, k ≠ i → t.seg k = s.seg k := fun k hk => by rw [hseg, if_neg hk]
  have hentries : ∀ k, k ∈ t.queue.entries ↔ if k = i then queueable t.engine (t.seg k) = true else k ∈ s.queue.entries := fun k => by
    rw [hq, mem_sync, seg_setSeg_self, setSeg_engine, ← still_engine hst]
    split
    · rename_i hk
      rw [hseg, if_pos hk]
    · rfl
  refine ⟨ht, InOrder.congr ((h.order.congr (t := setSeg i r s) rfl).sync e fun hQ _ => hmem hQ) hq, fun k hk => ?_, fun a ha m hm hQ => ?_⟩
  · rw [hentries k]
    split
    · rfl
    · rename_i hki
      rw [hother k hki, still_engine hst]
      exact h.judged k (hother k hki ▸ hk)
  · rcases hms a ha m hm with ⟨b, hb, hmb⟩ | ⟨-, hd⟩
    · have hmi : m.seg ≠ i := fun he => by
        obtain ⟨-, hstate, -⟩ := h.work.1 b hb
        exact hi (he ▸ hstate m hmb)
      rcases h.members b hb m hmb hQ with ⟨hn, hd⟩ | hd | hd
      · exact .inl ⟨by rw [still_engine hst]; exact hn, by rw [dropped_of_still hst (hother _ hmi)]; exact hd⟩
      · exact .inr (.inl (hblock hd))
      · exact .inr (.inr ((hentries _).2 (by rw [if_neg hmi]; exact hd)))
    · exact .inl hd

theorem captureStart_queue {s : State} (i : SegNo) :
    (captureStart i s).queue = (sync .tail i (setSeg i { s.seg i with state := .capturing, dirty := false } s)).queue := by
  unfold captureStart
  split
  · rfl
  · exact sync_queue_congr rfl rfl rfl

end Sys2Proof.Machine

/-! ### The order over captures, drives and grants -/

namespace Sys2Proof.Machine

theorem queueable_iff (e : Engine) (r : Segment) : queueable e r = true ↔
    queuesRun e = true ∧ r.state.mayQueue = true ∧ r.held = false ∧ suspect e.shown r = false := by
  simp [queueable, and_assoc]

theorem suspect_of_marks {shown : Shown} {r u : Segment} (h : MarksKept r u) : suspect shown u = suspect shown r := by
  obtain ⟨-, ha, hb, -, -, -, -⟩ := h
  cases shown <;> simp [suspect, ha, hb]

/-- Marks kept, a segment stays queue-able in any state that may wait in the queue. -/
theorem queueable_of_marks {e : Engine} {r u : Segment} (h : MarksKept r u) (hr : queueable e r = true)
    (hu : u.state.mayQueue = true) : queueable e u = true := by
  obtain ⟨hrun, -, hheld, hsuspect⟩ := (queueable_iff e r).1 hr
  exact (queueable_iff e u).2 ⟨hrun, hu, h.1.trans hheld, (suspect_of_marks h).trans hsuspect⟩

theorem captureStart_stroke (i : SegNo) (s : State) : (captureStart i s).stroke = s.stroke := by
  unfold captureStart
  split <;> simp

theorem captureStart_conv (i : SegNo) (s : State) : (captureStart i s).conv = s.conv := by
  unfold captureStart
  split <;> simp

theorem ordered_captureStart {Q : List SegNo} {s : State} {a : Assembly} {i : SegNo} (ha : s.asm = some a) (hi : freeStale s i = true)
    (hmem : i ∈ s.queue.entries) (h : Ordered Q s) : Ordered Q (captureStart i s) := by
  have hstale := freeStale_stale hi
  refine h.synced (work_captureStart ha hstale h.toWorkRuns) (captureStart_still i s) (by simp [hstale]) (fun _ => hmem) .tail _
    (fun k => captureStart_seg i k s) (by rw [captureStart_queue]) (fun hb => ?_) fun b hb m hm => .inl ⟨a, ha, ?_⟩
  · exact hb.congr (still_engine (captureStart_still i s)) (captureStart_stroke i s) (still_gate (captureStart_still i s))
      (by rw [captureStart_conv])
  · rw [captureStart_asm ha] at hb
    obtain rfl := Option.some.inj hb
    exact hm

/-- A capture of a queued STALE segment leaves the queue as it is. -/
theorem captureStart_queue_same {s : State} {i : SegNo} (hq : queueable s.engine (s.seg i) = true) (hmem : i ∈ s.queue.entries) :
    (captureStart i s).queue = s.queue := by
  rw [captureStart_queue]
  refine sync_entries_present (s := setSeg i _ s) ?_ hmem
  rw [seg_setSeg_self, setSeg_engine]
  exact queueable_of_marks (marksKept_captured _ _ _ _) hq rfl

theorem captureNone_queue {s : State} {a : Assembly} {i : SegNo} (ha : s.asm = some a) (hq : queueable s.engine (s.seg i) = true)
    (hmem : i ∈ s.queue.entries) : (captureNone i s).queue = (sync .tail i (setSeg i (blankOutcome s a i).1 s)).queue := by
  rw [captureNone_of_asm ha]
  refine sync_queue_congr (captureStart_queue_same hq hmem) (still_engine (captureStart_still i s)) ?_
  rw [oweMirror_seg, seg_setSeg_self, seg_setSeg_self]

theorem captureNone_stroke {s : State} (i : SegNo) : (captureNone i s).stroke = s.stroke := by
  rw [captureNone, sync_stroke]
  rcases captureStore_cases (captureStart i s) with heq | ⟨a, c, -, -, ⟨-, heq⟩ | ⟨-, heq⟩⟩
  all_goals
    rw [heq]
    exact captureStart_stroke i s

theorem captureNone_conv {s : State} (i : SegNo) : (captureNone i s).conv = s.conv := by
  rw [captureNone, sync_conv, captureStore_conv, captureStart_conv]

theorem captureNone_asm {s : State} {a : Assembly} (ha : s.asm = some a) (i : SegNo) : (captureNone i s).asm = some { a with
    captured := i :: a.captured
    members := a.members ++ (blankOutcome s a i).2.toList
    capture := none } := by
  rw [captureNone_of_asm ha, sync_asm]
  rfl

theorem freeStale_iff (s : State) (i : SegNo) : freeStale s i = true ↔
    (s.seg i).state = .stale ∧ claimed s (lineOf i) = false ∧ shielded s (lineOf i) = false := by
  simp [freeStale, and_assoc]

theorem work_captureNone {s : State} {a : Assembly} {i : SegNo} (ha : s.asm = some a) (hi : freeStale s i = true) (h : WorkRuns s) :
    WorkRuns (captureNone i s) :=
  workRules.syncs i _ (work_captureStore (work_captureStart ha (freeStale_stale hi) h))

/-- A member captured under NONE passes every test of a recheck in the same event (R66, R85). -/
theorem blankMember_passes {s : State} {a : Assembly} {i : SegNo} {m : Member} (ha : s.asm = some a) (hi : freeStale s i = true)
    (hq : queueable s.engine (s.seg i) = true) (hm : (blankOutcome s a i).2 = some m) :
    m.seg = i ∧ dropped (captureNone i s) m = false := by
  obtain ⟨hseg, -⟩ := captureOutcome_member hm
  have hmi : m.seg = i := hseg
  obtain ⟨-, -, hheld, hsuspect⟩ := (queueable_iff _ _).1 hq
  obtain ⟨-, hfree, hshield⟩ := (freeStale_iff s i).1 hi
  have hrecord : (captureNone i s).seg i = (blankOutcome s a i).1 := by rw [captureNone_seg ha, if_pos rfl]
  have hmarks : MarksKept (s.seg i) (blankOutcome s a i).1 := by
    rw [blankOutcome, captureOutcome_marks]
    exact marksKept_captured _ _ _ _
  have hdirty : (blankOutcome s a i).1.dirty = false := by
    rw [blankOutcome, captureOutcome_marks]
  have hstill := captureNone_still i s
  refine ⟨hmi, ?_⟩
  simp only [dropped, hmi, hrecord, still_engine hstill, claimed, shielded, State.claim, State.touchLine, still_claims hstill,
    still_touch hstill]
  simp only [claimed, shielded, State.claim, State.touchLine] at hfree hshield
  rw [hfree, hshield, hdirty, suspect_of_marks hmarks, hsuspect, hmarks.1, hheld]
  rfl

theorem ordered_captureNone {Q : List SegNo} {s : State} {a : Assembly} {i : SegNo} (ha : s.asm = some a) (hi : freeStale s i = true)
    (hmem : i ∈ s.queue.entries) (hnone : s.engine.shown = .none) (h : Ordered Q s) : Ordered Q (captureNone i s) := by
  have hstale := freeStale_stale hi
  have hq : queueable s.engine (s.seg i) = true := (h.judged i (by simp [hstale])).1 hmem
  refine h.synced (work_captureNone ha hi h.toWorkRuns) (captureNone_still i s) (by simp [hstale]) (fun _ => hmem) .tail _
    (fun k => captureNone_seg ha i k) (by rw [captureNone_queue ha hq hmem]) (fun hb => ?_) fun b hb m hm => ?_
  · exact hb.congr (still_engine (captureNone_still i s)) (captureNone_stroke i) (still_gate (captureNone_still i s))
      (by rw [captureNone_conv])
  · rw [captureNone_asm ha] at hb
    obtain rfl := Option.some.inj hb
    rcases List.mem_append.1 hm with hm | hm
    · exact .inl ⟨a, ha, hm⟩
    · obtain ⟨hmi, hd⟩ := blankMember_passes ha hi hq (Option.mem_toList.1 hm)
      exact .inr ⟨hmi, by rw [still_engine (captureNone_still i s)]; exact hnone, hd⟩

theorem mem_of_behind {s : State} {i : SegNo} {rest : List SegNo} (hb : s.queue.behind = i :: rest) :
    i ∈ (setQueue (s.queue.passMark i rest) s).queue.entries := by
  rw [setQueue_queue, entries_passMark hb, mem_entries, hb]
  exact .inr List.mem_cons_self

theorem Ordered.walk {Q : List SegNo} {s : State} (h : Ordered Q s) : Ordered Q (walkFromMark s) := by
  refine walkOn_induct (Ordered Q) (fun u a ha hu => ordered_walkEnd ha hu) (fun u a i rest _ hb hu => ordered_pass hb hu) ?_ ?_ _ s h
  · intro u a i rest ha hb he hu
    exact ordered_captureStart (s := setQueue (u.queue.passMark i rest) u) ha (eligible_freeStale (s := u) he) (mem_of_behind hb)
      (ordered_pass hb hu)
  · intro u a i rest ha hb he hn hu
    exact ordered_captureNone (s := setQueue (u.queue.passMark i rest) u) ha (eligible_freeStale (s := u) he) (mem_of_behind hb) hn
      (ordered_pass hb hu)

theorem not_queueable {e : Engine} {r : Segment} (h : r.state.mayQueue = false) : queueable e r = false := by
  simp [queueable, h]

/-- A recheck drops no member of the list that has left the queue in this event. -/
theorem ordered_driveStart {Q : List SegNo} {s : State} (hr : driveReady s = true) (h : Ordered Q s) : Ordered Q (driveStart s) := by
  have hwork := work_driveStart hr h.toWorkRuns
  have hnone := driveStart_asm s
  refine ⟨hwork, ?_, fun k hk => ?_, fun a ha => by simp [hnone] at ha⟩
  all_goals
    obtain ⟨⟨a, ha, -⟩, -⟩ := (driveReady_iff s).1 hr
    obtain ⟨-, hstate, -⟩ := h.work.1 a ha
  · have hout : InOrder Q (syncHead ((a.members.filter (dropped s)).map Member.seg)
        (setStates .stale ((a.members.filter (dropped s)).map Member.seg) (setAsm none s))) := by
      refine (h.order.congr (t := setStates .stale _ (setAsm none s)) (by simp)).syncHead fun i hi hQ _ => ?_
      obtain ⟨m, hm, rfl⟩ := List.mem_map.1 hi
      obtain ⟨hma, hd⟩ := List.mem_filter.1 hm
      rw [setStates_queue]
      rcases h.members a ha m hma hQ with ⟨-, hnd⟩ | hb | hmem
      · simp [hnd] at hd
      · exact absurd hb (driveReady_not_blocked hr)
      · exact hmem
    rw [driveStart, ha]
    simp only
    split
    · exact hout
    · refine InOrder.congr (hout.congr (t := setStates .moving _ _) (by rw [setStates_queue]) |>.syncTail fun i hi _ hq => ?_) rfl
      rw [setStates_seg, if_pos hi] at hq
      simp [queueable, SegState.mayQueue] at hq
  · rw [driveStart, ha] at hk ⊢
    simp only at hk ⊢
    have hjudged : ∀ j, (s.seg j).state ≠ .member ∨ j ∈ (a.members.filter (dropped s)).map Member.seg →
        (j ∈ (syncHead ((a.members.filter (dropped s)).map Member.seg)
          (setStates .stale ((a.members.filter (dropped s)).map Member.seg) (setAsm none s))).queue.entries ↔
        queueable s.engine ((setStates .stale ((a.members.filter (dropped s)).map Member.seg) (setAsm none s)).seg j) = true) := by
      intro j hj
      rw [mem_syncHead, setStates_queue, setStates_engine]
      split
      · rfl
      · rename_i hout
        rw [setStates_seg, if_neg hout]
        exact h.judged j (hj.resolve_right hout)
    split at hk
    · rename_i hkept
      rw [if_pos hkept]
      rw [syncHead_seg, setStates_seg] at hk
      rw [syncHead_engine, syncHead_seg, setStates_engine]
      refine hjudged k ?_
      split at hk
      · rename_i hout
        exact .inr hout
      · exact .inl hk
    · rename_i hkept
      rw [if_neg hkept]
      rw [setStroke_seg, syncTail_seg, setStates_seg, syncHead_seg] at hk
      rw [setStroke_queue, setStroke_engine, setStroke_seg, mem_syncTail, syncTail_engine, syncTail_seg, setStates_engine, setStates_queue,
        syncHead_engine, setStates_engine]
      split
      · rfl
      · rename_i hmoving
        rw [if_neg hmoving, setStates_seg] at hk
        rw [setStates_seg, if_neg hmoving, syncHead_seg]
        refine hjudged k ?_
        split at hk
        · rename_i hout
          exact .inr hout
        · exact .inl hk

theorem startSweep_queue (i : SegNo) (s : State) :
    (startSweep i s).queue = (sync .tail i (setSeg i { s.seg i with state := .sensing } s)).queue := rfl

theorem ordered_startSweep {Q : List SegNo} {s : State} {i : SegNo} (hg : mayGrant s = true) (hmem : i ∈ s.queue.entries)
    (hi : sweepable s i = true) (h : Ordered Q s) : Ordered Q (startSweep i s) := by
  have hunsure : (s.seg i).state = .unsure := by
    simp only [sweepable, Bool.and_eq_true, beq_iff_eq] at hi
    exact hi.1
  refine h.synced (work_startSweep hg hi h.toWorkRuns) (startSweep_still i s) (by simp [hunsure]) (fun _ => hmem) .tail _
    (fun k => startSweep_seg i k s) (by rw [startSweep_queue]) (fun _ => ?_) fun b hb m hm => .inl ?_
  · exact blocked_of_job (congrArg Converter.job (startSweep_conv i s))
  · rw [startSweep_asm] at hb
    exact ⟨b, hb, hm⟩

theorem startSense_queue (i : SegNo) (s : State) : (startSense i s).queue =
    if (s.seg i).state = .faulted then s.queue else (sync .tail i (setSeg i { s.seg i with state := .sensing } s)).queue := by
  unfold startSense
  simp only [grant_queue]
  split <;> rfl

theorem ordered_startSense {Q : List SegNo} {s : State} {i : SegNo} (hg : mayGrant s = true) (hi : sensePick s = some i)
    (h : Ordered Q s) : Ordered Q (startSense i s) := by
  have hwork := work_startSense hg hi h.toWorkRuns
  have hsenseable := sensePick_senseable hi
  have hblock : Blocked (startSense i s) := blocked_of_job (congrArg Converter.job (startSense_conv i s))
  have hnot : (s.seg i).state ≠ .member := fun hm => by simp [hm, SegState.senseable] at hsenseable
  by_cases hf : (s.seg i).state = .faulted
  · have hseg : ∀ k, (startSense i s).seg k = s.seg k := fun k => by
      rw [startSense_seg]
      split
      · rename_i hk
        subst hk
        conv_rhs => rw [show s.seg k = { s.seg k with state := (s.seg k).state } from rfl, hf]
      · rfl
    have hq : (startSense i s).queue = s.queue := by rw [startSense_queue, if_pos hf]
    refine ⟨hwork, h.order.congr (by rw [hq]), fun k hk => ?_, fun a ha m hm hQ => .inr (.inl hblock)⟩
    rw [hq, hseg, still_engine (startSense_still i s)]
    exact h.judged k (hseg k ▸ hk)
  · have hseg : ∀ k, (startSense i s).seg k = if k = i then { s.seg i with state := .sensing } else s.seg k := fun k => by
      rw [startSense_seg, if_neg hf]
    have hq : (startSense i s).queue = (sync .tail i (setSeg i { s.seg i with state := .sensing } s)).queue := by
      rw [startSense_queue, if_neg hf]
    refine ⟨hwork, InOrder.congr ((h.order.congr (t := setSeg i _ s) rfl).sync .tail fun _ hqu => ?_) (congrArg Queue.entries hq), fun k hk => ?_,
      fun a ha m hm hQ => .inr (.inl hblock)⟩
    · rw [seg_setSeg_self] at hqu
      simp [queueable, SegState.mayQueue] at hqu
    · rw [hq, mem_sync, seg_setSeg_self, setSeg_engine, hseg, still_engine (startSense_still i s)]
      split
      · rfl
      · rename_i hki
        rw [hseg, if_neg hki] at hk
        exact h.judged k hk

theorem Ordered.judge {Q : List SegNo} {s : State} (h : Ordered Q s) : Ordered Q (judge s) := by
  refine judge_induct (Ordered Q) (fun u hr hu => ordered_driveStart hr hu) (fun u hw hu => ?_)
    (fun u i hg hmem hi hu => ordered_startSweep hg hmem hi hu) (fun u i hg hi hu => ordered_startSense hg hi hu) s h
  refine Ordered.walk (s := setAsm (some Assembly.started) (setQueue u.queue.startWalk u)) ?_
  refine ⟨workRules.opens u hw hu.toWorkRuns, hu.order.congr (entries_startWalk _), fun k hk => ?_, fun a ha m hm => ?_⟩
  · rw [setAsm_queue, setQueue_queue, entries_startWalk]
    exact hu.judged k hk
  · obtain rfl := Option.some.inj ha
    simp [Assembly.started] at hm

end Sys2Proof.Machine

/-! ### The order over the events (O9) -/

namespace Sys2Proof.Machine

/-- A change from which new work may be judged: the entries kept are in order, and no member of the record is new. -/
structure Steps (s t : State) : Prop where
  order : InOrder s.queue.entries t
  members : ∀ a, t.asm = some a → ∃ b, s.asm = some b ∧ ∀ m ∈ a.members, m ∈ b.members

theorem inOrder_self (s : State) : InOrder s.queue.entries s := by
  rw [InOrder, List.filter_eq_self.2 (by simp)]

theorem Steps.of_same {s t : State} (hq : t.queue.entries = s.queue.entries) (ha : t.asm.map Assembly.frame = s.asm.map Assembly.frame) :
    Steps s t :=
  ⟨(inOrder_self s).congr hq, fun a h => by
    obtain ⟨b, hb, -, hm, -, -⟩ := asm_of_frame ha h
    exact ⟨b, hb, fun m hma => hm ▸ hma⟩⟩

/-- Records changed, and then some of them judged: no entry of before has left when it is judged. -/
theorem Steps.judged {s u t : State} (hu : Steps s u) (hq : u.queue.entries = s.queue.entries) (ha : t.asm = u.asm)
    {e : QueueEnd} {is : List SegNo} (ht : t.queue.entries = (is.foldl (fun s i => sync e i s) u).queue.entries) : Steps s t := by
  refine ⟨?_, fun a h => hu.members a (ha ▸ h)⟩
  have horder : InOrder s.queue.entries (is.foldl (fun s i => sync e i s) u) := hu.order.syncs fun i _ hi _ => by rw [hq]; exact hi
  exact horder.congr ht

theorem mem_state_of_entry {s : State} (h : QueueLawful s) {i : SegNo} (hi : i ∈ s.queue.entries) : (s.seg i).state ≠ .member := by
  intro hm
  have hq := (h.2 i).1 hi
  simp [queueable, hm, SegState.mayQueue] at hq

theorem InOrder.part {Q : List SegNo} {s : State} (h : InOrder Q s) (P : SegNo → Bool) : InOrder (Q.filter P) s := by
  have hfilter : (s.queue.entries.filter fun i => decide (i ∈ Q.filter P)) =
      (s.queue.entries.filter fun i => decide (i ∈ Q)).filter P := by
    rw [List.filter_filter]
    refine List.filter_congr fun i _ => ?_
    simp [List.mem_filter, Bool.and_comm]
  rw [InOrder, hfilter]
  exact h.filter P

/-- The order is kept over the new work that a change lets start. -/
theorem Steps.judge {s t : State} (h : Steps s t) (hs : QueueLawful s) (hw : WorkLawful s) (ht : QueueLawful t) (hwt : WorkLawful t) :
    InOrder s.queue.entries (judge t) := by
  cases hrun : queuesRun t.engine with
  | false => rw [judge_idle hwt hrun]; exact h.order
  | true =>
    refine (Ordered.judge (s := t) ⟨⟨hwt, hrun⟩, h.order, fun k _ => ht.2 k, fun a ha m hm hQ => ?_⟩).order
    obtain ⟨b, hb, hsub⟩ := h.members a ha
    obtain ⟨-, hstate, -⟩ := hw.1 b hb
    exact absurd (hstate m (hsub m hm)) (mem_state_of_entry hs hQ)

/-- The change that an act makes, and the new work that it lets start. -/
theorem Act.judgeInOrder {cmd : Instr} {s t : State} (h : Act cmd s t) (hsteps : Steps s t) (hs : QueueLawful s) (hw : WorkLawful s) :
    InOrder s.queue.entries (judge t) :=
  hsteps.judge hs hw (h.queue hs) (h.work hw)

theorem SameWork.steps {s t : State} (h : SameWork s t) : Steps s t := .of_same (by rw [h.queue]) (by rw [h.asm])

theorem InOrder.then {Q : List SegNo} {s t : State} (h : InOrder Q s) (k : SameWork s t) : InOrder Q t := h.congr (by rw [k.queue])

theorem InOrder.closed {Q : List SegNo} {s : State} (h : InOrder Q s) (b : State) : InOrder Q (closeEvent b s) :=
  h.then (sameWork_closeEvent b s)

/-! ### The first changes of the events -/

theorem steps_mapSegs (f : Segment → Segment) (is : List SegNo) (s : State) : Steps s (syncTail is (mapSegs f is s)) :=
  Steps.judged (u := mapSegs f is s) (.of_same (by rw [mapSegs_queue]) (by rw [mapSegs_asm])) (by rw [mapSegs_queue])
    (by rw [syncTail_asm]) (e := .tail) (is := is) rfl

theorem steps_showParts (named : Shown) (s : State) : Steps s (showParts named s) :=
  Steps.judged (s := s) (u := { s with engine := { s.engine with shown := named, showPending := true }, segs := s.segs.map Segment.touchContent })
    (.of_same rfl rfl) rfl (by rw [showParts, syncTail_asm]) (e := .tail) (is := allSegs) rfl

theorem steps_discardEffect (is : List SegNo) (s : State) : Steps s (discardEffect is s) := by
  have hqueue : (is.foldl (fun s i => discardSeg i s) s).queue = s.queue := foldl_keeps State.queue (fun u i => discardSeg_queue i u) is s
  have hshrink : Shrinks s (is.foldl (fun s i => discardSeg i s) s) := shrinks_discardSegs is s
  have hsync : Steps s (syncTail is (is.foldl (fun s i => discardSeg i s) s)) := by
    refine Steps.judged (u := is.foldl (fun s i => discardSeg i s) s) ⟨(inOrder_self s).congr (by rw [hqueue]), fun a ha => ?_⟩
      (by rw [hqueue]) (by rw [syncTail_asm]) (e := .tail) (is := is) rfl
    obtain ⟨b, hb, -, hsub⟩ := hshrink.asm a ha
    exact ⟨b, hb, fun m hm => hsub.subset hm⟩
  obtain ⟨hq, -⟩ := dropEmptyRecord_same (syncTail is (is.foldl (fun s i => discardSeg i s) s))
  refine ⟨hsync.order.congr (congrArg Queue.entries hq), fun a ha => hsync.members a ?_⟩
  unfold discardEffect dropEmptyRecord at ha
  split at ha
  · exact ha
  · split at ha
    · simp at ha
    · exact ha

theorem steps_settleExpires (s : State) : Steps s (settleExpires s) := by
  unfold settleExpires
  split
  · exact .of_same rfl rfl
  · rename_i d _
    split
    · exact Steps.judged (u := setStates .verifying (d.members.map Member.seg) s) (.of_same (by rw [setStates_queue]) (by rw [setStates_asm]))
        (by rw [setStates_queue]) (by simp) (e := .tail) (is := d.members.map Member.seg) rfl
    · exact .of_same rfl rfl

theorem foldlMembers_queue {f : State → Member → State} {rec : State → Member → Segment}
    (hf : ∀ s m, (f s m).body = (memberEnded (rec s m) m s).body) (ms : List Member) (s : State) : (ms.foldl f s).queue = s.queue :=
  foldl_keeps State.queue (fun u m => congrArg Body.queue (hf u m)) ms s

theorem steps_abortDrive (s : State) : Steps s (abortDrive s) := by
  have hf := fun s m => congrArg State.body (abortMember_eq m s)
  unfold abortDrive
  split
  · exact .of_same rfl rfl
  · rename_i d _
    split
    · have hqueue := foldlMembers_queue hf d.members s
      obtain ⟨hframe, -⟩ := Prod.mk.inj (foldl_frame hf d.members s)
      have hended : Steps s (d.members.foldl (fun s m => abortMember m s) s) := .of_same (by rw [hqueue]) hframe
      exact Steps.judged (u := setStroke { (d.members.foldl (fun s m => abortMember m s) s).stroke with driven := none, drive := .idle }
        (d.members.foldl (fun s m => abortMember m s) s)) ⟨hended.order, hended.members⟩ (by rw [setStroke_queue, hqueue])
        (by rw [syncHead_asm]) (e := .head) (is := (d.members.map Member.seg).reverse) rfl
    · exact .of_same rfl rfl

theorem steps_strokeEnd (cs : List Conversion) (s : State) : Steps s (strokeEnd cs s) := by
  have hf := fun s m => finishMember_body cs m s
  unfold strokeEnd
  split
  · exact .of_same rfl rfl
  · rename_i d _
    have hqueue := foldlMembers_queue hf d.members s
    obtain ⟨hframe, -⟩ := Prod.mk.inj (foldl_frame hf d.members s)
    have hended : InOrder s.queue.entries (d.members.foldl (fun s m => finishMember cs m s) s) := (inOrder_self s).congr (by rw [hqueue])
    have hheads : InOrder s.queue.entries (syncHead (headBound s d.members)
        (setStroke { (d.members.foldl (fun s m => finishMember cs m s) s).stroke with driven := none }
          (d.members.foldl (fun s m => finishMember cs m s) s))) :=
      InOrder.syncHead (s := setStroke _ _) hended fun i _ hi _ => by rw [setStroke_queue, hqueue]; exact hi
    refine ⟨hheads.syncTail fun i _ hi hq => ?_, fun a ha => ?_⟩
    · rw [mem_syncHead]
      split
      · simpa using hq
      · rw [setStroke_queue, hqueue]
        exact hi
    · rw [syncTail_asm, syncHead_asm, setStroke_asm] at ha
      obtain ⟨b, hb, -, hm, -, -⟩ := asm_of_frame hframe ha
      exact ⟨b, hb, fun m hma => hm ▸ hma⟩

theorem Steps.then {s t u : State} (h : Steps s t) (hq : u.queue.entries = t.queue.entries) (ha : u.asm = t.asm) : Steps s u :=
  ⟨h.order.congr hq, fun a hu => h.members a (ha ▸ hu)⟩

/-- A change of one record, judged, from the state in which the event began. -/
theorem steps_putSeg {s u : State} (hq : u.queue.entries = s.queue.entries)
    (ha : u.asm.map Assembly.frame = s.asm.map Assembly.frame) (e : QueueEnd) (i : SegNo) (r : Segment) : Steps s (putSeg e i r u) :=
  Steps.judged (u := setSeg i r u) (.of_same hq ha) hq (by rw [putSeg_asm]; rfl) (e := e) (is := [i]) rfl

theorem noteIfDiscarded_queue (i : SegNo) (s : State) : (noteIfDiscarded i s).queue = s.queue := by
  rw [noteIfDiscarded_eq]
  rfl

theorem freeJob_noted (i : SegNo) (s : State) : (noteIfDiscarded i (freeJob s)).queue.entries = s.queue.entries ∧
    (noteIfDiscarded i (freeJob s)).asm.map Assembly.frame = s.asm.map Assembly.frame := by
  rw [noteIfDiscarded_queue, noteIfDiscarded_frame]
  exact ⟨rfl, rfl⟩

theorem steps_sweepEnd (g : Job) (i : SegNo) (s : State) : Steps s (sweepEnd g i (freeJob s)) := by
  obtain ⟨hq, hf⟩ := freeJob_noted i s
  have hended : Steps s (if g.touched then sweepTouched i (freeJob s) else sweepUntouched g i (freeJob s)) := by
    split
    · exact steps_putSeg hq hf _ _ _
    · exact steps_putSeg hq hf _ _ _
  exact hended.then (by rw [sweepEnd, judgeLoading_queue]; rfl) (by rw [sweepEnd, judgeLoading_asm]; rfl)

theorem steps_senseEnd (g : Job) (i : SegNo) (s : State) : Steps s (senseEnd g i (freeJob s)) := by
  have hended : Steps s (if g.touched then senseTouched g i (freeJob s) else senseUntouched g i (freeJob s)) := by
    split
    · obtain ⟨hq, hf⟩ := freeJob_noted i s
      have hput := steps_putSeg hq hf .head i (senseTouchedRecord g.before ((freeJob s).seg i))
      exact hput.then (by rw [senseTouched, oweMirror_queue]) (by rw [senseTouched, oweMirror_asm])
    · refine steps_putSeg ?_ ?_ _ _ _
      · rw [noteIfDiscarded_queue]
        simp
      · rw [noteIfDiscarded_frame]
        simp
  exact hended.then (by rw [senseEnd, senseCompletes_queue]) (by rw [senseEnd, senseCompletes_asm])

theorem steps_jobEnd (g : Job) (s : State) : Steps s (jobEnd g s) := by
  have hfreed : Steps s (freeJob s) := .of_same rfl rfl
  unfold jobEnd
  simp only
  split
  · have hstroke := steps_strokeEnd g.results (freeJob s)
    exact ⟨hstroke.order, hstroke.members⟩
  · split
    · exact hfreed
    · exact steps_sweepEnd g _ s
  · split
    · exact hfreed
    · exact steps_senseEnd g _ s

/-! ### The two bytes of a page buffer write (R4, R31) -/

/-- The shown buffer's cells with a mark. -/
theorem suspect_mark {shown : Shown} {r : Segment} {buf : Buffer} {k : Fin 10} (bad : Bool) (h : shown ≠ buf.shown) :
    suspect shown (r.mark buf k bad) = suspect shown r := by
  cases buf <;> cases shown <;> simp_all [suspect, Segment.mark, Buffer.shown]

end Sys2Proof.Machine

/-! ### The step, the passing millisecond and the power-on reset -/

namespace Sys2Proof.Machine

/-- Settles O1: both are how `step` reads the queue of commands. -/
theorem stepRunsFrontCommand : Obligations.StepRunsFrontCommand := by
  refine ⟨fun c rest s h => ?_, fun s h => ?_⟩ <;> simp only [step, h]

/-- What a tick does to a timer is what `Counts` says. -/
theorem counts_tick (t : Timer) : Counts t t.tick := by
  cases t with
  | idle => exact ⟨fun _ => rfl, fun _ _ h => nomatch h⟩
  | running n length =>
    refine ⟨fun h => (nomatch h), fun m l h => ?_⟩
    obtain ⟨rfl, rfl⟩ := Timer.running.inj h
    rfl

/-- Settles O2: the fields that `tick` changes, block by block. -/
theorem millisecondCounts : Obligations.MillisecondCounts := by
  intro s h
  refine ⟨tick s, stepRunsFrontCommand.2 s h, rfl, counts_tick _, counts_tick _, counts_tick _, counts_tick _,
    counts_tick _, fun l => ?_, fun l => ?_, rfl⟩
  · rw [tick_touchLine]
    exact ⟨rfl, counts_tick _, counts_tick _⟩
  · rw [tick_claim]
    rfl

/-- Every record of the powered-on part is the reset record. -/
@[simp] theorem poweredOn_seg (mem : Memory) (pins : Pins) (strap : BitVec 4) (pending : List Instr) (i : SegNo) :
    (State.poweredOn mem pins strap pending).seg i = Segment.reset := by
  simp [State.poweredOn, State.seg]

@[simp] theorem poweredOn_touchLine (mem : Memory) (pins : Pins) (strap : BitVec 4) (pending : List Instr) (l : LineNo) :
    (State.poweredOn mem pins strap pending).touchLine l = TouchLine.stopped := by
  simp [State.poweredOn, State.touchLine, TouchUnit.stopped]

@[simp] theorem poweredOn_claim (mem : Memory) (pins : Pins) (strap : BitVec 4) (pending : List Instr) (l : LineNo) :
    (State.poweredOn mem pins strap pending).claim l = Claim.freed := by
  simp [State.poweredOn, State.claim, ClaimTable.stopped]

/-- No event is enabled after a power-on reset, so ATTN is low. -/
theorem poweredOn_attn (mem : Memory) (pins : Pins) (strap : BitVec 4) (pending : List Instr) :
    (State.poweredOn mem pins strap pending).attn = false := by
  simp [State.poweredOn, State.attn]

/-- Settles O3: `State.poweredOn` read block by block. -/
theorem powerOnResetValues : Obligations.PowerOnResetValues := by
  intro strap s
  refine ⟨State.poweredOn s.mem s.pins strap s.pending, rfl, fun i => ?_, fun i => rfl, rfl, rfl, fun a => ⟨rfl, rfl⟩, rfl,
    rfl, rfl, rfl, rfl, rfl, rfl, rfl, rfl, ?_, rfl, rfl, fun l => poweredOn_touchLine .., rfl, fun l => poweredOn_claim ..,
    rfl, rfl, rfl, poweredOn_attn .., rfl, rfl⟩
  · rw [poweredOn_seg]
    exact ⟨rfl, rfl, rfl, rfl, rfl, rfl, rfl, rfl, rfl, rfl⟩
  · rfl

/-- Settles O4: the part powered on with an empty memory has nothing in flight, nothing queued and nothing owed. -/
theorem resetHoldsTheLaws : Obligations.ResetHoldsTheLaws := by
  have hseg : ∀ i, State.reset.seg i = Segment.reset := poweredOn_seg _ _ _ _
  have hclaim : ∀ l, State.reset.claim l = Claim.freed := poweredOn_claim _ _ _ _
  refine ⟨⟨wf_reset, ⟨List.nodup_nil, fun p h => (nomatch h)⟩, rfl⟩, poweredOn_touchLine _ _ _ _,
    ⟨⟨fun h => (nomatch h), fun h => absurd rfl h⟩, fun _ => hclaim, fun l => ?_⟩, fun h => absurd rfl h,
    ⟨fun a h => (nomatch h), fun d h => (nomatch h)⟩, ⟨List.nodup_nil, fun i => ?_⟩,
    WorkLawful.idle rfl rfl rfl fun _ => ⟨rfl, rfl⟩, ⟨fun i h => ?_, fun i h => ?_, fun a c h => (nomatch h), fun j h => (nomatch h)⟩,
    ?_, fun i => ?_⟩
  · rw [hclaim]
    exact ⟨⟨fun h => (nomatch h), fun h => (nomatch h)⟩, fun h => (nomatch h)⟩
  · exact ⟨fun h => (nomatch h), fun h => (nomatch h)⟩
  · rw [hseg]
    rfl
  · rw [hseg] at h
    exact h.elim nofun (·.elim nofun nofun)
  · exact ringLawful_zero rfl rfl
  · rw [hseg]
    exact Nat.zero_le 4

end Sys2Proof.Machine

/-! ### The memory port: turns, waits and host writes of plain words (R2, R5, R6, R9, R12, R13) -/

namespace Sys2Proof.Machine

/-- Parity that the part generates is good (R15). -/
@[simp] theorem goodParity_made (b : Byte) : goodParity b (madeParity b) = true := by
  simp [goodParity, madeParity]

theorem exec_postWrite (s : State) : exec .postWrite s = .next (drainHead s) := rfl

theorem drainHead_cons {s : State} {p : Post} {ps : List Post} (h : s.bus.posts = p :: ps) :
    drainHead s = servedPart .post { s with mem := writePost (areaBase s) p s.mem, bus := { s.bus with posts := ps } } := by
  simp only [drainHead, h]

/-- What the write of a list entry leaves in memory (R12). -/
theorem writePost_spec {m : Memory} (hm : m.wf = true) (base : Nat) (p : Post) :
    (writePost base p m).word (base + p.offset) = p.value ∧
      (writePost base p m).byte (base + p.offset) = lowByte p.value ∧
      (writePost base p m).byte (base + p.offset + 1) = highByte p.value ∧
      goodParity (lowByte p.value) ((writePost base p m).par (base + p.offset)) = true ∧
      goodParity (highByte p.value) ((writePost base p m).par (base + p.offset + 1)) = true := by
  refine ⟨Memory.word_storeWord hm _ _, ?_⟩
  simp [writePost, Memory.byte_storeWord hm, Memory.par_storeWord hm]

theorem writePost_away {m : Memory} (hm : m.wf = true) {base a : Nat} {p : Post} (h : a ≠ base + p.offset)
    (h' : a ≠ base + p.offset + 1) : (writePost base p m).byte a = m.byte a ∧ (writePost base p m).par a = m.par a := by
  simp [writePost, Memory.byte_storeWord hm, Memory.par_storeWord hm, h, h']

/-- Settles O11: a turn of the post list is `drainHead` on its head, and the arbiter's choice is read off `portTurn` and `partTurn`. -/
theorem portTurns : Obligations.PortTurns := by
  refine ⟨fun s p ps hs hp => ?turn, fun s x hx => ?choice, fun s hread hposts => ?between⟩
  case turn =>
    obtain ⟨-, hlow, hhigh, hlowPar, hhighPar⟩ := writePost_spec hs.1 (areaBase s) p
    refine ⟨_, exec_postWrite s, ?_⟩
    rw [drainHead_cons hp]
    exact ⟨rfl, rfl, rfl, rfl, hlow, hhigh, hlowPar, hhighPar, fun a ha ha' => writePost_away hs.1 ha ha'⟩
  case choice =>
    simp only [portTurn, hx]
    split <;> rfl
  case between =>
    have hfull : s.bus.posts.isEmpty = false := by simpa using hposts
    refine ⟨?_, ?_⟩
    · rw [partTurn, hread, hfull]
      rcases s.bus.arbiter.partLast with _ | _ | _ <;> rfl
    · rw [portTurn, partTurn, hread, hfull]
      rfl

/-! ### The wait for a pending post (R13) -/

theorem onlyPort_waitForPost (off : Nat) (s : State) : OnlyPort s (waitForPost off s) := by
  unfold waitForPost
  split <;> rfl

theorem waitForPost_posts (off : Nat) (s : State) : (waitForPost off s).bus.posts <:+ s.bus.posts := by
  unfold waitForPost
  split
  · exact drainTo_suffix ..
  · exact List.suffix_rfl

/-- A byte that no entry of the wait covers reads as before. -/
theorem waitForPost_away {s : State} (h : PortLawful s) {off a : Nat} (ha : ¬DrainedOver s (waitForPost off s) a) :
    SameByte s (waitForPost off s) a := by
  unfold waitForPost at ha ⊢
  split
  · rename_i hp
    rw [if_pos hp] at ha
    refine drainTo_away h.1 (fun p hps hgone => ⟨fun e => ha ⟨p, hps, hgone, .inl e⟩, fun e => ha ⟨p, hps, hgone, .inr e⟩⟩) h.2.1
  · exact ⟨rfl, rfl⟩

/-- The last entry that a wait writes is the one it waits for. -/
theorem drainTo_writes {base off : Nat} {ps : List Post} {m : Memory} (hm : m.wf = true) {p : Post} (hp : p ∈ ps)
    (hoff : p.offset = off) (hn : (ps.map Post.offset).Nodup) :
    ∃ m', m'.wf = true ∧ (drainTo base off ps m).2 = writePost base p m' := by
  induction ps generalizing m with
  | nil => nomatch hp
  | cons q ps ih =>
    rw [List.map_cons, List.nodup_cons] at hn
    rw [drainTo]
    split
    · rename_i hq
      have : p = q := by
        rcases List.mem_cons.1 hp with h | h
        · exact h
        · exact absurd (hq.trans hoff.symm ▸ List.mem_map_of_mem h) hn.1
      exact ⟨m, hm, by rw [this]⟩
    · rename_i hq
      have hmem : p ∈ ps := (List.mem_cons.1 hp).resolve_left fun h => hq (h ▸ hoff)
      exact ih (wf_writePost hm base q) hmem hn.2

/-- After the wait the word holds the value that was pending, with good parity. -/
theorem waitForPost_posted {s : State} (h : PortLawful s) {off : Nat} {v : Word} (hp : Posted s off v) :
    ∃ m, m.wf = true ∧ (waitForPost off s).mem = writePost (areaBase s) ⟨off, v⟩ m := by
  have hpost : hasPost s off = true := hasPost_iff.2 ⟨_, hp, rfl⟩
  rw [waitForPost, if_pos hpost]
  exact drainTo_writes h.1 hp rfl h.2.1

/-! ### Forwarded writes and reads -/

theorem onlyPort_forwardArea (off : Nat) (w : HostWrite) (s : State) : OnlyPort s (forwardArea off w s) := by
  have h := onlyPort_waitForPost off s
  unfold OnlyPort at h ⊢
  rw [forwardArea, storeArea, h]
  rfl

theorem forwardArea_posts (off : Nat) (w : HostWrite) (s : State) : (forwardArea off w s).bus.posts <:+ s.bus.posts :=
  waitForPost_posts off s

theorem hasPost_forwardArea {s : State} (h : PostsLawful s) (off : Nat) (w : HostWrite) :
    hasPost (forwardArea off w s) off = false := hasPost_wait h off

theorem forwardArea_mem (off : Nat) (w : HostWrite) (s : State) :
    (forwardArea off w s).mem = (waitForPost off s).mem.storeHost (areaBase s + off) w := by
  rw [← waitForPost_areaBase off s]
  rfl

/-- A forwarded write has reached memory, over whatever its wait has written. -/
theorem forwardArea_storedOnly {s : State} (h : PortLawful s) (off : Nat) (w : HostWrite) :
    StoredOnly (waitForPost off s) (forwardArea off w s) (areaBase s + off) w :=
  storedOnly_of_mem (wf_waitForPost off h.1) (forwardArea_mem off w s)

theorem forwardArea_away {s : State} (h : PortLawful s) {off a : Nat} {w : HostWrite} (he : ¬Enabled (areaBase s + off) w a)
    (hd : ¬DrainedOver s (forwardArea off w s) a) : SameByte s (forwardArea off w s) a := by
  obtain ⟨hbyte, hpar⟩ := waitForPost_away h (off := off) hd
  obtain ⟨hbyte', hpar'⟩ := (forwardArea_storedOnly h off w).2 a he
  exact ⟨hbyte'.trans hbyte, hpar'.trans hpar⟩

theorem storeArea_storedOnly {s : State} (h : s.mem.wf = true) (off : Nat) (w : HostWrite) :
    StoredOnly s (storeArea off w s) (areaBase s + off) w := storedOnly_of_mem h rfl

theorem onlyPort_storeArea (off : Nat) (w : HostWrite) (s : State) : OnlyPort s (storeArea off w s) := rfl

theorem isOff_iff (s : State) : isOff s = true ↔ s.engine.state = .off := by simp [isOff]

theorem isOff_eq_false {s : State} (h : s.engine.state ≠ .off) : isOff s = false := by
  rw [Bool.eq_false_iff]
  exact fun e => h ((isOff_iff s).1 e)

/-- A write in OFF of a word that waits for nothing is stored as sent. -/
theorem offWrite_stores {off : Nat} {s : State} (h : hasPost s off = false ∨ Config.offWriteWaits = false) (w : HostWrite) :
    offWrite off w s = storeArea off w s := by
  unfold offWrite
  split
  · rfl
  · rename_i hn
    refine forwardArea_none ?_ w
    rcases h with h | h
    · exact h
    · exact Bool.eq_false_iff.2 fun hp => hn ⟨hp, h⟩

theorem offWrite_waits {off : Nat} (h : Config.offWriteWaits = true) (w : HostWrite) (s : State) :
    offWrite off w s = forwardArea off w s := by
  unfold offWrite
  rw [if_neg]
  rw [h]
  exact fun e => Bool.noConfusion e.2

theorem pageWrite_off {s : State} (h : PostsLawful s) (hoff : s.engine.state = .off) (buf : Buffer) (word : Fin 480)
    (w : HostWrite) : pageWrite buf word w s = storeArea (buf.offset + 2 * word.val) w s := by
  have hnone := h.hasPost_false (not_postable_page buf word)
  unfold pageWrite
  simp only [forwardArea_none hnone]
  exact if_pos ((isOff_iff _).2 hoff)

/-- Settles O12: a write in OFF is stored, after its wait in a part that waits. -/
theorem writesInOff : Obligations.WritesInOff := by
  refine ⟨fun p w s hs hoff => ?owned, fun buf word w s hs hoff => ?page⟩
  case owned =>
    have hexec : exec (.partOwnedWordWrite p w) s = .next (offWrite p.offset w s) :=
      congrArg Host.Outcome.next (if_pos ((isOff_iff s).2 hoff))
    rcases Bool.eq_false_or_eq_true Config.offWriteWaits with hwaits | hwaits
    · refine ⟨_, hexec, ?_⟩
      rw [offWrite_waits hwaits]
      refine ⟨onlyPort_forwardArea .., (forwardArea_storedOnly hs.port _ w).1, fun h => ?_, fun _ _ => ⟨forwardArea_posts .., hasPost_forwardArea hs.2.1 ..,
        fun a ha hd => forwardArea_away hs.port ha hd⟩⟩
      have hnone : hasPost s p.offset = false := h.resolve_right (by rw [hwaits]; exact Bool.noConfusion)
      rw [forwardArea_none hnone]
      exact ⟨rfl, storeArea_storedOnly hs.1 _ w⟩
    · refine ⟨_, hexec, ?_⟩
      rw [offWrite_stores (.inr hwaits)]
      have hstored := storeArea_storedOnly hs.1 p.offset w
      exact ⟨onlyPort_storeArea .., hstored.1, fun _ => ⟨rfl, hstored⟩, fun _ h => absurd h (by rw [hwaits]; exact Bool.noConfusion)⟩
  case page =>
    refine ⟨_, rfl, ?_⟩
    rw [pageWrite_off hs.2.1 hoff, Nat.add_assoc]
    exact ⟨onlyPort_storeArea .., rfl, storeArea_storedOnly hs.1 _ w⟩

/-- Settles O14: outside OFF the write is dropped whole. -/
theorem ownedWriteDropped : Obligations.OwnedWriteDropped := by
  intro p w s hs hoff
  have hexec : exec (.partOwnedWordWrite p w) s = .next (dropWrite p.offset s) := by
    refine congrArg Host.Outcome.next ?_
    rw [ownedWrite, isOff_eq_false hoff]
    rfl
  refine ⟨_, hexec, onlyPortAndEvents_dropWrite hs.2.2 _, sameMemory_dropWrite _ s, ?_, fun e he => ?_, endsWith_dropWrite _ s⟩
  · simp [isPending_dropWrite]
  · simp [isPending_dropWrite, he]

/-! ### The event words and ATTN (R7, R188, R189) -/

theorem bits_getLsbD (w : HostWrite) {i : Nat} (hi : i < 16) :
    w.bits.getLsbD i = (w.data.getLsbD i && (if i < 8 then w.enLow else w.enHigh)) := by
  rw [HostWrite.bits, HostWrite.load, wordOf_getLsbD]
  split
  · cases w.enLow <;> simp [lowByte, *]
  · have : 8 + (i - 8) = i := by omega
    have hlt : i - 8 < 8 := by omega
    cases w.enHigh <;> simp [highByte, *]

theorem Event.bit_lt (e : Event) : e.bit < 13 := by cases e <;> decide

/-- The bits of the set and clear words that name an event. -/
theorem isPending_setEvents (w : HostWrite) (s : State) (e : Event) :
    isPending (eventSetWrite w s) e =
      (isPending s e || w.data.getLsbD e.bit && (if e.bit < 8 then w.enLow else w.enHigh)) := by
  have hlt := e.bit_lt
  rw [eventSetWrite, isPending_congr (congrArg EventUnit.pending (postPending_events _))]
  simp only [isPending, setEvents, BitVec.getLsbD_or, BitVec.getLsbD_setWidth, hlt, decide_true, Bool.true_and]
  rw [bits_getLsbD w (by omega)]

theorem isPending_clearEvents (w : HostWrite) (s : State) (e : Event) :
    isPending (eventClearWrite w s) e =
      (isPending s e && !(w.data.getLsbD e.bit && (if e.bit < 8 then w.enLow else w.enHigh))) := by
  have hlt := e.bit_lt
  rw [eventClearWrite, isPending_congr (congrArg EventUnit.pending (postPending_events _))]
  simp only [isPending, clearEvents, BitVec.getLsbD_and, BitVec.getLsbD_not, BitVec.getLsbD_setWidth, hlt, decide_true, Bool.true_and]
  rw [bits_getLsbD w (by omega)]

/-- A pending word that is owed is the last post. -/
theorem endsWith_postPending {s : State} (h : s.owed.pending = true) :
    EndsWith (postPending s) [pendingPost (postPending s)] := by
  refine ⟨s.bus.posts.filter fun q => q.offset != PartWord.offset .eventPending, (postPending_posts h).trans ?_⟩
  rw [pendingPost, pendingWord, pendingWord, postPending_events]
  rfl

theorem owes_mirrors {s : State} (h : OwesNothing s) : s.owed.mirrors = [] := congrArg Owed.mirrors h

theorem owes_results {s : State} (h : OwesNothing s) : s.owed.results = [] := congrArg Owed.results h

theorem owes_pending {s : State} (h : OwesNothing s) : s.owed.pending = false := congrArg Owed.pending h

/-- An event word's write reaches the pending set and its word alone. -/
theorem onlyPortAndEvents_postPending {s t : State} (hs : OwesNothing s) (hshape : t.shape = s.shape)
    (hm : t.owed.mirrors = s.owed.mirrors) (hr : t.owed.results = s.owed.results) : OnlyPortAndEvents s (postPending t) :=
  onlyPortAndEvents_of_shape ((postPending_shape t).trans hshape)
    ((postPending_owesNothing (hm.trans (owes_mirrors hs)) (hr.trans (owes_results hs))).trans hs.symm)

/-- Each bit of the pending set is an event's. -/
theorem exists_event_bit {i : Nat} (h : i < 13) : ∃ e : Event, e.bit = i := by
  have : ∀ i : Fin 13, ∃ e ∈ [Event.pageDone, .faultNew, .ringFull, .lagWarn, .lagLimit, .claimWarn, .claimExpired, .supplyLost,
    .supplyBack, .parity, .ownedWrite, .cmdDone, .ringIndexBad], e.bit = i.val := by decide
  obtain ⟨e, -, he⟩ := this ⟨i, h⟩
  exact ⟨e, he⟩

theorem attn_iff (s : State) :
    s.attn = true ↔ ∃ e : Event, isPending s e = true ∧ s.bus.enable.getLsbD e.bit = true := by
  have hbits : s.attn = true ↔ ∃ i, i < 13 ∧ s.events.pending.getLsbD i = true ∧ s.bus.enable.getLsbD i = true := by
    rw [State.attn, bne_iff_ne, ne_eq, BitVec.eq_of_getLsbD_eq_iff]
    simp only [BitVec.getLsbD_and, BitVec.getLsbD_setWidth, BitVec.ofNat_eq_ofNat, BitVec.getLsbD_zero, not_forall]
    refine exists_congr fun i => ?_
    by_cases hi : i < 13 <;> simp [hi]
  rw [hbits]
  constructor
  · rintro ⟨i, hi, hp, hen⟩
    obtain ⟨e, rfl⟩ := exists_event_bit hi
    exact ⟨e, hp, hen⟩
  · rintro ⟨e, hp, hen⟩
    exact ⟨e.bit, e.bit_lt, hp, hen⟩

/-- Settles O15: the set and clear words change the pending set bit by bit, and ATTN is a bit both pending and enabled. -/
theorem eventWordsAndAttn : Obligations.EventWordsAndAttn := by
  refine ⟨fun w s hs => ⟨?set, ?clear⟩, attn_iff⟩
  case set =>
    exact ⟨_, rfl, onlyPortAndEvents_postPending hs.2.2 (setEvents_shape w s) rfl rfl,
      fun a => by simp [SameByte, eventSetWrite], isPending_setEvents w s, endsWith_postPending rfl⟩
  case clear =>
    exact ⟨_, rfl, onlyPortAndEvents_postPending hs.2.2 (clearEvents_shape w s) rfl rfl,
      fun a => by simp [SameByte, eventClearWrite], isPending_clearEvents w s, endsWith_postPending rfl⟩

/-! ### The argument and enable words (R5) -/

theorem load_bytes (w : HostWrite) (old : Word) :
    lowByte (w.load old) = (if w.enLow then lowByte w.data else lowByte old) ∧
      highByte (w.load old) = if w.enHigh then highByte w.data else highByte old := by
  simp [HostWrite.load]

/-- Settles O16: the word waits for no post, and its enabled bytes are loaded. -/
theorem argumentAndEnableWrites : Obligations.ArgumentAndEnableWrites := by
  intro w s hs
  have harg : forwardArea argumentOffset w s = storeArea argumentOffset w s :=
    forwardArea_none (hs.2.1.hasPost_false (not_postable_hostWord (.inr (.inl rfl)))) w
  have hen : forwardArea eventEnableOffset w s = storeArea eventEnableOffset w s :=
    forwardArea_none (hs.2.1.hasPost_false (not_postable_hostWord (.inr (.inr (.inl rfl))))) w
  refine ⟨⟨_, rfl, ?_⟩, ⟨_, rfl, ?_⟩⟩
  · rw [argumentWrite, harg]
    exact ⟨storeArea_storedOnly hs.1 _ w, rfl, load_bytes w _⟩
  · rw [enableWrite, hen]
    exact ⟨storeArea_storedOnly hs.1 _ w, rfl, load_bytes w _⟩

end Sys2Proof.Machine

/-! ### Claim words: reads, takes and the writes that reach memory alone (R8, R10, R13, R144 to R147) -/

namespace Sys2Proof.Machine

theorem exec_claimWordRead (l : LineNo) (lo hi : Bool) (s : State) :
    exec (.claimWordRead l lo hi) s = .next (claimRead l lo hi s) := rfl

theorem exec_claimWordWrite (l : LineNo) (w : HostWrite) (s : State) :
    exec (.claimWordWrite l w) s = .next (claimWrite l w s) := rfl

/-- A served read leaves only the arbiter's memory and the data read. -/
theorem readArea_frame (off : Nat) (lo hi : Bool) (s : State) :
    readArea off lo hi s = { s with
      mem := (waitForPost off s).mem
      bus := { s.bus with
        posts := (waitForPost off s).bus.posts
        arbiter := (readArea off lo hi s).bus.arbiter
        hostRead := some (hostReadOf (areaBase s + off) lo hi (waitForPost off s)) } } := by
  unfold readArea waitForPost
  split <;> rfl

theorem readArea_mem (off : Nat) (lo hi : Bool) (s : State) : (readArea off lo hi s).mem = (waitForPost off s).mem := rfl

/-- The bytes of a claim word that a read returns, by the value of the word. -/
theorem hostReadOf_claimWord {s : State} {a : Nat} {c : ClaimState} (h : s.mem.word a = claimValue c) (lo hi : Bool) :
    (lo = true → (hostReadOf a lo hi s).low.map Prod.fst = some (if c = .taken then 1 else 0)) ∧
      (hi = true → (hostReadOf a lo hi s).high.map Prod.fst = some 0) := by
  obtain ⟨hlow, hhigh⟩ := Memory.word_eq_claimValue_iff.1 h
  refine ⟨fun e => ?_, fun e => ?_⟩
  · simp [hostReadOf, e, hlow]
  · simp [hostReadOf, e, hhigh]

/-- After a wait on its word, a claim word reads as its claim. -/
theorem claimWord_after_wait {s : State} (hs : PortLawful s) (h : ClaimWordsLawful s) (hoff : s.engine.state ≠ .off) (l : LineNo) :
    (waitForPost (claimOffset l) s).mem.word (areaBase s + claimOffset l) = claimValue (s.claim l).claim := by
  have hwords := (kept_waitForPost (claimOffset l) s).words hs h
  have hframe := onlyPort_waitForPost (claimOffset l) s
  have heng : (waitForPost (claimOffset l) s).engine = s.engine := by rw [hframe]
  have hclaim : (waitForPost (claimOffset l) s).claim l = s.claim l := by
    rw [hframe]
    rfl
  have hword := (hwords (heng ▸ hoff) l).2 (hasPost_wait hs.2 _)
  rw [waitForPost_areaBase, hclaim] at hword
  exact hword

/-- The take of a free line: the read, and then the part's own write of 1 (R10, R146). -/
theorem claimRead_takes {l : LineNo} {s : State} (hoff : s.engine.state ≠ .off) (hfree : (s.claim l).claim = .free) (lo hi : Bool) :
    claimRead l lo hi s = writeWord (claimOffset l) 1 (setClaim l ⟨.taken, some 0, false⟩ (readArea (claimOffset l) lo hi s)) := by
  unfold claimRead
  refine if_pos ⟨?_, ?_⟩
  · rw [readArea_frame]
    exact isOff_eq_false hoff
  · rw [readArea_frame]
    change ((s.claim l).claim == .taken) = false
    rw [hfree]
    rfl

theorem claimRead_only {l : LineNo} {s : State} (h : s.engine.state = .off ∨ (s.claim l).claim = .taken) (lo hi : Bool) :
    claimRead l lo hi s = readArea (claimOffset l) lo hi s := by
  unfold claimRead
  refine if_neg fun hn => ?_
  rw [readArea_frame] at hn
  obtain ⟨hon, hfree⟩ := hn
  rcases h with h | h
  · exact absurd ((isOff_iff s).2 h) (by rw [show isOff s = false from hon]; exact Bool.noConfusion)
  · have hfree' : ((s.claim l).claim == .taken) = false := hfree
    rw [h] at hfree'
    exact Bool.noConfusion hfree'

/-- Settles O18: the read waits, returns the 0 of the free line, and the part then writes 1. -/
theorem claimReadTakes : Obligations.ClaimReadTakes := by
  intro l lo hi s hs hwords hoff hfree
  have hword := claimWord_after_wait hs.port hwords hoff l
  rw [hfree] at hword
  have hwf := wf_waitForPost (claimOffset l) hs.1
  refine ⟨_, exec_claimWordRead l lo hi s, ?_⟩
  rw [claimRead_takes hoff hfree, readArea_frame]
  refine ⟨?_, fun k hk => ?_, ⟨_, rfl, hostReadOf_claimWord hword lo hi⟩, Memory.word_storeWord hwf _ _, ?_, ?_, fun a ha ha' hd => ?_,
    waitForPost_posts _ s, hasPost_wait hs.2.1 _, rfl⟩
  · exact (claim_set l l _ _).trans (if_pos rfl)
  · exact (claim_set l k _ _).trans (if_neg hk)
  · have hpar := Memory.par_storeWord hwf (areaBase s + claimOffset l) (areaBase s + claimOffset l) 1
    rw [if_pos rfl] at hpar
    exact (congrArg (goodParity 1) hpar).trans (goodParity_made 1)
  · have hpar := Memory.par_storeWord hwf (areaBase s + claimOffset l) (areaBase s + claimOffset l + 1) 1
    rw [if_neg (Nat.succ_ne_self _), if_pos rfl] at hpar
    exact (congrArg (goodParity 0) hpar).trans (goodParity_made 0)
  · have hbyte := (Memory.byte_storeWord hwf (areaBase s + claimOffset l) a 1).trans (by rw [if_neg ha, if_neg ha'])
    have hpar := (Memory.par_storeWord hwf (areaBase s + claimOffset l) a 1).trans (by rw [if_neg ha, if_neg ha'])
    obtain ⟨hb, hp⟩ := waitForPost_away hs.port (off := claimOffset l) hd
    exact ⟨hbyte.trans hb, hpar.trans hp⟩

/-! ### Other reads (R2, R3) -/

theorem exec_read (addr : BitVec 22) (lo hi : Bool) (s : State) :
    exec (.hostWriteForwarded addr (.read lo hi)) s = .next (hostRead (hostAddr addr) lo hi s) := rfl

theorem hostRead_claim {a : Nat} {l : LineNo} {s : State} (h : placeOfAddr s a = .claim l) (lo hi : Bool) :
    hostRead a lo hi s = claimRead l lo hi s := by
  rw [hostRead, h]

theorem hostRead_other {a : Nat} {s : State} (h : ∀ l, placeOfAddr s a ≠ .claim l) (lo hi : Bool) :
    hostRead a lo hi s = readAddr a lo hi s := by
  rw [hostRead]
  split
  · rename_i l hl
    exact absurd hl (h l)
  · rfl

/-- What a read of any word leaves, with the wait that it has had. -/
structure ReadDone (a : Nat) (lo hi : Bool) (s t : State) : Prop where
  returned : t.bus.hostRead = some (hostReadOf a lo hi t)
  served : t.bus.arbiter.last = some .host
  away : ∀ c, ¬DrainedOver s t c → SameByte s t c
  posts : t.bus.posts <:+ s.bus.posts
  frame : t = { s with
    mem := t.mem
    bus := { s.bus with posts := t.bus.posts, arbiter := t.bus.arbiter, hostRead := t.bus.hostRead } }

theorem readDone_readArea {s : State} (hs : PortLawful s) (off : Nat) (lo hi : Bool) :
    ReadDone (areaBase s + off) lo hi s (readArea off lo hi s) where
  returned := readAt_returns (areaBase s + off) lo hi (waitForPost off s)
  served := rfl
  away c hc := waitForPost_away hs (off := off) hc
  posts := waitForPost_posts off s
  frame := by
    rw [readArea_frame]

theorem readDone_readAt (a : Nat) (lo hi : Bool) (s : State) : ReadDone a lo hi s (readAt a lo hi s) where
  returned := readAt_returns a lo hi s
  served := rfl
  away _ _ := ⟨rfl, rfl⟩
  posts := List.suffix_rfl
  frame := rfl

/-- A read of an address by its offset waits for the post of that offset. -/
theorem readAddr_offset {s : State} {a off : Nat} (ha : a = areaBase s + off) (hoff : off < Config.areaBytes) (lo hi : Bool) :
    readAddr a lo hi s = readArea off lo hi s := by
  subst ha
  rw [readAddr, if_pos ⟨Nat.le_add_right _ _, Nat.add_lt_add_left hoff _⟩, Nat.add_sub_cancel_left]

theorem readDone_readAddr {s : State} (hs : PortLawful s) (a : Nat) (lo hi : Bool) : ReadDone a lo hi s (readAddr a lo hi s) := by
  unfold readAddr
  split
  · rename_i h
    have := readDone_readArea hs (a - areaBase s) lo hi
    rwa [Nat.add_sub_cancel' h.1] at this
  · exact readDone_readAt a lo hi s

/-- A read of a word without a pending post changes nothing in memory. -/
theorem readAddr_none {s : State} {a : Nat} (h : ∀ off, a = areaBase s + off → hasPost s off = false) (lo hi : Bool) :
    readAddr a lo hi s = readAt a lo hi s := by
  unfold readAddr
  split
  · rename_i harea
    have ha : areaBase s + (a - areaBase s) = a := Nat.add_sub_cancel' harea.1
    rw [readArea_none (h _ ha.symm), ha]
  · rfl

/-- Settles O19: a read waits and returns what memory holds; on a taken line there is nothing to wait for. -/
theorem claimReadWithoutTake : Obligations.ClaimReadWithoutTake := by
  refine ⟨fun l lo hi s hs hwords hoff htaken => ?taken, fun l lo hi s hs hoff => ?off, fun a t lo hi => rfl,
    fun addr l lo hi s hl => congrArg Host.Outcome.next (hostRead_claim hl lo hi), fun addr lo hi s hs hother => ?other⟩
  case taken =>
    have hnone : hasPost s (claimOffset l) = false := by
      rw [Bool.eq_false_iff]
      intro hp
      have := ((hwords hoff l).1 hp).1
      rw [htaken] at this
      nomatch this
    have hword := claimWord_after_wait hs.port hwords hoff l
    rw [htaken, waitForPost_none hnone] at hword
    refine ⟨_, exec_claimWordRead l lo hi s, ?_⟩
    rw [claimRead_only (.inr htaken), readArea_none hnone]
    exact ⟨fun a => ⟨rfl, rfl⟩, ⟨_, rfl, hostReadOf_claimWord hword lo hi⟩, rfl⟩
  case off =>
    refine ⟨_, exec_claimWordRead l lo hi s, ?_⟩
    rw [claimRead_only (.inl hoff)]
    obtain ⟨hreturned, -, haway, hposts, hframe⟩ := readDone_readArea hs.port (claimOffset l) lo hi
    exact ⟨haway, hreturned, hposts, hasPost_wait hs.2.1 _, hframe⟩
  case other =>
    refine ⟨_, exec_read addr lo hi s, ?_⟩
    rw [hostRead_other hother]
    obtain ⟨hreturned, hserved, haway, hposts, hframe⟩ := readDone_readAddr hs.port (hostAddr addr) lo hi
    refine ⟨hreturned, hserved, haway, hposts, fun off v ha hp => ?_, fun hnone => ?_, hframe⟩
    · have hlt : off < Config.areaBytes := Nat.lt_of_succ_lt (hs.2.1.2 _ hp).even.2
      rw [readAddr_offset ha hlt, ha]
      obtain ⟨m, hm, hmem⟩ := waitForPost_posted hs.port hp
      obtain ⟨hword, hlow, hhigh, hlowPar, hhighPar⟩ := writePost_spec hm (areaBase s) ⟨off, v⟩
      rw [readArea_mem, hmem]
      exact ⟨hword, hasPost_wait hs.2.1 _, by rw [hlow]; exact hlowPar, by rw [hhigh]; exact hhighPar⟩
    · rw [readAddr_none hnone]
      exact ⟨fun a => ⟨rfl, rfl⟩, rfl⟩

/-! ### Claim word writes that reach memory alone (R8, R147) -/

/-- A write of zeros that frees no line is only forwarded. -/
theorem claimWrite_forwarded {l : LineNo} {w : HostWrite} {s : State}
    (h : s.engine.state = .off ∨ w.allZero = true ∧ (w.enLow = true → (s.claim l).claim = .free)) :
    claimWrite l w s = forwardArea (claimOffset l) w s := by
  unfold claimWrite
  split
  · rfl
  · rename_i hon
    obtain ⟨hzero, hfree⟩ := h.resolve_left fun e => hon ((isOff_iff s).2 e)
    rw [if_pos hzero]
    simp only
    split
    · rename_i hlow
      refine if_neg ?_
      rw [onlyPort_forwardArea (claimOffset l) w s]
      change ¬((s.claim l).claim == .taken) = true
      rw [hfree hlow]
      exact Bool.noConfusion
    · rfl

/-- Settles O22: these writes are `forwardArea` of the claim word. -/
theorem claimWriteToMemoryAlone : Obligations.ClaimWriteToMemoryAlone := by
  refine ⟨fun l w s hs hwords hoff hlow hhigh hzero => ?high, fun l w s hs h => ?alone⟩
  case high =>
    have hall : w.allZero = true := (allZero_iff w).2 ⟨fun h => absurd h (by rw [hlow]; exact Bool.noConfusion), fun _ => hzero⟩
    have heq : claimWrite l w s = forwardArea (claimOffset l) w s :=
      claimWrite_forwarded (.inr ⟨hall, fun h => absurd h (by rw [hlow]; exact Bool.noConfusion)⟩)
    refine ⟨_, exec_claimWordWrite l w s, ?_⟩
    rw [heq]
    refine ⟨onlyPort_forwardArea .., forwardArea_claims .., forwardArea_events .., forwardArea_posts .., (forwardArea_storedOnly hs.port _ w).1,
      fun a ha hd => forwardArea_away hs.port ha hd, ?_⟩
    have hword := Memory.word_storeHost_zeros (wf_waitForPost (claimOffset l) hs.1) hall (claimWord_after_wait hs.port hwords hoff l)
    rw [hlow] at hword
    rw [forwardArea_mem]
    exact hword
  case alone =>
    have heq : claimWrite l w s = forwardArea (claimOffset l) w s :=
      claimWrite_forwarded (h.imp_right fun ⟨hfree, hlow, hhigh⟩ => ⟨(allZero_iff w).2 ⟨hlow, hhigh⟩, fun _ => hfree⟩)
    refine ⟨_, exec_claimWordWrite l w s, ?_⟩
    rw [heq]
    exact ⟨onlyPort_forwardArea .., forwardArea_posts .., hasPost_forwardArea hs.2.1 .., (forwardArea_storedOnly hs.port _ w).1,
      fun a ha hd => forwardArea_away hs.port ha hd⟩

end Sys2Proof.Machine

/-! ### The area map and host writes by address (R1, R2; 01_the_tactile_area.md, Area map) -/

namespace Sys2Proof.Machine

theorem placeOf_page (buf : Buffer) (word : Fin 480) : placeOf (buf.offset + 2 * word.val) = .pageBuffer buf word := by
  have hlt := word.isLt
  cases buf with
  | a =>
    have hword : (Buffer.a.offset + 2 * word.val) / 2 = word.val := by simp [Buffer.offset]
    rw [placeOf, dif_pos (by omega)]
    exact congrArg _ (Fin.ext hword)
  | b =>
    have hword : (Buffer.b.offset + 2 * word.val - 0x0400) / 2 = word.val := by simp [Buffer.offset]
    rw [placeOf, dif_neg (by simp only [Buffer.offset]; omega), dif_pos ⟨Nat.le_add_right _ _, by omega⟩]
    exact congrArg _ (Fin.ext hword)

theorem placeOf_senseImage (c : Fin 960) : placeOf (PartWord.offset (.senseImage c)) = .partOwned (.senseImage c) := by
  have hlt := c.isLt
  have hword : (PartWord.offset (.senseImage c) - 0x0800) / 2 = c.val := by simp [PartWord.offset]
  rw [placeOf, dif_neg (by simp only [PartWord.offset]; omega), dif_neg (by simp only [PartWord.offset]; omega),
    dif_pos ⟨Nat.le_add_right _ _, by omega⟩]
  exact congrArg (fun c => Place.partOwned (.senseImage c)) (Fin.ext hword)

theorem placeOf_mirror (i : SegNo) : placeOf (PartWord.offset (.mirror i)) = .partOwned (.mirror i) := by
  revert i
  decide

/-- The ring stands above every other word of the map. -/
theorem placeOf_ring (k : Fin 64) (j : Fin 4) : placeOf (PartWord.offset (.ring k j)) = .partOwned (.ring k j) := by
  have hk := k.isLt
  have hj := j.isLt
  have hslot : (PartWord.offset (.ring k j) - 0x1400) / 8 = k.val := by simp only [PartWord.offset]; omega
  have hword : (PartWord.offset (.ring k j) - 0x1400) % 8 / 2 = j.val := by simp only [PartWord.offset]; omega
  have hge : 0x1400 ≤ PartWord.offset (.ring k j) := by simp only [PartWord.offset]; omega
  generalize PartWord.offset (.ring k j) = off at hslot hword hge ⊢
  unfold placeOf
  have hne : ∀ c, c < 0x1400 → ¬off = c := fun c hc => by omega
  iterate 4 rw [dif_neg (by omega)]
  iterate 12 rw [if_neg (hne _ (by decide))]
  rw [dif_neg (by omega)]
  iterate 2 rw [if_neg (hne _ (by decide))]
  rw [dif_pos ⟨hge, by omega⟩]
  exact congrArg₂ (fun k j => Place.partOwned (.ring k j)) (Fin.ext hslot) (Fin.ext hword)

/-- The map takes the offset of each part-owned word to that word. -/
theorem placeOf_partWord (p : PartWord) : placeOf p.offset = .partOwned p := by
  cases p with
  | senseImage c => exact placeOf_senseImage c
  | mirror i => exact placeOf_mirror i
  | ring k j => exact placeOf_ring k j
  | _ => rfl

theorem placeOf_postable {off : Nat} (h : Postable off) : placeOf off ≠ .plain ∧ placeOf off ≠ .command := by
  rcases h with ⟨p, rfl⟩ | ⟨l, rfl⟩
  · rw [placeOf_partWord]
    exact ⟨nofun, nofun⟩
  · rw [placeOf_claim]
    exact ⟨nofun, nofun⟩

/-- An offset that no word of the map has is plain memory. -/
theorem placeOf_plain {off : Nat} (heven : off % 2 = 0) (hpart : ∀ p : PartWord, off ≠ p.offset)
    (hpage : ∀ word : Fin 480, off ≠ 2 * word.val ∧ off ≠ 0x0400 + 2 * word.val) (hclaim : ∀ l : LineNo, off ≠ 0x1240 + 2 * l.val)
    (hword : off ∉ [0x1200, 0x1202, 0x1212, 0x1214, 0x1216, 0x1282]) : placeOf off = .plain := by
  simp only [List.mem_cons, List.not_mem_nil, or_false, not_or] at hword
  obtain ⟨hcommand, hargument, henable, hset, hclear, hconsumer⟩ : ¬off = commandOffset ∧ ¬off = argumentOffset ∧
    ¬off = eventEnableOffset ∧ ¬off = eventSetOffset ∧ ¬off = eventClearOffset ∧ ¬off = ringConsumerOffset := hword
  have hnone : ∀ p : PartWord, ¬off = p.offset := hpart
  unfold placeOf
  rw [dif_neg fun h => (hpage ⟨off / 2, h⟩).1 (by simp only; omega),
    dif_neg fun h => (hpage ⟨(off - 0x0400) / 2, h.2⟩).2 (by have := h.1; simp only; omega),
    dif_neg fun h => hpart (.senseImage ⟨(off - 0x0800) / 2, h.2⟩) (by have := h.1; simp only [PartWord.offset]; omega),
    dif_neg fun h => hpart (.mirror ⟨(off - 0x1000) / 2, h.2⟩) (by have := h.1; simp only [PartWord.offset]; omega),
    if_neg hcommand, if_neg hargument, if_neg (hnone _), if_neg (hnone _), if_neg henable, if_neg hset, if_neg hclear,
    if_neg (hnone _), if_neg (hnone _), if_neg (hnone _), if_neg (hnone _), if_neg (hnone _),
    dif_neg fun h => hclaim ⟨(off - 0x1240) / 2, h.2⟩ (by have := h.1; simp only; omega), if_neg (hnone _), if_neg hconsumer,
    dif_neg fun h => hpart (.ring ⟨(off - 0x1400) / 8, h.2⟩ ⟨(off - 0x1400) % 8 / 2, by omega⟩)
      (by have := h.1; simp only [PartWord.offset]; omega)]

/-- A row of the map that gives another place than `x` is passed over. -/
theorem else_of_ite {c : Prop} [Decidable c] {a b x : Place} (h : (if c then a else b) = x) (ha : a ≠ x) : b = x := by
  split at h
  · exact absurd h ha
  · exact h

theorem else_of_dite {c : Prop} [Decidable c] {a : c → Place} {b x : Place}
    (h : (if hc : c then a hc else b) = x) (ha : ∀ hc, a hc ≠ x) : b = x := by
  split at h
  · exact absurd h (ha _)
  · exact h

/-- The one offset that the map calls the command word. -/
theorem placeOf_command {off : Nat} (h : placeOf off = .command) : off = commandOffset := by
  by_contra hne
  unfold placeOf at h
  iterate 4 replace h := else_of_dite h fun _ => by nofun
  rw [if_neg hne] at h
  iterate 11 replace h := else_of_ite h (by nofun)
  replace h := else_of_dite h fun _ => by nofun
  iterate 2 replace h := else_of_ite h (by nofun)
  exact Place.noConfusion (else_of_dite h fun _ => by nofun)

/-! ### Host writes by address -/

theorem exec_write (addr : BitVec 22) (w : HostWrite) (s : State) :
    exec (.hostWriteForwarded addr (.write w)) s = .next (hostWrite (hostAddr addr) w s) := rfl

/-- A write of plain memory meets no pending post. -/
theorem forwardAddr_plain {s : State} (hs : PostsLawful s) {a : Nat} (h : placeOfAddr s a = .plain) (w : HostWrite) :
    forwardAddr a w s = storeAt a w s := by
  unfold forwardAddr
  split
  · rename_i harea
    have ha : areaBase s + (a - areaBase s) = a := Nat.add_sub_cancel' harea.1
    rw [placeOfAddr, if_pos harea] at h
    rw [forwardArea_none (hs.hasPost_false fun hp => (placeOf_postable hp).1 h), storeArea_eq, ha]
  · rfl

/-- Where a write of the command word goes. -/
theorem command_addr {s : State} {a : Nat} (h : placeOfAddr s a = .command) : a = areaBase s + commandOffset := by
  unfold placeOfAddr at h
  split at h
  · rename_i harea
    rw [← placeOf_command h, Nat.add_sub_cancel' harea.1]
  · nomatch h

theorem forwardArea_command {s : State} (hs : PostsLawful s) (w : HostWrite) :
    forwardArea commandOffset w s = storeArea commandOffset w s :=
  forwardArea_none (hs.hasPost_false (not_postable_hostWord (.inl rfl))) w

/-- A write that enables the low byte of the command word takes the command of its code. -/
theorem commandWrite_toHost (code : Byte) (c : CommandWrite) (s : State) :
    commandWrite (c.toHost code) s = takeWrite code c (takeCode code) s := by
  have hcode : lowByte (c.toHost code).data = code := lowByte_wordOf _ _
  rw [commandWrite, hcode]
  rfl

/-- Settles O13: `placeOf` word by word, and `hostWrite` place by place. -/
theorem hostWriteByAddress : Obligations.HostWriteByAddress := by
  refine ⟨fun addr w s hs hplain => ?plain, fun s a => rfl, placeOf_partWord, fun buf word => ?page, placeOf_claim, rfl, rfl, rfl, rfl, rfl, rfl,
    fun off heven hpart hpage hclaim hword => placeOf_plain heven hpart hpage hclaim hword, fun addr w s => ?kinds,
    fun c s => ⟨rfl, rfl, rfl, rfl, rfl, rfl, rfl, rfl, rfl, rfl, rfl⟩⟩
  case plain =>
    have heq : hostWrite (hostAddr addr) w s = storeAt (hostAddr addr) w s := by
      rw [hostWrite, hplain]
      exact forwardAddr_plain hs.2.1 hplain w
    refine ⟨_, exec_write addr w s, ?_⟩
    rw [heq]
    exact ⟨rfl, rfl, storedOnly_of_mem hs.1 rfl⟩
  case page =>
    have hpage := placeOf_page buf word
    cases buf <;> exact hpage
  case kinds =>
    refine ⟨fun buf word h => ?_, fun p h => ?_, fun l h => ?_, fun h => ?_, fun h => ?_, fun h => ?_, fun h => ?_, fun h => ?_,
      fun code c h hw => ?_, fun hs h hlow => ⟨_, exec_write addr w s, ?_⟩⟩
    · rw [exec_write, hostWrite, h]; rfl
    · rw [exec_write, hostWrite, h]; rfl
    · rw [exec_write, hostWrite, h]; rfl
    · rw [exec_write, hostWrite, h]; rfl
    · rw [exec_write, hostWrite, h]; rfl
    · rw [exec_write, hostWrite, h]; rfl
    · rw [exec_write, hostWrite, h]; rfl
    · rw [exec_write, hostWrite, h]; rfl
    · rw [exec_write, hostWrite, h, hw]
      exact congrArg Host.Outcome.next (commandWrite_toHost code c s)
    · have heq : hostWrite (hostAddr addr) w s = storeArea commandOffset w s := by
        rw [hostWrite, h]
        change commandWrite w s = _
        rw [commandWrite, hlow, forwardArea_command hs.2.1]
        rfl
      rw [heq, command_addr h]
      exact ⟨onlyPort_storeArea .., rfl, storeArea_storedOnly hs.1 _ w⟩

end Sys2Proof.Machine

/-! ### Marks, sets of pins, targets and capture outcomes (R17, R25, R29, R31, R32, R67 to R72) -/

namespace Sys2Proof.Machine

theorem oneCell_getLsbD (k j : Fin 10) : (oneCell k).getLsbD j.val = decide (j = k) := by
  have hj := j.isLt
  simp only [oneCell, BitVec.getLsbD_shiftLeft, BitVec.getLsbD_one, Fin.ext_iff]
  by_cases h : j.val = k.val
  · simp [h]
  · by_cases hlt : j.val < k.val
    · simp [h, hlt]
    · have : j.val - k.val ≠ 0 := by omega
      simp [h, this]

/-- A mark set or cleared is its cell's alone (R29). -/
theorem putMark_getLsbD (m : CellSet) (k j : Fin 10) (bad : Bool) :
    (putMark m k bad).getLsbD j.val = if j = k then bad else m.getLsbD j.val := by
  have hj := j.isLt
  have hcell := oneCell_getLsbD k j
  cases bad <;> by_cases h : j = k <;> simp_all [putMark]

theorem maskOf_mark_self (r : Segment) (buf : Buffer) (k : Fin 10) (bad : Bool) :
    maskOf buf (r.mark buf k bad) = putMark (maskOf buf r) k bad := by cases buf <;> rfl

theorem maskOf_mark_other {buf other : Buffer} (h : other ≠ buf) (r : Segment) (k : Fin 10) (bad : Bool) :
    maskOf other (r.mark buf k bad) = maskOf other r :=
  match buf, other, h with
  | .a, .b, _ => rfl
  | .b, .a, _ => rfl
  | .a, .a, h => absurd rfl h
  | .b, .b, h => absurd rfl h

theorem maskOf_touchContent (buf : Buffer) (r : Segment) : maskOf buf r.touchContent = maskOf buf r := by
  rw [r.touchContent_marks]
  cases buf <;> rfl

theorem maskOf_cellWrite (other : Buffer) (r : Segment) (shown : Shown) (buf : Buffer) (k : Fin 10) (bad : Bool) :
    maskOf other (r.cellWrite shown buf k bad) = maskOf other (r.mark buf k bad) := by
  unfold Segment.cellWrite
  split
  · exact maskOf_touchContent other _
  · rfl

/-- What a content change makes of the dirty mark and the state (R32). -/
theorem touchContent_of_ne {r : Segment} (h : r.state ≠ .faulted) :
    r.touchContent = { r with dirty := true, state := if r.state = .clean then .stale else r.state } := if_neg h

theorem touchContent_faulted {r : Segment} (h : r.state = .faulted) : r.touchContent = r := if_pos h

/-- Settles O24: the mark, and then the content change of a write to the shown buffer. -/
theorem cellWriteOnRecord : Obligations.CellWriteOnRecord := by
  intro r shown buf k bad
  refine ⟨?_, fun j hj => ?_, fun other hother => ?_, ?_, fun hshown hstate => ?_, fun h => ?_⟩
  · rw [maskOf_cellWrite, maskOf_mark_self, putMark_getLsbD, if_pos rfl]
  · rw [maskOf_cellWrite, maskOf_mark_self, putMark_getLsbD, if_neg hj]
  · rw [maskOf_cellWrite, maskOf_mark_other hother]
  · unfold Segment.cellWrite
    simp only
    split
    · rw [Segment.touchContent_marks, Segment.mark_marks]
    · rw [Segment.mark_marks]
  · have hmark : (r.mark buf k bad).state = r.state := r.state_mark buf k bad
    rw [Segment.cellWrite, if_pos hshown, touchContent_of_ne (by rw [hmark]; exact hstate), hmark]
    exact ⟨rfl, rfl⟩
  · have hkept : (r.cellWrite shown buf k bad) = r.mark buf k bad := by
      unfold Segment.cellWrite
      simp only
      split
      · rename_i hshown
        exact touchContent_faulted ((r.state_mark buf k bad).trans (h.resolve_left fun hne => hne hshown))
      · rfl
    rw [hkept, Segment.mark_marks]
    exact ⟨rfl, rfl⟩

/-! ### Sets of pins -/

theorem onePin_getLsbD (p q : Pin) : (onePin p).getLsbD q.val = decide (q = p) := by
  have hq := q.isLt
  simp only [onePin, BitVec.getLsbD_shiftLeft, BitVec.getLsbD_one, Fin.ext_iff]
  by_cases h : q.val = p.val
  · simp [h]
  · by_cases hlt : q.val < p.val
    · simp [h, hlt]
    · have : q.val - p.val ≠ 0 := by omega
      simp [h, this]

/-- A fold of unions has a bit where one of its parts has it. -/
theorem getLsbD_foldl_or {α : Type} {w : Nat} (f : α → BitVec w) (l : List α) (m : BitVec w) (n : Nat) :
    (l.foldl (fun m x => m ||| f x) m).getLsbD n = (m.getLsbD n || l.any fun x => (f x).getLsbD n) := by
  induction l generalizing m with
  | nil => simp
  | cons x l ih => rw [List.foldl_cons, ih, BitVec.getLsbD_or, List.any_cons, Bool.or_assoc]

theorem getLsbD_foldl_orIf {α : Type} {w : Nat} (p : α → Bool) (f : α → BitVec w) (l : List α) (m : BitVec w) (n : Nat) :
    (l.foldl (fun m x => if p x then m ||| f x else m) m).getLsbD n =
      (m.getLsbD n || l.any fun x => p x && (f x).getLsbD n) := by
  induction l generalizing m with
  | nil => simp
  | cons x l ih =>
    rw [List.foldl_cons, ih, List.any_cons]
    cases p x <;> simp [Bool.or_assoc]

theorem pinSet_getLsbD (ps : List Pin) (q : Pin) : (pinSet ps).getLsbD q.val = decide (q ∈ ps) := by
  rw [pinSet, getLsbD_foldl_or]
  simp only [onePin_getLsbD, BitVec.ofNat_eq_ofNat, BitVec.getLsbD_zero, Bool.false_or]
  rw [Bool.eq_iff_iff, List.any_eq_true, decide_eq_true_iff]
  constructor
  · rintro ⟨p, hp, he⟩
    exact of_decide_eq_true he ▸ hp
  · exact fun h => ⟨q, h, decide_eq_true rfl⟩

/-- The pins of a fault list, as a set (R37). -/
theorem faultPins_getLsbD (r : Segment) (p : Pin) : (faultPins r).getLsbD p.val = r.faults.any fun f => f.pin == p := by
  rw [faultPins, pinSet_getLsbD, Bool.eq_iff_iff, decide_eq_true_iff, List.any_eq_true, List.mem_map]
  exact exists_congr fun f => and_congr_right fun _ => beq_iff_eq.symm

/-- What stands in the change set of a segment that has a target (R25). -/
theorem changeSet_getLsbD {r : Segment} {target : PinSet} (ht : r.target = some target) (hs : r.state ≠ .faulted) (p : Pin) :
    (changeSet r).getLsbD p.val =
      (!(r.faults.any fun f => f.pin == p) &&
        if target.getLsbD p.val then !r.shadow.up.getLsbD p.val else !r.shadow.down.getLsbD p.val) := by
  have hp := p.isLt
  rw [changeSet, ht]
  simp only [if_neg hs, differing, BitVec.getLsbD_and, BitVec.getLsbD_or, BitVec.getLsbD_not, hp, decide_true, Bool.true_and,
    faultPins_getLsbD]
  cases target.getLsbD p.val <;> simp [Bool.and_comm]

/-! ### The dot map (R17) -/

theorem oneDot_getLsbD {a b : Nat} (ha : 1 ≤ a) (hb : 1 ≤ b) (hb' : b ≤ 8) :
    (1#8 <<< (a - 1)).getLsbD (b - 1) = decide (a = b) := by
  simp only [BitVec.getLsbD_shiftLeft, BitVec.getLsbD_one]
  by_cases h : a = b
  · subst h
    simp
    omega
  · by_cases hlt : b - 1 < a - 1
    · simp [h, hlt]
    · have : b - 1 - (a - 1) ≠ 0 := by omega
      simp [h, this]

end Sys2Proof.Machine

/-! ### The descriptor's fields and the dot map (R17, R67, R167) -/

namespace Sys2Proof.Machine

/-- The first failing row of a list whose keys rise. -/
theorem find_failing {l : List (Nat × Bool)} (h : (l.map Prod.fst).Pairwise (· < ·)) (off : Nat) :
    (l.find? fun c => !c.2).map Prod.fst = some off ↔ (off, false) ∈ l ∧ ∀ k, k < off → (k, false) ∉ l := by
  induction l with
  | nil => simp
  | cons c l ih =>
    rw [List.map_cons, List.pairwise_cons] at h
    obtain ⟨hlt, hl⟩ := h
    have habove : ∀ k b, (k, b) ∈ l → c.1 < k := fun k b hk => hlt k (List.mem_map_of_mem hk)
    obtain ⟨key, ok⟩ := c
    cases ok with
    | false =>
      simp only [List.find?_cons, Bool.not_false, Option.map_some, Option.some.injEq, List.mem_cons]
      constructor
      · rintro rfl
        refine ⟨.inl rfl, fun k hk => ?_⟩
        rintro (he | he)
        · obtain ⟨rfl, -⟩ := Prod.mk.inj he
          exact Nat.lt_irrefl _ hk
        · exact Nat.lt_asymm hk (habove k false he)
      · rintro ⟨he | he, hmin⟩
        · exact (Prod.mk.inj he).1.symm
        · exact absurd (.inl rfl) (hmin key (habove off false he))
    | true =>
      simp only [List.find?_cons, Bool.not_true, List.mem_cons, Prod.mk.injEq, Bool.false_eq_true, and_false, false_or]
      exact ih hl

/-- The rows of the descriptor's checks stand in rising order of their offsets. -/
theorem descriptorChecks_sorted (d : Descriptor) : ((descriptorChecks d).map Prod.fst).Pairwise (· < ·) := by
  have hkeys : (descriptorChecks d).map Prod.fst = [0, 1, 2, 3, 4, 5, 6, 7, 8, 9, 10, 11, 12, 13, 14, 15, 16, 18, 20, 22, 24, 26, 28] := by
    rw [descriptorChecks, List.map_append, List.map_append, List.map_map]
    rfl
  rw [hkeys]
  decide

theorem byte_eq_one (b : Byte) : b = 1 ↔ b.toNat = 1 := by
  rw [← BitVec.toNat_inj]
  rfl

theorem field8_eq (d : Descriptor) (i : Fin 32) : field8 d i = (d[i.val]).toNat := rfl

theorem field16_eq (d : Descriptor) (i j : Fin 32) : field16 d i j = (d[i.val]).toNat + 256 * (d[j.val]).toNat := rfl

/-- A byte of the dot map fails out of its range or as a repetition. -/
theorem dotPasses_iff (d : Descriptor) (i : Fin 8) :
    dotPasses d i = true ↔ 1 ≤ (d[2 + i.val]).toNat ∧ (d[2 + i.val]).toNat ≤ 8 ∧ ∀ k : Fin 8, k < i → d[2 + k.val] ≠ d[2 + i.val] := by
  have hbefore : (dotsBefore d i).contains (dotOfBit d i) = true ↔ ∃ k : Fin 8, k < i ∧ d[2 + k.val] = d[2 + i.val] := by
    simp only [dotsBefore, List.contains_iff_mem, List.mem_map, List.mem_filter, List.mem_finRange, true_and, decide_eq_true_eq]
    exact exists_congr fun k => and_congr Iff.rfl (BitVec.toNat_inj (x := d[2 + k.val]) (y := d[2 + i.val]))
  rw [dotPasses, Bool.and_eq_true, Bool.and_eq_true, decide_eq_true_iff, decide_eq_true_iff, Bool.not_eq_true',
    ← Bool.not_eq_true, hbefore, and_assoc]
  refine and_congr Iff.rfl (and_congr Iff.rfl ?_)
  simp only [not_exists, not_and]

theorem within_iff (n lo hi : Nat) : within n lo hi = true ↔ lo ≤ n ∧ n ≤ hi := by simp [within]

theorem within_false_iff (n lo hi : Nat) : within n lo hi = false ↔ n < lo ∨ hi < n := by
  rw [← Bool.not_eq_true, within_iff]
  omega

theorem dotPasses_false_iff (d : Descriptor) (i : Fin 8) :
    dotPasses d i = false ↔ (d[2 + i.val]).toNat < 1 ∨ 8 < (d[2 + i.val]).toNat ∨ ∃ k : Fin 8, k < i ∧ d[2 + k.val] = d[2 + i.val] := by
  rw [← Bool.not_eq_true, dotPasses_iff]
  simp only [not_and_or, not_le, not_forall, ne_eq, not_not, exists_prop]

/-- A byte is judged by its number. -/
theorem byte_eq_iff (b : Byte) (n : Nat) (hn : n < 256) : b.toNat = n ↔ b = BitVec.ofNat 8 n := by
  rw [← BitVec.toNat_inj, BitVec.toNat_ofNat, Nat.mod_eq_of_lt hn]

theorem format_iff (d : Descriptor) : field8 d 0 = 1 ↔ d[0] = 1 := byte_eq_iff _ 1 (by decide)

theorem mode_iff (d : Descriptor) : (cellMode d = 6 ↔ d[1] = 6) ∧ (cellMode d = 8 ↔ d[1] = 8) :=
  ⟨byte_eq_iff _ 6 (by decide), byte_eq_iff _ 8 (by decide)⟩

/-- A field fails exactly where its row of the checks says so (R167). -/
theorem fieldFails_iff (d : Descriptor) (off : Nat) : FieldFails d off ↔ (off, false) ∈ descriptorChecks d := by
  simp only [FieldFails, descriptorChecks, List.mem_append, List.mem_cons, List.mem_map, List.mem_finRange, true_and, Prod.mk.injEq,
    List.not_mem_nil, or_false, eq_comm (a := false), Bool.or_eq_false_iff, Bool.and_eq_false_iff, within_false_iff,
    dotPasses_false_iff, beq_eq_false_iff_ne, decide_eq_false_iff_not, not_lt, Nat.not_lt_zero, false_or, eq_comm (b := off),
    ne_eq, format_iff, mode_iff, or_assoc]
  exact Iff.rfl

/-- Every row passes exactly when every field has an accepted value. -/
theorem firstBadOffset_none_iff (d : Descriptor) : firstBadOffset d = none ↔ ∀ c ∈ descriptorChecks d, c.2 = true := by
  rw [firstBadOffset, Option.map_eq_none_iff, List.find?_eq_none]
  simp

theorem firstBadOffset_some_iff (d : Descriptor) (off : Nat) :
    firstBadOffset d = some off ↔ FieldFails d off ∧ ∀ k, k < off → ¬FieldFails d k := by
  rw [firstBadOffset, find_failing (descriptorChecks_sorted d) off]
  simp only [fieldFails_iff]

theorem fieldFails_le {d : Descriptor} {off : Nat} (h : FieldFails d off) : off ≤ 31 := by
  unfold FieldFails at h
  rcases h with h | h | ⟨i, h, -⟩ | h | h | h | h | h | h | h | h | h | h | h | h | h <;> omega

/-- The accepted DOWN thresholds are below the accepted UP thresholds as they stand. -/
theorem thresholds_apart {up down : Nat} {p : Prop} :
    (512 ≤ up ∧ up ≤ 1000 ∧ 16 ≤ down ∧ down ≤ 480 ∧ down < up ∧ p) ↔ 512 ≤ up ∧ up ≤ 1000 ∧ 16 ≤ down ∧ down ≤ 480 ∧ p :=
  ⟨fun ⟨hup, hup', hdown, hdown', _, hp⟩ => ⟨hup, hup', hdown, hdown', hp⟩,
    fun ⟨hup, hup', hdown, hdown', hp⟩ => ⟨hup, hup', hdown, hdown', by omega, hp⟩⟩

/-- Settles O36: the rows of the checks are the fields in rising order, and the offset is the first failing row's. -/
theorem descriptorValues : Obligations.DescriptorValues := by
  refine ⟨fun d => ?_, fun d off => ⟨firstBadOffset_some_iff d off, fieldFails_le⟩⟩
  rw [firstBadOffset_none_iff]
  simp only [descriptorChecks, List.forall_mem_append, List.forall_mem_cons, List.forall_mem_map, List.mem_finRange, forall_const,
    List.not_mem_nil, IsEmpty.forall_iff, Bool.or_eq_true, Bool.and_eq_true, beq_iff_eq, within_iff, dotPasses_iff, decide_eq_true_eq,
    format_iff, mode_iff, and_assoc, Nat.zero_le, true_and, and_true, thresholds_apart]
  exact Iff.rfl

/-! ### Targets under the dot map (R17, R67) -/

/-- In an accepted descriptor the dot map gives each bit a dot of its own, from 1 to 8. -/
theorem dots_of_accepted {d : Descriptor} (h : firstBadOffset d = none) :
    (∀ i : Fin 8, 1 ≤ dotOfBit d i ∧ dotOfBit d i ≤ 8) ∧ ∀ i k : Fin 8, dotOfBit d i = dotOfBit d k → i = k := by
  have hdots := ((descriptorValues.1 d).1 h).2.2.1
  refine ⟨fun i => ⟨(hdots i).1, (hdots i).2.1⟩, fun i k he => ?_⟩
  have hbyte : d[2 + i.val] = d[2 + k.val] := BitVec.toNat_inj.1 he
  by_contra hne
  rcases lt_or_gt_of_ne hne with hlt | hlt
  · exact (hdots k).2.2 i hlt hbyte
  · exact (hdots i).2.2 k hlt hbyte.symm

theorem cellTarget_getLsbD {d : Descriptor} (h : firstBadOffset d = none) (b : Byte) (i : Fin 8) :
    (cellTarget d b).getLsbD (dotOfBit d i - 1) = (b.getLsbD i.val && !(cellMode d == 6 && decide (7 ≤ dotOfBit d i))) := by
  obtain ⟨hrange, hinj⟩ := dots_of_accepted h
  rw [cellTarget, getLsbD_foldl_orIf, BitVec.ofNat_eq_ofNat, BitVec.getLsbD_zero, Bool.false_or, Bool.eq_iff_iff, List.any_eq_true]
  constructor
  · rintro ⟨k, -, hk⟩
    rw [Bool.and_eq_true, oneDot_getLsbD (hrange k).1 (hrange i).1 (hrange i).2, decide_eq_true_iff] at hk
    exact hinj k i hk.2 ▸ hk.1
  · intro hi
    refine ⟨i, List.mem_finRange i, ?_⟩
    rw [Bool.and_eq_true, oneDot_getLsbD (hrange i).1 (hrange i).1 (hrange i).2]
    exact ⟨hi, decide_eq_true rfl⟩

/-- A bit of the byte of one cell, seen in the target of its segment. -/
theorem cellPart_getLsbD (m : Byte) (k k' : Fin 10) {b : Nat} (hb : b < 8) :
    ((m.setWidth 80) <<< (8 * k.val)).getLsbD (8 * k'.val + b) = (decide (k = k') && m.getLsbD b) := by
  have hk' := k'.isLt
  rw [BitVec.getLsbD_shiftLeft, BitVec.getLsbD_setWidth]
  rcases lt_trichotomy k.val k'.val with hlt | heq | hlt
  · have hout : m.getLsbD (8 * k'.val + b - 8 * k.val) = false := BitVec.getLsbD_of_ge _ _ (by omega)
    simp [hout, Fin.ext_iff, hlt.ne]
  · have hbit : 8 * k'.val + b - 8 * k.val = b := by omega
    have hge : ¬8 * k'.val + b < 8 * k.val := by omega
    have hlt : 8 * k'.val + b < 80 := by omega
    rw [hbit]
    simp [Fin.ext_iff, heq, hlt]
    omega
  · have hbelow : 8 * k'.val + b < 8 * k.val := by omega
    simp [hbelow, Fin.ext_iff, hlt.ne']

theorem targetOf_getLsbD (d : Descriptor) (cells : List Byte) (k : Fin 10) {b : Nat} (hb : b < 8) :
    (targetOf d cells).getLsbD (8 * k.val + b) = (cellTarget d (cells.getD k.val 0)).getLsbD b := by
  rw [targetOf, getLsbD_foldl_or, BitVec.ofNat_eq_ofNat, BitVec.getLsbD_zero, Bool.false_or, Bool.eq_iff_iff, List.any_eq_true]
  constructor
  · rintro ⟨k', -, hk⟩
    rw [cellPart_getLsbD _ _ _ hb, Bool.and_eq_true, decide_eq_true_iff] at hk
    exact hk.1 ▸ hk.2
  · intro hk
    refine ⟨k, List.mem_finRange k, ?_⟩
    rw [cellPart_getLsbD _ _ _ hb, Bool.and_eq_true]
    exact ⟨decide_eq_true rfl, hk⟩

/-- The change set of a segment that has nothing to compare (R25). -/
theorem changeSet_none {r : Segment} (h : r.target = none ∨ r.state = .faulted) : changeSet r = 0 := by
  unfold changeSet
  split
  · rename_i target ht
    exact if_pos (h.resolve_left fun hn => by rw [hn] at ht; nomatch ht)
  · rfl

theorem mode_eq_six (d : Descriptor) : (cellMode d == 6) = (d[1] == 6) := by
  rw [Bool.eq_iff_iff, beq_iff_eq, beq_iff_eq]
  exact (mode_iff d).1

/-- Settles O39: the target cell by cell and bit by bit, and the change set pin by pin. -/
theorem targetAndChangeSet : Obligations.TargetAndChangeSet := by
  refine ⟨fun d cells k i h => ?dots, fun r target p ht hs => ⟨?change, ?raise, ?lower⟩, fun r h => ?none⟩
  case dots =>
    have hdot := (dots_of_accepted h).1 i
    have hlt : dotOfBit d i - 1 < 8 := by omega
    rw [← mode_eq_six]
    exact (targetOf_getLsbD d cells k hlt).trans (cellTarget_getLsbD h _ i)
  case change =>
    rw [changeSet_getLsbD ht hs, Bool.and_eq_true, Bool.not_eq_true', List.any_eq_false]
    refine and_congr (forall₂_congr fun f _ => ?_) ?_
    · rw [beq_iff_eq]
    · cases target.getLsbD p.val <;> simp
  case raise => rw [raiseSet, ht, Option.getD_some, BitVec.getLsbD_and]
  case lower =>
    have hp := p.isLt
    rw [lowerSet, ht, Option.getD_some, BitVec.getLsbD_and, BitVec.getLsbD_not]
    simp
  case none =>
    have hzero := changeSet_none h
    refine ⟨hzero, ?_, ?_⟩
    · rw [raiseSet, hzero]
      exact BitVec.zero_and
    · rw [lowerSet, hzero]
      exact BitVec.zero_and

/-- Settles O42: the outcomes are the branches of `captureOutcome`, in their order. -/
theorem captureOutcomes : Obligations.CaptureOutcomes := by
  intro a c d r
  refine ⟨fun hbad => ?_, fun hgood hdirty => ?_, fun hgood hclean hzero => ?_, fun hgood hclean hchange => ?_⟩
  · rw [captureOutcome, if_pos hbad]
  · rw [captureOutcome, if_neg (by rw [hgood]; exact Bool.noConfusion)]
    exact if_pos hdirty
  · rw [captureOutcome, if_neg (by rw [hgood]; exact Bool.noConfusion)]
    refine (if_neg ?_).trans (if_pos hzero)
    change ¬r.dirty = true
    rw [hclean]
    exact Bool.noConfusion
  · rw [captureOutcome, if_neg (by rw [hgood]; exact Bool.noConfusion)]
    refine (if_neg ?_).trans (if_neg hchange)
    change ¬r.dirty = true
    rw [hclean]
    exact Bool.noConfusion

end Sys2Proof.Machine

/-! ### The end of an event: its last posts and what it leaves (R42, R161, R164, R183, R187) -/

namespace Sys2Proof.Machine

/-! #### The last posts -/

theorem endsWith_nil (s : State) : EndsWith s [] := ⟨s.bus.posts, (List.append_nil _).symm⟩

theorem EndsWith.congr {s t : State} {ps : List Post} (h : EndsWith s ps) (ht : t.bus.posts = s.bus.posts) : EndsWith t ps := by
  obtain ⟨qs, hqs⟩ := h
  exact ⟨qs, ht.trans hqs⟩

/-- A post of another word follows the last posts. -/
theorem EndsWith.post {s : State} {ps : List Post} (h : EndsWith s ps) {off : Nat} (hoff : ∀ p ∈ ps, p.offset ≠ off) (v : Word) :
    EndsWith (post off v s) (ps ++ [⟨off, v⟩]) := by
  obtain ⟨qs, hqs⟩ := h
  refine ⟨qs.filter fun q => q.offset != off, ?_⟩
  have hkept : (ps.filter fun q => q.offset != off) = ps :=
    List.filter_eq_self.2 fun p hp => by simpa using hoff p hp
  change (s.bus.posts.filter fun q => q.offset != off) ++ [_] = _
  rw [hqs, List.filter_append, hkept, List.append_assoc]

theorem EndsWith.postAll {s : State} {ps : List Post} (h : EndsWith s ps) {qs : List (Nat × Word)}
    (hn : (ps.map Post.offset ++ qs.map Prod.fst).Nodup) :
    EndsWith (postAll qs s) (ps ++ qs.map fun q => ⟨q.1, q.2⟩) := by
  induction qs generalizing s ps with
  | nil => rwa [List.map_nil, List.append_nil]
  | cons q qs ih =>
    have hnew : ∀ p ∈ ps, p.offset ≠ q.1 := fun p hp he =>
      (List.nodup_append.1 hn).2.2 _ (List.mem_map_of_mem hp) _ List.mem_cons_self he
    have := ih (h.post hnew q.2) (by simpa using hn)
    rwa [List.append_assoc] at this

/-- A tail of the last posts. -/
theorem EndsWith.tail {s : State} {ps qs : List Post} (h : EndsWith s (ps ++ qs)) : EndsWith s qs := by
  obtain ⟨rs, hrs⟩ := h
  exact ⟨rs ++ ps, by rw [hrs, List.append_assoc]⟩

theorem EndsWith.posted {s : State} {ps : List Post} (h : EndsWith s ps) {off : Nat} {v : Word} (hp : (⟨off, v⟩ : Post) ∈ ps) :
    Posted s off v := by
  obtain ⟨qs, hqs⟩ := h
  rw [Posted, hqs]
  exact List.mem_append_right qs hp

/-! #### The posts that end an event -/

/-- The engine status word's post, if one of its fields has changed. -/
def statusPosts (b s : State) : List Post := if statusFields b = statusFields s then [] else [statusPost s]

/-- The result word's posts that are owed. -/
def resultPosts (s : State) : List Post := s.owed.results.map fun v => ⟨PartWord.offset .result, v⟩

/-- The event pending word's post, if it is owed. -/
def pendingPosts (s : State) : List Post := if s.owed.pending then [pendingPost s] else []

theorem statusWord_of_shape {s t : State} (h : t.shape = s.shape) : statusWord t = statusWord s := by
  have hengine : t.engine = s.engine := congrArg Shape.engine h
  have hgate : t.gate = s.gate := congrArg Shape.gate h
  have hasm : t.asm = s.asm := congrArg Shape.asm h
  have hstroke : t.stroke = s.stroke := congrArg Shape.stroke h
  have hqueue : t.queue = s.queue := congrArg Shape.queue h
  rw [statusWord, statusWord, hengine, hgate, hasm, hstroke, hqueue]

theorem statusWord_of_firm {s t : State} (h : t.firm = s.firm) : statusWord t = statusWord s := by
  have hengine : t.engine.state = s.engine.state := congrArg Firm.engineState h
  have hgate : t.gate = s.gate := congrArg Firm.gate h
  have hasm : t.asm = s.asm := congrArg Firm.asm h
  have hstroke : t.stroke = s.stroke := congrArg Firm.stroke h
  have hqueue : t.queue = s.queue := congrArg Firm.queue h
  rw [statusWord, statusWord, hengine, hgate, hasm, hstroke, hqueue]

theorem statusFields_of_firm {s t : State} (h : t.firm = s.firm) : statusFields t = statusFields s := by
  have hengine : t.engine.state = s.engine.state := congrArg Firm.engineState h
  have hgate : t.gate = s.gate := congrArg Firm.gate h
  have hasm : t.asm = s.asm := congrArg Firm.asm h
  have hstroke : t.stroke = s.stroke := congrArg Firm.stroke h
  have hqueue : t.queue = s.queue := congrArg Firm.queue h
  rw [statusFields, statusFields, hengine, hgate, hasm, hstroke, hqueue]

theorem endsWith_postStatusIf (b s : State) : EndsWith (postStatusIf b s) (statusPosts b s) := by
  unfold postStatusIf statusPosts
  split
  · exact endsWith_nil s
  · exact (endsWith_nil s).post (fun p hp => (nomatch hp)) _

theorem statusPosts_offset {b s : State} {p : Post} (h : p ∈ statusPosts b s) : p.offset = PartWord.offset .engineStatus := by
  unfold statusPosts at h
  split at h
  · nomatch h
  · rw [List.mem_singleton.1 h, statusPost]

theorem endsWith_postResults {s : State} {ps : List Post} (h : EndsWith s ps) (hps : ∀ p ∈ ps, p.offset ≠ PartWord.offset .result)
    (hr : s.owed.results.length ≤ 1) : EndsWith (postResults s) (ps ++ resultPosts s) := by
  unfold postResults resultPosts
  match hres : s.owed.results, hr with
  | [], _ => rwa [List.map_nil, List.append_nil]
  | [v], _ => exact (h.post hps v)

theorem resultPosts_offset {s : State} {p : Post} (h : p ∈ resultPosts s) : p.offset = PartWord.offset .result := by
  obtain ⟨v, -, rfl⟩ := List.mem_map.1 h
  rfl

theorem endsWith_pending {s : State} {ps : List Post} (h : EndsWith s ps) (hps : ∀ p ∈ ps, p.offset ≠ PartWord.offset .eventPending) :
    EndsWith (postPending s) (ps ++ pendingPosts s) := by
  unfold postPending pendingPosts
  split
  · exact h.post hps _
  · rwa [List.append_nil]

/-- The last posts of an event (R161, R164, R187; log 10). -/
theorem endsWith_closePosts {b s : State} (hr : s.owed.results.length ≤ 1) :
    EndsWith (closePosts b s) (statusPosts b s ++ resultPosts s ++ pendingPosts s) := by
  have hmirrors := postMirrors_shape (mirrorsToPost b s) s
  have howed := postMirrors_owed (mirrorsToPost b s) s
  have hstatus := endsWith_postStatusIf b (postMirrors (mirrorsToPost b s) s)
  have hfields : statusPosts b (postMirrors (mirrorsToPost b s) s) = statusPosts b s := by
    have hengine := congrArg Shape.engine hmirrors
    unfold statusPosts statusPost
    rw [statusFields_of_firm (firm_of_shape hmirrors), statusWord_of_shape hmirrors]
  rw [hfields] at hstatus
  have hresOwed : (postStatusIf b (postMirrors (mirrorsToPost b s) s)).owed = ⟨[], s.owed.results, s.owed.pending⟩ := by
    rw [postStatusIf_owed, howed]
  have hresults := endsWith_postResults hstatus (fun p hp => by rw [statusPosts_offset hp]; decide) (by rw [hresOwed]; exact hr)
  have hres : resultPosts (postStatusIf b (postMirrors (mirrorsToPost b s) s)) = resultPosts s := by
    rw [resultPosts, hresOwed, resultPosts]
  rw [hres] at hresults
  have hpending := endsWith_pending hresults fun p hp => by
    rcases List.mem_append.1 hp with h | h
    · rw [statusPosts_offset h]; decide
    · rw [resultPosts_offset h]; decide
  have hpend : pendingPosts (postResults (postStatusIf b (postMirrors (mirrorsToPost b s) s))) = pendingPosts s := by
    unfold pendingPosts pendingPost pendingWord
    rw [postResults_owed, hresOwed, postResults_events, postStatusIf_events, postMirrors_events]
  rwa [hpend] at hpending

/-- What the last posts say of the state after the event. -/
theorem statusPost_closePosts (b s : State) : statusPost (closePosts b s) = statusPost s := by
  rw [statusPost, statusPost, statusWord_of_shape (closePosts_shape b s)]

theorem pendingPost_closePosts (b s : State) : pendingPost (closePosts b s) = pendingPost s := by
  rw [pendingPost, pendingPost, pendingWord, pendingWord, closePosts_events]

/-! #### What an event's end leaves -/

/-- Only the post list and what is owed change in the posts of an event. -/
theorem closePosts_eq (b s : State) :
    closePosts b s = { s with bus := { s.bus with posts := (closePosts b s).bus.posts }, owed := Owed.nothing } := by
  have hshape := closePosts_shape b s
  have hevents := closePosts_events b s
  have howed := closePosts_owed b s
  generalize closePosts b s = t at hshape hevents howed ⊢
  rcases s with ⟨_, _, ⟨_, _, _, _, _, _⟩, _, _, _, _, _, _, _, _, _, ⟨_, _, _⟩, _, _, _⟩
  rcases t with ⟨_, _, ⟨_, _, _, _, _, _⟩, _, _, _, _, _, _, _, _, _, ⟨_, _, _⟩, _, _, _⟩
  simp_all [State.shape]

/-- The state of an event's end, from the state it closes with nothing owed. -/
theorem closePosts_frame {b u v : State} (h : { u with owed := Owed.nothing } = v) :
    closePosts b u = { v with bus := { v.bus with posts := (closePosts b u).bus.posts } } := by
  have heq := closePosts_eq b u
  generalize closePosts b u = t at heq ⊢
  rw [← h]
  exact heq

/-- An event that leaves the page settled or unsettled as it was, in the same engine state, ends with its posts alone. -/
theorem closeEvent_of_same {b s : State} (hset : settled s = settled b) (hst : s.engine.state = b.engine.state) :
    closeEvent b s = closePosts b s := by
  rw [closeEvent, judgeSettled_of_same hset hst]

theorem closePosts_self {s : State} (h : OwesNothing s) : closePosts s s = s := by
  have hm : ∀ i, mirrorChanged s s i = false := fun i => by simp [mirrorChanged]
  rw [closePosts_of_same hm (owes_mirrors h) rfl]
  have hr : postResults s = s := by
    have howed : ({ s.owed with results := [] } : Owed) = s.owed := by rw [show s.owed = Owed.nothing from h]; rfl
    rw [postResults, owes_results h, List.foldl_nil]
    exact congrArg (fun o => { s with owed := o }) howed
  rw [hr, postPending_of_owesNothing h]

/-- An event that changes nothing ends with nothing. -/
theorem closeEvent_self {s : State} (h : OwesNothing s) : closeEvent s s = s := by
  rw [closeEvent_of_same rfl rfl, closePosts_self h]

end Sys2Proof.Machine

/-! ### Timers, the gate, the Chime and events without a cause (R89 to R91, R101 to R103, R191, R196) -/

namespace Sys2Proof.Machine

theorem isPending_closePosts (b s : State) (e : Event) : isPending (closePosts b s) e = isPending s e :=
  isPending_congr (congrArg EventUnit.pending (closePosts_events b s)) e

/-- The end of an event that posts the engine status word alone. -/
theorem endsWith_status {b s : State} (hf : statusFields b ≠ statusFields s) (hr : s.owed.results = [])
    (hp : s.owed.pending = false) : EndsWith (closePosts b s) [statusPost (closePosts b s)] := by
  have h := endsWith_closePosts (b := b) (s := s) (by rw [hr]; exact Nat.zero_le 1)
  rw [statusPosts, if_neg hf, resultPosts, hr, pendingPosts, hp] at h
  rw [statusPost_closePosts]
  exact h

/-- The end of an event that posts the status word and then the event pending word. -/
theorem endsWith_statusPending {b s : State} (hf : statusFields b ≠ statusFields s) (hr : s.owed.results = [])
    (hp : s.owed.pending = true) :
    EndsWith (closePosts b s) [statusPost (closePosts b s), pendingPost (closePosts b s)] := by
  have h := endsWith_closePosts (b := b) (s := s) (by rw [hr]; exact Nat.zero_le 1)
  rw [statusPosts, if_neg hf, resultPosts, hr, pendingPosts, hp] at h
  rw [statusPost_closePosts, pendingPost_closePosts]
  exact h

/-- The end of an event that owes the event pending word. -/
theorem endsWith_pendingLast {b s : State} (hr : s.owed.results = []) (hp : s.owed.pending = true) :
    EndsWith (closePosts b s) [pendingPost (closePosts b s)] := by
  have h := endsWith_closePosts (b := b) (s := s) (by rw [hr]; exact Nat.zero_le 1)
  rw [pendingPosts, hp] at h
  rw [pendingPost_closePosts]
  exact h.tail

/-- The end of an event that changes a status field and gives a result. -/
theorem endsWith_statusResult {b s : State} {code : Byte} {r : ResultCode} (hf : statusFields b ≠ statusFields s)
    (hr : s.owed.results = [resultWord code r]) (hp : s.owed.pending = true) :
    EndsWith (closePosts b s) [statusPost (closePosts b s), resultPost code r, pendingPost (closePosts b s)] := by
  have h := endsWith_closePosts (b := b) (s := s) (by rw [hr]; exact Nat.le_refl 1)
  rw [statusPosts, if_neg hf, resultPosts, hr, pendingPosts, hp] at h
  rw [statusPost_closePosts, pendingPost_closePosts]
  exact h

/-- What an event's posts leave, where nothing was owed when it began. -/
theorem closePosts_owes {s : State} (h : OwesNothing s) (b u : State) :
    closePosts b u = { u with bus := { u.bus with posts := (closePosts b u).bus.posts }, owed := s.owed } := by
  rw [show s.owed = Owed.nothing from h]
  exact closePosts_eq b u

/-- An event that changes no mirror word and no status field, and owes nothing, has no posts. -/
theorem closeEvent_quiet {b s : State} (howes : OwesNothing s) (hset : settled s = settled b)
    (hst : s.engine.state = b.engine.state) (hm : ∀ i, mirrorChanged b s i = false) (hf : statusFields b = statusFields s) :
    closeEvent b s = s := by
  rw [closeEvent_of_same hset hst]
  have hsame := closePosts_of_same hm (owes_mirrors howes) hf
  have hself := closePosts_of_same (b := s) (fun i => by simp [mirrorChanged]) (owes_mirrors howes) rfl
  rw [hsame, ← hself, closePosts_self howes]

theorem mirrorChanged_of_same {b s : State} (hsegs : s.segs = b.segs) (hshown : s.engine.shown = b.engine.shown) (i : SegNo) :
    mirrorChanged b s i = false := by
  rw [mirrorChanged, hshown, State.seg, State.seg, hsegs]
  simp

/-! #### The supply gate below OPEN (R101 to R103) -/

theorem supplyRises_closed {s : State} (h : s.gate.state = .closed) :
    supplyRises s = setGate ⟨.rearming, .running 0 50⟩ (setSupply true s) := by
  have hg : (setSupply true s).gate.state = .closed := h
  rw [supplyRises, hg]
  rfl

theorem supplyRises_other {s : State} (h : s.gate.state ≠ .closed) : supplyRises s = setSupply true s := by
  unfold supplyRises
  simp only
  split
  · rename_i hg
    exact absurd hg h
  · rfl
  · rfl

theorem supplyFalls_closed {s : State} (h : s.gate.state = .closed) : supplyFalls s = setSupply false s := by
  have hg : (setSupply false s).gate.state = .closed := h
  rw [supplyFalls, hg]

theorem supplyFalls_rearming {s : State} (h : s.gate.state = .rearming) :
    supplyFalls s = raise .supplyLost (setGate ⟨.closed, .idle⟩ (setSupply false s)) := by
  have hg : (setSupply false s).gate.state = .rearming := h
  rw [supplyFalls, hg]

/-- A move of SUPPLY_OK that the gate does not follow changes the pin alone. -/
theorem closeEvent_setSupply {s : State} (howes : OwesNothing s) (high : Bool) :
    closeEvent s (setSupply high s) = setSupply high s :=
  closeEvent_quiet howes rfl rfl (mirrorChanged_of_same rfl rfl) rfl

theorem rechargeLength_eq (d : Descriptor) : rechargeLength d = if d[0] = 1 then d[14].toNat else 100 := by
  rw [rechargeLength, holdsAccepted]
  refine ite_congr ?_ (fun _ => rfl) fun _ => rfl
  rw [beq_iff_eq, format_iff]

theorem rearmExpires_taken {s : State} (h : s.gate.state = .rearming) (hr : s.gate.rearm.runs = true) :
    rearmExpires s = setStroke { s.stroke with chargeReady := false, recharge := .running 0 (rechargeLength s.engine.copy) }
      (raise .supplyBack (setGate ⟨.opened, .idle⟩ s)) := by
  rw [rearmExpires, if_pos ⟨h, hr⟩]
  rfl

/-- A gate that changes its state changes a status field. -/
theorem statusFields_gate {b s : State} (h : b.gate.state ≠ s.gate.state) : statusFields b ≠ statusFields s := by
  intro he
  have hcode : b.gate.state.code = s.gate.state.code := by
    simp only [statusFields, List.cons.injEq] at he
    exact he.2.1
  refine h ?_
  revert hcode
  generalize b.gate.state = x
  generalize s.gate.state = y
  cases x <;> cases y <;> simp [GateState.code]

/-- Settles O53: the gate's changes, and the words that their events post. -/
theorem supplyGateTaken : Obligations.SupplyGateTaken := by
  refine ⟨fun s hs h => ?rise, fun s hs h => ?riseOther, fun s hs h => ?fallClosed, fun s hs h => ?fall, fun s hs h hr => ?rearm⟩
  case rise =>
    have hexec : exec .supplyOkRise s = .next (closePosts s (setGate ⟨.rearming, .running 0 50⟩ (setSupply true s))) := by
      refine congrArg Host.Outcome.next ?_
      rw [supplyRises_closed h]
      exact closeEvent_of_same rfl rfl
    refine ⟨_, hexec, endsWith_status (statusFields_gate ?_) (owes_results (s := s) hs.2.2) (owes_pending (s := s) hs.2.2), closePosts_owes hs.2.2 ..⟩
    rw [h]
    exact nofun
  case riseOther =>
    refine congrArg Host.Outcome.next ?_
    rw [supplyRises_other h, closeEvent_setSupply hs.2.2]
    rfl
  case fallClosed =>
    refine congrArg Host.Outcome.next ?_
    rw [supplyFalls_closed h, closeEvent_setSupply hs.2.2]
    rfl
  case fall =>
    have hexec : exec .supplyOkFall s =
        .next (closePosts s (raise .supplyLost (setGate ⟨.closed, .idle⟩ (setSupply false s)))) := by
      refine congrArg Host.Outcome.next ?_
      rw [supplyFalls_rearming h]
      exact closeEvent_of_same rfl rfl
    refine ⟨_, hexec, endsWith_statusPending (statusFields_gate ?_) (owes_results (s := s) hs.2.2) rfl, ?_, fun e he => ?_, ?_⟩
    · rw [h]
      exact nofun
    · rw [isPending_closePosts, isPending_raise]
      rfl
    · rw [isPending_closePosts, isPending_raise, beq_eq_false_iff_ne.2 he, Bool.false_or]
      rfl
    · rw [closePosts_events]
      exact closePosts_owes hs.2.2 ..
  case rearm =>
    have hexec : exec .rearmTimerExpiry s = .next (closePosts s (setStroke
        { s.stroke with chargeReady := false, recharge := .running 0 (rechargeLength s.engine.copy) }
        (raise .supplyBack (setGate ⟨.opened, .idle⟩ s)))) := by
      refine congrArg Host.Outcome.next ?_
      rw [rearmExpires_taken h hr]
      exact closeEvent_of_same rfl rfl
    refine ⟨_, hexec, endsWith_statusPending (statusFields_gate ?_) (owes_results (s := s) hs.2.2) rfl, ?_, fun e he => ?_, ?_⟩
    · rw [h]
      exact nofun
    · rw [isPending_closePosts]
      exact isPending_raise .supplyBack .supplyBack _
    · rw [isPending_closePosts]
      refine (isPending_raise .supplyBack e _).trans ?_
      rw [beq_eq_false_iff_ne.2 he, Bool.false_or]
      rfl
    · rw [closePosts_events, ← rechargeLength_eq]
      exact closePosts_owes hs.2.2 ..

end Sys2Proof.Machine

/-! ### The stroke timers (R89, R90, R114) -/

namespace Sys2Proof.Machine

/-- What a rule that leaves the port, the gate, the touch unit, the claims, the engine, the events and the Chime alone can change. -/
theorem eq_of_still {s t : State} (h : t.still = s.still) : t = { s with
    segs := t.segs, queue := t.queue, asm := t.asm, stroke := t.stroke, conv := t.conv
    owed := { s.owed with mirrors := t.owed.mirrors } } := by
  rcases s with ⟨_, _, _, _, _, _, _, _, _, _, _, _, _, _, ⟨_, _, _⟩, _⟩
  rcases t with ⟨_, _, _, _, _, _, _, _, _, _, _, _, _, _, ⟨_, _, _⟩, _⟩
  simp_all [State.still]

/-- What the posts of such a rule's event leave. -/
theorem closeStill_frame {s u : State} (howes : OwesNothing s) (h : u.still = s.still) (b : State) : closePosts b u = { s with
    bus := { s.bus with posts := (closePosts b u).bus.posts }
    segs := u.segs, queue := u.queue, asm := u.asm, stroke := u.stroke, conv := u.conv } := by
  refine (closePosts_owes howes b u).trans ?_
  rw [still_mem h, still_pins h, still_bus h, still_gate h, still_touch h, still_claims h, still_engine h, still_events h,
    still_chime h, still_pending h]

theorem driveExpires_taken {s : State} {ms : List Member} (hd : s.stroke.driven = some ⟨.drive, ms⟩) (hr : s.stroke.drive.runs = true) :
    driveExpires s = setStroke { s.stroke with
      driven := some ⟨.settle, ms⟩, drive := .idle, settle := .running 0 2
      recharge := .running 0 (rechargeLength s.engine.copy) } s := by
  rw [driveExpires, hd]
  exact if_pos ⟨rfl, hr⟩

theorem settleExpires_taken {s : State} {ms : List Member} (hd : s.stroke.driven = some ⟨.settle, ms⟩) (hr : s.stroke.settle.runs = true) :
    settleExpires s = grant ⟨.verify, ms.map Member.seg, verifyPins ms, [], false, .unsure⟩
      (setStroke { s.stroke with driven := some ⟨.verify, ms⟩, settle := .idle }
        (syncTail (ms.map Member.seg) (setStates .verifying (ms.map Member.seg) s))) := by
  rw [settleExpires, hd]
  refine (if_pos ⟨rfl, hr⟩).trans ?_
  simp

/-- A stroke that changes its phase changes a status field. -/
theorem statusFields_driven {b s : State} (h : drivenCode b.stroke.driven ≠ drivenCode s.stroke.driven) :
    statusFields b ≠ statusFields s := by
  intro he
  simp only [statusFields, List.cons.injEq] at he
  exact h he.2.2.2.1

/-- With a stroke driven the page is not settled (R183). -/
theorem settled_driven {s : State} {d : Driven} (h : s.stroke.driven = some d) : settled s = false := by
  simp [settled, h]

/-- Segments that may not wait in the queue leave it when they are judged (R48). -/
theorem syncTail_leaves {is : List SegNo} {s : State} (h : ∀ i ∈ is, queueable s.engine (s.seg i) = false) :
    (syncTail is s).queue.entries = s.queue.entries.filter fun i => decide (i ∉ is) := by
  induction is generalizing s with
  | nil => simp [syncTail]
  | cons i is ih =>
    have hi := h i List.mem_cons_self
    have hq : (sync .tail i s).queue = s.queue.leave i := sync_entries_leaves hi
    have hrest : ∀ k ∈ is, queueable (sync .tail i s).engine ((sync .tail i s).seg k) = false := fun k hk => by
      rw [sync_seg, still_engine (sync_still .tail i s)]
      exact h k (List.mem_cons_of_mem i hk)
    have hsync : syncTail (i :: is) s = syncTail is (sync .tail i s) := rfl
    rw [hsync, ih hrest, hq, entries_leave, List.filter_filter]
    refine List.filter_congr fun k _ => ?_
    by_cases hk : k = i <;> simp [hk]

/-- Settles O44: the two expiries, and the words that their events post. -/
theorem strokeTimers : Obligations.StrokeTimers := by
  refine ⟨fun s ms hs hd hr => ?drive, fun s ms hs hd hr => ?settle⟩
  case drive =>
    have hexec : exec .driveTimerExpiry s = .next (closePosts s (setStroke { s.stroke with
        driven := some ⟨.settle, ms⟩, drive := .idle, settle := .running 0 2
        recharge := .running 0 (rechargeLength s.engine.copy) } s)) := by
      refine congrArg Host.Outcome.next ?_
      rw [driveExpires_taken hd hr]
    refine ⟨_, hexec, ?_, endsWith_status (statusFields_driven ?_) (owes_results (s := s) hs.2.2) (owes_pending (s := s) hs.2.2)⟩
    · rw [← rechargeLength_eq]
      exact closePosts_owes hs.2.2 ..
    · rw [hd]
      exact nofun
  case settle =>
    have htaken := settleExpires_taken hd hr
    have hstill := settleExpires_still s
    have hstroke : (settleExpires s).stroke = { s.stroke with driven := some ⟨.verify, ms⟩, settle := .idle } := by
      rw [htaken]
      rfl
    have hconv : (settleExpires s).conv = { s.conv with
        state := .converting, tap := (verifyPins ms).head?.map Prod.fst
        job := some ⟨.verify, ms.map Member.seg, verifyPins ms, [], false, .unsure⟩ } := by
      rw [htaken]
      simp [grant]
    have hset : settled (settleExpires s) = settled s := by
      rw [settled_driven hd, settled_driven (congrArg StrokeUnit.driven hstroke)]
    have hexec : exec .settleTimerExpiry s = .next (closePosts s (settleExpires s)) :=
      congrArg Host.Outcome.next (closeEvent_of_same hset (by rw [still_engine hstill]))
    have hseg : ∀ i, (settleExpires s).seg i = if i ∈ ms.map Member.seg then { s.seg i with state := .verifying } else s.seg i := by
      intro i
      rw [htaken]
      exact (syncTail_seg _ _ i).trans (setStates_seg ..)
    have hqueue : (settleExpires s).queue.entries = s.queue.entries.filter fun i => i ∉ ms.map Member.seg := by
      rw [htaken]
      refine (syncTail_leaves fun i hi => ?_).trans ?_
      · rw [setStates_seg, if_pos hi]
        exact not_queueable rfl
      · rw [setStates_queue]
    have hfields : statusFields s ≠ statusFields (settleExpires s) := statusFields_driven (by
      rw [hd, hstroke]
      exact nofun)
    refine ⟨_, hexec, ?_, fun i => ?_, ?_, ?_, ?_, ?_, ⟨⟨.verify, ms.map Member.seg, verifyPins ms, [], false, .unsure⟩, ?_, rfl, rfl, rfl, rfl, ?_⟩,
      endsWith_status hfields ?_ ?_⟩
    · rw [closePosts_segs, closePosts_queue, closePosts_conv, ← hstroke]
      refine (closeStill_frame hs.2.2 hstill s).trans ?_
      rw [settleExpires_asm]
    · rw [closePosts_seg, hseg]
    · rw [closePosts_queue, hqueue]
    · rw [closePosts_conv, hconv]
    · rw [closePosts_conv, hconv]
    · rw [closePosts_conv, hconv]
    · rw [closePosts_conv, hconv]
    · rw [closePosts_conv, hconv]
    · rw [still_results hstill, owes_results hs.2.2]
    · rw [still_owesPending hstill, owes_pending hs.2.2]

end Sys2Proof.Machine

/-! ### Conversions, verify outcomes, fault records and the Chime (R23, R36, R37, R108 to R118, R191, R192, R196) -/

namespace Sys2Proof.Machine

/-! #### A conversion's end -/

theorem exec_conversionEnd (v : BitVec 10) (s : State) : exec (.conversionEnd v) s = .next (closeEvent s (conversionEnds v s)) := rfl

/-- New work leaves a clear warm-up mark clear. -/
theorem warmUpRules : JudgeRules fun s => s.conv.warmUp = .clear where
  ends s a _ h := (congrArg Converter.warmUp (walkEnd_conv a s)).trans h
  passes _ _ _ _ h := h
  starts s _ i _ _ h := (congrArg Converter.warmUp (captureStart_conv i s)).trans h
  stores s h := (congrArg Converter.warmUp (captureStore_conv s)).trans h
  syncs i s h := (congrArg Converter.warmUp (sync_conv .tail i s)).trans h
  opens _ _ h := h
  drives s _ h := (congrArg Converter.warmUp (driveStart_conv s)).trans h
  sweeps s i _ _ _ h := (congrArg Converter.warmUp (startSweep_conv i s)).trans h
  senses s i _ _ h := (congrArg Converter.warmUp (startSense_conv i s)).trans h

theorem noteIfDiscarded_conv (i : SegNo) (s : State) : (noteIfDiscarded i s).conv = s.conv := by
  rw [noteIfDiscarded_eq]
  rfl

theorem finishMember_conv (cs : List Conversion) (m : Member) (s : State) : (finishMember cs m s).conv = s.conv := by
  rw [body_conv (finishMember_body cs m s)]
  rfl

theorem strokeEnd_conv (cs : List Conversion) (s : State) : (strokeEnd cs s).conv = s.conv := by
  unfold strokeEnd
  split
  · rfl
  · simp only [syncTail_conv, syncHead_conv]
    exact foldl_keeps State.conv (fun s m => finishMember_conv cs m s) _ s

theorem sweepEnd_conv (j : Job) (i : SegNo) (s : State) : (sweepEnd j i s).conv = s.conv := by
  rw [sweepEnd, judgeLoading_conv]
  split
  · exact (putSeg_conv ..).trans (noteIfDiscarded_conv i s)
  · exact (putSeg_conv ..).trans (noteIfDiscarded_conv i s)

theorem senseCompletes_warmUp (s : State) : (senseCompletes s).conv.warmUp = s.conv.warmUp := by
  unfold senseCompletes
  split
  · rfl
  · split <;> rfl

theorem senseEnd_warmUp (j : Job) (i : SegNo) (s : State) : (senseEnd j i s).conv.warmUp = s.conv.warmUp := by
  rw [senseEnd, senseCompletes_warmUp]
  split
  · exact congrArg Converter.warmUp ((putSeg_conv ..).trans (noteIfDiscarded_conv i s))
  · exact (congrArg Converter.warmUp ((putSeg_conv ..).trans (noteIfDiscarded_conv i _))).trans (by simp [postAll_conv])

theorem jobEnd_warmUp (j : Job) (s : State) : (jobEnd j s).conv.warmUp = s.conv.warmUp := by
  unfold jobEnd
  simp only
  split
  · rw [strokeEnd_conv]
    rfl
  · split
    · rfl
    · rw [sweepEnd_conv]
      rfl
  · split
    · rfl
    · rw [senseEnd_warmUp]
      rfl

/-- A converter that goes on with the same job, or another, leaves every posted word as it was. -/
theorem closeEvent_setConv {s : State} (howes : OwesNothing s) {c : Converter} (hc : c.job.isNone = s.conv.job.isNone) :
    closeEvent s (setConv c s) = setConv c s :=
  closeEvent_quiet howes (by simp [settled, hc]) rfl (mirrorChanged_of_same rfl rfl) rfl

/-- Settles O46: the branches of a conversion's end. -/
theorem conversionTaken : Obligations.ConversionTaken := by
  intro v s j i p rest hs hconv hj htodo
  have hends : conversionEnds v s = if s.conv.warmUp = .set then setConv { s.conv with warmUp := .made } s
      else takeValue j i p rest v (setConv { s.conv with warmUp := .clear } s) := by
    rw [conversionEnds, if_pos hconv, hj]
    simp only [htodo]
  refine ⟨fun hset => ?set, fun hset hrest => ?last, fun hset next more hrest => ?next⟩
  case set =>
    rw [exec_conversionEnd, hends, if_pos hset, closeEvent_setConv (c := { s.conv with warmUp := .made }) hs.2.2 rfl]
    rfl
  case last =>
    refine ⟨_, exec_conversionEnd v s, ?_⟩
    rw [closeEvent_conv, hends, if_neg hset, hrest]
    exact warmUpRules.judge (jobEnd_warmUp _ _)
  case next =>
    refine ⟨classify s.engine.copy v, ?_, rfl⟩
    have htake : conversionEnds v s = setConv { s.conv with
        warmUp := .clear, tap := some next.1
        job := some { j with todo := rest, results := j.results ++ [⟨i, p, v, classify s.engine.copy v⟩] } } s := by
      rw [hends, if_neg hset]
      subst hrest
      rfl
    rw [exec_conversionEnd, htake]
    exact congrArg Host.Outcome.next (closeEvent_setConv hs.2.2 (by rw [hj]; rfl))

/-! #### The Chime's timers -/

theorem expiresOnPeriodEnd_iff {c : Chime} {n length : Nat} (h : c.duration = .running n length) :
    c.expiresOnPeriodEnd = true ↔ ∃ f, c.tone = some f ∧ 1000 ∣ length * f := by
  rw [Chime.expiresOnPeriodEnd, h]
  cases c.tone with
  | none => exact ⟨fun h => Bool.noConfusion h, fun ⟨f, hf, _⟩ => (nomatch hf)⟩
  | some f =>
    simp only [beq_iff_eq, Option.some.injEq]
    constructor
    · exact fun h => ⟨f, rfl, Nat.dvd_of_mod_eq_zero h⟩
    · rintro ⟨_, rfl, h⟩
      exact Nat.mod_eq_zero_of_dvd h

theorem periodEnds_silent {s : State} (h : s.chime.state = .silent) : periodEnds s = s := by rw [periodEnds, h]

theorem periodEnds_sounding {s : State} (h : s.chime.state ≠ .silent) :
    periodEnds s = match s.chime.next with
      | .none => s
      | .silent => setChime Chime.silent s
      | .fault => setChime (Chime.startFault s.engine.copy) s := by
  unfold periodEnds
  split
  · rename_i hs
    exact absurd hs h
  · rfl

/-- The Chime as an expiry of its duration timer leaves it, less a period end that falls on it. -/
def durationOver (s : State) : State :=
  setChime { s.chime with duration := .idle, next := if s.chime.next = .fault then .fault else .silent } s

theorem durationExpires_running {s : State} {n length : Nat} (h : s.chime.duration = .running n length) :
    durationExpires s = if s.chime.expiresOnPeriodEnd then periodEnds (durationOver s) else durationOver s := by
  rw [durationExpires, if_pos (by rw [h]; rfl)]
  rfl

/-- Settles O57: the duration timer's expiry, and the period ends. -/
theorem chimeTimers : Obligations.ChimeTimers := by
  refine ⟨fun s n length h => ⟨fun hnot => ?notWhole, fun hwhole => ?whole⟩, fun s hs => ⟨fun hn => ?_, fun hn => ?_, fun hn => ?_⟩⟩
  case notWhole =>
    refine congrArg Host.Outcome.next ((durationExpires_running h).trans ?_)
    split
    · rename_i he
      have hsilent : s.chime.state = .silent := by
        by_contra hne
        exact hnot ⟨hne, (expiresOnPeriodEnd_iff h).1 he⟩
      rw [periodEnds_silent (s := durationOver s) hsilent]
      rfl
    · rfl
  case whole =>
    refine congrArg Host.Outcome.next ((durationExpires_running h).trans ?_)
    rw [if_pos ((expiresOnPeriodEnd_iff h).2 hwhole.2), periodEnds_sounding (s := durationOver s) hwhole.1, durationOver, setChime_chime]
    by_cases hnext : s.chime.next = .fault
    · simp only [if_pos hnext]
      rfl
    · simp only [if_neg hnext]
      rfl
  all_goals
    refine congrArg Host.Outcome.next ((periodEnds_sounding hs).trans ?_)
    simp only [hn]
  all_goals rfl

/-! #### Fault records -/

theorem requestRecord_room {f : FaultRecord} {s : State} (h : unconsumed s.events.producer s.events.consumer < Config.ringSlots) :
    requestRecord f s = postProducer { postAll (recordPosts s.events.producer f) (raise .faultNew s) with
      events := { (raise .faultNew s).events with producer := s.events.producer + 1 } } := by
  unfold requestRecord
  refine (if_pos h).trans ?_
  rw [← postAll_events (recordPosts s.events.producer f) (raise .faultNew s)]
  rfl

theorem requestRecord_full {f : FaultRecord} {s : State} (h : ¬unconsumed s.events.producer s.events.consumer < Config.ringSlots) :
    requestRecord f s = raise .ringFull (raise .faultNew s) := by
  unfold requestRecord
  exact if_neg h

/-- The four posts of a record, word by word. -/
theorem recordPosts_eq (producer : BitVec 8) (f : FaultRecord) : recordPosts producer f =
    [(0x1400 + 8 * (producer.toNat % 64), BitVec.ofNat 16 (f.seg.val + 256 * f.cell)),
     (0x1402 + 8 * (producer.toNat % 64), BitVec.ofNat 16 (f.dot + 256 * f.kind)),
     (0x1404 + 8 * (producer.toNat % 64), BitVec.ofNat 16 (f.attempts + 256 * f.shown.code)),
     (0x1406 + 8 * (producer.toNat % 64), BitVec.ofNat 16 f.value)] := by
  simp only [recordPosts, FaultRecord.words, List.zipIdx_cons, List.zipIdx_nil, List.map_cons, List.map_nil, Config.ringSlots,
    List.cons.injEq, Prod.mk.injEq, and_true]
  omega

/-- Settles O48: the record that the ring has room for, and the record that it has not. -/
theorem faultRecords : Obligations.FaultRecords := by
  intro f s
  by_cases hroom : unconsumed s.events.producer s.events.consumer < Config.ringSlots
  · have hpending : (requestRecord f s).events = { (raise .faultNew s).events with producer := s.events.producer + 1 } := by
      rw [requestRecord_room hroom]
      rfl
    have hraised : ∀ e, isPending (requestRecord f s) e = (e == .faultNew || isPending s e) := fun e => by
      rw [← isPending_raise]
      exact isPending_congr (by rw [hpending]) e
    refine ⟨by rw [hraised]; rfl, fun e he _ => by rw [hraised, beq_eq_false_iff_ne.2 he, Bool.false_or], by rw [hpending]; rfl,
      fun _ => ⟨by rw [hpending], by rw [hraised]; rfl, ?_⟩, fun hfull => absurd hroom (Nat.not_lt.2 hfull)⟩
    have hposts := (endsWith_nil (raise .faultNew s)).postAll (qs := recordPosts s.events.producer f) (by
      rw [recordPosts_eq]
      simp)
    rw [recordPosts_eq, List.nil_append] at hposts
    rw [requestRecord_room hroom, recordPosts_eq]
    exact EndsWith.post (hposts.congr rfl) (fun p hp => by
      simp only [List.map_cons, List.map_nil, List.mem_cons, List.not_mem_nil, or_false] at hp
      rcases hp with rfl | rfl | rfl | rfl <;> simp only [PartWord.offset] <;> omega) _
  · have hraised : ∀ e, isPending (requestRecord f s) e = (e == .ringFull || (e == .faultNew || isPending s e)) := fun e => by
      rw [requestRecord_full hroom, isPending_raise, isPending_raise]
    refine ⟨by rw [hraised]; rfl, fun e he he' => ?_, by rw [requestRecord_full hroom]; rfl, fun h => absurd h hroom,
      fun _ => ⟨by rw [requestRecord_full hroom]; rfl, by rw [hraised]; rfl, by rw [requestRecord_full hroom]; rfl⟩⟩
    rw [hraised, beq_eq_false_iff_ne.2 he, beq_eq_false_iff_ne.2 he', Bool.false_or, Bool.false_or]

end Sys2Proof.Machine

/-! ### Verify outcomes (R23, R36, R37, R97, R115 to R118) -/

namespace Sys2Proof.Machine

/-- A pin's shadow shows the class sensed, and the other pins keep theirs (R23). -/
theorem shows_sense (h : Shadow) (p : Pin) (c : PinClass) : Shows (h.sense p c) p c := by
  have hp := p.isLt
  cases c <;>
    simp only [Shows, Shadow.sense, Shadow.forgetPins, BitVec.getLsbD_and, BitVec.getLsbD_or, BitVec.getLsbD_not, onePin_getLsbD, hp,
      decide_true, Bool.not_true, Bool.and_false, Bool.or_true] <;>
    exact ⟨rfl, rfl⟩

theorem sense_other {p q : Pin} (hq : q ≠ p) (h : Shadow) (c : PinClass) :
    (h.sense p c).up.getLsbD q.val = h.up.getLsbD q.val ∧ (h.sense p c).down.getLsbD q.val = h.down.getLsbD q.val := by
  have hlt := q.isLt
  cases c <;>
    simp only [Shadow.sense, Shadow.forgetPins, BitVec.getLsbD_and, BitVec.getLsbD_or, BitVec.getLsbD_not, onePin_getLsbD, hlt, hq,
      decide_true, decide_false, Bool.not_false, Bool.and_true, Bool.or_false, and_self]

/-! #### Retry lists -/

theorem mem_dropRetry {es : List RetryEntry} {p : Pin} {e : RetryEntry} : e ∈ dropRetry es p ↔ e ∈ es ∧ e.pin ≠ p := by
  simp [dropRetry]

theorem mem_putRetry {es : List RetryEntry} {p : Pin} {c : Attempts} {e : RetryEntry} :
    e ∈ putRetry es p c ↔ (e ∈ es ∧ e.pin ≠ p) ∨ e = ⟨p, c⟩ := by
  simp only [putRetry, List.mem_append, List.mem_filter, mem_dropRetry, List.mem_singleton, decide_eq_true_eq]
  constructor
  · rintro ((⟨h, -⟩ | h) | ⟨h, -⟩)
    · exact .inl h
    · exact .inr h
    · exact .inl h
  · rintro (h | h)
    · rcases lt_or_gt_of_ne (fun he => h.2 (Fin.ext he)) with hlt | hlt
      · exact .inl (.inl ⟨h, hlt⟩)
      · exact .inr ⟨h, hlt⟩
    · exact .inl (.inr h)

/-- A retry list keeps its pins in cell-then-dot order (R36). -/
theorem pairwise_putRetry {es : List RetryEntry} (h : es.Pairwise fun x y => x.pin.val < y.pin.val) (p : Pin) (c : Attempts) :
    (putRetry es p c).Pairwise fun x y => x.pin.val < y.pin.val := by
  have hdrop : (dropRetry es p).Pairwise fun x y => x.pin.val < y.pin.val := h.filter _
  unfold putRetry
  rw [List.pairwise_append, List.pairwise_append]
  refine ⟨⟨hdrop.filter _, List.pairwise_singleton _ _, fun x hx y hy => ?_⟩, hdrop.filter _, fun x hx y hy => ?_⟩
  · rw [List.mem_singleton.1 hy]
    exact of_decide_eq_true (List.mem_filter.1 hx).2
  · have hy' : p.val < y.pin.val := of_decide_eq_true (List.mem_filter.1 hy).2
    rcases List.mem_append.1 hx with hx | hx
    · exact (of_decide_eq_true (List.mem_filter.1 hx).2 : x.pin.val < p.val).trans hy'
    · rw [List.mem_singleton.1 hx]
      exact hy'

theorem retryOf_none {r : Segment} {p : Pin} (h : ∀ e ∈ r.retry, e.pin ≠ p) : retryOf r p = none := by
  rw [retryOf, Option.map_eq_none_iff, List.find?_eq_none]
  exact fun e he => by simpa using h e he

/-- In an ordered retry list a pin has one entry at most. -/
theorem retryOf_of_mem {r : Segment} (h : r.retry.Pairwise fun x y => x.pin.val < y.pin.val) {e : RetryEntry} (he : e ∈ r.retry) :
    retryOf r e.pin = some e.count := by
  unfold retryOf
  generalize r.retry = es at h he
  induction es with
  | nil => exact (List.not_mem_nil he).elim
  | cons x xs ih =>
    obtain ⟨hx, hxs⟩ := List.pairwise_cons.1 h
    rcases List.mem_cons.1 he with rfl | he
    · rw [List.find?_cons_of_pos (by simp)]
      rfl
    · have hne : x.pin ≠ e.pin := fun hp => (hx e he).ne (congrArg Fin.val hp)
      rw [List.find?_cons_of_neg (by simpa using hne)]
      exact ih hxs he

/-! #### The outcome of one pin -/

theorem judgePin_faulted (m : Member) (shown : Shown) {r : Segment} (asks : List FaultRecord) (c : Conversion) (h : r.state = .faulted) :
    judgePin m shown ⟨r, asks⟩ c = ⟨unknownPins r (onePin c.pin) .faulted, asks⟩ := by
  refine (if_pos h).trans ?_
  rw [unknownPins, ← h]
  rfl

/-- The record of a pin that was converted, in its class. -/
def sensed (r : Segment) (c : Conversion) : Segment := { r with shadow := r.shadow.sense c.pin c.cls }

section
variable {m : Member} {shown : Shown} {r : Segment} {asks : List FaultRecord} {c : Conversion} (hs : r.state ≠ .faulted)
include hs

theorem judgePin_arrived (hc : c.cls = expectedOf m c.pin) :
    judgePin m shown ⟨r, asks⟩ c = ⟨{ sensed r c with retry := dropRetry r.retry c.pin }, asks⟩ :=
  (if_neg hs).trans (if_pos hc)

variable (hc : c.cls ≠ expectedOf m c.pin)
include hc

theorem judgePin_first (h : retryOf r c.pin = none) :
    judgePin m shown ⟨r, asks⟩ c = ⟨{ sensed r c with retry := putRetry r.retry c.pin .one }, asks⟩ := by
  refine ((if_neg hs).trans (if_neg hc)).trans ?_
  have h' : retryOf (sensed r c) c.pin = none := h
  unfold sensed at h'
  simp only [h']
  rfl

theorem judgePin_second (h : retryOf r c.pin = some .one) :
    judgePin m shown ⟨r, asks⟩ c = ⟨{ sensed r c with retry := putRetry r.retry c.pin .two }, asks⟩ := by
  refine ((if_neg hs).trans (if_neg hc)).trans ?_
  have h' : retryOf (sensed r c) c.pin = some .one := h
  unfold sensed at h'
  simp only [h']
  rfl

theorem judgePin_third (h : retryOf r c.pin = some .two) :
    judgePin m shown ⟨r, asks⟩ c =
      if r.faults.length < Config.maxFaults then
        ⟨{ sensed r c with retry := dropRetry r.retry c.pin, faults := r.faults ++ [⟨c.pin, kindOf c.cls⟩] },
          asks ++ [pinRecord c shown]⟩
      else ⟨{ sensed r c with retry := dropRetry r.retry c.pin, state := .faulted }, asks ++ [retiredRecord c shown]⟩ := by
  refine ((if_neg hs).trans (if_neg hc)).trans ?_
  have h' : retryOf (sensed r c) c.pin = some .two := h
  unfold sensed at h'
  simp only [h']
  rfl

end

/-- Settles O47: the cases of `judgePin`, with the entry of the pin in the retry list as the membership in it gives it. -/
theorem verifyOutcomes : Obligations.VerifyOutcomes := by
  refine ⟨fun h p c => ⟨shows_sense h p c, fun q hq => sense_other hq h c⟩,
    fun m shown r asks c h => judgePin_faulted m shown asks c h, fun m shown r asks c hs => ⟨?arrived, ?first, ?second, ?third⟩⟩
  case arrived => exact fun hc => judgePin_arrived hs hc
  case first =>
    intro hc hnone
    refine ⟨_, judgePin_first hs hc (retryOf_none hnone), fun e => ?_, fun h => pairwise_putRetry h _ _⟩
    rw [mem_putRetry]
    exact or_congr_left ⟨And.left, fun he => ⟨he, hnone e he⟩⟩
  case second =>
    intro hc h he
    exact ⟨_, judgePin_second hs hc (retryOf_of_mem h he), fun e => mem_putRetry, pairwise_putRetry h _ _⟩
  case third =>
    intro hc h he
    have := judgePin_third (shown := shown) (asks := asks) hs hc (retryOf_of_mem h he)
    refine ⟨fun hl => this.trans ((if_pos hl).trans ?_), fun hl => this.trans (if_neg (Nat.not_lt.2 hl))⟩
    cases hcls : c.cls <;> simp only [kindOf, pinRecord, pinCell, pinDot, sensed, hcls] <;> rfl

end Sys2Proof.Machine

/-! ### Events without a cause (log 5) -/

namespace Sys2Proof.Machine

theorem abandonedRead_self {s : State} (h : s.bus.arbiter.abandoned = false) : abandonedRead s = s := by
  rw [abandonedRead, h]
  rfl

theorem descriptorReadEnds_self {s : State} (h : ((s.engine.state == .loading && s.engine.reading.isSome) || s.bus.arbiter.abandoned) = false) :
    descriptorReadEnds s = s := by
  obtain ⟨hreading, hab⟩ := Bool.or_eq_false_iff.1 h
  unfold descriptorReadEnds
  split
  next hstate hws => rw [hstate, hws] at hreading; exact absurd hreading Bool.noConfusion
  next => exact abandonedRead_self hab

theorem captureReadEnds_self {s : State} (h : takesPlace .captureReadEnd s = false) : captureReadEnds s = s := by
  obtain ⟨hcap, hab⟩ := Bool.or_eq_false_iff.1 h
  unfold captureReadEnds
  split
  next => exact abandonedRead_self hab
  next a hasm =>
    split
    next => exact abandonedRead_self hab
    next c hc =>
      simp only [hasm, hc] at hcap
      split
      next => exact abandonedRead_self hab
      next buf hbuf =>
        have hnone : c.buffer = .none := by simpa using hcap
        rw [hnone] at hbuf
        exact nomatch hbuf

theorem driveExpires_self {s : State} (h : takesPlace .driveTimerExpiry s = false) : driveExpires s = s := by
  unfold driveExpires
  split
  next => rfl
  next d hd =>
    refine if_neg fun hc => ?_
    simp [takesPlace, hd, hc.1, hc.2] at h

theorem settleExpires_self {s : State} (h : takesPlace .settleTimerExpiry s = false) : settleExpires s = s := by
  unfold settleExpires
  split
  next => rfl
  next d hd =>
    refine if_neg fun hc => ?_
    simp [takesPlace, hd, hc.1, hc.2] at h

theorem rechargeExpires_self {s : State} (h : takesPlace .rechargeTimerExpiry s = false) : rechargeExpires s = s :=
  if_neg (Bool.eq_false_iff.1 h)

theorem conversionEnds_self {v : BitVec 10} {s : State} (h : takesPlace (.conversionEnd v) s = false) : conversionEnds v s = s := by
  unfold conversionEnds
  split
  next hconv =>
    split
    next => rfl
    next j hj =>
      split
      next => rfl
      next todo => simp [takesPlace, hconv, hj, todo] at h
  next => rfl

theorem rearmExpires_self {s : State} (h : takesPlace .rearmTimerExpiry s = false) : rearmExpires s = s :=
  if_neg fun hc => by simp [takesPlace, hc.1, hc.2] at h

theorem guardExpires_self {l : LineNo} {s : State} (h : takesPlace (.guardTimerExpiry l) s = false) : guardExpires l s = s :=
  if_neg fun hc => by simp [takesPlace, hc.1, hc.2] at h

theorem holdOffExpires_self {l : LineNo} {s : State} (h : takesPlace (.holdOffTimerExpiry l) s = false) : holdOffExpires l s = s :=
  if_neg fun hc => by simp [takesPlace, hc.1, hc.2] at h

theorem claimWarnPoint_self {l : LineNo} {s : State} (h : takesPlace (.claimWarnPoint l) s = false) : claimWarnPoint l s = s :=
  if_neg fun ⟨hruns, htaken, hwarned⟩ => by simp [takesPlace, claimed, hruns, htaken, hwarned] at h

theorem claimLimitPoint_self {l : LineNo} {s : State} (h : takesPlace (.claimExpiry l) s = false) : claimLimitPoint l s = s :=
  if_neg fun hc => by simp [takesPlace, hc.1, hc.2] at h

theorem lagWarns_self {s : State} (h : takesPlace .lagWarnPoint s = false) : lagWarns s = s := by
  unfold lagWarns
  split
  next => rfl
  next t ht =>
    refine if_neg fun hc => ?_
    simp [takesPlace, ht, hc.1, hc.2] at h

theorem lagLimits_self {s : State} (h : takesPlace .lagLimitPoint s = false) : lagLimits s = s := by
  unfold lagLimits
  split
  next => rfl
  next t ht =>
    refine if_neg fun hc => ?_
    simp [takesPlace, ht, hc] at h

theorem durationExpires_self {s : State} (h : takesPlace .durationTimerExpiry s = false) : durationExpires s = s :=
  if_neg (Bool.eq_false_iff.1 h)

theorem periodEnds_self {s : State} (h : takesPlace .periodEnd s = false) : periodEnds s = s := by
  unfold periodEnds
  split
  next => rfl
  next hs =>
    split
    next => rfl
    next hn => exact (hs (by simpa [takesPlace, hn] using h)).elim
    next hn => exact (hs (by simpa [takesPlace, hn] using h)).elim

theorem drainHead_self {s : State} (h : takesPlace .postWrite s = false) : drainHead s = s := by
  have hnil : s.bus.posts = [] := by simpa [takesPlace] using h
  rw [drainHead, hnil]

/-- Settles O58: an event whose timer, job or read is not there is over with the state that it found. -/
theorem eventWithoutCause : Obligations.EventWithoutCause := by
  unfold Obligations.EventWithoutCause
  intro c s howes h
  have hclose {t : State} (ht : t = s) : closeEvent s t = s := by rw [ht, closeEvent_self howes]
  have hposts {t : State} (ht : t = s) : closePosts s t = s := by rw [ht, closePosts_self howes]
  have hpending {t : State} (ht : t = s) : postPending t = s := by rw [ht, postPending_of_owesNothing howes]
  cases c
  case postWrite => exact congrArg Host.Outcome.next (drainHead_self h)
  case descriptorReadEnd => exact congrArg Host.Outcome.next (descriptorReadEnds_self h)
  case captureReadEnd => exact congrArg Host.Outcome.next (hclose (captureReadEnds_self h))
  case driveTimerExpiry => exact congrArg Host.Outcome.next (hposts (driveExpires_self h))
  case settleTimerExpiry => exact congrArg Host.Outcome.next (hclose (settleExpires_self h))
  case rechargeTimerExpiry => exact congrArg Host.Outcome.next (hclose (rechargeExpires_self h))
  case conversionEnd => exact congrArg Host.Outcome.next (hclose (conversionEnds_self h))
  case rearmTimerExpiry => exact congrArg Host.Outcome.next (hclose (rearmExpires_self h))
  case guardTimerExpiry => exact congrArg Host.Outcome.next (hclose (guardExpires_self h))
  case holdOffTimerExpiry => exact congrArg Host.Outcome.next (hclose (holdOffExpires_self h))
  case claimWarnPoint => exact congrArg Host.Outcome.next (hclose (claimWarnPoint_self h))
  case claimExpiry => exact congrArg Host.Outcome.next (hclose (claimLimitPoint_self h))
  case lagWarnPoint => exact congrArg Host.Outcome.next (hpending (lagWarns_self h))
  case lagLimitPoint => exact congrArg Host.Outcome.next (hpending (lagLimits_self h))
  case durationTimerExpiry => exact congrArg Host.Outcome.next (durationExpires_self h)
  case periodEnd => exact congrArg Host.Outcome.next (periodEnds_self h)
  all_goals exact absurd h (by simp [takesPlace])

end Sys2Proof.Machine

/-! ### Commands refused (R162, R163) -/

namespace Sys2Proof.Machine

/-- A command write that ends with a refusal stores its word and gives its result, and does nothing else (R162 to R164). -/
theorem turnedAway_refuse {s : State} (hbus : BusLawful s) (code : Byte) (c : CommandWrite) (r : ResultCode) :
    TurnedAway s (refuse code r (storeArea commandOffset (c.toHost code) s)) code c r := by
  obtain ⟨hwf, -, howes⟩ := hbus
  have hu : OwesNothing (storeArea commandOffset (c.toHost code) s) := howes
  refine ⟨?_, storedOnly_of_mem hwf (refuse_mem _ _ _), ⟨?_, ?_⟩, fun e he => ?_⟩
  · rw [refuse_eq hu]
    rfl
  · rw [isPending_refuse _ _ _ hu]
    rfl
  · rw [refuse_eq hu]
    exact ⟨_, postTo_postTo _ (show PartWord.offset .result ≠ PartWord.offset .eventPending by decide)⟩
  · rw [isPending_refuse _ _ _ hu, beq_false_of_ne he]
    rfl

section
variable {s : State} (hbus : BusLawful s)
include hbus

theorem refuses_of_take {i : Instr} {code : Byte} {c : CommandWrite} {act : State → State} {r : ResultCode}
    (hexec : exec i s = .next (takeWrite code c act s))
    (hact : act (storeArea commandOffset (c.toHost code) s) = refuse code r (storeArea commandOffset (c.toHost code) s)) :
    Refuses i code c r s :=
  ⟨_, by rw [hexec, takeWrite_eq hbus.2.1, hact], turnedAway_refuse hbus code c r⟩

end

/-! #### The reasons for a refusal -/

theorem not_runsOrPaused {s : State} (h : ¬Active s) : runsOrPaused s = false := by
  simpa [runsOrPaused] using h

theorem runsOrPaused_of_active {s : State} (h : Active s) : runsOrPaused s = true := by
  simpa [runsOrPaused] using h

theorem not_goodRange {a : Word} (h : ¬GoodRange a) : goodRange a = false :=
  Bool.eq_false_iff.2 fun hg => h ((goodRange_iff a).1 hg)

theorem argShown_none {a : Word} (h : 2 < (lowByte a).toNat) : argShown a = none := by
  unfold argShown
  split
  case h_4 => rfl
  all_goals omega

theorem rangeCommand_badState {s : State} (h : ¬Active s) (code : Byte) (act : List SegNo → State → State) :
    rangeCommand code act s = refuse code .badState s := if_pos (not_runsOrPaused h)

theorem rangeCommand_badArg {s : State} (h : Active s) (hr : ¬GoodRange s.bus.argument) (code : Byte) (act : List SegNo → State → State) :
    rangeCommand code act s = refuse code .badArg s :=
  (if_neg (by rw [runsOrPaused_of_active h]; exact Bool.noConfusion)).trans (if_pos (not_goodRange hr))

theorem takeShow_badState {s : State} (h : ¬Active s) : takeShow s = refuse 5 .badState s := if_pos (not_runsOrPaused h)

theorem takeShow_badArg {s : State} (h : Active s) (ha : 2 < (lowByte s.bus.argument).toNat) : takeShow s = refuse 5 .badArg s := by
  rw [takeShow, if_neg (by rw [runsOrPaused_of_active h]; exact Bool.noConfusion), argShown_none ha]

theorem takeSense_badState {s : State} (h : ¬Active s) : takeSense s = refuse 10 .badState s := if_pos (not_runsOrPaused h)

theorem takeSense_busy {s : State} (h : Active s) (hs : s.conv.sense ≠ none) : takeSense s = refuse 10 .busy s :=
  (if_neg (by rw [runsOrPaused_of_active h]; exact Bool.noConfusion)).trans (if_pos (Option.isSome_iff_ne_none.2 hs))

theorem takeSense_badArg {s : State} (h : Active s) (hs : s.conv.sense = none) (hr : ¬GoodRange s.bus.argument) :
    takeSense s = refuse 10 .badArg s := by
  rw [takeSense, if_neg (by rw [runsOrPaused_of_active h]; exact Bool.noConfusion), hs, if_neg Bool.noConfusion,
    if_pos (not_goodRange hr)]

theorem takeStart_badState {s : State} (h : s.engine.state ≠ .off) : takeStart s = refuse 1 .badState s :=
  if_neg (by rw [isOff_eq_false h]; exact Bool.noConfusion)

theorem takeStop_badState {s : State} (h : s.engine.state = .off) : takeStop s = refuse 2 .badState s := if_pos ((isOff_iff s).2 h)

theorem takeCode_badCmd {code : Byte} (h : code.toNat = 0 ∨ 12 ≤ code.toNat) (s : State) : takeCode code s = refuse code .badCmd s := by
  unfold takeCode
  split
  case h_12 => rfl
  all_goals omega

section
variable {s : State} (hbus : BusLawful s) {i : Instr} {code : Byte} {c : CommandWrite} {act : List SegNo → State → State}
  (hexec : exec i s = .next (takeWrite code c (rangeCommand code act) s))
include hbus hexec

theorem refuses_range_badState (h : ¬Active s) : Refuses i code c .badState s :=
  refuses_of_take hbus hexec (rangeCommand_badState (s := storeArea commandOffset (c.toHost code) s) h code act)

theorem refuses_range_badArg (h : Active s) (hr : ¬GoodRange s.bus.argument) : Refuses i code c .badArg s :=
  refuses_of_take hbus hexec (rangeCommand_badArg (s := storeArea commandOffset (c.toHost code) s) h hr code act)

end

/-- Settles O25: every command whose state or argument does not fit ends as its refusal. -/
theorem commandsRefused : Obligations.CommandsRefused := by
  unfold Obligations.CommandsRefused
  intro c s hbus
  refine ⟨fun h => refuses_of_take hbus rfl (takeStart_badState h), fun h => refuses_of_take hbus rfl (takeStop_badState h),
    fun h => refuses_of_take hbus rfl (if_neg h), fun h => refuses_of_take hbus rfl (if_neg h), fun h => ?inactive,
    fun h ha => refuses_of_take hbus rfl (takeShow_badArg h ha), fun h hr => ?badRange,
    fun h hs => refuses_of_take hbus rfl (takeSense_busy h hs), fun code hcode => refuses_of_take hbus rfl (takeCode_badCmd hcode _)⟩
  case inactive =>
    exact ⟨refuses_of_take hbus rfl (takeShow_badState h), refuses_range_badState (act := holdRange) hbus rfl h,
      refuses_range_badState (act := releaseRange) hbus rfl h, refuses_range_badState (act := discardRange) hbus rfl h,
      refuses_range_badState (act := promoteRange) hbus rfl h, refuses_of_take hbus rfl (takeSense_badState h),
      refuses_range_badState (act := clearRange) hbus rfl h⟩
  case badRange =>
    exact ⟨refuses_range_badArg (act := holdRange) hbus rfl h hr, refuses_range_badArg (act := releaseRange) hbus rfl h hr,
      refuses_range_badArg (act := discardRange) hbus rfl h hr, refuses_range_badArg (act := promoteRange) hbus rfl h hr,
      refuses_range_badArg (act := clearRange) hbus rfl h hr, fun hs => refuses_of_take hbus rfl (takeSense_badArg h hs hr)⟩

end Sys2Proof.Machine

/-! ### START (R156, R165) -/

namespace Sys2Proof.Machine

theorem postAll_frame (ps : List (Nat × Word)) (s : State) :
    postAll ps s = { s with bus := { s.bus with posts := (postAll ps s).bus.posts } } := by
  induction ps generalizing s with
  | nil => rfl
  | cons p ps ih => exact ih (post p.1 p.2 s)

/-- An event that owes its result and changes a status field, and that posts no mirror word, ends with those posts behind the ones of its
own. -/
theorem endsWith_after {b u : State} {ps : List Post} (h : EndsWith u ps) (hps : ∀ p ∈ ps,
    p.offset ≠ PartWord.offset .engineStatus ∧ p.offset ≠ PartWord.offset .result ∧ p.offset ≠ PartWord.offset .eventPending)
    (hm : ∀ i, mirrorChanged b u i = false) (hmirrors : u.owed.mirrors = []) (hf : statusFields b ≠ statusFields u)
    {code : Byte} {r : ResultCode} (hr : u.owed.results = [resultWord code r]) (hp : u.owed.pending = true) :
    EndsWith (closePosts b u) (ps ++ [statusPost (closePosts b u), resultPost code r, pendingPost (closePosts b u)]) := by
  have hnone : mirrorsToPost b u = [] := List.eq_nil_iff_forall_not_mem.2 fun i hi => by
    simpa [hm i, hmirrors] using mem_mirrorsToPost.1 hi
  rw [statusPost_closePosts, pendingPost_closePosts, closePosts, hnone, postMirrors_nil hmirrors, postStatusIf, if_neg hf]
  have hstatus : EndsWith (postStatus u) (ps ++ [statusPost u]) := h.post (fun p hp => (hps p hp).1) _
  have hresults : EndsWith (postResults (postStatus u)) (ps ++ [statusPost u] ++ [resultPost code r]) := by
    have hend := endsWith_postResults hstatus (fun p hp => ?_) (by rw [show (postStatus u).owed = u.owed from rfl, hr]; exact Nat.le_refl 1)
    · rw [resultPosts, show (postStatus u).owed = u.owed from rfl, hr] at hend
      exact hend
    · rcases List.mem_append.1 hp with h | h
      · exact (hps p h).2.1
      · rw [List.mem_singleton.1 h]; exact (by decide : PartWord.offset .engineStatus ≠ PartWord.offset .result)
  have hpend := endsWith_pending hresults fun p hp => by
    rcases List.mem_append.1 hp with h | h
    · rcases List.mem_append.1 h with h | h
      · exact (hps p h).2.2
      · rw [List.mem_singleton.1 h]; exact (by decide : PartWord.offset .engineStatus ≠ PartWord.offset .eventPending)
    · rw [List.mem_singleton.1 h]; exact (by decide : PartWord.offset .result ≠ PartWord.offset .eventPending)
  have hword : pendingPosts (postResults (postStatus u)) = [pendingPost u] := by
    rw [pendingPosts, postResults_owed, show (postStatus u).owed = u.owed from rfl, hp, pendingPost, pendingWord, postResults_events]
    rfl
  rw [hword] at hpend
  simpa only [List.append_assoc, List.cons_append, List.nil_append] using hpend

theorem nodup_claimOffsets : (allLines.map claimOffset).Nodup :=
  (List.nodup_finRange 24).map fun _ _ h => claimOffset_inj h

theorem endsWith_claimZeros (s : State) : EndsWith (postAll claimZeros s) (allLines.map fun l => ⟨claimOffset l, 0⟩) := by
  have h := (endsWith_nil s).postAll (qs := claimZeros) (by
    rw [claimZeros, List.map_map]
    exact nodup_claimOffsets)
  rw [claimZeros, List.map_map] at h
  exact h

/-- A START in OFF leaves the page unsettled, so its event ends with its posts alone. -/
theorem takeStart_off {s : State} (h : s.engine.state = .off) : takeStart s = closePosts s (startEffect s) := by
  rw [takeStart, (isOff_iff s).2 h, if_pos rfl, closeEvent, judgeSettled]
  have hstate : (startEffect s).engine.state = .loading := by rw [startEffect_eq]; simp [opened]
  have hun : settled (startEffect s) = false := by rw [settled, hstate]; rfl
  rw [if_neg (by rw [hun]; exact Bool.noConfusion), if_neg fun h => by rw [hstate] at h; exact nomatch h.1]

/-- Settles O26: the effects of START, with the claim words ahead of the posts that end its event. -/
theorem startTaken : Obligations.StartTaken := by
  unfold Obligations.StartTaken
  intro c s ⟨hwf, hposts, howes⟩ hoff
  let b := storeArea commandOffset (c.toHost 1) s
  have hbstate : b.engine.state = .off := hoff
  have hu : startEffect b = { giveResult 1 .accepted (opened b) with
      bus := { (opened b).bus with posts := (postAll claimZeros (opened b)).bus.posts } } := by
    rw [startEffect_eq, postAll_frame]
    rfl
  have hbowes : b.owed = Owed.nothing := howes
  have hpend (e : Event) : isPending (closePosts b (startEffect b)) e = (e == .cmdDone || isPending s e) := by
    rw [isPending_closePosts, startEffect_eq, isPending_giveResult]
    exact congrArg _ (isPending_congr (congrArg EventUnit.pending (postAll_events _ _)) e)
  refine ⟨closePosts b (startEffect b), ?run, storedOnly_of_mem hwf ?mem, ?frame, by rw [hpend]; rfl,
    fun e he => by rw [hpend, beq_false_of_ne he]; rfl, ?posts⟩
  case run => exact congrArg Host.Outcome.next ((takeWrite_eq hposts 1 c takeStart).trans (takeStart_off hbstate))
  case mem => rw [closePosts_mem, hu]; rfl
  case frame =>
    rw [hu, closePosts_events, closePosts_mem, closePosts_bus_arbiter]
    exact closePosts_owes howes ..
  case posts =>
    have hbefore : EndsWith (startEffect b) (allLines.map fun l => ⟨claimOffset l, 0⟩) :=
      (endsWith_claimZeros (opened b)).congr rfl
    refine endsWith_after hbefore (fun p hp => ?_) (mirrorChanged_of_same (by rw [hu]; rfl) (by rw [hu]; rfl)) ?_ ?_ ?_ ?_
    · obtain ⟨l, -, rfl⟩ := List.mem_map.1 hp
      exact ⟨(offset_ne_claimOffset _ l).symm, (offset_ne_claimOffset _ l).symm, (offset_ne_claimOffset _ l).symm⟩
    · rw [hu]; exact owes_mirrors (s := b) hbowes
    · intro h
      rw [hu] at h
      have hcode : b.engine.state.code = EngineState.loading.code := (List.cons.inj h).1
      rw [hbstate] at hcode
      exact absurd hcode (by decide)
    · rw [hu]
      change b.owed.results ++ [resultWord 1 .accepted] = _
      rw [hbowes]
      rfl
    · rw [hu]; rfl

end Sys2Proof.Machine

/-! ### STOP (R171, R172) -/

namespace Sys2Proof.Machine

theorem EndsWith.repost {s : State} {ps : List Post} {off : Nat} {v : Word} (h : EndsWith s (ps ++ [⟨off, v⟩]))
    (hps : ∀ p ∈ ps, p.offset ≠ off) (w : Word) : EndsWith (Machine.post off w s) (ps ++ [⟨off, w⟩]) := by
  obtain ⟨qs, hqs⟩ := h
  refine ⟨qs.filter fun q => q.offset != off, ?_⟩
  have hkept : (ps.filter fun q => q.offset != off) = ps := List.filter_eq_self.2 fun p hp => by simpa using hps p hp
  simp [Machine.post, postTo, hqs, hkept]

/-- Words posted one after the other to one offset leave the last of them (R11). -/
theorem endsWith_lastOf {off : Nat} {ps : List Post} (hps : ∀ p ∈ ps, p.offset ≠ off) (vs : List Word) (w : Word) {s : State}
    (h : EndsWith s ps ∨ ∃ v, EndsWith s (ps ++ [⟨off, v⟩])) :
    EndsWith ((vs ++ [w]).foldl (fun s v => post off v s) s) (ps ++ [⟨off, w⟩]) := by
  have hpost (v : Word) {u : State} (hu : EndsWith u ps ∨ ∃ v, EndsWith u (ps ++ [⟨off, v⟩])) :
      EndsWith (post off v u) (ps ++ [⟨off, v⟩]) := by
    rcases hu with hu | ⟨x, hu⟩
    · exact hu.post hps v
    · exact hu.repost hps v
  induction vs generalizing s with
  | nil => exact hpost w h
  | cons v vs ih => exact ih (.inr ⟨v, hpost v h⟩)

/-- The last posts of an event that gives several results: the last of them, between the engine status and event pending words. -/
theorem endsWith_lastResult {b s : State} {code : Byte} {r : ResultCode} {vs : List Word} (hf : statusFields b ≠ statusFields s)
    (hr : s.owed.results = vs ++ [resultWord code r]) (hp : s.owed.pending = true) :
    EndsWith (closePosts b s) [statusPost (closePosts b s), resultPost code r, pendingPost (closePosts b s)] := by
  rw [statusPost_closePosts, pendingPost_closePosts, closePosts]
  have hshape := postMirrors_shape (mirrorsToPost b s) s
  have howed := postMirrors_owed (mirrorsToPost b s) s
  have hevents := postMirrors_events (mirrorsToPost b s) s
  generalize postMirrors (mirrorsToPost b s) s = u at hshape howed hevents
  have hstatus : EndsWith (postStatusIf b u) [statusPost s] := by
    rw [postStatusIf, if_neg (by rwa [statusFields_of_firm (firm_of_shape hshape)]), statusPost, ← statusWord_of_shape hshape]
    exact (endsWith_nil u).post (fun p hp => nomatch hp) _
  have hne : ∀ p ∈ [statusPost s], p.offset ≠ PartWord.offset .result := fun p hp => by
    rw [List.mem_singleton.1 hp]
    exact (by decide : PartWord.offset .engineStatus ≠ PartWord.offset .result)
  have hresults : EndsWith (postResults (postStatusIf b u)) ([statusPost s] ++ [resultPost code r]) := by
    rw [postResults, show (postStatusIf b u).owed.results = vs ++ [resultWord code r] by rw [postStatusIf_owed, howed, ← hr]]
    exact endsWith_lastOf hne vs _ (.inl hstatus)
  have hpend := endsWith_pending hresults fun p hp => by
    rcases List.mem_append.1 hp with h | h
    · rw [List.mem_singleton.1 h]; exact (by decide : PartWord.offset .engineStatus ≠ PartWord.offset .eventPending)
    · rw [List.mem_singleton.1 h]; exact (by decide : PartWord.offset .result ≠ PartWord.offset .eventPending)
  have hword : pendingPosts (postResults (postStatusIf b u)) = [pendingPost s] := by
    rw [pendingPosts, postResults_owed, postStatusIf_owed, howed, hp, pendingPost, pendingWord, postResults_events, postStatusIf_events,
      hevents]
    rfl
  rwa [hword] at hpend

/-- Outside RUNNING and PAUSED an event ends with its posts alone (R183, R184). -/
theorem closeEvent_inactive {u : State} (h : ¬Active u) (b : State) : closeEvent b u = closePosts b u := by
  have hrun : u.engine.state ≠ .running := fun e => h (.inl e)
  have hpause : u.engine.state ≠ .paused := fun e => h (.inr e)
  have hun : settled u = false := by simp [settled, hrun, hpause]
  rw [closeEvent, judgeSettled, if_neg (by rw [hun]; exact Bool.noConfusion), if_neg fun e => hrun e.1]

/-- The commands that STOP ends get their results in the event of STOP (R172). -/
theorem abortResults_results (s : State) : ∃ vs, (stopEffect s).owed.results = vs ++ [resultWord 2 .done] :=
  ⟨_, rfl⟩

theorem isPending_abortResults {e : Event} (he : e ≠ .cmdDone) (s : State) : isPending (abortResults s) e = isPending s e := by
  have hgive (c : Byte) (r : ResultCode) (u : State) : isPending (giveResult c r u) e = isPending u e := by
    rw [isPending_giveResult, beq_false_of_ne he, Bool.false_or]
  unfold abortResults
  simp only
  split <;> split <;> simp only [hgive]

theorem requestSilence_events (s : State) : (requestSilence s).events = s.events := by
  unfold requestSilence
  split <;> rfl

theorem requestSilence_engine (s : State) : (requestSilence s).engine = s.engine := by
  unfold requestSilence
  split <;> rfl

theorem isPending_stopEffect {e : Event} (he : e ≠ .cmdDone) (s : State) : isPending (stopEffect s) e = isPending s e := by
  rw [stopEffect, isPending_giveResult, beq_false_of_ne he, Bool.false_or, ← isPending_abortResults he s]
  exact isPending_congr (by rw [requestSilence_events]; exact congrArg EventUnit.pending (stopStroke_events _)) e

theorem requestSilence_chime (s : State) :
    (s.chime.state = .silent → (requestSilence s).chime = s.chime) ∧
      (s.chime.state ≠ .silent → (requestSilence s).chime = { s.chime with next := .silent }) := by
  unfold requestSilence
  split
  next h => exact ⟨fun _ => rfl, fun hne => absurd h hne⟩
  next h => exact ⟨fun he => (by rw [h] at he; nomatch he), fun _ => rfl⟩
  next h => exact ⟨fun he => (by rw [h] at he; nomatch he), fun _ => rfl⟩

/-- What STOP leaves of the stroke unit (R99, R171). -/
theorem stopStroke_stroke (s : State) :
    (s.stroke.driven = none → (stopStroke s).stroke = s.stroke) ∧
      ∀ d, s.stroke.driven = some d → (stopStroke s).stroke = ⟨none, .idle, .idle,
        if d.phase = .drive then .running 0 (rechargeLength s.engine.copy) else s.stroke.recharge, s.stroke.chargeReady⟩ := by
  unfold stopStroke
  split
  next h => exact ⟨fun _ => rfl, fun d hd => (nomatch h.symm.trans hd)⟩
  next d hd =>
    refine ⟨fun h => (nomatch hd.symm.trans h), fun d' hd' => ?_⟩
    cases hd.symm.trans hd'
    obtain ⟨hframe, hstroke⟩ := Prod.mk.inj (foldl_frame (fun s m => congrArg State.body (abortMember_eq m s)) d.members s)
    have hengine : (d.members.foldl (fun s m => abortMember m s) s).engine = s.engine :=
      foldl_keeps State.engine (fun u m => by rw [abortMember_eq]; rfl) d.members s
    simp only
    split <;> simp only [startRecharge, setStroke_stroke, setStroke_engine, hengine, hstroke] <;> rfl

/-- The members of a driven stroke are aborted, and the other records stay as they are (R98, R99, R171). -/
theorem stopStroke_seg {s : State} (hdriven : ∀ d, s.stroke.driven = some d →
    (d.members.map Member.seg).Nodup ∧ ∀ m ∈ d.members, (s.seg m.seg).state = d.phase.memberState) :
    (∀ d, s.stroke.driven = some d → ∀ m ∈ d.members, (stopStroke s).seg m.seg = abortRecord s m) ∧
      ∀ k, (s.seg k).state ≠ .moving → (s.seg k).state ≠ .verifying → (stopStroke s).seg k = s.seg k := by
  unfold stopStroke
  split
  next h => exact ⟨fun d hd => (nomatch h.symm.trans hd), fun k _ _ => rfl⟩
  next d hd =>
    obtain ⟨hnodup, hstate⟩ := hdriven d hd
    have hseg (k : SegNo) : (d.members.foldl (fun s m => abortMember m s) s).seg k = (membersEnded (abortRecord s) d.members s).seg k :=
      seg_of_body (abortMembers_body hnodup s) k
    refine ⟨fun d' hd' m hm => ?_, fun k hmoving hverifying => ?_⟩
    · cases hd.symm.trans hd'
      rw [← membersEnded_member (rec := abortRecord s) (s := s) hnodup hm, ← hseg]
      simp only
      split <;> rfl
    · have hk : k ∉ d.members.map Member.seg := fun hk => by
        obtain ⟨m, hm, rfl⟩ := List.mem_map.1 hk
        rcases memberState_of_phase d.phase with h | h
        · exact hmoving ((hstate m hm).trans h)
        · exact hverifying ((hstate m hm).trans h)
      rw [← membersEnded_other (rec := abortRecord s) (s := s) hk, ← hseg]
      simp only
      split <;> rfl

theorem stopEffect_seg (s : State) (k : SegNo) : (stopEffect s).seg k = ((stopStroke (abortResults s)).seg k).stopped := by
  simp [stopEffect, State.seg]

theorem ended_unsure (r : Segment) : r.ended .unsure = if r.discardAfter then forgottenAs r .unsure else { r with state := .unsure } := by
  unfold Segment.ended
  split <;> rfl

theorem stopped_aborted (r : Segment) (m : PinSet) : ((r.unknow m).ended .unsure).stopped =
    if r.discardAfter then forgottenAs r .unsure else unknownPins r m .unsure := by
  have hsame : (r.unknow m).discardAfter = r.discardAfter := rfl
  rw [ended_unsure, hsame]
  split <;> rfl

theorem stopStroke_conv (s : State) : (stopStroke s).conv = s.conv := by
  unfold stopStroke
  split
  next => rfl
  next d hd =>
    have hmembers : (d.members.foldl (fun s m => abortMember m s) s).conv = s.conv :=
      foldl_keeps State.conv (fun u m => by rw [abortMember_eq]; rfl) d.members s
    simp only
    split <;> exact hmembers

/-- Settles O27: the effects of STOP on every block, and the posts that end its event. -/
theorem stopTaken : Obligations.StopTaken := by
  unfold Obligations.StopTaken
  intro c s ⟨hwf, hposts, howes⟩ ⟨_, hdriven, _⟩ hoff
  let b := storeArea commandOffset (c.toHost 2) s
  have hstate : (stopEffect b).engine.state = .off := by simp [stopEffect]
  have hu : ¬Active (stopEffect b) := fun h => by simp [Active, hstate] at h
  have hshape : (abortResults b).shape = b.shape := abortResults_shape b
  have hstroke : (abortResults b).stroke = s.stroke := congrArg Shape.stroke hshape
  have hsegs (k : SegNo) : (abortResults b).seg k = s.seg k := congrArg (fun v : Vector Segment 96 => v[k]) (congrArg Shape.segs hshape)
  have hengine : (abortResults b).engine = s.engine := congrArg Shape.engine hshape
  obtain ⟨hundriven, hstopped⟩ := stopStroke_stroke (abortResults b)
  obtain ⟨hmembers, hrest⟩ := stopStroke_seg (s := abortResults b) fun d hd => by
    obtain ⟨hnodup, hstates, -⟩ := hdriven d (hstroke ▸ hd)
    exact ⟨hnodup, fun m hm => by rw [hsegs, hstates m hm]⟩
  simp only [hstroke, hsegs, hengine] at hundriven hstopped hmembers hrest
  have hrecord (k : SegNo) : (closePosts b (stopEffect b)).seg k = ((stopStroke (abortResults b)).seg k).stopped := by
    rw [closePosts_seg, stopEffect_seg]
  have hchime : (closePosts b (stopEffect b)).chime = (requestSilence s).chime := by
    have hsame : (stopStroke (abortResults b)).chime = s.chime := (stopStroke_chime _).trans (congrArg Shape.chime hshape)
    rw [closePosts_chime, stopEffect, giveResult_chime, requestSilence, requestSilence]
    simp only [hsame]
    split <;> simp only [setChime]
  have hsilence := requestSilence_chime s
  refine ⟨closePosts b (stopEffect b), ?run, storedOnly_of_mem hwf ?mem, ?engine, ?conv, ?asm, ?entries, ?mark, ?claims, ?touch, ?undriven,
    ?driven, ?segs, ?members, ?gate, ?pins, ?pending, ?producer, ?consumer, ?argument, ?enable, ?strap, ?quiet, ?sounding, ?done,
    ?others, ?posts⟩
  case run =>
    refine congrArg Host.Outcome.next ((takeWrite_eq hposts 2 c takeStop).trans ?_)
    exact (if_neg (by rw [isOff_eq_false (s := b) hoff]; exact Bool.noConfusion)).trans (closeEvent_inactive hu b)
  case mem =>
    simp only [closePosts_mem, stopEffect, giveResult_mem, requestSilence_mem, stopStroke_mem]
    exact congrArg Shape.mem hshape
  case engine =>
    simp only [closePosts_engine, stopEffect, giveResult_engine, requestSilence_engine, stopStroke_engine, hengine]
  case conv =>
    simp only [closePosts_conv, stopEffect, giveResult_conv, requestSilence_conv, stopStroke_conv]
    exact congrArg (fun c : Converter => { c with state := .off, job := none, sense := none }) (congrArg Shape.conv hshape)
  case asm => simp [stopEffect]
  case entries => simp [stopEffect, Queue.empty, Queue.entries]
  case mark => simp [stopEffect, Queue.empty]
  case claims =>
    simp only [closePosts_claims, stopEffect, giveResult_claims, requestSilence_claims]
    rfl
  case touch =>
    simp only [closePosts_touch, stopEffect, giveResult_touch, requestSilence_touch]
    rfl
  case undriven =>
    intro h
    simp only [closePosts_stroke, stopEffect, giveResult_stroke, requestSilence_stroke]
    exact hundriven h
  case driven =>
    intro d hd
    simp only [closePosts_stroke, stopEffect, giveResult_stroke, requestSilence_stroke]
    exact hstopped d hd
  case segs =>
    intro i
    have hkept (hm : (s.seg i).state ≠ .moving) (hv : (s.seg i).state ≠ .verifying) :
        (closePosts b (stopEffect b)).seg i = (s.seg i).stopped := by rw [hrecord, hrest i hm hv]
    refine ⟨fun h => ?_, fun h => ?_, fun h => ?_⟩
    · rcases h with h | h | h | h <;> rw [hkept (by simp [h]) (by simp [h]), Segment.stopped, h]
    · rcases h with h | h <;> rw [hkept (by simp [h]) (by simp [h]), Segment.stopped, h]
    · rw [hkept (by simp [h]) (by simp [h]), Segment.stopped, h]
      exact ended_unsure _
  case members =>
    intro d hd m hm
    rw [hrecord, hmembers d hd m hm, abortRecord, hsegs, stopped_aborted]
  case gate =>
    simp only [closePosts_gate, stopEffect, giveResult_gate, requestSilence_gate, stopStroke_gate]
    exact congrArg Shape.gate hshape
  case pins =>
    simp only [closePosts_pins, stopEffect, giveResult_pins, requestSilence_pins, stopStroke_pins]
    exact congrArg Shape.pins hshape
  case pending =>
    simp only [closePosts_pending, stopEffect, giveResult_pending, requestSilence_pending, stopStroke_pending]
    exact congrArg Shape.pending hshape
  case producer =>
    rw [closePosts_events]
    simp only [stopEffect, giveResult_events, requestSilence_events, stopStroke_events]
    exact congrArg Shape.producer hshape
  case consumer =>
    rw [closePosts_events]
    simp only [stopEffect, giveResult_events, requestSilence_events, stopStroke_events]
    exact congrArg Shape.consumer hshape
  case argument =>
    simp only [closePosts_bus_argument, stopEffect, giveResult_bus, requestSilence_bus, stopStroke_bus]
    exact congrArg Shape.argument hshape
  case enable =>
    simp only [closePosts_bus_enable, stopEffect, giveResult_bus, requestSilence_bus, stopStroke_bus]
    exact congrArg Shape.enable hshape
  case strap =>
    simp only [closePosts_bus_strap, stopEffect, giveResult_bus, requestSilence_bus, stopStroke_bus]
    exact congrArg Shape.strap hshape
  case quiet =>
    intro h
    rw [hchime]
    exact hsilence.1 h
  case sounding =>
    intro h
    rw [hchime]
    exact hsilence.2 h
  case done =>
    rw [isPending_closePosts, stopEffect, isPending_giveResult]
    rfl
  case others =>
    intro e he
    rw [isPending_closePosts, isPending_stopEffect he]
    rfl
  case posts =>
    obtain ⟨vs, hvs⟩ := abortResults_results b
    refine endsWith_lastResult (fun h => ?_) hvs rfl
    have hcode : b.engine.state.code = EngineState.off.code := by
      rw [← hstate]
      exact (List.cons.inj h).1
    cases hb : b.engine.state <;> rw [hb] at hcode <;> simp [EngineState.code] at hcode
    exact hoff hb

end Sys2Proof.Machine

/-! ### The end of an event at Engine Control (R183, R184) -/

namespace Sys2Proof.Machine

theorem settled_of_firm {s t : State} (h : t.firm = s.firm) : settled t = settled s := by
  have hstate : t.engine.state = s.engine.state := congrArg Firm.engineState h
  have hqueue : t.queue = s.queue := congrArg Firm.queue h
  have hasm : t.asm = s.asm := congrArg Firm.asm h
  have hstroke : t.stroke = s.stroke := congrArg Firm.stroke h
  have hconv : t.conv = s.conv := congrArg Firm.conv h
  simp only [settled, hstate, hqueue, hasm, hstroke, hconv]

/-- The page is settled after an event's end as before it: only Engine Control and the Chime are told. -/
theorem settled_ended (k : Bool) (b u : State) : settled (closePosts b (judgeSettled k b u)) = settled u :=
  (settled_of_firm (firm_of_shape (closePosts_shape _ _))).trans (settled_of_firm (judgeSettled_firm k b u))

/-! #### The cases of the judging -/

theorem judgeSettled_settles {k : Bool} {b u : State} (hu : settled u = true) (h : settled b = false ∨ k = true) :
    judgeSettled k b u = pageSettles u := by
  rw [judgeSettled, if_pos hu, if_pos]
  rcases h with h | h <;> simp [h]

theorem judgeSettled_stays {b u : State} (hu : settled u = true) (h : settled b = true) : judgeSettled false b u = u := by
  rw [judgeSettled, if_pos hu, if_neg (by simp [h])]

theorem judgeSettled_unsettles {k : Bool} {b u : State} (hu : settled u = false) (hr : u.engine.state = .running)
    (h : settled b = true ∨ b.engine.state ≠ .running) : judgeSettled k b u = startLag u := by
  rw [judgeSettled, if_neg (by rw [hu]; exact Bool.noConfusion), if_pos ⟨hr, h⟩]

theorem judgeSettled_unsettled {k : Bool} {b u : State} (hu : settled u = false)
    (h : ¬(u.engine.state = .running ∧ (settled b = true ∨ b.engine.state ≠ .running))) : judgeSettled k b u = u := by
  rw [judgeSettled, if_neg (by rw [hu]; exact Bool.noConfusion), if_neg h]

/-! #### The page that becomes settled -/

theorem requestPageTone_engine (s : State) : (requestPageTone s).engine = s.engine := by
  unfold requestPageTone
  split
  · split <;> rfl
  · rfl

theorem requestPageTone_chime (s : State) : (requestPageTone s).chime =
    if chimeEnabled s.engine.copy = true ∧ s.chime.state = .silent then ⟨.page, some (pageTone s.engine.copy), .running 0 150, .none⟩
    else s.chime := by
  unfold requestPageTone
  cases chimeEnabled s.engine.copy <;> cases h : s.chime.state <;> rfl

theorem pageSettles_asked {s : State} (h : s.engine.showPending = true) : pageSettles s = clearLag (requestPageTone
    { raise .pageDone s with engine := { s.engine with showPending := false } }) :=
  congrArg clearLag (if_pos h)

theorem pageSettles_unasked {s : State} (h : s.engine.showPending = false) : pageSettles s = clearLag (raise .pageDone s) :=
  congrArg clearLag (if_neg (Bool.eq_false_iff.1 h))

theorem pageSettles_engine (s : State) :
    (pageSettles s).engine = { s.engine with showPending := false, lag := none, lagWarned := false } := by
  cases h : s.engine.showPending with
  | true => rw [pageSettles_asked h, clearLag_engine, requestPageTone_engine]
  | false => rw [pageSettles_unasked h, clearLag_engine, raise_engine, ← h]

theorem isPending_pageSettles (s : State) : isPending (pageSettles s) .pageDone = true := by
  have hraised : isPending (raise .pageDone s) .pageDone = true := by rw [isPending_raise]; rfl
  rw [← hraised]
  refine isPending_congr ?_ _
  cases h : s.engine.showPending with
  | true => rw [pageSettles_asked h, clearLag_events, requestPageTone_events]
  | false => rw [pageSettles_unasked h, clearLag_events]

theorem pageSettles_chime (s : State) : (pageSettles s).chime =
    if s.engine.showPending = true ∧ chimeEnabled s.engine.copy = true ∧ s.chime.state = .silent
    then ⟨.page, some (pageTone s.engine.copy), .running 0 150, .none⟩ else s.chime := by
  cases h : s.engine.showPending with
  | true =>
    rw [pageSettles_asked h, clearLag_chime, requestPageTone_chime]
    simp only [true_and]
    rfl
  | false =>
    rw [pageSettles_unasked h, if_neg fun h => (nomatch h.1)]
    rfl

/-- Engine Control has judged the page over an event whose own effects leave the engine and the Chime (R183, R184). -/
theorem pageJudged_closeEvent {s b u : State} (hengine : u.engine = s.engine) (hchime : u.chime = s.chime)
    (hpage : isPending u .pageDone = isPending s .pageDone) (hb : settled b = settled s) (hstate : b.engine.state = s.engine.state) :
    PageJudged s (closeEvent b u) := by
  have hsettled : settled (closeEvent b u) = settled u := settled_ended false b u
  have hend : (closeEvent b u).engine = (judgeSettled false b u).engine := closePosts_engine _ _
  have hendChime : (closeEvent b u).chime = (judgeSettled false b u).chime := closePosts_chime _ _
  have hendPage : isPending (closeEvent b u) .pageDone = isPending (judgeSettled false b u) .pageDone := isPending_closePosts _ _ _
  rw [PageJudged, hsettled, hend, hendChime, hendPage]
  cases hu : settled u with
  | true =>
    cases hs : settled s with
    | true =>
      rw [judgeSettled_stays hu (hb.trans hs), hengine, hchime, hpage]
      exact ⟨rfl, fun h => (nomatch h), fun _ => ⟨rfl, rfl, rfl⟩, fun _ h => (nomatch h), fun _ => ⟨rfl, rfl⟩⟩
    | false =>
      rw [judgeSettled_settles hu (.inl (hb.trans hs)), pageSettles_engine, pageSettles_chime, isPending_pageSettles, hengine, hchime]
      refine ⟨rfl, fun _ _ => ⟨rfl, rfl, rfl, rfl, rfl⟩, fun h => ?_, fun h => (nomatch h), fun h => ?_⟩
      · rcases h with h | h <;> nomatch h
      · rcases h with h | h
        · nomatch h
        · nomatch h.1
  | false =>
    by_cases hlag : u.engine.state = .running ∧ (settled b = true ∨ b.engine.state ≠ .running)
    · obtain ⟨hrun, hbefore⟩ := hlag
      have hs : settled s = true := by
        rw [← hb]
        exact hbefore.resolve_right fun h => h (hstate.trans (hengine ▸ hrun))
      rw [judgeSettled_unsettles hu hrun hbefore, startLag_engine, startLag_chime, hengine, hchime, hs]
      refine ⟨rfl, fun h => (nomatch h), fun _ => ⟨hpage, rfl, rfl⟩, fun _ _ _ => ⟨rfl, rfl⟩, fun h => ?_⟩
      rcases h with h | h
      · nomatch h
      · exact absurd (hengine ▸ hrun) h.2
    · rw [judgeSettled_unsettled hu hlag, hengine, hchime, hpage]
      refine ⟨rfl, fun _ h => (nomatch h), fun _ => ⟨rfl, rfl, rfl⟩, fun hs _ hrun => ?_, fun _ => ⟨rfl, rfl⟩⟩
      exact absurd ⟨hengine ▸ hrun, .inl (hb.trans hs)⟩ hlag

/-! #### A command taken with its result -/

/-- An event's end raises PAGE_DONE at most (R183). -/
theorem isPending_ended {f : Event} (hf : f ≠ .pageDone) (k : Bool) (b u : State) :
    isPending (closePosts b (judgeSettled k b u)) f = isPending u f := by
  rw [isPending_closePosts]
  rcases judgeSettled_raises k b u with h | h
  · exact isPending_congr h f
  · have hbit : Event.pageDone.mask.getLsbD f.bit = false := by
      revert hf
      cases f <;> simp <;> decide
    simp [isPending, h, hbit]

theorem isPending_ended_mono {f : Event} (k : Bool) (b : State) {u : State} (h : isPending u f = true) :
    isPending (closePosts b (judgeSettled k b u)) f = true := by
  rw [isPending_closePosts]
  rcases judgeSettled_raises k b u with e | e
  · rwa [isPending_congr e f]
  · simp only [isPending] at h
    simp [isPending, e, h]

section
variable {s u : State} {code : Byte} {r : ResultCode} (hres : u.owed.results = []) (k : Bool) (b : State)
include hres

theorem results_given : (judgeSettled k b (giveResult code r u)).owed.results = [resultWord code r] := by
  rw [judgeSettled_results, giveResult_owed, hres, List.nil_append]

/-- The posts that end an event with a result (R161, R164). -/
theorem endsWith_given : EndsWith (closePosts b (judgeSettled k b (giveResult code r u)))
    (statusPosts b (judgeSettled k b (giveResult code r u)) ++
      [resultPost code r, pendingPost (closePosts b (judgeSettled k b (giveResult code r u)))]) := by
  have hresults := results_given (code := code) (r := r) hres k b
  have hpending : (judgeSettled k b (giveResult code r u)).owed.pending = true := judgeSettled_owesPending rfl k b
  rw [pendingPost_closePosts]
  have hends := endsWith_closePosts (b := b) (s := judgeSettled k b (giveResult code r u)) (by rw [hresults]; exact Nat.le_refl 1)
  rw [resultPosts, hresults, pendingPosts, hpending, List.append_assoc] at hends
  exact hends

/-- An event that changes a status field posts the engine status word before its result. -/
theorem endsWith_statusGiven (hf : statusFields b ≠ statusFields u) : EndsWith (closePosts b (judgeSettled k b (giveResult code r u)))
    [statusPost (closePosts b (judgeSettled k b (giveResult code r u))), resultPost code r,
      pendingPost (closePosts b (judgeSettled k b (giveResult code r u)))] := by
  have hfields : statusFields (judgeSettled k b (giveResult code r u)) = statusFields u :=
    statusFields_of_firm (judgeSettled_firm k b _)
  have hends := endsWith_given (code := code) (r := r) hres k b
  rwa [statusPosts, if_neg (by rwa [hfields]), ← statusPost_closePosts b] at hends

end

/-- A command whose own effects leave the blocks that work leaves alone, the engine's fields but the copy excepted, is taken with its result
at the end of its event (R164). -/
theorem takenWith_ended {s u : State} (hbus : BusLawful s) {code : Byte} {c : CommandWrite} {r : ResultCode} {e : Engine}
    (hcopy : e.copy = s.engine.copy) (hu : u.still = { storeArea commandOffset (c.toHost code) s with engine := e }.still) (k : Bool)
    (b : State) : TakenWith s (closePosts b (judgeSettled k b (giveResult code r u))) code c r := by
  obtain ⟨hwf, -, howes⟩ := hbus
  have hmem : u.mem = (storeArea commandOffset (c.toHost code) s).mem := congrArg Still.mem hu
  have hevents : u.events = s.events := congrArg Still.events hu
  have hport : u.bus = (storeArea commandOffset (c.toHost code) s).bus := congrArg Still.bus hu
  have hengine : u.engine = e := congrArg Still.engine hu
  have hresults : u.owed.results = [] := (congrArg Still.results hu).trans (owes_results (s := s) howes)
  refine ⟨storedOnly_of_mem hwf ?mem, ⟨?done, ?ends⟩, ⟨?gate, ?touch, ?claims, ?copy, ?strap, ?argument, ?enable, ?read, ?producer, ?consumer,
    ?pins, ?pending⟩, ?others⟩
  case mem => rw [closePosts_mem, judgeSettled_mem, giveResult_mem, hmem]; rfl
  case done => exact isPending_ended_mono k b (by rw [isPending_giveResult]; rfl)
  case ends =>
    exact (endsWith_given hresults k b).tail
  case gate => rw [closePosts_gate, judgeSettled_gate, giveResult_gate]; exact congrArg Still.gate hu
  case touch => rw [closePosts_touch, judgeSettled_touch, giveResult_touch]; exact congrArg Still.touch hu
  case claims => rw [closePosts_claims, judgeSettled_claims, giveResult_claims]; exact congrArg Still.claims hu
  case copy => rw [closePosts_engine, judgeSettled_engine_copy, giveResult_engine, hengine, hcopy]
  case strap => rw [closePosts_bus_strap, judgeSettled_bus_strap, giveResult_bus, hport]; rfl
  case argument => rw [closePosts_bus_argument, judgeSettled_bus_argument, giveResult_bus, hport]; rfl
  case enable => rw [closePosts_bus_enable, judgeSettled_bus_enable, giveResult_bus, hport]; rfl
  case read => rw [closePosts_bus_hostRead, judgeSettled_bus_hostRead, giveResult_bus, hport]; rfl
  case producer => rw [closePosts_producer, judgeSettled_producer, giveResult_events, hevents]
  case consumer => rw [closePosts_consumer, judgeSettled_consumer, giveResult_events, hevents]
  case pins => rw [closePosts_pins, judgeSettled_pins, giveResult_pins]; exact congrArg Still.pins hu
  case pending => rw [closePosts_pending, judgeSettled_pending, giveResult_pending]; exact congrArg Still.pending hu
  case others =>
    intro f hdone hpage
    rw [isPending_ended hpage, isPending_giveResult, beq_false_of_ne hdone, Bool.false_or]
    exact isPending_congr (by rw [hevents]) f

end Sys2Proof.Machine

/-! ### HOLD (R177) -/

namespace Sys2Proof.Machine

theorem mapSegs_seg_other (f : Segment → Segment) {is : List SegNo} {k : SegNo} (hk : k ∉ is) (s : State) :
    (mapSegs f is s).seg k = s.seg k := by
  induction is generalizing s with
  | nil => rfl
  | cons i is ih =>
    obtain ⟨hne, hrest⟩ := not_or.1 (mt List.mem_cons.2 hk)
    exact (ih hrest (setSeg i (f (s.seg i)) s)).trans (seg_setSeg_other hne _ _)

theorem mapSegs_seg (f : Segment → Segment) {is : List SegNo} (hn : is.Nodup) (s : State) (k : SegNo) :
    (mapSegs f is s).seg k = if k ∈ is then f (s.seg k) else s.seg k := by
  induction is generalizing s with
  | nil => rfl
  | cons i is ih =>
    obtain ⟨hi, hrest⟩ := List.nodup_cons.1 hn
    by_cases hk : k = i
    · subst hk
      rw [if_pos List.mem_cons_self]
      exact (mapSegs_seg_other f hi (setSeg k (f (s.seg k)) s)).trans (seg_setSeg_self _ _ _)
    · refine (ih hrest (setSeg i (f (s.seg i)) s)).trans ?_
      rw [seg_setSeg_other hk]
      simp only [List.mem_cons, hk, false_or]

theorem nodup_argRange (a : Word) : (argRange a).Nodup := (pairwise_lt_argRange a).imp fun h => Fin.ne_of_lt h

theorem mapSegs_argRange (f : Segment → Segment) (a : Word) (s : State) (k : SegNo) :
    (mapSegs f (argRange a) s).seg k = if Covered a k then f (s.seg k) else s.seg k := by
  rw [mapSegs_seg f (nodup_argRange a)]
  simp only [mem_argRange]

/-- A range command taken on a good range, from the state with its word stored (R163). -/
theorem exec_range {s : State} (hbus : BusLawful s) (hs : Active s) (hr : GoodRange s.bus.argument) {i : Instr} {code : Byte}
    {c : CommandWrite} {act : List SegNo → State → State} (hexec : exec i s = .next (takeWrite code c (rangeCommand code act) s)) :
    exec i s = .next (act (argRange s.bus.argument) (storeArea commandOffset (c.toHost code) s)) := by
  rw [hexec, takeWrite_eq hbus.2.1]
  exact congrArg Host.Outcome.next (rangeCommand_taken (s := storeArea commandOffset (c.toHost code) s) hs hr code act)

/-- Settles O30: the records of the range are held and leave the queue, and nothing else of the work changes. -/
theorem holdTaken : Obligations.HoldTaken := by
  unfold Obligations.HoldTaken
  intro c s hbus hs hr
  let b := storeArea commandOffset (c.toHost 6) s
  let is := argRange s.bus.argument
  let u := holdEffect is b
  have hstill : u.still = b.still := (syncTail_still _ _).trans (mapSegs_still _ _ _)
  have hseg (i : SegNo) : u.seg i = if Covered s.bus.argument i then { s.seg i with held := true } else s.seg i :=
    (syncTail_seg _ _ _).trans (mapSegs_argRange (fun r => { r with held := true }) s.bus.argument b i)
  refine ⟨closeEvent b (giveResult 6 .done u), exec_range (act := holdRange) hbus hs hr rfl,
    takenWith_ended hbus rfl (e := s.engine) hstill false b, pageJudged_closeEvent ?engine ?chime ?page rfl rfl, ?held, ?others, ?entries,
    ?asm, ?stroke, ?conv⟩
  case engine => exact congrArg Still.engine hstill
  case chime => exact congrArg Still.chime hstill
  case page =>
    rw [isPending_giveResult]
    exact isPending_congr (congrArg EventUnit.pending (congrArg Still.events hstill)) _
  case held =>
    intro i hi
    rw [closeEvent_seg, giveResult_seg, hseg, if_pos hi]
  case others =>
    intro i hi
    rw [closeEvent_seg, giveResult_seg, hseg, if_neg hi]
  case entries =>
    rw [closeEvent_queue, giveResult_queue]
    refine (syncTail_leaves fun i hi => ?_).trans ?_
    · rw [mapSegs_argRange, if_pos (mem_argRange.1 hi)]
      simp [queueable]
    · rw [mapSegs_queue]
      simp only [is, mem_argRange]
      rfl
  case asm => rw [closeEvent_asm, giveResult_asm]; exact (syncTail_asm _ _).trans (mapSegs_asm _ _ _)
  case stroke => rw [closeEvent_stroke, giveResult_stroke]; exact (syncTail_stroke _ _).trans (mapSegs_stroke _ _ _)
  case conv => rw [closeEvent_conv, giveResult_conv]; exact (syncTail_conv _ _).trans (mapSegs_conv _ _ _)

end Sys2Proof.Machine

/-! ### The descriptor reads of START (R9, R166, R167) -/

namespace Sys2Proof.Machine

theorem descriptorReadEnds_reading {s : State} {ws : List Word} (hstate : s.engine.state = .loading) (hreading : s.engine.reading = some ws) :
    descriptorReadEnds s =
      descriptorTakes ws (s.mem.word (areaBase s + descriptorOffset + 2 * ws.length)) (servedPart .read s) := by
  rw [descriptorReadEnds, hstate, hreading]

theorem descriptorReadEnds_abandoned {s : State} (h : s.engine.state ≠ .loading ∨ s.engine.reading = none) :
    descriptorReadEnds s = abandonedRead s := by
  unfold descriptorReadEnds
  split
  next hstate hws =>
    rcases h with h | h
    · exact absurd hstate h
    · nomatch hws.symm.trans h
  next => rfl

theorem descriptorTakes_more {ws : List Word} (h : ws.length < 15) (w : Word) (s : State) :
    descriptorTakes ws w s = { s with engine := { s.engine with reading := some (ws ++ [w]) } } :=
  if_pos (by rw [List.length_append, List.length_singleton]; omega)

theorem descriptorTakes_last {ws : List Word} (h : ws.length = 15) (w : Word) (s : State) :
    descriptorTakes ws w s = judgeDescriptor (ws ++ [w]) s :=
  if_neg (by rw [List.length_append, List.length_singleton, h]; decide)

theorem badDescriptor_frame (off : Nat) (s : State) : badDescriptor off s = { s with
    bus := { s.bus with posts := postTo s.bus.posts ⟨PartWord.offset .descriptorDetail, BitVec.ofNat 16 off⟩ }
    engine := { s.engine with state := .off, startOut := false, reading := none }
    conv := { s.conv with state := .off }
    claims := ClaimTable.stopped
    events := { s.events with pending := s.events.pending ||| Event.cmdDone.mask }
    owed := { s.owed with results := s.owed.results ++ [resultWord 1 .badDesc], pending := true } } := rfl

/-- The last read of a descriptor with a bad byte: START ends in OFF, with the byte's offset, the result and CMD_DONE (R167). -/
theorem badDescriptor_taken {s : State} (hbus : BusLawful s) (hstate : s.engine.state = .loading) (off : Nat) :
    let t := closeEvent s (badDescriptor off s)
    t = { s with
      bus := { s.bus with posts := t.bus.posts }
      engine := { s.engine with state := .off, startOut := false, reading := none }
      conv := { s.conv with state := .off }
      claims := ⟨false, Vector.replicate 24 ⟨.free, none, false⟩⟩
      events := { s.events with pending := t.events.pending } } ∧
    isPending t .cmdDone = true ∧ (∀ e, e ≠ .cmdDone → isPending t e = isPending s e) ∧
    EndsWith t [⟨PartWord.offset .descriptorDetail, BitVec.ofNat 16 off⟩, statusPost t, resultPost 1 .badDesc, pendingPost t] := by
  obtain ⟨-, -, howes⟩ := hbus
  intro t
  have ht : t = closePosts s (badDescriptor off s) := closeEvent_inactive (fun h => (by rcases h with h | h <;> nomatch h)) s
  have hpend (e : Event) : isPending t e = (e == .cmdDone || isPending s e) := by
    rw [ht, isPending_closePosts]
    exact isPending_giveResult _ _ _ _
  refine ⟨?frame, by rw [hpend]; rfl, fun e he => by rw [hpend, beq_false_of_ne he]; rfl, ?posts⟩
  case frame =>
    rw [ht, closePosts_events]
    exact closePosts_owes howes ..
  case posts =>
    rw [ht]
    have hdetail : EndsWith (badDescriptor off s) [⟨PartWord.offset .descriptorDetail, BitVec.ofNat 16 off⟩] := ⟨_, rfl⟩
    refine endsWith_after (b := s) (code := 1) (r := .badDesc) hdetail (fun p hp => ?_) (mirrorChanged_of_same rfl rfl) (owes_mirrors (s := s) howes) (fun h => ?_) ?_ rfl
    · rw [List.mem_singleton.1 hp]
      exact (by decide : PartWord.offset .descriptorDetail ≠ PartWord.offset .engineStatus ∧
        PartWord.offset .descriptorDetail ≠ PartWord.offset .result ∧ PartWord.offset .descriptorDetail ≠ PartWord.offset .eventPending)
    · have hcode : s.engine.state.code = EngineState.off.code := (List.cons.inj h).1
      rw [hstate] at hcode
      exact absurd hcode (by decide)
    · rw [badDescriptor_frame, owes_results (s := s) howes]
      rfl

/-- Settles O37: the reads before the last, the last one of a descriptor with a bad byte, and the end of an abandoned read. -/
theorem descriptorReads : Obligations.DescriptorReads := by
  unfold Obligations.DescriptorReads
  refine ⟨fun s ws hstate hreading hlen => ?more, fun s ws off hbus hstate hreading hlen hbad => ?last, fun s hab h => ?abandoned⟩
  case more =>
    refine congrArg Host.Outcome.next ((descriptorReadEnds_reading hstate hreading).trans ?_)
    rw [descriptorTakes_more hlen]
    rfl
  case last =>
    have hrun : descriptorReadEnds s = closeEvent (servedPart .read s) (badDescriptor off (servedPart .read s)) := by
      rw [descriptorReadEnds_reading hstate hreading, descriptorTakes_last hlen, hlen, judgeDescriptor]
      have hoff : firstBadOffset (descriptorOf (ws ++ [s.mem.word (areaBase s + descriptorOffset + 2 * 15)])) = some off := hbad
      rw [hoff]
    exact ⟨_, congrArg Host.Outcome.next hrun, badDescriptor_taken (s := servedPart .read s) hbus hstate off⟩
  case abandoned =>
    refine congrArg Host.Outcome.next ((descriptorReadEnds_abandoned h).trans ?_)
    rw [abandonedRead, hab]
    rfl

end Sys2Proof.Machine

/-! ### The reads of a capture (R15, R34, R66) -/

namespace Sys2Proof.Machine

/-! #### Words that an event's end leaves posted -/

theorem Posted.postMirrors {s : State} {off : Nat} {v : Word} (h : Posted s off v) (ho : ∀ i, off ≠ PartWord.offset (.mirror i))
    (is : List SegNo) : Posted (Machine.postMirrors is s) off v := by
  show Posted (is.foldl (fun s i => Machine.post (PartWord.offset (.mirror i)) (mirrorWord s.engine.shown (s.seg i)) s) s) _ _
  induction is generalizing s with
  | nil => exact h
  | cons i is ih => exact ih (h.post (ho i) _)

theorem Posted.closePosts {s : State} {off : Nat} {v : Word} (h : Posted s off v) (hmirror : ∀ i, off ≠ PartWord.offset (.mirror i))
    (hstatus : off ≠ PartWord.offset .engineStatus) (hresult : off ≠ PartWord.offset .result)
    (hpending : off ≠ PartWord.offset .eventPending) (b : State) : Posted (Machine.closePosts b s) off v :=
  (((h.postMirrors hmirror _).postStatusIf hstatus b).postResults hresult).postPending hpending

theorem detail_ne_mirror (i : SegNo) : PartWord.offset .parityDetail ≠ PartWord.offset (.mirror i) := by
  simp only [PartWord.offset]
  omega

theorem posted_self (off : Nat) (v : Word) (s : State) : Posted (post off v s) off v :=
  List.mem_append_right _ (List.mem_singleton.2 rfl)

theorem Posted.congr {s t : State} {off : Nat} {v : Word} (h : Posted s off v) (ht : t.bus.posts = s.bus.posts) : Posted t off v := by
  rw [Posted, ht]
  exact h

/-! #### One byte of a read -/

/-- A bad byte of a read: its cell is marked and reported, and PARITY is raised (R15, R34). -/
theorem captureByte_bad (buf : Buffer) (i : SegNo) (k : Fin 10) (s : State) : captureByte buf i k true s =
    raise .parity (post (PartWord.offset .parityDetail) (parityDetail buf (cellOf i k) true) (putSeg .tail i ((s.seg i).mark buf k true) s)) :=
  if_pos rfl

theorem captureByte_good (buf : Buffer) (i : SegNo) (k : Fin 10) (s : State) : captureByte buf i k false s = s := if_neg Bool.noConfusion

/-- What a byte of a read leaves alone. -/
structure ByteRead (s t : State) : Prop where
  mem : t.mem = s.mem
  asm : t.asm = s.asm
  stroke : t.stroke = s.stroke
  gate : t.gate = s.gate
  conv : t.conv = s.conv
  touch : t.touch = s.touch
  claims : t.claims = s.claims
  engine : t.engine = s.engine
  chime : t.chime = s.chime
  pins : t.pins = s.pins
  pending : t.pending = s.pending
  bus : t.bus = { s.bus with posts := t.bus.posts }
  events : t.events = { s.events with pending := t.events.pending }
  mirrors : t.owed.mirrors = s.owed.mirrors
  results : t.owed.results = s.owed.results

theorem ByteRead.refl (s : State) : ByteRead s s := ⟨rfl, rfl, rfl, rfl, rfl, rfl, rfl, rfl, rfl, rfl, rfl, rfl, rfl, rfl, rfl⟩

theorem ByteRead.trans {s t u : State} (h : ByteRead s t) (h' : ByteRead t u) : ByteRead s u where
  mem := h'.mem.trans h.mem
  asm := h'.asm.trans h.asm
  stroke := h'.stroke.trans h.stroke
  gate := h'.gate.trans h.gate
  conv := h'.conv.trans h.conv
  touch := h'.touch.trans h.touch
  claims := h'.claims.trans h.claims
  engine := h'.engine.trans h.engine
  chime := h'.chime.trans h.chime
  pins := h'.pins.trans h.pins
  pending := h'.pending.trans h.pending
  bus := by rw [h'.bus, h.bus]
  events := by rw [h'.events, h.events]
  mirrors := h'.mirrors.trans h.mirrors
  results := h'.results.trans h.results

section
variable {s t : State} (h : ByteRead s t)
include h

theorem ByteRead.strap : t.bus.strap = s.bus.strap := by rw [h.bus]
theorem ByteRead.argument : t.bus.argument = s.bus.argument := by rw [h.bus]
theorem ByteRead.enable : t.bus.enable = s.bus.enable := by rw [h.bus]
theorem ByteRead.hostRead : t.bus.hostRead = s.bus.hostRead := by rw [h.bus]
theorem ByteRead.arbiter : t.bus.arbiter = s.bus.arbiter := by rw [h.bus]
theorem ByteRead.producer : t.events.producer = s.events.producer := by rw [h.events]
theorem ByteRead.consumer : t.events.consumer = s.events.consumer := by rw [h.events]

end

theorem byteRead_captureByte (buf : Buffer) (i : SegNo) (k : Fin 10) (bad : Bool) (s : State) : ByteRead s (captureByte buf i k bad s) := by
  cases bad with
  | false => rw [captureByte_good]; exact .refl s
  | true =>
    rw [captureByte_bad]
    exact ⟨by simp, by simp, by simp, by simp, by simp, by simp, by simp, by simp, by simp, by simp, by simp, by simp [post], by simp, by simp, by simp⟩

theorem captureByte_seg_other (buf : Buffer) {i j : SegNo} (h : j ≠ i) (k : Fin 10) (bad : Bool) (s : State) :
    (captureByte buf i k bad s).seg j = s.seg j := by
  cases bad with
  | false => rw [captureByte_good]
  | true => rw [captureByte_bad, raise_seg, post_seg, putSeg_seg, if_neg h]

theorem captureByte_seg (buf : Buffer) (i : SegNo) (k : Fin 10) (bad : Bool) (s : State) :
    (captureByte buf i k bad s).seg i = if bad then (s.seg i).mark buf k true else s.seg i := by
  cases bad with
  | false => rw [captureByte_good]; rfl
  | true => rw [captureByte_bad, raise_seg, post_seg, putSeg_seg, if_pos rfl, if_pos rfl]

theorem isPending_captureByte (buf : Buffer) (i : SegNo) (k : Fin 10) (bad : Bool) (s : State) (e : Event) :
    isPending (captureByte buf i k bad s) e = (isPending s e || (e == .parity && bad)) := by
  cases bad with
  | false => rw [captureByte_good, Bool.and_false, Bool.or_false]
  | true =>
    rw [captureByte_bad, isPending_raise, Bool.and_true, Bool.or_comm]
    exact congrArg (· || _) (isPending_congr (by simp) e)

/-! #### The two bytes of a read -/

/-- The verdicts on the two bytes of read j of a capture, low byte first (R15, R66). -/
def readBytes (buf : Buffer) (i : SegNo) (j : Nat) (lo hi : Bool) (s : State) : State :=
  captureByte buf i (readCell j 1) hi (captureByte buf i (readCell j 0) lo s)

theorem readCell_val {j h : Nat} (hj : j < 5) (hh : h < 2) : (readCell j h).val = 2 * j + h := Nat.mod_eq_of_lt (by omega)

section
variable (buf : Buffer) (i : SegNo) (j : Nat) (lo hi : Bool) (s : State)

theorem byteRead_readBytes : ByteRead s (readBytes buf i j lo hi s) :=
  (byteRead_captureByte buf i _ lo s).trans (byteRead_captureByte buf i _ hi _)

theorem readBytes_good : readBytes buf i j false false s = s := by rw [readBytes, captureByte_good, captureByte_good]

theorem readBytes_seg_other {k : SegNo} (h : k ≠ i) : (readBytes buf i j lo hi s).seg k = s.seg k := by
  rw [readBytes, captureByte_seg_other buf h, captureByte_seg_other buf h]

theorem isPending_readBytes (e : Event) :
    isPending (readBytes buf i j lo hi s) e = (isPending s e || (e == .parity && (lo || hi))) := by
  rw [readBytes, isPending_captureByte, isPending_captureByte, Bool.or_assoc, ← Bool.and_or_distrib_left]

/-- The marks of the cells of a read's bad bytes, in the mask of the buffer read (R34). -/
theorem mark_readBytes {buf i j} (hj : j < 5) (k : Fin 10) : (maskOf buf ((readBytes buf i j lo hi s).seg i)).getLsbD k.val =
    ((maskOf buf (s.seg i)).getLsbD k.val || (k.val == 2 * j && lo) || (k.val == 2 * j + 1 && hi)) := by
  have hmark (r : Segment) (h : Nat) (hh : h < 2) (bad : Bool) :
      (maskOf buf (if bad then r.mark buf (readCell j h) true else r)).getLsbD k.val =
        ((maskOf buf r).getLsbD k.val || (k.val == 2 * j + h && bad)) := by
    cases bad with
    | false => rw [if_neg Bool.noConfusion, Bool.and_false, Bool.or_false]
    | true =>
      rw [if_pos rfl, maskOf_mark_self, putMark_getLsbD, Bool.and_true]
      simp only [Fin.ext_iff, readCell_val hj hh]
      by_cases hk : k.val = 2 * j + h <;> simp [hk]
  rw [readBytes, captureByte_seg, hmark _ 1 (by omega), captureByte_seg, hmark _ 0 (by omega), Nat.add_zero]

theorem otherMask_readBytes {buf other : Buffer} (h : other ≠ buf) :
    maskOf other ((readBytes buf i j lo hi s).seg i) = maskOf other (s.seg i) := by
  have hmark (r : Segment) (k : Fin 10) (bad : Bool) : maskOf other (if bad then r.mark buf k true else r) = maskOf other r := by
    cases bad with
    | false => rfl
    | true => exact maskOf_mark_other h r k true
  rw [readBytes, captureByte_seg, hmark, captureByte_seg, hmark]

/-- A read changes nothing of its segment's record but the marks. -/
theorem readBytes_seg : (readBytes buf i j lo hi s).seg i = { s.seg i with
    suspectA := ((readBytes buf i j lo hi s).seg i).suspectA, suspectB := ((readBytes buf i j lo hi s).seg i).suspectB } := by
  have hmark (r : Segment) (k : Fin 10) (bad : Bool) : ∃ a b, (if bad then r.mark buf k true else r) = { r with suspectA := a, suspectB := b } := by
    cases bad with
    | false => exact ⟨_, _, rfl⟩
    | true => cases buf <;> exact ⟨_, _, rfl⟩
  rw [readBytes, captureByte_seg, captureByte_seg]
  obtain ⟨a, b, hlow⟩ := hmark (s.seg i) (readCell j 0) lo
  rw [hlow]
  obtain ⟨a, b, hhigh⟩ := hmark { s.seg i with suspectA := a, suspectB := b } (readCell j 1) hi
  rw [hhigh]

end

/-- The parity detail word of a bad byte of a capture read (R15). -/
theorem captureDetail {j h : Nat} (hj : j < 5) (hh : h < 2) (buf : Buffer) (i : SegNo) : parityDetail buf (cellOf i (readCell j h)) true =
    BitVec.ofNat 16 (10 * i.val + 2 * j + h + 0x4000 + if buf = .b then 0x8000 else 0) := by
  have hcell : (cellOf i (readCell j h)).val = 10 * i.val + (2 * j + h) := congrArg (10 * i.val + ·) (readCell_val hj hh)
  rw [parityDetail, hcell]
  refine congrArg (BitVec.ofNat 16) ?_
  cases buf with
  | a =>
    rw [if_neg (by decide), show (Buffer.a == Buffer.b).toNat = 0 from rfl, show true.toNat = 1 from rfl]
    omega
  | b =>
    rw [if_pos rfl, show (Buffer.b == Buffer.b).toNat = 1 from rfl, show true.toNat = 1 from rfl]
    omega

/-- The last bad byte of a read stands in the parity detail word (R15). -/
theorem posted_readBytes {buf : Buffer} {i : SegNo} {j : Nat} (hj : j < 5) (lo hi : Bool) (s : State) {h : Nat}
    (hbad : h = 1 ∧ hi = true ∨ h = 0 ∧ lo = true ∧ hi = false) :
    Posted (readBytes buf i j lo hi s) (PartWord.offset .parityDetail)
      (BitVec.ofNat 16 (10 * i.val + 2 * j + h + 0x4000 + if buf = .b then 0x8000 else 0)) := by
  rcases hbad with ⟨rfl, rfl⟩ | ⟨rfl, rfl, rfl⟩
  · rw [← captureDetail hj (h := 1) (by omega), readBytes, captureByte_bad]
    exact (posted_self _ _ _).congr rfl
  · rw [← captureDetail hj (h := 0) (by omega), readBytes, captureByte_good, captureByte_bad]
    exact (posted_self _ _ _).congr rfl

end Sys2Proof.Machine

/-! ### The reads before the last of a capture (R66) -/

namespace Sys2Proof.Machine

/-- The record of a capture with a read's word and verdicts (R66). -/
def Capture.takes (c : Capture) (w : Word) (lo hi : Bool) : Capture :=
  { c with words := c.words ++ [w], badRead := c.badRead || lo || hi }

/-- A byte of the word that the next read of a capture reads is bad (R66). -/
def badNext (s : State) (buf : Buffer) (cap : Capture) (h : Nat) : Bool :=
  !goodParity (s.mem.byte (areaBase s + captureOffset buf cap.seg cap.words.length + h))
    (s.mem.par (areaBase s + captureOffset buf cap.seg cap.words.length + h))

section
variable {s : State} {a : Assembly} {cap : Capture} {buf : Buffer} (ha : s.asm = some a) (hc : a.capture = some cap)
  (hbuf : cap.buffer = buf.shown)
include ha hc hbuf

theorem captureReadEnds_reading : captureReadEnds s = captureTakes a cap buf
    (s.mem.word (areaBase s + captureOffset buf cap.seg cap.words.length)) (badNext s buf cap 0) (badNext s buf cap 1) (servedPart .read s) := by
  have hread : cap.buffer.buffer = some buf := by rw [hbuf]; cases buf <;> rfl
  rw [captureReadEnds, ha]
  simp only [hc, hread, badNext, Nat.add_zero]

/-- A read before the last leaves the capture under way, with its word. -/
theorem captureReadEnds_more (hlen : cap.words.length < 4) : captureReadEnds s =
    setAsm (some { a with capture := some (cap.takes (s.mem.word (areaBase s + captureOffset buf cap.seg cap.words.length))
        (badNext s buf cap 0) (badNext s buf cap 1)) })
      (readBytes buf cap.seg cap.words.length (badNext s buf cap 0) (badNext s buf cap 1) (servedPart .read s)) := by
  rw [captureReadEnds_reading ha hc hbuf]
  exact if_pos (by rw [List.length_append, List.length_singleton]; omega)

end

theorem captureReadEnds_abandoned {s : State} (h : ∀ a cap, s.asm = some a → a.capture = some cap → cap.buffer = .none) :
    captureReadEnds s = abandonedRead s := by
  unfold captureReadEnds
  split
  next => rfl
  next a ha =>
    split
    next => rfl
    next cap hc =>
      rw [h a cap ha hc]
      rfl

/-- Settles O41: a read before the last, through `readBytes`, and the end of an abandoned read. -/
theorem captureReads : Obligations.CaptureReads := by
  unfold Obligations.CaptureReads
  refine ⟨fun s a cap buf hbus ha hc hbuf hlen => ?more, fun s hbus hab h => ?abandoned⟩
  case abandoned =>
    obtain ⟨-, -, howes⟩ := hbus
    refine congrArg Host.Outcome.next ?_
    have hread : captureReadEnds s = servedPart .read s := by
      rw [captureReadEnds_abandoned h, abandonedRead, hab, if_pos rfl]
    rw [hread]
    exact closeEvent_quiet (s := servedPart .read s) howes rfl rfl (mirrorChanged_of_same rfl rfl) rfl
  case more =>
    obtain ⟨-, -, howes⟩ := hbus
    intro addr bad detail
    have haddr : areaBase s + captureOffset buf cap.seg cap.words.length = addr := rfl
    have hbad (h : Nat) : badNext s buf cap h = bad h := rfl
    have hdetail (h : Nat) : detail h = BitVec.ofNat 16
        (10 * cap.seg.val + 2 * cap.words.length + h + 0x4000 + if buf = .b then 0x8000 else 0) := rfl
    clear_value bad addr detail
    have hj : cap.words.length < 5 := by omega
    let v := servedPart .read s
    let u := readBytes buf cap.seg cap.words.length (bad 0) (bad 1) v
    let o : Assembly := { a with capture := some (cap.takes (s.mem.word addr) (bad 0) (bad 1)) }
    have hu := byteRead_readBytes buf cap.seg cap.words.length (bad 0) (bad 1) v
    have hrun : captureReadEnds s = setAsm (some o) u := by
      rw [captureReadEnds_more ha hc hbuf hlen, haddr, hbad, hbad]
    have hunsettled : settled (setAsm (some o) u) = settled s := by simp [settled, ha]
    have hclose : closeEvent s (captureReadEnds s) = closePosts s (setAsm (some o) u) := by
      rw [hrun]
      exact closeEvent_of_same hunsettled (congrArg Engine.state hu.engine)
    have hseg (k : SegNo) : (closePosts s (setAsm (some o) u)).seg k = u.seg k := by rw [closePosts_seg]; rfl
    have hevent (e : Event) : isPending (closePosts s (setAsm (some o) u)) e = (isPending s e || (e == .parity && (bad 0 || bad 1))) := by
      rw [isPending_closePosts]
      exact isPending_readBytes buf cap.seg cap.words.length (bad 0) (bad 1) v e
    have hposted {h : Nat} (hbad : h = 1 ∧ bad 1 = true ∨ h = 0 ∧ bad 0 = true ∧ bad 1 = false) :
        Posted (closePosts s (setAsm (some o) u)) (PartWord.offset .parityDetail) (detail h) := by
      have hread : Posted u (PartWord.offset .parityDetail) (detail h) := by
        rw [hdetail]
        exact posted_readBytes hj (bad 0) (bad 1) v hbad
      have hset : Posted (setAsm (some o) u) (PartWord.offset .parityDetail) (detail h) := hread
      exact hset.closePosts detail_ne_mirror (by decide) (by decide) (by decide) s
    refine ⟨_, congrArg Host.Outcome.next hclose, ?mem, ⟨?gate, ?touch, ?claims, ?copy, ?strap, ?argument, ?enable, ?read, ?producer,
      ?consumer, ?pins, ?pending⟩, ?stroke, ?conv, ?engine, ?arbiter, ?asm, ?good, fun i hi => ?others, ?record, fun k => ?marks,
      fun other ho => ?otherMask, fun e he => ?events, fun hhigh => ⟨?highEvent, hposted (.inl ⟨rfl, hhigh⟩)⟩,
      fun hlow hhigh => ⟨?lowEvent, hposted (.inr ⟨rfl, hlow, hhigh⟩)⟩⟩
    case mem => exact (closePosts_mem _ _).trans hu.mem
    case gate => exact (closePosts_gate _ _).trans hu.gate
    case touch => exact (closePosts_touch _ _).trans hu.touch
    case claims => exact (closePosts_claims _ _).trans hu.claims
    case copy => exact congrArg Engine.copy ((closePosts_engine _ _).trans hu.engine)
    case strap => exact (closePosts_bus_strap _ _).trans hu.strap
    case argument => exact (closePosts_bus_argument _ _).trans hu.argument
    case enable => exact (closePosts_bus_enable _ _).trans hu.enable
    case read => exact (closePosts_bus_hostRead _ _).trans hu.hostRead
    case producer => exact (closePosts_producer _ _).trans hu.producer
    case consumer => exact (closePosts_consumer _ _).trans hu.consumer
    case pins => exact (closePosts_pins _ _).trans hu.pins
    case pending => exact (closePosts_pending _ _).trans hu.pending
    case stroke => exact (closePosts_stroke _ _).trans hu.stroke
    case conv => exact (closePosts_conv _ _).trans hu.conv
    case engine => exact (closePosts_engine _ _).trans hu.engine
    case arbiter => exact (closePosts_bus_arbiter _ _).trans hu.arbiter
    case asm => exact closePosts_asm _ _
    case good =>
      intro hlow hhigh
      have hread : u = v := by
        show readBytes buf cap.seg cap.words.length (bad 0) (bad 1) v = v
        rw [hlow, hhigh, readBytes_good]
      rw [hread]
      have hquiet : closePosts s (setAsm (some o) v) = setAsm (some o) v := by
        have hfields : statusFields s = statusFields (setAsm (some o) v) := by
          simp only [statusFields, ha]
          rfl
        have hsettled : settled (setAsm (some o) v) = settled s := hread ▸ hunsettled
        rw [← closeEvent_of_same hsettled rfl]
        exact closeEvent_quiet howes hsettled rfl (mirrorChanged_of_same rfl rfl) hfields
      rw [hquiet]
      rfl
    case others => exact (hseg i).trans (readBytes_seg_other _ _ _ _ _ _ hi)
    case record => rw [hseg]; exact readBytes_seg buf cap.seg cap.words.length (bad 0) (bad 1) v
    case marks => rw [hseg]; exact mark_readBytes (bad 0) (bad 1) v hj k
    case otherMask => rw [hseg]; exact otherMask_readBytes _ _ _ _ _ ho
    case events => rw [hevent, beq_false_of_ne he, Bool.false_and, Bool.or_false]
    case highEvent => rw [hevent, hhigh, Bool.or_true]; simp
    case lowEvent => rw [hevent, hlow, Bool.true_or]; simp

end Sys2Proof.Machine

/-! ### Events raised are owed their word (R187) -/

namespace Sys2Proof.Machine

/-- What an event does owes the event pending word if it changes the pending set, and takes back no word that is owed (R187). -/
structure Owing (s t : State) : Prop where
  keeps : s.owed.pending = true → t.owed.pending = true
  raises : t.events.pending ≠ s.events.pending → t.owed.pending = true

theorem Owing.of_same {s t : State} (hp : t.owed.pending = s.owed.pending) (he : t.events.pending = s.events.pending) : Owing s t :=
  ⟨fun h => hp.trans h, fun h => absurd he h⟩

theorem Owing.refl (s : State) : Owing s s := .of_same rfl rfl

theorem Owing.trans {s t u : State} (h : Owing s t) (k : Owing t u) : Owing s u where
  keeps hs := k.keeps (h.keeps hs)
  raises hne := by
    by_cases ht : u.events.pending = t.events.pending
    · exact k.keeps (h.raises (ht ▸ hne))
    · exact k.raises ht

theorem Owing.of_still {s t : State} (h : t.still = s.still) : Owing s t :=
  .of_same (congrArg Still.owesPending h) (congrArg (fun s => s.events.pending) h)

theorem owing_of_true {s t : State} (h : t.owed.pending = true) : Owing s t := ⟨fun _ => h, fun _ => h⟩

theorem owing_raise (e : Event) (s : State) : Owing s (raise e s) := owing_of_true rfl

theorem owing_giveResult (code : Byte) (r : ResultCode) (s : State) : Owing s (giveResult code r s) := owing_of_true rfl

theorem owing_post (off : Nat) (v : Word) (s : State) : Owing s (post off v s) := .of_same rfl rfl

theorem owing_foldl {α : Type} {f : State → α → State} (h : ∀ s x, Owing s (f s x)) (l : List α) (s : State) : Owing s (l.foldl f s) := by
  induction l generalizing s with
  | nil => exact .refl s
  | cons x l ih => exact (h s x).trans (ih (f s x))

theorem owing_postAll (ps : List (Nat × Word)) (s : State) : Owing s (postAll ps s) := owing_foldl (fun s _ => owing_post _ _ s) ps s

/-! #### The ends of jobs -/

theorem owing_requestFaultTone (s : State) : Owing s (requestFaultTone s) := by
  unfold requestFaultTone
  split
  · split <;> exact .of_same rfl rfl
  · exact .refl s

theorem owing_requestRecord (f : FaultRecord) (s : State) : Owing s (requestRecord f s) := by
  refine (owing_raise .faultNew s).trans ?_
  unfold requestRecord
  simp only
  split
  · exact (owing_postAll _ _).trans (.of_same rfl rfl)
  · exact owing_raise _ _

theorem owing_reportFault (f : FaultRecord) (s : State) : Owing s (reportFault f s) :=
  (owing_requestRecord f s).trans (owing_requestFaultTone _)

theorem owing_finishMember (cs : List Conversion) (m : Member) (s : State) : Owing s (finishMember cs m s) := by
  have hnote : Owing s (if (s.seg m.seg).discardAfter then noteForgotten m.seg s else s) := .of_still (by split <;> simp)
  unfold finishMember
  simp only
  generalize (if (s.seg m.seg).discardAfter then noteForgotten m.seg s else s) = u at hnote
  refine hnote.trans ?_
  split
  · exact .of_still (setSeg_still _ _ _)
  · exact Owing.trans (.of_still (setSeg_still _ _ u)) (owing_foldl (fun s f => owing_reportFault f s) _ _)

theorem owing_strokeEnd (cs : List Conversion) (s : State) : Owing s (strokeEnd cs s) := by
  unfold strokeEnd
  split
  · exact .refl s
  · rename_i d _
    exact (owing_foldl (fun s m => owing_finishMember cs m s) d.members s).trans (.of_still (by simp))

theorem owing_judgeLoading (s : State) : Owing s (judgeLoading s) := by
  unfold judgeLoading
  split
  · exact owing_of_true rfl
  · exact .refl s

theorem owing_sweepEnd (j : Job) (i : SegNo) (s : State) : Owing s (sweepEnd j i s) := by
  refine Owing.trans (.of_still ?_) (owing_judgeLoading _)
  split <;> simp

theorem owing_senseEnd (j : Job) (i : SegNo) (s : State) : Owing s (senseEnd j i s) := by
  have hcompletes (u : State) : Owing u (senseCompletes u) := by
    unfold senseCompletes
    split
    · exact .refl u
    · split
      · exact owing_of_true rfl
      · exact .refl u
  refine Owing.trans ?_ (hcompletes _)
  split
  · exact .of_still (senseTouched_still _ _ _)
  · exact (owing_postAll (imagePosts i (s.seg i) j.results) s).trans (.of_still (by simp [senseUntouched]))

theorem owing_jobEnd (j : Job) (s : State) : Owing s (jobEnd j s) := by
  unfold jobEnd
  refine (Owing.of_still (freeJob_still s)).trans ?_
  simp only
  split
  · exact owing_strokeEnd _ _
  · split
    · exact .refl _
    · exact owing_sweepEnd _ _ _
  · split
    · exact .refl _
    · exact owing_senseEnd _ _ _

theorem owing_judge (s : State) : Owing s (judge s) := .of_still (judge_still s)

theorem owing_conversionEnds (v : BitVec 10) (s : State) : Owing s (conversionEnds v s) := by
  unfold conversionEnds
  split
  · split
    · exact .refl s
    · split
      · exact .refl s
      · split
        · exact .of_still (setConv_still _ _)
        · refine Owing.trans (.of_still (setConv_still { s.conv with warmUp := .clear } s)) ?_
          unfold takeValue
          simp only
          split
          · exact (owing_jobEnd _ _).trans (owing_judge _)
          · exact .of_still (setConv_still _ _)
  · exact .refl s

/-! #### The other events -/

theorem owing_abandonedRead (s : State) : Owing s (abandonedRead s) := by
  unfold abandonedRead
  split <;> exact .of_same rfl rfl

theorem owing_captureByte (buf : Buffer) (i : SegNo) (k : Fin 10) (bad : Bool) (s : State) : Owing s (captureByte buf i k bad s) := by
  unfold captureByte
  split
  · exact owing_of_true rfl
  · exact .refl s

theorem owing_captureTakes (a : Assembly) (c : Capture) (buf : Buffer) (w : Word) (lo hi : Bool) (s : State) :
    Owing s (captureTakes a c buf w lo hi s) := by
  unfold captureTakes
  simp only
  refine ((owing_captureByte buf c.seg (readCell c.words.length 0) lo s).trans
    (owing_captureByte buf c.seg (readCell c.words.length 1) hi _)).trans (.of_still ?_)
  split <;> simp

theorem owing_captureReadEnds (s : State) : Owing s (captureReadEnds s) := by
  unfold captureReadEnds
  split
  · exact owing_abandonedRead s
  · split
    · exact owing_abandonedRead s
    · split
      · exact owing_abandonedRead s
      · have hserved : Owing s (servedPart .read s) := .of_same rfl rfl
        exact hserved.trans (owing_captureTakes _ _ _ _ _ _ _)

theorem owing_supplyRises (s : State) : Owing s (supplyRises s) := by
  unfold supplyRises
  simp only
  split <;> exact .of_same rfl rfl

theorem owing_gateLost (s : State) : Owing s (gateLost s) := by
  have hraised : Owing s (raise .supplyLost (setGate ⟨.closed, .idle⟩ s)) := owing_of_true rfl
  exact (hraised.trans (.of_still (by simp))).trans ((owing_requestFaultTone _).trans (owing_judge _))

theorem owing_supplyFalls (s : State) : Owing s (supplyFalls s) := by
  have hset : Owing s (setSupply false s) := .of_same rfl rfl
  unfold supplyFalls
  simp only
  split
  · exact hset
  · exact owing_of_true rfl
  · exact hset.trans (owing_gateLost _)

theorem owing_rearmExpires (s : State) : Owing s (rearmExpires s) := by
  unfold rearmExpires
  split
  · exact owing_of_true rfl
  · exact .refl s

theorem owing_acceptLevel (l : LineNo) (high : Bool) (s : State) : Owing s (acceptLevel l high s) := by
  have hline (t : TouchLine) (u : State) : Owing u (setTouchLine l t u) := .of_same rfl rfl
  cases high with
  | true =>
    unfold acceptLevel acceptPresent
    simp only
    split
    · split
      · exact hline _ s
      · exact (hline ⟨.present, Timer.start (guardLength s.engine.copy), .idle, true⟩ s).trans (.of_still (by simp))
    · contradiction
  | false =>
    unfold acceptLevel acceptAbsent
    simp only
    split
    · contradiction
    · split
      · exact (hline _ s).trans (owing_judge _)
      · exact hline _ s

theorem owing_claimWarns (l : LineNo) (s : State) : Owing s (claimWarns l s) := owing_of_true rfl

theorem owing_claimExpires (l : LineNo) (s : State) : Owing s (claimExpires l s) := owing_of_true rfl

theorem owing_claimPassesWarn (l : LineNo) (s : State) : Owing s (claimPassesWarn l s) := by
  unfold claimPassesWarn
  split
  · exact .refl s
  · exact owing_claimWarns l s

/-- Every event of the part's own units owes the word of what it raises. -/
theorem Happens.owing {cmd : Instr} {s u : State} (h : Happens cmd s u) : Owing s u := by
  cases h with
  | captureRead hc => exact owing_captureReadEnds s
  | settle => exact .of_still (by simp)
  | recharge => exact .of_still (by simp)
  | conversion v hc => exact owing_conversionEnds v s
  | supplyRise => exact owing_supplyRises s
  | supplyFall => exact owing_supplyFalls s
  | rearm => exact owing_rearmExpires s
  | touchInput l high =>
    have hpin : Owing s (setTouchPin l high s) := .of_same rfl rfl
    unfold touchChanges
    simp only
    split
    · exact hpin.trans (owing_acceptLevel l high _)
    · exact hpin
  | guardEnd l =>
    unfold guardExpires
    split
    · split
      · exact .of_same rfl rfl
      · exact owing_acceptLevel l _ s
    · exact .refl s
  | holdOffEnd l =>
    unfold holdOffExpires
    split
    · have hline : Owing s (setTouchLine l { s.touchLine l with holdOff := .idle, shield := false } s) := .of_same rfl rfl
      exact hline.trans (owing_judge _)
    · exact .refl s
  | claimWarn l =>
    unfold claimWarnPoint
    simp only
    split
    · exact owing_of_true rfl
    · exact .refl s
  | claimLimit l =>
    unfold claimLimitPoint
    split
    · exact ((owing_claimPassesWarn l s).trans (owing_claimExpires l _)).trans (owing_judge _)
    · exact .refl s

/-! #### Acceptance -/

theorem owing_judgeClaim (l : LineNo) (s : State) : Owing s (judgeClaim l s) := by
  have hwarn (t : Nat) : Owing s (if warnCount (claimLimit s.engine.copy) ≤ t then claimPassesWarn l s else s) := by
    split
    · exact owing_claimPassesWarn l s
    · exact .refl s
  have hexpire (b : Prop) [Decidable b] (u : State) : Owing u (if b then claimExpires l u else u) := by
    split
    · exact owing_claimExpires l u
    · exact .refl u
  unfold judgeClaim
  simp only
  split
  next => exact .refl s
  next t _ =>
    split
    · exact (hwarn t).trans (hexpire _ _)
    · exact .refl s

theorem owing_judgeSettled (k : Bool) (b s : State) : Owing s (judgeSettled k b s) := by
  have hsettles (u : State) : Owing u (pageSettles u) := owing_of_true (by
    cases h : u.engine.showPending with
    | true => rw [pageSettles_asked h, clearLag_owed, requestPageTone_owed]; rfl
    | false => rw [pageSettles_unasked h, clearLag_owed]; rfl)
  unfold judgeSettled
  split
  · split
    · exact hsettles s
    · exact .refl s
  · split
    · exact .of_same rfl rfl
    · exact .refl s

end Sys2Proof.Machine

/-! ### What an event changes is posted (R42, R161, R187) -/

namespace Sys2Proof.Machine

theorem statusWord_of_fields {s t : State} (h : statusFields t = statusFields s) : statusWord t = statusWord s := by
  simp only [statusFields, List.cons.injEq, and_true] at h
  obtain ⟨hstate, hgate, hasm, hdriven, hqueue⟩ := h
  rw [statusWord, statusWord, hstate, hgate, hasm, hdriven, hqueue]

/-- The words of an event's changes stand posted (R42, R161, R187). -/
structure Announced (s t : State) : Prop where
  mirrors : ∀ i, mirrorWord t.engine.shown (t.seg i) ≠ mirrorWord s.engine.shown (s.seg i) →
    Posted t (PartWord.offset (.mirror i)) (mirrorWord t.engine.shown (t.seg i))
  status : statusFields t ≠ statusFields s → Posted t (PartWord.offset .engineStatus) (statusWord t)
  pending : t.events.pending ≠ s.events.pending → Posted t (PartWord.offset .eventPending) (pendingWord t)

/-- Nothing of what the announced words show has changed. -/
structure Unchanged (s t : State) : Prop where
  mirrors : ∀ i, mirrorWord t.engine.shown (t.seg i) = mirrorWord s.engine.shown (s.seg i)
  status : statusFields t = statusFields s
  pending : t.events.pending = s.events.pending

theorem Unchanged.announced {s t : State} (h : Unchanged s t) : Announced s t :=
  ⟨fun i hne => absurd (h.mirrors i) hne, fun hne => absurd h.status hne, fun hne => absurd h.pending hne⟩

theorem Unchanged.then {s t u : State} (h : Unchanged s t) (k : Announced t u) : Announced s u where
  mirrors i hne := k.mirrors i (h.mirrors i ▸ hne)
  status hne := k.status (h.status ▸ hne)
  pending hne := k.pending (h.pending ▸ hne)

theorem Unchanged.of_shape {s t : State} (h : t.shape = s.shape) (he : t.events.pending = s.events.pending) : Unchanged s t where
  mirrors i := by
    have hengine : t.engine = s.engine := congrArg Shape.engine h
    have hsegs : t.segs = s.segs := congrArg Shape.segs h
    rw [hengine, State.seg, State.seg, hsegs]
  status := statusFields_of_firm (firm_of_shape h)
  pending := he

theorem Unchanged.of_firm {s t : State} (h : t.firm = s.firm) (he : t.events.pending = s.events.pending) : Unchanged s t where
  mirrors i := by
    have hshown : t.engine.shown = s.engine.shown := congrArg Firm.shown h
    have hsegs : t.segs = s.segs := congrArg Firm.segs h
    rw [hshown, State.seg, State.seg, hsegs]
  status := statusFields_of_firm h
  pending := he

/-! #### The end of an event -/

theorem posted_postPending {s : State} (h : s.owed.pending = true) : Posted (postPending s) (PartWord.offset .eventPending) (pendingWord s) := by
  rw [postPending, if_pos h]
  exact posted_self _ _ s

theorem pendingWord_of {s t : State} (h : t.events.pending = s.events.pending) : pendingWord t = pendingWord s := by
  rw [pendingWord, pendingWord, h]

section
variable {b v : State}

theorem posted_mirror_closePosts {i : SegNo}
    (h : mirrorWord (closePosts b v).engine.shown ((closePosts b v).seg i) ≠ mirrorWord b.engine.shown (b.seg i)) :
    Posted (closePosts b v) (PartWord.offset (.mirror i)) (mirrorWord (closePosts b v).engine.shown ((closePosts b v).seg i)) := by
  have hsame : mirrorWord (closePosts b v).engine.shown ((closePosts b v).seg i) = mirrorWord v.engine.shown (v.seg i) := by
    rw [closePosts_engine, closePosts_seg]
  rw [hsame] at h ⊢
  exact closePosts_posts_mirror (mem_mirrorsToPost.2 (.inl (by rw [mirrorChanged]; exact bne_iff_ne.2 h.symm)))

theorem posted_status_closePosts (h : statusFields v ≠ statusFields b) :
    Posted (closePosts b v) (PartWord.offset .engineStatus) (statusWord (closePosts b v)) := by
  have hfirm : (postMirrors (mirrorsToPost b v) v).firm = v.firm := firm_of_shape (postMirrors_shape _ _)
  have hstatus : Posted (postStatusIf b (postMirrors (mirrorsToPost b v) v)) (PartWord.offset .engineStatus) (statusWord v) := by
    rw [postStatusIf, if_neg (by rw [statusFields_of_firm hfirm]; exact h.symm), ← statusWord_of_firm hfirm]
    exact posted_self _ _ _
  rw [statusWord_of_shape (closePosts_shape b v)]
  exact (hstatus.postResults (by decide)).postPending (by decide)

theorem posted_pending_closePosts (h : v.owed.pending = true) :
    Posted (closePosts b v) (PartWord.offset .eventPending) (pendingWord (closePosts b v)) := by
  have hpost : (postResults (postStatusIf b (postMirrors (mirrorsToPost b v) v))).owed.pending = true := by
    rw [postResults_owed, postStatusIf_owed, postMirrors_owed]
    exact h
  rw [pendingWord_of (congrArg EventUnit.pending (closePosts_events b v)), closePosts]
  have := posted_postPending hpost
  rwa [pendingWord_of (s := v) (by rw [postResults_events, postStatusIf_events, postMirrors_events])] at this

/-- An event whose effects owe the word of what they raise announces its changes. -/
theorem announced_closePosts (h : Owing b v) : Announced b (closePosts b v) where
  mirrors _ hne := posted_mirror_closePosts hne
  status hne := posted_status_closePosts (by rwa [statusFields_of_firm (firm_of_shape (closePosts_shape b v))] at hne)
  pending hne := posted_pending_closePosts (h.raises (by rwa [closePosts_events] at hne))

theorem announced_ended {u : State} (h : Owing b u) (k : Bool) : Announced b (closePosts b (judgeSettled k b u)) :=
  announced_closePosts (h.trans (owing_judgeSettled k b u))

theorem announced_closeEvent {u : State} (h : Owing b u) : Announced b (closeEvent b u) := announced_ended h false

end

/-! #### Events that end with the event pending word alone -/

theorem announced_postPending {s u : State} (h : Owing s u) (hshown : u.engine.shown = s.engine.shown) (hsegs : u.segs = s.segs)
    (hstatus : statusFields u = statusFields s) : Announced s (postPending u) := by
  have hshape : (postPending u).shape = u.shape := postPending_shape u
  have hevents : (postPending u).events = u.events := postPending_events u
  refine ⟨fun i hne => absurd ?_ hne, fun hne => absurd ?_ hne, fun hne => ?_⟩
  · have hengine : (postPending u).engine = u.engine := congrArg Shape.engine hshape
    have hrecords : (postPending u).segs = u.segs := congrArg Shape.segs hshape
    rw [hengine, hshown, State.seg, State.seg, hrecords, hsegs]
  · exact (statusFields_of_firm (firm_of_shape hshape)).trans hstatus
  · rw [hevents] at hne
    rw [pendingWord_of (congrArg EventUnit.pending hevents)]
    exact posted_postPending (h.raises hne)

/-! #### Two events one after the other -/

/-- A word stands posted with what it shows, or shows what it showed and has lost no post. -/
def Restated (s t : State) (off : Nat) (v : Word) (same : Prop) : Prop :=
  Posted t off v ∨ same ∧ ∀ w, Posted s off w → Posted t off w

/-- An event that announces its changes over what stands posted before it. -/
structure Announcing (s t : State) : Prop where
  mirrors : ∀ i, Restated s t (PartWord.offset (.mirror i)) (mirrorWord t.engine.shown (t.seg i))
    (mirrorWord t.engine.shown (t.seg i) = mirrorWord s.engine.shown (s.seg i))
  status : Restated s t (PartWord.offset .engineStatus) (statusWord t) (statusFields t = statusFields s)
  pending : Restated s t (PartWord.offset .eventPending) (pendingWord t) (t.events.pending = s.events.pending)

theorem Announced.then {s t u : State} (h : Announced s t) (k : Announcing t u) : Announced s u where
  mirrors i hne := by
    rcases k.mirrors i with hposted | ⟨hsame, hkept⟩
    · exact hposted
    · rw [hsame] at hne ⊢
      exact hkept _ (h.mirrors i hne)
  status hne := by
    rcases k.status with hposted | ⟨hsame, hkept⟩
    · exact hposted
    · rw [statusWord_of_fields hsame]
      exact hkept _ (h.status (hsame ▸ hne))
  pending hne := by
    rcases k.pending with hposted | ⟨hsame, hkept⟩
    · exact hposted
    · rw [pendingWord_of hsame]
      exact hkept _ (h.pending (hsame ▸ hne))

theorem Posted.postMirrors_other {s : State} {i : SegNo} {w : Word} (h : Posted s (PartWord.offset (.mirror i)) w) {is : List SegNo}
    (hi : i ∉ is) : Posted (Machine.postMirrors is s) (PartWord.offset (.mirror i)) w := by
  show Posted (is.foldl (fun s i => Machine.post (PartWord.offset (.mirror i)) (mirrorWord s.engine.shown (s.seg i)) s) s) _ _
  induction is generalizing s with
  | nil => exact h
  | cons j is ih =>
    obtain ⟨hne, hrest⟩ := not_or.1 (mt List.mem_cons.2 hi)
    exact ih (h.post (fun e => hne (mirror_offset_inj e)) _) hrest

theorem mirror_ne_words (i : SegNo) : PartWord.offset (.mirror i) ≠ PartWord.offset .engineStatus ∧
    PartWord.offset (.mirror i) ≠ PartWord.offset .result ∧ PartWord.offset (.mirror i) ≠ PartWord.offset .eventPending := by
  refine ⟨?_, ?_, ?_⟩ <;> simp only [PartWord.offset] <;> omega

/-- The end of an event whose effects leave posted what stands posted. -/
theorem announcing_closePosts {b v : State} (h : Owing b v) 
    (hkept : ∀ off, off ≠ PartWord.offset .parityDetail → ∀ w, Posted b off w → Posted v off w) :
    Announcing b (closePosts b v) where
  mirrors i := by
    obtain ⟨hstatus, hresult, hpending⟩ := mirror_ne_words i
    have hshown : (closePosts b v).engine.shown = v.engine.shown := by rw [closePosts_engine]
    by_cases hi : i ∈ mirrorsToPost b v
    · left
      rw [hshown, closePosts_seg]
      exact closePosts_posts_mirror hi
    · right
      have hsame : mirrorChanged b v i = false := Bool.eq_false_iff.2 fun hc => hi (mem_mirrorsToPost.2 (.inl hc))
      refine ⟨?_, fun w hw => ?_⟩
      · rw [hshown, closePosts_seg]
        exact ((bne_eq_false_iff_eq).1 hsame).symm
      · exact ((((hkept _ (detail_ne_mirror i).symm w hw).postMirrors_other hi).postStatusIf hstatus b).postResults hresult).postPending
          hpending
  status := by
    by_cases hf : statusFields v = statusFields b
    · right
      refine ⟨(statusFields_of_firm (firm_of_shape (closePosts_shape b v))).trans hf, fun w hw => ?_⟩
      have hmirrors := (hkept _ (by decide) w hw).postMirrors (fun i => (mirror_ne_words i).1.symm) (mirrorsToPost b v)
      have hstatus : Posted (postStatusIf b (postMirrors (mirrorsToPost b v) v)) (PartWord.offset .engineStatus) w := by
        rwa [postStatusIf, if_pos (by rw [statusFields_of_firm (firm_of_shape (postMirrors_shape _ _)), hf])]
      exact (hstatus.postResults (by decide)).postPending (by decide)
    · exact .inl (posted_status_closePosts hf)
  pending := by
    by_cases hp : v.owed.pending = true
    · exact .inl (posted_pending_closePosts hp)
    · right
      refine ⟨by rw [closePosts_events]; exact Classical.byContradiction fun hne => hp (h.raises hne), fun w hw => ?_⟩
      have hmirrors := (hkept _ (by decide) w hw).postMirrors (fun i => (mirror_ne_words i).2.2.symm) (mirrorsToPost b v)
      have hresults := (hmirrors.postStatusIf (by decide) b).postResults (by decide)
      rwa [Machine.closePosts, Machine.postPending, if_neg (by rwa [postResults_owed, postStatusIf_owed, postMirrors_owed])]

/-! #### A page buffer write -/

theorem owing_takeReport (buf : Buffer) (cell : Fin 960) (bad : Bool) (s : State) :
    Owing s (takeReport buf cell bad (reportParity buf cell bad s)) := by
  have hparity : Owing s (reportParity buf cell bad s) := by
    unfold reportParity
    split
    · exact owing_of_true rfl
    · exact .refl s
  refine hparity.trans (.of_still ?_)
  unfold takeReport
  split <;> simp

theorem cellByte_keeps (buf : Buffer) (cell : Fin 960) (bad : Bool) (s : State) {off : Nat}
    (hoff : off ≠ PartWord.offset .parityDetail) {w : Word} (h : Posted s off w) :
    Posted (takeReport buf cell bad (reportParity buf cell bad s)) off w := by
  have hparity : Posted (reportParity buf cell bad s) off w := by
    unfold reportParity
    split
    · exact h.post hoff _
    · exact h
  refine hparity.congr ?_
  unfold takeReport
  split <;> simp

theorem announcing_cellByte (buf : Buffer) (cell : Fin 960) (bad : Bool) (s : State) : Announcing s (cellByte buf cell bad s) :=
  announcing_closePosts ((owing_takeReport buf cell bad s).trans (owing_judgeSettled _ _ _)) fun off hoff w hw =>
    (cellByte_keeps buf cell bad s hoff hw).congr (by rw [judgeSettled_bus])

theorem announced_cellByte (buf : Buffer) (cell : Fin 960) (bad : Bool) (s : State) : Announced s (cellByte buf cell bad s) :=
  announced_closeEvent (owing_takeReport buf cell bad s)

theorem unchanged_forwardArea (off : Nat) (w : HostWrite) (s : State) : Unchanged s (forwardArea off w s) := by
  have hport := onlyPort_forwardArea off w s
  rw [OnlyPort] at hport
  rw [hport]
  exact ⟨fun _ => rfl, rfl, rfl⟩

theorem announced_pageWrite (buf : Buffer) (word : Fin 480) (w : HostWrite) (s : State) : Announced s (pageWrite buf word w s) := by
  have hlow (en : Bool) (bad : Bool) (u : State) : Announced u (if en then cellByte buf (wordCell word 0) bad u else u) := by
    split
    · exact announced_cellByte _ _ _ u
    · exact Unchanged.announced ⟨fun _ => rfl, rfl, rfl⟩
  unfold pageWrite
  simp only
  split
  · exact (unchanged_forwardArea _ w s).announced
  · refine (unchanged_forwardArea (buf.offset + 2 * word.val) w s).then ?_
    split
    · exact (hlow w.enLow _ _).then (announcing_cellByte _ _ _ _)
    · exact hlow w.enLow _ _

/-! #### Every command -/

theorem announced_refuse (code : Byte) (r : ResultCode) (s : State) : Announced s (refuse code r s) :=
  have hshape : (postResults (giveResult code r s)).shape = s.shape := postResults_shape _
  announced_postPending (owing_of_true (postResults_owed _ ▸ rfl)) (congrArg (fun h => h.engine.shown) hshape) (congrArg Shape.segs hshape)
    (statusFields_of_firm (firm_of_shape hshape))

theorem Taken.announced {cmd : Instr} {s t : State} (h : Taken cmd s t) : Announced s t := by
  cases h with
  | refused code r => exact announced_refuse code r s
  | showBuffer h named => exact announced_ended (owing_of_true rfl) true
  | start h => exact announced_closeEvent (owing_of_true rfl)
  | stop h => exact announced_closeEvent (owing_of_true rfl)
  | pause h => exact announced_closeEvent (owing_of_true rfl)
  | resume h => exact announced_closeEvent (owing_of_true rfl)
  | hold h is => exact announced_closeEvent (owing_of_true rfl)
  | release h is => exact announced_closeEvent (owing_of_true rfl)
  | discard h is => exact announced_closeEvent (owing_of_true rfl)
  | promote hc h a => exact announced_closeEvent (owing_of_true rfl)
  | sense h hs => exact announced_closeEvent (owing_of_true rfl)
  | clearFaults h is => exact announced_closeEvent (owing_of_true rfl)

theorem announced_dropWrite (off : Nat) (s : State) : Announced s (dropWrite off s) :=
  announced_postPending (owing_of_true rfl) rfl rfl rfl

theorem announced_ownedWrite (off : Nat) (w : HostWrite) (s : State) : Announced s (ownedWrite off w s) := by
  unfold ownedWrite
  split
  · rcases offWrite_or off w s with h | ⟨-, -, h⟩ <;> rw [h]
    · exact (unchanged_forwardArea off w s).announced
    · exact Unchanged.announced ⟨fun _ => rfl, rfl, rfl⟩
  · exact announced_dropWrite off s

theorem announced_claimWrite (l : LineNo) (w : HostWrite) (s : State) : Announced s (claimWrite l w s) := by
  have hstored := unchanged_forwardArea (claimOffset l) w s
  have hrelease (u : State) : Announced u (releaseClaim l u) := by
    unfold releaseClaim
    split
    · have hclaim : Owing u (setClaim l Claim.freed u) := .of_same rfl rfl
      exact announced_closeEvent (hclaim.trans (owing_judge _))
    · exact Unchanged.announced ⟨fun _ => rfl, rfl, rfl⟩
  unfold claimWrite
  split
  · exact hstored.announced
  · split
    · simp only
      split
      · exact hstored.then (hrelease _)
      · exact hstored.announced
    · exact announced_dropWrite _ s

theorem announced_ringConsumerWrite (w : HostWrite) (s : State) : Announced s (ringConsumerWrite w s) := by
  have hstored := unchanged_forwardArea ringConsumerOffset w s
  unfold ringConsumerWrite
  simp only
  split
  · refine hstored.then ?_
    generalize forwardArea ringConsumerOffset w s = u
    unfold offerConsumer
    split
    · exact announced_postPending (.of_same rfl rfl) rfl rfl rfl
    · exact announced_postPending (owing_of_true rfl) rfl rfl rfl
  · exact hstored.announced

/-- All mirror words posted, and then the event pending and engine status words (R168). -/
structure AllPosted (s : State) : Prop where
  mirrors : ∀ i, Posted s (PartWord.offset (.mirror i)) (mirrorWord s.engine.shown (s.seg i))
  status : Posted s (PartWord.offset .engineStatus) (statusWord s)
  pending : Posted s (PartWord.offset .eventPending) (pendingWord s)

theorem AllPosted.announced {s : State} (h : AllPosted s) (b : State) : Announced b s :=
  ⟨fun i _ => h.mirrors i, fun _ => h.status, fun _ => h.pending⟩

theorem AllPosted.postResults {s : State} (h : AllPosted s) : AllPosted (Machine.postResults s) := by
  have hshape : (Machine.postResults s).shape = s.shape := postResults_shape s
  have hengine : (Machine.postResults s).engine = s.engine := congrArg Shape.engine hshape
  have hsegs (i : SegNo) : (Machine.postResults s).seg i = s.seg i := by rw [State.seg, State.seg, postResults_segs]
  refine ⟨fun i => ?_, ?_, ?_⟩
  · rw [hengine, hsegs]
    exact (h.mirrors i).postResults (mirror_ne_words i).2.1
  · rw [statusWord_of_shape hshape]
    exact h.status.postResults (by decide)
  · have hword : pendingWord (Machine.postResults s) = pendingWord s := pendingWord_of (by rw [postResults_events])
    rw [hword]
    exact h.pending.postResults (by decide)

theorem AllPosted.postPending {s : State} (h : AllPosted s) : AllPosted (Machine.postPending s) := by
  unfold Machine.postPending
  split
  · exact ⟨fun i => (h.mirrors i).post (mirror_ne_words i).2.2 _, h.status.post (by decide) _, posted_self _ _ s⟩
  · exact h

theorem AllPosted.setOwed {s : State} (h : AllPosted s) (o : Owed) : AllPosted { s with owed := o } := ⟨h.mirrors, h.status, h.pending⟩

theorem mirrors_postProducer {s : State} (h : ∀ i, Posted s (PartWord.offset (.mirror i)) (mirrorWord s.engine.shown (s.seg i))) (i : SegNo) :
    Posted (postProducer s) (PartWord.offset (.mirror i)) (mirrorWord (postProducer s).engine.shown ((postProducer s).seg i)) := by
  rw [postProducer, post_engine, post_seg]
  exact (h i).post (by simp only [PartWord.offset]; omega) _

theorem mirrors_postMirrors (s : State) (i : SegNo) : Posted (postMirrors allSegs s) (PartWord.offset (.mirror i))
    (mirrorWord (postMirrors allSegs s).engine.shown ((postMirrors allSegs s).seg i)) := by
  rw [postMirrors_engine, postMirrors_seg]
  have hmem : i ∈ allSegs := by simp [allSegs]
  exact posted_postMirrors (is := allSegs) (s := s) (.inl hmem)

theorem allPosted_acceptance {v : State} (h : ∀ i, Posted v (PartWord.offset (.mirror i)) (mirrorWord v.engine.shown (v.seg i))) :
    AllPosted (postStatus (post (PartWord.offset .eventPending) (pendingWord v) v)) where
  mirrors i := ((h i).post (mirror_ne_words i).2.2 _).post (mirror_ne_words i).1 _
  status := posted_self _ _ _
  pending := (posted_self _ _ v).post (by decide) _

/-- Acceptance announces every mirror word, the engine status word and the event pending word (R168, R170). -/
theorem announced_closeAcceptance (b u : State) : Announced b (closeAcceptance b u) := by
  have hmirrors := mirrors_postProducer (mirrors_postMirrors (judgeSettled false b u))
  unfold closeAcceptance
  generalize postProducer (postMirrors allSegs (judgeSettled false b u)) = v at hmirrors ⊢
  have hall := allPosted_acceptance hmirrors
  simp only
  split
  · exact (hall.setOwed _).announced b
  · exact hall.postResults.postPending.announced b

theorem announced_descriptorReadEnds (s : State) : Announced s (descriptorReadEnds s) := by
  have hserved : Unchanged s (servedPart .read s) := ⟨fun _ => rfl, rfl, rfl⟩
  unfold descriptorReadEnds
  split
  next ws _ _ =>
    unfold descriptorTakes
    split
    · exact Unchanged.announced ⟨fun _ => rfl, rfl, rfl⟩
    · refine hserved.then ?_
      unfold judgeDescriptor
      split
      · exact announced_closeEvent (owing_of_true rfl)
      · exact announced_closeAcceptance _ _
  next =>
    unfold abandonedRead
    split
    · exact hserved.announced
    · exact Unchanged.announced ⟨fun _ => rfl, rfl, rfl⟩

theorem announced_lagWarns (s : State) : Announced s (postPending (lagWarns s)) := by
  unfold lagWarns
  split
  · exact announced_postPending (.refl s) rfl rfl rfl
  · split
    · exact announced_postPending (owing_of_true rfl) rfl rfl rfl
    · exact announced_postPending (.refl s) rfl rfl rfl

theorem lagWarns_same (s : State) : (lagWarns s).engine.shown = s.engine.shown ∧ (lagWarns s).segs = s.segs ∧
    statusFields (lagWarns s) = statusFields s := by
  unfold lagWarns
  split
  · exact ⟨rfl, rfl, rfl⟩
  · split <;> exact ⟨rfl, rfl, rfl⟩

theorem announced_lagLimits (s : State) : Announced s (postPending (lagLimits s)) := by
  unfold lagLimits
  split
  · exact announced_postPending (.refl s) rfl rfl rfl
  · split
    · obtain ⟨hshown, hsegs, hstatus⟩ := lagWarns_same s
      exact announced_postPending (owing_of_true rfl) hshown hsegs hstatus
    · exact announced_postPending (.refl s) rfl rfl rfl

theorem unchanged_periodEnds (s : State) : Unchanged s (periodEnds s) := by
  unfold periodEnds
  split
  · exact ⟨fun _ => rfl, rfl, rfl⟩
  · split <;> exact ⟨fun _ => rfl, rfl, rfl⟩

theorem unchanged_durationExpires (s : State) : Unchanged s (durationExpires s) := by
  unfold durationExpires
  split
  · simp only
    split
    · have h := unchanged_periodEnds
        (setChime { s.chime with duration := .idle, next := if s.chime.next = .fault then .fault else .silent } s)
      exact ⟨h.mirrors, h.status, h.pending⟩
    · exact ⟨fun _ => rfl, rfl, rfl⟩
  · exact ⟨fun _ => rfl, rfl, rfl⟩

theorem unchanged_readArea (off : Nat) (lo hi : Bool) (s : State) : Unchanged s (readArea off lo hi s) := by
  rw [readArea_frame]
  exact ⟨fun _ => rfl, rfl, rfl⟩

/-- Every command but the reset announces its changes. -/
theorem Meaning.announced {cmd : Instr} {s t : State} (h : Meaning cmd s t) (hreset : ∀ strap, cmd ≠ .powerOnReset strap) : Announced s t := by
  cases h with
  | reset strap hc => exact absurd hc (hreset strap)
  | forward addr w h =>
    unfold forwardAddr
    split
    · exact (unchanged_forwardArea _ w s).announced
    · exact Unchanged.announced ⟨fun _ => rfl, rfl, rfl⟩
  | read a lo hi =>
    unfold readAddr
    split
    · exact (unchanged_readArea _ lo hi s).announced
    · exact Unchanged.announced ⟨fun _ => rfl, rfl, rfl⟩
  | page buf word w => exact announced_pageWrite buf word w s
  | owned p w => exact announced_ownedWrite _ w s
  | eventSet w => exact announced_postPending (owing_of_true rfl) rfl rfl rfl
  | eventClear w => exact announced_postPending (owing_of_true rfl) rfl rfl rfl
  | argument w =>
    have h := unchanged_forwardArea argumentOffset w s
    exact Unchanged.announced ⟨h.mirrors, h.status, h.pending⟩
  | enable w =>
    have h := unchanged_forwardArea eventEnableOffset w s
    exact Unchanged.announced ⟨h.mirrors, h.status, h.pending⟩
  | ringConsumer w => exact announced_ringConsumerWrite w s
  | claimRead l lo hi =>
    have h := unchanged_readArea (claimOffset l) lo hi s
    unfold Machine.claimRead
    simp only
    split
    · exact Unchanged.announced ⟨h.mirrors, h.status, h.pending⟩
    · exact h.announced
  | claimWrite l w => exact announced_claimWrite l w s
  | commandWord w => exact (unchanged_forwardArea commandOffset w s).announced
  | command w t h => exact (unchanged_forwardArea commandOffset w s).then h.announced
  | drain =>
    unfold drainHead
    split <;> exact Unchanged.announced ⟨fun _ => rfl, rfl, rfl⟩
  | descriptorRead => exact announced_descriptorReadEnds s
  | driveExpiry => exact announced_closePosts (.of_still (by simp))
  | event u h => exact announced_closeEvent h.owing
  | lagWarn => exact announced_lagWarns s
  | lagLimit => exact announced_lagLimits s
  | duration => exact (unchanged_durationExpires s).announced
  | period => exact (unchanged_periodEnds s).announced

/-- Settles O59: by the meaning of each command, whose event ends with the words of what it has changed. -/
theorem changesArePosted : Obligations.ChangesArePosted := by
  unfold Obligations.ChangesArePosted
  intro c s t _ hreset h
  obtain ⟨hmirrors, hstatus, hpending⟩ := (exec_meaning h).announced hreset
  exact ⟨hmirrors, hstatus, hpending⟩

end Sys2Proof.Machine

/-! ### What the judging of new work depends on -/

namespace Sys2Proof.Machine

/-- The part of a state that the judging of new work starts from: the records, the entries of the queue, the work in flight and the engine. -/
def State.core (s : State) : State := { State.reset with
  segs := s.segs
  queue := ⟨[], s.queue.entries, false⟩
  asm := s.asm
  stroke := s.stroke
  gate := s.gate
  conv := s.conv
  engine := { State.reset.engine with state := s.engine.state, copy := s.engine.copy, shown := s.engine.shown, reading := s.engine.reading } }

/-- That part, with the claims and the shields that a recheck asks for (R85). -/
def State.frame (s : State) : State := { s.core with claims := s.claims, touch := s.touch }

/-- The part of a state that the judging of new work is seen in. -/
def State.seen (s : State) : State := { s.core with queue := s.queue, claims := s.claims, touch := s.touch }

theorem newWork_core (s t : State) : NewWork s.core t ↔ NewWork s t := Iff.rfl

theorem newWork_seen (s t : State) : NewWork s t.seen ↔ NewWork s t := Iff.rfl

theorem workJudged_core (s t : State) : WorkJudged s.core t ↔ WorkJudged s t := Iff.rfl

theorem driveJudged_frame (s t : State) (unit : StrokeUnit) (ms : List Member) :
    DriveJudged s.frame t unit ms ↔ DriveJudged s t unit ms := Iff.rfl

theorem driveJudged_seen (s t : State) (unit : StrokeUnit) (ms : List Member) :
    DriveJudged s t.seen unit ms ↔ DriveJudged s t unit ms := Iff.rfl

theorem core_of_frame {s t : State} (h : t.frame = s.frame) : t.core = s.core :=
  (congrArg State.core h : t.frame.core = s.frame.core)

theorem seen_of_firm {s t : State} (h : t.firm = s.firm) : t.seen = s.seen := by
  have hsegs : t.segs = s.segs := congrArg Firm.segs h
  have hqueue : t.queue = s.queue := congrArg Firm.queue h
  have hasm : t.asm = s.asm := congrArg Firm.asm h
  have hstroke : t.stroke = s.stroke := congrArg Firm.stroke h
  have hgate : t.gate = s.gate := congrArg Firm.gate h
  have hconv : t.conv = s.conv := congrArg Firm.conv h
  have htouch : t.touch = s.touch := congrArg Firm.touch h
  have hclaims : t.claims = s.claims := congrArg Firm.claims h
  have hstate : t.engine.state = s.engine.state := congrArg Firm.engineState h
  have hcopy : t.engine.copy = s.engine.copy := congrArg Firm.copy h
  have hshown : t.engine.shown = s.engine.shown := congrArg Firm.shown h
  have hreading : t.engine.reading = s.engine.reading := congrArg Firm.reading h
  simp only [State.seen, State.core, hsegs, hqueue, hasm, hstroke, hgate, hconv, htouch, hclaims, hstate, hcopy, hshown, hreading]

/-- New work judged from one state is judged from any that differs in nothing it depends on, and is seen in what the event's end leaves. -/
theorem NewWork.congr {s s' t t' : State} (h : NewWork s t) (hs : s'.core = s.core) (ht : t'.firm = t.firm) : NewWork s' t' := by
  rw [← newWork_core, hs, newWork_core, ← newWork_seen, seen_of_firm ht]
  exact h

theorem DriveJudged.congr {s s' t t' : State} {unit : StrokeUnit} {ms : List Member} (h : DriveJudged s t unit ms) (hs : s'.frame = s.frame)
    (ht : t'.firm = t.firm) : DriveJudged s' t' unit ms := by
  rw [← driveJudged_frame, hs, driveJudged_frame, ← driveJudged_seen, seen_of_firm ht]
  exact h

/-! ### The grant (R58, R112, R113) -/

/-- What the converter arbiter may do: nothing, or a SWEEP of the head-most sweepable entry, or with none a SENSE job. -/
inductive Grants (w : State) : State → Prop
  | none (h : mayGrant w = true → w.queue.entries.find? (sweepable w) = none ∧ sensePick w = none) : Grants w w
  | sweep (hg : mayGrant w = true) {i : SegNo} (h : w.queue.entries.find? (sweepable w) = some i) : Grants w (startSweep i w)
  | sense (hg : mayGrant w = true) (hno : w.queue.entries.find? (sweepable w) = none) {i : SegNo} (h : sensePick w = some i) :
      Grants w (startSense i w)

theorem grants_judgeGrant (w : State) : Grants w (judgeGrant w) := by
  unfold judgeGrant
  split
  next hg =>
    split
    next i h => exact .sweep hg h
    next hno =>
      split
      next i h => exact .sense hg hno h
      next h => exact .none fun _ => ⟨hno, h⟩
  next hg => exact .none fun h => absurd h hg

theorem mayGrant_iff (w : State) : mayGrant w = true ↔
    w.conv.state = .standby ∧ w.conv.job = none ∧ (∀ d, w.stroke.driven = some d → d.phase = .verify) ∧ holdBack w = false := by
  have hpulse : pulseQuiet w = true ↔ ∀ d, w.stroke.driven = some d → d.phase = .verify := by
    unfold pulseQuiet
    cases h : w.stroke.driven with
    | none => simp
    | some d => simp
  simp only [mayGrant, Bool.and_eq_true, beq_iff_eq, Option.isNone_iff_eq_none, Bool.not_eq_true', hpulse, and_assoc]

theorem job_of_mayGrant {w : State} (h : mayGrant w = true) : w.conv.job = none := ((mayGrant_iff w).1 h).2.1

section
variable {w t : State} (h : Grants w t)
include h

theorem Grants.asm : t.asm = w.asm := by
  cases h with
  | none => rfl
  | sweep hg h => exact startSweep_asm _ w
  | sense hg hno h => exact startSense_asm _ w

theorem Grants.stroke : t.stroke = w.stroke := by
  cases h with
  | none => rfl
  | sweep hg h => exact startSweep_stroke _ w
  | sense hg hno h => exact startSense_stroke _ w

theorem Grants.still : t.still = w.still := by
  cases h with
  | none => rfl
  | sweep hg h => exact startSweep_still _ w
  | sense hg hno h => exact startSense_still _ w

/-- A grant takes at most the segment of its job. -/
theorem Grants.orSensing (k : SegNo) : OrSensing t k (w.seg k) := by
  cases h with
  | none => exact .inl rfl
  | @sweep hg i h =>
    by_cases hk : k = i
    · subst hk
      exact .inr ⟨by rw [startSweep_seg, if_pos rfl], _, congrArg Converter.job (startSweep_conv k w), rfl⟩
    · exact .inl (by rw [startSweep_seg, if_neg hk])
  | @sense hg hno i h =>
    by_cases hk : k = i
    · subst hk
      by_cases hf : (w.seg k).state = .faulted
      · refine .inl ?_
        rw [startSense_seg, if_pos rfl, if_pos hf, ← hf]
      · exact .inr ⟨by rw [startSense_seg, if_pos rfl, if_neg hf], _, congrArg Converter.job (startSense_conv k w), rfl⟩
    · exact .inl (by rw [startSense_seg, if_neg hk])

end

end Sys2Proof.Machine

/-! ### A grant after the judging of drives and walks (R58, R112, R119, R123) -/

namespace Sys2Proof.Machine

/-! #### The queue and the converter after a grant -/

theorem sensing_not_queueable (e : Engine) (r : Segment) : queueable e { r with state := .sensing } = false := not_queueable rfl

theorem leave_other {l : List SegNo} {i : SegNo} (h : i ∉ l) : (l.filter fun k => k != i) = l :=
  List.filter_eq_self.2 fun _ hk => bne_iff_ne.2 fun e => h (e ▸ hk)

/-- A segment under a job has left the queue. -/
theorem sensing_leaves (i : SegNo) (w : State) :
    (sync .tail i (setSeg i { w.seg i with state := .sensing } w)).queue = w.queue.leave i :=
  sync_entries_leaves (by rw [seg_setSeg_self]; exact sensing_not_queueable _ _)

theorem sensePick_spec {w : State} {i : SegNo} (h : sensePick w = some i) :
    ∃ r, w.conv.sense = some r ∧ i ∈ r.range ∧ senseEligible r w i = true := by
  unfold sensePick at h
  split at h
  next => nomatch h
  next r hr => exact ⟨r, hr, List.mem_of_find?_eq_some h, List.find?_some h⟩

theorem senseEligible_iff (r : SenseRecord) (w : State) (i : SegNo) : senseEligible r w i = true ↔
    i ∉ r.done ∧ (w.seg i).state.senseable = true ∧ shielded w (lineOf i) = false := by
  simp [senseEligible, and_assoc]

theorem mem_range_iff (r : SenseRecord) (i : SegNo) : i ∈ r.range ↔ r.first ≤ i.val ∧ i.val < r.first + r.count := by
  simp [SenseRecord.range, segRange, allSegs]

/-- The queue after a grant: the job's segment has left it, or it is as it was. -/
theorem Grants.queue {w t : State} (h : Grants w t) (hq : ∀ i, (w.seg i).state = .faulted → i ∉ w.queue.entries) :
    t.conv.job = w.conv.job ∧ t.queue = w.queue ∨
      ∃ i j, t.conv.job = some j ∧ w.conv.job = Option.none ∧ j.segs = [i] ∧ t.queue.mark = w.queue.mark ∧
        t.queue.ahead = (w.queue.ahead.filter fun k => k != i) ∧ t.queue.entries = (w.queue.entries.filter fun k => k != i) ∧
        ((w.seg i).state = .unsure ∨ (w.seg i).state.senseable = true) := by
  cases h with
  | none => exact .inl ⟨rfl, rfl⟩
  | @sweep hg i h =>
    have hstate : (w.seg i).state = .unsure := by
      have := List.find?_some h
      simp only [sweepable, Bool.and_eq_true, beq_iff_eq] at this
      exact this.1
    have hqueue : (startSweep i w).queue = w.queue.leave i := (startSweep_queue i w).trans (sensing_leaves i w)
    exact .inr ⟨i, _, congrArg Converter.job (startSweep_conv i w), job_of_mayGrant hg, rfl, by rw [hqueue]; rfl, by rw [hqueue]; rfl,
      by rw [hqueue, entries_leave], .inl hstate⟩
  | @sense hg hno i h =>
    obtain ⟨r, -, -, hel⟩ := sensePick_spec h
    have hstate := ((senseEligible_iff r w i).1 hel).2.1
    by_cases hf : (w.seg i).state = .faulted
    · have hqueue : (startSense i w).queue = w.queue := by rw [startSense_queue, if_pos hf]
      have hi := hq i hf
      refine .inr ⟨i, _, congrArg Converter.job (startSense_conv i w), job_of_mayGrant hg, rfl, by rw [hqueue], ?_, ?_, .inr hstate⟩
      · rw [hqueue]
        exact (leave_other fun h => hi (List.mem_append_left _ h)).symm
      · rw [hqueue]
        exact (leave_other hi).symm
    · have hqueue : (startSense i w).queue = w.queue.leave i := by
        rw [startSense_queue, if_neg hf]
        exact sensing_leaves i w
      exact .inr ⟨i, _, congrArg Converter.job (startSense_conv i w), job_of_mayGrant hg, rfl, by rw [hqueue]; rfl, by rw [hqueue]; rfl,
        by rw [hqueue, entries_leave], .inr hstate⟩

/-- The entries after a grant, from those of a state whose converter is that of the grant's. -/
theorem Grants.entries {s w t : State} (h : Grants w t) (hconv : w.conv = s.conv)
    (hq : ∀ i, (w.seg i).state = .faulted → i ∉ w.queue.entries) : t.queue.entries = lessGranted s t w.queue.entries := by
  rcases h.queue hq with ⟨hjob, hqueue⟩ | ⟨i, j, hjob, hnone, hsegs, -, -, hentries, -⟩
  · rw [lessGranted, if_pos (hjob.trans (congrArg Converter.job hconv)), hqueue]
  · have hne : t.conv.job ≠ s.conv.job := fun e => by
      rw [hjob, ← hconv, hnone] at e
      exact absurd e (Option.some_ne_none j)
    rw [lessGranted, if_neg hne, hentries, hjob]
    refine List.filter_congr fun k _ => ?_
    simp [hsegs, bne, beq_eq_decide]

end Sys2Proof.Machine

/-! ### The grant that the statements describe (R58, R112, R119, R123, R124) -/

namespace Sys2Proof.Machine

/-- The pins outside the fault list (R119). -/
theorem pinsOf_compl_faultPins (r : Segment) : pinsOf (~~~faultPins r) = allPins.filter fun p => r.faults.all fun f => f.pin != p := by
  refine List.filter_congr fun p _ => ?_
  have hp := p.isLt
  rw [BitVec.getLsbD_not, faultPins_getLsbD, decide_eq_true hp, Bool.true_and, List.not_any_eq_all_not]
  rfl

/-- A state from which the arbiter judges a grant, from the one that an event's own effects give: a walk may have put one STALE segment under
capture, and no record holds the grant back. -/
structure GrantBase (s w : State) : Prop where
  touch : w.touch = s.touch
  conv : w.conv = s.conv
  stroke : w.stroke = s.stroke
  entries : w.queue.entries = s.queue.entries
  seg : ∀ k, w.seg k = s.seg k ∨ (s.seg k).state = .stale ∧ (w.seg k).state = .capturing
  hold : s.conv.job = none → holdBack w = false

section
variable {s w : State} (h : GrantBase s w)
include h

theorem GrantBase.mayGrant_iff : mayGrant w = true ↔
    s.conv.state = .standby ∧ s.conv.job = none ∧ ∀ d, s.stroke.driven = some d → d.phase = .verify := by
  rw [Machine.mayGrant_iff, h.conv, h.stroke]
  exact ⟨fun ⟨hstate, hjob, hdriven, _⟩ => ⟨hstate, hjob, hdriven⟩, fun ⟨hstate, hjob, hdriven⟩ => ⟨hstate, hjob, hdriven, h.hold hjob⟩⟩

theorem GrantBase.unsure_iff (k : SegNo) : (w.seg k).state = .unsure ↔ (s.seg k).state = .unsure := by
  rcases h.seg k with hk | ⟨hs, hw⟩
  · rw [hk]
  · rw [hs, hw]
    exact ⟨fun h => (nomatch h), fun h => (nomatch h)⟩

theorem GrantBase.seg_unsure {k : SegNo} (hk : (s.seg k).state = .unsure) : w.seg k = s.seg k := by
  rcases h.seg k with he | ⟨hs, -⟩
  · exact he
  · rw [hs] at hk
    nomatch hk

theorem GrantBase.senseable_iff (k : SegNo) :
    (w.seg k).state.senseable = true ↔ (s.seg k).state.senseable = true ∧ (w.seg k).state ≠ .capturing := by
  rcases h.seg k with hk | ⟨hs, hw⟩
  · rw [hk]
    refine ⟨fun h => ⟨h, fun hc => ?_⟩, And.left⟩
    rw [hc] at h
    nomatch h
  · rw [hs, hw]
    exact ⟨fun h => (nomatch h), fun h => absurd rfl h.2⟩

theorem GrantBase.seg_senseable {k : SegNo} (hk : (w.seg k).state.senseable = true) : w.seg k = s.seg k := by
  rcases h.seg k with he | ⟨-, hw⟩
  · exact he
  · rw [hw] at hk
    nomatch hk

end

/-- A grant of a converter that is free gives it a job and takes its segment. -/
theorem Grants.capturing_iff {w t : State} (h : Grants w t) (k : SegNo) : (t.seg k).state = .capturing ↔ (w.seg k).state = .capturing := by
  cases h with
  | none => exact Iff.rfl
  | @sweep hg i h =>
    rw [startSweep_seg]
    split
    next hk =>
      have hstate := List.find?_some h
      simp only [sweepable, Bool.and_eq_true, beq_iff_eq] at hstate
      rw [hk, hstate.1]
      exact ⟨fun h => (nomatch h), fun h => (nomatch h)⟩
    next => exact Iff.rfl
  | @sense hg hno i h =>
    obtain ⟨r, -, -, hel⟩ := sensePick_spec h
    have hstate := ((senseEligible_iff r w i).1 hel).2.1
    rw [startSense_seg]
    split
    next hk =>
      rw [hk]
      constructor
      · intro hc
        split at hc <;> nomatch hc
      · intro hc
        rw [hc] at hstate
        nomatch hstate
    next => exact Iff.rfl

/-- The first of a range that meets a condition is the least of it. -/
theorem find_range {r : SenseRecord} {f : SegNo → Bool} {i : SegNo} (hi : i ∈ r.range) (hf : f i = true)
    (hleast : ∀ k ∈ r.range, f k = true → i.val ≤ k.val) : r.range.find? f = some i := by
  obtain ⟨x, hx⟩ : ∃ x, r.range.find? f = some x := Option.isSome_iff_exists.1 (List.find?_isSome.2 ⟨i, hi, hf⟩)
  have hle : i.val ≤ x.val := hleast x (List.mem_of_find?_eq_some hx) (List.find?_some hx)
  have hsorted : r.range.Pairwise fun a b => a.val < b.val :=
      List.Pairwise.filter _ ((List.pairwise_lt_finRange 96).imp fun h => h)
  obtain ⟨-, as, bs, hsplit, has⟩ := List.find?_eq_some_iff_append.1 hx
  have hmem : i ∈ as ++ x :: bs := hsplit ▸ hi
  rcases List.mem_append.1 hmem with h | h
  · exact absurd hf (by simpa using has i h)
  · rcases List.mem_cons.1 h with rfl | h
    · exact hx
    · have hlt : x.val < i.val := by
        rw [hsplit] at hsorted
        exact (List.pairwise_cons.1 (List.pairwise_append.1 hsorted).2.1).1 i h
      omega

theorem grantJudged_of_base {s w : State} (h : GrantBase s w) : GrantJudged s (judgeGrant w) := by
  have hgrants := grants_judgeGrant w
  have htouch : (judgeGrant w).touch = s.touch := (congrArg Still.touch hgrants.still).trans h.touch
  have hshield (l : LineNo) : ((judgeGrant w).touchLine l).shield = shielded w l := by
    rw [State.touchLine, htouch, shielded, State.touchLine, h.touch]
  have hwaits (k : SegNo) : sweepable w k = true ↔ (s.seg k).state = .unsure ∧ ((judgeGrant w).touchLine (lineOf k)).shield = false := by
    rw [hshield, ← h.unsure_iff]
    simp [sweepable]
  have heligible (r : SenseRecord) (k : SegNo) : (k ∈ r.range ∧ senseEligible r w k = true) ↔
      (r.first ≤ k.val ∧ k.val < r.first + r.count ∧ k ∉ r.done ∧ (s.seg k).state.senseable = true ∧
        ((judgeGrant w).seg k).state ≠ .capturing ∧ ((judgeGrant w).touchLine (lineOf k)).shield = false) := by
    rw [mem_range_iff, senseEligible_iff, hshield, h.senseable_iff, ne_eq, ne_eq, hgrants.capturing_iff k]
    tauto
  have hnone : (∀ k ∈ s.queue.entries, ¬((s.seg k).state = .unsure ∧ ((judgeGrant w).touchLine (lineOf k)).shield = false)) →
      w.queue.entries.find? (sweepable w) = none := fun hno =>
    List.find?_eq_none.2 fun k hk hs => hno k (h.entries ▸ hk) ((hwaits k).1 hs)
  refine ⟨fun hfree => ?held, fun hfree ahead i behind hsplit hi hahead => ?sweep, fun hfree hno r i hr hi hleast => ?sense,
    fun hfree hno hnoSense => ?idle⟩
  case held =>
    have hg : ¬mayGrant w = true := fun hg => hfree (h.mayGrant_iff.1 hg)
    rw [judgeGrant, if_neg hg, h.conv]
  case sweep =>
    have hfind : w.queue.entries.find? (sweepable w) = some i := by
      rw [h.entries, hsplit, List.find?_append, List.find?_eq_none.2 fun k hk hs => hahead k hk ((hwaits k).1 hs), Option.none_or,
        List.find?_cons_of_pos ((hwaits i).2 hi)]
    have hjudge : judgeGrant w = startSweep i w := by
      rw [judgeGrant, if_pos (h.mayGrant_iff.2 hfree), hfind]
    rw [hjudge, startSweep_seg, if_pos rfl, startSweep_conv, h.seg_unsure hi.1, h.conv, pinsOf_compl_faultPins, hi.1]
    exact ⟨rfl, rfl⟩
  case sense =>
    obtain ⟨hrange, hel⟩ := (heligible r i).2 hi
    have hpick : sensePick w = some i := by
      rw [sensePick, h.conv, hr]
      exact find_range hrange hel fun k hk hf => hleast k ((heligible r k).1 ⟨hk, hf⟩)
    have hjudge : judgeGrant w = startSense i w := by
      rw [judgeGrant, if_pos (h.mayGrant_iff.2 hfree), hnone hno]
      simp only [hpick]
    have hseg := h.seg_senseable ((senseEligible_iff r w i).1 hel).2.1
    rw [hjudge, startSense_seg, if_pos rfl, startSense_conv, hseg, h.conv]
    exact ⟨rfl, rfl⟩
  case idle =>
    have hpick : sensePick w = none := by
      rw [sensePick, h.conv]
      cases hr : s.conv.sense with
      | none => rfl
      | some r => exact List.find?_eq_none.2 fun k hk hf => hnoSense r k hr ((heligible r k).1 ⟨hk, hf⟩)
    rw [judgeGrant, if_pos (h.mayGrant_iff.2 hfree), hnone hno]
    simp only [hpick, h.conv]

end Sys2Proof.Machine

/-! ### Walks that start captures (R56, R63 to R65) -/

namespace Sys2Proof.Machine

/-! #### Rounds of the judging -/

theorem repeat_succ_left {α : Type} (f : α → α) (n : Nat) (x : α) : Nat.repeat f (n + 1) x = Nat.repeat f n (f x) := by
  induction n with
  | zero => rfl
  | succ n ih => exact congrArg f ih

theorem repeat_fixed {α : Type} {f : α → α} {x : α} (h : f x = x) (n : Nat) : Nat.repeat f n x = x := by
  induction n with
  | zero => rfl
  | succ n ih => exact (congrArg f ih).trans h

/-- Neither a drive nor a walk can start. -/
theorem workRound_idle {s : State} (hd : driveReady s = false) (hw : walkReady s = false) : workRound s = s := by
  rw [workRound, hd, hw]
  rfl

theorem workRound_walk {s : State} (hd : driveReady s = false) (hw : walkReady s = true) : workRound s = startWalk s := by
  rw [workRound, hd, hw]
  rfl

theorem workRound_drive {s : State} (hd : driveReady s = true) : workRound s = driveStart s := by
  rw [workRound, hd]
  rfl

theorem judgeWork_idle {s : State} (h : workRound s = s) : judgeWork s = s := repeat_fixed h 8

theorem judgeWork_one {s w : State} (h : workRound s = w) (hw : workRound w = w) : judgeWork s = w := by
  rw [judgeWork, repeat_succ_left, h]
  exact repeat_fixed hw 7

theorem judgeWork_two {s v w : State} (h : workRound s = v) (hv : workRound v = w) (hw : workRound w = w) : judgeWork s = w := by
  rw [judgeWork, repeat_succ_left, h, repeat_succ_left, hv]
  exact repeat_fixed hw 6

theorem judgeWork_three {s u v w : State} (h : workRound s = u) (hu : workRound u = v) (hv : workRound v = w) (hw : workRound w = w) :
    judgeWork s = w := by
  rw [judgeWork, repeat_succ_left, h, repeat_succ_left, hu, repeat_succ_left, hv]
  exact repeat_fixed hw 5

/-! #### When a drive or a walk can start -/

theorem walkReady_iff (s : State) : walkReady s = true ↔
    s.engine.state = .running ∧ s.asm = none ∧ ∃ i ∈ s.queue.entries, freeStale s i = true := by
  simp only [walkReady, Bool.and_eq_true, beq_iff_eq, Option.isNone_iff_eq_none, List.any_eq_true, and_assoc]

theorem driveReady_noAsm {s : State} (h : s.asm = none) : driveReady s = false := by
  simp [driveReady, h]

theorem walkReady_asm {s : State} {a : Assembly} (h : s.asm = some a) : walkReady s = false := by
  rw [Bool.eq_false_iff]
  intro hw
  obtain ⟨-, hnone, -⟩ := (walkReady_iff s).1 hw
  nomatch h.symm.trans hnone

theorem walkReady_stopped {s : State} (h : s.engine.state ≠ .running) : walkReady s = false := by
  rw [Bool.eq_false_iff]
  exact fun hw => h ((walkReady_iff s).1 hw).1

/-- Where no drive and no walk can start, the judging starts none (R63, R84). -/
theorem judgeWork_quiet {s : State} (h : Quiet s) : judgeWork s = s := by
  obtain ⟨hd, hw⟩ := h
  refine judgeWork_idle (workRound_idle hd ?_)
  rcases hw with hw | hw
  · exact walkReady_stopped hw
  · obtain ⟨a, ha⟩ := Option.ne_none_iff_exists'.1 hw
    exact walkReady_asm ha

/-! #### A walk from its mark -/

section
variable {s : State} {a : Assembly}

theorem eligible_setQueue (q : Queue) (i : SegNo) : eligible a (setQueue q s) i = eligible a s i := rfl

/-- A walk passes over the entries that it may not capture (R56). -/
theorem walkOn_pass (ha : s.asm = some a) (hfull : a.full = false) {i : SegNo} {rest : List SegNo} (hb : s.queue.behind = i :: rest)
    (hi : eligible a s i = false) (n : Nat) : walkOn (n + 1) s = walkOn n (setQueue (s.queue.passMark i rest) s) := by
  rw [walkOn, ha]
  simp only [hfull, hb, hi]
  rfl

theorem walkOn_end (ha : s.asm = some a) (h : a.full = true ∨ s.queue.behind = []) (n : Nat) : walkOn (n + 1) s = walkEnd a s := by
  rw [walkOn, ha]
  simp only
  rcases h with h | h
  · rw [if_pos h]
  · split
    · rfl
    · rw [h]

/-- The first entry that a walk may capture is captured, with the ones before it passed over (R56, R65). -/
theorem walkOn_starts (hfull : a.full = false) (hshown : s.engine.shown ≠ .none) {i : SegNo} {rest : List SegNo} (hi : eligible a s i = true)
    {pre : List SegNo} (hpre : ∀ k ∈ pre, eligible a s k = false) (ha : s.asm = some a) (hb : s.queue.behind = pre ++ i :: rest) {n : Nat}
    (hn : pre.length < n) :
    walkOn n s = captureStart i (setQueue { s.queue with ahead := s.queue.ahead ++ (pre ++ [i]), behind := rest } s) := by
  induction pre generalizing s n with
  | nil =>
    obtain ⟨n, rfl⟩ := Nat.exists_eq_succ_of_ne_zero (Nat.ne_of_gt hn)
    rw [walkOn, ha]
    simp only [hfull, hb, List.nil_append, hi, if_true]
    rw [if_neg Bool.noConfusion, if_neg (by exact hshown)]
    rfl
  | cons k pre ih =>
    obtain ⟨n, rfl⟩ := Nat.exists_eq_succ_of_ne_zero (Nat.ne_of_gt (Nat.zero_lt_of_lt hn))
    rw [List.cons_append] at hb
    rw [walkOn_pass ha hfull hb (hpre k List.mem_cons_self)]
    rw [ih (s := setQueue (s.queue.passMark k (pre ++ i :: rest)) s) hshown hi (fun j hj => hpre j (List.mem_cons_of_mem _ hj)) ha rfl
      (Nat.lt_of_succ_lt_succ hn)]
    simp only [setQueue_queue, Queue.passMark, List.append_assoc, List.cons_append, List.nil_append]
    rfl

/-- The end of a walk depends on the entries of the queue alone, wherever its mark stands. -/
theorem walkEnd_setQueue {q : Queue} (hq : q.entries = s.queue.entries) : walkEnd a (setQueue q s) = walkEnd a s := by
  have hend : q.endWalk = s.queue.endWalk := by rw [Queue.endWalk, Queue.endWalk, hq]
  unfold walkEnd
  simp only [setQueue_queue, hend]
  split <;> rfl

/-- A walk that may capture no entry behind its mark ends (R56, R73). -/
theorem walkOn_ends (hfull : a.full = false) (ha : s.asm = some a) {l : List SegNo} (hb : s.queue.behind = l)
    (hl : ∀ k ∈ l, eligible a s k = false) {n : Nat} (hn : l.length < n) : walkOn n s = walkEnd a s := by
  induction l generalizing s n with
  | nil =>
    obtain ⟨n, rfl⟩ := Nat.exists_eq_succ_of_ne_zero (Nat.ne_of_gt hn)
    exact walkOn_end ha (.inr hb) n
  | cons k l ih =>
    obtain ⟨n, rfl⟩ := Nat.exists_eq_succ_of_ne_zero (Nat.ne_of_gt (Nat.zero_lt_of_lt hn))
    rw [walkOn_pass ha hfull hb (hl k List.mem_cons_self),
      ih (s := setQueue (s.queue.passMark k l) s) ha rfl (fun j hj => hl j (List.mem_cons_of_mem _ hj)) (Nat.lt_of_succ_lt_succ hn)]
    refine walkEnd_setQueue ?_
    simp [Queue.passMark, Queue.entries, hb]

end

end Sys2Proof.Machine

/-! ### A walk with A or B shown (R63 to R65) -/

namespace Sys2Proof.Machine

theorem eligible_started (s : State) (i : SegNo) : eligible Assembly.started s i = freeStale s i := by
  simp [eligible, Assembly.started]

/-- A walk has put a segment under capture, with the entries before it passed over (R65). -/
def walkedTo (i : SegNo) (pre rest : List SegNo) (s : State) : State :=
  captureStart i (setQueue ⟨pre ++ [i], rest, true⟩ (setAsm (some Assembly.started) s))

theorem startWalk_starts {s : State} (hshown : s.engine.shown ≠ .none) {i : SegNo} {pre rest : List SegNo}
    (hentries : s.queue.entries = pre ++ i :: rest) (hi : freeStale s i = true) (hpre : ∀ k ∈ pre, freeStale s k = false) :
    startWalk s = walkedTo i pre rest s := by
  have hlen : pre.length < s.queue.entries.length + 1 := by
    rw [hentries, List.length_append]
    omega
  exact walkOn_starts (s := setAsm (some Assembly.started) (setQueue s.queue.startWalk s)) (a := Assembly.started) rfl hshown
    ((eligible_started s i).trans hi) (fun k hk => (eligible_started s k).trans (hpre k hk)) rfl hentries hlen

section
variable {s : State} {i : SegNo} {pre rest : List SegNo}

theorem walkedTo_still : (walkedTo i pre rest s).still = s.still := captureStart_still i _

theorem walkedTo_stroke : (walkedTo i pre rest s).stroke = s.stroke := captureStart_stroke i _

theorem walkedTo_conv : (walkedTo i pre rest s).conv = s.conv := captureStart_conv i _

theorem walkedTo_asm : (walkedTo i pre rest s).asm = captureOf s [] [] i := captureStart_asm (a := Assembly.started) rfl i

theorem walkedTo_seg (k : SegNo) :
    (walkedTo i pre rest s).seg k = if k = i then { s.seg i with state := .capturing, dirty := false } else s.seg k :=
  captureStart_seg i k _

theorem walkedTo_queue (hq : queueable s.engine (s.seg i) = true) : (walkedTo i pre rest s).queue = ⟨pre ++ [i], rest, true⟩ :=
  captureStart_queue_same (s := setQueue ⟨pre ++ [i], rest, true⟩ (setAsm (some Assembly.started) s)) hq
    (by simp [Queue.entries])

/-- A segment under capture, no drive and no walk can start. -/
theorem workRound_walkedTo : workRound (walkedTo i pre rest s) = walkedTo i pre rest s := by
  have hasm : (walkedTo i pre rest s).asm = some ⟨.assembling, [], [i], some ⟨i, s.engine.shown, [], false, false⟩⟩ := walkedTo_asm
  refine workRound_idle ?_ (walkReady_asm hasm)
  rw [driveReady, hasm]
  rfl

theorem grantBase_walkedTo (hentries : s.queue.entries = pre ++ i :: rest) (hi : freeStale s i = true)
    (hq : queueable s.engine (s.seg i) = true) : GrantBase s (walkedTo i pre rest s) where
  touch := congrArg Still.touch walkedTo_still
  conv := walkedTo_conv
  stroke := walkedTo_stroke
  entries := by rw [walkedTo_queue hq, hentries]; simp [Queue.entries]
  seg k := by
    rw [walkedTo_seg]
    split
    next hk => exact .inr ⟨hk ▸ freeStale_stale hi, rfl⟩
    next => exact .inl rfl
  hold _ := by
    have hasm : (walkedTo i pre rest s).asm = some ⟨.assembling, [], [i], some ⟨i, s.engine.shown, [], false, false⟩⟩ := walkedTo_asm
    rw [holdBack, hasm]
    rfl

end

/-- The judging of drives and walks with no record and A or B shown: the first entry that is free is put under capture, or none is. -/
theorem workRound_noAsm {s : State} (hrun : s.engine.state = .running) (hasm : s.asm = none) (hshown : s.engine.shown ≠ .none) :
    (∃ i pre rest, s.queue.entries = pre ++ i :: rest ∧ freeStale s i = true ∧ (∀ k ∈ pre, freeStale s k = false) ∧
      workRound s = walkedTo i pre rest s) ∨
    (∀ k ∈ s.queue.entries, freeStale s k = false) ∧ workRound s = s := by
  have hd := driveReady_noAsm hasm
  cases hfind : s.queue.entries.find? (freeStale s) with
  | none =>
    have hnone : ∀ k ∈ s.queue.entries, freeStale s k = false := fun k hk =>
      Bool.eq_false_iff.2 (List.find?_eq_none.1 hfind k hk)
    refine .inr ⟨hnone, workRound_idle hd (Bool.eq_false_iff.2 fun hw => ?_)⟩
    obtain ⟨-, -, k, hk, hfree⟩ := (walkReady_iff s).1 hw
    exact absurd hfree (Bool.eq_false_iff.1 (hnone k hk))
  | some i =>
    obtain ⟨hi, pre, rest, hentries, hpre⟩ := List.find?_eq_some_iff_append.1 hfind
    have hpre : ∀ k ∈ pre, freeStale s k = false := fun k hk => by simpa using hpre k hk
    have hw : walkReady s = true := (walkReady_iff s).2 ⟨hrun, hasm, i, by rw [hentries]; simp, hi⟩
    refine .inl ⟨i, pre, rest, hentries, hi, hpre, ?_⟩
    rw [workRound_walk hd hw, startWalk_starts hshown hentries hi hpre]

/-- One round settles it. -/
theorem workRound_noAsm_twice {s : State} (hrun : s.engine.state = .running) (hasm : s.asm = none) (hshown : s.engine.shown ≠ .none) :
    workRound (workRound s) = workRound s := by
  rcases workRound_noAsm hrun hasm hshown with ⟨i, pre, rest, -, -, -, h⟩ | ⟨-, h⟩
  · rw [h]
    exact workRound_walkedTo
  · rw [h, h]

theorem judgeWork_noAsm {s : State} (hrun : s.engine.state = .running) (hasm : s.asm = none) (hshown : s.engine.shown ≠ .none) :
    (∃ i pre rest, s.queue.entries = pre ++ i :: rest ∧ freeStale s i = true ∧ (∀ k ∈ pre, freeStale s k = false) ∧
      judgeWork s = walkedTo i pre rest s) ∨
    (∀ k ∈ s.queue.entries, freeStale s k = false) ∧ judgeWork s = s := by
  rw [judgeWork_one rfl (workRound_noAsm_twice hrun hasm hshown)]
  exact workRound_noAsm hrun hasm hshown

/-! ### The judging where no drive and no walk can start -/

theorem holdBack_quiet {s : State} (h : Quiet s) (hjob : s.conv.job = none) : holdBack s = false := by
  have hready : driveReady s = (holdBack s && s.conv.job.isNone) := rfl
  have := h.1
  rw [hready, hjob, Option.isNone_none, Bool.and_true] at this
  exact this

theorem grantBase_quiet {s : State} (h : Quiet s) : GrantBase s s :=
  ⟨rfl, rfl, rfl, rfl, fun _ => .inl rfl, holdBack_quiet h⟩

/-- A FAULTED segment is not in a lawful queue. -/
theorem faulted_not_queued {s : State} (h : QueueLawful s) {i : SegNo} (hi : (s.seg i).state = .faulted) : i ∉ s.queue.entries := fun hmem => by
  have hq := (h.2 i).1 hmem
  rw [not_queueable (by rw [hi]; rfl)] at hq
  nomatch hq

theorem judge_of_quiet {s : State} (h : Quiet s) : (judge s).asm = s.asm ∧ (judge s).stroke = s.stroke ∧ (∀ i, OrSensing (judge s) i (s.seg i)) ∧
    (QueueLawful s → (judge s).queue.entries = lessGranted s (judge s) s.queue.entries) := by
  have hjudge : judge s = judgeGrant s := by rw [judge, judgeWork_quiet h]
  have hg := grants_judgeGrant s
  rw [hjudge]
  exact ⟨hg.asm, hg.stroke, hg.orSensing, fun hq => hg.entries rfl fun i hi => faulted_not_queued hq hi⟩

/-- The grant that the judging of new work makes (R58, R112). -/
theorem grantJudged_judge {s : State} (h : Quiet s ∨ s.asm = none ∧ s.engine.shown ≠ .none ∧ QueueLawful s) : GrantJudged s (judge s) := by
  by_cases hquiet : Quiet s
  · rw [judge, judgeWork_quiet hquiet]
    exact grantJudged_of_base (grantBase_quiet hquiet)
  · obtain ⟨hasm, hshown, hq⟩ := h.resolve_left hquiet
    have hrun : s.engine.state = .running := by
      by_contra hrun
      exact hquiet ⟨driveReady_noAsm hasm, .inl hrun⟩
    rcases judgeWork_noAsm hrun hasm hshown with ⟨i, pre, rest, hentries, hi, -, hwork⟩ | ⟨-, hwork⟩
    · have hmem : i ∈ s.queue.entries := by rw [hentries]; simp
      rw [judge, hwork]
      exact grantJudged_of_base (grantBase_walkedTo hentries hi ((hq.2 i).1 hmem))
    · rw [judge, hwork]
      refine grantJudged_of_base ⟨rfl, rfl, rfl, rfl, fun _ => .inl rfl, fun _ => ?_⟩
      rw [holdBack, hasm]
      rfl

end Sys2Proof.Machine

/-! ### The walk that the statements describe, with A or B shown (R63 to R65) -/

namespace Sys2Proof.Machine

theorem freeEntry_eq {s t : State} (hclaims : t.claims = s.claims) (htouch : t.touch = s.touch) : freeEntry s t = freeStale s := by
  funext k
  have hclaim : (t.claim (lineOf k)) = s.claim (lineOf k) := congrArg (fun c : ClaimTable => c.lines[lineOf k]) hclaims
  have hline : (t.touchLine (lineOf k)) = s.touchLine (lineOf k) := congrArg (fun c : TouchUnit => c.lines[lineOf k]) htouch
  rw [freeEntry, freeStale, hclaim, hline, claimed, shielded]
  cases (s.claim (lineOf k)).claim <;> rfl

/-- A segment that a grant cannot take keeps its record. -/
theorem Grants.seg_of_ne {w t : State} (h : Grants w t) {k : SegNo} (hu : (w.seg k).state ≠ .unsure)
    (hs : (w.seg k).state.senseable = false) : t.seg k = w.seg k := by
  cases h with
  | none => rfl
  | @sweep hg i h =>
    have hstate := List.find?_some h
    simp only [sweepable, Bool.and_eq_true, beq_iff_eq] at hstate
    rw [startSweep_seg, if_neg]
    rintro rfl
    exact hu hstate.1
  | @sense hg hno i h =>
    obtain ⟨r, -, -, hel⟩ := sensePick_spec h
    have hstate := ((senseEligible_iff r w i).1 hel).2.1
    rw [startSense_seg, if_neg]
    rintro rfl
    rw [hs] at hstate
    nomatch hstate

section
variable {s : State} {i : SegNo} {pre rest : List SegNo} (hq : QueueLawful s) (hentries : s.queue.entries = pre ++ i :: rest)
include hq hentries

theorem queueable_walkedTo : queueable s.engine (s.seg i) = true := (hq.2 i).1 (by rw [hentries]; simp)

variable (hi : freeStale s i = true)
include hi

theorem walkedTo_entries : (walkedTo i pre rest s).queue.entries = s.queue.entries :=
  (grantBase_walkedTo hentries hi (queueable_walkedTo hq hentries)).entries

theorem faulted_not_walkedTo {k : SegNo} (hk : ((walkedTo i pre rest s).seg k).state = .faulted) :
    k ∉ (walkedTo i pre rest s).queue.entries := by
  rw [walkedTo_entries hq hentries hi]
  rw [walkedTo_seg] at hk
  split at hk
  · nomatch hk
  · exact faulted_not_queued hq hk

/-- A segment put under capture is seen so after the grant. -/
theorem walkedTo_judged : let t := judgeGrant (walkedTo i pre rest s)
    t.asm = captureOf s [] [] i ∧ t.seg i = { s.seg i with state := .capturing, dirty := false } ∧
    (∀ k, k ≠ i → OrSensing t k (s.seg k)) ∧ t.queue.mark = true ∧ t.queue.ahead.getLast? = some i ∧
    t.queue.entries = lessGranted s t s.queue.entries ∧ t.stroke = s.stroke := by
  intro t
  have hg : Grants (walkedTo i pre rest s) t := grants_judgeGrant _
  have hqueue := walkedTo_queue (pre := pre) (rest := rest) (queueable_walkedTo hq hentries)
  have hseg : (walkedTo i pre rest s).seg i = { s.seg i with state := .capturing, dirty := false } := by rw [walkedTo_seg, if_pos rfl]
  have hfaulted := fun k => faulted_not_walkedTo hq hentries hi (k := k)
  have hlast (l : List SegNo) : (l ++ [i]).getLast? = some i := by simp
  refine ⟨hg.asm.trans walkedTo_asm, ?_, fun k hk => ?_, ?_, ?_, ?_, hg.stroke.trans walkedTo_stroke⟩
  · rw [hg.seg_of_ne (k := i) (by rw [hseg]; exact fun h => nomatch h) (by rw [hseg]; rfl), hseg]
  · have hk' : (walkedTo i pre rest s).seg k = s.seg k := by rw [walkedTo_seg, if_neg hk]
    rw [← hk']
    exact hg.orSensing k
  · rcases hg.queue hfaulted with ⟨-, he⟩ | ⟨k, j, -, -, -, hmark, -⟩
    · rw [he, hqueue]
    · rw [hmark, hqueue]
  · rcases hg.queue hfaulted with ⟨-, he⟩ | ⟨k, j, -, -, -, -, hahead, -, hstate⟩
    · rw [he, hqueue]
      exact hlast pre
    · have hne : i ≠ k := fun e => by
        rw [← e, hseg] at hstate
        rcases hstate with h | h <;> nomatch h
      rw [hahead, hqueue]
      simp only [List.filter_append, List.filter_cons, bne_iff_ne.2 hne, if_true, List.filter_nil]
      exact hlast _
  · rw [hg.entries walkedTo_conv hfaulted, walkedTo_entries hq hentries hi]

end

/-- Where no entry is free the judging starts no walk. -/
theorem noWalk_judged {s t : State} (hq : QueueLawful s) (hasm : s.asm = none) (ht : t = judgeGrant s) :
    t.asm = none ∧ t.stroke = s.stroke ∧ t.queue.entries = lessGranted s t s.queue.entries ∧ ∀ i, OrSensing t i (s.seg i) := by
  have hg : Grants s t := ht ▸ grants_judgeGrant s
  exact ⟨hg.asm.trans hasm, hg.stroke, hg.entries rfl fun i hi => faulted_not_queued hq hi, hg.orSensing⟩

theorem freeStale_false {s t : State} (hclaims : t.claims = s.claims) (htouch : t.touch = s.touch)
    (h : ∀ i ∈ s.queue.entries, (s.seg i).state = .stale →
      (t.claim (lineOf i)).claim = .taken ∨ (t.touchLine (lineOf i)).shield = true) :
    ∀ k ∈ s.queue.entries, freeStale s k = false := by
  intro k hk
  rw [Bool.eq_false_iff]
  intro hfree
  obtain ⟨hstale, hclaim, hshield⟩ := (freeStale_iff s k).1 hfree
  rcases h k hk hstale with hc | hc
  · rw [State.claim, hclaims] at hc
    rw [claimed, State.claim, hc] at hclaim
    nomatch hclaim
  · rw [State.touchLine, htouch] at hc
    rw [shielded, State.touchLine, hc] at hshield
    nomatch hshield

/-- With A or B shown a walk is judged as the statements say, where no record stands (R63 to R65). -/
theorem walkJudged_shown {s : State} (hrun : s.engine.state = .running) (hasm : s.asm = none) (hq : QueueLawful s)
    (hshown : s.engine.shown ≠ .none) : WalkJudged s (judge s) := by
  have hclaims : (judge s).claims = s.claims := judge_claims s
  have htouch : (judge s).touch = s.touch := judge_touch s
  have hfree := freeEntry_eq hclaims htouch
  refine ⟨fun _ i hfind => ?_, fun hnone => absurd hnone hshown, fun hbusy => ?_⟩
  · rw [hfree] at hfind
    rcases judgeWork_noAsm hrun hasm hshown with ⟨k, pre, rest, hentries, hk, hpre, hwork⟩ | ⟨hnone, -⟩
    · have hfind' : s.queue.entries.find? (freeStale s) = some k := by
        rw [hentries, List.find?_append, List.find?_eq_none.2 fun j hj => Bool.eq_false_iff.1 (hpre j hj), Option.none_or,
          List.find?_cons_of_pos hk]
      obtain rfl := Option.some.inj (hfind'.symm.trans hfind)
      rw [judge, hwork]
      exact walkedTo_judged hq hentries hk
    · exact absurd (List.find?_some hfind) (Bool.eq_false_iff.1 (hnone i (List.mem_of_find?_eq_some hfind)))
  · have hnone := freeStale_false hclaims htouch hbusy
    rcases judgeWork_noAsm hrun hasm hshown with ⟨k, pre, rest, hentries, hk, -⟩ | ⟨-, hwork⟩
    · exact absurd hk (Bool.eq_false_iff.1 (hnone k (by rw [hentries]; simp)))
    · exact noWalk_judged hq hasm (by rw [judge, hwork])

end Sys2Proof.Machine

/-! ### Segments that join and leave the queue together (R48, R51, R52) -/

namespace Sys2Proof.Machine

/-! #### The order of joins and leaves -/

/-- The entries after one segment is judged at the tail, with what is queue-able. -/
def tailed (q : SegNo → Bool) (l : List SegNo) (i : SegNo) : List SegNo :=
  if q i then if l.contains i then l else l ++ [i] else l.filter (· != i)

/-- The entries after one segment is judged at the head. -/
def headed (q : SegNo → Bool) (i : SegNo) (l : List SegNo) : List SegNo :=
  if q i then if l.contains i then l else i :: l else l.filter (· != i)

/-- The entries of a list that stay when segments are judged: those not judged, and the queue-able. -/
def staying (q : SegNo → Bool) (is l : List SegNo) : List SegNo := l.filter fun k => !is.contains k || q k

/-- The segments judged that join: the queue-able that were not there. -/
def joining (q : SegNo → Bool) (l is : List SegNo) : List SegNo := is.filter fun k => !l.contains k && q k

section
variable {q : SegNo → Bool} {i : SegNo} {is l : List SegNo}

theorem staying_cons_of_queueable (hq : q i = true) : staying q (i :: is) l = staying q is l := by
  refine List.filter_congr fun k _ => ?_
  by_cases hk : k = i
  · rw [hk, hq, Bool.or_true, Bool.or_true]
  · simp [hk]

theorem staying_cons_of_not (hq : q i = false) : staying q (i :: is) l = staying q is (l.filter (· != i)) := by
  rw [staying, staying, List.filter_filter]
  refine List.filter_congr fun k _ => ?_
  by_cases hk : k = i
  · simp [hk, hq]
  · simp [hk]

theorem joining_cons_of_mem (h : i ∈ l) : joining q l (i :: is) = joining q l is := by
  simp [joining, h]

theorem joining_cons_of_not (hq : q i = false) : joining q l (i :: is) = joining q l is := by
  simp [joining, hq]

theorem joining_cons (hq : q i = true) (h : i ∉ l) : joining q l (i :: is) = i :: joining q l is := by
  simp [joining, hq, h]

theorem joining_congr {l' : List SegNo} (h : ∀ k ∈ is, q k = true → (k ∈ l ↔ k ∈ l')) : joining q l is = joining q l' is := by
  refine List.filter_congr fun k hk => ?_
  cases hq : q k with
  | false => simp
  | true => simp [h k hk hq]

theorem foldl_tailed (hn : is.Nodup) : is.foldl (tailed q) l = staying q is l ++ joining q l is := by
  induction is generalizing l with
  | nil => simp [staying, joining]
  | cons i is ih =>
    obtain ⟨hi, hrest⟩ := List.nodup_cons.1 hn
    rw [List.foldl_cons, ih hrest, tailed]
    cases hq : q i with
    | true =>
      rw [staying_cons_of_queueable hq, if_pos rfl]
      by_cases hmem : i ∈ l
      · rw [if_pos (List.contains_iff_mem.2 hmem), joining_cons_of_mem hmem]
      · have hlast : staying q is (l ++ [i]) = staying q is l ++ [i] := by simp [staying, hq]
        have hjoin : joining q (l ++ [i]) is = joining q l is :=
          joining_congr fun k hk _ => by simp [show k ≠ i from fun e => hi (e ▸ hk)]
        rw [if_neg (by simpa using hmem), joining_cons hq hmem, hlast, hjoin, List.append_assoc]
        rfl
    | false =>
      have hjoin : joining q (l.filter (· != i)) is = joining q l is :=
        joining_congr fun k hk _ => by simp [show k ≠ i from fun e => hi (e ▸ hk)]
      rw [if_neg Bool.noConfusion, staying_cons_of_not hq, joining_cons_of_not hq, hjoin]

theorem foldr_headed (hn : is.Nodup) : is.foldr (headed q) l = joining q l is ++ staying q is l := by
  induction is with
  | nil => simp [staying, joining]
  | cons i is ih =>
    obtain ⟨hi, hrest⟩ := List.nodup_cons.1 hn
    have hmem : i ∈ joining q l is ++ staying q is l ↔ i ∈ l := by
      simp [joining, staying, hi]
    rw [List.foldr_cons, ih hrest, headed]
    cases hq : q i with
    | true =>
      rw [staying_cons_of_queueable hq, if_pos rfl]
      by_cases hl : i ∈ l
      · rw [if_pos (List.contains_iff_mem.2 (hmem.2 hl)), joining_cons_of_mem hl]
      · rw [if_neg (by simpa using mt hmem.1 hl), joining_cons hq hl]
        rfl
    | false =>
      have hjoin : (joining q l is).filter (· != i) = joining q l is :=
        leave_other fun h => hi (List.mem_filter.1 h).1
      have hstay : (staying q is l).filter (· != i) = staying q is (l.filter (· != i)) := by
        rw [staying, staying, List.filter_comm]
      rw [if_neg Bool.noConfusion, staying_cons_of_not hq, joining_cons_of_not hq, List.filter_append, hjoin, hstay]

end

/-! #### The queue -/

/-- What may wait in the queue (R40). -/
def waiting (s : State) (k : SegNo) : Bool := queueable s.engine (s.seg k)

theorem entries_sync_tail (i : SegNo) (s : State) : (sync .tail i s).queue.entries = tailed (waiting s) s.queue.entries i := by
  unfold tailed
  by_cases hq : waiting s i = true
  · rw [if_pos hq]
    by_cases hmem : i ∈ s.queue.entries
    · rw [sync_entries_present hq hmem, if_pos (List.contains_iff_mem.2 hmem)]
    · rw [sync_entries_joins hq hmem, if_neg (by simpa using hmem)]
      exact entries_joinTail _ _
  · rw [if_neg hq, sync_entries_leaves (Bool.eq_false_iff.2 hq)]
    exact entries_leave _ _

theorem entries_sync_head (i : SegNo) (s : State) : (sync .head i s).queue.entries = headed (waiting s) i s.queue.entries := by
  unfold headed
  by_cases hq : waiting s i = true
  · rw [if_pos hq]
    by_cases hmem : i ∈ s.queue.entries
    · rw [sync_entries_present hq hmem, if_pos (List.contains_iff_mem.2 hmem)]
    · rw [sync_entries_joins hq hmem, if_neg (by simpa using hmem)]
      exact entries_joinHead _ _
  · rw [if_neg hq, sync_entries_leaves (Bool.eq_false_iff.2 hq)]
    exact entries_leave _ _

theorem waiting_sync (e : QueueEnd) (i : SegNo) (s : State) : waiting (sync e i s) = waiting s := by
  funext k
  rw [waiting, waiting, sync_seg, still_engine (sync_still e i s)]

theorem waiting_syncHead (is : List SegNo) (s : State) : waiting (syncHead is s) = waiting s := by
  funext k
  rw [waiting, waiting, syncHead_seg, syncHead_engine]

/-- A tail run: the segments that may not wait leave, and those that have become queue-able join in the order of the list (R52). -/
theorem entries_syncTail {is : List SegNo} (hn : is.Nodup) (s : State) :
    (syncTail is s).queue.entries = staying (waiting s) is s.queue.entries ++ joining (waiting s) s.queue.entries is := by
  rw [← foldl_tailed hn]
  clear hn
  induction is generalizing s with
  | nil => rfl
  | cons i is ih => exact (ih (sync .tail i s)).trans (by rw [waiting_sync, entries_sync_tail]; rfl)

theorem syncHead_cons (i : SegNo) (is : List SegNo) (s : State) : syncHead (i :: is) s = sync .head i (syncHead is s) := by
  simp [syncHead]

/-- A head group: the segments that have become queue-able join ahead of every entry in the order of the list (R51). -/
theorem entries_syncHead {is : List SegNo} (hn : is.Nodup) (s : State) :
    (syncHead is s).queue.entries = joining (waiting s) s.queue.entries is ++ staying (waiting s) is s.queue.entries := by
  rw [← foldr_headed hn]
  clear hn
  induction is with
  | nil => rfl
  | cons i is ih => rw [syncHead_cons, entries_sync_head, waiting_syncHead, ih]; rfl

end Sys2Proof.Machine

/-! ### Drive start (R84 to R88) -/

namespace Sys2Proof.Machine

/-- The segments of the members that the recheck drops (R85). -/
def outOf (s : State) (ms : List Member) : List SegNo := (ms.filter (dropped s)).map Member.seg

/-- The state after the recheck: the record taken, the dropped members STALE and back in the queue as one head group (R85, R86). -/
def rechecked (s : State) (ms : List Member) : State := syncHead (outOf s ms) (setStates .stale (outOf s ms) (setAsm none s))

/-- The state with a drive of the members that remain (R87). -/
def driven (s : State) (ms : List Member) : State :=
  setStroke (driving s (keptMembers s ms))
    (syncTail ((keptMembers s ms).map Member.seg) (setStates .moving ((keptMembers s ms).map Member.seg) (rechecked s ms)))

theorem driving_eq (s : State) (kept : List Member) : driving s kept = { s.stroke with
    driven := some ⟨.drive, kept⟩, drive := Timer.start (drivePulse s.engine.copy), chargeReady := false } := rfl

section
variable {s : State} (ms : List Member)

theorem rechecked_asm : (rechecked s ms).asm = none := by simp [rechecked]

theorem rechecked_stroke : (rechecked s ms).stroke = s.stroke := by simp [rechecked]

theorem rechecked_conv : (rechecked s ms).conv = s.conv := by simp [rechecked]

theorem rechecked_still : (rechecked s ms).still = s.still := by simp [rechecked]

theorem rechecked_seg (k : SegNo) :
    (rechecked s ms).seg k = if k ∈ outOf s ms then { s.seg k with state := .stale } else s.seg k := by
  rw [rechecked, syncHead_seg, setStates_seg]
  rfl

theorem driven_asm : (driven s ms).asm = none := by simp [driven, rechecked_asm]

theorem driven_conv : (driven s ms).conv = s.conv := by simp [driven, rechecked_conv]

theorem driven_still : (driven s ms).still = s.still := by simp [driven, rechecked_still]

theorem driven_stroke : (driven s ms).stroke = driving s (keptMembers s ms) := rfl

/-- Whether the recheck drops a member is a matter of its segment. -/
theorem dropped_of_seg {m x : Member} (h : m.seg = x.seg) : dropped s m = dropped s x := by rw [dropped, dropped, h]

theorem mem_kept {m : Member} : m ∈ keptMembers s ms ↔ ∃ x ∈ ms, dropped s x = false ∧ { x with touched := false } = m := by
  simp [keptMembers, and_assoc]

theorem mem_keptSegs {k : SegNo} : k ∈ (keptMembers s ms).map Member.seg ↔ ∃ x ∈ ms, dropped s x = false ∧ x.seg = k := by
  simp only [List.mem_map, mem_kept]
  constructor
  · rintro ⟨m, ⟨x, hx, hd, rfl⟩, rfl⟩
    exact ⟨x, hx, hd, rfl⟩
  · rintro ⟨x, hx, hd, rfl⟩
    exact ⟨_, ⟨x, hx, hd, rfl⟩, rfl⟩

theorem mem_outOf {k : SegNo} : k ∈ outOf s ms ↔ ∃ x ∈ ms, dropped s x = true ∧ x.seg = k := by
  simp [outOf, and_assoc]

theorem kept_not_out {k : SegNo} (hk : k ∈ (keptMembers s ms).map Member.seg) : k ∉ outOf s ms := by
  obtain ⟨x, -, hx, rfl⟩ := (mem_keptSegs ms).1 hk
  intro hout
  obtain ⟨y, -, hy, hxy⟩ := (mem_outOf ms).1 hout
  rw [dropped_of_seg hxy, hx] at hy
  nomatch hy

theorem driven_seg (k : SegNo) : (driven s ms).seg k =
    if k ∈ (keptMembers s ms).map Member.seg then { s.seg k with state := .moving }
    else if k ∈ outOf s ms then { s.seg k with state := .stale } else s.seg k := by
  rw [driven, setStroke_seg, syncTail_seg, setStates_seg]
  split
  next hk => rw [rechecked_seg, if_neg (kept_not_out ms hk)]
  next => exact rechecked_seg ms k

end

theorem driveStart_eq {s : State} {a : Assembly} (ha : s.asm = some a) :
    driveStart s = if (keptMembers s a.members).isEmpty then rechecked s a.members else driven s a.members := by
  unfold driveStart
  simp only [ha, syncTail_stroke, setStates_stroke, syncHead_stroke, setAsm_stroke, syncTail_engine, setStates_engine,
    syncHead_engine, setAsm_engine]
  rfl

theorem driveStart_dropped {s : State} {a : Assembly} (ha : s.asm = some a) (h : keptMembers s a.members = []) :
    driveStart s = rechecked s a.members := by
  rw [driveStart_eq ha, h]
  rfl

theorem driveStart_kept {s : State} {a : Assembly} (ha : s.asm = some a) (h : keptMembers s a.members ≠ []) :
    driveStart s = driven s a.members := by
  rw [driveStart_eq ha, if_neg (by simpa using h)]

theorem driveReady_of {s : State} {a : Assembly} (ha : s.asm = some a) (hp : a.phase = .armed) (hrun : s.engine.state = .running)
    (hfree : DriveFree s) : driveReady s = true := by
  obtain ⟨hdriven, hcharge, hgate, hjob⟩ := hfree
  simp [driveReady, ha, hp, hrun, hdriven, hcharge, hgate, hjob]

theorem driveReady_spec {s : State} (h : driveReady s = true) : ∃ a, s.asm = some a ∧ a.phase = .armed ∧ s.engine.state = .running ∧ DriveFree s := by
  cases ha : s.asm with
  | none => rw [driveReady_noAsm ha] at h; nomatch h
  | some a =>
    simp only [driveReady, ha, Bool.and_eq_true, beq_iff_eq, Option.isNone_iff_eq_none] at h
    obtain ⟨⟨⟨⟨⟨hp, hd⟩, hc⟩, hg⟩, hr⟩, hj⟩ := h
    exact ⟨a, rfl, hp, hr, hd, hc, hg, hj⟩

/-! #### The queue after a recheck -/

section
variable {s : State} {ms : List Member} (hn : (ms.map Member.seg).Nodup)
include hn

theorem nodup_outOf : (outOf s ms).Nodup := hn.sublist (List.filter_sublist.map _)

theorem nodup_keptSegs : ((keptMembers s ms).map Member.seg).Nodup := by
  have hsegs : (keptMembers s ms).map Member.seg = (ms.filter fun m => !dropped s m).map Member.seg := by
    rw [keptMembers, List.map_map]
    rfl
  rw [hsegs]
  exact hn.sublist (List.filter_sublist.map _)

variable (hout : ∀ m ∈ ms, m.seg ∉ s.queue.entries) (hrun : queuesRun s.engine = true)
include hout hrun

/-- The dropped members that may wait rejoin as one head group in member order (R51, R85). -/
theorem rechecked_entries : (rechecked s ms).queue.entries = rejoining s (ms.filter (dropped s)) ++ s.queue.entries := by
  have hqueue : (setStates .stale (outOf s ms) (setAsm none s)).queue = s.queue := by simp
  rw [rechecked, entries_syncHead (nodup_outOf hn), hqueue]
  have hnot (k : SegNo) (hk : k ∈ outOf s ms) : k ∉ s.queue.entries := by
    obtain ⟨x, hx, -, rfl⟩ := (mem_outOf ms).1 hk
    exact hout x hx
  congr 1
  · refine List.filter_congr fun k hk => ?_
    have hengine : (setStates .stale (outOf s ms) (setAsm none s)).engine = s.engine := by simp
    rw [waiting, hengine, setStates_seg, if_pos hk]
    simp only [queueable, hrun, show SegState.stale.mayQueue = true from rfl, Bool.true_and]
    simp [hnot k hk]
    rfl
  · refine List.filter_eq_self.2 fun k hk => ?_
    simp [show k ∉ outOf s ms from fun h => hnot k h hk]

/-- The members that are driven were not in the queue (R47, R87). -/
theorem driven_entries : (driven s ms).queue.entries = rejoining s (ms.filter (dropped s)) ++ s.queue.entries := by
  have hqueue : (setStates .moving ((keptMembers s ms).map Member.seg) (rechecked s ms)).queue = (rechecked s ms).queue := by simp
  have hmoving (k : SegNo) (hk : k ∈ (keptMembers s ms).map Member.seg) :
      waiting (setStates .moving ((keptMembers s ms).map Member.seg) (rechecked s ms)) k = false := by
    rw [waiting, setStates_seg, if_pos hk]
    exact not_queueable rfl
  have hkept (k : SegNo) (hk : k ∈ (keptMembers s ms).map Member.seg) : k ∉ (rechecked s ms).queue.entries := by
    rw [rechecked_entries hn hout hrun]
    intro hmem
    rcases List.mem_append.1 hmem with h | h
    · exact kept_not_out ms hk (List.mem_filter.1 h).1
    · obtain ⟨x, hx, -, rfl⟩ := (mem_keptSegs ms).1 hk
      exact hout x hx h
  rw [driven, setStroke_queue, entries_syncTail (nodup_keptSegs hn), hqueue]
  have hstay : staying (waiting (setStates .moving ((keptMembers s ms).map Member.seg) (rechecked s ms)))
      ((keptMembers s ms).map Member.seg) (rechecked s ms).queue.entries = (rechecked s ms).queue.entries :=
    List.filter_eq_self.2 fun k hk => by simp only [Bool.or_eq_true, Bool.not_eq_true']; exact .inl (by
      rw [Bool.eq_false_iff]
      exact fun hc => hkept k (List.contains_iff_mem.1 hc) hk)
  have hjoin : joining (waiting (setStates .moving ((keptMembers s ms).map Member.seg) (rechecked s ms)))
      (rechecked s ms).queue.entries ((keptMembers s ms).map Member.seg) = [] :=
    List.filter_eq_nil_iff.2 fun k hk => by simp [hmoving k hk]
  rw [hstay, hjoin, List.append_nil, rechecked_entries hn hout hrun]

end

end Sys2Proof.Machine

/-! ### What a recheck comes to (R84 to R88) -/

namespace Sys2Proof.Machine

/-! #### The judging with A or B shown and no record -/

section
variable {d : State} (hasm : d.asm = none) (hshown : d.engine.shown ≠ .none)
include hasm hshown

theorem judgeWork_fresh : judgeWork d = d ∨ ∃ i pre rest, d.queue.entries = pre ++ i :: rest ∧ freeStale d i = true ∧ judgeWork d = walkedTo i pre rest d := by
  by_cases hrun : d.engine.state = .running
  · rcases judgeWork_noAsm hrun hasm hshown with ⟨i, pre, rest, hentries, hi, -, h⟩ | ⟨-, h⟩
    · exact .inr ⟨i, pre, rest, hentries, hi, h⟩
    · exact .inl h
  · exact .inl (judgeWork_notRunning hrun)

theorem judge_fresh_stroke : (judge d).stroke = d.stroke := by
  rw [judge, (grants_judgeGrant (judgeWork d)).stroke]
  rcases judgeWork_fresh hasm hshown with h | ⟨i, pre, rest, -, -, h⟩ <;> rw [h]
  exact walkedTo_stroke

/-- A record that stands after the judging has just started its first capture. -/
theorem judge_fresh_asm {a : Assembly} (ha : (judge d).asm = some a) : a.phase = .assembling ∧ a.members = [] := by
  rw [judge, (grants_judgeGrant (judgeWork d)).asm] at ha
  rcases judgeWork_fresh hasm hshown with h | ⟨i, pre, rest, -, -, h⟩
  · rw [h, hasm] at ha
    nomatch ha
  · rw [h, walkedTo_asm] at ha
    obtain rfl := Option.some.inj ha
    exact ⟨rfl, rfl⟩

/-- A segment is as it was, is under the granted job, or was STALE and is under capture. -/
theorem judge_fresh_seg (k : SegNo) : OrSensing (judge d) k (d.seg k) ∨ (d.seg k).state = .stale ∧ Recaptured (judge d) k (d.seg k) := by
  have hg := grants_judgeGrant (judgeWork d)
  rcases judgeWork_fresh hasm hshown with h | ⟨i, pre, rest, -, hi, h⟩
  · rw [h] at hg
    rw [judge, h]
    exact .inl (hg.orSensing k)
  · rw [h] at hg
    rw [judge, h]
    by_cases hk : k = i
    · subst hk
      have hseg : (walkedTo k pre rest d).seg k = { d.seg k with state := .capturing, dirty := false } := by rw [walkedTo_seg, if_pos rfl]
      refine .inr ⟨freeStale_stale hi, ?_, _, _, hg.asm.trans walkedTo_asm, rfl, rfl⟩
      rw [hg.seg_of_ne (by rw [hseg]; exact (nomatch ·)) (by rw [hseg]; rfl), hseg]
    · left
      have hseg := hg.orSensing k
      rwa [walkedTo_seg, if_neg hk] at hseg

theorem judge_fresh_entries (hq : QueueLawful d) : (judge d).queue.entries = lessGranted d (judge d) d.queue.entries := by
  have hg := grants_judgeGrant (judgeWork d)
  rcases judgeWork_fresh hasm hshown with h | ⟨i, pre, rest, hentries, hi, h⟩
  · rw [h] at hg
    rw [judge, h]
    exact hg.entries rfl fun k hk => faulted_not_queued hq hk
  · rw [h] at hg
    rw [judge, h]
    have hqi : queueable d.engine (d.seg i) = true := (hq.2 i).1 (by rw [hentries]; simp)
    have hwalked : (walkedTo i pre rest d).queue.entries = d.queue.entries := by
      rw [walkedTo_queue hqi, hentries]
      simp [Queue.entries]
    rw [← hwalked]
    refine hg.entries walkedTo_conv fun k hk => ?_
    rw [hwalked]
    rw [walkedTo_seg] at hk
    split at hk
    next => nomatch hk
    next => exact faulted_not_queued hq hk

end

/-- With A or B shown, a drive that is ready starts, and the judging goes on as from the state it leaves. -/
theorem judge_driveStart {s : State} (hd : driveReady s = true) (hshown : s.engine.shown ≠ .none) (hasm : (driveStart s).asm = none) :
    judge s = judge (driveStart s) := by
  obtain ⟨a, -, -, hrun, -⟩ := driveReady_spec hd
  have hengine : (driveStart s).engine = s.engine := still_engine (driveStart_still s)
  have htwice := workRound_noAsm_twice (s := driveStart s) (by rw [hengine]; exact hrun) hasm (by rw [hengine]; exact hshown)
  rw [judge, judge, judgeWork_two (workRound_drive hd) rfl htwice, judgeWork_one rfl htwice]

/-! #### What the rest of the judging leaves of a drive -/

/-- The stroke with the members kept, their segments MOVING and none of them under capture. -/
structure DriveHeld (s : State) (kept : List Member) (u : State) : Prop where
  stroke : u.stroke = driving s kept
  conv : u.conv = s.conv
  seg : ∀ k ∈ kept.map Member.seg, u.seg k = { s.seg k with state := .moving }
  capture : ∀ a c, u.asm = some a → a.capture = some c → c.seg ∉ kept.map Member.seg

section
variable {s : State} {kept : List Member}

theorem DriveHeld.notReady {u : State} (h : DriveHeld s kept u) : driveReady u = false := by
  rw [Bool.eq_false_iff]
  intro hd
  obtain ⟨a, -, -, -, hnone, -⟩ := driveReady_spec hd
  rw [h.stroke] at hnone
  nomatch hnone

theorem DriveHeld.notGranted {u : State} (h : DriveHeld s kept u) : mayGrant u = false := by
  rw [Bool.eq_false_iff]
  intro hg
  obtain ⟨-, -, hphase, -⟩ := (mayGrant_iff u).1 hg
  rw [h.stroke] at hphase
  exact absurd (hphase _ rfl) (nomatch ·)

/-- A STALE segment is not one of the members. -/
theorem DriveHeld.stale {u : State} (h : DriveHeld s kept u) {k : SegNo} (hk : (u.seg k).state = .stale) : k ∉ kept.map Member.seg := fun hm => by
  rw [h.seg k hm] at hk
  nomatch hk

theorem driveHeld_rules : JudgeRules (DriveHeld s kept) where
  ends u a ha h := ⟨(walkEnd_stroke a u).trans h.stroke, (walkEnd_conv a u).trans h.conv, fun k hk => by
    rw [State.seg, walkEnd_segs]
    exact h.seg k hk, fun b c hb hc => by rw [walkEnd_capture a u b hb] at hc; nomatch hc⟩
  passes u i rest _ h := ⟨h.stroke, h.conv, h.seg, h.capture⟩
  starts u a i ha hi h := by
    have hnot := h.stale (freeStale_stale hi)
    refine ⟨(captureStart_stroke i u).trans h.stroke, (captureStart_conv i u).trans h.conv, fun k hk => ?_, fun b c hb hc => ?_⟩
    · rw [captureStart_seg, if_neg fun e : k = i => hnot (e ▸ hk)]
      exact h.seg k hk
    · rw [captureStart_asm ha] at hb
      obtain rfl := Option.some.inj hb
      obtain rfl := Option.some.inj hc
      exact hnot
  stores u h := by
    rcases captureStore_cases u with heq | ⟨a, c, ha, hc, hstore⟩
    · rwa [heq]
    have hnot := h.capture a c ha hc
    have hother (r : Segment) (k : SegNo) (hk : k ∈ kept.map Member.seg) (b : Option Assembly) : (setSeg c.seg r (setAsm b u)).seg k = u.seg k := by
      rw [seg_setSeg, if_neg fun e : k = c.seg => hnot (e ▸ hk)]
      rfl
    rcases hstore with ⟨-, heq⟩ | ⟨-, heq⟩
    · rw [heq]
      refine ⟨h.stroke, h.conv, fun k hk => ?_, fun b d hb hd => ?_⟩
      · rw [oweMirror_seg, hother _ k hk]
        exact h.seg k hk
      · obtain rfl := Option.some.inj hb
        nomatch hd
    · rw [heq]
      refine ⟨h.stroke, h.conv, fun k hk => ?_, fun b d hb hd => ?_⟩
      · rw [hother _ k hk]
        exact h.seg k hk
      · obtain rfl := Option.some.inj hb
        nomatch hd
  syncs i u h := ⟨(sync_stroke .tail i u).trans h.stroke, (sync_conv .tail i u).trans h.conv, fun k hk => by
    rw [sync_seg]
    exact h.seg k hk, fun a c ha hc => h.capture a c ((sync_asm .tail i u).symm.trans ha) hc⟩
  opens u _ h := ⟨h.stroke, h.conv, h.seg, fun a c ha hc => by
    obtain rfl := Option.some.inj ha
    nomatch hc⟩
  drives u hd h := absurd hd (by rw [h.notReady]; exact (nomatch ·))
  sweeps u i hg _ _ h := absurd hg (by rw [h.notGranted]; exact (nomatch ·))
  senses u i hg _ h := absurd hg (by rw [h.notGranted]; exact (nomatch ·))

end

theorem driveHeld_driven (s : State) (ms : List Member) : DriveHeld s (keptMembers s ms) (driven s ms) where
  stroke := driven_stroke ms
  conv := driven_conv ms
  seg k hk := by rw [driven_seg, if_pos hk]
  capture a c ha _ := by
    rw [driven_asm] at ha
    nomatch ha

/-- What a property that the judging keeps has from the state that the drive leaves. -/
theorem JudgeRules.judge_driving {P : State → Prop} (r : JudgeRules P) {s : State} (hd : driveReady s = true) (h : P (driveStart s)) :
    P (Machine.judge s) := by
  have hround (u : State) (hu : P u) : P (workRound u) := by
    unfold workRound
    split
    next hready => exact r.drives u hready hu
    next =>
      split
      next hready => exact r.walk (r.opens u hready hu)
      next => exact hu
  have hwork : P (judgeWork s) := by
    rw [judgeWork, repeat_succ_left, workRound_drive hd]
    exact repeat_induct P hround 7 _ h
  have hgrant := grants_judgeGrant (judgeWork s)
  rw [Machine.judge]
  generalize judgeGrant (judgeWork s) = t at hgrant
  cases hgrant with
  | none => exact hwork
  | sweep hg hi => exact r.sweeps _ _ hg (List.mem_of_find?_eq_some hi) (List.find?_some hi) hwork
  | sense hg _ hi => exact r.senses _ _ hg hi hwork

/-! #### The statement of a recheck -/

theorem judge_driven {s : State} {a : Assembly} (ha : s.asm = some a) (hd : driveReady s = true) (hkept : keptMembers s a.members ≠ []) :
    DriveHeld s (keptMembers s a.members) (judge s) := by
  refine driveHeld_rules.judge_driving hd ?_
  rw [driveStart_kept ha hkept]
  exact driveHeld_driven s a.members

section
variable {s : State} {a : Assembly} (ha : s.asm = some a)
include ha

/-- A member that the recheck drops is STALE after it. -/
theorem driveStart_seg_dropped {m : Member} (hm : m ∈ a.members) (hout : dropped s m = true) :
    (driveStart s).seg m.seg = { s.seg m.seg with state := .stale } := by
  have hmem : m.seg ∈ outOf s a.members := (mem_outOf a.members).2 ⟨m, hm, hout, rfl⟩
  rw [driveStart_eq ha]
  split
  · rw [rechecked_seg, if_pos hmem]
  · rw [driven_seg, if_neg fun hk => kept_not_out a.members hk hmem, if_pos hmem]

theorem driveStart_entries (hn : (a.members.map Member.seg).Nodup) (hout : ∀ m ∈ a.members, m.seg ∉ s.queue.entries)
    (hrun : queuesRun s.engine = true) :
    (driveStart s).queue.entries = rejoining s (a.members.filter (dropped s)) ++ s.queue.entries := by
  rw [driveStart_eq ha]
  split
  · exact rechecked_entries hn hout hrun
  · exact driven_entries hn hout hrun

end

theorem lessGranted_same {s t : State} (h : t.conv = s.conv) (l : List SegNo) : lessGranted s t l = l := if_pos (congrArg Converter.job h)

/-- The members of the record are not in a lawful queue (R47). -/
theorem members_not_queued {s : State} (hw : WorkLawful s) (hq : QueueLawful s) {a : Assembly} (ha : s.asm = some a) :
    (a.members.map Member.seg).Nodup ∧ ∀ m ∈ a.members, m.seg ∉ s.queue.entries := by
  obtain ⟨hn, hmember, -⟩ := hw.1 a ha
  refine ⟨hn, fun m hm hmem => ?_⟩
  have hwait := (hq.2 m.seg).1 hmem
  rw [not_queueable (by rw [hmember m hm]; rfl)] at hwait
  nomatch hwait

/-- A recheck is judged as the statements say (R85 to R88). -/
theorem driveJudged_judge {s : State} {a : Assembly} (ha : s.asm = some a) (hp : a.phase = .armed) (hrun : s.engine.state = .running)
    (hfree : DriveFree s) : DriveJudged s (judge s) s.stroke a.members := by
  have hd := driveReady_of ha hp hrun hfree
  have hasm := driveStart_asm s
  have hengine : (driveStart s).engine = s.engine := still_engine (driveStart_still s)
  refine ⟨fun hkept => ?_, fun hkept hshown => ?_, fun hw hshown => ?_⟩
  · have h := judge_driven ha hd hkept
    refine ⟨h.stroke, h.conv, fun hshown b hb => ?_, fun m hm => h.seg m.seg (List.mem_map_of_mem hm), ?_⟩
    · rw [judge_driveStart hd hshown hasm] at hb
      exact judge_fresh_asm hasm (by rw [hengine]; exact hshown) hb
    · rw [State.moduleLink, h.stroke]
      rfl
  · rw [judge_driveStart hd hshown hasm]
    have hshown' : (driveStart s).engine.shown ≠ .none := by rw [hengine]; exact hshown
    refine ⟨?_, fun b hb => judge_fresh_asm hasm hshown' hb⟩
    rw [judge_fresh_stroke hasm hshown', driveStart_dropped ha hkept, rechecked_stroke]
  · rw [judge_driveStart hd hshown hasm]
    have hshown' : (driveStart s).engine.shown ≠ .none := by rw [hengine]; exact hshown
    refine ⟨fun m hm => ?_, fun hq hconv => ?_⟩
    · obtain ⟨hmem, hout⟩ := List.mem_filter.1 hm
      have hseg := judge_fresh_seg hasm hshown' m.seg
      rw [driveStart_seg_dropped ha hmem hout] at hseg
      exact hseg.imp_right And.right
    · obtain ⟨hn, hnot⟩ := members_not_queued hw hq ha
      have hlawful : QueueLawful (driveStart s) := (queue_driveStart (hq.but [])).all
      rw [judge_fresh_entries hasm hshown' hlawful, lessGranted_same (hconv.trans (driveStart_conv s).symm),
        driveStart_entries ha hn hnot (runs_of_asm hw ha)]

end Sys2Proof.Machine

/-! ### A walk with no buffer shown (R66, R70 to R73) -/

namespace Sys2Proof.Machine

/-! #### One capture -/

/-- What a capture under NONE makes of a STALE segment. -/
def BlankRecord (r u : Segment) : Prop :=
  changeSet (blanked r) = 0 ∧ u = { blanked r with state := .clean } ∨
  changeSet (blanked r) ≠ 0 ∧ (u = { blanked r with state := .stale } ∨ u = { blanked r with state := .member })

/-- The member that such a capture makes of a segment with changes. -/
def blankMember (s : State) (i : SegNo) : Member := ⟨i, 0, changeSet (blanked (s.seg i)), false⟩

theorem blanked_stale {r : Segment} (h : r.state = .stale) : { blanked r with state := .stale } = blanked r := by
  rw [← h]

/-- A segment that a capture left STALE is captured as it was before. -/
theorem BlankRecord.again {r u v : Segment} (h : BlankRecord r u) (hr : r.state = .stale) (hu : u.state = .stale) (hv : BlankRecord u v) :
    BlankRecord r v := by
  rcases h with ⟨-, rfl⟩ | ⟨-, rfl | rfl⟩
  · nomatch hu
  · rwa [blanked_stale hr] at hv
  · nomatch hu

theorem costOf_lower_le (m : PinSet) : costOf 0 m ≤ 80 := by
  have hlow : (pinsOf m).length ≤ 80 := (List.length_filter_le _ _).trans (Nat.le_of_eq (by simp [allPins]))
  have hhigh : pinsOf 0 = [] := List.filter_eq_nil_iff.2 fun p _ => by simp
  rw [costOf, hhigh]
  simpa using hlow

section
variable {s : State} (a : Assembly) {i : SegNo} (hshown : s.engine.shown = .none) (hi : (s.seg i).state = .stale)
include hshown hi

/-- The outcome of a capture under NONE: with changes the segment fits any record that is still empty (R70 to R72). -/
theorem blankOutcome_cases :
    changeSet (blanked (s.seg i)) = 0 ∧ blankOutcome s a i = ({ blanked (s.seg i) with state := .clean }, none) ∨
    changeSet (blanked (s.seg i)) ≠ 0 ∧
      (blankOutcome s a i = ({ blanked (s.seg i) with state := .member }, some (blankMember s i)) ∨
        a.members ≠ [] ∧ blankOutcome s a i = ({ blanked (s.seg i) with state := .stale }, none)) := by
  have htarget : (blankCapture s i).target s.engine.copy = 0 := if_pos hshown
  have hchange : changeSet { s.seg i with state := .capturing, dirty := false, target := some 0 } = changeSet (blanked (s.seg i)) :=
    changeSet_of_shown ⟨rfl, rfl, rfl, rfl⟩ (by rw [hi]; exact (nomatch ·)) (nomatch ·)
  have hraise : raiseSet { s.seg i with state := .capturing, dirty := false, target := some 0 } = 0 := BitVec.and_zero
  have hlower : lowerSet { s.seg i with state := .capturing, dirty := false, target := some 0 } = changeSet (blanked (s.seg i)) := by
    rw [lowerSet, hchange]
    exact (congrArg (changeSet (blanked (s.seg i)) &&& ·) (BitVec.not_zero (n := 80))).trans BitVec.and_allOnes
  have hcases := captureOutcome_cases { a with captured := i :: a.captured, capture := some (blankCapture s i) } (blankCapture s i)
    s.engine.copy { s.seg i with state := .capturing, dirty := false }
  simp only [htarget, hchange, hraise, hlower] at hcases
  rcases hcases with ⟨h, -⟩ | ⟨-, h, -⟩ | ⟨-, -, h, ho⟩ | ⟨-, -, h, -, ho⟩ | ⟨-, -, h, hfull, ho⟩
  · nomatch h
  · nomatch h
  · exact .inl ⟨h, ho⟩
  · exact .inr ⟨h, .inl ho⟩
  · refine .inr ⟨h, .inr ⟨fun hnil => hfull ?_, ho⟩⟩
    have hcost := costOf_lower_le (changeSet (blanked (s.seg i)))
    simp only [budgetLeft, totalCost, hnil, Config.maxMembers, Config.budget]
    exact ⟨by decide, hcost.trans (by decide)⟩

theorem blankOutcome_record : BlankRecord (s.seg i) (blankOutcome s a i).1 := by
  rcases blankOutcome_cases a hshown hi with ⟨h, ho⟩ | ⟨h, ho | ⟨-, ho⟩⟩ <;> rw [ho]
  · exact .inl ⟨h, rfl⟩
  · exact .inr ⟨h, .inr rfl⟩
  · exact .inr ⟨h, .inl rfl⟩

end

/-- The queue after a capture under NONE: the segment stays in its place, or has left. -/
theorem captureNone_queue_cases {s : State} {a : Assembly} {i : SegNo} (ha : s.asm = some a) (hq : queueable s.engine (s.seg i) = true)
    (hmem : i ∈ s.queue.entries) : (captureNone i s).queue = s.queue ∨ (captureNone i s).queue = s.queue.leave i := by
  rw [captureNone_queue ha hq hmem]
  cases hout : queueable s.engine (blankOutcome s a i).1 with
  | true => exact .inl (sync_entries_present (by rw [seg_setSeg_self]; exact hout) hmem)
  | false => exact .inr (sync_entries_leaves (by rw [seg_setSeg_self]; exact hout))

/-- A capture under NONE keeps the order of a queue. -/
theorem inOrder_captureNone {Q : List SegNo} {w : State} {a : Assembly} {k : SegNo} (ha : w.asm = some a) (hmem : k ∈ w.queue.entries)
    (hq : queueable w.engine (w.seg k) = true) (h : InOrder Q w) : InOrder Q (captureNone k w) :=
  (InOrder.sync (s := setSeg k (blankOutcome w a k).1 w) h .tail fun _ _ => hmem).congr (by rw [captureNone_queue ha hq hmem])

/-! #### What a walk keeps from its first capture on -/

/-- A walk under NONE from a state. -/
structure BlankWalk (s w : State) : Prop where
  still : w.still = s.still
  stroke : w.stroke = s.stroke
  conv : w.conv = s.conv
  lawful : QueueLawful w
  order : InOrder s.queue.entries w
  seg : ∀ k, w.seg k = s.seg k ∨ k ∈ s.queue.entries ∧ freeStale s k = true ∧ BlankRecord (s.seg k) (w.seg k)
  members : ∀ a, w.asm = some a → ∀ m ∈ a.members, m.seg ∈ s.queue.entries ∧ freeStale s m.seg = true ∧
    changeSet (blanked (s.seg m.seg)) ≠ 0 ∧ w.seg m.seg = { blanked (s.seg m.seg) with state := .member } ∧ m.touched = false

/-- The first entry has been captured: it is CLEAN, or the first member of the record. -/
structure BlankFirst (s : State) (i : SegNo) (w : State) : Prop where
  clean : changeSet (blanked (s.seg i)) = 0 → w.seg i = { blanked (s.seg i) with state := .clean }
  head : changeSet (blanked (s.seg i)) ≠ 0 → ∃ a, w.asm = some a ∧ a.members.head? = some (blankMember s i)

/-- In the walk: the record is open, and while it is empty the entries before the mark and those captured are not free. -/
structure BlankWalking (s : State) (a : Assembly) (w : State) : Prop extends BlankWalk s w where
  asm : w.asm = some a
  assembling : a.phase = .assembling
  capture : a.capture = none
  examined : a.members = [] → ∀ k ∈ w.queue.entries, k ∈ w.queue.behind ∨ freeStale w k = false
  captured : a.members = [] → ∀ k ∈ a.captured, freeStale w k = false

/-- At its end: the record is ARMED with members, or there is none and no entry is free. -/
structure BlankWalked (s w : State) : Prop extends BlankWalk s w where
  mark : w.queue.mark = false
  done : w.asm = none ∧ (∀ k ∈ w.queue.entries, freeStale w k = false) ∨ ∃ a, w.asm = some a ∧ a.phase = .armed ∧ a.members ≠ []

theorem freeStale_congr {s w : State} {k : SegNo} (hstill : w.still = s.still) (hseg : w.seg k = s.seg k) : freeStale w k = freeStale s k := by
  simp only [freeStale, hseg, claimed, shielded, State.claim, State.touchLine, still_claims hstill, still_touch hstill]

section
variable {s w : State}

theorem freeStale_setQueue (q : Queue) (k : SegNo) : freeStale (setQueue q w) k = freeStale w k := rfl

theorem BlankWalk.setQueue (h : BlankWalk s w) {q : Queue} (hq : q.entries = w.queue.entries) : BlankWalk s (setQueue q w) where
  still := h.still
  stroke := h.stroke
  conv := h.conv
  lawful := ⟨by rw [setQueue_queue, hq]; exact h.lawful.1, fun k => by rw [setQueue_queue, hq]; exact h.lawful.2 k⟩
  order := h.order.congr hq
  seg := h.seg
  members := h.members

/-- A walk passes over an entry that it may not capture. -/
theorem BlankWalking.pass {a : Assembly} (h : BlankWalking s a w) {k : SegNo} {rest : List SegNo} (hb : w.queue.behind = k :: rest)
    (hk : eligible a w k = false) : BlankWalking s a (setQueue (w.queue.passMark k rest) w) where
  toBlankWalk := h.toBlankWalk.setQueue (entries_passMark hb)
  asm := h.asm
  assembling := h.assembling
  capture := h.capture
  captured := h.captured
  examined hnil j hj := by
    rw [setQueue_queue, entries_passMark hb] at hj
    rw [setQueue_queue]
    rcases h.examined hnil j hj with hbehind | hfree
    · rw [hb] at hbehind
      rcases List.mem_cons.1 hbehind with rfl | hrest
      · right
        rw [eligible, Bool.and_eq_false_iff] at hk
        rcases hk with hk | hk
        · exact hk
        · exact h.captured hnil j (by simpa using hk)
      · exact .inl hrest
    · exact .inr hfree

/-- A record has room until it holds a member. -/
theorem not_full_of_empty {a : Assembly} (h : a.members = []) : a.full = false := by
  rw [Assembly.full, budgetLeft, h]
  rfl

/-- The end of a walk: the record is full, or every entry has been examined. -/
theorem BlankWalking.ends {a : Assembly} (h : BlankWalking s a w) (hend : a.full = true ∨ w.queue.behind = []) :
    BlankWalked s (walkEnd a w) := by
  have hentries : w.queue.endWalk.entries = w.queue.entries := by simp [Queue.endWalk, Queue.entries]
  have hbase := h.toBlankWalk.setQueue hentries
  by_cases hnil : a.members = []
  · have hw : walkEnd a w = setAsm none (Machine.setQueue w.queue.endWalk w) := by
      unfold walkEnd
      simp only [hnil]
      rfl
    have hbehind : w.queue.behind = [] := hend.resolve_left (by rw [not_full_of_empty hnil]; exact (nomatch ·))
    rw [hw]
    refine ⟨⟨h.still, h.stroke, h.conv, hbase.lawful, hbase.order, h.seg, fun _ hb => (nomatch hb)⟩, rfl,
      .inl ⟨rfl, fun k hk => ?_⟩⟩
    rcases h.examined hnil k (by rw [← hentries]; exact hk) with hin | hfree
    · rw [hbehind] at hin
      nomatch hin
    · exact hfree
  · have hw : walkEnd a w = setAsm (some { a with phase := .armed, captured := [], capture := none }) (Machine.setQueue w.queue.endWalk w) := by
      unfold walkEnd
      simp only [List.isEmpty_iff, hnil]
      rfl
    rw [hw]
    refine ⟨⟨h.still, h.stroke, h.conv, hbase.lawful, hbase.order, h.seg, fun b hb => ?_⟩, rfl,
      .inr ⟨_, rfl, rfl, hnil⟩⟩
    obtain rfl := Option.some.inj hb
    exact h.members a h.asm

end

/-! #### One more capture -/

section
variable {k : SegNo} {w : State} {a : Assembly} (ha : w.asm = some a) (hfree : freeStale w k = true) (hmem : k ∈ w.queue.entries)
  (hshown : w.engine.shown = .none)
include ha hfree

theorem captureNone_members (hshown : w.engine.shown = .none) {m : Member} (hm : m ∈ a.members ++ (blankOutcome w a k).2.toList) :
    m ∈ a.members ∨ m = blankMember w k ∧ changeSet (blanked (w.seg k)) ≠ 0 ∧
      (captureNone k w).seg k = { blanked (w.seg k) with state := .member } := by
  refine (List.mem_append.1 hm).imp_right fun hnew => ?_
  have hseg : (captureNone k w).seg k = (blankOutcome w a k).1 := by rw [captureNone_seg ha, if_pos rfl]
  rcases blankOutcome_cases a hshown (freeStale_stale hfree) with ⟨-, ho⟩ | ⟨hne, ho | ⟨-, ho⟩⟩
  · rw [ho] at hnew
    nomatch hnew
  · rw [ho] at hnew
    exact ⟨List.mem_singleton.1 hnew, hne, by rw [hseg, ho]⟩
  · rw [ho] at hnew
    nomatch hnew

include hmem hshown
/-- While the record stays empty, the segment captured is not free any more, and no other has become free. -/
theorem captureNone_examined (hq : queueable w.engine (w.seg k) = true) (hnil : a.members ++ (blankOutcome w a k).2.toList = []) :
    a.members = [] ∧ freeStale (captureNone k w) k = false ∧
      (∀ j ∈ (captureNone k w).queue.entries, j ∈ w.queue.entries) ∧
      ∀ j ≠ k, freeStale (captureNone k w) j = freeStale w j ∧ (j ∈ w.queue.behind → j ∈ (captureNone k w).queue.behind) := by
  obtain ⟨hmembers, hnone⟩ := List.append_eq_nil_iff.1 hnil
  have hclean : (blankOutcome w a k).1.state = .clean := by
    rcases blankOutcome_cases a hshown (freeStale_stale hfree) with ⟨-, ho⟩ | ⟨-, ho | ⟨hne, -⟩⟩
    · rw [ho]
    · rw [ho] at hnone
      nomatch hnone
    · exact absurd hmembers hne
  refine ⟨hmembers, ?_, ?_, fun j hj => ⟨?_, ?_⟩⟩
  · rw [Bool.eq_false_iff]
    intro hf
    have hstale := freeStale_stale hf
    rw [captureNone_seg ha, if_pos rfl, hclean] at hstale
    nomatch hstale
  · intro j hj
    rcases captureNone_queue_cases ha hq hmem with h | h <;> rw [h] at hj
    · exact hj
    · rw [entries_leave] at hj
      exact (List.mem_filter.1 hj).1
  · exact freeStale_congr (captureNone_still k w) (by rw [captureNone_seg ha, if_neg hj])
  · intro hb
    rcases captureNone_queue_cases ha hq hmem with h | h <;> rw [h]
    · exact hb
    · exact List.mem_filter.2 ⟨hb, bne_iff_ne.2 hj⟩

end

/-- A capture of a walk under NONE: the record is open, and while it is empty no other entry before the mark is free. -/
theorem BlankWalk.captures {s w : State} {k : SegNo} {a : Assembly} (h : BlankWalk s w) (hs : QueueLawful s) (hshown : s.engine.shown = .none)
    (ha : w.asm = some a) (hopen : a.phase = .assembling) (hfree : freeStale w k = true) (hmem : k ∈ w.queue.entries)
    (hexam : a.members = [] → ∀ j ∈ w.queue.entries, j ≠ k → j ∈ w.queue.behind ∨ freeStale w j = false)
    (hcap : a.members = [] → ∀ j ∈ a.captured, freeStale w j = false) :
    BlankWalking s { a with captured := k :: a.captured, members := a.members ++ (blankOutcome w a k).2.toList, capture := none }
      (captureNone k w) := by
  have hengine : w.engine = s.engine := still_engine h.still
  have hshown' : w.engine.shown = .none := by rw [hengine]; exact hshown
  have hstale := freeStale_stale hfree
  have hq : queueable w.engine (w.seg k) = true := (h.lawful.2 k).1 hmem
  have hseg (j : SegNo) : (captureNone k w).seg j = if j = k then (blankOutcome w a k).1 else w.seg j := captureNone_seg ha k j
  have hrecord := blankOutcome_record a hshown' hstale
  -- the segment was an entry of the queue before the walk, free, and its record differs at most by an earlier capture
  have hold : k ∈ s.queue.entries ∧ freeStale s k = true ∧ BlankRecord (s.seg k) (blankOutcome w a k).1 ∧ blanked (w.seg k) = blanked (s.seg k) := by
    rcases h.seg k with heq | ⟨hin, hf, hr⟩
    · refine ⟨(hs.2 k).2 ?_, (freeStale_congr h.still heq).symm.trans hfree, by rw [← heq]; exact hrecord, by rw [heq]⟩
      rw [← heq, ← hengine]
      exact hq
    · refine ⟨hin, hf, hr.again (freeStale_stale hf) hstale hrecord, ?_⟩
      rcases hr with ⟨-, hr⟩ | ⟨-, hr | hr⟩
      · rw [hr] at hstale; nomatch hstale
      · rw [hr, blanked_stale (freeStale_stale hf)]
      · rw [hr] at hstale; nomatch hstale
  obtain ⟨hin, hf, hrec, hblank⟩ := hold
  refine ⟨⟨(captureNone_still k w).trans h.still, (captureNone_stroke k).trans h.stroke, (captureNone_conv k).trans h.conv,
    (queue_captureNone ha k (h.lawful.but [])).all, inOrder_captureNone ha hmem hq h.order, fun j => ?_,
    fun b hb m hm => ?_⟩, captureNone_asm ha k, hopen, rfl, fun hnil j hj => ?_, fun hnil j hj => ?_⟩
  · rw [hseg]
    split
    next hjk =>
      rw [hjk]
      exact .inr ⟨hin, hf, hrec⟩
    next => exact h.seg j
  · rw [captureNone_asm ha] at hb
    obtain rfl := Option.some.inj hb
    rcases captureNone_members ha hfree hshown' hm with hm | ⟨rfl, hne, hmember⟩
    · obtain ⟨hin, hf, hne, hmseg, htouch⟩ := h.members a ha m hm
      refine ⟨hin, hf, hne, ?_, htouch⟩
      rw [hseg, if_neg (fun hmk : m.seg = k => by rw [← hmk, hmseg] at hstale; nomatch hstale)]
      exact hmseg
    · rw [hblank] at hne hmember
      exact ⟨hin, hf, hne, hmember, rfl⟩
  · obtain ⟨hmembers, hnot, hsub, hother⟩ := captureNone_examined ha hfree hmem hshown' hq hnil
    by_cases hjk : j = k
    · exact .inr (hjk ▸ hnot)
    · obtain ⟨hsame, hbehind⟩ := hother j hjk
      exact (hexam hmembers j (hsub j hj) hjk).imp hbehind (hsame.trans ·)
  · obtain ⟨hmembers, hnot, -, hother⟩ := captureNone_examined ha hfree hmem hshown' hq hnil
    by_cases hjk : j = k
    · exact hjk ▸ hnot
    · exact (hother j hjk).1.trans (hcap hmembers j ((List.mem_cons.1 hj).resolve_left hjk))

/-! #### The whole walk -/

theorem BlankFirst.pass {s w : State} {i : SegNo} (h : BlankFirst s i w) (q : Queue) : BlankFirst s i (setQueue q w) := ⟨h.clean, h.head⟩

theorem BlankFirst.captures {s w : State} {i k : SegNo} {a : Assembly} (h : BlankFirst s i w) (ha : w.asm = some a) (hfree : freeStale w k = true) :
    BlankFirst s i (captureNone k w) where
  clean hz := by
    have hclean := h.clean hz
    rw [captureNone_seg ha, if_neg]
    · exact hclean
    · rintro rfl
      have hstale := freeStale_stale hfree
      rw [hclean] at hstale
      nomatch hstale
  head hne := by
    obtain ⟨b, hb, hhead⟩ := h.head hne
    obtain rfl := Option.some.inj (hb.symm.trans ha)
    refine ⟨_, captureNone_asm ha k, ?_⟩
    rw [List.head?_append_of_ne_nil _ fun hnil => by rw [hnil] at hhead; nomatch hhead]
    exact hhead

theorem BlankFirst.ends {s w : State} {i : SegNo} {a : Assembly} (h : BlankFirst s i w) (ha : w.asm = some a) : BlankFirst s i (walkEnd a w) where
  clean hz := by
    rw [State.seg, walkEnd_segs]
    exact h.clean hz
  head hne := by
    obtain ⟨b, hb, hhead⟩ := h.head hne
    obtain rfl := Option.some.inj (hb.symm.trans ha)
    have hne : b.members ≠ [] := fun hnil => by rw [hnil] at hhead; nomatch hhead
    refine ⟨{ b with phase := .armed, captured := [], capture := none }, ?_, hhead⟩
    unfold walkEnd
    simp only [List.isEmpty_iff, hne]
    rfl

/-- A walk under NONE captures an eligible entry and goes on (R56, R66). -/
theorem walkOn_blank {w : State} {a : Assembly} (ha : w.asm = some a) (hfull : a.full = false) {k : SegNo} {rest : List SegNo}
    (hb : w.queue.behind = k :: rest) (hk : eligible a w k = true) (hshown : w.engine.shown = .none) (n : Nat) :
    walkOn (n + 1) w = walkOn n (captureNone k (setQueue (w.queue.passMark k rest) w)) := by
  rw [walkOn, ha]
  simp only [hfull, hb, hk, if_true]
  rw [if_neg Bool.noConfusion, if_pos (by exact hshown)]

theorem captureNone_behind_le {w : State} {a : Assembly} {k : SegNo} (ha : w.asm = some a) (hq : queueable w.engine (w.seg k) = true)
    (hmem : k ∈ w.queue.entries) : (captureNone k w).queue.behind.length ≤ w.queue.behind.length := by
  rcases captureNone_queue_cases ha hq hmem with h | h <;> rw [h]
  exact List.length_filter_le _ _

/-- A walk under NONE from its first capture to its end. -/
theorem BlankWalking.walkOn {s : State} (hs : QueueLawful s) (hshown : s.engine.shown = .none) {i : SegNo} (n : Nat) {w : State} {a : Assembly}
    (h : BlankWalking s a w) (hfirst : BlankFirst s i w) (hn : w.queue.behind.length < n) :
    BlankWalked s (walkOn n w) ∧ BlankFirst s i (walkOn n w) := by
  induction n generalizing w a with
  | zero => nomatch hn
  | succ n ih =>
    by_cases hend : a.full = true ∨ w.queue.behind = []
    · rw [walkOn_end h.asm hend]
      exact ⟨h.ends hend, hfirst.ends h.asm⟩
    · obtain ⟨hfull, hbehind⟩ := not_or.1 hend
      rw [Bool.not_eq_true] at hfull
      obtain ⟨k, rest, hb⟩ := List.exists_cons_of_ne_nil hbehind
      rw [hb, List.length_cons] at hn
      cases hk : eligible a w k with
      | false =>
        rw [walkOn_pass h.asm hfull hb hk]
        exact ih (h.pass hb hk) (hfirst.pass _) (Nat.lt_of_succ_lt_succ hn)
      | true =>
        have hshown' : w.engine.shown = .none := by rw [still_engine h.still]; exact hshown
        rw [walkOn_blank h.asm hfull hb hk hshown']
        have hpass := h.toBlankWalk.setQueue (entries_passMark hb)
        have hmem := mem_of_behind hb
        have hfree : freeStale (setQueue (w.queue.passMark k rest) w) k = true := eligible_freeStale (s := w) hk
        have hwalking := hpass.captures hs hshown h.asm h.assembling hfree hmem
          (fun hnil j hj hjk => by
            rw [setQueue_queue, entries_passMark hb] at hj
            rcases h.examined hnil j hj with hin | hnot
            · rw [hb] at hin
              exact .inl ((List.mem_cons.1 hin).resolve_left hjk)
            · exact .inr hnot)
          h.captured
        refine ih hwalking ((hfirst.pass _).captures (s := s) h.asm hfree) ?_
        exact Nat.lt_of_le_of_lt (captureNone_behind_le h.asm ((hpass.lawful.2 k).1 hmem) hmem) (Nat.lt_of_succ_lt_succ hn)

end Sys2Proof.Machine

/-! ### The judging with no buffer shown (R63, R66, R84, R87) -/

namespace Sys2Proof.Machine

/-! #### The walk from its start -/

/-- A walk passes over the entries before the first that it may capture. -/
theorem walkOn_passes {w : State} {a : Assembly} (hfull : a.full = false) {l : List SegNo} (n : Nat) {pre : List SegNo}
    (hpre : ∀ k ∈ pre, eligible a w k = false) (ha : w.asm = some a) (hb : w.queue.behind = pre ++ l) :
    walkOn (n + pre.length) w = walkOn n (setQueue { w.queue with ahead := w.queue.ahead ++ pre, behind := l } w) := by
  induction pre generalizing w with
  | nil =>
    rw [List.append_nil, ← show w.queue.behind = l from hb]
    rfl
  | cons k pre ih =>
    rw [List.cons_append] at hb
    rw [List.length_cons, ← Nat.add_assoc, walkOn_pass ha hfull hb (hpre k List.mem_cons_self),
      ih (w := setQueue (w.queue.passMark k (pre ++ l)) w) (fun j hj => hpre j (List.mem_cons_of_mem _ hj)) ha rfl]
    simp only [setQueue_queue, Queue.passMark, List.append_assoc, List.cons_append, List.nil_append]
    rfl

theorem sublist_of_inOrder {l : List SegNo} {w : State} (h : InOrder l w) (hin : ∀ k ∈ w.queue.entries, k ∈ l) : w.queue.entries.Sublist l := by
  have hall : (w.queue.entries.filter fun k => decide (k ∈ l)) = w.queue.entries :=
    List.filter_eq_self.2 fun k hk => decide_eq_true (hin k hk)
  rw [InOrder, hall] at h
  exact h

section
variable {s : State} (hs : QueueLawful s)
include hs

theorem blankWalk_started {q : Queue} (hq : q.entries = s.queue.entries) : BlankWalk s (setQueue q (setAsm (some Assembly.started) s)) where
  still := rfl
  stroke := rfl
  conv := rfl
  lawful := ⟨by rw [setQueue_queue, hq]; exact hs.1, fun k => by rw [setQueue_queue, hq]; exact hs.2 k⟩
  order := (inOrder_self s).congr hq
  seg k := .inl rfl
  members a ha m hm := by
    obtain rfl := Option.some.inj ha
    nomatch hm

/-- A walk under NONE that starts, with the first entry that is free (R64, R66). -/
theorem startWalk_blank (hshown : s.engine.shown = .none) {i : SegNo} {pre rest : List SegNo} (hentries : s.queue.entries = pre ++ i :: rest)
    (hi : freeStale s i = true) (hpre : ∀ k ∈ pre, freeStale s k = false) :
    BlankWalked s (startWalk s) ∧ BlankFirst s i (startWalk s) := by
  have hpass : (Queue.mk (pre ++ [i]) rest true).entries = s.queue.entries := by rw [hentries]; simp [Queue.entries]
  have hlen : s.queue.entries.length + 1 = (rest.length + 1 + 1) + pre.length := by
    rw [hentries, List.length_append, List.length_cons]
    omega
  have hwalk : startWalk s = walkOn (rest.length + 1)
      (captureNone i (setQueue ⟨pre ++ [i], rest, true⟩ (setAsm (some Assembly.started) s))) := by
    have hstart : startWalk s = walkOn (s.queue.entries.length + 1) (setAsm (some Assembly.started) (setQueue s.queue.startWalk s)) := rfl
    rw [hstart, hlen, walkOn_passes (w := setAsm (some Assembly.started) (setQueue s.queue.startWalk s)) (a := Assembly.started)
      (l := i :: rest) rfl _ (fun k hk => (eligible_started s k).trans (hpre k hk)) rfl hentries]
    exact walkOn_blank (w := setQueue { s.queue.startWalk with ahead := [] ++ pre, behind := i :: rest } (setAsm (some Assembly.started) s))
      (a := Assembly.started) rfl rfl (k := i) (rest := rest) rfl ((eligible_started s i).trans hi) hshown _
  have hbase := blankWalk_started hs hpass
  have hmem : i ∈ (setQueue ⟨pre ++ [i], rest, true⟩ (setAsm (some Assembly.started) s)).queue.entries := by
    simp [Queue.entries]
  have hfree : freeStale (setQueue ⟨pre ++ [i], rest, true⟩ (setAsm (some Assembly.started) s)) i = true := hi
  have hwalking := hbase.captures (a := Assembly.started) hs hshown rfl rfl hfree hmem
    (fun _ j hj hji => by
      rcases List.mem_append.1 hj with h | h
      · rcases List.mem_append.1 h with h | h
        · exact .inr (hpre j h)
        · exact absurd (List.mem_singleton.1 h) hji
      · exact .inl h)
    (fun _ j hj => (nomatch hj))
  have hout := blankOutcome_cases (s := setQueue ⟨pre ++ [i], rest, true⟩ (setAsm (some Assembly.started) s)) Assembly.started (i := i) hshown
    (freeStale_stale hfree)
  have hfirst : BlankFirst s i (captureNone i (setQueue ⟨pre ++ [i], rest, true⟩ (setAsm (some Assembly.started) s))) := by
    constructor
    · intro hz
      rw [captureNone_seg (a := Assembly.started) rfl, if_pos rfl]
      rcases hout with ⟨-, ho⟩ | ⟨hne, -⟩
      · rw [ho]
        rfl
      · exact absurd hz hne
    · intro hne
      refine ⟨_, captureNone_asm (a := Assembly.started) rfl i, ?_⟩
      rcases hout with ⟨hz, -⟩ | ⟨-, ho | ⟨hnil, -⟩⟩
      · exact absurd hz hne
      · rw [ho]
        rfl
      · exact absurd rfl hnil
  rw [hwalk]
  refine BlankWalking.walkOn hs hshown _ hwalking hfirst (Nat.lt_succ_of_le ?_)
  exact captureNone_behind_le (a := Assembly.started) rfl ((hbase.lawful.2 i).1 hmem) hmem

theorem BlankWalk.queued {w : State} (h : BlankWalk s w) {k : SegNo} (hk : k ∈ w.queue.entries) : k ∈ s.queue.entries := by
  rcases h.seg k with heq | ⟨hin, -⟩
  · have hq := (h.lawful.2 k).1 hk
    rw [heq, still_engine h.still] at hq
    exact (hs.2 k).2 hq
  · exact hin

theorem BlankWalk.sublist {w : State} (h : BlankWalk s w) : w.queue.entries.Sublist s.queue.entries :=
  sublist_of_inOrder h.order fun _ hk => h.queued hs hk

end

/-! #### The drive of a record that a walk under NONE has filled -/

theorem mark_join (q : Queue) (e : QueueEnd) (i : SegNo) : (q.join e i).mark = q.mark := by
  cases e with
  | tail => rfl
  | head =>
    simp only [Queue.join, Queue.joinHead]
    split
    next h => rfl
    next h => exact (Bool.eq_false_iff.2 h).symm

theorem mark_sync (e : QueueEnd) (i : SegNo) (s : State) : (sync e i s).queue.mark = s.queue.mark := by
  unfold sync
  split
  · split
    · rfl
    · exact mark_join _ e i
  · rfl

theorem mark_syncTail (is : List SegNo) (s : State) : (syncTail is s).queue.mark = s.queue.mark :=
  foldl_keeps (fun u => u.queue.mark) (fun u i => mark_sync .tail i u) is s

section
variable {s w : State} (hs : QueueLawful s) (h : BlankWalk s w) {a : Assembly} (ha : w.asm = some a)
include hs h ha

/-- A recheck of the event drops none of the members (R85). -/
theorem BlankWalk.not_dropped {m : Member} (hm : m ∈ a.members) : dropped w m = false := by
  obtain ⟨hin, hfree, -, hseg, -⟩ := h.members a ha m hm
  obtain ⟨-, -, hheld, hsuspect⟩ := (queueable_iff _ _).1 ((hs.2 m.seg).1 hin)
  obtain ⟨-, hclaim, hshield⟩ := (freeStale_iff s m.seg).1 hfree
  have hsuspect' : suspect s.engine.shown { blanked (s.seg m.seg) with state := .member } = false :=
    (suspect_of_marks ⟨rfl, rfl, rfl, rfl, rfl, rfl, rfl⟩).trans hsuspect
  simp only [claimed, shielded, State.claim, State.touchLine] at hclaim hshield
  simp only [dropped, hseg, still_engine h.still, claimed, shielded, State.claim, State.touchLine, still_claims h.still, still_touch h.still]
  rw [hclaim, hshield, hsuspect', hheld]
  rfl

theorem BlankWalk.kept : keptMembers w a.members = a.members := by
  have hall : (a.members.filter fun m => !dropped w m) = a.members :=
    List.filter_eq_self.2 fun m hm => by rw [h.not_dropped hs ha hm]; rfl
  rw [keptMembers, hall]
  refine List.map_congr_left (g := id) (fun m hm => ?_) |>.trans (List.map_id _)
  obtain ⟨-, -, -, -, htouch⟩ := h.members a ha m hm
  rw [← htouch]
  rfl

theorem BlankWalk.outOf_nil : outOf w a.members = [] := by
  rw [outOf, List.filter_eq_nil_iff.2 fun m hm => by rw [h.not_dropped hs ha hm]; exact Bool.noConfusion]
  rfl

theorem BlankWalk.drive_seg (k : SegNo) :
    (driven w a.members).seg k = if k ∈ a.members.map Member.seg then { w.seg k with state := .moving } else w.seg k := by
  rw [driven_seg, h.kept hs ha, h.outOf_nil hs ha]
  rfl

theorem BlankWalk.drive_lawful (hkept : a.members ≠ []) : QueueLawful (driven w a.members) := by
  have hlawful := (queue_driveStart (h.lawful.but [])).all
  rwa [driveStart_kept ha (by rw [h.kept hs ha]; exact hkept)] at hlawful

/-- The queue after the drive is that of the walk, less nothing but its members. -/
theorem BlankWalk.drive_sublist : (driven w a.members).queue.entries.Sublist w.queue.entries ∧ (driven w a.members).queue.mark = w.queue.mark := by
  have hrechecked : (rechecked w a.members).queue = w.queue := by
    rw [rechecked, h.outOf_nil hs ha]
    rfl
  have hengine : (setStates .moving ((keptMembers w a.members).map Member.seg) (rechecked w a.members)).engine = w.engine := by
    rw [setStates_engine, still_engine (rechecked_still a.members)]
  have hmoving (k : SegNo) (hk : k ∈ (keptMembers w a.members).map Member.seg) :
      queueable (setStates .moving ((keptMembers w a.members).map Member.seg) (rechecked w a.members)).engine
        ((setStates .moving ((keptMembers w a.members).map Member.seg) (rechecked w a.members)).seg k) = false := by
    rw [setStates_seg, if_pos hk]
    exact not_queueable rfl
  have hqueue : (setStates .moving ((keptMembers w a.members).map Member.seg) (rechecked w a.members)).queue = w.queue := by
    rw [setStates_queue, hrechecked]
  refine ⟨?_, ?_⟩
  · refine sublist_of_inOrder (l := w.queue.entries) ?_ fun k hk => ?_
    · exact InOrder.syncTail (InOrder.congr (inOrder_self w) (by rw [hqueue])) fun k hk _ hq => by rw [hmoving k hk] at hq; nomatch hq
    · have hmem : k ∈ (syncTail ((keptMembers w a.members).map Member.seg)
        (setStates .moving ((keptMembers w a.members).map Member.seg) (rechecked w a.members))).queue.entries := hk
      rw [mem_syncTail] at hmem
      split at hmem
      next hin => rw [hmoving k hin] at hmem; nomatch hmem
      next => rwa [hqueue] at hmem
  · rw [driven, setStroke_queue, mark_syncTail, hqueue]

end

/-! #### What the judging of drives and walks comes to -/

/-- The state that the judging of drives and walks under NONE leaves, with the first entry that was free. -/
structure BlankEnd (s : State) (i : SegNo) (x : State) : Prop where
  still : x.still = s.still
  conv : x.conv = s.conv
  order : x.queue.entries.Sublist s.queue.entries
  mark : x.queue.mark = false
  seg : ∀ k, x.seg k = s.seg k ∨ k ∈ s.queue.entries ∧ freeStale s k = true ∧
    (BlankRecord (s.seg k) (x.seg k) ∨ changeSet (blanked (s.seg k)) ≠ 0 ∧ x.seg k = { blanked (s.seg k) with state := .moving })
  clean : changeSet (blanked (s.seg i)) = 0 → x.seg i = { blanked (s.seg i) with state := .clean }
  armed : changeSet (blanked (s.seg i)) ≠ 0 → ¬DriveFree s → x.seg i = { blanked (s.seg i) with state := .member } ∧ x.stroke = s.stroke ∧
    ∃ a, x.asm = some a ∧ a.phase = .armed ∧ a.members.head? = some (blankMember s i)
  driven : changeSet (blanked (s.seg i)) ≠ 0 → DriveFree s → x.seg i = { blanked (s.seg i) with state := .moving } ∧
    ∃ ms, x.stroke = driving s (blankMember s i :: ms)

theorem driveFree_congr {s w : State} (hstroke : w.stroke = s.stroke) (hconv : w.conv = s.conv) (hstill : w.still = s.still) :
    DriveFree w ↔ DriveFree s := by
  rw [DriveFree, DriveFree, hstroke, hconv, still_gate hstill]

/-- The walk of the first round is the whole of it, where no drive is ready after it. -/
theorem BlankWalked.toEnd {s w : State} {i : SegNo} (h : BlankWalked s w) (hfirst : BlankFirst s i w) (hs : QueueLawful s)
    (hnot : w.asm = none ∨ ¬DriveFree s) : BlankEnd s i w where
  still := h.still
  conv := h.conv
  order := h.sublist hs
  mark := h.mark
  seg k := (h.seg k).imp_right fun ⟨hin, hfree, hr⟩ => ⟨hin, hfree, .inl hr⟩
  clean := hfirst.clean
  armed hne _ := by
    obtain ⟨a, ha, hhead⟩ := hfirst.head hne
    obtain ⟨-, -, -, hseg, -⟩ := h.members a ha _ (List.mem_of_mem_head? hhead)
    refine ⟨hseg, h.stroke, a, ha, ?_, hhead⟩
    rcases h.done with ⟨hnone, -⟩ | ⟨b, hb, hp, -⟩
    · nomatch ha.symm.trans hnone
    · obtain rfl := Option.some.inj (hb.symm.trans ha)
      exact hp
  driven hne hfree := by
    obtain ⟨a, ha, -⟩ := hfirst.head hne
    rcases hnot with hnone | hnot
    · nomatch ha.symm.trans hnone
    · exact absurd hfree hnot

/-- The drive of the record that the walk has filled. -/
theorem BlankWalked.toDriven {s w : State} {i : SegNo} (h : BlankWalked s w) (hfirst : BlankFirst s i w) (hs : QueueLawful s)
    {a : Assembly} (ha : w.asm = some a) (hfree : DriveFree s) : BlankEnd s i (driven w a.members) where
  still := (driven_still a.members).trans h.still
  conv := (driven_conv a.members).trans h.conv
  order := (h.drive_sublist hs ha).1.trans (h.sublist hs)
  mark := (h.drive_sublist hs ha).2.trans h.mark
  seg k := by
    rw [h.drive_seg hs ha]
    split
    next hk =>
      obtain ⟨m, hm, rfl⟩ := List.mem_map.1 hk
      obtain ⟨hin, hf, hne, hseg, -⟩ := h.members a ha m hm
      rw [hseg]
      exact .inr ⟨hin, hf, .inr ⟨hne, rfl⟩⟩
    next => exact (h.seg k).imp_right fun ⟨hin, hf, hr⟩ => ⟨hin, hf, .inl hr⟩
  clean hz := by
    rw [h.drive_seg hs ha, if_neg]
    · exact hfirst.clean hz
    · intro hk
      obtain ⟨m, hm, hmi⟩ := List.mem_map.1 hk
      obtain ⟨-, -, hne, -⟩ := h.members a ha m hm
      rw [hmi] at hne
      exact hne hz
  armed _ hnot := absurd hfree hnot
  driven hne _ := by
    obtain ⟨b, hb, hhead⟩ := hfirst.head hne
    obtain rfl := Option.some.inj (hb.symm.trans ha)
    have hmem := List.mem_of_mem_head? hhead
    obtain ⟨-, -, -, hseg, -⟩ := h.members b ha _ hmem
    have hseg' : w.seg i = { blanked (s.seg i) with state := .member } := hseg
    refine ⟨?_, b.members.tail, ?_⟩
    · have hin : i ∈ b.members.map Member.seg := List.mem_map_of_mem (f := Member.seg) hmem
      rw [h.drive_seg hs ha, if_pos hin, hseg']
    · rw [driven_stroke, h.kept hs ha, List.cons_head?_tail hhead, driving, driving, h.stroke, still_engine h.still]

/-- A second walk, with a drive under way: it leaves alone what the first walk has settled. -/
theorem BlankEnd.walked {s v x : State} {i : SegNo} (h : BlankEnd s i v) (hv : QueueLawful v) (hfree : DriveFree s)
    (hx : BlankWalked v x) : BlankEnd s i x := by
  have hsame {k : SegNo} (hk : (v.seg k).state ≠ .stale) : x.seg k = v.seg k :=
    (hx.seg k).resolve_right fun ⟨_, hf, _⟩ => hk (freeStale_stale hf)
  refine ⟨hx.still.trans h.still, hx.conv.trans h.conv, (hx.sublist hv).trans h.order, hx.mark, fun k => ?_, fun hz => ?_, fun _ hnot => absurd hfree hnot,
    fun hne _ => ?_⟩
  · rcases hx.seg k with heq | ⟨hin, hf, hr⟩
    · rw [heq]
      exact h.seg k
    · have hstale := freeStale_stale hf
      rcases h.seg k with heq | ⟨hin', hf', hr' | ⟨-, hr'⟩⟩
      · refine .inr ⟨h.order.subset hin, (freeStale_congr h.still heq).symm.trans hf, .inl ?_⟩
        rwa [heq] at hr
      · exact .inr ⟨hin', hf', .inl (hr'.again (freeStale_stale hf') hstale hr)⟩
      · rw [hr'] at hstale
        nomatch hstale
  · rw [hsame (by rw [h.clean hz]; exact (nomatch ·)), h.clean hz]
  · obtain ⟨hseg, ms, hstroke⟩ := h.driven hne hfree
    exact ⟨by rw [hsame (by rw [hseg]; exact (nomatch ·)), hseg], ms, hx.stroke.trans hstroke⟩

theorem workRound_noFree {s : State} (hasm : s.asm = none) (hnone : ∀ k ∈ s.queue.entries, freeStale s k = false) : workRound s = s :=
  workRound_idle (driveReady_noAsm hasm) (Bool.eq_false_iff.2 fun hw => by
    obtain ⟨-, -, k, hk, hfree⟩ := (walkReady_iff s).1 hw
    rw [hnone k hk] at hfree
    nomatch hfree)

/-- A walk under NONE ends the judging, unless the drive it makes ready may start. -/
theorem BlankWalked.idle {s w : State} (h : BlankWalked s w) (hnot : w.asm = none ∨ ¬DriveFree s) : workRound w = w := by
  rcases h.done with ⟨hnone, hfree⟩ | ⟨a, ha, -⟩
  · exact workRound_noFree hnone hfree
  · have hnot := hnot.resolve_left (by rw [ha]; exact Option.some_ne_none a)
    refine workRound_idle (Bool.eq_false_iff.2 fun hd => ?_) (walkReady_asm ha)
    obtain ⟨-, -, -, -, hfree⟩ := driveReady_spec hd
    exact hnot ((driveFree_congr h.stroke h.conv h.still).1 hfree)

section
variable {s : State} (hrun : s.engine.state = .running) (hasm : s.asm = none) (hs : QueueLawful s) (hshown : s.engine.shown = .none)
include hrun hasm hs hshown

/-- A round of the judging under NONE, with no record: a walk, where an entry is free, or nothing. -/
theorem workRound_blank : (∃ i, s.queue.entries.find? (freeStale s) = some i ∧ BlankWalked s (workRound s) ∧ BlankFirst s i (workRound s)) ∨
    (∀ k ∈ s.queue.entries, freeStale s k = false) ∧ workRound s = s := by
  cases hfind : s.queue.entries.find? (freeStale s) with
  | none =>
    have hnone : ∀ k ∈ s.queue.entries, freeStale s k = false := fun k hk => Bool.eq_false_iff.2 (List.find?_eq_none.1 hfind k hk)
    exact .inr ⟨hnone, workRound_noFree hasm hnone⟩
  | some i =>
    obtain ⟨hi, pre, rest, hentries, hpre⟩ := List.find?_eq_some_iff_append.1 hfind
    have hpre : ∀ k ∈ pre, freeStale s k = false := fun k hk => by simpa using hpre k hk
    refine .inl ⟨i, rfl, ?_⟩
    rw [workRound_walk (driveReady_noAsm hasm) ((walkReady_iff s).2 ⟨hrun, hasm, i, by rw [hentries]; simp, hi⟩)]
    exact startWalk_blank hs hshown hentries hi hpre

/-- A walk, a drive and a second walk at most (R63, R84, R87). -/
theorem judgeWork_blank {i : SegNo} (hfind : s.queue.entries.find? (freeStale s) = some i) : BlankEnd s i (judgeWork s) := by
  obtain ⟨hw, hfirst⟩ : BlankWalked s (workRound s) ∧ BlankFirst s i (workRound s) := by
    rcases workRound_blank hrun hasm hs hshown with ⟨k, hk, h⟩ | ⟨hnone, -⟩
    · obtain rfl := Option.some.inj (hk.symm.trans hfind)
      exact h
    · exact absurd (List.find?_some hfind) (Bool.eq_false_iff.1 (hnone i (List.mem_of_find?_eq_some hfind)))
  by_cases hnot : (workRound s).asm = none ∨ ¬DriveFree s
  · rw [judgeWork_one rfl (hw.idle hnot)]
    exact hw.toEnd hfirst hs hnot
  obtain ⟨hsome, hfree⟩ := not_or.1 hnot
  rw [not_not] at hfree
  obtain ⟨a, ha, hp, hne⟩ : ∃ a, (workRound s).asm = some a ∧ a.phase = .armed ∧ a.members ≠ [] :=
    hw.done.resolve_left fun h => hsome h.1
  have hengine : (workRound s).engine = s.engine := still_engine hw.still
  have hready := driveReady_of ha hp (by rw [hengine]; exact hrun) ((driveFree_congr hw.stroke hw.conv hw.still).2 hfree)
  have hround : workRound (workRound s) = driven (workRound s) a.members := by
    rw [workRound_drive hready, driveStart_kept ha (by rw [hw.kept hs ha]; exact hne)]
  have hend := hw.toDriven hfirst hs ha hfree
  have hv := hw.drive_lawful hs ha hne
  generalize driven (workRound s) a.members = v at hround hend hv
  have hvengine : v.engine = s.engine := still_engine hend.still
  have hvasm : v.asm = none := by rw [← hround, workRound_drive hready, driveStart_asm]
  have hvnot : ¬DriveFree v := fun hf => by
    obtain ⟨hnone, -⟩ := hf
    have hdriven : v.stroke.driven ≠ none := by
      rw [← hround, workRound_drive hready, driveStart_kept ha (by rw [hw.kept hs ha]; exact hne), driven_stroke]
      exact Option.some_ne_none _
    exact hdriven hnone
  rcases workRound_blank (by rw [hvengine]; exact hrun) hvasm hv (by rw [hvengine]; exact hshown) with ⟨-, -, hx, -⟩ | ⟨-, hidle⟩
  · rw [judgeWork_three rfl hround rfl (hx.idle (.inr hvnot))]
    exact hend.walked hv hfree hx
  · rw [judgeWork_two rfl hround hidle]
    exact hend

end

/-! #### The statement of a walk under NONE -/

/-- The queue that is left of a lawful one, where none has joined. -/
theorem entries_of_sublist {s t : State} (hs : QueueLawful s) (ht : QueueLawful t) (h : t.queue.entries.Sublist s.queue.entries) :
    t.queue.entries = s.queue.entries.filter fun k => queueable t.engine (t.seg k) := by
  have hall : (t.queue.entries.filter fun k => decide (k ∈ s.queue.entries)) = t.queue.entries :=
    List.filter_eq_self.2 fun k hk => decide_eq_true (h.subset hk)
  have horder : InOrder s.queue.entries t := by
    rw [InOrder, hall]
    exact h
  rw [← hall, ← filter_of_inOrder hs.1 horder]
  exact List.filter_congr fun k _ => by rw [Bool.decide_congr (ht.2 k), Bool.decide_eq_true]

section
variable {s x t : State} {i : SegNo} (h : BlankEnd s i x) (hg : Grants x t)
include h hg

theorem BlankEnd.outcome (k : SegNo) (hfree : freeEntry s t = freeStale s) : BlankOutcome s t k := by
  have hor := hg.orSensing k
  rcases h.seg k with heq | ⟨hin, hf, hr⟩
  · rw [heq] at hor
    exact .inl hor
  · refine .inr ⟨hin, by rw [hfree]; exact hf, ?_⟩
    rcases hr with (⟨hz, hr⟩ | ⟨hne, hr | hr⟩) | ⟨hne, hr⟩
    · rw [hr] at hor
      left
      rw [if_pos hz]
      exact hor
    · rw [hr] at hor
      left
      rw [if_neg hne]
      exact hor
    · right
      exact ⟨hne, .inl (by rw [hg.seg_of_ne (by rw [hr]; exact (nomatch ·)) (by rw [hr]; rfl), hr])⟩
    · right
      exact ⟨hne, .inr (by rw [hg.seg_of_ne (by rw [hr]; exact (nomatch ·)) (by rw [hr]; rfl), hr])⟩

/-- What becomes of the first entry that is free (R66, R70, R71, R73, R87). -/
theorem BlankEnd.captured (ht : QueueLawful t) (hmark : t.queue.mark = false) : BlankCaptured s t i := by
  have hleft (r : Segment) (hr : t.seg i = r) (hstate : r.state.mayQueue = false) : i ∉ t.queue.entries := fun hmem => by
    have hq := (ht.2 i).1 hmem
    rw [hr, not_queueable hstate] at hq
    nomatch hq
  have hclean (hz : changeSet (blanked (s.seg i)) = 0) : OrSensing t i { blanked (s.seg i) with state := .clean } := by
    rw [← h.clean hz]
    exact hg.orSensing i
  have hkeep (r : Segment) (hr : x.seg i = r) (hu : r.state ≠ .unsure) (hsense : r.state.senseable = false) : t.seg i = r := by
    rw [hg.seg_of_ne (by rw [hr]; exact hu) (by rw [hr]; exact hsense), hr]
  have harmed (hne : changeSet (blanked (s.seg i)) ≠ 0) (hnot : ¬DriveFree s) := h.armed hne hnot
  have hdriven (hne : changeSet (blanked (s.seg i)) ≠ 0) (hfree : DriveFree s) := h.driven hne hfree
  refine ⟨hmark, ?_, hclean, fun hne hnot => ?_, fun hne hfree => ?_⟩
  · by_cases hz : changeSet (blanked (s.seg i)) = 0
    · rcases hclean hz with hr | ⟨hr, -⟩
      · exact hleft _ hr rfl
      · exact hleft _ hr rfl
    · by_cases hfree : DriveFree s
      · exact hleft _ (hkeep _ (hdriven hz hfree).1 (nomatch ·) rfl) rfl
      · exact hleft _ (hkeep _ (harmed hz hfree).1 (nomatch ·) rfl) rfl
  · obtain ⟨hseg, hstroke, a, ha, hp, hhead⟩ := harmed hne hnot
    refine ⟨hkeep _ hseg (nomatch ·) rfl, hg.stroke.trans hstroke, ?_⟩
    rw [hg.asm, ha]
    simp only [Option.any_some, hp, hhead, Bool.and_eq_true, beq_iff_eq]
    exact ⟨trivial, rfl⟩
  · obtain ⟨hseg, ms, hstroke⟩ := hdriven hne hfree
    exact ⟨hkeep _ hseg (nomatch ·) rfl, ms, hg.stroke.trans hstroke⟩

end

/-- The queue after a grant keeps its mark, and nobody joins it. -/
theorem Grants.queue_less {w t : State} (h : Grants w t) (hq : ∀ i, (w.seg i).state = .faulted → i ∉ w.queue.entries) :
    t.queue.mark = w.queue.mark ∧ t.queue.entries.Sublist w.queue.entries := by
  rcases h.queue hq with ⟨-, hqueue⟩ | ⟨i, j, -, -, -, hmark, -, hentries, -⟩
  · rw [hqueue]
    exact ⟨rfl, List.Sublist.refl _⟩
  · exact ⟨hmark, by rw [hentries]; exact List.filter_sublist⟩

/-- With no buffer shown a walk is judged as the statements say, where no record stands (R63, R66). -/
theorem walkJudged_blank {s : State} (hrun : s.engine.state = .running) (hasm : s.asm = none) (hs : QueueLawful s)
    (hshown : s.engine.shown = .none) : WalkJudged s (judge s) := by
  have hfree := freeEntry_eq (judge_claims s) (judge_touch s)
  have hg := grants_judgeGrant (judgeWork s)
  have hlawful : QueueLawful (judge s) := (queue_judge (hs.but [])).all
  have hnotQueued {x : State} {i : SegNo} (h : BlankEnd s i x) (k : SegNo) (hk : (x.seg k).state = .faulted) : k ∉ x.queue.entries := fun hmem => by
    rcases h.seg k with heq | ⟨-, -, (⟨-, hr⟩ | ⟨-, hr | hr⟩) | ⟨-, hr⟩⟩
    · rw [heq] at hk
      exact faulted_not_queued hs hk (h.order.subset hmem)
    all_goals
      rw [hr] at hk
      nomatch hk
  refine ⟨fun hne => absurd hshown hne, fun _ => ?_, fun hbusy => ?_⟩
  · rw [hfree]
    cases hfind : s.queue.entries.find? (freeStale s) with
    | none =>
      have hwork : judgeWork s = s :=
        judgeWork_idle (workRound_noFree hasm fun k hk => Bool.eq_false_iff.2 (List.find?_eq_none.1 hfind k hk))
      rw [hwork] at hg
      refine ⟨fun i hi => (nomatch hi), fun k => .inl ?_, entries_of_sublist hs hlawful ?_⟩
      · rw [judge, hwork]
        exact hg.orSensing k
      · rw [judge, hwork]
        exact (hg.queue_less fun k hk => faulted_not_queued hs hk).2
    | some i =>
      have hend := judgeWork_blank hrun hasm hs hshown hfind
      obtain ⟨hmark, hsub⟩ := hg.queue_less (hnotQueued hend)
      refine ⟨fun k hk => ?_, fun k => hend.outcome hg k hfree, entries_of_sublist hs hlawful (hsub.trans hend.order)⟩
      obtain rfl := Option.some.inj hk
      exact hend.captured hg hlawful (hmark.trans hend.mark)
  · exact noWalk_judged hs hasm (by rw [judge, judgeWork_idle (workRound_noFree hasm (freeStale_false (judge_claims s) (judge_touch s) hbusy))])

/-! #### New work as a whole -/

theorem walkJudged_judge {s : State} (hrun : s.engine.state = .running) (hasm : s.asm = none) (hs : QueueLawful s) : WalkJudged s (judge s) := by
  by_cases hshown : s.engine.shown = .none
  · exact walkJudged_blank hrun hasm hs hshown
  · exact walkJudged_shown hrun hasm hs hshown

theorem workJudged_judge (s : State) : WorkJudged s (judge s) := ⟨walkJudged_judge, judge_of_quiet⟩

/-- The judging of new work is what the statements say of it. -/
theorem newWork_judge (s : State) : NewWork s (judge s) := ⟨workJudged_judge s, grantJudged_judge⟩

end Sys2Proof.Machine

/-! ### The commands that new work is judged after (R163, R164, R178, R181, R182) -/

namespace Sys2Proof.Machine

/-! #### The state that new work is judged from -/

theorem core_congr {s t : State} (hseg : ∀ k, t.seg k = s.seg k) (hqueue : t.queue.entries = s.queue.entries) (hasm : t.asm = s.asm)
    (hstroke : t.stroke = s.stroke) (hgate : t.gate = s.gate) (hconv : t.conv = s.conv) (hengine : t.core.engine = s.core.engine) :
    t.core = s.core := by
  have hsegs : t.segs = s.segs := Vector.ext fun k hk => hseg ⟨k, hk⟩
  simp only [State.core] at hengine
  simp only [State.core, hsegs, hqueue, hasm, hstroke, hgate, hconv, hengine]

theorem coreEngine_congr {s t : State} (h : t.engine = s.engine) : t.core.engine = s.core.engine := by
  simp only [State.core, h]

/-- The queue of a tail run over the segments whose records have changed (R52). -/
theorem entries_tailRun {s v : State} {p : SegNo → Bool} (hqueue : v.queue.entries = s.queue.entries)
    (hstay : ∀ k, p k = false → (k ∈ s.queue.entries ↔ queueable v.engine (v.seg k) = true))
    (hengine : ∀ r, queueable v.engine r = queueable s.engine r) {f : SegNo → Segment} (hf : ∀ k, v.seg k = f k) :
    (syncTail (allSegs.filter p) v).queue.entries = (withRecords f s).queue.entries := by
  have hn : (allSegs.filter p).Nodup := (List.nodup_finRange 96).filter _
  have hright : (withRecords f s).queue.entries = (s.queue.entries.filter fun k => queueable s.engine (f k)) ++
      allSegs.filter fun k => !s.queue.entries.contains k && queueable s.engine (f k) := by
    simp [withRecords, withJoins, Queue.entries]
  have hmem (k : SegNo) : (allSegs.filter p).contains k = p k := by
    rw [Bool.eq_iff_iff, List.contains_iff_mem, List.mem_filter]
    exact and_iff_right (List.mem_finRange k)
  rw [entries_syncTail hn, hright, hqueue, staying, joining, List.filter_filter]
  congr 1
  · refine List.filter_congr fun k hk => ?_
    rw [hmem, waiting, hengine, hf]
    cases hp : p k with
    | true => rfl
    | false =>
      have hq := (hstay k hp).1 hk
      rw [hengine, hf] at hq
      rw [hq]
      rfl
  · refine List.filter_congr fun k _ => ?_
    rw [waiting, hengine, hf]
    cases hp : p k with
    | true => rw [Bool.and_true]
    | false =>
      rw [Bool.and_false]
      cases hq : queueable s.engine (f k) with
      | false => rw [Bool.and_false]
      | true =>
        have hin := (hstay k hp).2 (by rw [hengine, hf]; exact hq)
        simp [hin]

/-! #### What the judging leaves alone besides -/

/-- The SENSE record is told nothing of walks, drives and grants. -/
theorem sense_rules (o : Option SenseRecord) : JudgeRules fun u => u.conv.sense = o where
  ends u a _ h := by rw [walkEnd_conv]; exact h
  passes _ _ _ _ h := h
  starts u a i _ _ h := by rw [captureStart_conv]; exact h
  stores u h := by rw [captureStore_conv]; exact h
  syncs i u h := by rw [sync_conv]; exact h
  opens _ _ h := h
  drives u _ h := by rw [driveStart_conv]; exact h
  sweeps u i _ _ _ h := by rw [startSweep_conv]; exact h
  senses u i _ _ h := by rw [startSense_conv]; exact h

theorem judge_sense (s : State) : (judge s).conv.sense = s.conv.sense := (sense_rules _).judge rfl

/-! #### A command that changes records and has new work judged -/

section
variable {s u : State} {code : Byte} {c : CommandWrite} {r : ResultCode}

/-- The state that such a command leaves. -/
def judgedTaken (s : State) (code : Byte) (c : CommandWrite) (r : ResultCode) (u : State) : State :=
  closeEvent (storeArea commandOffset (c.toHost code) s) (giveResult code r (judge u))

theorem judgedTaken_firm : (judgedTaken s code c r u).firm = (judge u).firm := closeEvent_firm _ _

theorem newWork_judgedTaken {s' : State} (h : u.core = s'.core) : NewWork s' (judgedTaken s code c r u) :=
  (newWork_judge u).congr h.symm judgedTaken_firm

theorem judgedTaken_seg (k : SegNo) : (judgedTaken s code c r u).seg k = (judge u).seg k := by
  rw [judgedTaken, closeEvent_seg, giveResult_seg]

theorem judgedTaken_conv : (judgedTaken s code c r u).conv = (judge u).conv := by
  rw [judgedTaken, closeEvent_conv, giveResult_conv]

theorem judgedTaken_asm : (judgedTaken s code c r u).asm = (judge u).asm := by
  rw [judgedTaken, closeEvent_asm, giveResult_asm]

theorem judgedTaken_stroke : (judgedTaken s code c r u).stroke = (judge u).stroke := by
  rw [judgedTaken, closeEvent_stroke, giveResult_stroke]

theorem judgedTaken_marks (k : SegNo) : MarksKept (u.seg k) ((judgedTaken s code c r u).seg k) := by
  rw [judgedTaken_seg]
  exact allMarksKept_judge u k

theorem judgedTaken_sense : (judgedTaken s code c r u).conv.sense = u.conv.sense := by
  rw [judgedTaken_conv, judge_sense]

theorem judgedTaken_orSensing (h : Quiet u) (k : SegNo) : OrSensing (judgedTaken s code c r u) k (u.seg k) := by
  rw [OrSensing, judgedTaken_seg, judgedTaken_conv]
  exact (judge_of_quiet h).2.2.1 k

variable (hstill : u.still = (storeArea commandOffset (c.toHost code) s).still)
include hstill

theorem takenWith_judged (hbus : BusLawful s) : TakenWith s (judgedTaken s code c r u) code c r :=
  takenWith_ended hbus rfl (e := s.engine) ((judge_still u).trans hstill) false _

theorem pageJudged_judged : PageJudged s (judgedTaken s code c r u) := by
  refine pageJudged_closeEvent ?_ ?_ ?_ rfl rfl
  · rw [giveResult_engine, judge_engine]
    exact congrArg Still.engine hstill
  · rw [giveResult_chime, judge_chime]
    exact congrArg Still.chime hstill
  · rw [isPending_giveResult]
    exact isPending_congr (by rw [judge_events]; exact congrArg EventUnit.pending (congrArg Still.events hstill)) _

end

theorem quiet_congr {s u : State} (h : Quiet s) (hasm : u.asm = s.asm) (hstroke : u.stroke = s.stroke) (hgate : u.gate = s.gate)
    (hjob : u.conv.job = s.conv.job) (hengine : u.engine.state = s.engine.state) : Quiet u := by
  have hd : driveReady u = driveReady s := by simp only [driveReady, hasm, hstroke, hgate, hjob, hengine]
  rw [Quiet, hd, hasm, hengine]
  exact h

theorem exec_sense {s : State} (hbus : BusLawful s) (hs : Active s) (hr : GoodRange s.bus.argument) (hnone : s.conv.sense = none)
    (c : CommandWrite) : exec (.sense c) s = .next (judgedTaken s 10 c .accepted
      (setConv { s.conv with sense := some ⟨(lowByte s.bus.argument).toNat, (highByte s.bus.argument).toNat, []⟩ }
        (storeArea commandOffset (c.toHost 10) s))) := by
  have hexec : exec (.sense c) s = .next (takeWrite 10 c takeSense s) := rfl
  have htake (b : State) (hb : Active b) (hrange : GoodRange b.bus.argument) (hidle : b.conv.sense = none) : takeSense b = senseRange b := by
    rw [takeSense, if_neg (by rw [runsOrPaused_of_active hb]; exact Bool.noConfusion), hidle, if_neg Bool.noConfusion,
      if_neg (by rw [(goodRange_iff _).2 hrange]; exact Bool.noConfusion)]
  rw [hexec, takeWrite_eq hbus.2.1]
  exact congrArg Host.Outcome.next (htake (storeArea commandOffset (c.toHost 10) s) hs hr hnone)

/-- Settles O34: the job record is created and a grant is judged. -/
theorem senseTaken : Obligations.SenseTaken := by
  unfold Obligations.SenseTaken
  intro c s hbus hs hr hnone asked
  let u := setConv asked.conv (storeArea commandOffset (c.toHost 10) s)
  have hstill : u.still = (storeArea commandOffset (c.toHost 10) s).still := rfl
  have hseg (i : SegNo) : u.seg i = s.seg i := rfl
  have hcore : u.core = asked.core := rfl
  refine ⟨judgedTaken s 10 c .accepted u, exec_sense hbus hs hr hnone c, takenWith_judged hstill hbus, pageJudged_judged hstill,
    judgedTaken_sense, fun i => ?_, newWork_judgedTaken hcore⟩
  rw [← hseg]
  exact judgedTaken_marks i

/-! #### A command that changes the records of a range -/

section
variable (f : Segment → Segment) (a : Word) (s : State)

/-- The records of the range changed, and the queue judged for them (R52). -/
def rangeEffect : State := syncTail (argRange a) (mapSegs f (argRange a) s)

/-- Whether a range covers a segment. -/
def inRange (k : SegNo) : Bool := decide (argFirst a ≤ k.val) && decide (k.val < argFirst a + argCount a)

/-- The records that the range's change gives. -/
def rangeRecords (k : SegNo) : Segment := if Covered a k then f (s.seg k) else s.seg k

theorem rangeEffect_still : (rangeEffect f a s).still = s.still := (syncTail_still _ _).trans (mapSegs_still _ _ _)

theorem rangeEffect_seg (k : SegNo) : (rangeEffect f a s).seg k = rangeRecords f a s k := by
  rw [rangeEffect, syncTail_seg, mapSegs_argRange]
  rfl

theorem rangeEffect_asm : (rangeEffect f a s).asm = s.asm := by rw [rangeEffect, syncTail_asm, mapSegs_asm]

theorem rangeEffect_stroke : (rangeEffect f a s).stroke = s.stroke := by rw [rangeEffect, syncTail_stroke, mapSegs_stroke]

theorem rangeEffect_conv : (rangeEffect f a s).conv = s.conv := by rw [rangeEffect, syncTail_conv, mapSegs_conv]

theorem rangeEffect_quiet (h : Quiet s) : Quiet (rangeEffect f a s) :=
  quiet_congr h (rangeEffect_asm f a s) (rangeEffect_stroke f a s) (still_gate (rangeEffect_still f a s))
    (by rw [rangeEffect_conv]) (by rw [still_engine (rangeEffect_still f a s)])

theorem rangeEffect_core (hq : QueueLawful s) : (rangeEffect f a s).core = (withRecords (rangeRecords f a s) s).core := by
  have hengine : (mapSegs f (argRange a) s).engine = s.engine := still_engine (mapSegs_still _ _ _)
  refine core_congr (fun k => ?_) ?_ ?_ ?_ ?_ ?_ (coreEngine_congr ?_)
  · rw [rangeEffect_seg, seg_withRecords]
  · have hcovered (k : SegNo) : inRange a k = true ↔ Covered a k := by rw [inRange, Bool.and_eq_true, decide_eq_true_eq, decide_eq_true_eq]; rfl
    have hrun := entries_tailRun (s := s) (v := mapSegs f (argRange a) s) (p := inRange a) (f := rangeRecords f a s) (by rw [mapSegs_queue])
      (fun k hk => by
        rw [hengine, mapSegs_argRange, if_neg fun hc => Bool.noConfusion (((hcovered k).2 hc).symm.trans hk)]
        exact hq.2 k)
      (fun r => by rw [hengine]) fun k => by rw [mapSegs_argRange]; rfl
    exact hrun
  · rw [rangeEffect_asm, asm_withRecords]
  · rw [rangeEffect_stroke, stroke_withRecords]
  · rw [still_gate (rangeEffect_still f a s), withRecords, gate_withJoins]
  · rw [rangeEffect_conv, conv_withRecords]
  · rw [still_engine (rangeEffect_still f a s), engine_withRecords]

end

/-- Settles O31: the hold marks are cleared, and the segments that may wait join the queue at its tail. -/
theorem releaseTaken : Obligations.ReleaseTaken := by
  unfold Obligations.ReleaseTaken
  intro c s hbus hs hr released
  let f := fun r : Segment => { r with held := false }
  let b := storeArea commandOffset (c.toHost 7) s
  let u := rangeEffect f s.bus.argument b
  have hstill : u.still = b.still := rangeEffect_still _ _ _
  have hseg (k : SegNo) : u.seg k = released.seg k := by
    rw [rangeEffect_seg]
    exact (seg_withRecords _ s k).symm
  refine ⟨judgedTaken s 7 c .done u, exec_range (act := releaseRange) hbus hs hr rfl, takenWith_judged hstill hbus,
    pageJudged_judged hstill, fun i => ?_, ?_, fun hq i => ?_, fun hq => newWork_judgedTaken ?_⟩
  · rw [← hseg]
    exact judgedTaken_marks i
  · rw [judgedTaken_sense, rangeEffect_conv]
    rfl
  · rw [← hseg]
    exact judgedTaken_orSensing (rangeEffect_quiet f s.bus.argument b hq) i
  · exact rangeEffect_core f s.bus.argument b hq

end Sys2Proof.Machine

/-! ### The segments that the judging leaves alone; CLEAR_FAULTS (R182) -/

namespace Sys2Proof.Machine

theorem member_of_armed {s : State} (h : WorkRuns s) {a : Assembly} (ha : s.asm = some a) {k : SegNo} (hk : k ∈ a.members.map Member.seg) :
    (s.seg k).state = .member := by
  obtain ⟨-, hmember, -⟩ := h.work.1 a ha
  obtain ⟨m, hm, rfl⟩ := List.mem_map.1 hk
  exact hmember m hm

/-- A drive start changes the members only. -/
theorem driveStart_seg_other {s : State} {a : Assembly} (ha : s.asm = some a) {k : SegNo} (hk : k ∉ a.members.map Member.seg) :
    (driveStart s).seg k = s.seg k := by
  have hout : k ∉ outOf s a.members := fun h => by
    obtain ⟨x, hx, -, rfl⟩ := (mem_outOf a.members).1 h
    exact hk (List.mem_map_of_mem hx)
  have hkept : k ∉ (keptMembers s a.members).map Member.seg := fun h => by
    obtain ⟨x, hx, -, rfl⟩ := (mem_keptSegs a.members).1 h
    exact hk (List.mem_map_of_mem hx)
  rw [driveStart_eq ha]
  split
  · rw [rechecked_seg, if_neg hout]
  · rw [driven_seg, if_neg hkept, if_neg hout]

/-- Walks take STALE segments, and drives take MEMBER ones. -/
theorem judgeWork_seg {s : State} (h : WorkRuns s) {k : SegNo} (hstale : (s.seg k).state ≠ .stale) (hmember : (s.seg k).state ≠ .member) :
    (judgeWork s).seg k = s.seg k := by
  let P := fun u : State => WorkRuns u ∧ u.seg k = s.seg k
  have hother {u : State} (hu : u.seg k = s.seg k) {i : SegNo} (hi : freeStale u i = true) : k ≠ i := by
    rintro rfl
    exact hstale (hu ▸ freeStale_stale hi)
  have hwalk (u : State) (hu : P u) : P (walkFromMark u) := by
    refine walkOn_induct P (fun u a ha hu => ⟨work_walkEnd ha hu.1, ?_⟩) (fun u a i rest ha hb hu => ⟨workRules.passes u i rest hb hu.1, hu.2⟩)
      (fun u a i rest ha hb hi hu => ?_) (fun u a i rest ha hb hi _ hu => ?_) _ u hu
    · rw [State.seg, walkEnd_segs]
      exact hu.2
    · have hfree := eligible_freeStale hi
      refine ⟨work_captureStart ha (freeStale_stale (s := setQueue _ u) hfree) (workRules.passes u i rest hb hu.1), ?_⟩
      rw [captureStart_seg, if_neg (hother hu.2 hfree)]
      exact hu.2
    · have hfree := eligible_freeStale hi
      refine ⟨work_captureNone (s := setQueue (u.queue.passMark i rest) u) ha hfree (workRules.passes u i rest hb hu.1), ?_⟩
      rw [captureNone_seg (s := setQueue (u.queue.passMark i rest) u) ha, if_neg (hother hu.2 hfree)]
      exact hu.2
  refine (repeat_induct P (fun u hu => ?_) 8 s ⟨h, rfl⟩).2
  unfold workRound
  split
  next hd =>
    obtain ⟨a, ha, -⟩ := driveReady_spec hd
    refine ⟨work_driveStart hd hu.1, ?_⟩
    rw [driveStart_seg_other ha fun hk => hmember (hu.2 ▸ member_of_armed hu.1 ha hk)]
    exact hu.2
  next =>
    split
    next hw => exact hwalk _ ⟨workRules.opens u hw hu.1, hu.2⟩
    next => exact hu

/-- A segment neither STALE nor MEMBER is as it was, or under the granted job. -/
theorem judge_orSensing {s : State} (h : WorkRuns s) {k : SegNo} (hstale : (s.seg k).state ≠ .stale) (hmember : (s.seg k).state ≠ .member) :
    OrSensing (judge s) k (s.seg k) := by
  rw [← judgeWork_seg h hstale hmember]
  exact (grants_judgeGrant (judgeWork s)).orSensing k

/-- One under work is as it was. -/
theorem judge_atWork {s : State} (h : WorkRuns s) {k : SegNo}
    (hk : (s.seg k).state = .moving ∨ (s.seg k).state = .verifying ∨ (s.seg k).state = .sensing) : (judge s).seg k = s.seg k := by
  have hstate {st : SegState} (hst : st ≠ .moving ∧ st ≠ .verifying ∧ st ≠ .sensing) : (s.seg k).state ≠ st := by
    rintro rfl
    obtain ⟨h1, h2, h3⟩ := hst
    rcases hk with hk | hk | hk
    · exact h1 hk
    · exact h2 hk
    · exact h3 hk
  have hseg := judgeWork_seg h (hstate ⟨(nomatch ·), (nomatch ·), (nomatch ·)⟩) (hstate ⟨(nomatch ·), (nomatch ·), (nomatch ·)⟩)
  rw [judge, (grants_judgeGrant (judgeWork s)).seg_of_ne, hseg]
  · rw [hseg]
    exact hstate ⟨(nomatch ·), (nomatch ·), (nomatch ·)⟩
  · rw [hseg]
    rcases hk with hk | hk | hk <;> rw [hk] <;> rfl

/-- A grant leaves the record of a FAULTED segment as it is (R123). -/
theorem Grants.faulted {w t : State} (h : Grants w t) {k : SegNo} (hk : (w.seg k).state = .faulted) : t.seg k = w.seg k := by
  cases h with
  | none => rfl
  | @sweep hg i h =>
    have hstate := List.find?_some h
    simp only [sweepable, Bool.and_eq_true, beq_iff_eq] at hstate
    rw [startSweep_seg, if_neg]
    rintro rfl
    exact absurd (hk.symm.trans hstate.1) (nomatch ·)
  | @sense hg hno i h =>
    rw [startSense_seg]
    split
    next hki => rw [← hki, if_pos hk, ← hk]
    next => rfl

theorem judge_faulted {s : State} (h : WorkRuns s) {k : SegNo} (hk : (s.seg k).state = .faulted) : (judge s).seg k = s.seg k := by
  have hseg := judgeWork_seg h (k := k) (by rw [hk]; exact (nomatch ·)) (by rw [hk]; exact (nomatch ·))
  rw [judge, (grants_judgeGrant (judgeWork s)).faulted (by rw [hseg]; exact hk), hseg]

/-! #### CLEAR_FAULTS -/

/-- The records that CLEAR_FAULTS leaves, as the statement writes them. -/
theorem cleared_eq (r : Segment) : r.cleared = if r.faults ≠ [] then { unknownPins r (faultPins r) r.state with
    faults := []
    state := if r.state = .member ∨ r.state = .moving ∨ r.state = .verifying ∨ r.state = .sensing then r.state else .unsure } else r := by
  have hstate : r.state.cleared = if r.state = .member ∨ r.state = .moving ∨ r.state = .verifying ∨ r.state = .sensing then r.state else .unsure := by
    cases h : r.state <;> simp [SegState.cleared]
  rw [Segment.cleared]
  by_cases hf : r.faults = []
  · rw [if_pos (by rw [hf]; rfl), if_neg (not_not.2 hf)]
  · rw [if_neg (by simpa using hf), if_pos hf, hstate]
    rfl

/-- Settles O35: the fault lists of the range are emptied, the pins of those lists are UNKNOWN, and a segment not at work is UNSURE. -/
theorem clearFaultsTaken : Obligations.ClearFaultsTaken := by
  unfold Obligations.ClearFaultsTaken
  intro c s hbus hw hs hr cleared
  let b := storeArea commandOffset (c.toHost 11) s
  let u := rangeEffect Segment.cleared s.bus.argument b
  let t := judgedTaken s 11 c .done u
  have hstill : u.still = b.still := rangeEffect_still _ _ _
  have hseg (k : SegNo) : u.seg k = if Covered s.bus.argument k ∧ (s.seg k).faults ≠ [] then
      { unknownPins (s.seg k) (faultPins (s.seg k)) (s.seg k).state with
        faults := []
        state := if (s.seg k).state = .member ∨ (s.seg k).state = .moving ∨ (s.seg k).state = .verifying ∨ (s.seg k).state = .sensing
          then (s.seg k).state else .unsure } else s.seg k := by
    have hb : b.seg k = s.seg k := rfl
    rw [rangeEffect_seg, rangeRecords, hb, cleared_eq]
    by_cases hk : Covered s.bus.argument k
    · by_cases hf : (s.seg k).faults = []
      · rw [if_pos hk, if_neg (not_not.2 hf), if_neg fun h => h.2 hf]
      · exact (if_pos hk).trans ((if_pos hf).trans (if_pos ⟨hk, hf⟩).symm)
    · rw [if_neg hk, if_neg fun h => hk h.1]
  have hclear (k : SegNo) : cleared.seg k = u.seg k := (seg_withRecords _ s k).trans (hseg k).symm
  have hruns : WorkRuns u := by
    have hb : WorkRuns b := ⟨hw.moved rfl rfl rfl rfl (.of_segs rfl) fun hf => ⟨hf, rfl, rfl⟩, active_runs hs⟩
    exact hb.moved (by rw [rangeEffect_asm]) (by rw [rangeEffect_stroke]) (by rw [rangeEffect_conv]) (by rw [rangeEffect_conv])
      ((allMove_mapSegs moves_cleared _ b).trans (.of_segs (syncTail_segs _ _))) (by rw [still_engine hstill])
  have hmoved (k : SegNo) (hk : Covered s.bus.argument k) (hf : (s.seg k).faults ≠ []) := (hseg k).trans (if_pos ⟨hk, hf⟩)
  have ht (k : SegNo) : t.seg k = (judge u).seg k := judgedTaken_seg k
  refine ⟨t, exec_range (act := clearRange) hbus hs hr rfl, takenWith_judged hstill hbus, pageJudged_judged hstill, ?sense, fun i hi => ?others,
    fun i hi hf => ⟨?marks, fun hst => ?free, fun hst => ?working, fun hst hq => ?member⟩, fun hq => ⟨?asm, ?stroke, fun i => ?quiet⟩,
    fun hq => newWork_judgedTaken ?core⟩
  case sense =>
    rw [judgedTaken_sense, rangeEffect_conv]
    rfl
  case others =>
    have hsame : u.seg i = s.seg i := (hseg i).trans (if_neg fun h => hi.elim (· h.1) (h.2 ·))
    rw [← hsame]
    exact judgedTaken_marks i
  case marks =>
    have h := judgedTaken_marks (s := s) (code := 11) (c := c) (r := .done) (u := u) i
    rw [hmoved i hi hf] at h
    exact h
  case free =>
    have hnot : ¬((s.seg i).state = .member ∨ (s.seg i).state = .moving ∨ (s.seg i).state = .verifying ∨ (s.seg i).state = .sensing) := by
      rcases hst with h | h | h | h | h <;> rw [h] <;> decide
    have hu := hmoved i hi hf
    rw [if_neg hnot] at hu
    have hor := judge_orSensing hruns (k := i) (by rw [hu]; exact (nomatch ·)) (by rw [hu]; exact (nomatch ·))
    rw [OrSensing, hu] at hor
    rw [ht]
    rcases hor with h | ⟨h, -⟩
    · rw [h]
      exact ⟨.inl rfl, rfl, rfl⟩
    · rw [h]
      exact ⟨.inr rfl, rfl, rfl⟩
  case working =>
    have hu := hmoved i hi hf
    rw [if_pos (.inr hst)] at hu
    rw [ht, judge_atWork hruns (by rw [hu]; exact hst), hu]
    rfl
  case member =>
    have hu := hmoved i hi hf
    rw [if_pos (.inl hst)] at hu
    rw [ht, judge, judgeWork_quiet (rangeEffect_quiet _ _ b hq), (grants_judgeGrant u).seg_of_ne (by rw [hu, hst]; exact (nomatch ·))
      (by rw [hu, hst]; rfl), hu, hst]
    rfl
  case asm =>
    rw [judgedTaken_asm]
    exact (judge_of_quiet (rangeEffect_quiet _ _ b hq)).1.trans (rangeEffect_asm _ _ _)
  case stroke =>
    rw [judgedTaken_stroke]
    exact (judge_of_quiet (rangeEffect_quiet _ _ b hq)).2.1.trans (rangeEffect_stroke _ _ _)
  case quiet =>
    have h := judgedTaken_orSensing (s := s) (code := 11) (c := c) (r := .done) (rangeEffect_quiet Segment.cleared s.bus.argument b hq) i
    rw [hclear]
    exact h
  case core =>
    have hrecords : rangeRecords Segment.cleared s.bus.argument b = fun k => u.seg k := funext fun k => (rangeEffect_seg _ _ b k).symm
    have h := rangeEffect_core Segment.cleared s.bus.argument b hq
    rw [hrecords, funext hseg] at h
    exact h

end Sys2Proof.Machine

/-! ### PAUSE and RESUME (R173, R174) -/

namespace Sys2Proof.Machine

/-- A grant does not settle the page. -/
theorem Grants.settled_of {w t : State} (h : Grants w t) (ht : settled t = true) : settled w = true := by
  have hjob : t.conv.job = Option.none := by
    simp only [settled, Bool.and_eq_true, Option.isNone_iff_eq_none] at ht
    exact ht.2
  cases h with
  | none => exact ht
  | sweep hg h =>
    rw [startSweep_conv] at hjob
    nomatch hjob
  | sense hg hno h =>
    rw [startSense_conv] at hjob
    nomatch hjob

/-- A command that sets the engine state and has new work judged. -/
theorem exec_pause {s : State} (hbus : BusLawful s) (hs : s.engine.state = .running) (c : CommandWrite) :
    exec (.pause c) s = .next (judgedTaken s 3 c .done (clearLag (setEngineState .paused (storeArea commandOffset (c.toHost 3) s)))) := by
  have hexec : exec (.pause c) s = .next (takeWrite 3 c takePause s) := rfl
  rw [hexec, takeWrite_eq hbus.2.1]
  exact congrArg Host.Outcome.next (if_pos hs)

theorem exec_resume {s : State} (hbus : BusLawful s) (hs : s.engine.state = .paused) (c : CommandWrite) :
    exec (.resume c) s = .next (judgedTaken s 4 c .done (setEngineState .running (storeArea commandOffset (c.toHost 4) s))) := by
  have hexec : exec (.resume c) s = .next (takeWrite 4 c takeResume s) := rfl
  rw [hexec, takeWrite_eq hbus.2.1]
  exact congrArg Host.Outcome.next (if_pos hs)

section
variable {s : State} (c : CommandWrite)

/-- The state that PAUSE has new work judged from. -/
def pausedFrom (s : State) (c : CommandWrite) : State := clearLag (setEngineState .paused (storeArea commandOffset (c.toHost 3) s))

theorem pausedFrom_still : (pausedFrom s c).still =
    { storeArea commandOffset (c.toHost 3) s with engine := { s.engine with state := .paused, lag := none, lagWarned := false } }.still := rfl

/-- PAUSE leaves Engine Control with nothing to tell the page (R173, R183). -/
theorem judgeSettled_paused (hs : s.engine.state = .running) (u : State) (hu : u = giveResult 3 .done (judge (pausedFrom s c))) :
    judgeSettled false (storeArea commandOffset (c.toHost 3) s) u = u := by
  have hstate : u.engine.state = .paused := by
    rw [hu, giveResult_engine, judge_engine]
    rfl
  cases hsettled : settled u with
  | true =>
    refine judgeSettled_stays hsettled ?_
    have hjudge : settled (judge (pausedFrom s c)) = true := by
      rw [← hsettled, hu]
      exact (settled_of_firm rfl).symm
    rw [judge_notRunning (s := pausedFrom s c) (nomatch ·)] at hjudge
    have hfrom := (grants_judgeGrant (pausedFrom s c)).settled_of hjudge
    simp only [settled] at hfrom ⊢
    have hrun : ((storeArea commandOffset (c.toHost 3) s).engine.state == .running || (storeArea commandOffset (c.toHost 3) s).engine.state == .paused) = true := by
      have : (storeArea commandOffset (c.toHost 3) s).engine.state = .running := hs
      rw [this]
      rfl
    rw [hrun]
    exact hfrom
  | false =>
    refine judgeSettled_unsettled hsettled fun h => ?_
    rw [hstate] at h
    nomatch h.1

/-- What a command whose effects leave the Event Unit owes of PAGE_DONE, where Engine Control has nothing to tell. -/
theorem paused_engine (hs : s.engine.state = .running) :
    (judgedTaken s 3 c .done (pausedFrom s c)).engine = { s.engine with state := .paused, lag := none, lagWarned := false } := by
  rw [judgedTaken, closeEvent, closePosts_engine, judgeSettled_paused c hs _ rfl, giveResult_engine, judge_engine]
  rfl

theorem paused_chime (hs : s.engine.state = .running) : (judgedTaken s 3 c .done (pausedFrom s c)).chime = s.chime := by
  rw [judgedTaken, closeEvent, closePosts_chime, judgeSettled_paused c hs _ rfl, giveResult_chime, judge_chime]
  rfl

theorem paused_page (hs : s.engine.state = .running) :
    isPending (judgedTaken s 3 c .done (pausedFrom s c)) .pageDone = isPending s .pageDone := by
  rw [judgedTaken, closeEvent, isPending_closePosts, judgeSettled_paused c hs _ rfl, isPending_giveResult]
  exact isPending_congr (by rw [judge_events]; rfl) _

theorem quiet_pausedFrom : Quiet (pausedFrom s c) := by
  have hstate : (pausedFrom s c).engine.state ≠ .running := (nomatch ·)
  refine ⟨Bool.eq_false_iff.2 fun h => ?_, .inl hstate⟩
  obtain ⟨-, -, -, hrun, -⟩ := driveReady_spec h
  exact hstate hrun

end

/-- The posts that a command with a result ends its event with, where its effects change a status field. -/
theorem judgedTaken_endsWith {s u : State} {code : Byte} {c : CommandWrite} {r : ResultCode} (hbus : BusLawful s)
    (hresults : u.owed.results = s.owed.results) (hstate : u.engine.state.code ≠ s.engine.state.code) :
    EndsWith (judgedTaken s code c r u)
      [statusPost (judgedTaken s code c r u), resultPost code r, pendingPost (judgedTaken s code c r u)] := by
  refine endsWith_statusGiven ?_ false _ fun h => hstate ?_
  · rw [judge_results, hresults]
    exact owes_results hbus.2.2
  · have hcode : s.engine.state.code = (judge u).engine.state.code := (List.cons.inj h).1
    rw [hcode, judge_engine]

section
variable {s : State} (c : CommandWrite)

/-- The state that RESUME has new work judged from. -/
def resumedFrom (s : State) (c : CommandWrite) : State := setEngineState .running (storeArea commandOffset (c.toHost 4) s)

/-- RESUME taken: the lag timer starts unless the page is settled (R174, R184). -/
theorem resumed_engine (hs : s.engine.state = .paused) :
    let t := judgedTaken s 4 c .done (resumedFrom s c)
    t.engine = { s.engine with
      state := .running, showPending := t.engine.showPending, lag := t.engine.lag, lagWarned := t.engine.lagWarned } ∧
    (settled t = false → t.engine.lag = some 0 ∧ t.engine.lagWarned = false ∧ t.engine.showPending = s.engine.showPending) ∧
    (settled t = true → s.engine.lag = none → t.engine.lag = none) := by
  intro t
  let b := storeArea commandOffset (c.toHost 4) s
  let u := giveResult 4 .done (judge (resumedFrom s c))
  have hengine : u.engine = { s.engine with state := .running } := by
    have h : u.engine = (resumedFrom s c).engine := by rw [giveResult_engine, judge_engine]
    exact h
  have ht : t.engine = (judgeSettled false b u).engine := closePosts_engine _ _
  have hsettled : settled t = settled u := settled_ended false b u
  rw [ht, hsettled]
  cases hu : settled u with
  | true =>
    cases hb : settled b with
    | true =>
      rw [judgeSettled_stays hu hb, hengine]
      exact ⟨rfl, (nomatch ·), fun _ h => h⟩
    | false =>
      rw [judgeSettled_settles hu (.inl hb), pageSettles_engine, hengine]
      exact ⟨rfl, (nomatch ·), fun _ _ => rfl⟩
  | false =>
    have hpaused : b.engine.state ≠ .running := by
      have h : b.engine.state = .paused := hs
      rw [h]
      exact (nomatch ·)
    rw [judgeSettled_unsettles hu (by rw [hengine]) (.inr hpaused), startLag_engine, hengine]
    exact ⟨rfl, fun _ => ⟨rfl, rfl, rfl⟩, (nomatch ·)⟩

/-- The judging of a walk asks nothing of the engine state before it. -/
theorem walkJudged_resumed {t t' : State} (h : WalkJudged (resumedFrom s c) t) (ht : t'.firm = t.firm) : WalkJudged s t' := by
  have hseen : WalkJudged (resumedFrom s c) t.seen := h
  rw [← seen_of_firm ht] at hseen
  exact hseen

theorem queuesRun_paused (hs : s.engine.state = .paused) : queuesRun s.engine = queuesRun (resumedFrom s c).engine := by
  rw [queuesRun, hs]
  rfl

theorem queueLawful_resumed (hs : s.engine.state = .paused) (hq : QueueLawful s) : QueueLawful (resumedFrom s c) :=
  ⟨hq.1, fun i => (hq.2 i).trans (by rw [queueable_iff, queueable_iff, queuesRun_paused c hs]; rfl)⟩

theorem workLawful_resumed (hs : s.engine.state = .paused) (hw : WorkLawful s) : WorkLawful (resumedFrom s c) :=
  hw.moved rfl rfl rfl rfl (.of_segs rfl) fun hf => ⟨(queuesRun_paused c hs).trans hf, rfl, rfl⟩

theorem driveJudged_resumed (hs : s.engine.state = .paused) {t : State} {unit : StrokeUnit} {ms : List Member}
    (h : DriveJudged (resumedFrom s c) t unit ms) : DriveJudged s t unit ms := by
  obtain ⟨hkept, hnone, hout⟩ := h
  refine ⟨hkept, hnone, fun hw hshown => ?_⟩
  obtain ⟨hsegs, hqueue⟩ := hout (workLawful_resumed c hs hw) hshown
  exact ⟨hsegs, fun hq => hqueue (queueLawful_resumed c hs hq)⟩

end

/-- Settles O28: PAUSE holds back walks and drives, and RESUME judges them. -/
theorem pauseAndResumeTaken : Obligations.PauseAndResumeTaken := by
  unfold Obligations.PauseAndResumeTaken
  refine ⟨fun c s hbus hs => ?pause, fun c s hbus hs => ?resume⟩
  case pause =>
    have hquiet := quiet_pausedFrom (s := s) c
    refine ⟨judgedTaken s 3 c .done (pausedFrom s c), exec_pause hbus hs c,
      takenWith_ended hbus (e := { s.engine with state := .paused, lag := none, lagWarned := false }) rfl
        ((judge_still _).trans (pausedFrom_still c)) false _, paused_engine c hs, ?_, ?_, judgedTaken_sense,
      paused_chime c hs, paused_page c hs, fun i => judgedTaken_orSensing hquiet i, judgedTaken_endsWith hbus rfl ?_⟩
    · rw [judgedTaken_asm]
      exact (judge_of_quiet hquiet).1
    · rw [judgedTaken_stroke]
      exact (judge_of_quiet hquiet).2.1
    · rw [hs]
      exact (by decide : EngineState.paused.code ≠ EngineState.running.code)
  case resume =>
    let u := resumedFrom s c
    let t := judgedTaken s 4 c .done u
    obtain ⟨hengine, hlag, hsettled⟩ := resumed_engine c hs
    refine ⟨t, exec_resume hbus hs c, takenWith_ended hbus (e := { s.engine with state := .running }) rfl (judge_still u) false _, hengine,
      judgedTaken_sense, fun i => judgedTaken_marks (u := u) i, hlag, hsettled, judgedTaken_endsWith hbus rfl ?_, fun hasm hq => ?_, fun ms hms => ?_⟩
    · rw [hs]
      exact (by decide : EngineState.running.code ≠ EngineState.paused.code)
    · exact walkJudged_resumed c (walkJudged_judge (s := u) rfl hasm (queueLawful_resumed c hs hq)) judgedTaken_firm
    · obtain ⟨a, ha, hpm⟩ := Option.map_eq_some_iff.1 hms
      obtain ⟨hp, hm⟩ := Prod.mk.inj hpm
      subst hm
      have hu : u.asm = some a := ha
      refine ⟨fun hfree => ?_, fun hnot => ?_⟩
      · have hjudged := driveJudged_judge (s := u) hu hp rfl hfree
        exact driveJudged_resumed c hs (hjudged.congr rfl judgedTaken_firm)
      · have hquiet : Quiet u := by
          refine ⟨Bool.eq_false_iff.2 fun h => ?_, .inr (by rw [hu]; exact Option.some_ne_none a)⟩
          obtain ⟨-, -, -, -, hfree⟩ := driveReady_spec h
          exact hnot hfree
        refine ⟨?_, ?_, fun i => judgedTaken_orSensing hquiet i⟩
        · rw [judgedTaken_asm]
          exact (judge_of_quiet hquiet).1
        · rw [judgedTaken_stroke]
          exact (judge_of_quiet hquiet).2.1

end Sys2Proof.Machine

/-! ### SHOW (R35, R52, R176, R183) -/

namespace Sys2Proof.Machine

theorem giveResult_firm (code : Byte) (r : ResultCode) (u : State) : (giveResult code r u).firm = u.firm := rfl

theorem argShown_of {a : Word} {named : Shown}
    (h : lowByte a = 0 ∧ named = .a ∨ lowByte a = 1 ∧ named = .b ∨ lowByte a = 2 ∧ named = .none) : argShown a = some named := by
  rcases h with ⟨h, rfl⟩ | ⟨h, rfl⟩ | ⟨h, rfl⟩ <;> rw [argShown, h] <;> rfl

section
variable {s : State} (c : CommandWrite) (named : Shown)

/-- The state that SHOW has new work judged from. -/
def shownFrom (s : State) (c : CommandWrite) (named : Shown) : State := showParts named (storeArea commandOffset (c.toHost 5) s)

/-- The state that SHOW leaves. -/
def shownTaken (s : State) (c : CommandWrite) (named : Shown) : State :=
  closeShow (storeArea commandOffset (c.toHost 5) s) (giveResult 5 .done (judge (shownFrom s c named)))

theorem exec_show (hbus : BusLawful s) (hs : Active s)
    (h : lowByte s.bus.argument = 0 ∧ named = .a ∨ lowByte s.bus.argument = 1 ∧ named = .b ∨ lowByte s.bus.argument = 2 ∧ named = .none) :
    exec (.showBuffer c) s = .next (shownTaken s c named) := by
  have hexec : exec (.showBuffer c) s = .next (takeWrite 5 c takeShow s) := rfl
  have htake (b : State) (hb : Active b) (hn : argShown b.bus.argument = some named) :
      takeShow b = closeShow b (giveResult 5 .done (judge (showParts named b))) := by
    rw [takeShow, if_neg (by rw [runsOrPaused_of_active hb]; exact Bool.noConfusion), hn]
  rw [hexec, takeWrite_eq hbus.2.1]
  exact congrArg Host.Outcome.next (htake (storeArea commandOffset (c.toHost 5) s) hs (argShown_of h))

theorem shownFrom_still : (shownFrom s c named).still =
    { storeArea commandOffset (c.toHost 5) s with engine := { s.engine with shown := named, showPending := true } }.still := by
  rw [shownFrom, showParts, syncTail_still]
  rfl

theorem shownFrom_seg (k : SegNo) : (shownFrom s c named).seg k = (s.seg k).touchContent := by
  rw [shownFrom, showParts, syncTail_seg]
  exact seg_map (s := s) rfl k

theorem shownFrom_asm : (shownFrom s c named).asm = s.asm := by
  rw [shownFrom, showParts, syncTail_asm]
  rfl

theorem shownFrom_stroke : (shownFrom s c named).stroke = s.stroke := by
  rw [shownFrom, showParts, syncTail_stroke]
  rfl

theorem shownFrom_conv : (shownFrom s c named).conv = s.conv := by
  rw [shownFrom, showParts, syncTail_conv]
  rfl

theorem shownFrom_engine : (shownFrom s c named).engine = { s.engine with shown := named, showPending := true } := by
  rw [shownFrom, showParts, syncTail_engine]
  rfl

theorem shownFrom_gate : (shownFrom s c named).gate = s.gate := by
  rw [shownFrom, showParts, syncTail_gate]
  rfl

theorem shownFrom_chime : (shownFrom s c named).chime = s.chime := by
  rw [shownFrom, showParts, syncTail_chime]
  rfl

theorem shownFrom_events : (shownFrom s c named).events = s.events := by
  rw [shownFrom, showParts, syncTail_events]
  rfl

theorem shownFrom_runs (hw : WorkLawful s) (hs : Active s) : WorkRuns (shownFrom s c named) := by
  have hb : WorkRuns s := ⟨hw, active_runs hs⟩
  refine hb.moved (by rw [shownFrom_asm]) (by rw [shownFrom_stroke]) (by rw [shownFrom_conv]) (by rw [shownFrom_conv]) (fun k => ?_)
    (by rw [shownFrom_engine]; rfl)
  rw [shownFrom_seg]
  exact moves_touchContent _

theorem shownFrom_quiet (h : Quiet s) : Quiet (shownFrom s c named) :=
  quiet_congr h (shownFrom_asm c named) (shownFrom_stroke c named) (shownFrom_gate c named) (by rw [shownFrom_conv])
    (by rw [shownFrom_engine])

/-- The queue that SHOW leaves: the segments that may wait now join at the tail in ascending order (R52). -/
theorem shownFrom_entries : (shownFrom s c named).queue.entries =
    (withRecords (fun k => (s.seg k).touchContent) { s with engine := { s.engine with shown := named } }).queue.entries := by
  have hall : allSegs.filter (fun _ => true) = allSegs := List.filter_true _
  have hrun := entries_tailRun (s := { s with engine := { s.engine with shown := named } }) (p := fun _ => true)
    (v := { storeArea commandOffset (c.toHost 5) s with
      engine := { s.engine with shown := named, showPending := true }, segs := s.segs.map Segment.touchContent })
    (f := fun k => (s.seg k).touchContent) rfl (fun _ h => (nomatch h)) (fun _ => rfl) (fun k => seg_map (s := s) rfl k)
  rw [hall] at hrun
  exact hrun

theorem shownFrom_core : (shownFrom s c named).core =
    (withRecords (fun k => (s.seg k).touchContent) { s with engine := { s.engine with shown := named } }).core := by
  refine core_congr (fun k => ?_) (shownFrom_entries c named) ?_ ?_ ?_ ?_ ?_
  · rw [shownFrom_seg, seg_withRecords]
  · rw [shownFrom_asm, asm_withRecords]
  · rw [shownFrom_stroke, stroke_withRecords]
  · rw [shownFrom_gate, withRecords, gate_withJoins]
  · rw [shownFrom_conv, conv_withRecords]
  · simp only [State.core, shownFrom_engine, engine_withRecords]

theorem shownTaken_firm : (shownTaken s c named).firm = (judge (shownFrom s c named)).firm := by
  rw [shownTaken, closeShow_firm]
  exact giveResult_firm _ _ _

theorem shownTaken_seg (k : SegNo) : (shownTaken s c named).seg k = (judge (shownFrom s c named)).seg k := by
  rw [shownTaken, closeShow_seg, giveResult_seg]

theorem shownTaken_conv : (shownTaken s c named).conv = (judge (shownFrom s c named)).conv := by
  rw [shownTaken, closeShow_conv, giveResult_conv]

/-- Engine Control at the end of SHOW: the page settles at once, or show-pending stands (R176, R183, R184). -/
theorem shownTaken_page :
    let t := shownTaken s c named
    t.engine = { s.engine with
      shown := named, showPending := t.engine.showPending, lag := t.engine.lag, lagWarned := t.engine.lagWarned } ∧
    (settled t = true → isPending t .pageDone = true ∧ t.engine.showPending = false ∧ t.engine.lag = none) ∧
    (settled t = false → isPending t .pageDone = isPending s .pageDone ∧ t.engine.showPending = true ∧ t.chime = s.chime) ∧
    (settled s = true → settled t = false → s.engine.state = .running → t.engine.lag = some 0) := by
  intro t
  let b := storeArea commandOffset (c.toHost 5) s
  obtain ⟨u, hu⟩ : ∃ u, u = giveResult 5 .done (judge (shownFrom s c named)) := ⟨_, rfl⟩
  have hengine : u.engine = { s.engine with shown := named, showPending := true } := by
    rw [hu, giveResult_engine, judge_engine, shownFrom_engine]
  have hchime : u.chime = s.chime := by rw [hu, giveResult_chime, judge_chime, shownFrom_chime]
  have hpage : isPending u .pageDone = isPending s .pageDone := by
    rw [hu, isPending_giveResult]
    exact isPending_congr (by rw [judge_events, shownFrom_events]) _
  have hclose : t = closePosts b (judgeSettled true b u) := by rw [hu]; rfl
  have ht : t.engine = (judgeSettled true b u).engine := by rw [hclose, closePosts_engine]
  have htChime : t.chime = (judgeSettled true b u).chime := by rw [hclose, closePosts_chime]
  have htPage : isPending t .pageDone = isPending (judgeSettled true b u) .pageDone := by rw [hclose, isPending_closePosts]
  have hsettled : settled t = settled u := by rw [hclose, settled_ended]
  clear hu
  have hbefore : settled b = settled s := rfl
  rw [ht, htChime, htPage, hsettled]
  cases hu : settled u with
  | true =>
    rw [judgeSettled_settles hu (.inr rfl), pageSettles_engine, isPending_pageSettles, hengine]
    exact ⟨rfl, fun _ => ⟨rfl, rfl, rfl⟩, (nomatch ·), fun _ => (nomatch ·)⟩
  | false =>
    by_cases hlag : u.engine.state = .running ∧ (settled b = true ∨ b.engine.state ≠ .running)
    · rw [judgeSettled_unsettles hu hlag.1 hlag.2, startLag_engine, startLag_chime, hengine]
      exact ⟨rfl, (nomatch ·), fun _ => ⟨hpage, rfl, hchime⟩, fun _ _ _ => rfl⟩
    · rw [judgeSettled_unsettled hu hlag, hengine]
      refine ⟨rfl, (nomatch ·), fun _ => ⟨hpage, rfl, hchime⟩, fun hs _ hrun => absurd ⟨?_, .inl (hbefore.trans hs)⟩ hlag⟩
      rw [hengine]
      exact hrun

end

theorem touchContent_eq (r : Segment) : r.touchContent =
    if r.state = .faulted then r else { r with dirty := true, state := if r.state = .clean then .stale else r.state } := rfl

/-- Settles O29: every segment's content may have changed, and new work is judged under the buffer named. -/
theorem showTaken : Obligations.ShowTaken := by
  unfold Obligations.ShowTaken
  intro c named s hbus hw hs hnamed shown
  let u := shownFrom s c named
  let t := shownTaken s c named
  have hruns : WorkRuns u := shownFrom_runs c named hw hs
  obtain ⟨hengine, hdone, hopen, hlag⟩ := shownTaken_page (s := s) c named
  refine ⟨t, exec_show c named hbus hs hnamed,
    takenWith_ended hbus (e := { s.engine with shown := named, showPending := true }) rfl ((judge_still _).trans (shownFrom_still c named)) true _,
    hengine, ?sense, hdone, hopen, hlag, fun i => ?marks, fun i hi => ?faulted, fun hq i => ?quiet, fun hq => ?work⟩
  case sense => rw [shownTaken_conv, judge_sense, shownFrom_conv]
  case marks =>
    have h := allMarksKept_judge u i
    rw [shownTaken_seg]
    rw [shownFrom_seg, Segment.touchContent_marks] at h
    exact h
  case faulted =>
    have hu : u.seg i = s.seg i := by rw [shownFrom_seg, touchContent_eq, if_pos hi]
    rw [shownTaken_seg, judge_faulted hruns (by rw [hu]; exact hi), hu]
  case quiet =>
    have h := (judge_of_quiet (shownFrom_quiet c named hq)).2.2.1 i
    rw [OrSensing, shownTaken_seg, shownTaken_conv, seg_withRecords]
    rw [shownFrom_seg] at h
    exact h
  case work => exact (newWork_judge u).congr (shownFrom_core c named).symm (shownTaken_firm c named)

end Sys2Proof.Machine

/-! ### DISCARD (R38, R78, R179) -/

namespace Sys2Proof.Machine

/-! #### One segment -/

/-- Whether a segment is under work that DISCARD lets end (R39). -/
def SegState.working (st : SegState) : Bool :=
  match st with
  | .moving => true
  | .verifying => true
  | .sensing => true
  | .clean => false
  | .stale => false
  | .unsure => false
  | .capturing => false
  | .member => false
  | .faulted => false

theorem working_iff (st : SegState) : st.working = true ↔ st = .moving ∨ st = .verifying ∨ st = .sensing := by
  cases st <;> simp [SegState.working]

/-- The record that DISCARD leaves of a segment. -/
def Segment.discardTaken (r : Segment) : Segment :=
  if r.state = .faulted then r else if r.state.working then { r with discardAfter := true } else { r.forget with state := .unsure }

/-- DISCARD forgets the segment, and a capture of it learns of it. -/
def Segment.forgets (r : Segment) : Bool := r.state != .faulted && !r.state.working

/-- A record less some of its members, with its capture told of a segment forgotten. -/
def Assembly.thinned (p q : SegNo → Bool) (a : Assembly) : Assembly :=
  { a with members := a.members.filter fun m => !p m.seg, capture := a.capture.map fun c => if q c.seg then { c with forgotten := true } else c }

theorem thinned_thinned (p q p' q' : SegNo → Bool) (a : Assembly) :
    (a.thinned p q).thinned p' q' = a.thinned (fun k => p k || p' k) fun k => q k || q' k := by
  simp only [Assembly.thinned, List.filter_filter, Option.map_map]
  congr 1
  · refine List.filter_congr fun m _ => ?_
    rw [Bool.not_or, Bool.and_comm]
  · congr 1
    funext c
    simp only [Function.comp]
    by_cases hq : q c.seg = true
    · simp [hq]
    · simp [hq]

theorem thinned_none (a : Assembly) : a.thinned (fun _ => false) (fun _ => false) = a := by
  have hmembers : (a.members.filter fun _ => !false) = a.members := List.filter_true _
  have hcapture : (a.capture.map fun c => if false = true then { c with forgotten := true } else c) = a.capture := by
    cases a.capture <;> rfl
  rw [Assembly.thinned, hmembers, hcapture]

section
variable (i : SegNo) (s : State)

theorem noteForgotten_asm : (noteForgotten i s).asm = s.asm.map (Assembly.thinned (fun _ => false) fun k => k == i) := by
  have hmembers (a : Assembly) : (a.members.filter fun _ => !false) = a.members := List.filter_true _
  unfold noteForgotten
  cases ha : s.asm with
  | none => exact ha
  | some a =>
    simp only [Option.map_some, Assembly.thinned, hmembers]
    cases hc : a.capture with
    | none =>
      simp only [Option.map_none]
      rw [ha, ← hc]
    | some c =>
      simp only [Option.map_some, beq_iff_eq]
      split
      · rfl
      · rw [ha, ← hc]

theorem forgetSeg_asm : (forgetSeg i s).asm = s.asm.map (Assembly.thinned (fun _ => false) fun k => k == i) := noteForgotten_asm i _

theorem removeMember_asm : (removeMember i s).asm = s.asm.map (Assembly.thinned (fun k => k == i) fun _ => false) := by
  unfold removeMember
  cases ha : s.asm with
  | none => exact ha
  | some a =>
    refine congrArg some ?_
    have hcapture : (a.capture.map fun c => if false = true then { c with forgotten := true } else c) = a.capture := by
      cases a.capture <;> rfl
    rw [Assembly.thinned, hcapture]
    rfl

/-- DISCARD of one segment, by what its state is (R179). -/
theorem discardSeg_cases :
    ((s.seg i).state = .faulted ∧ discardSeg i s = s) ∨
    ((s.seg i).state.working = true ∧ discardSeg i s = setSeg i { s.seg i with discardAfter := true } s) ∨
    ((s.seg i).state = .member ∧ discardSeg i s = removeMember i (forgetSeg i s)) ∨
    ((s.seg i).forgets = true ∧ (s.seg i).state ≠ .member ∧ discardSeg i s = forgetSeg i s) := by
  unfold discardSeg
  cases hi : (s.seg i).state with
  | faulted => exact .inl ⟨rfl, rfl⟩
  | moving => exact .inr (.inl ⟨rfl, rfl⟩)
  | verifying => exact .inr (.inl ⟨rfl, rfl⟩)
  | sensing => exact .inr (.inl ⟨rfl, rfl⟩)
  | member => exact .inr (.inr (.inl ⟨rfl, rfl⟩))
  | clean => exact .inr (.inr (.inr ⟨by rw [Segment.forgets, hi]; rfl, (nomatch ·), rfl⟩))
  | stale => exact .inr (.inr (.inr ⟨by rw [Segment.forgets, hi]; rfl, (nomatch ·), rfl⟩))
  | unsure => exact .inr (.inr (.inr ⟨by rw [Segment.forgets, hi]; rfl, (nomatch ·), rfl⟩))
  | capturing => exact .inr (.inr (.inr ⟨by rw [Segment.forgets, hi]; rfl, (nomatch ·), rfl⟩))

theorem not_forgets_of_working {r : Segment} (h : r.state.working = true) : r.forgets = false ∧ (r.state == .member) = false := by
  rcases (working_iff _).1 h with h | h | h <;> rw [Segment.forgets, h] <;> exact ⟨rfl, rfl⟩

/-- What DISCARD of one segment makes of the Assembler's record (R74, R78). -/
theorem discardSeg_asm : (discardSeg i s).asm =
    s.asm.map (Assembly.thinned (fun k => k == i && (s.seg i).state == .member) fun k => k == i && (s.seg i).forgets) := by
  have hkeep (hf : (s.seg i).forgets = false) (hm : ((s.seg i).state == .member) = false) : s.asm =
      s.asm.map (Assembly.thinned (fun k => k == i && (s.seg i).state == .member) fun k => k == i && (s.seg i).forgets) := by
    simp only [hf, hm, Bool.and_false]
    cases s.asm with
    | none => rfl
    | some a => exact congrArg some (thinned_none a).symm
  rcases discardSeg_cases i s with ⟨h, heq⟩ | ⟨h, heq⟩ | ⟨h, heq⟩ | ⟨h, hm, heq⟩
  · rw [heq]
    exact hkeep (by rw [Segment.forgets, h]; rfl) (by rw [h]; rfl)
  · rw [heq]
    obtain ⟨hf, hm⟩ := not_forgets_of_working h
    exact hkeep hf hm
  · have hf : (s.seg i).forgets = true := by rw [Segment.forgets, h]; rfl
    simp only [heq, removeMember_asm, forgetSeg_asm, Option.map_map, hf, h, Bool.and_true, beq_self_eq_true]
    congr 1
    funext a
    simp only [Function.comp, thinned_thinned, Bool.false_or, Bool.or_false]
  · simp only [heq, forgetSeg_asm, h, beq_eq_false_iff_ne.2 hm, Bool.and_true, Bool.and_false]

theorem discardSeg_self : (discardSeg i s).seg i = (s.seg i).discardTaken := by
  have hforget (hf : (s.seg i).forgets = true) : (forgetSeg i s).seg i = (s.seg i).discardTaken := by
    simp only [Segment.forgets, Bool.and_eq_true, bne_iff_ne, Bool.not_eq_true'] at hf
    rw [forgetSeg_seg, if_pos rfl, Segment.discardTaken, if_neg hf.1, if_neg (Bool.eq_false_iff.1 hf.2)]
  rcases discardSeg_cases i s with ⟨h, heq⟩ | ⟨h, heq⟩ | ⟨h, heq⟩ | ⟨h, -, heq⟩
  · rw [heq, Segment.discardTaken, if_pos h]
  · rw [heq, seg_setSeg_self, Segment.discardTaken, if_neg (fun hf => by rw [hf] at h; nomatch h), if_pos h]
  · rw [heq, State.seg, removeMember_segs]
    exact hforget (by rw [Segment.forgets, h]; rfl)
  · rw [heq]
    exact hforget h

end

/-! #### The segments of the range -/

section
variable {is : List SegNo} (hn : is.Nodup) (s : State)
include hn

theorem discardSegs_seg (k : SegNo) :
    (is.foldl (fun s i => discardSeg i s) s).seg k = if k ∈ is then (s.seg k).discardTaken else s.seg k := by
  induction is generalizing s with
  | nil => rfl
  | cons i is ih =>
    obtain ⟨hi, hrest⟩ := List.nodup_cons.1 hn
    rw [List.foldl_cons, ih hrest]
    by_cases hk : k = i
    · subst hk
      rw [if_neg hi, if_pos List.mem_cons_self, discardSeg_self]
    · rw [discardSeg_other hk]
      simp only [List.mem_cons, hk, false_or]

theorem discardSegs_asm : (is.foldl (fun s i => discardSeg i s) s).asm =
    s.asm.map (Assembly.thinned (fun k => decide (k ∈ is) && (s.seg k).state == .member) fun k => decide (k ∈ is) && (s.seg k).forgets) := by
  induction is generalizing s with
  | nil =>
    simp only [List.foldl_nil, List.not_mem_nil, decide_false, Bool.false_and]
    cases s.asm with
    | none => rfl
    | some a => exact congrArg some (thinned_none a).symm
  | cons i is ih =>
    obtain ⟨hi, hrest⟩ := List.nodup_cons.1 hn
    rw [List.foldl_cons, ih hrest, discardSeg_asm, Option.map_map]
    have hpred (g : Segment → Bool) (k : SegNo) : (k == i && g (s.seg i) || decide (k ∈ is) && g ((discardSeg i s).seg k)) =
        (decide (k ∈ i :: is) && g (s.seg k)) := by
      by_cases hk : k = i
      · subst hk
        simp [hi]
      · simp [hk, discardSeg_other hk]
    congr 1
    funext a
    simp only [Function.comp, thinned_thinned]
    congr 1
    · funext k
      exact hpred (fun r => r.state == .member) k
    · funext k
      exact hpred Segment.forgets k

end

theorem discardSegs_still (is : List SegNo) (s : State) : (is.foldl (fun s i => discardSeg i s) s).still = s.still :=
  foldl_keeps State.still (fun u i => discardSeg_still i u) is s

theorem discardSegs_conv (is : List SegNo) (s : State) : (is.foldl (fun s i => discardSeg i s) s).conv = s.conv :=
  foldl_keeps State.conv (fun u i => discardSeg_conv i u) is s

theorem discardSegs_queue (is : List SegNo) (s : State) : (is.foldl (fun s i => discardSeg i s) s).queue = s.queue :=
  foldl_keeps State.queue (fun u i => discardSeg_queue i u) is s

theorem dropEmptyRecord_asm (s : State) :
    (dropEmptyRecord s).asm = s.asm.bind fun a => if a.phase = .armed ∧ a.members = [] then none else some a := by
  unfold dropEmptyRecord
  cases ha : s.asm with
  | none => exact ha
  | some a =>
    simp only [Option.bind_some, List.isEmpty_iff]
    split
    · rfl
    · exact ha

theorem discardEffect_seg {is : List SegNo} (hn : is.Nodup) (s : State) (k : SegNo) :
    (discardEffect is s).seg k = if k ∈ is then (s.seg k).discardTaken else s.seg k := by
  rw [← discardSegs_seg hn s k, State.seg, discardEffect, dropEmptyRecord_segs, syncTail_segs]
  rfl

theorem discardEffect_asm {is : List SegNo} (hn : is.Nodup) (s : State) : (discardEffect is s).asm = s.asm.bind fun a =>
    let left := a.thinned (fun k => decide (k ∈ is) && (s.seg k).state == .member) fun k => decide (k ∈ is) && (s.seg k).forgets
    if left.phase = .armed ∧ left.members = [] then none else some left := by
  rw [discardEffect, dropEmptyRecord_asm, syncTail_asm, discardSegs_asm hn, Option.bind_map]
  rfl

end Sys2Proof.Machine

/-! ### DISCARD taken (R78, R179) -/

namespace Sys2Proof.Machine

theorem removeMember_stroke (i : SegNo) (s : State) : (removeMember i s).stroke = s.stroke := by
  unfold removeMember
  split <;> rfl

theorem forgetSeg_stroke (i : SegNo) (s : State) : (forgetSeg i s).stroke = s.stroke := by
  rw [forgetSeg_eq]
  rfl

theorem discardSeg_stroke (i : SegNo) (s : State) : (discardSeg i s).stroke = s.stroke := by
  rcases discardSeg_cases i s with ⟨-, heq⟩ | ⟨-, heq⟩ | ⟨-, heq⟩ | ⟨-, -, heq⟩
  · rw [heq]
  · rw [heq]
    rfl
  · rw [heq, removeMember_stroke, forgetSeg_stroke]
  · rw [heq, forgetSeg_stroke]

theorem dropEmptyRecord_stroke (s : State) : (dropEmptyRecord s).stroke = s.stroke := by
  unfold dropEmptyRecord
  split
  · rfl
  · split <;> rfl

theorem discardEffect_stroke (is : List SegNo) (s : State) : (discardEffect is s).stroke = s.stroke := by
  rw [discardEffect, dropEmptyRecord_stroke, syncTail_stroke]
  exact foldl_keeps State.stroke (fun u i => discardSeg_stroke i u) is s

/-- The record that DISCARD leaves, as the statement writes it. -/
theorem discardTaken_eq (r : Segment) : r.discardTaken =
    if r.state = .faulted then r
    else if r.state = .moving ∨ r.state = .verifying ∨ r.state = .sensing then { r with discardAfter := true }
    else { r with state := .unsure, target := none, shadow := ⟨0, 0⟩, retry := [] } := by
  simp only [Segment.discardTaken, working_iff]
  rfl

theorem discardTaken_forgets {r : Segment}
    (h : r.state = .clean ∨ r.state = .stale ∨ r.state = .unsure ∨ r.state = .capturing ∨ r.state = .member) :
    r.discardTaken = { r with state := .unsure, target := none, shadow := ⟨0, 0⟩, retry := [] } := by
  rw [discardTaken_eq]
  rcases h with h | h | h | h | h <;> simp [h]

theorem forgets_iff (r : Segment) :
    r.forgets = true ↔ r.state ≠ .faulted ∧ r.state ≠ .moving ∧ r.state ≠ .verifying ∧ r.state ≠ .sensing := by
  cases h : r.state <;> simp [Segment.forgets, SegState.working, h]

section
variable (a : Word) (s : State)

/-- The records that DISCARD leaves, as the statement writes them. -/
theorem discardRecords (k : SegNo) : (discardEffect (argRange a) s).seg k =
    if decide (Covered a k) = false ∨ (s.seg k).state = .faulted then s.seg k
    else if (s.seg k).state = .moving ∨ (s.seg k).state = .verifying ∨ (s.seg k).state = .sensing then { s.seg k with discardAfter := true }
    else { s.seg k with state := .unsure, target := none, shadow := ⟨0, 0⟩, retry := [] } := by
  rw [discardEffect_seg (nodup_argRange a), discardTaken_eq]
  by_cases hk : Covered a k
  · rw [if_pos (mem_argRange.2 hk)]
    by_cases hf : (s.seg k).state = .faulted
    · rw [if_pos hf, if_pos (.inr hf)]
    · exact (if_neg hf).trans (if_neg (by rintro (h | h); exacts [of_decide_eq_false h hk, hf h])).symm
  · rw [if_neg fun h => hk (mem_argRange.1 h), if_pos (.inl (decide_eq_false hk))]

/-- The Assembler's record that DISCARD leaves, as the statement writes it. -/
theorem discardRecord : (discardEffect (argRange a) s).asm = s.asm.bind fun r =>
    let left := r.members.filter fun m => !(decide (Covered a m.seg) && (s.seg m.seg).state == .member)
    if r.phase = .armed ∧ left = [] then none
    else some { r with
      members := left
      capture := r.capture.map fun cap =>
        if decide (Covered a cap.seg) = true ∧ (s.seg cap.seg).state ≠ .faulted ∧ (s.seg cap.seg).state ≠ .moving ∧
          (s.seg cap.seg).state ≠ .verifying ∧ (s.seg cap.seg).state ≠ .sensing then { cap with forgotten := true } else cap } := by
  rw [discardEffect_asm (nodup_argRange a)]
  simp only [Assembly.thinned, mem_argRange, Bool.and_eq_true, forgets_iff]

theorem discardEffect_core (hq : QueueLawful s) {s' : State} (hasm : (discardEffect (argRange a) s).asm = s'.asm)
    (hqueue : s'.queue.entries = s.queue.entries) (hstroke : s'.stroke = s.stroke) (hgate : s'.gate = s.gate) (hconv : s'.conv = s.conv)
    (hengine : s'.engine = s.engine) :
    (discardEffect (argRange a) s).core = (withRecords (fun k => (discardEffect (argRange a) s).seg k) s').core := by
  let v := (argRange a).foldl (fun s i => discardSeg i s) s
  have hvengine : v.engine = s.engine := still_engine (discardSegs_still _ s)
  have hseg (k : SegNo) : v.seg k = (discardEffect (argRange a) s).seg k := by
    rw [discardEffect_seg (nodup_argRange a), discardSegs_seg (nodup_argRange a)]
  refine core_congr (fun k => ?_) ?_ ?_ ?_ ?_ ?_ (coreEngine_congr ?_)
  · rw [seg_withRecords]
  · have hcovered (k : SegNo) : inRange a k = true ↔ k ∈ argRange a := by
      rw [mem_argRange, inRange, Bool.and_eq_true, decide_eq_true_eq, decide_eq_true_eq]
      rfl
    have hrun := entries_tailRun (s := s') (v := v) (p := inRange a) (f := fun k => (discardEffect (argRange a) s).seg k)
      (by rw [discardSegs_queue, hqueue])
      (fun k hk => by
        rw [hvengine, discardSegs_seg (nodup_argRange a), if_neg fun hc => Bool.noConfusion (((hcovered k).2 hc).symm.trans hk), hqueue]
        exact hq.2 k)
      (fun r => by rw [hvengine, hengine]) hseg
    rw [discardEffect, (dropEmptyRecord_same _).1]
    exact hrun
  · rw [hasm, asm_withRecords]
  · rw [discardEffect_stroke, stroke_withRecords, hstroke]
  · rw [still_gate (discardEffect_still _ s), withRecords, gate_withJoins, hgate]
  · rw [discardEffect_conv, conv_withRecords, hconv]
  · rw [still_engine (discardEffect_still _ s), engine_withRecords, hengine]

end

/-- Settles O32: the segments of the range are forgotten, at once or at the end of their work, and leave the members of a drive to come. -/
theorem discardTaken : Obligations.DiscardTaken := by
  unfold Obligations.DiscardTaken
  intro c s hbus hw hs hr gone discarded
  let b := storeArea commandOffset (c.toHost 8) s
  let u := discardEffect (argRange s.bus.argument) b
  let t := judgedTaken s 8 c .done u
  have hstill : u.still = b.still := discardEffect_still _ _
  have hb : WorkRuns b := ⟨hw.moved rfl rfl rfl rfl (.of_segs rfl) fun hf => ⟨hf, rfl, rfl⟩, active_runs hs⟩
  have hruns : WorkRuns u := work_discardEffect _ hb
  have hseg (k : SegNo) := discardRecords s.bus.argument b k
  have hcovered (k : SegNo) (hk : Covered s.bus.argument k) : u.seg k = (s.seg k).discardTaken :=
    (discardEffect_seg (nodup_argRange _) b k).trans (if_pos (mem_argRange.2 hk))
  have hasm : u.asm = discarded.asm := by
    simp only [discarded, asm_withRecords]
    exact discardRecord s.bus.argument b
  have ht (k : SegNo) : t.seg k = (judge u).seg k := judgedTaken_seg k
  refine ⟨t, exec_range (act := discardRange) hbus hs hr rfl, takenWith_judged hstill hbus, pageJudged_judged hstill, ?sense,
    fun i hi => ?others, fun i hi => ⟨fun hst => ?gone, fun hst => ?working, fun hst => ?faulted⟩, fun a cap ha hp hcap hi hst => ?capture,
    fun hq => newWork_judgedTaken ?core⟩
  case sense =>
    rw [judgedTaken_sense, discardEffect_conv]
    rfl
  case others =>
    have hsame : u.seg i = s.seg i := (discardEffect_seg (nodup_argRange _) b i).trans (if_neg fun h => hi (mem_argRange.1 h))
    rw [← hsame]
    exact judgedTaken_marks i
  case gone =>
    have hu := (hcovered i hi).trans (discardTaken_forgets hst)
    have hor := judge_orSensing hruns (k := i) (by rw [hu]; exact (nomatch ·)) (by rw [hu]; exact (nomatch ·))
    rw [OrSensing, hu] at hor
    have hstate : (t.seg i).state = .unsure ∨ (t.seg i).state = .sensing := by
      rw [ht]
      rcases hor with h | ⟨h, -⟩ <;> rw [h]
      · exact .inl rfl
      · exact .inr rfl
    refine ⟨hstate, ?_, fun a ha hmem => ?_⟩
    · rw [ht]
      rcases hor with h | ⟨h, -⟩ <;> rw [h]
    · obtain ⟨m, hm, rfl⟩ := List.mem_map.1 hmem
      obtain ⟨-, hmember, -⟩ := (work_judge hruns.work).1 a (judgedTaken_asm.symm.trans ha)
      rw [ht, hmember m hm] at hstate
      rcases hstate with h | h <;> nomatch h
  case working =>
    have hu : u.seg i = { s.seg i with discardAfter := true } := by
      rw [hcovered i hi, discardTaken_eq, if_neg (fun hf => by rw [hf] at hst; rcases hst with h | h | h <;> nomatch h), if_pos hst]
    rw [ht, judge_atWork hruns (by rw [hu]; exact hst), hu]
  case faulted =>
    have hu : u.seg i = s.seg i := by rw [hcovered i hi, discardTaken_eq, if_pos hst]
    rw [ht, judge_faulted hruns (by rw [hu]; exact hst), hu]
  case capture =>
    obtain ⟨-, hmember, -⟩ := hw.1 a ha
    have hmembers : (a.members.filter fun m => !(decide (Covered s.bus.argument m.seg) && (s.seg m.seg).state == .member)) =
        a.members.filter fun m => decide (¬Covered s.bus.argument m.seg) :=
      List.filter_congr fun m hm => by rw [hmember m hm, beq_self_eq_true, Bool.and_true, decide_not]
    have hforgotten : decide (Covered s.bus.argument cap.seg) = true ∧ (s.seg cap.seg).state ≠ .faulted ∧ (s.seg cap.seg).state ≠ .moving ∧
        (s.seg cap.seg).state ≠ .verifying ∧ (s.seg cap.seg).state ≠ .sensing := by
      rw [hst]
      exact ⟨decide_eq_true hi, (nomatch ·), (nomatch ·), (nomatch ·), (nomatch ·)⟩
    have hu : u.asm = some { a with
        members := a.members.filter fun m => decide (¬Covered s.bus.argument m.seg)
        capture := some { cap with forgotten := true } } := by
      have hrecord := discardRecord s.bus.argument b
      rw [show b.asm = some a from ha, Option.bind_some, hcap, Option.map_some] at hrecord
      refine hrecord.trans ?_
      have hopen : ¬a.phase = .armed := by
        rw [hp]
        exact (nomatch ·)
      simp only [hopen, false_and, if_false]
      rw [if_pos (by exact hforgotten)]
      exact congrArg (fun ms => some { a with members := ms, capture := some { cap with forgotten := true } }) hmembers
    have hquiet : Quiet u := by
      refine ⟨Bool.eq_false_iff.2 fun hd => ?_, .inr (by rw [hu]; exact Option.some_ne_none _)⟩
      obtain ⟨a', ha', hp', -⟩ := driveReady_spec hd
      obtain rfl := Option.some.inj (hu.symm.trans ha')
      exact absurd (hp.symm.trans hp') (nomatch ·)
    rw [judgedTaken_asm, (judge_of_quiet hquiet).1, hu]
  case core =>
    have h := discardEffect_core s.bus.argument b hq (s' := { s with asm := discarded.asm }) hasm rfl rfl rfl rfl rfl
    rw [funext hseg] at h
    exact h

end Sys2Proof.Machine

/-! ### The recharge timer (R84, R91) -/

namespace Sys2Proof.Machine

/-- An event whose own effects leave the blocks that work leaves alone keeps what is not of the work. -/
theorem othersKept_ended {s b u : State} {k : Bool} (hu : u.still = s.still) : OthersKept s (closePosts b (judgeSettled k b u)) := by
  have hport : u.bus = s.bus := congrArg Still.bus hu
  have hevents : u.events = s.events := congrArg Still.events hu
  refine ⟨?gate, ?touch, ?claims, ?copy, ?strap, ?argument, ?enable, ?read, ?producer, ?consumer, ?pins, ?pending⟩
  case gate => rw [closePosts_gate, judgeSettled_gate]; exact congrArg Still.gate hu
  case touch => rw [closePosts_touch, judgeSettled_touch]; exact congrArg Still.touch hu
  case claims => rw [closePosts_claims, judgeSettled_claims]; exact congrArg Still.claims hu
  case copy => rw [closePosts_engine, judgeSettled_engine_copy]; exact congrArg (fun x => x.engine.copy) hu
  case strap => rw [closePosts_bus_strap, judgeSettled_bus_strap, hport]
  case argument => rw [closePosts_bus_argument, judgeSettled_bus_argument, hport]
  case enable => rw [closePosts_bus_enable, judgeSettled_bus_enable, hport]
  case read => rw [closePosts_bus_hostRead, judgeSettled_bus_hostRead, hport]
  case producer => rw [closePosts_producer, judgeSettled_producer, hevents]
  case consumer => rw [closePosts_consumer, judgeSettled_consumer, hevents]
  case pins => rw [closePosts_pins, judgeSettled_pins]; exact congrArg Still.pins hu
  case pending => rw [closePosts_pending, judgeSettled_pending]; exact congrArg Still.pending hu

/-! #### An event that ends with new work judged -/

section
variable {b u : State}

theorem closed_seg (k : SegNo) : (closeEvent b (judge u)).seg k = (judge u).seg k := closeEvent_seg _ _ _

theorem closed_marks (k : SegNo) : MarksKept (u.seg k) ((closeEvent b (judge u)).seg k) := by
  rw [closed_seg]
  exact allMarksKept_judge u k

theorem closed_firm : (closeEvent b (judge u)).firm = (judge u).firm := closeEvent_firm _ _

theorem newWork_closed {s : State} (h : u.core = s.core) : NewWork s (closeEvent b (judge u)) := (newWork_judge u).congr h.symm closed_firm

/-- With no drive and no walk to start only a job may be granted. -/
theorem closed_quiet (h : Quiet u) : (closeEvent b (judge u)).asm = u.asm ∧ (closeEvent b (judge u)).stroke = u.stroke ∧
    ∀ k, OrSensing (closeEvent b (judge u)) k (u.seg k) := by
  obtain ⟨hasm, hstroke, hseg, -⟩ := judge_of_quiet h
  refine ⟨by rw [closeEvent_asm, hasm], by rw [closeEvent_stroke, hstroke], fun k => ?_⟩
  rw [OrSensing, closed_seg, closeEvent_conv]
  exact hseg k

end

theorem dropped_iff (s : State) (m : Member) : dropped s m = true ↔
    (s.seg m.seg).held = true ∨ suspect s.engine.shown (s.seg m.seg) = true ∨ (s.seg m.seg).dirty = true ∨
    (s.claim (lineOf m.seg)).claim = .taken ∨ (s.touchLine (lineOf m.seg)).shield = true := by
  simp [dropped, claimed, shielded, or_assoc]

/-- No drive is ready where the record is not ARMED or the drive is not free to start. -/
theorem driveReady_false {s : State} (h : ∀ a, s.asm = some a → a.phase = .armed → s.engine.state = .running → ¬DriveFree s) :
    driveReady s = false := Bool.eq_false_iff.2 fun hd => by
  obtain ⟨a, ha, hp, hrun, hfree⟩ := driveReady_spec hd
  exact h a ha hp hrun hfree

end Sys2Proof.Machine

namespace Sys2Proof

open Machine in
/-- Settles O45: the charge is ready again, and an ARMED record is driven where nothing else holds it back. -/
theorem rechargeExpires : Obligations.RechargeExpires := by
  unfold Obligations.RechargeExpires
  intro s hruns charged
  let u := setStroke charged s
  let t := closeEvent s (judge u)
  have hexec : exec .rechargeTimerExpiry s = .next t := by
    have h : exec .rechargeTimerExpiry s = .next (closeEvent s (Machine.rechargeExpires s)) := rfl
    rw [h, Machine.rechargeExpires, if_pos hruns]
  have hstill : (judge u).still = s.still := judge_still u
  have hquiet (h : driveReady u = false) (hw : s.engine.state ≠ .running ∨ s.asm ≠ none) :
      t.stroke = charged ∧ t.asm = s.asm ∧ ∀ i, OrSensing t i (s.seg i) := by
    obtain ⟨hasm, hstroke, hseg⟩ := closed_quiet (b := s) (u := u) ⟨h, hw⟩
    exact ⟨hstroke, hasm, hseg⟩
  refine ⟨dropped_iff s, t, hexec, othersKept_ended hstill, ?mem, fun i => closed_marks (u := u) i, fun hstop => ?stopped,
    fun hasm hshown => ?none, fun a ha hheld => ?held, fun ms hms hdriven hgate hrun hjob => ?drive⟩
  case mem => rw [closeEvent_mem, judge_mem]; rfl
  case stopped => exact hquiet (driveReady_false fun a _ _ hrun => absurd hrun hstop) (.inl hstop)
  case none =>
    rw [closeEvent_stroke]
    exact judge_fresh_stroke (d := u) hasm hshown
  case held =>
    refine hquiet (driveReady_false fun a' ha' hp _ hfree => ?_) (.inr (by rw [ha]; exact Option.some_ne_none a))
    obtain rfl := Option.some.inj (ha.symm.trans ha')
    obtain ⟨hd, -, hg, hj⟩ := hfree
    rcases hheld with h | h | h | h
    · exact absurd (h.symm.trans hp) (nomatch ·)
    · exact h hd
    · exact h hj
    · exact h hg
  case drive =>
    obtain ⟨a, ha, hpm⟩ := Option.map_eq_some_iff.1 hms
    obtain ⟨hp, hm⟩ := Prod.mk.inj hpm
    subst hm
    have hjudged : DriveJudged u (judge u) charged a.members := driveJudged_judge (s := u) ha hp hrun ⟨hdriven, rfl, hgate, hjob⟩
    have hclosed : DriveJudged u t charged a.members := hjudged.congr rfl closed_firm
    exact hclosed

end Sys2Proof

/-! ### Releases, and the points of the claim and lag timers (R147, R150, R151, R155, R184) -/

namespace Sys2Proof.Machine

theorem WorkJudged.congr {s s' t t' : State} (h : WorkJudged s t) (hs : s'.core = s.core) (ht : t'.firm = t.firm) : WorkJudged s' t' := by
  have hseen : WorkJudged s.core t.seen := h
  rw [← hs, ← seen_of_firm ht] at hseen
  exact hseen

/-- A release of a TAKEN line, where no post of its word is pending. -/
theorem exec_release {l : LineNo} {w : HostWrite} {s : State} (hoff : s.engine.state ≠ .off) (htaken : (s.claim l).claim = .taken)
    (hpost : hasPost s (claimOffset l) = false) (hlow : w.enLow = true) (hzero : w.allZero = true) :
    exec (.claimWordWrite l w) s = .next (closeEvent (storeArea (claimOffset l) w s)
      (judge (setClaim l Claim.freed (storeArea (claimOffset l) w s)))) := by
  refine (exec_claimWordWrite l w s).trans (congrArg Host.Outcome.next ?_)
  have hclaimed : claimed (storeArea (claimOffset l) w s) l = true := by
    have h : claimed (storeArea (claimOffset l) w s) l = ((s.claim l).claim == .taken) := rfl
    rw [h, htaken]
    rfl
  rw [claimWrite, isOff_eq_false hoff, if_neg Bool.noConfusion, if_pos hzero, forwardArea_none hpost]
  simp only
  rw [if_pos hlow, releaseClaim, if_pos hclaimed]

/-- Settles O20: the word is stored, the line is free, and what its claim held back may start. -/
theorem claimRelease : Obligations.ClaimRelease := by
  unfold Obligations.ClaimRelease
  intro l w s hbus hwords hoff htaken hlow hlowZero hhighZero
  obtain ⟨hpending, hmemory⟩ := hwords hoff l
  have hpost : hasPost s (claimOffset l) = false := by
    rw [Bool.eq_false_iff]
    intro h
    exact absurd (htaken.symm.trans (hpending h).1) (nomatch ·)
  have hzero : w.allZero = true := (allZero_iff w).2 ⟨fun _ => hlowZero, hhighZero⟩
  let b := storeArea (claimOffset l) w s
  let u := setClaim l Claim.freed b
  let t := closeEvent b (judge u)
  have ht : t = closePosts b (judgeSettled false b (judge u)) := rfl
  have hmem : t.mem = b.mem := by rw [closeEvent_mem, judge_mem]; rfl
  have hclaims : t.claims = u.claims := by rw [closeEvent_claims, judge_claims]
  have hclaim (k : LineNo) : t.claim k = u.claim k := by rw [State.claim, hclaims]; rfl
  have hengine : (judge u).engine = s.engine := (judge_engine u).trans rfl
  have hport : (judge u).bus = b.bus := (judge_bus u).trans rfl
  refine ⟨t, exec_release hoff htaken hpost hlow hzero, ?self, fun k hk => ?other, ?stored, ?word, fun e he => ?events, ?gate, ?touch, ?state,
    ?copy, ?shown, ?argument, ?enable, ?producer, ?consumer, ?pins, ?pending, fun i => closed_marks (u := u) i,
    (workJudged_judge u).congr rfl closed_firm⟩
  case self => rw [hclaim, claim_set_self]; rfl
  case other => rw [hclaim, claim_set, if_neg hk]; rfl
  case stored => exact storedOnly_of_mem hbus.1 hmem
  case word =>
    have hvalue : s.mem.word (areaBase s + claimOffset l) = claimValue .taken := by rw [hmemory hpost, if_pos htaken]; rfl
    have hword := Memory.word_storeHost_zeros hbus.1 hzero hvalue
    rw [hmem]
    rw [hlow] at hword
    exact hword
  case events =>
    refine (isPending_ended he false b (judge u)).trans ?_
    exact isPending_congr (by rw [judge_events]; rfl) e
  case gate => rw [closeEvent_gate, judge_gate]; rfl
  case touch => rw [closeEvent_touch, judge_touch]; rfl
  case state => rw [ht, closePosts_engine, judgeSettled_engine_state, hengine]
  case copy => rw [ht, closePosts_engine, judgeSettled_engine_copy, hengine]
  case shown => rw [ht, closePosts_engine, judgeSettled_engine_shown, hengine]
  case argument => rw [ht, closePosts_bus_argument, judgeSettled_bus_argument, hport]; rfl
  case enable => rw [ht, closePosts_bus_enable, judgeSettled_bus_enable, hport]; rfl
  case producer => rw [ht, closePosts_producer, judgeSettled_producer, judge_events]; rfl
  case consumer => rw [ht, closePosts_consumer, judgeSettled_consumer, judge_events]; rfl
  case pins => rw [closeEvent_pins, judge_pins]; rfl
  case pending => rw [closeEvent_pending, judge_pending]; rfl

/-! #### The points of the claim timers -/

theorem claimWarnPoint_taken {l : LineNo} {s : State} (hrun : queuesRun s.engine = true) (htaken : (s.claim l).claim = .taken)
    (hwarned : (s.claim l).warned = false) : claimWarnPoint l s = claimWarns l (setClaim l { s.claim l with
      timer := some (max ((s.claim l).timer.getD 0) (warnCount (claimLimit s.engine.copy))) } s) :=
  if_pos ⟨hrun, htaken, hwarned⟩

theorem isPending_claimWarns (l : LineNo) (s : State) (e : Event) : isPending (claimWarns l s) e = (e == .claimWarn || isPending s e) :=
  isPending_raise _ _ _

theorem isPending_claimPassesWarn (l : LineNo) (s : State) (e : Event) :
    isPending (claimPassesWarn l s) e = ((e == .claimWarn && !(s.claim l).warned) || isPending s e) := by
  unfold claimPassesWarn
  cases h : (s.claim l).warned with
  | true => simp
  | false => simp [isPending_claimWarns]

theorem claimPassesWarn_firmParts (l : LineNo) (s : State) : (claimPassesWarn l s).core = s.core ∧ (claimPassesWarn l s).mem = s.mem ∧
    (claimPassesWarn l s).bus = s.bus ∧ (claimPassesWarn l s).gate = s.gate ∧ (claimPassesWarn l s).touch = s.touch ∧
    (claimPassesWarn l s).owed.results = s.owed.results ∧ ∀ k, k ≠ l → (claimPassesWarn l s).claim k = s.claim k := by
  unfold claimPassesWarn
  split
  · exact ⟨rfl, rfl, rfl, rfl, rfl, rfl, fun _ _ => rfl⟩
  · refine ⟨rfl, rfl, rfl, rfl, rfl, rfl, fun k hk => ?_⟩
    rw [claimWarns, raise_claim, claim_set, if_neg hk]

theorem claimOffset_ne_mirror (l : LineNo) (i : SegNo) : claimOffset l ≠ PartWord.offset (.mirror i) := (offset_ne_claimOffset _ l).symm

theorem claimDetail_ne_words : (∀ i, PartWord.offset .claimDetail ≠ PartWord.offset (.mirror i)) ∧
    PartWord.offset .claimDetail ≠ PartWord.offset .engineStatus ∧ PartWord.offset .claimDetail ≠ PartWord.offset .result ∧
    PartWord.offset .claimDetail ≠ PartWord.offset .eventPending := by
  refine ⟨fun i => ?_, by decide, by decide, by decide⟩
  simp only [PartWord.offset]
  omega

/-- The end of an event that owes the event pending word and has new work judged. -/
theorem closed_endsWithPending {b u : State} (hr : u.owed.results = []) (hp : u.owed.pending = true) :
    EndsWith (closeEvent b (judge u)) [pendingPost (closeEvent b (judge u))] := by
  refine endsWith_pendingLast (b := b) (s := judgeSettled false b (judge u)) ?_ ?_
  · rw [judgeSettled_results, judge_results, hr]
  · exact judgeSettled_owesPending ((judge_owesPending u).trans hp) false b

/-- A post of a claim word or of the claim detail word is still there at the end of its event. -/
theorem Posted.closed {u : State} {off : Nat} {v : Word} (h : Posted u off v) (hmirror : ∀ i, off ≠ PartWord.offset (.mirror i))
    (hstatus : off ≠ PartWord.offset .engineStatus) (hresult : off ≠ PartWord.offset .result)
    (hpending : off ≠ PartWord.offset .eventPending) (b : State) : Posted (closeEvent b (judge u)) off v := by
  have hjudged : Posted (judgeSettled false b (judge u)) off v := h.congr (by rw [judgeSettled_bus, judge_bus])
  exact hjudged.closePosts hmirror hstatus hresult hpending b

/-- What a claim's expiry leaves, before new work is judged (R151). -/
def expired (l : LineNo) (s : State) : State := claimExpires l (claimPassesWarn l s)

theorem claimLimitPoint_taken {l : LineNo} {s : State} (hrun : queuesRun s.engine = true) (htaken : (s.claim l).claim = .taken) :
    claimLimitPoint l s = judge (expired l s) :=
  if_pos ⟨hrun, by rw [claimed, htaken]; rfl⟩

section
variable (l : LineNo) (s : State)

theorem expired_claim (k : LineNo) : (expired l s).claim k = if k = l then Claim.freed else s.claim k := by
  have hself : (expired l s).claim k = (setClaim l Claim.freed (claimPassesWarn l s)).claim k := rfl
  rw [hself, claim_set]
  split
  next => rfl
  next hk => exact (claimPassesWarn_firmParts l s).2.2.2.2.2.2 k hk

theorem isPending_expired (e : Event) :
    isPending (expired l s) e = (e == .claimExpired || ((e == .claimWarn && !(s.claim l).warned) || isPending s e)) := by
  rw [← isPending_claimPassesWarn]
  exact isPending_raise _ _ _

theorem posted_expired_word : Posted (expired l s) (claimOffset l) 0 :=
  (posted_self (claimOffset l) 0 (setClaim l Claim.freed (claimPassesWarn l s))).post (offset_ne_claimOffset .claimDetail l).symm _

theorem posted_expired_detail : Posted (expired l s) (PartWord.offset .claimDetail) (BitVec.ofNat 16 l.val) :=
  posted_self (PartWord.offset .claimDetail) _ (post (claimOffset l) 0 (setClaim l Claim.freed (claimPassesWarn l s)))

end

/-- The expiry of a claim, with what it held back judged (R151, R155). -/
theorem claimExpiry_taken {l : LineNo} {s : State} (hbus : BusLawful s) (hrun : queuesRun s.engine = true)
    (htaken : (s.claim l).claim = .taken) :
    ∃ t, exec (.claimExpiry l) s = .next t ∧ t.mem = s.mem ∧ t.claim l = ⟨.free, none, false⟩ ∧
      (∀ k, k ≠ l → t.claim k = s.claim k) ∧ Posted t (claimOffset l) 0 ∧
      Posted t (PartWord.offset .claimDetail) (BitVec.ofNat 16 l.val) ∧ EndsWith t [pendingPost t] ∧
      isPending t .claimExpired = true ∧ isPending t .claimWarn = (isPending s .claimWarn || !(s.claim l).warned) ∧
      (∀ e, e ≠ .claimExpired → e ≠ .claimWarn → e ≠ .pageDone → isPending t e = isPending s e) ∧
      t.gate = s.gate ∧ t.touch = s.touch ∧ (∀ i, MarksKept (s.seg i) (t.seg i)) ∧ WorkJudged s t := by
  let u := expired l s
  let t := closeEvent s (judge u)
  obtain ⟨hcore, hmem, -, hgate, htouch, hresults, -⟩ := claimPassesWarn_firmParts l s
  have hexec : exec (.claimExpiry l) s = .next t := by
    have h : exec (.claimExpiry l) s = .next (closeEvent s (claimLimitPoint l s)) := rfl
    rw [h, claimLimitPoint_taken hrun htaken]
  have hcore' : u.core = s.core := hcore
  have hseg (i : SegNo) : u.seg i = s.seg i := congrArg (fun x => x.segs[i]) hcore
  have hclaim (k : LineNo) : t.claim k = u.claim k := by rw [State.claim, closeEvent_claims, judge_claims]; rfl
  have hpend (e : Event) (he : e ≠ .pageDone) : isPending t e = isPending u e :=
    (isPending_ended he false s (judge u)).trans (isPending_congr (by rw [judge_events]) e)
  have hword := posted_expired_word l s
  have hdetail := posted_expired_detail l s
  obtain ⟨hmirror, hstatus, hresult, hpending⟩ := claimDetail_ne_words
  refine ⟨t, hexec, ?mem, ?self, fun k hk => ?other, hword.closed (claimOffset_ne_mirror l) ?_ ?_ ?_ s,
    hdetail.closed hmirror hstatus hresult hpending s, closed_endsWithPending ?_ rfl, ?expired, ?warned, fun e h1 h2 h3 => ?events, ?gate,
    ?touch, fun i => ?marks, (workJudged_judge u).congr hcore'.symm closed_firm⟩
  case mem => rw [closeEvent_mem, judge_mem]; exact hmem
  case self => rw [hclaim, expired_claim, if_pos rfl]; rfl
  case other => rw [hclaim, expired_claim, if_neg hk]
  case expired => rw [hpend .claimExpired (nomatch ·), isPending_expired]; rfl
  case warned => rw [hpend .claimWarn (nomatch ·), isPending_expired, Bool.or_comm (isPending s _)]; rfl
  case events => rw [hpend e h3, isPending_expired, beq_false_of_ne h1, beq_false_of_ne h2]; rfl
  case gate => rw [closeEvent_gate, judge_gate]; exact hgate
  case touch => rw [closeEvent_touch, judge_touch]; exact htouch
  case marks =>
    rw [← hseg]
    exact closed_marks i
  · exact (offset_ne_claimOffset _ l).symm
  · exact (offset_ne_claimOffset _ l).symm
  · exact (offset_ne_claimOffset _ l).symm
  · exact hresults.trans (owes_results hbus.2.2)

/-! #### The points of the lag timer -/

/-- An event that raises one event and posts the event pending word. -/
theorem postPending_raise {s u : State} (e : Event) (hu : { u.owed with pending := false } = s.owed) :
    postPending (raise e u) = { u with
      bus := { u.bus with posts := (postPending (raise e u)).bus.posts }
      events := { u.events with pending := (postPending (raise e u)).events.pending }
      owed := s.owed } ∧ EndsWith (postPending (raise e u)) [pendingPost (postPending (raise e u))] ∧
    ∀ f, isPending (postPending (raise e u)) f = (f == e || isPending u f) := by
  have hpost : postPending (raise e u) =
      { post (PartWord.offset .eventPending) (pendingWord (raise e u)) (raise e u) with owed := { u.owed with pending := false } } := rfl
  refine ⟨?_, ⟨_, rfl⟩, fun f => isPending_raise e f u⟩
  rw [hpost, hu]
  rfl

theorem owed_quiet {s : State} (howes : OwesNothing s) : { s.owed with pending := false } = s.owed := by
  rw [show s.owed = Owed.nothing from howes]
  rfl

/-- The lag timer of a RUNNING engine that passes its warn point. -/
def lagWarned (s : State) (n : Nat) : State :=
  { s with engine := { s.engine with lag := some (max n (warnCount (lagLimit s.engine.copy))), lagWarned := true } }

theorem lagWarns_taken {s : State} {n : Nat} (hrun : s.engine.state = .running) (hlag : s.engine.lag = some n)
    (hwarned : s.engine.lagWarned = false) : lagWarns s = raise .lagWarn (lagWarned s n) := by
  unfold lagWarns
  simp only [hlag]
  rw [if_pos ⟨hrun, hwarned⟩]
  rfl

theorem lagWarns_again {s : State} {n : Nat} (hlag : s.engine.lag = some n) (hwarned : s.engine.lagWarned = true) : lagWarns s = s := by
  unfold lagWarns
  simp only [hlag]
  rw [if_neg (by rw [hwarned]; exact (nomatch ·.2))]

theorem lagLimits_taken {s : State} {n : Nat} (hrun : s.engine.state = .running) (hlag : s.engine.lag = some n) :
    lagLimits s = raise .lagLimit { lagWarns s with engine := { (lagWarns s).engine with lag := none } } := by
  unfold lagLimits
  simp only [hlag]
  rw [if_pos hrun]

/-- The lag timer idle at its limit, with the events pending and the words owed. -/
def lagEnded (s : State) (p : BitVec 13) (o : Owed) : State := { s with
  engine := { s.engine with lag := none, lagWarned := true }
  events := { s.events with pending := p }
  owed := o }

/-- The end of the lag timer's limit: LAG_LIMIT, and LAG_WARN with it where the stretch has not warned (R184). -/
theorem lagLimit_posted {s : State} {p : BitVec 13} {o : Owed} {warns : Bool} (howed : { o with pending := false } = s.owed)
    (hpend : ∀ f, isPending (lagEnded s p o) f = ((f == .lagWarn && warns) || isPending s f)) :
    let t := postPending (raise .lagLimit (lagEnded s p o))
    isPending t .lagLimit = true ∧ isPending t .lagWarn = (isPending s .lagWarn || warns) ∧
      (∀ e, e ≠ .lagLimit → e ≠ .lagWarn → isPending t e = isPending s e) ∧ EndsWith t [pendingPost t] ∧
      t = { s with
        bus := { s.bus with posts := t.bus.posts }
        engine := { s.engine with lag := none, lagWarned := true }
        events := { s.events with pending := t.events.pending } } := by
  intro t
  obtain ⟨hposted, hends, hpending⟩ := postPending_raise (s := s) (u := lagEnded s p o) .lagLimit howed
  have hall (f : Event) : isPending t f = (f == .lagLimit || ((f == .lagWarn && warns) || isPending s f)) := by rw [← hpend]; exact hpending f
  refine ⟨by rw [hall]; rfl, by rw [hall, Bool.or_comm (isPending s _)]; rfl, fun e h1 h2 => ?_, hends, hposted⟩
  rw [hall, beq_false_of_ne h1, beq_false_of_ne h2]
  rfl

/-- Settles O56: the warn points and the limits of a claim and of the page's lag. -/
theorem timerPoints : Obligations.TimerPoints := by
  unfold Obligations.TimerPoints
  refine ⟨fun l s hbus hrun htaken hwarned => ?warn, fun l s hbus hrun htaken => claimExpiry_taken hbus hrun htaken,
    fun n s hbus hrun hlag hwarned => ?lagWarn, fun n s hbus hrun hlag => ?lagLimit⟩
  case warn =>
    let u := claimWarns l (setClaim l { s.claim l with
      timer := some (max ((s.claim l).timer.getD 0) (warnCount (claimLimit s.engine.copy))) } s)
    let t := closePosts s u
    have hexec : exec (.claimWarnPoint l) s = .next t := by
      have h : exec (.claimWarnPoint l) s = .next (closeEvent s (claimWarnPoint l s)) := rfl
      rw [h, claimWarnPoint_taken hrun htaken hwarned]
      exact congrArg Host.Outcome.next (closeEvent_of_same (b := s) (s := u) rfl rfl)
    have hclaim (k : LineNo) : t.claim k = u.claim k := by rw [State.claim, closePosts_claims]; rfl
    have hu (k : LineNo) (hk : k ≠ l) : u.claim k = s.claim k := by
      have h : u.claim k = (setClaim l _ (setClaim l _ s)).claim k := rfl
      rw [h, claim_set, if_neg hk, claim_set, if_neg hk]
    have hself : u.claim l = ⟨.taken, some (max ((s.claim l).timer.getD 0) (warnCount (claimLimit s.engine.copy))), true⟩ := by
      have h : u.claim l = (setClaim l _ (setClaim l _ s)).claim l := rfl
      rw [h, claim_set_self, claim_set_self]
      exact congrArg (fun c => Claim.mk c _ true) htaken
    have hpend (e : Event) : isPending t e = (e == .claimWarn || isPending s e) :=
      (isPending_closePosts _ _ _).trans (isPending_claimWarns _ _ _)
    refine ⟨t, hexec, ?_, ?_, ?_, fun k hk => (hclaim k).trans (hu k hk), by rw [hpend]; rfl, fun e he => by rw [hpend, beq_false_of_ne he]; rfl,
      endsWith_pendingLast (owes_results (s := s) hbus.2.2) rfl, ?_⟩
    · rw [hclaim, hself]
    · rw [hclaim, hself]
    · rw [hclaim, hself]
      rfl
    · rw [show t.claims = u.claims from closePosts_claims _ _, show t.events = u.events from closePosts_events _ _]
      exact closePosts_owes (s := s) hbus.2.2 s u
  case lagWarn =>
    obtain ⟨hframe, hends, hpend⟩ := postPending_raise (s := s) (u := lagWarned s n) .lagWarn (owed_quiet hbus.2.2)
    rw [← lagWarns_taken hrun hlag hwarned] at hframe hends hpend
    have hengine : (postPending (lagWarns s)).engine = (lagWarned s n).engine := by rw [hframe]
    refine ⟨postPending (lagWarns s), rfl, ?_, ?_, by rw [hpend]; rfl, fun e he => by rw [hpend, beq_false_of_ne he]; rfl, hends, ?_⟩
    · rw [hengine]
      rfl
    · rw [hengine]
      rfl
    · rw [hengine]
      exact hframe
  case lagLimit =>
    refine ⟨postPending (lagLimits s), rfl, ?_⟩
    rw [lagLimits_taken hrun hlag]
    cases hwarned : s.engine.lagWarned with
    | true =>
      have hsame : { lagWarns s with engine := { (lagWarns s).engine with lag := none } } = lagEnded s s.events.pending s.owed := by
        rw [lagWarns_again hlag hwarned, lagEnded, ← hwarned]
      rw [hsame]
      exact lagLimit_posted (owed_quiet hbus.2.2) fun f => by rw [Bool.not_true, Bool.and_false, Bool.false_or]; rfl
    | false =>
      have hsame : { lagWarns s with engine := { (lagWarns s).engine with lag := none } } =
          lagEnded s (s.events.pending ||| Event.lagWarn.mask) { s.owed with pending := true } := by
        rw [lagWarns_taken hrun hlag hwarned]
        rfl
      rw [hsame]
      refine lagLimit_posted (owed_quiet hbus.2.2) fun f => ?_
      rw [Bool.not_false, Bool.and_true]
      exact isPending_raise .lagWarn f s

end Sys2Proof.Machine

/-! ### Touch inputs, guards and hold-offs (R131 to R139) -/

namespace Sys2Proof.Machine

/-! #### What a shield tells the work in flight -/

/-- A member on the line whose conversions have not ended is touched (R92). -/
def touchedStroke (s : State) (l : LineNo) (d : Driven) : Driven :=
  { d with members := d.members.map fun m => { m with touched := m.touched || (decide (lineOf m.seg = l) && !conversionsEnded s d m) } }

/-- A SWEEP or SENSE job on the line is touched (R121). -/
def touchedJob (l : LineNo) (j : Job) : Job :=
  { j with touched := j.touched || (decide (j.kind ≠ .verify) && j.segs.any fun i => lineOf i == l) }

section
variable (l : LineNo) (s : State)

theorem touchStroke_eq : touchStroke l s = setStroke { s.stroke with driven := s.stroke.driven.map (touchedStroke s l) } s := by
  unfold touchStroke
  cases hd : s.stroke.driven with
  | none =>
    simp only [Option.map_none]
    rw [← hd]
    rfl
  | some d =>
    simp only [Option.map_some, touchedStroke]
    congr 4
    refine List.map_congr_left fun m _ => ?_
    by_cases hl : lineOf m.seg = l
    · cases he : conversionsEnded s d m with
      | true => rw [if_neg fun h => Bool.noConfusion h.2]; simp
      | false => rw [if_pos ⟨hl, rfl⟩]; simp [hl]
    · rw [if_neg fun h => hl h.1]
      simp [hl]

theorem touchJob_eq : touchJob l s = setConv { s.conv with job := s.conv.job.map (touchedJob l) } s := by
  unfold touchJob
  cases hj : s.conv.job with
  | none =>
    simp only [Option.map_none]
    rw [← hj]
    rfl
  | some j =>
    simp only [Option.map_some]
    split
    next h => simp [touchedJob, h.1, h.2]
    next h =>
      have hsame : touchedJob l j = j := by
        have hnot : (decide (j.kind ≠ .verify) && j.segs.any fun i => lineOf i == l) = false := by
          rw [Bool.eq_false_iff]
          intro hc
          rw [Bool.and_eq_true, decide_eq_true_eq] at hc
          exact h hc
        rw [touchedJob, hnot, Bool.or_false]
      rw [hsame, ← hj]
      rfl

end

/-! #### Events that change a touch line -/

/-- A touch unit that changes says nothing to the host and nothing to the page. -/
theorem closeEvent_touched {s u : State} (howes : OwesNothing s) (howed : u.owed = s.owed) (hsegs : u.segs = s.segs) (hqueue : u.queue = s.queue)
    (hasm : u.asm = s.asm) (hgate : u.gate = s.gate) (hengine : u.engine = s.engine)
    (hdriven : u.stroke.driven.map Driven.phase = s.stroke.driven.map Driven.phase) (hjob : u.conv.job.isNone = s.conv.job.isNone) :
    closeEvent s u = u := by
  have hnone : u.stroke.driven.isNone = s.stroke.driven.isNone := by
    have h := congrArg Option.isNone hdriven
    rwa [Option.isNone_map, Option.isNone_map] at h
  have hcode : drivenCode u.stroke.driven = drivenCode s.stroke.driven := by
    cases hu : u.stroke.driven <;> cases hs : s.stroke.driven <;> rw [hu, hs] at hdriven
    · nomatch hdriven
    · nomatch hdriven
    · have hp := Option.some.inj hdriven
      simp only [drivenCode]
      rw [hp]
  refine closeEvent_quiet (by rw [OwesNothing, howed]; exact howes) ?_ (by rw [hengine]) (mirrorChanged_of_same hsegs (by rw [hengine])) ?_
  · simp only [settled, hengine, hqueue, hasm, hnone, hjob]
  · simp only [statusFields, hengine, hgate, hasm, hcode, hqueue]

/-- The end of an event is the same from two states that differ in nothing it compares. -/
theorem closeEvent_from {b b' u : State} (hsegs : b'.segs = b.segs) (hengine : b'.engine = b.engine) (hsettled : settled b' = settled b)
    (hfields : statusFields b' = statusFields b) : closeEvent b' u = closeEvent b u := by
  have hjudge : judgeSettled false b' u = judgeSettled false b u := by rw [judgeSettled, judgeSettled, hsettled, hengine]
  have hmirrors (v : State) : mirrorsToPost b' v = mirrorsToPost b v := by
    rw [mirrorsToPost, mirrorsToPost]
    refine List.filter_congr fun i _ => ?_
    have hseg : b'.seg i = b.seg i := by rw [State.seg, State.seg, hsegs]
    rw [mirrorChanged, mirrorChanged, hengine, hseg]
  have hclose (v : State) : closePosts b' v = closePosts b v := by
    rw [closePosts, closePosts, hmirrors, postStatusIf, postStatusIf, hfields]
  rw [show closeEvent b' u = closePosts b' (judgeSettled false b' u) from rfl, hjudge, hclose]
  rfl

/-! #### The levels accepted -/

section
variable {l : LineNo} {high : Bool} {s : State}

theorem exec_touch (l : LineNo) (high : Bool) (s : State) : exec (.touchInputChange l high) s = .next (closeEvent s (touchChanges l high s)) := rfl

theorem exec_guard (l : LineNo) (s : State) : exec (.guardTimerExpiry l) s = .next (closeEvent s (guardExpires l s)) := rfl

theorem touchChanges_ignored (h : s.touch.running = false ∨ (s.touchLine l).guard.runs = true ∨ (s.touchLine l).accepted = Level.ofInput high) :
    touchChanges l high s = setTouchPin l high s := by
  refine if_neg fun ⟨hrun, hguard, hne⟩ => ?_
  rcases h with h | h | h
  · exact absurd (hrun.symm.trans h) (nomatch ·)
  · exact Bool.noConfusion (hguard.symm.trans h)
  · exact hne h

theorem touchChanges_accepted (hrun : s.touch.running = true) (hguard : (s.touchLine l).guard.runs = false)
    (hne : (s.touchLine l).accepted ≠ Level.ofInput high) : touchChanges l high s = acceptLevel l high (setTouchPin l high s) :=
  if_pos ⟨hrun, hguard, hne⟩

theorem acceptPresent_shielded (h : shielded s l = true) :
    acceptPresent l s = setTouchLine l ⟨.present, .running 0 (guardLength s.engine.copy), .idle, true⟩ s := by
  rw [acceptPresent, h]
  rfl

theorem acceptPresent_told (h : shielded s l = false) : acceptPresent l s = { s with
    touch := { s.touch with lines := s.touch.lines.set l ⟨.present, .running 0 (guardLength s.engine.copy), .idle, true⟩ }
    stroke := { s.stroke with driven := s.stroke.driven.map (touchedStroke s l) }
    conv := { s.conv with job := s.conv.job.map (touchedJob l) } } := by
  have htold : acceptPresent l s = touchJob l (touchStroke l (setTouchLine l ⟨.present, .running 0 (guardLength s.engine.copy), .idle, true⟩ s)) := by
    rw [acceptPresent, h]
    rfl
  rw [htold, touchJob_eq, touchStroke_eq]
  rfl

theorem acceptAbsent_held (h : holdOffLength s.engine.copy ≠ 0) : acceptAbsent l s =
    setTouchLine l ⟨.absent, .running 0 (guardLength s.engine.copy), .running 0 (holdOffLength s.engine.copy), (s.touchLine l).shield⟩ s :=
  if_neg h

theorem acceptAbsent_freed (h : holdOffLength s.engine.copy = 0) : acceptAbsent l s =
    judge (setTouchLine l ⟨.absent, .running 0 (guardLength s.engine.copy), .idle, false⟩ s) := if_pos h

/-- The record of a line whose level has been accepted (R133, R135, R136). -/
theorem acceptLevel_touchLine (l : LineNo) (high : Bool) (s : State) : (acceptLevel l high s).touchLine l =
    ⟨if high then .present else .absent, .running 0 (guardLength s.engine.copy),
      if high = false ∧ holdOffLength s.engine.copy ≠ 0 then .running 0 (holdOffLength s.engine.copy) else .idle,
      high || ((s.touchLine l).shield && decide (holdOffLength s.engine.copy ≠ 0))⟩ := by
  cases high with
  | true =>
    have hline : (acceptPresent l s).touchLine l = ⟨.present, .running 0 (guardLength s.engine.copy), .idle, true⟩ := by
      cases h : shielded s l with
      | true => rw [acceptPresent_shielded h, touchLine_set_self]
      | false =>
        have htouch : (acceptPresent l s).touch =
            (setTouchLine l ⟨.present, .running 0 (guardLength s.engine.copy), .idle, true⟩ s).touch := by rw [acceptPresent_told h]; rfl
        rw [State.touchLine, htouch]
        exact touchLine_set_self _ _ s
    exact hline
  | false =>
    by_cases h : holdOffLength s.engine.copy = 0
    · have hline : (acceptAbsent l s).touchLine l = ⟨.absent, .running 0 (guardLength s.engine.copy), .idle, false⟩ := by
        rw [acceptAbsent_freed h, judge_touchLine, touchLine_set_self]
      refine hline.trans ?_
      simp [h]
    · have hline : (acceptAbsent l s).touchLine l = ⟨.absent, .running 0 (guardLength s.engine.copy),
          .running 0 (holdOffLength s.engine.copy), (s.touchLine l).shield⟩ := by
        rw [acceptAbsent_held h, touchLine_set_self]
      refine hline.trans ?_
      simp [h]

/-- The level accepted does not ask for the guard of the line (R133). -/
theorem acceptLevel_guard (l : LineNo) (high : Bool) (g : Timer) (s : State) :
    acceptLevel l high (setTouchLine l { s.touchLine l with guard := g } s) = acceptLevel l high s := by
  have hset (r : TouchLine) : setTouchLine l r (setTouchLine l { s.touchLine l with guard := g } s) = setTouchLine l r s := by
    simp [setTouchLine, Vector.set_set]
  have hshield : ((setTouchLine l { s.touchLine l with guard := g } s).touchLine l).shield = (s.touchLine l).shield := by
    rw [touchLine_set_self]
  simp only [acceptLevel, acceptPresent, acceptAbsent, hset, hshield, shielded, setTouchLine_engine]
  rfl

theorem ofInput_eq (high : Bool) : Level.ofInput high = if high then .present else .absent := rfl

/-- The lines other than the one accepted. -/
theorem acceptLevel_touchLine_other {k : LineNo} (hk : k ≠ l) : (acceptLevel l high s).touchLine k = s.touchLine k := by
  have hset (r : TouchLine) : (setTouchLine l r s).touchLine k = s.touchLine k := by rw [touchLine_set, if_neg hk]
  simp only [acceptLevel, acceptPresent, acceptAbsent]
  cases high with
  | true =>
    simp only [if_true]
    split
    · exact hset _
    · rw [touchJob_touchLine, touchStroke_touchLine, hset]
  | false =>
    simp only [Bool.false_eq_true, if_false]
    split
    · rw [judge_touchLine, hset]
    · exact hset _

/-- The guard's expiry with the input at the other level accepts it (R134). -/
theorem guardExpires_accepts (hrun : s.touch.running = true) (hguard : (s.touchLine l).guard.runs = true)
    (hne : (s.touchLine l).accepted ≠ Level.ofInput (touchPin s l)) : guardExpires l s = acceptLevel l (touchPin s l) s :=
  (if_pos ⟨hrun, hguard⟩).trans (if_neg hne)

theorem setTouchPin_self (l : LineNo) (s : State) : setTouchPin l (touchPin s l) s = s := by
  have hset : s.pins.touch.set l (touchPin s l) = s.pins.touch := Vector.set_getElem_self _
  rw [setTouchPin, hset]

/-- The guard's expiry is the change of the input that the guard held back (R134). -/
theorem exec_guard_input (hrun : s.touch.running = true) (hguard : (s.touchLine l).guard.runs = true)
    (hne : (s.touchLine l).accepted ≠ Level.ofInput (touchPin s l)) : exec (.guardTimerExpiry l) s =
      exec (.touchInputChange l (touchPin s l)) (setTouchLine l { s.touchLine l with guard := .idle } s) := by
  let s' := setTouchLine l { s.touchLine l with guard := .idle } s
  have hpin : setTouchPin l (touchPin s l) s' = s' := setTouchPin_self l s'
  have hline : s'.touchLine l = { s.touchLine l with guard := .idle } := touchLine_set_self _ _ s
  have hchange : touchChanges l (touchPin s l) s' = acceptLevel l (touchPin s l) s := by
    have haccepts : touchChanges l (touchPin s l) s' = acceptLevel l (touchPin s l) (setTouchPin l (touchPin s l) s') :=
      touchChanges_accepted (s := s') hrun (by rw [hline]; rfl) (by rw [hline]; exact hne)
    rw [haccepts, hpin]
    exact acceptLevel_guard l _ .idle s
  rw [exec_guard, exec_touch, guardExpires_accepts hrun hguard hne, hchange]
  exact congrArg Host.Outcome.next (closeEvent_from rfl rfl rfl rfl).symm

end

end Sys2Proof.Machine

/-! ### Touch taken -/

namespace Sys2Proof.Machine

theorem guardLength_eq (d : Descriptor) : guardLength d = d[15].toNat := rfl

theorem holdOffLength_eq (d : Descriptor) : holdOffLength d = d[16].toNat + 256 * d[17].toNat := rfl

/-- New work judged at the end of an event that changes one touch line. -/
theorem judgedLine {s u : State} {l : LineNo} {r : TouchLine} {p : Pins}
    (hu : u = setTouchLine l r { s with pins := p }) :
    let t := closeEvent s (judge u)
    t.touchLine l = r ∧ (∀ k, k ≠ l → t.touchLine k = s.touchLine k) ∧ t.claims = s.claims ∧ t.gate = s.gate ∧ t.mem = s.mem ∧
      (∀ i, MarksKept (s.seg i) (t.seg i)) ∧ NewWork s t := by
  intro t
  have hline (k : LineNo) : t.touchLine k = u.touchLine k := by
    rw [State.touchLine, closeEvent_touch, judge_touch]
    rfl
  subst hu
  refine ⟨?_, fun k hk => ?_, ?_, ?_, ?_, fun i => closed_marks (u := setTouchLine l r { s with pins := p }) i, newWork_closed rfl⟩
  · rw [hline, touchLine_set_self]
  · rw [hline, touchLine_set, if_neg hk]
    rfl
  · rw [closeEvent_claims, judge_claims]; rfl
  · rw [closeEvent_gate, judge_gate]; rfl
  · rw [closeEvent_mem, judge_mem]; rfl

/-- Settles O55: a level is accepted, held back by the guard, or ignored, and a shield that goes off lets new work start. -/
theorem touchTaken : Obligations.TouchTaken := by
  unfold Obligations.TouchTaken
  intro l s hbus line guard hold
  have howes := hbus.2.2
  have hhold : holdOffLength s.engine.copy = hold := holdOffLength_eq _
  refine ⟨fun high h => ?ignored, fun hrun hguard hacc => ?present, fun hrun hguard hacc hne => ?held, fun hrun hguard hacc hzero => ?freed,
    fun hrun hguard hacc => ?same, fun hrun hguard hacc => ?guard, fun hrun hoff => ?holdOff⟩
  case ignored =>
    rw [exec_touch, touchChanges_ignored (by rw [ofInput_eq]; exact h)]
    exact congrArg Host.Outcome.next (closeEvent_touched (s := s) (u := setTouchPin l high s) howes rfl rfl rfl rfl rfl rfl rfl rfl)
  case present =>
    let v := setTouchPin l true s
    have hne : (s.touchLine l).accepted ≠ Level.ofInput true := by
      rw [show (s.touchLine l).accepted = .absent from hacc]
      exact (nomatch ·)
    have hexec (u : State) (hu : acceptPresent l v = u) (hclose : closeEvent s u = u) : exec (.touchInputChange l true) s = .next u := by
      rw [exec_touch, touchChanges_accepted hrun hguard hne]
      exact congrArg Host.Outcome.next ((congrArg (closeEvent s) hu).trans hclose)
    cases hshield : line.shield with
    | true =>
      refine ⟨_, hexec _ (acceptPresent_shielded hshield) (closeEvent_touched howes rfl rfl rfl rfl rfl rfl rfl rfl), rfl, fun _ => ⟨rfl, rfl⟩,
        (nomatch ·)⟩
    | false =>
      refine ⟨_, hexec _ (acceptPresent_told hshield) (closeEvent_touched howes rfl rfl rfl rfl rfl rfl ?_ ?_), rfl, (nomatch ·), fun _ => ⟨fun h => ?_, fun h => ?_, fun d h => ?_, fun j h => ?_⟩⟩
      · simp [v, Option.map_map, Function.comp_def, touchedStroke]
      · simp [v]
      · exact congrArg (Option.map _) h
      · exact congrArg (Option.map _) h
      · exact congrArg (Option.map _) h
      · exact congrArg (Option.map _) h
  case held =>
    have hne' : (s.touchLine l).accepted ≠ Level.ofInput false := by
      rw [show (s.touchLine l).accepted = .present from hacc]
      exact (nomatch ·)
    rw [exec_touch, touchChanges_accepted hrun hguard hne']
    have haccept : acceptLevel l false (setTouchPin l false s) = setTouchLine l ⟨.absent, guard, .running 0 hold, line.shield⟩ (setTouchPin l false s) := by
      rw [← hhold]
      exact acceptAbsent_held (s := setTouchPin l false s) (hhold ▸ hne)
    rw [haccept]
    exact congrArg Host.Outcome.next (closeEvent_touched howes rfl rfl rfl rfl rfl rfl rfl rfl)
  case freed =>
    have hne' : (s.touchLine l).accepted ≠ Level.ofInput false := by
      rw [show (s.touchLine l).accepted = .present from hacc]
      exact (nomatch ·)
    have haccept : acceptLevel l false (setTouchPin l false s) = judge (setTouchLine l ⟨.absent, guard, .idle, false⟩ (setTouchPin l false s)) :=
      acceptAbsent_freed (s := setTouchPin l false s) (hhold.trans hzero)
    rw [exec_touch, touchChanges_accepted hrun hguard hne', haccept]
    obtain ⟨hline, hother, -, -, -, hmarks, hwork⟩ := judgedLine (s := s) (u := setTouchLine l ⟨.absent, guard, .idle, false⟩ (setTouchPin l false s)) rfl
    exact ⟨_, rfl, hline, hother, hmarks, hwork⟩
  case same =>
    have hsame : guardExpires l s = setTouchLine l { line with guard := .idle } s :=
      (if_pos ⟨hrun, hguard⟩).trans (if_pos hacc)
    rw [exec_guard, hsame]
    exact congrArg Host.Outcome.next (closeEvent_touched howes rfl rfl rfl rfl rfl rfl rfl rfl)
  case guard =>
    refine ⟨exec_guard_input hrun hguard hacc, ?_⟩
    have hexec : exec (.guardTimerExpiry l) s = .next (closeEvent s (acceptLevel l (touchPin s l) s)) := by
      rw [exec_guard, guardExpires_accepts hrun hguard hacc]
    have hline : (closeEvent s (acceptLevel l (touchPin s l) s)).touchLine l = (acceptLevel l (touchPin s l) s).touchLine l := by
      rw [State.touchLine, closeEvent_touch]
      rfl
    rw [acceptLevel_touchLine, hhold] at hline
    exact ⟨_, hexec, congrArg TouchLine.guard hline, congrArg TouchLine.accepted hline, congrArg TouchLine.shield hline, congrArg TouchLine.holdOff hline⟩
  case holdOff =>
    have hexpires : holdOffExpires l s = judge (setTouchLine l { line with holdOff := .idle, shield := false } s) := if_pos ⟨hrun, hoff⟩
    refine ⟨closeEvent s (judge (setTouchLine l { line with holdOff := .idle, shield := false } s)), ?_, judgedLine rfl⟩
    rw [← hexpires]
    rfl

end Sys2Proof.Machine

/-! ### The end of a SWEEP or SENSE job, and the work judged after it (R39, R74, R111, R120, R125) -/

namespace Sys2Proof.Machine

/-! #### What the work leaves alone -/

/-- What OthersKept names, and the words of the part. -/
def State.rim (s : State) : Memory × SupplyGate × TouchUnit × ClaimTable × Descriptor × BitVec 4 × Word × Word × Option HostRead ×
    BitVec 8 × BitVec 8 × Pins × List Instr :=
  (s.mem, s.gate, s.touch, s.claims, s.engine.copy, s.bus.strap, s.bus.argument, s.bus.enable, s.bus.hostRead,
    s.events.producer, s.events.consumer, s.pins, s.pending)

theorem othersKept_of_rim {s t : State} (h : t.rim = s.rim) : t.mem = s.mem ∧ OthersKept s t := by
  simp only [State.rim, Prod.mk.injEq] at h
  obtain ⟨hmem, hgate, htouch, hclaims, hcopy, hstrap, hargument, henable, hread, hproducer, hconsumer, hpins, hpending⟩ := h
  exact ⟨hmem, hgate, htouch, hclaims, hcopy, hstrap, hargument, henable, hread, hproducer, hconsumer, hpins, hpending⟩

theorem rim_of_still {s t : State} (h : t.still = s.still) : t.rim = s.rim :=
  congrArg (fun x : Still => (x.mem, x.gate, x.touch, x.claims, x.engine.copy, x.bus.strap, x.bus.argument, x.bus.enable, x.bus.hostRead,
    x.events.producer, x.events.consumer, x.pins, x.pending)) h

theorem rim_of_firm {s t : State} (h : t.firm = s.firm) : t.rim = s.rim := by
  simp only [State.firm, Firm.mk.injEq] at h
  simp only [State.rim, h]

theorem rim_judge (u : State) : (judge u).rim = u.rim := rim_of_still (judge_still u)

theorem rim_closeEvent (b u : State) : (closeEvent b u).rim = u.rim :=
  rim_of_firm (closeEvent_firm b u)

/-! #### New work from two states that agree -/

/-- Two states that new work is judged from alike, but for their queues. -/
structure AgreeWork (s u : State) : Prop where
  seg : ∀ k, u.seg k = s.seg k
  asm : u.asm = s.asm
  stroke : u.stroke = s.stroke
  gate : u.gate = s.gate
  conv : u.conv = s.conv
  state : u.engine.state = s.engine.state
  copy : u.engine.copy = s.engine.copy
  shown : u.engine.shown = s.engine.shown
  reading : u.engine.reading = s.engine.reading
  claims : u.claims = s.claims
  touch : u.touch = s.touch

section
variable {s u : State}

theorem AgreeWork.core (h : AgreeWork s u) (hq : u.queue.entries = s.queue.entries) : u.core = s.core :=
  core_congr h.seg hq h.asm h.stroke h.gate h.conv (by simp only [State.core, h.state, h.copy, h.shown, h.reading])

theorem AgreeWork.frame (h : AgreeWork s u) (hq : u.queue.entries = s.queue.entries) : u.frame = s.frame := by
  rw [State.frame, State.frame, h.core hq, h.claims, h.touch]

theorem AgreeWork.quiet (h : AgreeWork s u) (hs : Quiet s) : Quiet u :=
  quiet_congr hs h.asm h.stroke h.gate (by rw [h.conv]) h.state

/-- New work judged at the end of an event is new work from any state that agrees with the one it was judged in. -/
theorem AgreeWork.endJudged (h : AgreeWork s u) {lawful : Prop} (hq : lawful → u.queue.entries = s.queue.entries) (b : State) :
    EndJudged lawful s (closeEvent b (judge u)) := by
  refine ⟨fun hs => ?quiet, fun hl => ⟨newWork_closed (h.core (hq hl)), fun ms hrun hasm hfree => ?drive⟩⟩
  case quiet =>
    obtain ⟨hasm, hstroke, hseg⟩ := closed_quiet (b := b) (h.quiet hs)
    exact ⟨hasm.trans h.asm, hstroke.trans h.stroke, fun k => by rw [← h.seg k]; exact hseg k⟩
  case drive =>
    obtain ⟨a, ha, hpair⟩ := Option.map_eq_some_iff.1 hasm
    obtain ⟨hp, hms⟩ := Prod.mk.inj hpair
    have hfree' : DriveFree u := by
      unfold DriveFree
      rw [h.stroke, h.gate, h.conv]
      exact hfree
    have hdrive := driveJudged_judge (s := u) (h.asm.trans ha) hp (h.state.trans hrun) hfree'
    rw [hms, h.stroke] at hdrive
    exact hdrive.congr (h.frame (hq hl)).symm closed_firm

/-- A segment that new work takes nothing from: it is not UNSURE, and a SENSE outstanding has it done (R112, R119, R123). -/
theorem judge_seg_left (hs : Quiet u) {i : SegNo} (hsense : ∀ rec, u.conv.sense = some rec → i ∈ rec.done) (hi : (u.seg i).state ≠ .unsure) :
    (judge u).seg i = u.seg i := by
  have hgrant : Grants u (judgeGrant u) := grants_judgeGrant u
  rw [judge, judgeWork_quiet hs]
  obtain ⟨t, ht⟩ : ∃ t, t = judgeGrant u := ⟨_, rfl⟩
  rw [← ht] at hgrant ⊢
  cases hgrant with
  | none _ => rfl
  | @sweep _ k hpick =>
    have hk : i ≠ k := by
      rintro rfl
      have hsweep := List.find?_some hpick
      exact hi (by simpa using (Bool.and_eq_true_iff.1 hsweep).1)
    rw [startSweep_seg, if_neg hk]
  | @sense _ _ k hpick =>
    obtain ⟨rec, hrec, -, helig⟩ := sensePick_spec hpick
    have hk : i ≠ k := fun he => ((senseEligible_iff rec u k).1 helig).1 (he ▸ hsense rec hrec)
    rw [startSense_seg, if_neg hk]

end

/-! #### The last conversion of a job -/

section
variable {s : State} {j : Job} {i : SegNo} {v : BitVec 10}

/-- A job with the value of its last conversion. -/
def finished (j : Job) (i : SegNo) (p : Pin) (v : BitVec 10) (s : State) : Job :=
  { j with todo := [], results := j.results ++ [⟨i, p, v, classify s.engine.copy v⟩] }

/-- The Sense Converter after the end of a job. -/
def jobFreed (s : State) : State := setConv { s.conv with state := .standby, warmUp := .clear, job := none } s

theorem conversionEnds_last {p : Pin} (hconv : s.conv.state = .converting) (hwarm : s.conv.warmUp ≠ .set) (hjob : s.conv.job = some j)
    (htodo : j.todo = [(i, p)]) : conversionEnds v s =
      judge (jobEnd (finished j i p v s) (setConv { s.conv with warmUp := .clear } s)) := by
  rw [conversionEnds, if_pos hconv]
  simp only [hjob, htodo]
  rw [if_neg hwarm]
  rfl

theorem jobEnd_sweep {g : Job} (hk : g.kind = .sweep) (hsegs : g.segs = [i]) :
    jobEnd g (setConv { s.conv with warmUp := .clear } s) = sweepEnd g i (jobFreed s) := by
  simp only [jobEnd, hk, hsegs]
  rfl

theorem jobEnd_sense {g : Job} (hk : g.kind = .sense) (hsegs : g.segs = [i]) :
    jobEnd g (setConv { s.conv with warmUp := .clear } s) = senseEnd g i (jobFreed s) := by
  simp only [jobEnd, hk, hsegs]
  rfl

theorem jobEnd_verify {g : Job} (hk : g.kind = .verify) :
    jobEnd g (setConv { s.conv with warmUp := .clear } s) = strokeEnd g.results (jobFreed s) := by
  simp only [jobEnd, hk]
  rfl

/-! #### The segment of the job is put back -/

/-- The end of the queue at which a job's segment joins it (R39). -/
def endOf (j : Job) (r : Segment) : QueueEnd := if !j.touched && r.discardAfter then .tail else .head

/-- A segment is put back with its new record, and the capture of it learns of a discard (R39, R74). -/
def putBack (j : Job) (i : SegNo) (r : Segment) (s : State) : State := putSeg (endOf j (s.seg i)) i r (noteIfDiscarded i s)

variable {r : Segment}

theorem putBack_still : (putBack j i r s).still = s.still := by
  rw [putBack, putSeg_still, noteIfDiscarded_still]

theorem putBack_seg (k : SegNo) : (putBack j i r s).seg k = if k = i then r else s.seg k := by
  rw [putBack, putSeg_seg, noteIfDiscarded_seg]

theorem putBack_conv : (putBack j i r s).conv = s.conv := by
  rw [putBack, putSeg_conv, noteIfDiscarded_conv]

theorem putBack_stroke : (putBack j i r s).stroke = s.stroke := by
  rw [putBack, putSeg_stroke, noteIfDiscarded_stroke]

theorem putBack_asm : (putBack j i r s).asm = captureForgotten s fun k => k == i && (s.seg k).discardAfter := by
  have hgone : (fun k => (s.seg i).discardAfter && i == k) = fun k => k == i && (s.seg k).discardAfter := by
    funext k
    by_cases hk : k = i
    · rw [hk, Bool.and_comm]
    · rw [beq_eq_false_iff_ne.2 hk, beq_eq_false_iff_ne.2 (Ne.symm hk), Bool.and_false, Bool.false_and]
  rw [putBack, putSeg_asm, noteIfDiscarded_eq, hgone]
  rfl

theorem entries_putBack (hq : QueueLawful s) (u : Segment) (rec : Option SenseRecord) :
    (putBack j i u s).queue.entries = (jobEnded s j i u rec).queue.entries := by
  let f : SegNo → Bool := fun k => queueable s.engine (if k = i then u else s.seg k)
  let v := setSeg i u (noteIfDiscarded i s)
  have hwait : waiting v = f := by
    funext k
    simp only [waiting, v, f, setSeg_engine, noteIfDiscarded_engine, seg_setSeg, noteIfDiscarded_seg]
  have hentries : v.queue.entries = s.queue.entries := by
    simp only [v, setSeg_queue, noteIfDiscarded_queue]
  have hstay : staying f [i] s.queue.entries = s.queue.entries.filter f := by
    refine List.filter_congr fun k hk => ?_
    by_cases hki : k = i
    · simp [hki]
    · have hf : f k = true := by
        simp only [f, if_neg hki]
        exact (hq.2 k).1 hk
      simp [hf]
  have hended : (jobEnded s j i u rec).queue.entries =
      joining f s.queue.entries (if !j.touched && (s.seg i).discardAfter then [] else [i]) ++ s.queue.entries.filter f ++
        joining f s.queue.entries (if !j.touched && (s.seg i).discardAfter then [i] else []) := by
    simp only [jobEnded, withJoins, Queue.entries, List.nil_append, joining, f]
  have hput : (putBack j i u s).queue.entries = (sync (endOf j (s.seg i)) i v).queue.entries := rfl
  rw [hended, hput, endOf]
  cases !j.touched && (s.seg i).discardAfter with
  | true =>
    have htail := foldl_tailed (q := f) (l := s.queue.entries) (List.nodup_singleton i)
    rw [if_pos rfl, if_pos rfl, if_pos rfl, entries_sync_tail, hwait, hentries, ← hstay]
    exact htail
  | false =>
    have hhead := foldr_headed (q := f) (l := s.queue.entries) (List.nodup_singleton i)
    rw [if_neg Bool.noConfusion, if_neg Bool.noConfusion, if_neg Bool.noConfusion, entries_sync_head, hwait, hentries, ← hstay]
    exact hhead.trans (List.append_nil _).symm

/-- The end of a job from which new work is judged (R120, R125, R126). -/
theorem agree_putBack (u : Segment) (s : State) : AgreeWork (jobEnded s j i u s.conv.sense) (putBack j i u (jobFreed s)) where
  seg k := by rw [putBack_seg, seg_jobEnded]; rfl
  asm := by rw [putBack_asm, asm_jobEnded]; rfl
  stroke := by rw [putBack_stroke, stroke_jobEnded]; rfl
  gate := by rw [still_gate putBack_still, jobEnded, gate_withJoins]; rfl
  conv := by rw [putBack_conv, conv_jobEnded]; rfl
  state := by rw [still_engine putBack_still, engine_jobEnded]; rfl
  copy := by rw [still_engine putBack_still, engine_jobEnded]; rfl
  shown := by rw [still_engine putBack_still, engine_jobEnded]; rfl
  reading := by rw [still_engine putBack_still, engine_jobEnded]; rfl
  claims := by rw [still_claims putBack_still]; rfl
  touch := by rw [still_touch putBack_still]; rfl

end

end Sys2Proof.Machine

/-! ### The end of a sweep (R39, R120, R170) -/

namespace Sys2Proof.Machine

theorem isPending_of_still {s t : State} (h : t.still = s.still) (e : Event) : isPending t e = isPending s e := by
  rw [isPending, isPending, still_events h]

/-- An event that judges new work and owes one result ends with it (R161, R164). -/
theorem endsWithResult_closed {b u : State} {code : Byte} {r : ResultCode} (hres : u.owed.results = [resultWord code r])
    (hpend : u.owed.pending = true) (hdone : isPending u .cmdDone = true) : EndsWithResult (closeEvent b (judge u)) code r := by
  let w := judgeSettled false b (judge u)
  have hresults : w.owed.results = [resultWord code r] := by
    rw [judgeSettled_results, judge_results, hres]
  have hpending : w.owed.pending = true := judgeSettled_owesPending ((judge_owesPending u).trans hpend) false b
  have hends : EndsWith (closePosts b w) (statusPosts b w ++ resultPosts w ++ pendingPosts w) :=
    endsWith_closePosts (by rw [hresults]; exact Nat.le_refl 1)
  refine ⟨isPending_ended_mono false b (by rw [isPending_of_still (judge_still u), hdone]), ?_⟩
  rw [resultPosts, hresults, pendingPosts, hpending, List.append_assoc] at hends
  rw [show pendingPost w = pendingPost (closePosts b w) from (pendingPost_closePosts b w).symm] at hends
  obtain ⟨qs, hqs⟩ := hends
  exact ⟨qs ++ statusPosts b w, by rw [List.append_assoc]; exact hqs⟩

theorem sweptThrough_iff (s : State) : sweptThrough s = true ↔ ∀ k, (s.seg k).state ≠ .unsure ∧ (s.seg k).state ≠ .sensing := by
  simp [sweptThrough, allSegs]

/-- The record of a segment whose sweep has ended (R39, R120). -/
def sweptRecord (j : Job) (r : Segment) : Segment :=
  if j.touched then r.ended .unsure else (r.senseAll j.results).ended .stale

theorem sweptRecord_eq (j : Job) (r : Segment) : sweptRecord j r =
    if r.discardAfter then forgottenAs r .unsure else if j.touched then { r with state := .unsure }
      else { r with state := .stale, shadow := j.results.foldl (fun h c => h.sense c.pin c.cls) r.shadow } := by
  have hsame : (r.senseAll j.results).discardAfter = r.discardAfter := rfl
  unfold sweptRecord Segment.ended
  rw [hsame]
  cases j.touched <;> cases r.discardAfter <;> rfl

section
variable {s : State} {j : Job} {i : SegNo}

/-- The segment back from its sweep, with its mirror word owed. -/
def sweptBack (j : Job) (i : SegNo) (s : State) : State := oweMirror i (putBack j i (sweptRecord j (s.seg i)) s)

theorem sweepEnd_eq : sweepEnd j i s = judgeLoading (sweptBack j i s) := by
  have hput : (if j.touched then sweepTouched i s else sweepUntouched j i s) = putBack j i (sweptRecord j (s.seg i)) s := by
    unfold sweptRecord putBack endOf
    cases j.touched with
    | true => rfl
    | false => rfl
  rw [sweepEnd, hput]
  rfl

theorem sweptBack_still : (sweptBack j i s).still = s.still := putBack_still

theorem judgeLoading_unloaded (h : ¬(s.engine.state = .loading ∧ s.engine.reading.isNone ∧ sweptThrough s)) : judgeLoading s = s :=
  if_neg h

/-- LOADING has ended: the engine is RUNNING, and START has its result (R170). -/
def loadEnded (s : State) : State := giveResult 1 .done { s with engine := { s.engine with state := .running, startOut := false } }

theorem judgeLoading_loaded (h : s.engine.state = .loading ∧ s.engine.reading.isNone ∧ sweptThrough s) : judgeLoading s = loadEnded s :=
  if_pos h

theorem rim_judgeLoading (s : State) : (judgeLoading s).rim = s.rim := by
  unfold judgeLoading
  split
  · rfl
  · rfl

end

/-- Settles O50: the segment is put back with its record, and the end of the last sweep of LOADING ends it. -/
theorem sweepEnds : Obligations.SweepEnds := by
  unfold Obligations.SweepEnds
  intro v s j i p hconv hwarm hjob hkind hsegs htodo r cs swept ended after loaded
  let g := finished j i p v s
  let w := sweptBack g i (jobFreed s)
  have hended : sweptRecord g r = ended := sweptRecord_eq g r
  have hexec : exec (.conversionEnd v) s = .next (closeEvent s (judge (judgeLoading w))) := by
    rw [exec_conversionEnd, conversionEnds_last hconv hwarm hjob htodo, jobEnd_sweep (g := g) hkind hsegs, sweepEnd_eq]
  have hagree : AgreeWork after w := by
    obtain ⟨hseg, hasm, hstroke, hgate, hconv, hstate, hcopy, hshown, hreading, hclaims, htouch⟩ := agree_putBack (j := g) (i := i) ended s
    have hw : w = oweMirror i (putBack g i ended (jobFreed s)) := by
      rw [← hended]
      rfl
    rw [hw]
    exact ⟨hseg, hasm, hstroke, hgate, hconv, hstate, hcopy, hshown, hreading, hclaims, htouch⟩
  have hqueue (hq : QueueLawful s) : w.queue.entries = after.queue.entries := by
    have hput := entries_putBack (s := jobFreed s) (j := g) (i := i) hq (sweptRecord g r) s.conv.sense
    rw [hended] at hput
    exact (congrArg (fun u => (putBack g i u (jobFreed s)).queue.entries) hended).trans hput
  have hstill : w.still = s.still := sweptBack_still
  have hloaded : loaded ↔ w.engine.state = .loading ∧ w.engine.reading.isNone ∧ sweptThrough w := by
    rw [sweptThrough_iff, still_engine hstill, Option.isNone_iff_eq_none]
    simp only [hagree.seg]
    rfl
  obtain ⟨hmem, hothers⟩ := othersKept_of_rim (s := s) (t := closeEvent s (judge (judgeLoading w))) (by
    rw [rim_closeEvent, rim_judge, rim_judgeLoading, rim_of_still hstill])
  have hseg : (judgeLoading w).seg i = ended := by
    rw [State.seg, judgeLoading_segs]
    exact (hagree.seg i).trans ((seg_jobEnded s j i ended _ i).trans (if_pos rfl))
  refine ⟨_, hexec, hmem, hothers, ?sense, ?mirror, ?marks, fun hl => ⟨?page, ?judged, fun hquiet hsense hstate => ?left⟩, fun hl => ?loaded⟩
  case sense =>
    rw [closeEvent_conv, judge_sense, judgeLoading_conv, hagree.conv, conv_jobEnded]
  case mirror =>
    exact closeEvent_posts_owed (judge_keepsOwed _ i (judgeLoading_keepsOwed w i (mem_oweMirror i _)))
  case marks =>
    rw [← hseg]
    exact closed_marks i
  case page =>
    rw [judgeLoading_unloaded (mt hloaded.2 hl)]
    have hsame : (judge w).still = s.still := (judge_still w).trans hstill
    exact pageJudged_closeEvent (still_engine hsame) (still_chime hsame) (isPending_of_still hsame _) rfl rfl
  case judged =>
    rw [judgeLoading_unloaded (mt hloaded.2 hl)]
    exact hagree.endJudged hqueue s
  case left =>
    rw [judgeLoading_unloaded (mt hloaded.2 hl)] at hseg ⊢
    have hnone : ∀ rec, w.conv.sense = some rec → i ∈ rec.done := fun rec hrec => by
      rw [hagree.conv, conv_jobEnded, hsense] at hrec
      cases hrec
    rw [closed_seg, judge_seg_left (hagree.quiet hquiet) hnone (hseg ▸ hstate), hseg]
  case loaded =>
    rw [judgeLoading_loaded (hloaded.1 hl)]
    refine ⟨?state, ?startOut, fun hbus => endsWithResult_closed ?results rfl ?done, fun hun => ?lag, ?judged⟩
    case state =>
      rw [closeEvent_engine_state, judge_engine]
      rfl
    case startOut =>
      rw [closeEvent_engine_startOut, judge_engine]
      rfl
    case results =>
      have hres : w.owed.results = [] := (still_results hstill).trans (congrArg Owed.results hbus.2.2)
      exact congrArg (· ++ [resultWord 1 .done]) hres
    case done => rw [loadEnded, isPending_giveResult]; rfl
    case lag =>
      have hunsettled : settled (judge (loadEnded w)) = false := (settled_ended false s _).symm.trans hun
      have hrun : (judge (loadEnded w)).engine.state = .running := by
        rw [judge_engine]
        rfl
      have hlag := judgeSettled_unsettles (k := false) (b := s) hunsettled hrun (.inr (by rw [hl.1]; exact (nomatch ·)))
      have ht : closeEvent s (judge (loadEnded w)) = closePosts s (judgeSettled false s (judge (loadEnded w))) := rfl
      rw [ht, closePosts_engine, hlag]
      rfl
    case judged =>
      have hloadEnded : AgreeWork { after with engine := { after.engine with state := .running, startOut := false } } (loadEnded w) :=
        ⟨hagree.seg, hagree.asm, hagree.stroke, hagree.gate, hagree.conv, rfl, hagree.copy, hagree.shown, hagree.reading, hagree.claims, hagree.touch⟩
      exact hloadEnded.endJudged hqueue s

end Sys2Proof.Machine

/-! ### The sense image (01, Sense image word; R125) -/

namespace Sys2Proof.Machine

/-! #### The bits of a sense image word -/

theorem dot_eq_iff {p : Pin} {cell : Nat} {b : Fin 8} : pinCell p = cell ∧ b.val = pinDot p - 1 ↔ p.val = 8 * cell + b.val := by
  unfold pinCell pinDot
  omega

theorem one_shift_getLsbD {d b : Nat} (hb : b < 8) : (1#8 <<< d).getLsbD b = decide (b = d) := by
  rw [BitVec.getLsbD_shiftLeft, BitVec.getLsbD_one, Bool.eq_iff_iff]
  simp
  omega

theorem dotsSensed_getLsbD (cls : PinClass) (cs : List Conversion) (cell : Nat) (b : Fin 8) :
    (dotsSensed cls cs cell).getLsbD b.val = cs.any fun c => c.pin.val == 8 * cell + b.val && c.cls == cls := by
  suffices h : ∀ m : Byte, (cs.foldl (fun m c => if c.cls = cls ∧ pinCell c.pin = cell then m ||| (1#8 <<< (pinDot c.pin - 1)) else m) m).getLsbD b.val =
      (m.getLsbD b.val || cs.any fun c => c.pin.val == 8 * cell + b.val && c.cls == cls) by
    rw [dotsSensed, h]
    simp
  induction cs with
  | nil => simp
  | cons c cs ih =>
    intro m
    rw [List.foldl_cons, ih, List.any_cons, ← Bool.or_assoc]
    have hstep : (if c.cls = cls ∧ pinCell c.pin = cell then m ||| (1#8 <<< (pinDot c.pin - 1)) else m).getLsbD b.val =
        (m.getLsbD b.val || (c.pin.val == 8 * cell + b.val && c.cls == cls)) := by
      by_cases hc : c.cls = cls ∧ pinCell c.pin = cell
      · rw [if_pos hc, BitVec.getLsbD_or, one_shift_getLsbD b.isLt, hc.1, beq_self_eq_true, Bool.and_true]
        refine congrArg (m.getLsbD b.val || ·) ?_
        rw [Bool.eq_iff_iff, decide_eq_true_iff, beq_iff_eq, ← dot_eq_iff]
        exact (and_iff_right hc.2).symm
      · have hno : (c.pin.val == 8 * cell + b.val && c.cls == cls) = false := by
          rw [Bool.eq_false_iff]
          intro h
          obtain ⟨hpin, hcls⟩ := Bool.and_eq_true_iff.1 h
          exact hc ⟨by simpa using hcls, (dot_eq_iff.2 (beq_iff_eq.1 hpin)).1⟩
        rw [if_neg hc, hno, Bool.or_false]
    rw [hstep]

theorem dotsFaulted_getLsbD (r : Segment) {cell : Nat} (hcell : cell < 10) (b : Fin 8) :
    (dotsFaulted r cell).getLsbD b.val = r.faults.any fun f => f.pin.val == 8 * cell + b.val := by
  have hpin : 8 * cell + b.val < 80 := by omega
  rw [dotsFaulted, BitVec.getLsbD_extractLsb', decide_eq_true b.isLt, Bool.true_and]
  rw [show 8 * cell + b.val = (⟨8 * cell + b.val, hpin⟩ : Pin).val from rfl, faultPins_getLsbD]
  refine congrArg (List.any r.faults) (funext fun f => ?_)
  rw [Bool.eq_iff_iff, beq_iff_eq, beq_iff_eq, Fin.ext_iff]

theorem senseImageWord_up (r : Segment) (cs : List Conversion) (cell : Nat) (b : Fin 8) :
    (senseImageWord r cs cell).getLsbD b.val = cs.any fun c => c.pin.val == 8 * cell + b.val && c.cls == .up := by
  rw [senseImageWord, wordOf, BitVec.getLsbD_append, if_pos b.isLt, dotsSensed_getLsbD]

theorem senseImageWord_doubt (r : Segment) (cs : List Conversion) {cell : Nat} (hcell : cell < 10) (b : Fin 8) :
    (senseImageWord r cs cell).getLsbD (8 + b.val) = ((cs.any fun c => c.pin.val == 8 * cell + b.val && c.cls == .midway) ||
      r.faults.any fun f => f.pin.val == 8 * cell + b.val) := by
  rw [senseImageWord, wordOf, BitVec.getLsbD_append, if_neg (by omega), Nat.add_sub_cancel_left, BitVec.getLsbD_or, dotsSensed_getLsbD,
    dotsFaulted_getLsbD r hcell]

/-! #### Its posts -/

theorem Posted.postAll {off : Nat} {v : Word} {ps : List (Nat × Word)} (hps : off ∉ ps.map Prod.fst) {s : State} (h : Posted s off v) :
    Posted (Machine.postAll ps s) off v := by
  induction ps generalizing s with
  | nil => exact h
  | cons p ps ih =>
    obtain ⟨hhead, htail⟩ := not_or.1 (mt List.mem_cons.2 hps)
    exact ih htail (h.post hhead p.2)

theorem posted_postAll {ps : List (Nat × Word)} (hn : (ps.map Prod.fst).Nodup) {p : Nat × Word} (hp : p ∈ ps) (s : State) :
    Posted (postAll ps s) p.1 p.2 := by
  induction ps generalizing s with
  | nil => cases hp
  | cons q ps ih =>
    obtain ⟨hq, hrest⟩ := List.nodup_cons.1 hn
    rcases List.mem_cons.1 hp with rfl | hp
    · have hlast : Posted (post p.1 p.2 s) p.1 p.2 := post_mem_self _ _ s
      exact hlast.postAll hq
    · exact ih hrest hp (post q.1 q.2 s)

theorem imageOffset_eq (i : SegNo) (k : Fin 10) : PartWord.offset (.senseImage (cellOf i k)) = 0x0800 + 2 * (10 * i.val + k.val) := rfl

theorem posted_image (i : SegNo) (r : Segment) (cs : List Conversion) (k : Fin 10) (s : State) :
    Posted (postAll (imagePosts i r cs) s) (0x0800 + 2 * (10 * i.val + k.val)) (senseImageWord r cs k.val) := by
  have hn : ((imagePosts i r cs).map Prod.fst).Nodup := by
    rw [imagePosts, List.map_map]
    refine (List.nodup_finRange 10).map fun a b hab => Fin.ext ?_
    have hoffset : 0x0800 + 2 * (10 * i.val + a.val) = 0x0800 + 2 * (10 * i.val + b.val) := hab
    omega
  exact posted_postAll hn (p := (PartWord.offset (.senseImage (cellOf i k)), senseImageWord r cs k.val))
    (List.mem_map.2 ⟨k, List.mem_finRange k, rfl⟩) s

/-! #### The posts that an event's end leaves alone -/

section
variable {off : Nat}

/-- A word that an event's end does not post. -/
structure NotClosing (off : Nat) : Prop where
  mirror : ∀ i, off ≠ PartWord.offset (.mirror i)
  status : off ≠ PartWord.offset .engineStatus
  result : off ≠ PartWord.offset .result
  pending : off ≠ PartWord.offset .eventPending

theorem hasPost_other {o : Nat} (h : off ≠ o) (v : Word) (s : State) : hasPost (post o v s) off = hasPost s off := by
  rw [hasPost_post, beq_eq_false_iff_ne.2 h, Bool.false_or]

theorem hasPost_closePosts (h : NotClosing off) (b s : State) : hasPost (closePosts b s) off = hasPost s off := by
  have hmirrors (is : List SegNo) (u : State) : hasPost (postMirrors is u) off = hasPost u off :=
    foldl_keeps (fun u => hasPost u off) (fun u i => hasPost_other (h.mirror i) _ u) is u
  have hstatus (u : State) : hasPost (postStatusIf b u) off = hasPost u off := by
    unfold postStatusIf
    split
    · rfl
    · exact hasPost_other h.status _ u
  have hresults (u : State) : hasPost (postResults u) off = hasPost u off :=
    foldl_keeps (fun u => hasPost u off) (fun u v => hasPost_other h.result v u) u.owed.results u
  have hpending (u : State) : hasPost (postPending u) off = hasPost u off := by
    unfold postPending
    split
    · exact hasPost_other h.pending _ u
    · rfl
  rw [closePosts, hpending, hresults, hstatus, hmirrors]

theorem hasPost_of_bus {s t : State} (h : t.bus = s.bus) : hasPost t off = hasPost s off := by rw [hasPost, hasPost, h]

theorem hasPost_closed (h : NotClosing off) (b u : State) : hasPost (closeEvent b (judge u)) off = hasPost u off := by
  have hclose : closeEvent b (judge u) = closePosts b (judgeSettled false b (judge u)) := rfl
  rw [hclose, hasPost_closePosts h]
  exact hasPost_of_bus (by rw [judgeSettled_bus, judge_bus])

theorem notClosing_image (n : Nat) : n < 960 → NotClosing (0x0800 + 2 * n) := by
  refine fun hn => ⟨fun i => ?_, ?_, ?_, ?_⟩
  · simp only [PartWord.offset]
    omega
  · simp only [PartWord.offset]
    omega
  · simp only [PartWord.offset]
    omega
  · simp only [PartWord.offset]
    omega

end

end Sys2Proof.Machine

/-! ### The end of a SENSE job (R39, R41, R122, R125 to R127) -/

namespace Sys2Proof.Machine

/-- The record of a segment whose SENSE job has ended. -/
def sensedRecord (j : Job) (r : Segment) : Segment :=
  if j.touched then senseTouchedRecord j.before r else senseUntouchedRecord j.before (r.senseAll j.results)

/-- The posts and the done mark of an untouched SENSE job's end (R125). -/
def senseMarked (j : Job) (i : SegNo) (s : State) : State :=
  if j.touched then s else markDone i (postAll (imagePosts i (s.seg i) j.results) s)

/-- The segment back from its SENSE job; a touched job owes its mirror word (R125, R126). -/
def sensedBack (j : Job) (i : SegNo) (s : State) : State :=
  let u := putBack j i (sensedRecord j (s.seg i)) (senseMarked j i s)
  if j.touched then oweMirror i u else u

section
variable {s : State} {j : Job} {i : SegNo}

theorem senseMarked_eq (j : Job) (i : SegNo) (s : State) : senseMarked j i s = { s with
    conv := (senseMarked j i s).conv
    bus := { s.bus with posts := (senseMarked j i s).bus.posts } } := by
  unfold senseMarked
  cases j.touched with
  | true => rfl
  | false =>
    rw [if_neg Bool.noConfusion, postAll_frame]
    rfl

theorem senseMarked_conv (j : Job) (i : SegNo) (s : State) : (senseMarked j i s).conv = { s.conv with
    sense := if j.touched then s.conv.sense else s.conv.sense.map fun r => { r with done := i :: r.done } } := by
  unfold senseMarked
  cases j.touched with
  | true => rfl
  | false =>
    rw [if_neg Bool.noConfusion, markDone, postAll_conv]
    rfl

theorem sensedBack_touched (h : j.touched = true) :
    sensedBack j i s = oweMirror i (putBack j i (senseTouchedRecord j.before (s.seg i)) s) := by
  simp only [sensedBack, sensedRecord, senseMarked, h, if_true]

theorem sensedBack_untouched (h : j.touched = false) : sensedBack j i s =
    putBack j i (senseUntouchedRecord j.before ((s.seg i).senseAll j.results)) (markDone i (postAll (imagePosts i (s.seg i) j.results) s)) := by
  simp only [sensedBack, sensedRecord, senseMarked, h, Bool.false_eq_true, if_false]

theorem senseTouched_eq (h : j.touched = true) : senseTouched j i s = sensedBack j i s := by
  have hend : endOf j (s.seg i) = .head := by simp [endOf, h]
  rw [sensedBack_touched h, putBack, hend]
  rfl

theorem senseUntouched_eq (h : j.touched = false) : senseUntouched j i s = sensedBack j i s := by
  rw [sensedBack_untouched h]
  obtain ⟨u, hu⟩ : ∃ u, u = markDone i (postAll (imagePosts i (s.seg i) j.results) s) := ⟨_, rfl⟩
  have hseg : u.seg i = s.seg i := hu ▸ postAll_seg _ s i
  have hend : endOf j (u.seg i) = if (s.seg i).discardAfter then .tail else .head := by simp [endOf, h, hseg]
  rw [senseUntouched, ← hu, putBack, hend]

theorem senseEnd_eq : senseEnd j i s = senseCompletes (sensedBack j i s) := by
  rw [senseEnd]
  by_cases h : j.touched = true
  · rw [if_pos h, senseTouched_eq h]
  · rw [if_neg h, senseUntouched_eq (Bool.eq_false_iff.2 h)]

/-- SENSE is done: its result is given, and the record is freed (R127). -/
def senseDone (s : State) : State := giveResult 10 .done (setConv { s.conv with sense := none } s)

theorem senseCompletes_done {rec : SenseRecord} (h : s.conv.sense = some rec) (hall : (rec.range.all fun i => rec.done.contains i) = true) :
    senseCompletes s = senseDone s := by
  rw [senseCompletes, h]
  exact if_pos hall

theorem senseCompletes_left {rec : SenseRecord} (h : s.conv.sense = some rec) (hall : (rec.range.all fun i => rec.done.contains i) = false) :
    senseCompletes s = s := by
  rw [senseCompletes, h]
  exact if_neg (Bool.eq_false_iff.1 hall)

theorem senseCompletes_cases (s : State) : senseCompletes s = s ∨ senseCompletes s = senseDone s := by
  unfold senseCompletes
  split
  · exact .inl rfl
  · split
    · exact .inr rfl
    · exact .inl rfl

theorem rim_senseCompletes (s : State) : (senseCompletes s).rim = s.rim := by
  rcases senseCompletes_cases s with h | h
  · rw [h]
  · rw [h]
    rfl

/-! #### The record -/

/-- The record that SenseEnds gives. -/
def sensedAs (j : Job) (r : Segment) : Segment :=
  let u := r.senseAll j.results
  if j.before = .faulted ∧ r.state = .faulted then if j.touched then r else u
  else if r.discardAfter then forgottenAs r .unsure
  else if j.touched = false then
    { u with state := if u.target.isSome = true ∧ u.dirty = false ∧ changeSet u = 0 then .clean else .stale }
  else { r with state :=
    if j.before = .clean then
      if r.dirty = true then .stale else if changeSet r ≠ 0 then .unsure else .clean
    else if j.before = .faulted then .unsure else j.before }

theorem sensedRecord_eq (j : Job) (r : Segment) : sensedRecord j r = sensedAs j r := by
  unfold sensedRecord sensedAs senseTouchedRecord senseUntouchedRecord Segment.ended
  by_cases hstays : j.before = .faulted ∧ r.state = .faulted
  · have hstays' : j.before = .faulted ∧ (r.senseAll j.results).state = .faulted := hstays
    rw [if_pos hstays, if_pos hstays, if_pos hstays']
  · have hstays' : ¬(j.before = .faulted ∧ (r.senseAll j.results).state = .faulted) := hstays
    have hsame : (r.senseAll j.results).discardAfter = r.discardAfter := rfl
    rw [if_neg hstays, if_neg hstays, if_neg hstays', hsame]
    cases hd : r.discardAfter with
    | true =>
      cases j.touched with
      | true => rfl
      | false => rfl
    | false =>
      cases j.touched with
      | true => simp
      | false => rfl

/-! #### The state from which new work is judged -/

theorem agree_putBack_port (g : Job) (u : Segment) (rec : Option SenseRecord) (b : BusPass) (s : State) :
    AgreeWork (jobEnded s j i u rec) (putBack g i u { s with
      conv := { s.conv with state := .standby, warmUp := .clear, job := none, sense := rec }
      bus := b }) where
  seg k := by rw [putBack_seg, seg_jobEnded]; rfl
  asm := by rw [putBack_asm, asm_jobEnded]; rfl
  stroke := by rw [putBack_stroke, stroke_jobEnded]
  gate := by rw [still_gate putBack_still, jobEnded, gate_withJoins]
  conv := by rw [putBack_conv, conv_jobEnded]
  state := by rw [still_engine putBack_still, engine_jobEnded]
  copy := by rw [still_engine putBack_still, engine_jobEnded]
  shown := by rw [still_engine putBack_still, engine_jobEnded]
  reading := by rw [still_engine putBack_still, engine_jobEnded]
  claims := by rw [still_claims putBack_still]; rfl
  touch := by rw [still_touch putBack_still]; rfl

theorem AgreeWork.oweMirror {s u : State} (h : AgreeWork s u) (i : SegNo) : AgreeWork s (oweMirror i u) :=
  ⟨h.seg, h.asm, h.stroke, h.gate, h.conv, h.state, h.copy, h.shown, h.reading, h.claims, h.touch⟩

theorem AgreeWork.senseDone {u : Segment} {rec : Option SenseRecord} {w : State} (h : AgreeWork (jobEnded s j i u rec) w) :
    AgreeWork (jobEnded s j i u none) (senseDone w) where
  seg k := (h.seg k).trans (by rw [seg_jobEnded, seg_jobEnded])
  asm := h.asm.trans (by rw [asm_jobEnded, asm_jobEnded])
  stroke := h.stroke.trans (by rw [stroke_jobEnded, stroke_jobEnded])
  gate := h.gate.trans (by rw [jobEnded, jobEnded, gate_withJoins, gate_withJoins])
  conv := by
    have hconv : (Machine.senseDone w).conv = { w.conv with sense := none } := rfl
    rw [hconv, h.conv, conv_jobEnded, conv_jobEnded]
  state := h.state.trans (by rw [engine_jobEnded, engine_jobEnded])
  copy := h.copy.trans (by rw [engine_jobEnded, engine_jobEnded])
  shown := h.shown.trans (by rw [engine_jobEnded, engine_jobEnded])
  reading := h.reading.trans (by rw [engine_jobEnded, engine_jobEnded])
  claims := h.claims
  touch := h.touch

/-- The record of the SENSE that a job's end leaves (R125, R126). -/
def senseLeft (j : Job) (i : SegNo) (rec : SenseRecord) : SenseRecord :=
  if j.touched then rec else { rec with done := i :: rec.done }

theorem senseMarked_freed (j : Job) (i : SegNo) (s : State) : senseMarked j i (jobFreed s) = { s with
    conv := { s.conv with state := .standby, warmUp := .clear, job := none, sense := s.conv.sense.map (senseLeft j i) }
    bus := { s.bus with posts := (senseMarked j i (jobFreed s)).bus.posts } } := by
  have hconv : (senseMarked j i (jobFreed s)).conv =
      { s.conv with state := .standby, warmUp := .clear, job := none, sense := s.conv.sense.map (senseLeft j i) } := by
    rw [senseMarked_conv]
    simp only [jobFreed, setConv]
    unfold senseLeft
    cases j.touched with
    | true => simp
    | false => rfl
  refine (senseMarked_eq j i (jobFreed s)).trans ?_
  rw [hconv]
  rfl

/-- Where a SENSE job's end leaves its segment (R39, R125, R126). -/
theorem agree_sensedBack (s : State) :
    AgreeWork (jobEnded s j i (sensedRecord j (s.seg i)) (s.conv.sense.map (senseLeft j i))) (sensedBack j i (jobFreed s)) := by
  have hagree := agree_putBack_port (i := i) (j := j) j (sensedRecord j (s.seg i)) (s.conv.sense.map (senseLeft j i))
    { s.bus with posts := (senseMarked j i (jobFreed s)).bus.posts } s
  rw [← senseMarked_freed j i s] at hagree
  unfold sensedBack
  split
  · exact hagree.oweMirror i
  · exact hagree

theorem entries_sensedBack {s : State} (hq : QueueLawful s) (rec' : Option SenseRecord) :
    (sensedBack j i (jobFreed s)).queue.entries = (jobEnded s j i (sensedRecord j (s.seg i)) rec').queue.entries := by
  have hlawful : QueueLawful (senseMarked j i (jobFreed s)) := by
    rw [senseMarked_freed j i s]
    exact hq
  have hput := entries_putBack (j := j) (i := i) hlawful (sensedRecord j (s.seg i)) rec'
  have hended : (jobEnded (senseMarked j i (jobFreed s)) j i (sensedRecord j (s.seg i)) rec').queue.entries =
      (jobEnded s j i (sensedRecord j (s.seg i)) rec').queue.entries := by
    rw [senseMarked_freed j i s]
    rfl
  refine Eq.trans ?_ (hput.trans hended)
  unfold sensedBack
  split
  · rfl
  · rfl

theorem rim_sensedBack (s : State) : (sensedBack j i (jobFreed s)).rim = s.rim := by
  have hput : (sensedBack j i (jobFreed s)).rim = (senseMarked j i (jobFreed s)).rim := by
    unfold sensedBack
    split
    · exact rim_of_still putBack_still
    · exact rim_of_still putBack_still
  rw [hput, senseMarked_freed j i s]
  rfl

theorem sensedBack_still (s : State) : (sensedBack j i (jobFreed s)).still =
    { s with bus := { s.bus with posts := (senseMarked j i (jobFreed s)).bus.posts } }.still := by
  have hput : (sensedBack j i (jobFreed s)).still = (senseMarked j i (jobFreed s)).still := by
    unfold sensedBack
    split
    · exact putBack_still
    · exact putBack_still
  rw [hput]
  exact (congrArg State.still (senseMarked_freed j i s)).trans rfl

end

/-- Settles O51: the image of an untouched job is posted, the segment is put back with its record, and the last segment ends SENSE. -/
theorem senseEnds : Obligations.SenseEnds := by
  unfold Obligations.SenseEnds
  intro v s j i p rec hbus hconv hwarm hjob hkind hsegs htodo hsense hrange hnew r cs u stays ended left after
  let g := finished j i p v s
  let w := sensedBack g i (jobFreed s)
  have hended : sensedRecord g r = ended := sensedRecord_eq g r
  have hexec : exec (.conversionEnd v) s = .next (closeEvent s (judge (senseCompletes w))) := by
    rw [exec_conversionEnd, conversionEnds_last hconv hwarm hjob htodo, jobEnd_sense (g := g) hkind hsegs, senseEnd_eq]
  have hstill := sensedBack_still (j := g) (i := i) s
  have hagreeLeft : AgreeWork (jobEnded s j i ended (some (senseLeft g i rec))) w := by
    have hback := agree_sensedBack (j := g) (i := i) s
    rw [hsense] at hback
    exact hended ▸ hback
  let all := rec.range.all fun k => left.done.contains k
  have hcases : (j.touched = true ∧ senseCompletes w = w ∧ AgreeWork (jobEnded s j i ended (some rec)) w) ∨
      (j.touched = false ∧ AgreeWork (jobEnded s j i ended (some left)) w ∧
        (all = true ∧ senseCompletes w = senseDone w ∨ all = false ∧ senseCompletes w = w)) := by
    have hwsense : w.conv.sense = some (senseLeft g i rec) := by rw [hagreeLeft.conv, conv_jobEnded]
    cases htouch : j.touched with
    | true =>
      have hleft : senseLeft g i rec = rec := if_pos htouch
      rw [hleft] at hwsense hagreeLeft
      refine .inl ⟨rfl, senseCompletes_left hwsense (Bool.eq_false_iff.2 fun hall => hnew ?_), hagreeLeft⟩
      exact List.contains_iff_mem.1 (List.all_eq_true.1 hall i hrange)
    | false =>
      have hleft : senseLeft g i rec = left := if_neg (Bool.eq_false_iff.1 htouch)
      rw [hleft] at hwsense hagreeLeft
      refine .inr ⟨rfl, hagreeLeft, ?_⟩
      cases hall : all with
      | true => exact .inl ⟨rfl, senseCompletes_done hwsense hall⟩
      | false => exact .inr ⟨rfl, senseCompletes_left hwsense hall⟩
  have hagree : AgreeWork after (senseCompletes w) := by
    rcases hcases with ⟨htouch, hsame, hback⟩ | ⟨htouch, hback, ⟨hall, hsame⟩ | ⟨hall, hsame⟩⟩
    · rw [hsame, show after = jobEnded s j i ended (some rec) from congrArg (jobEnded s j i ended) (if_pos htouch)]
      exact hback
    · have hafter : after = jobEnded s j i ended none :=
        congrArg (jobEnded s j i ended) ((if_neg (Bool.eq_false_iff.1 htouch)).trans (if_pos hall))
      rw [hsame, hafter]
      exact hback.senseDone
    · have hafter : after = jobEnded s j i ended (some left) :=
        congrArg (jobEnded s j i ended) ((if_neg (Bool.eq_false_iff.1 htouch)).trans (if_neg (Bool.eq_false_iff.1 hall)))
      rw [hsame, hafter]
      exact hback
  have hqueue (hq : QueueLawful s) : (senseCompletes w).queue.entries = after.queue.entries := by
    have hback := entries_sensedBack (j := g) (i := i) hq after.conv.sense
    rw [hended] at hback
    have hcompletes : (senseCompletes w).queue = w.queue := by
      rcases senseCompletes_cases w with h | h
      · rw [h]
      · rw [h]; rfl
    rw [hcompletes]
    exact hback
  have hkept : (senseCompletes w).engine = s.engine ∧ (senseCompletes w).chime = s.chime ∧
      isPending (senseCompletes w) .pageDone = isPending s .pageDone ∧ (senseCompletes w).bus = w.bus := by
    have hwengine : w.engine = s.engine := congrArg Still.engine hstill
    have hwchime : w.chime = s.chime := congrArg Still.chime hstill
    have hpageDone : isPending w .pageDone = isPending s .pageDone := isPending_congr (congrArg (fun x => x.events.pending) hstill) _
    rcases senseCompletes_cases w with h | h
    · rw [h]
      exact ⟨hwengine, hwchime, hpageDone, rfl⟩
    · rw [h]
      exact ⟨hwengine, hwchime, (isPending_giveResult _ _ _ _).trans hpageDone, rfl⟩
  obtain ⟨hengine, hchime, hpage, hport⟩ := hkept
  obtain ⟨hmem, hothers⟩ := othersKept_of_rim (s := s) (t := closeEvent s (judge (senseCompletes w))) (by
    rw [rim_closeEvent, rim_judge, rim_senseCompletes, rim_sensedBack s])
  have hseg : (senseCompletes w).seg i = ended :=
    (hagree.seg i).trans ((seg_jobEnded s j i ended _ i).trans (if_pos rfl))
  have hfinal : (closeEvent s (judge (senseCompletes w))).conv.sense = after.conv.sense := by
    rw [closeEvent_conv, judge_sense, hagree.conv]
  rw [show after.conv.sense = if j.touched then some rec else if all then none else some left from by rw [conv_jobEnded]] at hfinal
  refine ⟨_, hexec, hmem, hothers, fun htouch => ⟨fun k => ?image, fun hmore => ?left, fun hlast => ?done⟩, fun htouch => ⟨?same, ?mirror, fun c => ?words⟩,
    ?marks, ?page, hagree.endJudged hqueue s, fun hquiet hcase => ?put⟩
  case image =>
    have hlt : 10 * i.val + k.val < 960 := by omega
    obtain ⟨hmirror, hstatus, hresult, hpending⟩ := notClosing_image _ hlt
    have hmarked : senseMarked g i (jobFreed s) = markDone i (postAll (imagePosts i r cs) (jobFreed s)) :=
      if_neg (Bool.eq_false_iff.1 htouch)
    have hposts : (senseCompletes w).bus.posts = (postAll (imagePosts i r cs) (jobFreed s)).bus.posts := by
      rw [hport, still_bus hstill, hmarked]
      rfl
    have hposted : Posted (senseCompletes w) (0x0800 + 2 * (10 * i.val + k.val)) (senseImageWord r cs k.val) := by
      rw [Posted, hposts]
      exact posted_image i r cs k (jobFreed s)
    exact ⟨_, hposted.closed hmirror hstatus hresult hpending s, fun b => ⟨senseImageWord_up r cs k.val b, senseImageWord_doubt r cs k.isLt b⟩⟩
  case left =>
    have hall : all = false := by
      obtain ⟨k, hk, hne, hdone⟩ := hmore
      refine Bool.eq_false_iff.2 fun hall => ?_
      have hmem : k ∈ i :: rec.done := List.contains_iff_mem.1 (List.all_eq_true.1 hall k hk)
      exact (List.mem_cons.1 hmem).elim hne hdone
    exact hfinal.trans ((if_neg (Bool.eq_false_iff.1 htouch)).trans (if_neg (Bool.eq_false_iff.1 hall)))
  case done =>
    have hall : all = true :=
      List.all_eq_true.2 fun k hk => List.contains_iff_mem.2 (List.mem_cons.2 (hlast k hk))
    refine ⟨hfinal.trans ((if_neg (Bool.eq_false_iff.1 htouch)).trans (if_pos hall)), ?_⟩
    have hdone : senseCompletes w = senseDone w := by
      rcases hcases with ⟨htouch', -⟩ | ⟨-, -, ⟨-, hsame⟩ | ⟨hall', -⟩⟩
      · exact absurd htouch' (Bool.eq_false_iff.1 htouch)
      · exact hsame
      · exact absurd hall (Bool.eq_false_iff.1 hall')
    rw [hdone]
    refine endsWithResult_closed ?_ rfl (isPending_giveResult _ _ _ _)
    have hres : w.owed.results = [] := (congrArg Still.results hstill).trans (owes_results hbus.2.2)
    exact congrArg (· ++ [resultWord 10 .done]) hres
  case same => exact hfinal.trans (if_pos htouch)
  case mirror =>
    have howed : i ∈ (senseCompletes w).owed.mirrors := by
      have hsame : senseCompletes w = w := by
        rcases hcases with ⟨-, hsame, -⟩ | ⟨hno, -⟩
        · exact hsame
        · exact absurd htouch (Bool.eq_false_iff.1 hno)
      rw [hsame, show w = _ from sensedBack_touched (j := g) htouch]
      exact mem_oweMirror i _
    exact closeEvent_posts_owed (judge_keepsOwed _ i howed)
  case words =>
    have hmarked : senseMarked g i (jobFreed s) = jobFreed s := if_pos htouch
    have hbusSame : (senseCompletes w).bus = s.bus := by
      rw [hport, still_bus hstill, hmarked]
      rfl
    rw [hasPost_closed (notClosing_image c.val c.isLt), hasPost_of_bus hbusSame]
  case marks =>
    rw [← hseg]
    exact closed_marks i
  case page =>
    have hsame := judge_still (senseCompletes w)
    exact pageJudged_closeEvent ((still_engine hsame).trans hengine) ((still_chime hsame).trans hchime)
      ((isPending_of_still hsame _).trans hpage) rfl rfl
  case put =>
    have hu := hagree.quiet hquiet
    rw [closed_seg, ← hseg]
    rcases hcase with hstay | ⟨htouch, hstate⟩
    · have hfaulted : ended.state = .faulted := by
        have hstayed : ended = if j.touched then r else u := if_pos hstay
        rw [hstayed]
        split
        · exact hstay.2
        · exact hstay.2
      rw [judge, judgeWork_quiet hu]
      exact (grants_judgeGrant (senseCompletes w)).faulted (hseg ▸ hfaulted)
    · refine judge_seg_left hu (fun rec' hrec' => ?_) (hseg ▸ hstate)
      rw [hagree.conv, conv_jobEnded, if_neg (Bool.eq_false_iff.1 htouch)] at hrec'
      split at hrec'
      · cases hrec'
      · cases hrec'
        exact List.mem_cons_self

end Sys2Proof.Machine

/-! ### A run of fault reports (R115 to R118, R191, R192) -/

namespace Sys2Proof.Machine

/-! #### One report -/

section
variable {f : FaultRecord} {s : State}

theorem unconsumed_eq (p c : BitVec 8) : unconsumed p c = (p - c).toNat := rfl

/-- The words of a record are posted in its slot (R192). -/
theorem posted_record {n : BitVec 8} {j : Nat} {w : Word} (h : f.words[j]? = some w) (u : State) :
    Posted (postAll (recordPosts n f) u) (0x1400 + 8 * (n.toNat % 64) + 2 * j) w := by
  have hn : ((recordPosts n f).map Prod.fst).Nodup := by
    rw [recordPosts_eq]
    simp
  have hmem : (0x1400 + 8 * (n.toNat % 64) + 2 * j, w) ∈ recordPosts n f :=
    List.mem_map.2 ⟨(w, j), List.mem_zipIdx_iff_getElem?.2 h, rfl⟩
  exact posted_postAll hn hmem u

/-- The posts of a record followed by that of the producer index (R191, R192). -/
theorem Posted.counted {off : Nat} {v : Word} {u : State} (h : Posted u off v) (hproducer : off ≠ 0x1280) (e : EventUnit) :
    Posted (postProducer { u with events := e }) off v := by
  have hsame : Posted { u with events := e } off v := h.congr rfl
  exact hsame.post hproducer _

theorem posted_requestRecord {j : Nat} {w : Word} (hroom : unconsumed s.events.producer s.events.consumer < 64) (h : f.words[j]? = some w) :
    Posted (requestRecord f s) (0x1400 + 8 * (s.events.producer.toNat % 64) + 2 * j) w := by
  rw [requestRecord_room hroom]
  exact (posted_record h (raise .faultNew s)).counted (by omega) _

theorem Posted.requestRecord {off : Nat} {v : Word} (h : Posted s off v) (hproducer : off ≠ 0x1280)
    (hslot : ∀ k, k < 4 → off ≠ 0x1400 + 8 * (s.events.producer.toNat % 64) + 2 * k) : Posted (requestRecord f s) off v := by
  have hraised : Posted (raise .faultNew s) off v := h.congr rfl
  by_cases hroom : unconsumed s.events.producer s.events.consumer < 64
  · have hother : off ∉ (recordPosts s.events.producer f).map Prod.fst := by
      rw [recordPosts_eq]
      have h0 := hslot 0
      have h1 := hslot 1
      have h2 := hslot 2
      have h3 := hslot 3
      simp only [List.map_cons, List.map_nil, List.mem_cons, List.not_mem_nil, or_false]
      omega
    rw [requestRecord_room hroom]
    exact (hraised.postAll hother).counted hproducer _
  · rw [requestRecord_full hroom]
    exact hraised.congr rfl

theorem notClosing_producer : NotClosing 0x1280 := by
  refine ⟨fun i => ?_, ?_, ?_, ?_⟩ <;> simp only [PartWord.offset] <;> omega

theorem notClosing_record {slot j : Nat} (hslot : slot < 64) (hj : j < 4) : NotClosing (0x1400 + 8 * slot + 2 * j) := by
  refine ⟨fun i => ?_, ?_, ?_, ?_⟩ <;> simp only [PartWord.offset] <;> omega

theorem requestFaultTone_chime (s : State) : (requestFaultTone s).chime = faultToneAsked s := by
  unfold requestFaultTone faultToneAsked
  split
  · cases s.chime.state <;> rfl
  · rfl

theorem requestFaultTone_events (s : State) : (requestFaultTone s).events = s.events := by
  unfold requestFaultTone
  split
  · cases s.chime.state <;> rfl
  · rfl

theorem requestRecord_chime (f : FaultRecord) (s : State) : (requestRecord f s).chime = s.chime := by
  by_cases hroom : unconsumed s.events.producer s.events.consumer < 64
  · rw [requestRecord_room hroom]
    exact postAll_chime _ _
  · rw [requestRecord_full hroom]
    rfl

theorem faultToneAsked_congr {u : State} (hchime : u.chime = s.chime) (hcopy : u.engine.copy = s.engine.copy) : faultToneAsked u = faultToneAsked s := by
  rw [faultToneAsked, faultToneAsked, hchime, hcopy]

/-- The fault tone asked for again is the one already asked for (R36). -/
theorem faultToneAsked_again {u : State} (hchime : u.chime = faultToneAsked s) (hcopy : u.engine.copy = s.engine.copy) :
    faultToneAsked u = faultToneAsked s := by
  rw [faultToneAsked, hchime, hcopy]
  cases hon : chimeEnabled s.engine.copy with
  | false => rw [if_neg Bool.noConfusion]
  | true =>
    rw [if_pos rfl, faultToneAsked, hon, if_pos rfl]
    cases hstate : s.chime.state with
    | silent => rfl
    | page => simp only [hstate]
    | fault => simp only [hstate]

end

/-! #### Reports one after another -/

/-- What the reports of some faults leave of the Event Unit, the posts and the Chime, counted from a state. -/
structure Reported (s u : State) (asks : List FaultRecord) : Prop where
  records : RecordsAsked s u asks
  chime : u.chime = if asks = [] then s.chime else faultToneAsked s
  copy : u.engine.copy = s.engine.copy
  other : ∀ e, e ≠ .faultNew → e ≠ .ringFull → isPending u e = isPending s e

section
variable {s u : State} {asks : List FaultRecord}

theorem reported_self (s : State) : Reported s s [] where
  records := by
    refine ⟨by simp, rfl, by simp, by simp, by simp, ?_⟩
    intro n hn
    simp at hn
  chime := rfl
  copy := rfl
  other _ _ _ := rfl

/-- The records of a run of reports, where the indices, their events and their posts are as the run left them. -/
theorem RecordsAsked.carried (h : RecordsAsked s u asks) {v : State} (hproducer : v.events.producer = u.events.producer)
    (hconsumer : v.events.consumer = u.events.consumer) (hnew : isPending v .faultNew = isPending u .faultNew)
    (hfull : isPending v .ringFull = isPending u .ringFull) (hposts : ∀ off w, NotClosing off → Posted u off w → Posted v off w) :
    RecordsAsked s v asks := by
  obtain ⟨hp, hc, hn, hf, hcount, hwords⟩ := h
  refine ⟨hproducer ▸ hp, hconsumer ▸ hc, hnew.trans hn, hfull.trans hf, fun hw => ?_, fun n hn f hf j w hj => ?_⟩
  · rw [hproducer]
    exact hposts _ _ notClosing_producer (hcount hw)
  · have hword : j < 4 := (List.getElem?_eq_some_iff.1 hj).1
    exact hposts _ _ (notClosing_record (Nat.mod_lt _ (by decide)) hword) (hwords n hn f hf j w hj)

theorem Reported.same (h : Reported s u asks) {v : State} (hevents : v.events = u.events) (hbus : v.bus = u.bus) (hchime : v.chime = u.chime)
    (hcopy : v.engine.copy = u.engine.copy) : Reported s v asks where
  records := h.records.carried (congrArg EventUnit.producer hevents) (congrArg EventUnit.consumer hevents)
    (isPending_congr (congrArg EventUnit.pending hevents) _) (isPending_congr (congrArg EventUnit.pending hevents) _)
    fun _ _ _ hw => hw.congr (congrArg BusPass.posts hbus)
  chime := hchime.trans h.chime
  copy := hcopy.trans h.copy
  other e he he' := (isPending_congr (congrArg EventUnit.pending hevents) e).trans (h.other e he he')

theorem unconsumed_add {p c : BitVec 8} {k : Nat} (hk : k ≤ 64 - unconsumed p c) : unconsumed (p + BitVec.ofNat 8 k) c = unconsumed p c + k := by
  have hp := p.isLt
  have hc := c.isLt
  simp only [unconsumed_eq, BitVec.toNat_sub, BitVec.toNat_add, BitVec.toNat_ofNat] at hk ⊢
  omega

theorem recordsAsked_snoc (h : RecordsAsked s u asks) (f : FaultRecord) : RecordsAsked s (requestRecord f u) (asks ++ [f]) := by
  obtain ⟨hproducer, hconsumer, hnew, hfull, hcount, hwords⟩ := h
  obtain ⟨hnew', hother', hconsumer', hroom', hfull'⟩ := faultRecords f u
  have hspace : unconsumed u.events.producer u.events.consumer =
      unconsumed s.events.producer s.events.consumer + min asks.length (64 - unconsumed s.events.producer s.events.consumer) := by
    rw [hproducer, hconsumer, unconsumed_add (Nat.min_le_right _ _)]
  have hnewAsked : isPending (requestRecord f u) .faultNew = (isPending s .faultNew || !(asks ++ [f]).isEmpty) := by
    rw [hnew']
    simp
  by_cases hroom : unconsumed u.events.producer u.events.consumer < 64
  case pos =>
    obtain ⟨hproducer'', hfull'', hends⟩ := hroom' hroom
    have hlt : asks.length < 64 - unconsumed s.events.producer s.events.consumer := by omega
    have hmin : min asks.length (64 - unconsumed s.events.producer s.events.consumer) = asks.length := by omega
    have hmin' : min (asks ++ [f]).length (64 - unconsumed s.events.producer s.events.consumer) = asks.length + 1 := by
      rw [List.length_append, List.length_singleton]
      omega
    rw [hmin] at hproducer
    have hslot : u.events.producer.toNat % 64 = (s.events.producer.toNat + asks.length) % 64 := by
      rw [hproducer, BitVec.toNat_add, BitVec.toNat_ofNat]
      omega
    refine ⟨?producer, hconsumer'.trans hconsumer, hnewAsked, ?full, fun _ => ?count, fun n hn g hg j w hj => ?words⟩
    case producer =>
      rw [hmin', hproducer'', hproducer, BitVec.ofNat_add, BitVec.add_assoc]
      rfl
    case full =>
      have hnone : ¬64 - unconsumed s.events.producer s.events.consumer < asks.length := by omega
      have hnone' : ¬64 - unconsumed s.events.producer s.events.consumer < (asks ++ [f]).length := by
        rw [List.length_append, List.length_singleton]
        omega
      rw [hfull'', hfull, decide_eq_false hnone, decide_eq_false hnone']
    case count =>
      obtain ⟨qs, hqs⟩ := hends
      rw [Posted, hqs, hproducer'']
      simp
    case words =>
      rw [hmin'] at hn
      rcases Nat.lt_succ_iff_lt_or_eq.1 hn with hn | rfl
      · rw [List.getElem?_append_left hn] at hg
        have hword : j < 4 := (List.getElem?_eq_some_iff.1 hj).1
        refine (hwords n (by omega) g hg j w hj).requestRecord (by omega) fun k hk => ?_
        rw [hslot]
        omega
      · obtain rfl : f = g := by simpa using hg
        rw [← hslot]
        exact posted_requestRecord hroom hj
  case neg =>
    obtain ⟨hproducer'', hfull'', hposts⟩ := hfull' (Nat.le_of_not_lt hroom)
    have hge : 64 - unconsumed s.events.producer s.events.consumer ≤ asks.length := by omega
    have hmin : min asks.length (64 - unconsumed s.events.producer s.events.consumer) = 64 - unconsumed s.events.producer s.events.consumer := by omega
    have hmin' : min (asks ++ [f]).length (64 - unconsumed s.events.producer s.events.consumer) =
        64 - unconsumed s.events.producer s.events.consumer := by
      rw [List.length_append, List.length_singleton]
      omega
    rw [hmin] at hproducer hcount hwords
    refine ⟨?producer, hconsumer'.trans hconsumer, hnewAsked, ?full, fun hw => ?count, fun n hn g hg j w hj => ?words⟩
    case producer => rw [hmin', hproducer'', hproducer]
    case full =>
      have hsome : 64 - unconsumed s.events.producer s.events.consumer < (asks ++ [f]).length := by
        rw [List.length_append, List.length_singleton]
        omega
      rw [hfull'', decide_eq_true hsome, Bool.or_true]
    case count =>
      rw [hmin'] at hw
      rw [Posted, hposts, hproducer'']
      exact hcount hw
    case words =>
      rw [hmin'] at hn
      rw [List.getElem?_append_left (by omega)] at hg
      rw [Posted, hposts]
      exact hwords n hn g hg j w hj

theorem Reported.snoc (h : Reported s u asks) (f : FaultRecord) : Reported s (reportFault f u) (asks ++ [f]) where
  records := by
    have hevents := requestFaultTone_events (requestRecord f u)
    exact (recordsAsked_snoc h.records f).carried (congrArg EventUnit.producer hevents) (congrArg EventUnit.consumer hevents)
      (isPending_congr (congrArg EventUnit.pending hevents) _) (isPending_congr (congrArg EventUnit.pending hevents) _)
      fun _ _ _ hw => hw.congr (congrArg BusPass.posts (requestFaultTone_bus _))
  chime := by
    have hasked : (reportFault f u).chime = faultToneAsked u := by
      rw [reportFault, requestFaultTone_chime]
      exact faultToneAsked_congr (requestRecord_chime f u) (congrArg (fun b => b.engine.copy) (requestRecord_body f u))
    rw [hasked, if_neg (by simp)]
    have hchime := h.chime
    split at hchime
    · exact faultToneAsked_congr hchime h.copy
    · exact faultToneAsked_again hchime h.copy
  copy := by
    rw [reportFault, requestFaultTone_engine_copy]
    exact (congrArg (fun b => b.engine.copy) (requestRecord_body f u)).trans h.copy
  other e he he' := by
    obtain ⟨-, hother, -⟩ := faultRecords f u
    have hevents := isPending_congr (congrArg EventUnit.pending (requestFaultTone_events (requestRecord f u))) e
    exact hevents.trans ((hother e he he').trans (h.other e he he'))

theorem Reported.all (fs : List FaultRecord) : ∀ {u : State} {asks : List FaultRecord}, Reported s u asks →
    Reported s (fs.foldl (fun s f => reportFault f s) u) (asks ++ fs) := by
  induction fs with
  | nil => exact fun h => (List.append_nil _).symm ▸ h
  | cons f fs ih =>
    intro u asks h
    have hrest := ih (h.snoc f)
    rw [List.append_assoc] at hrest
    exact hrest

end

end Sys2Proof.Machine

/-! ### The end of a stroke (R51, R52, R95 to R97) -/

namespace Sys2Proof.Machine

section
variable {s u : State} {cs : List Conversion} {asks : List FaultRecord}

/-- What the finish of a member asks of the Event Unit (R118). -/
def memberAsks (s : State) (cs : List Conversion) (m : Member) : List FaultRecord :=
  if m.touched then [] else (judgePins m s.engine.shown (s.seg m.seg) (cs.filter fun c => c.seg = m.seg)).asks

theorem Reported.member (h : Reported s u asks) {m : Member} (hseg : u.seg m.seg = s.seg m.seg) (hengine : u.engine = s.engine) :
    Reported s (finishMember cs m u) (asks ++ memberAsks s cs m) := by
  obtain ⟨v, hv⟩ : ∃ v, v = if (u.seg m.seg).discardAfter then noteForgotten m.seg u else u := ⟨_, rfl⟩
  have hstill : v.still = u.still := by
    rw [hv, noteIf_eq]
    rfl
  have hnoted (r : Segment) : Reported s (setSeg m.seg r v) asks :=
    h.same (still_events hstill) (still_bus hstill) (still_chime hstill) (congrArg Engine.copy (still_engine hstill))
  unfold finishMember memberAsks
  simp only [← hv]
  simp only [still_engine hstill, hengine, hseg]
  by_cases ht : m.touched = true
  · simp only [if_pos ht, List.append_nil]
    exact hnoted _
  · simp only [if_neg ht]
    exact (hnoted _).all _

theorem Reported.members (cs : List Conversion) {ms : List Member} : ∀ {u : State} {asks : List FaultRecord}, Reported s u asks →
    (ms.map Member.seg).Nodup → (∀ m ∈ ms, u.seg m.seg = s.seg m.seg) → u.engine = s.engine →
    Reported s (ms.foldl (fun s m => finishMember cs m s) u) (asks ++ ms.flatMap (memberAsks s cs)) := by
  induction ms with
  | nil => exact fun h _ _ _ => (List.append_nil _).symm ▸ h
  | cons m ms ih =>
    intro u asks h hn hseg hengine
    obtain ⟨hm, hrest⟩ := List.nodup_cons.1 hn
    have hbody := finishMember_body cs m u
    have hsegs : ∀ x ∈ ms, (finishMember cs m u).seg x.seg = s.seg x.seg := by
      intro x hx
      rw [seg_of_body hbody]
      have hne : x.seg ≠ m.seg := fun he => hm (List.mem_map.2 ⟨x, hx, he⟩)
      exact (seg_setSeg_other hne _ _).trans (hseg x (List.mem_cons_of_mem m hx))
    have hone := ih (h.member (hseg m List.mem_cons_self) hengine) hrest hsegs ((congrArg Body.engine hbody).trans hengine)
    rw [List.append_assoc] at hone
    exact hone

/-- The record with which a stroke's end finishes a member (R96, R97). -/
theorem finishRecord_eq (cs : List Conversion) (s : State) (m : Member) : finishRecord cs s m = finishOf s cs m := by
  unfold finishRecord finishOf
  cases m.touched with
  | true =>
    have hsame : ((s.seg m.seg).unknow (m.raise ||| m.lower)).discardAfter = (s.seg m.seg).discardAfter := rfl
    rw [if_pos rfl, if_pos rfl, finishTouched, ended_unsure, hsame]
    split <;> rfl
  | false =>
    have hkept : (judgePins m s.engine.shown (s.seg m.seg) (cs.filter fun c => c.seg = m.seg)).record.discardAfter = (s.seg m.seg).discardAfter := by
      rw [judgePins_marks]
    simp only [Bool.false_eq_true, if_false]
    generalize (judgePins m s.engine.shown (s.seg m.seg) (cs.filter fun c => c.seg = m.seg)).record = q at hkept ⊢
    unfold finishUntouched Segment.ended
    rw [hkept]
    by_cases hq : q.state = .faulted
    · rw [if_pos hq, if_pos hq]
      split
      · rw [forgottenAs, ← hq]
        rfl
      · rfl
    · rw [if_neg hq, if_neg hq]
      split
      · rfl
      · rfl

/-! #### The state that a stroke's end leaves -/

/-- The members of a stroke have been finished, and the unit holds none. -/
def strokeFinished (cs : List Conversion) (ms : List Member) (s : State) : State :=
  setStroke { (ms.foldl (fun s m => finishMember cs m s) s).stroke with driven := none } (ms.foldl (fun s m => finishMember cs m s) s)

theorem strokeEnd_eq {d : Driven} (hd : s.stroke.driven = some d) : strokeEnd cs s =
    syncTail (tailBound s d.members) (syncHead (headBound s d.members) (strokeFinished cs d.members s)) := by
  rw [strokeEnd, hd]
  rfl

variable {ms : List Member} (hn : (ms.map Member.seg).Nodup)
include hn

/-- The finish of the members leaves all but the records, the Assembler's capture and what the reports touch (R95). -/
theorem finishMembers_fields {y : State} (hy : y = ms.foldl (fun s m => finishMember cs m s) s) :
    (∀ k, y.seg k = (membersEnded (finishRecord cs s) ms s).seg k) ∧ y.queue = s.queue ∧
    y.asm = (captureForgotten s fun k => (s.seg k).discardAfter && ms.any fun m => m.seg == k) ∧ y.stroke = s.stroke ∧
    y.gate = s.gate ∧ y.conv = s.conv ∧ y.engine = s.engine ∧ y.claims = s.claims ∧ y.touch = s.touch := by
  have hbody := finishMembers_body (cs := cs) hn s
  rw [← hy] at hbody
  have hseg := seg_of_body hbody
  simp only [State.body, membersEnded, Body.mk.injEq] at hbody
  obtain ⟨-, hqueue, hasm, hstroke, hgate, hconv, htouch, hclaims, hengine, -, -⟩ := hbody
  exact ⟨hseg, hqueue, hasm, hstroke, hgate, hconv, hengine, hclaims, htouch⟩

theorem strokeFinished_fields {v : State} (hv : v = strokeFinished cs ms s) :
    (∀ k, v.seg k = (membersEnded (finishRecord cs s) ms s).seg k) ∧ v.queue = s.queue ∧
    v.asm = (captureForgotten s fun k => (s.seg k).discardAfter && ms.any fun m => m.seg == k) ∧
    v.stroke = { s.stroke with driven := none } ∧ v.gate = s.gate ∧ v.conv = s.conv ∧ v.engine = s.engine ∧ v.claims = s.claims ∧
    v.touch = s.touch := by
  obtain ⟨y, hy⟩ : ∃ y, y = ms.foldl (fun s m => finishMember cs m s) s := ⟨_, rfl⟩
  obtain ⟨hseg, hqueue, hasm, hstroke, hgate, hconv, hengine, hclaims, htouch⟩ := finishMembers_fields hn hy
  rw [strokeFinished, ← hy, hstroke] at hv
  subst hv
  exact ⟨hseg, hqueue, hasm, rfl, hgate, hconv, hengine, hclaims, htouch⟩

end

/-- The members of the stroke that a lawful queue does not hold (R41). -/
theorem driven_not_queued {s : State} (hwork : WorkLawful s) (hq : QueueLawful s) {d : Driven} (hd : s.stroke.driven = some d) :
    ∀ m ∈ d.members, m.seg ∉ s.queue.entries := by
  intro m hm hin
  have hqueueable := (hq.2 m.seg).1 hin
  have hstate := (hwork.2.1 d hd).2.1 m hm
  rw [queueable, hstate] at hqueueable
  cases hphase : d.phase with
  | drive => simp [hphase, StrokePhase.memberState, SegState.mayQueue] at hqueueable
  | settle => simp [hphase, StrokePhase.memberState, SegState.mayQueue] at hqueueable
  | verify => simp [hphase, StrokePhase.memberState, SegState.mayQueue] at hqueueable

/-- Where the end of a stroke leaves the work (R95 to R97). -/
theorem agree_strokeEnd {s : State} {d : Driven} (hd : s.stroke.driven = some d) (hn : (d.members.map Member.seg).Nodup) (cs : List Conversion) :
    AgreeWork (strokeEnded s d cs) (strokeEnd cs (jobFreed s)) := by
  obtain ⟨v, hv⟩ : ∃ v, v = strokeFinished cs d.members (jobFreed s) := ⟨_, rfl⟩
  obtain ⟨hseg, -, hasm, hstroke, hgate, hconv, hengine, hclaims, htouch⟩ := strokeFinished_fields hn hv
  rw [strokeEnd_eq (s := jobFreed s) hd, ← hv]
  have hengine' : v.engine = s.engine := hengine
  refine ⟨fun k => ?seg, ?asm, ?stroke, ?gate, ?conv, ?state, ?copy, ?shown, ?reading, ?claims, ?touch⟩
  case seg =>
    rw [State.seg, syncTail_segs, syncHead_segs]
    refine (hseg k).trans ?_
    rw [membersEnded_seg, strokeEnded, seg_withJoins]
    cases d.members.find? fun m => m.seg == k with
    | none => rfl
    | some m => exact finishRecord_eq cs (jobFreed s) m
  case asm =>
    rw [syncTail_asm, syncHead_asm, asm_strokeEnded, hasm]
    rfl
  case stroke =>
    rw [syncTail_stroke, syncHead_stroke, stroke_strokeEnded, hstroke]
    rfl
  case gate =>
    rw [syncTail_gate, syncHead_gate, strokeEnded, gate_withJoins, hgate]
    rfl
  case conv =>
    rw [syncTail_conv, syncHead_conv, conv_strokeEnded, hconv]
    rfl
  case state => rw [syncTail_engine, syncHead_engine, engine_strokeEnded, hengine']
  case copy => rw [syncTail_engine, syncHead_engine, engine_strokeEnded, hengine']
  case shown => rw [syncTail_engine, syncHead_engine, engine_strokeEnded, hengine']
  case reading => rw [syncTail_engine, syncHead_engine, engine_strokeEnded, hengine']
  case claims =>
    rw [syncTail_claims, syncHead_claims, hclaims]
    rfl
  case touch =>
    rw [syncTail_touch, syncHead_touch, htouch]
    rfl

/-- The members of a stroke join in its two groups, in member order, about a queue that holds none of them (R51, R52, R95). -/
theorem entries_groups {l heads tails : List SegNo} {w : SegNo → Bool} (hheads : heads.Nodup) (htails : tails.Nodup)
    (hdis : ∀ k ∈ heads, k ∉ tails) (hl : ∀ k, k ∈ heads ∨ k ∈ tails → k ∉ l) (hw : ∀ k ∈ l, w k = true) {v : State} (hwait : waiting v = w)
    (hentries : v.queue.entries = l) :
    (syncTail tails (syncHead heads v)).queue.entries = joining w l heads ++ l.filter w ++ joining w l tails := by
  have hstayHeads : staying w heads l = l := List.filter_eq_self.2 fun k hk => by rw [hw k hk, Bool.or_true]
  have hfilter : l.filter w = l := List.filter_eq_self.2 hw
  have houter (k : SegNo) (hk : k ∈ tails) : k ∉ joining w l heads ++ l := by
    intro hmem
    rcases List.mem_append.1 hmem with hmem | hmem
    · exact hdis k (List.mem_filter.1 hmem).1 hk
    · exact hl k (.inr hk) hmem
  have hstayTails : staying w tails (joining w l heads ++ l) = joining w l heads ++ l := by
    refine List.filter_eq_self.2 fun k hk => ?_
    have hno : k ∉ tails := fun h => houter k h hk
    simp [hno]
  have hjoinTails : joining w (joining w l heads ++ l) tails = joining w l tails :=
    joining_congr fun k hk _ => ⟨fun h => absurd h (houter k hk), fun h => absurd h (hl k (.inr hk))⟩
  rw [entries_syncTail htails, waiting_syncHead, entries_syncHead hheads, hwait, hentries, hstayHeads, hfilter, hstayTails, hjoinTails]

theorem entries_strokeEnd {s : State} {d : Driven} (hd : s.stroke.driven = some d) (hn : (d.members.map Member.seg).Nodup)
    (hq : QueueLawful s) (hout : ∀ m ∈ d.members, m.seg ∉ s.queue.entries) (cs : List Conversion) :
    (strokeEnd cs (jobFreed s)).queue.entries = (strokeEnded s d cs).queue.entries := by
  obtain ⟨v, hv⟩ : ∃ v, v = strokeFinished cs d.members (jobFreed s) := ⟨_, rfl⟩
  obtain ⟨hseg, hqueue, -, -, -, -, hengine, -, -⟩ := strokeFinished_fields hn hv
  have hrecord (k : SegNo) : v.seg k = (strokeEnded s d cs).seg k := by
    have hagree := (agree_strokeEnd hd hn cs).seg k
    rw [strokeEnd_eq (s := jobFreed s) hd, ← hv, State.seg, syncTail_segs, syncHead_segs] at hagree
    exact hagree
  let w : SegNo → Bool := fun k => queueable s.engine ((strokeEnded s d cs).seg k)
  have hwait : waiting v = w := by
    funext k
    rw [waiting, hengine, hrecord]
    rfl
  have hsub (p : Member → Bool) : ((d.members.filter p).map Member.seg).Nodup := hn.sublist (List.filter_sublist.map _)
  have hmember {p : Member → Bool} {k : SegNo} (hk : k ∈ (d.members.filter p).map Member.seg) : ∃ m ∈ d.members, p m = true ∧ m.seg = k := by
    obtain ⟨m, hm, hmk⟩ := List.mem_map.1 hk
    exact ⟨m, (List.mem_filter.1 hm).1, (List.mem_filter.1 hm).2, hmk⟩
  have hheads : headBound (jobFreed s) d.members =
      (d.members.filter fun m => !(!m.touched && (s.seg m.seg).discardAfter)).map Member.seg := by
    refine congrArg (List.map Member.seg) (List.filter_congr fun m _ => ?_)
    rw [Bool.not_and, Bool.not_not]
    rfl
  rw [strokeEnd_eq (s := jobFreed s) hd, ← hv, hheads]
  refine (entries_groups (l := s.queue.entries) (w := w) (hsub _) (hsub _) (fun k hk hk' => ?dis) (fun k hk => ?out) (fun k hk => ?lawful) hwait
    (congrArg Queue.entries hqueue)).trans ?ended
  case dis =>
    obtain ⟨m, hm, hp, rfl⟩ := hmember hk
    obtain ⟨m', hm', hp', he⟩ := hmember hk'
    obtain rfl := List.inj_on_of_nodup_map hn hm' hm he
    rw [show (!m'.touched && ((jobFreed s).seg m'.seg).discardAfter) = (!m'.touched && (s.seg m'.seg).discardAfter) from rfl] at hp'
    rw [hp'] at hp
    cases hp
  case out =>
    rcases hk with hk | hk
    · obtain ⟨m, hm, -, rfl⟩ := hmember hk
      exact hout m hm
    · obtain ⟨m, hm, -, rfl⟩ := hmember hk
      exact hout m hm
  case lawful =>
    have hother : k ∉ d.members.map Member.seg := fun h => by
      obtain ⟨m, hm, rfl⟩ := List.mem_map.1 h
      exact hout m hm hk
    have hsame : (strokeEnded s d cs).seg k = s.seg k := seg_strokeEnded_other hother
    simp only [w, hsame]
    exact (hq.2 k).1 hk
  case ended =>
    simp only [w, strokeEnded, seg_withJoins]
    simp only [withJoins, Queue.entries, List.nil_append, joining]
    rfl

end Sys2Proof.Machine

/-! ### What a stroke's end comes to (R36, R95 to R97, R118, R183) -/

namespace Sys2Proof.Machine

section
variable {s u : State} {asks : List FaultRecord}

/-- The run of reports as it stands after new work has been judged and the event's posts are made. -/
theorem RecordsAsked.closed (h : RecordsAsked s u asks) (b : State) : RecordsAsked s (closeEvent b (judge u)) asks := by
  have hpending {e : Event} (he : e ≠ .pageDone) : isPending (closeEvent b (judge u)) e = isPending u e :=
    (isPending_ended he false b (judge u)).trans (isPending_of_still (judge_still u) e)
  refine h.carried ?_ ?_ (hpending (nomatch ·)) (hpending (nomatch ·)) fun off w hoff hw => hw.closed hoff.mirror hoff.status hoff.result hoff.pending b
  · rw [closeEvent_producer, still_events (judge_still u)]
  · rw [closeEvent_consumer, still_events (judge_still u)]

theorem reported_strokeEnd {d : Driven} (hd : s.stroke.driven = some d) (hn : (d.members.map Member.seg).Nodup) (cs : List Conversion) :
    Reported s (strokeEnd cs (jobFreed s)) (strokeAsks s d.members cs) := by
  have hfreed : Reported s (jobFreed s) [] := (reported_self s).same rfl rfl rfl rfl
  have hmembers := hfreed.members cs hn (fun _ _ => rfl) rfl
  rw [strokeEnd_eq (s := jobFreed s) hd]
  have hstill : (syncTail (tailBound (jobFreed s) d.members) (syncHead (headBound (jobFreed s) d.members)
      (strokeFinished cs d.members (jobFreed s)))).still = (strokeFinished cs d.members (jobFreed s)).still := by
    rw [syncTail_still, syncHead_still]
  have hfinished : Reported s (strokeFinished cs d.members (jobFreed s)) (strokeAsks s d.members cs) := hmembers.same rfl rfl rfl rfl
  exact hfinished.same (still_events hstill) (still_bus hstill) (still_chime hstill) (congrArg Engine.copy (still_engine hstill))

/-- With a fault tone asked for, the page-ready tone is not asked for in the same event (R36). -/
theorem faultToneAsked_sounds (h : chimeEnabled s.engine.copy = true) : (faultToneAsked s).state ≠ .silent := by
  rw [faultToneAsked, if_pos h]
  cases hstate : s.chime.state with
  | silent => exact (nomatch ·)
  | page => simp [hstate]
  | fault => simp [hstate]

theorem chime_of_pageJudged {t : State} (h : PageJudged { s with chime := faultToneAsked s } t) : t.chime = faultToneAsked s := by
  obtain ⟨-, hsettles, hstays, -, -⟩ := h
  by_cases hs : settled s = true
  · exact (hstays (.inl hs)).2.2
  · by_cases ht : settled t = true
    · have hchime := (hsettles (Bool.eq_false_iff.2 hs) ht).2.2.2.2
      rw [hchime, if_neg]
      rintro ⟨-, hon, hsilent⟩
      exact faultToneAsked_sounds (s := s) hon hsilent
    · exact (hstays (.inr (Bool.eq_false_iff.2 ht))).2.2

end

/-- Settles O49: the members of a stroke are finished and rejoin, the faults are reported, and new work is judged. -/
theorem strokeEnds : Obligations.StrokeEnds := by
  unfold Obligations.StrokeEnds
  intro v s j i p d hwork hactive hconv hwarm hjob hkind htodo hd cs asks after
  let g := finished j i p v s
  obtain ⟨u, hu⟩ : ∃ u, u = strokeEnd cs (jobFreed s) := ⟨_, rfl⟩
  have hexec : exec (.conversionEnd v) s = .next (closeEvent s (judge u)) := by
    rw [exec_conversionEnd, conversionEnds_last hconv hwarm hjob htodo, jobEnd_verify (g := g) hkind, hu]
    rfl
  obtain ⟨hn, hstate, hdriving, -⟩ := hwork.2.1 d hd
  have hphase : d.phase = .verify := by
    by_contra hne
    rw [hdriving hne] at hjob
    cases hjob
  have hagree : AgreeWork after u := hu ▸ agree_strokeEnd hd hn cs
  have hreported : Reported s u asks := hu ▸ reported_strokeEnd hd hn cs
  have hqueue (hq : QueueLawful s) : u.queue.entries = after.queue.entries := by
    rw [hu]
    exact entries_strokeEnd hd hn hq (driven_not_queued hwork hq hd) cs
  have hport : PortWork s u := by
    have hfreed : PortWork s (jobFreed s) := .of_eq rfl rfl rfl rfl rfl rfl
    exact hu ▸ hfreed.trans (portWork_strokeEnd cs (jobFreed s))
  have hseg {m : Member} (hm : m ∈ d.members) : u.seg m.seg = finishOf s cs m := (hagree.seg m.seg).trans (seg_strokeEnded_member hn hm)
  have hengine : u.engine = s.engine := by
    obtain ⟨y, hy⟩ : ∃ y, y = strokeFinished cs d.members (jobFreed s) := ⟨_, rfl⟩
    obtain ⟨-, -, -, -, -, -, hengine, -, -⟩ := strokeFinished_fields hn hy
    rw [hu, strokeEnd_eq (s := jobFreed s) hd, ← hy, syncTail_engine, syncHead_engine, hengine]
    rfl
  have hpage : PageJudged { s with chime := if asks = [] then s.chime else faultToneAsked s } (closeEvent s (judge u)) := by
    have hstill := judge_still u
    exact pageJudged_closeEvent (s := { s with chime := if asks = [] then s.chime else faultToneAsked s }) ((still_engine hstill).trans hengine)
      ((still_chime hstill).trans hreported.chime)
      ((isPending_of_still hstill _).trans (hreported.other _ (nomatch ·) (nomatch ·))) rfl rfl
  refine ⟨_, hexec, ?mem, ?gate, ?touch, ?claims, fun hasm hshown => ?stroke, fun m hm => ⟨?marks, fun hf => ?faulted⟩, ?records,
    fun e hnew hfull hdone => ?pending, fun hasks => ?chime, hpage, hagree.endJudged hqueue s, fun hquiet hsense m hm hunsure => ?left⟩
  case mem => rw [closeEvent_mem, judge_mem, hport.mem]
  case gate =>
    have hgate : after.gate = s.gate := by simp only [after, strokeEnded, gate_withJoins]
    rw [closeEvent_gate, judge_gate, hagree.gate, hgate]
  case touch => rw [closeEvent_touch, judge_touch, hport.touch]
  case claims => rw [closeEvent_claims, judge_claims, hport.claims]
  case stroke =>
    have hnone : u.asm = none := by
      rw [hagree.asm, asm_strokeEnded, captureForgotten, hasm]
      rfl
    rw [closeEvent_stroke, judge_fresh_stroke hnone (by rw [hagree.shown, engine_strokeEnded]; exact hshown), hagree.stroke]
  case marks =>
    rw [← hseg hm]
    exact closed_marks m.seg
  case faulted =>
    have hwarmed : WorkLawful (setConv { s.conv with warmUp := .clear } s) :=
      hwork.moved rfl rfl rfl rfl (.of_segs rfl) fun hr => absurd hr (by simp [active_runs hactive])
    have hruns : WorkRuns u := ⟨hu ▸ work_strokeEnd hwarmed (j := j) hjob hkind cs, by rw [hengine]; exact active_runs hactive⟩
    rw [closed_seg, judge_faulted hruns (by rw [hseg hm, hf]), hseg hm]
  case records => exact hreported.records.closed s
  case pending =>
    exact (isPending_ended hdone false s (judge u)).trans ((isPending_of_still (judge_still u) e).trans (hreported.other e hnew hfull))
  case chime =>
    rw [if_neg hasks] at hpage
    exact chime_of_pageJudged hpage
  case left =>
    have hnone : ∀ rec, u.conv.sense = some rec → m.seg ∈ rec.done := fun rec hrec => by
      rw [hagree.conv, conv_strokeEnded, hsense] at hrec
      cases hrec
    rw [closed_seg, judge_seg_left (hagree.quiet hquiet) hnone (by rw [hseg hm]; exact hunsure), hseg hm]

end Sys2Proof.Machine

/-! ### What the arbiter grants (R58, R112, R113, R119) -/

namespace Sys2Proof.Machine

/-! #### After PAUSE -/

section
variable {s : State} {c : CommandWrite}

theorem queueLawful_paused (hs : s.engine.state = .running) (hq : QueueLawful s) : QueueLawful (pausedFrom s c) := by
  have hruns : queuesRun (pausedFrom s c).engine = queuesRun s.engine := by
    rw [queuesRun, queuesRun, hs]
    rfl
  refine ⟨hq.1, fun k => (hq.2 k).trans ?_⟩
  rw [queueable, queueable, hruns]
  rfl

/-- A grant starts a job where none ran; with the converter as it was there was none. -/
theorem Grants.same {w t : State} (h : Grants w t) (hconv : t.conv = w.conv) : t = w := by
  cases h with
  | none _ => rfl
  | sweep hg _ =>
    have hjob := job_of_mayGrant hg
    rw [← hconv, startSweep_conv] at hjob
    cases hjob
  | sense hg _ _ =>
    have hjob := job_of_mayGrant hg
    rw [← hconv, startSense_conv] at hjob
    cases hjob

theorem grantJudged_paused (hquiet : Quiet (pausedFrom s c)) {t : State} (h : NewWork (pausedFrom s c) t) : GrantJudged s t :=
  h.2 (.inl hquiet)

end

/-! #### After the end of a SWEEP or SENSE job -/

section
variable {s : State} {j : Job} {i : SegNo} {p : Pin} {v : BitVec 10}

/-- The end of a SWEEP or SENSE job leaves the queue as it was but for its own segment. -/
theorem jobEnd_agrees (hrun : s.engine.state = .running) (hconv : s.conv.state = .converting) (hwarm : s.conv.warmUp ≠ .set)
    (hjob : s.conv.job = some j) (hkind : j.kind ≠ .verify) {k₀ : SegNo} (hsegs : j.segs = [k₀]) (htodo : j.todo = [(i, p)]) :
    ∃ u r rec, conversionEnds v s = judge u ∧ AgreeWork (jobEnded s j k₀ r rec) u ∧
      ∀ k, k ≠ k₀ → (k ∈ u.queue.entries ↔ k ∈ s.queue.entries) := by
  let g := finished j i p v s
  have hput {q : QueueEnd} {r : Segment} {x : State} (hx : x.queue = s.queue) (k : SegNo) (hk : k ≠ k₀) :
      k ∈ (putSeg q k₀ r (noteIfDiscarded k₀ x)).queue.entries ↔ k ∈ s.queue.entries := by
    rw [putSeg, mem_sync, if_neg hk, setSeg_queue, noteIfDiscarded_queue, hx]
  rw [conversionEnds_last hconv hwarm hjob htodo]
  cases hj : j.kind with
  | verify => exact absurd hj hkind
  | sweep =>
    have hnot : ¬((sweptBack g k₀ (jobFreed s)).engine.state = .loading ∧ (sweptBack g k₀ (jobFreed s)).engine.reading.isNone ∧
        sweptThrough (sweptBack g k₀ (jobFreed s))) := by
      rw [still_engine sweptBack_still]
      rintro ⟨hloading, -⟩
      rw [show (jobFreed s).engine.state = .running from hrun] at hloading
      cases hloading
    refine ⟨sweptBack g k₀ (jobFreed s), sweptRecord g (s.seg k₀), s.conv.sense, ?_, (agree_putBack (j := g) (i := k₀) _ s).oweMirror k₀, hput rfl⟩
    rw [jobEnd_sweep (g := g) hj hsegs, sweepEnd_eq, judgeLoading_unloaded hnot]
  | sense =>
    have hagree := agree_sensedBack (j := g) (i := k₀) s
    have hqueue (k : SegNo) (hk : k ≠ k₀) : k ∈ (sensedBack g k₀ (jobFreed s)).queue.entries ↔ k ∈ s.queue.entries := by
      have hmarked : (senseMarked g k₀ (jobFreed s)).queue = s.queue := by
        rw [senseMarked_freed g k₀ s]
      unfold sensedBack
      split
      · exact hput hmarked k hk
      · exact hput hmarked k hk
    rw [jobEnd_sense (g := g) hj hsegs, senseEnd_eq]
    rcases senseCompletes_cases (sensedBack g k₀ (jobFreed s)) with h | h
    · exact ⟨_, _, _, congrArg judge h, hagree, hqueue⟩
    · exact ⟨_, _, _, congrArg judge h, hagree.senseDone, hqueue⟩

end

/-! #### A sweep that waits is granted -/

section
variable {w : State}

theorem holdBack_unarmed (h : ∀ a, w.asm = some a → a.phase ≠ .armed) : holdBack w = false := by
  unfold holdBack
  cases ha : w.asm with
  | none => rfl
  | some a => simp [h a ha]

theorem judgeGrant_sweeps (hg : mayGrant w = true) {k : SegNo} (hk : k ∈ w.queue.entries) (hsweep : sweepable w k = true) :
    ∃ g, (judgeGrant w).conv.job = some g ∧ g.kind = .sweep := by
  have hsome : (w.queue.entries.find? (sweepable w)).isSome = true := List.find?_isSome.2 ⟨k, hk, hsweep⟩
  obtain ⟨i, hi⟩ := Option.isSome_iff_exists.1 hsome
  have hgrant : judgeGrant w = startSweep i w := by
    rw [judgeGrant, if_pos hg, hi]
  rw [hgrant, startSweep_conv]
  exact ⟨_, rfl, rfl⟩

end

theorem sweepable_iff (s : State) (k : SegNo) : sweepable s k = true ↔ (s.seg k).state = .unsure ∧ (s.touchLine (lineOf k)).shield = false := by
  simp [sweepable, shielded]

theorem mem_walkedTo {d : State} {i k : SegNo} {pre rest : List SegNo} (h : d.queue.entries = pre ++ i :: rest) (hk : k ≠ i) :
    k ∈ (walkedTo i pre rest d).queue.entries ↔ k ∈ d.queue.entries := by
  rw [walkedTo, captureStart_queue, mem_sync, if_neg hk, h]
  simp [Queue.entries]

/-- With no record in the Assembler and the converter free, an UNSURE segment in the queue means that a sweep is granted (R58, R112). -/
theorem judge_sweeps {d : State} (hasm : d.asm = none) (hshown : d.engine.shown ≠ .none) (hstate : d.conv.state = .standby)
    (hjob : d.conv.job = none) (hdriven : d.stroke.driven = none) {k : SegNo} (hk : k ∈ d.queue.entries) (hsweep : sweepable d k = true) :
    ∃ g, (judge d).conv.job = some g ∧ g.kind = .sweep := by
  obtain ⟨hunsure, hshield⟩ := (sweepable_iff d k).1 hsweep
  rw [judge]
  rcases judgeWork_fresh hasm hshown with h | ⟨i, pre, rest, hentries, hi, h⟩
  · rw [h]
    have hg : mayGrant d = true := (mayGrant_iff d).2 ⟨hstate, hjob, by simp [hdriven], holdBack_unarmed (by simp [hasm])⟩
    exact judgeGrant_sweeps hg hk hsweep
  · rw [h]
    have hne : k ≠ i := by
      rintro rfl
      simp [freeStale, hunsure] at hi
    have hg : mayGrant (walkedTo i pre rest d) = true := by
      refine (mayGrant_iff _).2 ⟨by rw [walkedTo_conv, hstate], by rw [walkedTo_conv, hjob], by simp [walkedTo_stroke, hdriven],
        holdBack_unarmed fun a ha => ?_⟩
      rw [walkedTo_asm] at ha
      obtain rfl := Option.some.inj ha
      exact (nomatch ·)
    refine judgeGrant_sweeps hg ((mem_walkedTo hentries hne).2 hk) ((sweepable_iff _ k).2 ⟨?_, ?_⟩)
    · rw [walkedTo_seg, if_neg hne, hunsure]
    · rw [State.touchLine, still_touch walkedTo_still]
      exact hshield

/-- Settles O52: PAUSE lets the arbiter grant, and a record that waits only for the converter has it before any SWEEP. -/
theorem grantOrder : Obligations.GrantOrder := by
  unfold Obligations.GrantOrder
  refine ⟨fun c s hbus hs => ?pause, fun v s j i p a hwork hrun hwarm hjob hkind htodo ha hp hdriven hcharge hgate => ?ends⟩
  case pause =>
    have hquiet : Quiet (pausedFrom s c) := quiet_pausedFrom c
    obtain ⟨t, ht⟩ : ∃ t, t = judgedTaken s 3 c .done (pausedFrom s c) := ⟨_, rfl⟩
    have hfirm : t.firm = (judge (pausedFrom s c)).firm := ht ▸ judgedTaken_firm
    refine ⟨t, ht ▸ exec_pause hbus hs c, grantJudged_paused hquiet (ht ▸ newWork_judgedTaken rfl), fun k => ?sensing, fun hconv => ?same,
      fun hq => ?entries⟩
    case sensing => exact ht ▸ judgedTaken_orSensing hquiet k
    case same =>
      have hgrant : Grants (pausedFrom s c) (judge (pausedFrom s c)) := by
        rw [judge, judgeWork_quiet hquiet]
        exact grants_judgeGrant (pausedFrom s c)
      have hsame := hgrant.same ((congrArg Firm.conv hfirm).symm.trans hconv)
      rw [hsame] at hfirm
      exact ⟨congrArg Firm.segs hfirm, congrArg Firm.queue hfirm⟩
    case entries =>
      obtain ⟨-, -, -, hentries⟩ := judge_of_quiet hquiet
      have hqueue : t.queue = (judge (pausedFrom s c)).queue := congrArg Firm.queue hfirm
      have hconv : t.conv = (judge (pausedFrom s c)).conv := congrArg Firm.conv hfirm
      rw [hqueue, lessGranted, hconv]
      exact hentries (queueLawful_paused hs hq)
  case ends =>
    obtain ⟨hconv, hlawful⟩ := hwork.2.2.1 j hjob
    have hone : ∃ k₀, j.segs = [k₀] ∧ (s.seg k₀).state ≠ .member := by
      unfold JobLawful at hlawful
      cases hj : j.kind with
      | verify => exact absurd hj hkind
      | sweep =>
        rw [hj] at hlawful
        obtain ⟨k₀, hsegs, hstate⟩ := hlawful
        exact ⟨k₀, hsegs, by rw [hstate]; exact (nomatch ·)⟩
      | sense =>
        rw [hj] at hlawful
        obtain ⟨k₀, hsegs, hstate | ⟨-, hstate | hstate⟩⟩ := hlawful
        · exact ⟨k₀, hsegs, by rw [hstate]; exact (nomatch ·)⟩
        · exact ⟨k₀, hsegs, by rw [hstate]; exact (nomatch ·)⟩
        · exact ⟨k₀, hsegs, by rw [hstate]; exact (nomatch ·)⟩
    obtain ⟨k₀, hsegs, hnot⟩ := hone
    obtain ⟨u, r, rec, hends, hagree, hqueue⟩ := jobEnd_agrees (v := v) hrun hconv hwarm hjob hkind hsegs htodo
    have hframe : s.asm.map Assembly.frame = u.asm.map Assembly.frame := by
      rw [hagree.asm, asm_jobEnded, captureForgotten_frame]
    obtain ⟨a', ha', hphase, hmembers, -⟩ := asm_of_frame hframe ha
    have hstroke : u.stroke = s.stroke := by rw [hagree.stroke, stroke_jobEnded]
    have hseg {k : SegNo} (hk : k ≠ k₀) : u.seg k = s.seg k := by rw [hagree.seg, seg_jobEnded, if_neg hk]
    have hshown' : u.engine.shown = s.engine.shown := by rw [hagree.shown, engine_jobEnded]
    have hmember : ∀ m ∈ a.members, m.seg ≠ k₀ := fun m hm he => hnot (he ▸ (hwork.1 a ha).2.1 m hm)
    have hkept : keptMembers u a'.members = keptMembers s a.members := by
      rw [hmembers, keptMembers, keptMembers]
      refine congrArg (List.map _) (List.filter_congr fun m hm => ?_)
      have hdropped : dropped u m = dropped s m := by
        simp only [dropped, claimed, shielded, State.claim, State.touchLine, hseg (hmember m hm), hshown', hagree.claims, hagree.touch]
        rfl
      rw [hdropped]
    have hconvFree : u.conv.job = none ∧ u.conv.state = .standby := by
      rw [hagree.conv, conv_jobEnded]
      exact ⟨rfl, rfl⟩
    have hrun' : u.engine.state = .running := by rw [hagree.state, engine_jobEnded, hrun]
    have hgate' : u.gate.state = .opened := by
      rw [hagree.gate, jobEnded, gate_withJoins]
      exact hgate
    have hfree : DriveFree u := ⟨by rw [hstroke, hdriven], by rw [hstroke, hcharge], hgate', hconvFree.1⟩
    obtain ⟨hdrives, hdrops, -⟩ := driveJudged_judge ha' (hphase.symm ▸ hp) hrun' hfree
    rw [hkept] at hdrives hdrops
    refine ⟨closeEvent s (judge u), by rw [exec_conversionEnd, hends], fun hsome => ?drive, fun hnone hshown => ⟨?kept, ?granted⟩⟩
    case drive =>
      obtain ⟨hdriving, hsame, -⟩ := hdrives hsome
      rw [closeEvent_stroke, closeEvent_conv, hdriving, hsame, hstroke, hagree.copy, engine_jobEnded]
      exact ⟨rfl, hconvFree⟩
    case kept =>
      rw [closeEvent_stroke, (hdrops hnone (hshown' ▸ hshown)).1, hstroke]
    case granted =>
      rintro ⟨k, hk, hother, hunsure, hshield⟩
      have hne : k ≠ k₀ := fun he => hother (by rw [hsegs, he]; exact List.mem_singleton_self k₀)
      have hready := driveReady_of ha' (hphase.symm ▸ hp) hrun' hfree
      have hdrop := driveStart_dropped ha' (hkept.trans hnone)
      have hout : k ∉ outOf u a'.members := by
        intro hin
        obtain ⟨m, hm, -, rfl⟩ := (mem_outOf a'.members).1 hin
        rw [(hwork.1 a ha).2.1 m (hmembers ▸ hm)] at hunsure
        cases hunsure
      have hasm : (driveStart u).asm = none := by rw [hdrop, rechecked_asm]
      have hin : k ∈ (driveStart u).queue.entries := by
        rw [hdrop, rechecked, mem_syncHead, if_neg hout]
        simpa using (hqueue k hne).2 hk
      rw [closeEvent_conv, judge_driveStart hready (hshown' ▸ hshown) hasm]
      refine judge_sweeps hasm ?_ ?_ ?_ ?_ hin ((sweepable_iff _ k).2 ⟨?_, ?_⟩)
      · rw [hdrop, still_engine (rechecked_still _), hshown']
        exact hshown
      · rw [hdrop, rechecked_conv, hconvFree.2]
      · rw [hdrop, rechecked_conv, hconvFree.1]
      · rw [hdrop, rechecked_stroke, hstroke, hdriven]
      · rw [hdrop, rechecked_seg, if_neg hout, hseg hne, hunsure]
      · rw [hdrop, State.touchLine, still_touch (rechecked_still _), hagree.touch]
        exact hshield

end Sys2Proof.Machine

/-! ### The supply lost with the gate open (R98, R99, R102) -/

namespace Sys2Proof.Machine

/-! #### The drive cut short -/

section
variable {s : State} {ms : List Member}

/-- The members of a stroke have been aborted, and the unit holds none. -/
def strokeAborted (ms : List Member) (s : State) : State :=
  setStroke { (ms.foldl (fun s m => abortMember m s) s).stroke with driven := none, drive := .idle } (ms.foldl (fun s m => abortMember m s) s)

theorem strokeAborted_fields (hn : (ms.map Member.seg).Nodup) {v : State} (hv : v = strokeAborted ms s) :
    (∀ k, v.seg k = (membersEnded (abortRecord s) ms s).seg k) ∧ v.queue = s.queue ∧
    v.asm = (captureForgotten s fun k => (s.seg k).discardAfter && ms.any fun m => m.seg == k) ∧
    v.stroke = { s.stroke with driven := none, drive := .idle } ∧ v.conv = s.conv ∧ v.engine = s.engine := by
  obtain ⟨y, hy⟩ : ∃ y, y = ms.foldl (fun s m => abortMember m s) s := ⟨_, rfl⟩
  have hbody := abortMembers_body hn s
  rw [← hy] at hbody
  have hseg := seg_of_body hbody
  simp only [State.body, membersEnded, Body.mk.injEq] at hbody
  obtain ⟨-, hqueue, hasm, hstroke, -, hconv, -, -, hengine, -, -⟩ := hbody
  rw [strokeAborted, ← hy, hstroke] at hv
  subst hv
  exact ⟨hseg, hqueue, hasm, rfl, hconv, hengine⟩

theorem abortDrive_driving {d : Driven} (hd : s.stroke.driven = some d) (hp : d.phase = .drive) :
    abortDrive s = syncHead (d.members.map Member.seg) (strokeAborted d.members s) := by
  rw [abortDrive, hd]
  exact if_pos hp

theorem abortDrive_other (h : ∀ d, s.stroke.driven = some d → d.phase ≠ .drive) : abortDrive s = s := by
  unfold abortDrive
  split
  · rfl
  · rename_i d hd
    exact if_neg (h d hd)

/-- The record of an aborted member (R98, R99). -/
theorem abortRecord_eq (s : State) (m : Member) : abortRecord s m =
    if (s.seg m.seg).discardAfter then forgottenAs (s.seg m.seg) .unsure else unknownPins (s.seg m.seg) (m.raise ||| m.lower) .unsure := by
  have hsame : ((s.seg m.seg).unknow (m.raise ||| m.lower)).discardAfter = (s.seg m.seg).discardAfter := rfl
  rw [abortRecord, ended_unsure, hsame]
  split
  · rfl
  · rfl

theorem abortRecord_state (s : State) (m : Member) : (abortRecord s m).state = .unsure := by
  rw [abortRecord_eq]
  split
  · rfl
  · rfl

/-- An aborted member may wait unless it is held or suspect, as before (R41, R47). -/
theorem queueable_abortRecord (e : Engine) (hrun : queuesRun e = true) (m : Member) :
    queueable e (abortRecord s m) = (!(s.seg m.seg).held && !suspect e.shown (s.seg m.seg)) := by
  have hheld : (abortRecord s m).held = (s.seg m.seg).held := by
    rw [abortRecord_eq]
    split
    · rfl
    · rfl
  have hsuspect : suspect e.shown (abortRecord s m) = suspect e.shown (s.seg m.seg) := by
    rw [abortRecord_eq]
    split
    · rfl
    · rfl
  rw [queueable, hrun, abortRecord_state, hheld, hsuspect]
  simp [SegState.mayQueue]

theorem entries_abortDrive {d : Driven} (hd : s.stroke.driven = some d) (hp : d.phase = .drive) (hn : (d.members.map Member.seg).Nodup)
    (hout : ∀ m ∈ d.members, m.seg ∉ s.queue.entries) (hrun : queuesRun s.engine = true) :
    (abortDrive s).queue.entries = rejoining s d.members ++ s.queue.entries := by
  obtain ⟨v, hv⟩ : ∃ v, v = strokeAborted d.members s := ⟨_, rfl⟩
  obtain ⟨hseg, hqueue, -, -, -, hengine⟩ := strokeAborted_fields hn hv
  rw [abortDrive_driving hd hp, ← hv, entries_syncHead hn, hqueue]
  have hnot (k : SegNo) (hk : k ∈ d.members.map Member.seg) : k ∉ s.queue.entries := by
    obtain ⟨m, hm, rfl⟩ := List.mem_map.1 hk
    exact hout m hm
  congr 1
  · refine List.filter_congr fun k hk => ?_
    obtain ⟨m, hm, rfl⟩ := List.mem_map.1 hk
    rw [waiting, hseg, membersEnded_member hn hm, hengine, queueable_abortRecord s.engine hrun]
    simp [hout m hm]
  · refine List.filter_eq_self.2 fun k hk => ?_
    simp [show k ∉ d.members.map Member.seg from fun h => hnot k h hk]

end

/-! #### New work with the gate closed -/

theorem captureStore_stroke (s : State) : (captureStore s).stroke = s.stroke := by
  unfold captureStore
  split
  · rfl
  · split
    · rfl
    · split
      · rfl
      · rfl

/-- With the gate closed no drive starts, and new work leaves the Stroke Unit alone (R84). -/
theorem closedRules (x : StrokeUnit) : JudgeRules fun u => u.stroke = x ∧ u.gate.state = .closed where
  ends s a _ h := ⟨(walkEnd_stroke a s).trans h.1, (congrArg SupplyGate.state (still_gate (walkEnd_still a s))).trans h.2⟩
  passes _ _ _ _ h := h
  starts s _ i _ _ h := ⟨(captureStart_stroke i s).trans h.1, (congrArg SupplyGate.state (still_gate (captureStart_still i s))).trans h.2⟩
  stores s h := ⟨(captureStore_stroke s).trans h.1, (congrArg SupplyGate.state (still_gate (captureStore_still s))).trans h.2⟩
  syncs i s h := ⟨(sync_stroke .tail i s).trans h.1, (congrArg SupplyGate.state (still_gate (sync_still .tail i s))).trans h.2⟩
  opens _ _ h := h
  drives s hd h := by
    obtain ⟨-, -, -, -, -, -, hgate, -⟩ := driveReady_spec hd
    rw [h.2] at hgate
    cases hgate
  sweeps s i _ _ _ h := ⟨(startSweep_stroke i s).trans h.1, (congrArg SupplyGate.state (still_gate (startSweep_still i s))).trans h.2⟩
  senses s i _ _ h := ⟨(startSense_stroke i s).trans h.1, (congrArg SupplyGate.state (still_gate (startSense_still i s))).trans h.2⟩

theorem judge_closed_stroke {u : State} (h : u.gate.state = .closed) : (judge u).stroke = u.stroke :=
  ((closedRules u.stroke).judge ⟨rfl, h⟩).1

/-- The queue after new work with the gate closed (R51, R119). -/
theorem judge_closed_entries {u : State} (hgate : u.gate.state = .closed) (hq : QueueLawful u)
    (h : u.engine.state ≠ .running ∨ u.asm ≠ none ∨ u.engine.shown ≠ .none) :
    (judge u).queue.entries = lessGranted u (judge u) u.queue.entries := by
  have hready : driveReady u = false := driveReady_false fun a _ _ _ hfree => by
    obtain ⟨-, -, hopened, -⟩ := hfree
    rw [hgate] at hopened
    cases hopened
  by_cases hquiet : u.engine.state ≠ .running ∨ u.asm ≠ none
  · exact (judge_of_quiet ⟨hready, hquiet⟩).2.2.2 hq
  · obtain ⟨-, hasm⟩ := not_or.1 hquiet
    have hshown : u.engine.shown ≠ .none := by
      rcases h with h | h | h
      · exact absurd (.inl h) hquiet
      · exact absurd (.inr h) hquiet
      · exact h
    exact judge_fresh_entries (not_not.1 hasm) hshown hq

end Sys2Proof.Machine

/-! ### What a supply lost with the gate open comes to (R98, R99, R102) -/

namespace Sys2Proof.Machine

/-- The supply has gone with the gate open: the gate is closed, SUPPLY_LOST is raised, and the charge is gone (R102). -/
def openLost (s : State) : State :=
  setStroke { s.stroke with chargeReady := false, recharge := .idle } (raise .supplyLost (setGate ⟨.closed, .idle⟩ (setSupply false s)))

/-- What a supply lost with the gate open leaves, before new work is judged (R98, R102). -/
def cutOff (s : State) : State := requestFaultTone (abortDrive (openLost s))

theorem supplyFalls_opened {s : State} (h : s.gate.state = .opened) : supplyFalls s = judge (cutOff s) := by
  have hgate : (setSupply false s).gate.state = .opened := h
  rw [supplyFalls]
  simp only [hgate]
  rfl

section
variable {s : State}

theorem requestFaultTone_eq (s : State) : requestFaultTone s = { s with chime := faultToneAsked s } := by
  unfold requestFaultTone faultToneAsked
  split
  · cases s.chime.state with
    | silent => rfl
    | page => rfl
    | fault => rfl
  · rfl

theorem cutOff_eq : cutOff s = { abortDrive (openLost s) with chime := faultToneAsked s } := by
  rw [cutOff, requestFaultTone_eq, faultToneAsked_congr (abortDrive_chime (openLost s)) (congrArg Engine.copy (abortDrive_engine (openLost s)))]
  rfl

theorem cutOff_still : (cutOff s).still = { openLost s with chime := faultToneAsked s }.still := by
  have habort := abortDrive_still (openLost s)
  simp only [State.still, Still.mk.injEq] at habort
  rw [cutOff_eq]
  simp only [State.still, habort]

theorem cutOff_seg (k : SegNo) : (cutOff s).seg k = (abortDrive (openLost s)).seg k := requestFaultTone_seg _ k

theorem cutOff_conv : (cutOff s).conv = s.conv := by
  rw [cutOff, requestFaultTone_conv, (abortDrive_frame (openLost s)).2]
  rfl

theorem cutOff_stroke : (cutOff s).stroke = (abortDrive (openLost s)).stroke := requestFaultTone_stroke _

theorem cutOff_queue : (cutOff s).queue = (abortDrive (openLost s)).queue := requestFaultTone_queue _

theorem cutOff_gate : (cutOff s).gate = ⟨.closed, .idle⟩ := by
  rw [still_gate cutOff_still]
  rfl

theorem cutOff_asm (h : s.asm ≠ none) : (cutOff s).asm ≠ none := by
  have hframe := (abortDrive_frame (openLost s)).1
  rw [cutOff_eq]
  intro hnone
  have hnone' : (abortDrive (openLost s)).asm = none := hnone
  rw [hnone', Option.map_none] at hframe
  exact h (Option.map_eq_none_iff.1 hframe.symm)

/-- A drive that is not in its pulse goes on (R98). -/
theorem cutOff_other (h : ∀ d, s.stroke.driven = some d → d.phase ≠ .drive) : cutOff s = { openLost s with chime := faultToneAsked s } := by
  rw [cutOff_eq, abortDrive_other (s := openLost s) h]

/-- A drive in its pulse is aborted (R98, R99). -/
theorem cutOff_driving {d : Driven} (hd : s.stroke.driven = some d) (hp : d.phase = .drive) (hn : (d.members.map Member.seg).Nodup) :
    (cutOff s).stroke = { s.stroke with driven := none, drive := .idle, chargeReady := false, recharge := .idle } ∧
      ∀ m ∈ d.members, (cutOff s).seg m.seg = abortRecord s m := by
  obtain ⟨v, hv⟩ : ∃ v, v = strokeAborted d.members (openLost s) := ⟨_, rfl⟩
  obtain ⟨hseg, -, -, hstroke, -, -⟩ := strokeAborted_fields hn hv
  have habort : abortDrive (openLost s) = syncHead (d.members.map Member.seg) v := hv ▸ abortDrive_driving (s := openLost s) hd hp
  refine ⟨?_, fun m hm => ?_⟩
  · rw [cutOff_stroke, habort, syncHead_stroke, hstroke]
    rfl
  · rw [cutOff_seg, habort, State.seg, syncHead_segs]
    exact (hseg m.seg).trans (membersEnded_member hn hm)

/-- The aborted members rejoin as one head group in member order (R51, R98). -/
theorem entries_cutOff (hwork : WorkLawful s) (hq : QueueLawful s) : (cutOff s).queue.entries =
    (s.stroke.driven.toList.flatMap fun d => if d.phase = .drive then rejoining s d.members else []) ++ s.queue.entries := by
  rw [cutOff_queue]
  by_cases hdriving : ∃ d, s.stroke.driven = some d ∧ d.phase = .drive
  · obtain ⟨d, hd, hp⟩ := hdriving
    rw [entries_abortDrive (s := openLost s) hd hp (hwork.2.1 d hd).1 (driven_not_queued hwork hq hd) (runs_of_driven hwork hd), hd]
    simp only [Option.toList_some, List.flatMap_cons, List.flatMap_nil, List.append_nil, if_pos hp]
    rfl
  · have hother : ∀ d, s.stroke.driven = some d → d.phase ≠ .drive := fun d hd hp => hdriving ⟨d, hd, hp⟩
    have hnone : (s.stroke.driven.toList.flatMap fun d => if d.phase = .drive then rejoining s d.members else []) = [] := by
      refine List.flatMap_eq_nil_iff.2 fun d hd => if_neg (hother d ?_)
      simpa using hd
    rw [abortDrive_other (s := openLost s) hother, hnone]
    rfl

theorem workLawful_cutOff (h : WorkLawful s) : WorkLawful (cutOff s) := by
  have hlost : WorkLawful (openLost s) := h
  rw [cutOff_eq]
  exact work_abortDrive hlost

theorem queueLawful_cutOff (h : QueueLawful s) : QueueLawful (cutOff s) := by
  have hlost : QueueLawful (openLost s) := h
  rw [cutOff_eq]
  exact queue_abortDrive hlost

end

/-- Settles O54: the drive is cut, its members are UNSURE and rejoin, and the other work goes on. -/
theorem supplyLostWhileOpen : Obligations.SupplyLostWhileOpen := by
  unfold Obligations.SupplyLostWhileOpen
  intro s hbus hwork hopened
  obtain ⟨u, hu⟩ : ∃ u, u = cutOff s := ⟨_, rfl⟩
  have hexec : exec .supplyOkFall s = .next (closeEvent s (judge u)) := by
    rw [hu, ← supplyFalls_opened hopened]
    rfl
  have hstill : u.still = { openLost s with chime := faultToneAsked s }.still := hu ▸ cutOff_still
  have hgate : u.gate = ⟨.closed, .idle⟩ := hu ▸ cutOff_gate
  have hengine : u.engine = s.engine := congrArg Still.engine hstill
  have hconv : u.conv = s.conv := hu ▸ cutOff_conv
  have hworkU : WorkLawful u := hu ▸ workLawful_cutOff hwork
  have hraised (e : Event) : isPending u e = (e == .supplyLost || isPending s e) := by
    have hopen : isPending (openLost s) e = (e == .supplyLost || isPending s e) := isPending_raise .supplyLost e _
    rw [← hopen]
    exact isPending_congr (congrArg (fun x => x.events.pending) hstill) e
  have hstroke : (closeEvent s (judge u)).stroke = u.stroke := by
    rw [closeEvent_stroke, judge_closed_stroke (by rw [hgate])]
  have hpage : PageJudged { s with chime := faultToneAsked s } (closeEvent s (judge u)) := by
    have hjudged := judge_still u
    exact pageJudged_closeEvent (s := { s with chime := faultToneAsked s }) ((still_engine hjudged).trans hengine)
      ((still_chime hjudged).trans (congrArg Still.chime hstill)) ((isPending_of_still hjudged _).trans (hraised _)) rfl rfl
  have hchime := chime_of_pageJudged hpage
  have htimers : u.stroke.chargeReady = false ∧ u.stroke.recharge = .idle ∧ u.stroke.settle = s.stroke.settle := by
    by_cases hdriving : ∃ d, s.stroke.driven = some d ∧ d.phase = .drive
    · obtain ⟨d, hd, hp⟩ := hdriving
      obtain ⟨hcut, -⟩ := cutOff_driving hd hp (hwork.2.1 d hd).1
      rw [hu, hcut]
      exact ⟨rfl, rfl, rfl⟩
    · rw [hu, cutOff_other fun d hd hp => hdriving ⟨d, hd, hp⟩]
      exact ⟨rfl, rfl, rfl⟩
  have hruns {d : Driven} (hd : s.stroke.driven = some d) : queuesRun u.engine = true := by
    rw [hengine]
    exact runs_of_driven hwork hd
  refine ⟨_, hexec, ?mem, ?gate, ?pins, ?lost, fun e he hdone => ?pending, ?touch, ?claims, ?state, ?copy, ?shown, ?charge, ?recharge, ?settle,
    fun hon hsilent => ?silent, fun hon hsilent => ?sounding, fun hon hsilent => ?fault, fun hoff => ?off, fun d hd hp => ?stays,
    fun d hd hp => ?cut, fun hq h => ?queue, ?ends, ?status⟩
  case mem => rw [closeEvent_mem, judge_mem]; exact congrArg Still.mem hstill
  case gate => rw [closeEvent_gate, judge_gate, hgate]
  case pins => rw [closeEvent_pins, judge_pins]; exact congrArg Still.pins hstill
  case lost =>
    refine isPending_ended_mono false s ?_
    rw [isPending_of_still (judge_still u), hraised]
    rfl
  case pending =>
    refine (isPending_ended hdone false s (judge u)).trans ?_
    rw [isPending_of_still (judge_still u), hraised, beq_eq_false_iff_ne.2 he, Bool.false_or]
  case touch => rw [closeEvent_touch, judge_touch]; exact congrArg Still.touch hstill
  case claims => rw [closeEvent_claims, judge_claims]; exact congrArg Still.claims hstill
  case state => rw [closeEvent_engine_state, judge_engine, hengine]
  case copy => rw [closeEvent_engine_copy, judge_engine, hengine]
  case shown => rw [closeEvent_engine_shown, judge_engine, hengine]
  case charge => rw [hstroke, htimers.1]
  case recharge => rw [hstroke, htimers.2.1]
  case settle => rw [hstroke, htimers.2.2]
  case silent =>
    rw [hchime, faultToneAsked, if_pos hon]
    simp only [hsilent]
  case sounding =>
    rw [hchime, faultToneAsked, if_pos hon]
    simp only [hsilent]
  case fault =>
    rw [hchime, faultToneAsked, if_pos hon]
    simp only [hsilent]
  case off => rw [hchime, faultToneAsked, if_neg (Bool.eq_false_iff.1 hoff)]
  case stays =>
    have hother : u = { openLost s with chime := faultToneAsked s } := hu.trans (cutOff_other fun d' hd' => by
      rw [hd] at hd'
      exact Option.some.inj hd' ▸ hp)
    have hdriven : u.stroke.driven = some d := by
      rw [hother]
      exact hd
    have hseg (k : SegNo) : u.seg k = s.seg k := by
      rw [hother]
      rfl
    refine ⟨by rw [hstroke, hdriven], fun m hm => ?_⟩
    have hatWork : (u.seg m.seg).state = .moving ∨ (u.seg m.seg).state = .verifying ∨ (u.seg m.seg).state = .sensing := by
      rw [hseg, (hwork.2.1 d hd).2.1 m hm]
      cases hphase : d.phase with
      | drive => exact absurd hphase hp
      | settle => exact .inl rfl
      | verify => exact .inr (.inl rfl)
    rw [closed_seg, judge_atWork ⟨hworkU, hruns hd⟩ hatWork, hseg]
  case cut =>
    obtain ⟨hn, -, -, -⟩ := hwork.2.1 d hd
    obtain ⟨hcut, hseg⟩ := cutOff_driving hd hp hn
    rw [← hu] at hcut hseg
    have hdriven : (closeEvent s (judge u)).stroke.driven = none := by rw [hstroke, hcut]
    refine ⟨hdriven, by rw [hstroke, hcut], by rw [State.moduleLink, hdriven], fun m hm => ?_⟩
    have hunsure : (u.seg m.seg).state = .unsure := by rw [hseg m hm, abortRecord_state]
    rw [closed_seg]
    have hor := judge_orSensing ⟨hworkU, hruns hd⟩ (k := m.seg) (by rw [hunsure]; exact (nomatch ·)) (by rw [hunsure]; exact (nomatch ·))
    rw [hseg m hm, abortRecord_eq] at hor
    rcases hor with hsame | ⟨hsensing, -⟩
    · rw [hsame]
      split
      · exact ⟨.inl rfl, rfl⟩
      · exact ⟨.inl rfl, rfl⟩
    · rw [hsensing]
      split
      · exact ⟨.inr rfl, rfl⟩
      · exact ⟨.inr rfl, rfl⟩
  case queue =>
    intro aborted
    have hentries : u.queue.entries = aborted ++ s.queue.entries := by
      rw [hu, entries_cutOff hwork hq]
    have hstate : u.engine.state ≠ .running ∨ u.asm ≠ none ∨ u.engine.shown ≠ .none := by
      rw [hengine]
      exact h.imp id (Or.imp (fun hasm => hu ▸ cutOff_asm hasm) id)
    rw [closeEvent_queue, judge_closed_entries (by rw [hgate]) (hu ▸ queueLawful_cutOff hq) hstate, hentries, lessGranted, lessGranted,
      closeEvent_conv, hconv]
  case ends =>
    refine closed_endsWithPending ?_ ?_
    · exact (congrArg Still.results hstill).trans (owes_results (s := s) hbus.2.2)
    · exact congrArg Still.owesPending hstill
  case status =>
    refine posted_status_closePosts (b := s) (v := judgeSettled false s (judge u)) (statusFields_gate ?_).symm
    rw [judgeSettled_gate, judge_gate, hgate, hopened]
    exact (nomatch ·)

end Sys2Proof.Machine

/-! ### The order of the queue over commands and events (R59, R61; O9) -/

namespace Sys2Proof.Machine

section
variable {cmd : Instr} {s t : State}

/-- A course of acts, new work from where it leads, and what is no work. -/
theorem inOrder_judged {v : State} (hs : QueueLawful s) (hw : WorkLawful s) (hc : Course cmd s v) (hsteps : Steps s v)
    (ht : SameWork (judge v) t) : InOrder s.queue.entries t :=
  (hsteps.judge hs hw (hc.keeps (fun _ _ hu ha => ha.queue hu) hs) (hc.keeps (fun _ _ hu ha => ha.work hu) hw)).then ht

/-- New work from a state in which the work is as before. -/
theorem inOrder_judged_same {v : State} (hs : QueueLawful s) (hw : WorkLawful s) (hv : SameWork s v) (ht : SameWork (judge v) t) :
    InOrder s.queue.entries t := inOrder_judged (cmd := .lagWarnPoint) hs hw hv.course hv.steps ht

theorem inOrder_same (h : SameWork s t) : InOrder s.queue.entries t := h.steps.order

/-- Where the queue does not run it is empty, and there is nothing to keep in order. -/
theorem inOrder_idle (hs : QueueLawful s) (hr : queuesRun s.engine = false) : InOrder s.queue.entries t := by
  rw [entries_nil hs hr, InOrder]
  simp

theorem inOrder_empty {Q : List SegNo} (ht : t.queue.entries = []) : InOrder Q t := by
  rw [InOrder, ht]
  exact List.nil_sublist Q

theorem sameWork_given (code : Byte) (r : ResultCode) (b u : State) : SameWork u (closeEvent b (giveResult code r u)) :=
  (sameWork_giveResult code r u).trans (sameWork_closeEvent b _)

/-- A command taken, but for PROMOTE, keeps the order. -/
theorem Taken.inOrder (h : Taken cmd s t) (hr : ¬Reorders cmd) (hs : QueueLawful s) (hw : WorkLawful s) : InOrder s.queue.entries t := by
  cases h with
  | refused code r => exact inOrder_same (sameWork_refuse code r s)
  | start h => exact inOrder_idle hs (by simp [queuesRun, h])
  | stop h =>
    obtain ⟨-, -, hq⟩ := stopEffect_rest s
    exact (inOrder_empty hq).closed s
  | pause h =>
    have hpaused : SameWork s (clearLag (setEngineState .paused s)) := ⟨rfl, rfl, rfl, rfl, rfl, by simp [queuesRun, h], rfl, ⟨rfl, rfl⟩⟩
    exact inOrder_judged_same hs hw hpaused (sameWork_given _ _ s _)
  | resume h =>
    have hrunning : SameWork s (setEngineState .running s) := ⟨rfl, rfl, rfl, rfl, rfl, by simp [queuesRun, h], rfl, ⟨rfl, rfl⟩⟩
    exact inOrder_judged_same hs hw hrunning (sameWork_given _ _ s _)
  | showBuffer h named =>
    exact inOrder_judged (cmd := cmd) hs hw (Act.shown h named).course (steps_showParts named s)
      ((sameWork_giveResult _ _ _).trans (sameWork_closeShow s _))
  | hold h is => exact (steps_mapSegs _ is s).order.then (sameWork_given _ _ s _)
  | release h is => exact inOrder_judged (cmd := cmd) hs hw (Act.held h false is).course (steps_mapSegs _ is s) (sameWork_given _ _ s _)
  | discard h is => exact inOrder_judged (cmd := cmd) hs hw (Act.discarded h is).course (steps_discardEffect is s) (sameWork_given _ _ s _)
  | promote hc _ _ => exact absurd hc hr
  | sense h hn => exact inOrder_judged (cmd := cmd) hs hw (Act.sensed h hn _).course (.of_same rfl rfl) (sameWork_given _ _ s _)
  | clearFaults h is => exact inOrder_judged (cmd := cmd) hs hw (Act.cleared h is).course (steps_mapSegs _ is s) (sameWork_given _ _ s _)

/-! #### The part's own events -/

theorem inOrder_conversionEnds (v : BitVec 10) (hs : QueueLawful s) (hw : WorkLawful s) : InOrder s.queue.entries (conversionEnds v s) := by
  have hconv (c : Converter) : InOrder s.queue.entries (setConv c s) := inOrder_self s
  unfold conversionEnds
  split
  · rename_i hstate
    split
    · exact inOrder_self s
    · rename_i j hj
      split
      · exact inOrder_self s
      · rename_i i p rest _
        split
        · exact hconv _
        · unfold takeValue
          simp only
          split
          · have hclear := (Act.value (cmd := .conversionEnd v) hj hstate { s.conv with warmUp := .clear } j hstate rfl hj rfl rfl rfl rfl).course
            have hends := hclear.act (Act.jobEnds ⟨v, rfl⟩ (s := setConv { s.conv with warmUp := .clear } s) hj hstate
              { j with todo := [], results := j.results ++ [⟨i, p, v, classify s.engine.copy v⟩] } rfl rfl rfl rfl)
            have hsteps := steps_jobEnd { j with todo := [], results := j.results ++ [⟨i, p, v, classify s.engine.copy v⟩] }
              (setConv { s.conv with warmUp := .clear } s)
            exact inOrder_judged hs hw hends ⟨hsteps.order, hsteps.members⟩ (.refl _)
          · exact hconv _
  · exact inOrder_self s

theorem inOrder_supplyFalls (hs : QueueLawful s) (hw : WorkLawful s) : InOrder s.queue.entries (supplyFalls s) := by
  cases hgate : s.gate.state with
  | closed =>
    rw [supplyFalls_closed hgate]
    exact inOrder_self s
  | rearming =>
    rw [supplyFalls_rearming hgate]
    exact inOrder_self s
  | opened =>
    have hlost : SameWork s (openLost s) := ⟨rfl, rfl, rfl, rfl, rfl, rfl, rfl, ⟨rfl, rfl⟩⟩
    have htone : SameWork (abortDrive (openLost s)) (cutOff s) := .of_firm (requestFaultTone_firm _)
    have hsteps := steps_abortDrive (openLost s)
    rw [supplyFalls_opened hgate]
    exact inOrder_judged (cmd := .supplyOkFall) hs hw ((hlost.course.act .abortDrive).then htone)
      (Steps.then ⟨hsteps.order, hsteps.members⟩ (by rw [htone.queue]) htone.asm) (.refl _)

theorem inOrder_acceptLevel (l : LineNo) (high : Bool) (hs : QueueLawful s) (hw : WorkLawful s) :
    InOrder s.queue.entries (acceptLevel l high s) := by
  have hset := fun r => sameWork_setTouchLine l r s
  unfold acceptLevel acceptPresent acceptAbsent
  simp only
  split
  · split
    · exact inOrder_same (hset _)
    · exact (inOrder_self s).congr (by rw [touchJob_eq, touchStroke_eq]; rfl)
  · split
    · exact inOrder_judged_same hs hw (hset _) (.refl _)
    · exact inOrder_same (hset _)

theorem Happens.inOrder {u : State} (h : Happens cmd s u) (hcap : cmd ≠ .captureReadEnd) (hs : QueueLawful s) (hw : WorkLawful s) :
    InOrder s.queue.entries u := by
  cases h with
  | captureRead hc => exact absurd hc hcap
  | settle => exact (steps_settleExpires s).order
  | recharge =>
    unfold Machine.rechargeExpires
    split
    · exact inOrder_judged_same hs hw (sameWork_setStroke (u := { s.stroke with recharge := .idle, chargeReady := true }) rfl) (.refl _)
    · exact inOrder_self s
  | conversion v _ => exact inOrder_conversionEnds v hs hw
  | supplyRise =>
    unfold supplyRises
    simp only
    split
    · exact inOrder_self s
    · exact inOrder_self s
    · exact inOrder_self s
  | supplyFall => exact inOrder_supplyFalls hs hw
  | rearm =>
    unfold rearmExpires
    split
    · exact inOrder_self s
    · exact inOrder_self s
  | touchInput l high =>
    have hpin : SameWork s (setTouchPin l high s) := ⟨rfl, rfl, rfl, rfl, rfl, rfl, rfl, ⟨rfl, rfl⟩⟩
    unfold touchChanges
    simp only
    split
    · exact inOrder_acceptLevel (s := setTouchPin l high s) l high hs hw
    · exact inOrder_same hpin
  | guardEnd l =>
    unfold guardExpires
    split
    · split
      · exact inOrder_same (sameWork_setTouchLine l _ s)
      · exact inOrder_acceptLevel l _ hs hw
    · exact inOrder_self s
  | holdOffEnd l =>
    unfold holdOffExpires
    split
    · exact inOrder_judged_same hs hw (sameWork_setTouchLine l _ s) (.refl _)
    · exact inOrder_self s
  | claimWarn l => exact inOrder_same (sameWork_claimWarnPoint l s)
  | claimLimit l =>
    unfold claimLimitPoint
    split
    · exact inOrder_judged_same hs hw ((sameWork_claimPassesWarn l s).trans (sameWork_claimExpires l _)) (.refl _)
    · exact inOrder_self s

end

end Sys2Proof.Machine

/-! ### The end of a capture, and the order of the queue over it (R61, R67 to R74, R85; O9) -/

namespace Sys2Proof.Machine

/-! #### What a capture's end stores -/

section
variable {s : State} {a : Assembly} {c : Capture}

theorem keptCleanIf_of_ne {yields : Bool} {r : Segment} (h : r.state ≠ .clean) : r.keptCleanIf yields = r :=
  if_neg fun hc => h hc.1

/-- The record with which a capture's end leaves its segment (R67 to R72, R74, R41). -/
def capturedRecord (a : Assembly) (c : Capture) (d : Descriptor) (r : Segment) : Segment :=
  (if r.state = .capturing then (captureOutcome a c d r).1 else captureMovedOn c d r).keptCleanIf Config.captureGivesWay

/-- The member that a capture's end makes, if it makes one (R71). -/
def capturedMember (a : Assembly) (c : Capture) (d : Descriptor) (r : Segment) : List Member :=
  if r.state = .capturing then (captureOutcome a c d r).2.toList else []

/-- The capture is over: its segment has its record, and the Assembler its member (R67 to R74). -/
def captured (c : Capture) (s : State) : State := keepClean c.seg (captureStore s)

theorem captured_fields (ha : s.asm = some a) (hc : a.capture = some c) :
    (∀ k, (captured c s).seg k = if k = c.seg then capturedRecord a c s.engine.copy (s.seg c.seg) else s.seg k) ∧
    (captured c s).asm = some { a with members := a.members ++ capturedMember a c s.engine.copy (s.seg c.seg), capture := none } ∧
    (captured c s).queue = s.queue ∧ (captured c s).stroke = s.stroke ∧ (captured c s).conv = s.conv ∧
    (captured c s).still = s.still := by
  have hstill : (captured c s).still = s.still := captureStore_still s
  by_cases hr : (s.seg c.seg).state = .capturing
  · have hstore : captureStore s = oweMirror c.seg (setSeg c.seg (captureOutcome a c s.engine.copy (s.seg c.seg)).1
        (setAsm (some { a with members := a.members ++ (captureOutcome a c s.engine.copy (s.seg c.seg)).2.toList, capture := none }) s)) := by
      simp only [captureStore, ha, hc, if_pos hr]
    refine ⟨fun k => ?_, ?_, ?_, ?_, ?_, hstill⟩
    · rw [captured, keepClean, seg_setSeg, hstore, capturedRecord, if_pos hr, oweMirror_seg, oweMirror_seg, seg_setSeg, seg_setSeg, if_pos rfl]
      by_cases hk : k = c.seg
      · rw [if_pos hk, if_pos hk]
      · rw [if_neg hk, if_neg hk, if_neg hk]
        rfl
    · rw [captured, hstore, capturedMember, if_pos hr]
      rfl
    · rw [captured, hstore]; rfl
    · rw [captured, hstore]; rfl
    · rw [captured, hstore]; rfl
  · have hstore : captureStore s = setSeg c.seg (captureMovedOn c s.engine.copy (s.seg c.seg)) (setAsm (some { a with capture := none }) s) := by
      simp only [captureStore, ha, hc, if_neg hr]
    refine ⟨fun k => ?_, ?_, ?_, ?_, ?_, hstill⟩
    · rw [captured, keepClean, seg_setSeg, hstore, capturedRecord, if_neg hr, seg_setSeg, seg_setSeg, if_pos rfl]
      by_cases hk : k = c.seg
      · rw [if_pos hk, if_pos hk]
      · rw [if_neg hk, if_neg hk, if_neg hk]
        rfl
    · rw [captured, hstore, capturedMember, if_neg hr, List.append_nil]
      rfl
    · rw [captured, hstore]; rfl
    · rw [captured, hstore]; rfl
    · rw [captured, hstore]; rfl

theorem captured_marks (k : SegNo) : MarksKept (s.seg k) ((captured c s).seg k) := by
  have hkeep : AllMarksKept s (keepClean c.seg (captureStore s)) := by
    refine (allMarksKept_captureStore s).trans (allMarksKept_setSeg ?_)
    rw [keptCleanIf_marks]
    exact marksKept_state _ _
  exact hkeep k

theorem capturedMember_spec {d : Descriptor} {r : Segment} {m : Member} (h : m ∈ capturedMember a c d r) :
    m.seg = c.seg ∧ (capturedRecord a c d r).state = .member ∧ c.badRead = false := by
  unfold capturedMember at h
  split at h
  · rename_i hr
    have hsome : (captureOutcome a c d r).2 = some m := by simpa using h
    obtain ⟨hseg, hstate⟩ := captureOutcome_member hsome
    refine ⟨hseg, ?_, ?_⟩
    · rw [capturedRecord, if_pos hr, keptCleanIf_of_ne (by rw [hstate]; exact (nomatch ·)), hstate]
    · by_contra hbad
      rw [captureOutcome, if_pos (Bool.not_eq_false _ ▸ hbad)] at hsome
      cases hsome
  · cases h

end

/-! #### The order over a capture's end -/

section
variable {Q : List SegNo} {s : State} {a : Assembly} {c : Capture}

theorem queueable_of_kept {e : Engine} {r u : Segment} (h : MarksKept r u) (hu : queueable e u = true) (hr : r.state.mayQueue = true) :
    queueable e r = true := by
  obtain ⟨hrun, -, hheld, hsuspect⟩ := (queueable_iff e u).1 hu
  exact (queueable_iff e r).2 ⟨hrun, hr, h.1 ▸ hheld, (suspect_of_marks h) ▸ hsuspect⟩

theorem captureEnd_eq (c : Capture) (s : State) : captureEnd c.seg s =
    if ((captured c s).seg c.seg).state = .member ∧ Config.droppedKeepsPlace = true then sync .tail c.seg (judge (walkFromMark (captured c s)))
    else judge (walkFromMark (sync .tail c.seg (captured c s))) := rfl

/-- A capture's end keeps the order of the entries of a list, but for the segment of a member that it makes and that a drive of the same event
rechecks, in a part that judges that member's queue-ability at once (R50, R51, R61, R85; log 30). -/
theorem inOrder_captureEnd (ha : s.asm = some a) (hc : a.capture = some c) (hq : QueueLawful s) (hw : WorkLawful s) (hQ : InOrder Q s)
    (hmay : c.seg ∈ Q → (s.seg c.seg).state.mayQueue = true) (hin : c.badRead = false → c.seg ∈ Q → c.seg ∈ s.queue.entries)
    (hmembers : ∀ m ∈ a.members, m.seg ∉ Q) (hfree : Config.droppedKeepsPlace = true ∨ Blocked s ∨ c.seg ∉ Q) :
    InOrder Q (captureEnd c.seg s) := by
  obtain ⟨x, hx⟩ : ∃ x, x = captured c s := ⟨_, rfl⟩
  obtain ⟨hseg, hasm, hqueue, hstroke, hconv, hstill⟩ := captured_fields ha hc
  have hmarks := captured_marks (c := c) (s := s) c.seg
  have hwork : WorkRuns x := hx ▸ keepClean_work (work_captureStore ⟨hw, runs_of_asm hw ha⟩)
  rw [captureEnd_eq, ← hx]
  rw [← hx] at hseg hasm hqueue hstroke hconv hstill hmarks
  have hother {k : SegNo} (hk : k ≠ c.seg) : x.seg k = s.seg k := by rw [hseg, if_neg hk]
  have hnew {m : Member} (hm : m ∈ capturedMember a c s.engine.copy (s.seg c.seg)) :
      m.seg = c.seg ∧ (x.seg c.seg).state = .member ∧ c.badRead = false := by
    obtain ⟨hmseg, hstate, hgood⟩ := capturedMember_spec hm
    exact ⟨hmseg, by rw [hseg, if_pos rfl, hstate], hgood⟩
  split
  · rename_i hkeeps
    have hordered : Ordered Q x := by
      refine ⟨hwork, hQ.congr (by rw [hqueue]), fun k hk => ?_, fun b hb m hm hmQ => ?_⟩
      · have hne : k ≠ c.seg := fun he => hk (he ▸ hkeeps.1)
        rw [hqueue, still_engine hstill, hother hne]
        exact hq.2 k
      · obtain rfl := Option.some.inj (hasm.symm.trans hb)
        rcases List.mem_append.1 hm with hm | hm
        · exact absurd hmQ (hmembers m hm)
        · obtain ⟨hmseg, -, hgood⟩ := hnew hm
          refine .inr (.inr ?_)
          rw [hqueue, hmseg]
          exact hin hgood (hmseg ▸ hmQ)
    have hjudged := hordered.walk.judge
    refine hjudged.order.sync .tail fun _ hqueueable => (hjudged.judged c.seg fun hmember => ?_).2 hqueueable
    rw [queueable, hmember] at hqueueable
    simp [SegState.mayQueue] at hqueueable
  · rename_i hleaves
    have hlawful : QueueLawful (sync .tail c.seg x) := by
      refine QueueLawfulBut.syncOne ⟨hqueue ▸ hq.1, fun k hk => ?_⟩ .tail
      rw [hqueue, still_engine hstill, hother (by simpa using hk)]
      exact hq.2 k
    have hordered : Ordered Q (sync .tail c.seg x) := by
      refine ⟨workRules.syncs c.seg x hwork, InOrder.sync (hQ.congr (by rw [hqueue])) .tail fun hcQ hqueueable => ?_, fun k _ => hlawful.2 k,
        fun b hb m hm hmQ => ?_⟩
      · rw [still_engine hstill] at hqueueable
        rw [hqueue]
        exact (hq.2 c.seg).2 (queueable_of_kept hmarks hqueueable (hmay hcQ))
      · rw [sync_asm, hasm] at hb
        obtain rfl := Option.some.inj hb
        rcases List.mem_append.1 hm with hm | hm
        · exact absurd hmQ (hmembers m hm)
        · obtain ⟨hmseg, hstate, -⟩ := hnew hm
          rcases hfree with hkeeps | hblocked | hnot
          · exact absurd ⟨hstate, hkeeps⟩ hleaves
          · refine .inr (.inl (hblocked.congr ?_ ?_ ?_ ?_))
            · rw [still_engine (sync_still .tail c.seg x), still_engine hstill]
            · rw [sync_stroke, hstroke]
            · rw [still_gate (sync_still .tail c.seg x), still_gate hstill]
            · rw [sync_conv, hconv]
          · exact absurd (hmseg ▸ hmQ) hnot
    exact hordered.walk.judge.order

end

end Sys2Proof.Machine

/-! ### The order of the queue over a capture's last read (R15, R34, R61, R66; O9) -/

namespace Sys2Proof.Machine

section
variable {s : State} {a : Assembly} {cap : Capture} {buf : Buffer}

/-- The state after a read of a capture, its word taken and its bad bytes marked (R15, R66). -/
def takenRead (s : State) (a : Assembly) (cap : Capture) (buf : Buffer) : State :=
  setAsm (some { a with capture := some (cap.takes (s.mem.word (areaBase s + captureOffset buf cap.seg cap.words.length))
      (badNext s buf cap 0) (badNext s buf cap 1)) })
    (readBytes buf cap.seg cap.words.length (badNext s buf cap 0) (badNext s buf cap 1) (servedPart .read s))

theorem captureReadEnds_last (ha : s.asm = some a) (hc : a.capture = some cap) (hbuf : cap.buffer = buf.shown) (hlen : ¬cap.words.length < 4) :
    captureReadEnds s = captureEnd cap.seg (takenRead s a cap buf) := by
  rw [captureReadEnds_reading ha hc hbuf]
  exact if_neg (by rw [List.length_append, List.length_singleton]; omega)

theorem course_takenRead {cmd : Instr} (ha : s.asm = some a) (hc : a.capture = some cap) : Course cmd s (takenRead s a cap buf) := by
  have hserved := (sameWork_servedPart .read s).course (cmd := cmd)
  have hlow := course_captureByte (cmd := cmd) (s := servedPart .read s) ha hc buf (readCell cap.words.length 0) (badNext s buf cap 0)
  have hasm := captureByte_asm buf cap.seg (readCell cap.words.length 0) (badNext s buf cap 0) (servedPart .read s)
  have hhigh := course_captureByte (cmd := cmd) (hasm.trans ha) hc buf (readCell cap.words.length 1) (badNext s buf cap 1)
  have hread := byteRead_readBytes (buf := buf) (i := cap.seg) (j := cap.words.length) (lo := badNext s buf cap 0) (hi := badNext s buf cap 1)
    (s := servedPart .read s)
  exact ((hserved.trans hlow).trans hhigh).act (.read (hread.asm.trans ha) hc _ rfl rfl)

theorem takenRead_state (k : SegNo) : ((takenRead s a cap buf).seg k).state = (s.seg k).state := by
  by_cases hk : k = cap.seg
  · subst hk
    have hread := readBytes_seg buf cap.seg cap.words.length (badNext s buf cap 0) (badNext s buf cap 1) (servedPart .read s)
    have hstate := congrArg Segment.state hread
    exact hstate
  · have hother : (takenRead s a cap buf).seg k = s.seg k :=
      readBytes_seg_other buf cap.seg cap.words.length (badNext s buf cap 0) (badNext s buf cap 1) (servedPart .read s) hk
    rw [hother]

/-- A mark set makes nothing queue-able. -/
theorem queueable_of_mark {e : Engine} {r : Segment} {k : Fin 10} (h : queueable e (r.mark buf k true) = true) : queueable e r = true := by
  obtain ⟨hrun, hmay, hheld, hsuspect⟩ := (queueable_iff e _).1 h
  have hne : e.shown ≠ buf.shown := by
    intro hshown
    have hbit : (maskOf buf (r.mark buf k true)).getLsbD k.val = true := by
      rw [maskOf_mark_self, putMark_getLsbD, if_pos rfl]
    have hzero : maskOf buf (r.mark buf k true) = 0 := by
      rw [hshown] at hsuspect
      cases buf with
      | a => simpa [suspect, Buffer.shown, maskOf] using hsuspect
      | b => simpa [suspect, Buffer.shown, maskOf] using hsuspect
    rw [hzero] at hbit
    simp at hbit
  rw [suspect_mark true hne] at hsuspect
  refine (queueable_iff e r).2 ⟨hrun, ?_, ?_, hsuspect⟩
  · cases buf with
    | a => exact hmay
    | b => exact hmay
  · cases buf with
    | a => exact hheld
    | b => exact hheld

theorem inOrder_captureByte {Q : List SegNo} {i : SegNo} (k : Fin 10) (bad : Bool) (hs : QueueLawful s) (h : InOrder Q s) :
    InOrder Q (captureByte buf i k bad s) := by
  unfold captureByte
  split
  · have hput : InOrder Q (putSeg .tail i ((s.seg i).mark buf k true) s) := by
      refine InOrder.sync (s := setSeg i ((s.seg i).mark buf k true) s) h .tail fun _ hqueueable => ?_
      rw [seg_setSeg_self] at hqueueable
      exact (hs.2 i).2 (queueable_of_mark hqueueable)
    exact (hput.then (sameWork_post _ _ _)).then (sameWork_raise _ _)
  · exact h

theorem inOrder_takenRead (ha : s.asm = some a) (hc : a.capture = some cap) (hs : QueueLawful s) :
    InOrder s.queue.entries (takenRead s a cap buf) := by
  have hlow := course_captureByte (cmd := .captureReadEnd) (s := servedPart .read s) ha hc buf (readCell cap.words.length 0) (badNext s buf cap 0)
  have hserved : QueueLawful (servedPart .read s) := hs
  exact inOrder_captureByte _ _ (hlow.keeps (fun _ _ hu h => h.queue hu) hserved) (inOrder_captureByte _ _ hserved (inOrder_self s))

/-- The end of a capture's read keeps the order of the entries that a filter leaves, which is to leave out the segment under capture where
a drive of the same event may recheck it, in a part that judges it at once (log 30). -/
theorem inOrder_captureReadEnds (hs : QueueLawful s) (hw : WorkLawful s) (stays : SegNo → Bool)
    (hstays : ∀ i, underCapture s i = true → Config.droppedKeepsPlace = true ∨ Blocked s ∨ stays i = false) :
    InOrder (s.queue.entries.filter stays) (captureReadEnds s) := by
  by_cases hreads : ∃ a cap buf, s.asm = some a ∧ a.capture = some cap ∧ cap.buffer = Buffer.shown buf
  · obtain ⟨a, cap, buf, ha, hc, hbuf⟩ := hreads
    have htaken : InOrder (s.queue.entries.filter stays) (takenRead s a cap buf) := (inOrder_takenRead ha hc hs).part stays
    by_cases hlen : cap.words.length < 4
    · rw [captureReadEnds_more ha hc hbuf hlen]
      exact htaken
    · have hcourse := course_takenRead (cmd := .captureReadEnd) (buf := buf) ha hc
      have hin {i : SegNo} (hi : i ∈ s.queue.entries.filter stays) : i ∈ s.queue.entries := (List.mem_filter.1 hi).1
      have hmay {i : SegNo} (hi : i ∈ s.queue.entries.filter stays) : (s.seg i).state.mayQueue = true :=
        ((queueable_iff _ _).1 ((hs.2 i).1 (hin hi))).2.1
      have hread := byteRead_readBytes (buf := buf) (i := cap.seg) (j := cap.words.length) (lo := badNext s buf cap 0)
        (hi := badNext s buf cap 1) (s := servedPart .read s)
      rw [captureReadEnds_last ha hc hbuf hlen]
      refine inOrder_captureEnd (c := cap.takes (s.mem.word (areaBase s + captureOffset buf cap.seg cap.words.length))
          (badNext s buf cap 0) (badNext s buf cap 1)) rfl rfl (hcourse.keeps (fun _ _ hu h => h.queue hu) hs)
        (hcourse.keeps (fun _ _ hu h => h.work hu) hw) htaken (fun hi => ?may) (fun hgood hi => ?good) (fun m hm hi => ?members) ?free
      case may =>
        rw [takenRead_state]
        exact hmay hi
      case good =>
        have hbits : (cap.badRead || badNext s buf cap 0 || badNext s buf cap 1) = false := hgood
        obtain ⟨hbits', hhigh⟩ := Bool.or_eq_false_iff.1 hbits
        obtain ⟨-, hlow⟩ := Bool.or_eq_false_iff.1 hbits'
        rw [takenRead, hlow, hhigh, readBytes_good]
        exact hin hi
      case members =>
        have hstate := (hw.1 a ha).2.1 m hm
        have hqueued := hmay hi
        rw [hstate] at hqueued
        cases hqueued
      case free =>
        have hunder : underCapture s cap.seg = true := by simp [underCapture, ha, hc]
        refine (hstays cap.seg hunder).imp id (Or.imp (fun hblocked => ?_) fun hout hmem => ?_)
        · exact hblocked.congr hread.engine hread.stroke hread.gate (congrArg Converter.job hread.conv)
        · have hstay : stays cap.seg = true := (List.mem_filter.1 hmem).2
          rw [hout] at hstay
          cases hstay
  · have habandoned : captureReadEnds s = abandonedRead s := by
      refine captureReadEnds_abandoned fun a cap ha hc => ?_
      cases hb : cap.buffer with
      | none => rfl
      | a => exact absurd ⟨a, cap, .a, ha, hc, hb⟩ hreads
      | b => exact absurd ⟨a, cap, .b, ha, hc, hb⟩ hreads
    rw [habandoned, abandonedRead]
    split
    · exact (inOrder_self s).part stays
    · exact (inOrder_self s).part stays

end

end Sys2Proof.Machine

/-! ### The order of the queue over the two bytes of a page buffer write (R4, R31, R32, R61; O9) -/

namespace Sys2Proof.Machine

/-! #### A segment that waits for a capture does not turn CLEAN by new work -/

/-- While a buffer is shown, a segment is not CLEAN. -/
def ShownUnclean (i : SegNo) (s : State) : Prop := s.engine.shown ≠ .none ∧ (s.seg i).state ≠ .clean

section
variable {i : SegNo} {s t : State}

theorem ShownUnclean.put {k : SegNo} {r : Segment} (h : ShownUnclean i s) (hstill : t.still = s.still)
    (hseg : ∀ j, t.seg j = if j = k then r else s.seg j) (hr : r.state ≠ .clean) : ShownUnclean i t := by
  refine ⟨by rw [still_engine hstill]; exact h.1, ?_⟩
  rw [hseg]
  split
  · exact hr
  · exact h.2

theorem ShownUnclean.same (h : ShownUnclean i s) (hstill : t.still = s.still) (hsegs : t.segs = s.segs) : ShownUnclean i t := by
  refine ⟨by rw [still_engine hstill]; exact h.1, ?_⟩
  rw [State.seg, hsegs]
  exact h.2

theorem ShownUnclean.setStates {st : SegState} (h : ShownUnclean i s) (hst : st ≠ .clean) (is : List SegNo) :
    ShownUnclean i (Machine.setStates st is s) := by
  refine ⟨by rw [setStates_engine]; exact h.1, ?_⟩
  rw [setStates_seg]
  split
  · exact hst
  · exact h.2

theorem ShownUnclean.driveStart (h : ShownUnclean i s) : ShownUnclean i (Machine.driveStart s) := by
  unfold Machine.driveStart
  split
  · exact h
  · rename_i a _
    have hout : ShownUnclean i (syncHead ((a.members.filter (dropped s)).map Member.seg)
        (Machine.setStates .stale ((a.members.filter (dropped s)).map Member.seg) (setAsm none s))) :=
      (ShownUnclean.setStates (s := setAsm none s) (st := .stale) h (nomatch ·) _).same (syncHead_still _ _) (syncHead_segs _ _)
    simp only
    split
    · exact hout
    · exact (hout.setStates (st := .moving) (nomatch ·) _).same (syncTail_still _ _) (syncTail_segs _ _)

theorem ShownUnclean.startSense {k : SegNo} (h : ShownUnclean i s) : ShownUnclean i (Machine.startSense k s) := by
  unfold Machine.startSense
  simp only
  split
  · exact h
  · exact h.put ((grant_still _ _).trans ((oweMirror_still _ _).trans (putSeg_still _ _ _ _))) (fun j => putSeg_seg _ _ _ _ _) (nomatch ·)

theorem ShownUnclean.startWalk (h : ShownUnclean i s) : ShownUnclean i (Machine.startWalk s) :=
  walkOn_induct (ShownUnclean i) (fun u a _ hu => hu.same (walkEnd_still a u) (walkEnd_segs a u)) (fun _ _ _ _ _ _ hu => hu)
    (fun u _ k rest _ _ _ hu => ShownUnclean.put (s := setQueue (u.queue.passMark k rest) u) hu (captureStart_still k _)
      (fun j => captureStart_seg k j _) (nomatch ·))
    (fun _ _ _ _ _ _ _ hn hu => absurd hn hu.1) _ _ h

theorem ShownUnclean.judge (h : ShownUnclean i s) : ShownUnclean i (Machine.judge s) :=
  judge_induct (ShownUnclean i) (fun _ _ hu => hu.driveStart) (fun _ _ hu => hu.startWalk)
    (fun u k _ _ _ hu => ShownUnclean.put hu (startSweep_still k u) (fun _ => putSeg_seg _ _ _ _ _) (nomatch ·))
    (fun _ _ _ _ hu => hu.startSense) s h

end

/-! #### A cell's mark and the queue -/

section
variable {e : Engine} {r : Segment} {buf : Buffer} {k : Fin 10} {bad : Bool}

theorem suspect_maskOf (h : e.shown = buf.shown) (r : Segment) : suspect e.shown r = (maskOf buf r != 0) := by
  rw [h]
  cases buf with
  | a => rfl
  | b => rfl

theorem maskOf_written (r : Segment) (shown : Shown) (buf : Buffer) (k j : Fin 10) (bad : Bool) :
    (maskOf buf (r.cellWrite shown buf k bad)).getLsbD j.val = if j = k then bad else (maskOf buf r).getLsbD j.val := by
  rw [maskOf_cellWrite, maskOf_mark_self, putMark_getLsbD]

theorem cellSet_zero {m : CellSet} (h : ∀ j : Fin 10, m.getLsbD j.val = false) : m = 0 :=
  BitVec.eq_of_getLsbD_eq fun j hj => (h ⟨j, hj⟩).trans (BitVec.getLsbD_zero).symm

theorem cellWrite_held (r : Segment) (shown : Shown) (buf : Buffer) (k : Fin 10) (bad : Bool) : (r.cellWrite shown buf k bad).held = r.held := by
  unfold Segment.cellWrite
  simp only
  split
  · rw [Segment.touchContent_marks, Segment.mark_marks]
  · rw [Segment.mark_marks]

/-- A write to a buffer that is not shown changes no segment's queue-ability. -/
theorem queueable_hidden (h : e.shown ≠ buf.shown) : queueable e (r.cellWrite e.shown buf k bad) = queueable e r := by
  have hmark : r.cellWrite e.shown buf k bad = r.mark buf k bad := if_neg h
  rw [hmark, queueable, queueable, suspect_mark bad h, r.state_mark, Segment.mark_marks]

/-- A write that leaves a segment queue-able leaves it so from one that was queue-able, unless the write takes away its last mark or
its CLEAN. -/
theorem queueable_of_written (hshown : e.shown = buf.shown) (h : queueable e (r.cellWrite e.shown buf k bad) = true)
    (hstate : r.state ≠ .clean) (hbit : (maskOf buf r).getLsbD k.val = false) : queueable e r = true := by
  obtain ⟨hrun, hmay, hheld, hsuspect⟩ := (queueable_iff e _).1 h
  refine (queueable_iff e r).2 ⟨hrun, ?_, by rwa [cellWrite_held] at hheld, ?_⟩
  · have hkept : (r.cellWrite e.shown buf k bad).state = r.state := by
      rw [Segment.cellWrite, if_pos hshown]
      by_cases hf : (r.mark buf k bad).state = .faulted
      · rw [touchContent_faulted hf, r.state_mark]
      · rw [touchContent_of_ne hf]
        exact (if_neg (by rwa [r.state_mark])).trans (r.state_mark _ _ _)
    rwa [hkept] at hmay
  · rw [suspect_maskOf hshown, bne_eq_false_iff_eq] at hsuspect ⊢
    refine cellSet_zero fun j => ?_
    have hj := maskOf_written r e.shown buf k j bad
    rw [hsuspect] at hj
    by_cases hjk : j = k
    · rw [hjk]
      exact hbit
    · rw [if_neg hjk] at hj
      exact hj.symm.trans BitVec.getLsbD_zero

end

/-! #### One byte -/

section
variable {Q : List SegNo} {s t : State} {buf : Buffer} {cell : Fin 960} {bad : Bool}

theorem Ordered.of_firm (h : Ordered Q s) (hf : t.firm = s.firm) (ht : WorkRuns t) : Ordered Q t := by
  have hsame : SameWork s t := .of_firm hf
  have hseg : ∀ k, t.seg k = s.seg k := hsame.seg
  refine ⟨ht, h.order.then hsame, fun k hk => ?_, fun a ha m hm hmQ => ?_⟩
  · rw [hsame.queue, hseg, queueable_congr hsame.runs hsame.shown]
    exact h.judged k (by rwa [← hseg])
  · rw [hsame.asm] at ha
    rw [hsame.shown, hsame.queue, dropped_congr (hseg m.seg) hsame.shown (congrArg Firm.claims hf) (congrArg Firm.touch hf)]
    refine (h.members a ha m hm hmQ).imp id (Or.imp (fun hblocked => ?_) id)
    rintro ⟨hstate, hdriven, hready, hgate, hjob⟩
    exact hblocked ⟨(congrArg Firm.engineState hf).symm.trans hstate, hsame.driven.symm.trans hdriven,
      (congrArg (fun f => f.stroke.chargeReady) hf).symm.trans hready, (congrArg (fun f => f.gate.state) hf).symm.trans hgate,
      hsame.conv ▸ hjob⟩

/-- The record of a cell's segment after a report of that cell. -/
def cellWritten (buf : Buffer) (cell : Fin 960) (bad : Bool) (s : State) : State :=
  putSeg .tail (segOfCell cell) ((s.seg (segOfCell cell)).cellWrite s.engine.shown buf (cellInSeg cell) bad) s

theorem cellByte_eq (hr : queuesRun s.engine = true) (buf : Buffer) (cell : Fin 960) (bad : Bool) :
    cellByte buf cell bad s = closeEvent s (judge (cellWritten buf cell bad (reportParity buf cell bad s))) := by
  have hreport : queuesRun (reportParity buf cell bad s).engine = true := (sameWork_reportParity buf cell bad s).runs.trans hr
  rw [cellByte, takeReport, if_pos hreport]
  rfl

theorem reportParity_firm (buf : Buffer) (cell : Fin 960) (bad : Bool) (s : State) : (reportParity buf cell bad s).firm = s.firm := by
  unfold reportParity
  split
  · rfl
  · rfl

theorem work_cellWritten (h : WorkRuns s) : WorkRuns (cellWritten buf cell bad s) :=
  ⟨(Act.written (cmd := .lagWarnPoint) buf (cellInSeg cell) bad (segOfCell cell) h.runs).work h.work, (putSeg_engine _ _ _ _).symm ▸ h.runs⟩

/-- A report of a cell keeps an order, if it does not return a segment of the list to the queue. -/
theorem Ordered.cellWritten (h : Ordered Q s) (hq : QueueLawful s) (hi : segOfCell cell ∈ Q →
    queueable s.engine ((s.seg (segOfCell cell)).cellWrite s.engine.shown buf (cellInSeg cell) bad) = true →
      segOfCell cell ∈ s.queue.entries) : Ordered Q (Machine.cellWritten buf cell bad s) := by
  have hlawful : QueueLawful (Machine.cellWritten buf cell bad s) := hq.putSeg _ _ _
  have hseg (k : SegNo) : (Machine.cellWritten buf cell bad s).seg k = if k = segOfCell cell then
      (s.seg (segOfCell cell)).cellWrite s.engine.shown buf (cellInSeg cell) bad else s.seg k := putSeg_seg _ _ _ _ _
  refine ⟨work_cellWritten h.toWorkRuns, ?_, fun k _ => hlawful.2 k, fun a ha m hm hmQ => ?_⟩
  · refine InOrder.sync (s := setSeg _ _ s) h.order .tail fun hQ hqueueable => hi hQ ?_
    rwa [seg_setSeg_self] at hqueueable
  · have ha' : s.asm = some a := (putSeg_asm _ _ _ _).symm.trans ha
    rcases h.members a ha' m hm hmQ with ⟨hnone, hdropped⟩ | hblocked | hqueued
    · refine .inl ⟨(congrArg Engine.shown (putSeg_engine _ _ _ _)).trans hnone, ?_⟩
      have hne : s.engine.shown ≠ buf.shown := by
        rw [hnone]
        cases buf with
        | a => exact (nomatch ·)
        | b => exact (nomatch ·)
      have hmark (r : Segment) : r.cellWrite s.engine.shown buf (cellInSeg cell) bad = r.mark buf (cellInSeg cell) bad := if_neg hne
      have hdrop : dropped (Machine.cellWritten buf cell bad s) m = dropped s m := by
        have hstill : (Machine.cellWritten buf cell bad s).still = s.still := putSeg_still _ _ _ _
        have hheld : ((Machine.cellWritten buf cell bad s).seg m.seg).held = (s.seg m.seg).held ∧
            suspect s.engine.shown ((Machine.cellWritten buf cell bad s).seg m.seg) = suspect s.engine.shown (s.seg m.seg) ∧
            ((Machine.cellWritten buf cell bad s).seg m.seg).dirty = (s.seg m.seg).dirty := by
          rw [hseg]
          split
          · rename_i hk
            rw [hk, hmark, suspect_mark bad hne, Segment.mark_marks]
            exact ⟨rfl, rfl, rfl⟩
          · exact ⟨rfl, rfl, rfl⟩
        obtain ⟨hh, hsus, hdirty⟩ := hheld
        simp only [dropped, claimed, shielded, State.claim, State.touchLine, still_engine hstill, still_claims hstill, still_touch hstill, hh,
          hsus, hdirty]
      exact hdrop.trans hdropped
    · exact .inr (.inl (hblocked.congr (putSeg_engine _ _ _ _) (putSeg_stroke _ _ _ _) (putSeg_gate _ _ _ _)
        (congrArg Converter.job (putSeg_conv _ _ _ _))))
    · obtain ⟨-, hstate, -⟩ := h.work.1 a ha'
      exact absurd (hstate m hm) (mem_state_of_entry hq hqueued)

theorem Ordered.cellByte (h : Ordered Q s) (hq : QueueLawful s) (hi : segOfCell cell ∈ Q →
    queueable s.engine ((s.seg (segOfCell cell)).cellWrite s.engine.shown buf (cellInSeg cell) bad) = true →
      segOfCell cell ∈ s.queue.entries) : Ordered Q (Machine.cellByte buf cell bad s) := by
  have hreport : (reportParity buf cell bad s).firm = s.firm := reportParity_firm buf cell bad s
  have hsame : SameWork s (reportParity buf cell bad s) := .of_firm hreport
  have hworked : WorkRuns (reportParity buf cell bad s) :=
    ⟨hsame.course (cmd := .lagWarnPoint) |>.keeps (fun _ _ hu ha => ha.work hu) h.work, hsame.runs.trans h.runs⟩
  have hqueue : QueueLawful (reportParity buf cell bad s) := hsame.course (cmd := .lagWarnPoint) |>.keeps (fun _ _ hu ha => ha.queue hu) hq
  have hstart : Ordered Q (reportParity buf cell bad s) := h.of_firm hreport hworked
  have hwritten : Ordered Q (Machine.cellWritten buf cell bad (reportParity buf cell bad s)) := by
    refine hstart.cellWritten hqueue fun hQ hqueueable => ?_
    rw [queueable_congr hsame.runs hsame.shown, hsame.seg, hsame.shown] at hqueueable
    rw [hsame.queue]
    exact hi hQ hqueueable
  have hjudged := hwritten.judge
  rw [cellByte_eq h.runs]
  have hclosed := sameWork_closeEvent s (Machine.judge (Machine.cellWritten buf cell bad (reportParity buf cell bad s)))
  exact hjudged.of_firm (closeEvent_firm s _)
    ⟨hclosed.course (cmd := .lagWarnPoint) |>.keeps (fun _ _ hu ha => ha.work hu) hjudged.work, hclosed.runs.trans hjudged.runs⟩

/-- What one byte makes of a segment's marks of its buffer. -/
theorem cellByte_mask (hr : queuesRun s.engine = true) (i : SegNo) (j : Fin 10) :
    (maskOf buf ((cellByte buf cell bad s).seg i)).getLsbD j.val =
      if i = segOfCell cell ∧ j = cellInSeg cell then bad else (maskOf buf (s.seg i)).getLsbD j.val := by
  obtain ⟨v, hv⟩ : ∃ v, v = reportParity buf cell bad s := ⟨_, rfl⟩
  have hsame : SameWork s v := hv ▸ sameWork_reportParity buf cell bad s
  obtain ⟨-, hA, hB, -, -, -, -⟩ := allMarksKept_judge (cellWritten buf cell bad v) i
  have hmask : maskOf buf ((cellByte buf cell bad s).seg i) = maskOf buf ((cellWritten buf cell bad v).seg i) := by
    rw [cellByte_eq hr, ← hv, (sameWork_closeEvent s _).seg]
    cases buf with
    | a => exact hA
    | b => exact hB
  rw [hmask, cellWritten, putSeg_seg]
  split
  · rename_i hi
    subst hi
    rw [maskOf_written, hsame.seg]
    simp
  · rename_i hi
    rw [hsame.seg, if_neg fun h => hi h.1]

theorem cellByte_unclean (hr : queuesRun s.engine = true) {i : SegNo} (h : ShownUnclean i s) : ShownUnclean i (cellByte buf cell bad s) := by
  obtain ⟨v, hv⟩ : ∃ v, v = reportParity buf cell bad s := ⟨_, rfl⟩
  have hsame : SameWork s v := hv ▸ sameWork_reportParity buf cell bad s
  have hwritten : ShownUnclean i (cellWritten buf cell bad v) := by
    refine ⟨by rw [cellWritten, putSeg_engine, hsame.shown]; exact h.1, ?_⟩
    rw [cellWritten, putSeg_seg]
    split
    · rename_i hi
      have hstate := h.2
      rw [← hsame.seg, hi] at hstate
      unfold Segment.cellWrite
      simp only
      split
      · by_cases hf : ((v.seg (segOfCell cell)).mark buf (cellInSeg cell) bad).state = .faulted
        · rw [touchContent_faulted hf, hf]
          exact (nomatch ·)
        · rw [touchContent_of_ne hf, Segment.state_mark]
          exact fun hclean => hstate (by rwa [if_neg hstate] at hclean)
      · rwa [Segment.state_mark]
    · rw [hsame.seg]
      exact h.2
  have hclosed := sameWork_closeEvent s (judge (cellWritten buf cell bad v))
  rw [cellByte_eq hr, ← hv]
  refine ⟨?_, ?_⟩
  · rw [hclosed.shown]
    exact hwritten.judge.1
  · rw [hclosed.seg]
    exact hwritten.judge.2

end

end Sys2Proof.Machine

/-! ### The law of the queue is kept, and its order (R40, R47 to R61; O9) -/

namespace Sys2Proof.Machine

section
variable {s : State} {buf : Buffer} {cell other : Fin 960} {bad bad' : Bool}

theorem cell_ext {c d : Fin 960} (hseg : segOfCell c = segOfCell d) (hcell : cellInSeg c = cellInSeg d) : c = d := by
  simp only [segOfCell, cellInSeg, Fin.mk.injEq] at hseg hcell
  omega

/-- The record of an entry's segment at another cell's report does not return it to the queue. -/
theorem entry_after_byte (hq : QueueLawful s) (hr : queuesRun s.engine = true) (hne : cell ≠ other)
    (hi : segOfCell other ∈ s.queue.entries) (h : queueable (cellByte buf cell bad s).engine
      (((cellByte buf cell bad s).seg (segOfCell other)).cellWrite (cellByte buf cell bad s).engine.shown buf (cellInSeg other) bad') = true) :
    segOfCell other ∈ (cellByte buf cell bad s).queue.entries := by
  have hcourse := course_cellByte (cmd := .lagWarnPoint) buf cell bad s
  have hlawful : QueueLawful (cellByte buf cell bad s) := hcourse.keeps (fun _ _ hu ha => ha.queue hu) hq
  refine (hlawful.2 _).2 ?_
  by_cases hshown : (cellByte buf cell bad s).engine.shown = buf.shown
  · have hkept : (cellByte buf cell bad s).engine.shown = s.engine.shown := by
      rw [cellByte_eq hr, (sameWork_closeEvent s _).shown, judge_engine, cellWritten, putSeg_engine, (sameWork_reportParity buf cell bad s).shown]
    obtain ⟨-, hmay, -, hsuspect⟩ := (queueable_iff _ _).1 ((hq.2 _).1 hi)
    have hunclean : ShownUnclean (segOfCell other) s := by
      refine ⟨?_, fun hclean => ?_⟩
      · rw [← hkept, hshown]
        cases buf with
        | a => exact (nomatch ·)
        | b => exact (nomatch ·)
      · rw [hclean] at hmay
        cases hmay
    rw [suspect_maskOf (hkept ▸ hshown), bne_eq_false_iff_eq] at hsuspect
    refine queueable_of_written hshown h (cellByte_unclean hr hunclean).2 ?_
    rw [cellByte_mask hr, if_neg fun hsame => hne (cell_ext hsame.1.symm hsame.2.symm), hsuspect]
    exact BitVec.getLsbD_zero
  · rwa [queueable_hidden hshown] at h

/-- Two bytes written keep the order of the entries. -/
theorem inOrder_pageWrite (hs : QueueLawful s) (hw : WorkLawful s) (buf : Buffer) (word : Fin 480) (w : HostWrite) :
    InOrder s.queue.entries (pageWrite buf word w s) := by
  cases hr : queuesRun s.engine with
  | false => exact inOrder_idle hs hr
  | true =>
    obtain ⟨u, hu⟩ : ∃ u, u = forwardArea (buf.offset + 2 * word.val) w s := ⟨_, rfl⟩
    have hsame : SameWork s u := hu ▸ sameWork_forwardArea _ w s
    have hcourse := hsame.course (cmd := .lagWarnPoint)
    have hlawful : QueueLawful u := hcourse.keeps (fun _ _ hv ha => ha.queue hv) hs
    have hruns : WorkRuns u := ⟨hcourse.keeps (fun _ _ hv ha => ha.work hv) hw, hsame.runs.trans hr⟩
    have hstart : Ordered s.queue.entries u := by
      refine ⟨hruns, inOrder_same hsame, fun k _ => hlawful.2 k, fun a ha m hm hQ => ?_⟩
      obtain ⟨-, hstate, -⟩ := hw.1 a (hsame.asm ▸ ha)
      exact absurd (hstate m hm) (mem_state_of_entry hs hQ)
    have hone (cell : Fin 960) (bad : Bool) : Ordered s.queue.entries (cellByte buf cell bad u) :=
      hstart.cellByte hlawful fun hQ _ => hsame.queue.symm ▸ hQ
    have htwo (bad bad' : Bool) : Ordered s.queue.entries (cellByte buf (wordCell word 1) bad' (cellByte buf (wordCell word 0) bad u)) := by
      refine (hone _ bad).cellByte ((course_cellByte (cmd := .lagWarnPoint) buf _ bad u).keeps (fun _ _ hv ha => ha.queue hv) hlawful)
        fun hQ => entry_after_byte hlawful hruns.runs (fun he => ?_) (hsame.queue.symm ▸ hQ)
      simp [wordCell] at he
    unfold pageWrite
    rw [← hu]
    simp only
    split
    · exact hstart.order
    · cases w.enLow with
      | true =>
        cases w.enHigh with
        | true => exact (htwo _ _).order
        | false => exact (hone _ _).order
      | false =>
        cases w.enHigh with
        | true => exact (hone _ _).order
        | false => exact hstart.order

end

/-! #### Every command -/

section
variable {cmd : Instr} {s t : State}

theorem inOrder_descriptorReadEnds (hs : QueueLawful s) : InOrder s.queue.entries (descriptorReadEnds s) := by
  unfold descriptorReadEnds
  split
  · rename_i hstate hl
    exact inOrder_idle hs (by simp [queuesRun, hstate, hl])
  · exact (inOrder_self s).congr (by rw [abandonedRead]; split <;> rfl)

theorem inOrder_driveExpiry (s : State) : InOrder s.queue.entries (closePosts s (driveExpires s)) := by
  refine ((inOrder_self s).congr ?_).then (.of_shape (closePosts_shape s _))
  unfold driveExpires
  split
  · rfl
  · split
    · rfl
    · rfl

theorem inOrder_ringConsumerWrite (w : HostWrite) : InOrder s.queue.entries (ringConsumerWrite w s) := by
  have hstored : SameWork s (forwardArea ringConsumerOffset w s) := sameWork_forwardArea ringConsumerOffset w s
  unfold ringConsumerWrite
  simp only
  split
  · refine InOrder.then ?_ (.of_shape (postPending_shape _))
    unfold offerConsumer
    split
    · exact (inOrder_same hstored).congr rfl
    · exact inOrder_same (hstored.trans (sameWork_raise _ _))
  · exact inOrder_same hstored

theorem inOrder_claimWrite (hs : QueueLawful s) (hw : WorkLawful s) (l : LineNo) (w : HostWrite) :
    InOrder s.queue.entries (claimWrite l w s) := by
  have hstored : SameWork s (forwardArea (claimOffset l) w s) := sameWork_forwardArea (claimOffset l) w s
  unfold claimWrite
  split
  · exact inOrder_same hstored
  · split
    · simp only
      split
      · unfold releaseClaim
        split
        · exact inOrder_judged_same hs hw (hstored.trans (sameWork_setClaim l _ _)) (sameWork_closeEvent _ _)
        · exact inOrder_same hstored
      · exact inOrder_same hstored
    · exact inOrder_same (sameWork_dropWrite _ s)

/-- Every command but a write to a command word, a PROMOTE and a capture's read keeps the order of the entries. -/
theorem Meaning.inOrder (h : Meaning cmd s t) (hcap : cmd ≠ .captureReadEnd) (hre : ¬Reorders cmd) (hs : QueueLawful s) (hw : WorkLawful s) :
    InOrder s.queue.entries t := by
  cases h with
  | reset strap => exact inOrder_empty rfl
  | forward addr w h => exact inOrder_same (sameWork_forwardAddr _ w s)
  | read a lo hi => exact inOrder_same (sameWork_readAddr a lo hi s)
  | page buf word w => exact inOrder_pageWrite hs hw buf word w
  | owned p w => exact inOrder_same (sameWork_ownedWrite _ w s)
  | eventSet w => exact inOrder_same (.of_shape (s := s) (t := eventSetWrite w s) (by simp [eventSetWrite]))
  | eventClear w => exact inOrder_same (.of_shape (s := s) (t := eventClearWrite w s) (by simp [eventClearWrite]))
  | argument w => exact inOrder_same ((sameWork_forwardArea _ w s).trans (sameWork_setBus _ _))
  | enable w => exact inOrder_same ((sameWork_forwardArea _ w s).trans (sameWork_setBus _ _))
  | ringConsumer w => exact inOrder_ringConsumerWrite w
  | claimRead l lo hi => exact inOrder_same (sameWork_claimRead l lo hi s)
  | claimWrite l w => exact inOrder_claimWrite hs hw l w
  | commandWord w => exact inOrder_same (sameWork_forwardArea _ w s)
  | command w t h =>
    have hstored := sameWork_forwardArea commandOffset w s
    have hcourse := hstored.course (cmd := .lagWarnPoint)
    have htaken := h.inOrder hre (hcourse.keeps (fun _ _ hv ha => ha.queue hv) hs) (hcourse.keeps (fun _ _ hv ha => ha.work hv) hw)
    rwa [hstored.queue] at htaken
  | drain => exact inOrder_same (sameWork_drainHead s)
  | descriptorRead => exact inOrder_descriptorReadEnds hs
  | driveExpiry => exact inOrder_driveExpiry s
  | event u h => exact (h.inOrder hcap hs hw).closed s
  | lagWarn => exact inOrder_same ((sameWork_lagWarns s).trans (.of_shape (postPending_shape _)))
  | lagLimit => exact inOrder_same ((sameWork_lagLimits s).trans (.of_shape (postPending_shape _)))
  | duration => exact inOrder_same (sameWork_durationExpires s)
  | period => exact inOrder_same (sameWork_periodEnds s)

end

/-- Settles O9: every act keeps the law, and every command but a PROMOTE and a write to the command word keeps the order of the entries that
stay, but for that of a segment whose capture's read a drive of the same event rechecks. -/
theorem queueLawKept : Obligations.QueueLawKept := by
  refine ⟨fun s t => step_queueLawful, fun c s t hs hw hpromote hbad hforward ht => ?_⟩
  have hre : ¬Reorders c := by
    rintro (⟨k, hk⟩ | ⟨code, k, hk⟩ | ⟨addr, access, hk⟩)
    · exact hpromote k hk
    · exact hbad code k hk
    · exact hforward addr access hk
  intro stays
  have horder : InOrder (s.queue.entries.filter stays) t := by
    by_cases hcap : c = .captureReadEnd
    · subst hcap
      obtain rfl : closeEvent s (captureReadEnds s) = t := Host.Outcome.next.inj ht
      refine (inOrder_captureReadEnds hs hw stays fun i hunder => ?_).closed s
      by_cases hkeeps : Config.droppedKeepsPlace = true
      · exact .inl hkeeps
      · by_cases hfree : s.engine.state = .running ∧ DriveFree s
        · exact .inr (.inr (by simp [stays, hkeeps, hfree, hunder]))
        · exact .inr (.inl hfree)
    · exact ((exec_meaning ht).inOrder hcap hre hs hw).part stays
  have hmeet := filter_of_inOrder (hs.1.filter stays) horder
  rw [List.filter_filter] at hmeet
  refine Eq.trans (List.filter_congr fun i _ => ?_) (hmeet.trans (List.filter_congr fun i _ => ?_))
  · exact Bool.and_comm _ _
  · simp [List.mem_filter, Bool.and_comm]

end Sys2Proof.Machine

/-! ### New work and the end of an event do not ask for memory or for the port's turns (R9, R63, R84, R112; O23) -/

namespace Sys2Proof.Machine

/-- A state with another memory, and with another state of the memory port. -/
def ported (m : Memory) (b : Arbiter) (s : State) : State := { s with mem := m, bus := { s.bus with arbiter := b } }

section
variable (m : Memory) (b : Arbiter)

theorem foldl_ported {α : Type} {f : State → α → State} (hf : ∀ u x, f (ported m b u) x = ported m b (f u x)) (l : List α) (s : State) :
    l.foldl f (ported m b s) = ported m b (l.foldl f s) := by
  induction l generalizing s with
  | nil => rfl
  | cons x l ih => rw [List.foldl_cons, List.foldl_cons, hf, ih]

/-! #### Walks -/

theorem sync_ported (e : QueueEnd) (i : SegNo) (s : State) : sync e i (ported m b s) = ported m b (sync e i s) := by
  rw [sync, sync, apply_ite (ported m b), apply_ite (ported m b)]
  rfl

theorem putSeg_ported (e : QueueEnd) (i : SegNo) (r : Segment) (s : State) : putSeg e i r (ported m b s) = ported m b (putSeg e i r s) :=
  sync_ported m b e i (setSeg i r s)

theorem syncTail_ported (is : List SegNo) (s : State) : syncTail is (ported m b s) = ported m b (syncTail is s) :=
  foldl_ported m b (fun u i => sync_ported m b .tail i u) is s

theorem syncHead_ported (is : List SegNo) (s : State) : syncHead is (ported m b s) = ported m b (syncHead is s) :=
  foldl_ported m b (fun u i => sync_ported m b .head i u) is.reverse s

theorem setStates_ported (st : SegState) (is : List SegNo) (s : State) :
    setStates st is (ported m b s) = ported m b (setStates st is s) :=
  foldl_ported m b (fun _ _ => rfl) is s

theorem walkEnd_ported (a : Assembly) (s : State) : walkEnd a (ported m b s) = ported m b (walkEnd a s) := by
  unfold walkEnd
  simp only
  split
  · rfl
  · rfl

theorem captureStart_ported (i : SegNo) (s : State) : captureStart i (ported m b s) = ported m b (captureStart i s) := by
  have hput (u : State) : oweMirror i (putSeg .tail i { u.seg i with state := .capturing, dirty := false } (ported m b u)) =
      ported m b (oweMirror i (putSeg .tail i { u.seg i with state := .capturing, dirty := false } u)) := by
    rw [putSeg_ported]
    rfl
  cases ha : s.asm with
  | none =>
    have hleft : captureStart i (ported m b s) = oweMirror i (putSeg .tail i { s.seg i with state := .capturing, dirty := false } (ported m b s)) := by
      rw [captureStart, show (ported m b s).asm = none from ha]
      rfl
    rw [hleft, hput, captureStart, ha]
  | some a =>
    rw [captureStart_of_asm (s := ported m b s) (a := a) ha, captureStart_of_asm ha]
    exact hput (setAsm (some { a with captured := i :: a.captured, capture := some ⟨i, s.engine.shown, [], false, false⟩ }) s)

theorem captureStore_ported (s : State) : captureStore (ported m b s) = ported m b (captureStore s) := by
  rw [captureStore, captureStore, show (ported m b s).asm = s.asm from rfl]
  cases s.asm with
  | none => rfl
  | some a =>
    simp only
    cases a.capture with
    | none => rfl
    | some c =>
      simp only
      rw [apply_ite (ported m b)]
      rfl

theorem captureNone_ported (i : SegNo) (s : State) : captureNone i (ported m b s) = ported m b (captureNone i s) := by
  rw [captureNone, captureStart_ported, captureStore_ported, sync_ported, captureNone]

theorem walkOn_ported (n : Nat) (s : State) : walkOn n (ported m b s) = ported m b (walkOn n s) := by
  induction n generalizing s with
  | zero => rfl
  | succ n ih =>
    rw [walkOn, walkOn, show (ported m b s).asm = s.asm from rfl, show (ported m b s).queue = s.queue from rfl]
    cases s.asm with
    | none => rfl
    | some a =>
      simp only
      rw [apply_ite (ported m b)]
      congr 1
      · exact walkEnd_ported m b a s
      · cases s.queue.behind with
        | nil => exact walkEnd_ported m b a s
        | cons i rest =>
          simp only
          rw [apply_ite (ported m b), apply_ite (ported m b), ← ih, ← ih, ← captureNone_ported, ← captureStart_ported]
          rfl

theorem walkFromMark_ported (s : State) : walkFromMark (ported m b s) = ported m b (walkFromMark s) := walkOn_ported m b _ s

theorem startWalk_ported (s : State) : startWalk (ported m b s) = ported m b (startWalk s) :=
  walkFromMark_ported m b (setAsm (some Assembly.started) (setQueue s.queue.startWalk s))

/-! #### Drives and grants -/

theorem driveStart_ported (s : State) : driveStart (ported m b s) = ported m b (driveStart s) := by
  have hout (u : State) (is : List SegNo) : syncHead is (setStates .stale is (setAsm none (ported m b u))) =
      ported m b (syncHead is (setStates .stale is (setAsm none u))) := by
    rw [← syncHead_ported, ← setStates_ported]
    rfl
  have hmove (u : State) (is : List SegNo) : syncTail is (setStates .moving is (ported m b u)) =
      ported m b (syncTail is (setStates .moving is u)) := by
    rw [setStates_ported, syncTail_ported]
  rw [driveStart, driveStart, show (ported m b s).asm = s.asm from rfl]
  cases s.asm with
  | none => rfl
  | some a =>
    have hdropped : dropped (ported m b s) = dropped s := rfl
    simp only [hdropped]
    rw [hout, hmove, apply_ite (ported m b)]
    rfl

theorem workRound_ported (s : State) : workRound (ported m b s) = ported m b (workRound s) := by
  rw [workRound, workRound, driveStart_ported, startWalk_ported, apply_ite (ported m b), apply_ite (ported m b)]
  rfl

theorem judgeWork_ported (s : State) : judgeWork (ported m b s) = ported m b (judgeWork s) := by
  have hrepeat : ∀ n u, Nat.repeat workRound n (ported m b u) = ported m b (Nat.repeat workRound n u) := by
    intro n
    induction n with
    | zero => exact fun _ => rfl
    | succ n ih => exact fun u => (congrArg workRound (ih u)).trans (workRound_ported m b _)
  exact hrepeat 8 s

theorem startSweep_ported (i : SegNo) (s : State) : startSweep i (ported m b s) = ported m b (startSweep i s) := by
  rw [startSweep, startSweep, putSeg_ported]
  rfl

theorem startSense_ported (i : SegNo) (s : State) : startSense i (ported m b s) = ported m b (startSense i s) := by
  have hseg : (ported m b s).seg i = s.seg i := rfl
  rw [startSense, startSense, putSeg_ported]
  simp only [hseg]
  split
  · rfl
  · rfl

theorem judgeGrant_ported (s : State) : judgeGrant (ported m b s) = ported m b (judgeGrant s) := by
  have hmay : mayGrant (ported m b s) = mayGrant s := rfl
  have hfind : (ported m b s).queue.entries.find? (sweepable (ported m b s)) = s.queue.entries.find? (sweepable s) := rfl
  have hpick : sensePick (ported m b s) = sensePick s := rfl
  rw [judgeGrant, judgeGrant, hmay, hfind, hpick, apply_ite (ported m b)]
  congr 1
  cases s.queue.entries.find? (sweepable s) with
  | some i => exact startSweep_ported m b i s
  | none =>
    cases sensePick s with
    | some i => exact startSense_ported m b i s
    | none => rfl

theorem judge_ported (s : State) : judge (ported m b s) = ported m b (judge s) := by
  rw [judge, judgeWork_ported, judgeGrant_ported, judge]

/-! #### The end of an event -/

theorem requestPageTone_ported (s : State) : requestPageTone (ported m b s) = ported m b (requestPageTone s) := by
  rw [requestPageTone, requestPageTone, show (ported m b s).chime = s.chime from rfl, apply_ite (ported m b)]
  cases s.chime.state with
  | silent => rfl
  | page => rfl
  | fault => rfl

theorem pageSettles_ported (s : State) : pageSettles (ported m b s) = ported m b (pageSettles s) := by
  have hshow : (raise .pageDone (ported m b s)).engine = (raise .pageDone s).engine := rfl
  rw [pageSettles, pageSettles]
  simp only [hshow]
  split
  · exact congrArg clearLag (requestPageTone_ported m b
      { raise .pageDone s with engine := { (raise .pageDone s).engine with showPending := false } })
  · rfl

theorem judgeSettled_ported (k : Bool) (s u : State) : judgeSettled k (ported m b s) (ported m b u) = ported m b (judgeSettled k s u) := by
  rw [judgeSettled, judgeSettled, pageSettles_ported, apply_ite (ported m b), apply_ite (ported m b), apply_ite (ported m b)]
  rfl

theorem postPending_ported (s : State) : postPending (ported m b s) = ported m b (postPending s) := by
  rw [postPending, postPending, apply_ite (ported m b)]
  rfl

theorem postMirrors_ported (is : List SegNo) (s : State) : postMirrors is (ported m b s) = ported m b (postMirrors is s) := by
  rw [postMirrors, postMirrors, foldl_ported m b (fun _ _ => rfl)]
  rfl

theorem postResults_ported (s : State) : postResults (ported m b s) = ported m b (postResults s) := by
  rw [postResults, show (ported m b s).owed = s.owed from rfl, foldl_ported m b (fun _ _ => rfl)]
  rfl

theorem closePosts_ported (s u : State) : closePosts (ported m b s) (ported m b u) = ported m b (closePosts s u) := by
  have hstatus (v : State) : postStatusIf (ported m b s) (ported m b v) = ported m b (postStatusIf s v) := by
    rw [postStatusIf, postStatusIf, apply_ite (ported m b)]
    rfl
  have hmirrors : mirrorsToPost (ported m b s) (ported m b u) = mirrorsToPost s u := rfl
  rw [closePosts, hmirrors, postMirrors_ported, hstatus, postResults_ported, postPending_ported, closePosts]

theorem closeEvent_ported (s u : State) : closeEvent (ported m b s) (ported m b u) = ported m b (closeEvent s u) := by
  rw [closeEvent, judgeSettled_ported, closePosts_ported, closeEvent]

theorem reportParity_ported (buf : Buffer) (cell : Fin 960) (bad : Bool) (s : State) :
    reportParity buf cell bad (ported m b s) = ported m b (reportParity buf cell bad s) := by
  rw [reportParity, reportParity, apply_ite (ported m b)]
  rfl

theorem takeReport_ported (buf : Buffer) (cell : Fin 960) (bad : Bool) (s : State) :
    takeReport buf cell bad (ported m b s) = ported m b (takeReport buf cell bad s) := by
  have hput (r : Segment) : judge (putSeg .tail (segOfCell cell) r (ported m b s)) = ported m b (judge (putSeg .tail (segOfCell cell) r s)) := by
    rw [putSeg_ported, judge_ported]
  simp only [takeReport, hput]
  rw [apply_ite (ported m b)]
  rfl

/-- A byte's event finds the same work whatever memory holds. -/
theorem cellByte_ported (buf : Buffer) (cell : Fin 960) (bad : Bool) (s : State) :
    cellByte buf cell bad (ported m b s) = ported m b (cellByte buf cell bad s) := by
  rw [cellByte, reportParity_ported, takeReport_ported, closeEvent_ported, cellByte]

end

end Sys2Proof.Machine

/-! ### One byte of a page buffer write: its posts, its events and its records (R4, R14, R29, R31, R32; O23) -/

namespace Sys2Proof.Machine

/-! #### The posts of a word that an event's end does not post -/

/-- The pending posts of a word. -/
def postsAt (off : Nat) (s : State) : List Post := s.bus.posts.filter fun p => p.offset == off

theorem mem_postsAt {off : Nat} {s : State} {p : Post} : p ∈ postsAt off s ↔ p ∈ s.bus.posts ∧ p.offset = off := by
  simp [postsAt]

section
variable {off : Nat}

theorem postsAt_other {o : Nat} (h : off ≠ o) (v : Word) (s : State) : postsAt off (post o v s) = postsAt off s := by
  have hother : ∀ q : Post, (q.offset == off && q.offset != o) = (q.offset == off) := by
    intro q
    by_cases hq : q.offset = off
    · simp [hq, h]
    · simp [hq]
  simp only [postsAt, post, postTo, List.filter_append, List.filter_filter, hother]
  simp [h.symm]

theorem postsAt_closePosts (h : NotClosing off) (b s : State) : postsAt off (closePosts b s) = postsAt off s := by
  have hmirrors (is : List SegNo) (u : State) : postsAt off (postMirrors is u) = postsAt off u :=
    foldl_keeps (fun u => postsAt off u) (fun u i => postsAt_other (h.mirror i) _ u) is u
  have hstatus (u : State) : postsAt off (postStatusIf b u) = postsAt off u := by
    unfold postStatusIf
    split
    · rfl
    · exact postsAt_other h.status _ u
  have hresults (u : State) : postsAt off (postResults u) = postsAt off u :=
    foldl_keeps (fun u => postsAt off u) (fun u v => postsAt_other h.result v u) u.owed.results u
  have hpending (u : State) : postsAt off (postPending u) = postsAt off u := by
    unfold postPending
    split
    · exact postsAt_other h.pending _ u
    · rfl
  rw [closePosts, hpending, hresults, hstatus, hmirrors]

theorem postsAt_closeEvent (h : NotClosing off) (b u : State) : postsAt off (closeEvent b u) = postsAt off u := by
  rw [closeEvent, postsAt_closePosts h, postsAt, judgeSettled_bus, postsAt]

theorem notClosing_parityDetail : NotClosing (PartWord.offset .parityDetail) := by
  refine ⟨fun i => ?_, by decide, by decide, by decide⟩
  have hi := i.isLt
  simp only [PartWord.offset]
  omega

end

/-! #### The report of a byte -/

section
variable {s : State} {buf : Buffer} {cell : Fin 960} {bad : Bool}

theorem takeReport_still (buf : Buffer) (cell : Fin 960) (bad : Bool) (s : State) : (takeReport buf cell bad s).still = s.still := by
  unfold takeReport
  split
  · exact (judge_still _).trans (putSeg_still _ _ _ _)
  · rfl

theorem cellByte_rim (buf : Buffer) (cell : Fin 960) (bad : Bool) (s : State) : (cellByte buf cell bad s).rim = s.rim := by
  rw [cellByte, rim_closeEvent, rim_of_still (takeReport_still _ _ _ _), rim_of_firm (reportParity_firm _ _ _ _)]

theorem isPending_cellByte {e : Event} (he : e ≠ .pageDone) :
    isPending (cellByte buf cell bad s) e = (isPending s e || (e == .parity && bad)) := by
  rw [cellByte, closeEvent, isPending_ended he, isPending_of_still (takeReport_still _ _ _ _)]
  cases bad with
  | false => rw [Bool.and_false, Bool.or_false]; rfl
  | true =>
    rw [Bool.and_true, Bool.or_comm]
    exact isPending_raise _ _ _

theorem postsAt_cellByte_good (s : State) :
    postsAt (PartWord.offset .parityDetail) (cellByte buf cell false s) = postsAt (PartWord.offset .parityDetail) s := by
  rw [cellByte, postsAt_closeEvent notClosing_parityDetail, postsAt, still_bus (takeReport_still _ _ _ _)]
  rfl

/-- A bad byte's detail word and the event pending word. -/
theorem posted_cellByte_bad (s : State) :
    Posted (cellByte buf cell true s) (PartWord.offset .parityDetail) (parityDetail buf cell false) ∧
    Posted (cellByte buf cell true s) (PartWord.offset .eventPending) (pendingWord (cellByte buf cell true s)) := by
  have hstill := takeReport_still buf cell true (reportParity buf cell true s)
  constructor
  · have hposted : Posted (reportParity buf cell true s) (PartWord.offset .parityDetail) (parityDetail buf cell false) := posted_self _ _ s
    have hmem : (⟨PartWord.offset .parityDetail, parityDetail buf cell false⟩ : Post) ∈
        postsAt (PartWord.offset .parityDetail) (cellByte buf cell true s) := by
      rw [cellByte, postsAt_closeEvent notClosing_parityDetail, postsAt, still_bus hstill]
      exact mem_postsAt.2 ⟨hposted, rfl⟩
    exact (mem_postsAt.1 hmem).1
  · refine posted_pending_closePosts ?_
    have howes : (reportParity buf cell true s).owed.pending = true := rfl
    exact (owing_judgeSettled false s _).keeps ((congrArg Still.owesPending hstill).trans howes)

/-- A good byte leaves what stands posted of the detail word and of the event pending word. -/
theorem posted_cellByte_good {v : Word} (hdetail : Posted s (PartWord.offset .parityDetail) v)
    (hpending : Posted s (PartWord.offset .eventPending) (pendingWord s)) :
    Posted (cellByte buf cell false s) (PartWord.offset .parityDetail) v ∧
    Posted (cellByte buf cell false s) (PartWord.offset .eventPending) (pendingWord (cellByte buf cell false s)) := by
  constructor
  · have hmem : (⟨PartWord.offset .parityDetail, v⟩ : Post) ∈ postsAt (PartWord.offset .parityDetail) (cellByte buf cell false s) := by
      rw [postsAt_cellByte_good]
      exact mem_postsAt.2 ⟨hdetail, rfl⟩
    exact (mem_postsAt.1 hmem).1
  · rcases (announcing_cellByte buf cell false s).pending with hposted | ⟨hsame, hkept⟩
    · exact hposted
    · rw [pendingWord_of hsame]
      exact hkept _ hpending

/-- Before acceptance a report is discarded (R33). -/
theorem cellByte_idle (hr : queuesRun s.engine = false) : (cellByte buf cell bad s).segs = s.segs ∧
    queuesRun (cellByte buf cell bad s).engine = false := by
  have hreport : queuesRun (reportParity buf cell bad s).engine = false := (sameWork_reportParity buf cell bad s).runs.trans hr
  have htake : takeReport buf cell bad (reportParity buf cell bad s) = reportParity buf cell bad s := by
    rw [takeReport, if_neg (by rw [hreport]; exact Bool.false_ne_true)]
  have hsame : SameWork s (cellByte buf cell bad s) := by
    rw [cellByte, htake]
    exact (sameWork_reportParity buf cell bad s).trans (sameWork_closeEvent _ _)
  exact ⟨hsame.segs, hsame.runs.trans hr⟩

theorem cellByte_runs (hr : queuesRun s.engine = true) : queuesRun (cellByte buf cell bad s).engine = true := by
  rw [cellByte_eq hr, (sameWork_closeEvent s _).runs, judge_engine, cellWritten, putSeg_engine, (sameWork_reportParity buf cell bad s).runs]
  exact hr

theorem cellByte_shown (buf : Buffer) (cell : Fin 960) (bad : Bool) (s : State) : (cellByte buf cell bad s).engine.shown = s.engine.shown := by
  rw [cellByte, (sameWork_closeEvent s _).shown, still_engine (takeReport_still _ _ _ _), (sameWork_reportParity buf cell bad s).shown]

/-- The marks of the other buffer are as they were. -/
theorem cellByte_mask_other {other : Buffer} (h : other ≠ buf) (i : SegNo) :
    maskOf other ((cellByte buf cell bad s).seg i) = maskOf other (s.seg i) := by
  cases hr : queuesRun s.engine with
  | false => rw [State.seg, (cellByte_idle hr).1]; rfl
  | true =>
    obtain ⟨v, hv⟩ : ∃ v, v = reportParity buf cell bad s := ⟨_, rfl⟩
    have hsame : SameWork s v := hv ▸ sameWork_reportParity buf cell bad s
    obtain ⟨-, hA, hB, -, -, -, -⟩ := allMarksKept_judge (cellWritten buf cell bad v) i
    have hmask : maskOf other ((cellByte buf cell bad s).seg i) = maskOf other ((cellWritten buf cell bad v).seg i) := by
      rw [cellByte_eq hr, ← hv, (sameWork_closeEvent s _).seg]
      cases other with
      | a => exact hA
      | b => exact hB
    rw [hmask, cellWritten, putSeg_seg]
    split
    · rename_i hi
      rw [hi, maskOf_cellWrite, maskOf_mark_other h, hsame.seg]
    · rw [hsame.seg]

end

end Sys2Proof.Machine

/-! ### One byte of a page buffer write where no walk and no drive can start (R32, R49, R112; O23) -/

namespace Sys2Proof.Machine

/-! #### Records after reports of their cells -/

/-- A record with the marks of another. -/
def remarked (r m : Segment) : Segment := { r with suspectA := m.suspectA, suspectB := m.suspectB }

/-- A record with the marks of another, its shown content perhaps touched (R31, R32). -/
def rewritten (touched : Bool) (r m : Segment) : Segment :=
  if touched then { remarked r m with dirty := true, state := if r.state = .clean then .stale else r.state } else remarked r m

section
variable {touched : Bool} {r m : Segment}

theorem rewritten_state : (rewritten touched r m).state = if touched ∧ r.state = .clean then .stale else r.state := by
  cases touched with
  | true => simp [rewritten]
  | false => simp [rewritten, remarked]

theorem rewritten_faulted : (rewritten touched r m).state = .faulted ↔ r.state = .faulted := by
  rw [rewritten_state]
  split
  · rename_i h
    simp [h.2]
  · rfl

theorem rewritten_again (n : Segment) : rewritten touched (rewritten touched r m) n = rewritten touched r n := by
  cases touched with
  | true =>
    simp only [rewritten, remarked, if_true]
    by_cases hr : r.state = .clean
    · simp [hr]
    · simp [hr]
  | false => rfl

theorem rewritten_sensing (n : Segment) :
    rewritten touched { rewritten touched r m with state := .sensing } n = { rewritten touched r n with state := .sensing } := by
  cases touched with
  | true => simp [rewritten, remarked]
  | false => rfl

theorem rewritten_congr {n : Segment} (hA : n.suspectA = m.suspectA) (hB : n.suspectB = m.suspectB) :
    rewritten touched r n = rewritten touched r m := by
  rw [rewritten, rewritten, remarked, remarked, hA, hB]

theorem cellWrite_eq (r : Segment) (shown : Shown) (buf : Buffer) (k : Fin 10) (bad : Bool) : r.cellWrite shown buf k bad =
    rewritten (decide (shown = buf.shown ∧ r.state ≠ .faulted)) r (r.cellWrite shown buf k bad) := by
  have hmark : r.mark buf k bad = remarked r (r.mark buf k bad) := r.mark_marks buf k bad
  have hstate : (r.mark buf k bad).state = r.state := r.state_mark buf k bad
  unfold Segment.cellWrite
  simp only
  split
  · rename_i hshown
    by_cases hf : r.state = .faulted
    · rw [touchContent_faulted (hstate.trans hf), rewritten, if_neg (by simp [hf])]
      exact hmark
    · have htouch : (r.mark buf k bad).touchContent = rewritten true r (r.mark buf k bad) := by
        rw [touchContent_of_ne (fun h => hf (hstate.symm.trans h)), hstate]
        exact congrArg (fun x : Segment => { x with
          dirty := true
          state := if r.state = SegState.clean then SegState.stale else r.state }) hmark
      have htouched : decide (shown = buf.shown ∧ r.state ≠ .faulted) = true := by simp [hshown, hf]
      rw [htouched]
      refine htouch.trans (rewritten_congr ?_ ?_).symm
      · rw [Segment.touchContent_marks]
      · rw [Segment.touchContent_marks]
  · rename_i hshown
    rw [rewritten, if_neg (by simp [hshown])]
    exact hmark

end

/-! #### One byte -/

section
variable {s : State} {buf : Buffer} {cell : Fin 960} {bad : Bool}

/-- A report of a cell touches a segment's shown content. -/
def touches (buf : Buffer) (cell : Fin 960) (s : State) (k : SegNo) : Bool :=
  decide (s.engine.shown = buf.shown ∧ segOfCell cell = k ∧ (s.seg k).state ≠ .faulted)

theorem cellWritten_seg (k : SegNo) : (cellWritten buf cell bad s).seg k =
    rewritten (touches buf cell s k) (s.seg k) ((cellWritten buf cell bad s).seg k) := by
  rw [cellWritten, putSeg_seg]
  split
  · rename_i hk
    subst hk
    have hwrite := cellWrite_eq (s.seg (segOfCell cell)) s.engine.shown buf (cellInSeg cell) bad
    simpa [touches] using hwrite
  · rename_i hk
    rw [rewritten, if_neg (by simp [touches, Ne.symm hk])]
    rfl

/-- What one byte makes of the records and of the converter, where no walk and no drive can start. -/
structure Rewrites (s t : State) (touched : SegNo → Bool) : Prop where
  quiet : Quiet t
  records : ∀ k, OrSensing t k (rewritten (touched k) (s.seg k) (t.seg k))
  faulted : ∀ k, (s.seg k).state = .faulted → (t.seg k).state = .faulted
  conv : t.conv = s.conv ∨ s.conv.job = none ∧ t.conv.job ≠ none
  atWork : s.conv.job ≠ none → ∀ k, t.seg k = rewritten (touched k) (s.seg k) (t.seg k)

theorem Rewrites.refl (h : Quiet s) : Rewrites s s fun _ => false where
  quiet := h
  records _ := .inl rfl
  faulted _ hk := hk
  conv := .inl rfl
  atWork _ _ := rfl

theorem Rewrites.faulted_iff {t : State} {touched : SegNo → Bool} (h : Rewrites s t touched) (k : SegNo) :
    (t.seg k).state = .faulted ↔ (s.seg k).state = .faulted := by
  refine ⟨fun hk => ?_, h.faulted k⟩
  rcases h.records k with hrec | ⟨hrec, -⟩
  · rw [hrec] at hk
    exact rewritten_faulted.1 hk
  · rw [hrec] at hk
    cases hk

/-- Two bytes of one word, one after the other. -/
theorem Rewrites.trans {t u : State} {touched : SegNo → Bool} (h : Rewrites s t touched) (k : Rewrites t u touched) : Rewrites s u touched where
  quiet := k.quiet
  records i := by
    rcases h.records i with hrec | ⟨hrec, j, hj, hsegs⟩
    · have hagain := k.records i
      rwa [hrec, rewritten_again] at hagain
    · have hat := k.atWork (by rw [hj]; exact Option.some_ne_none j) i
      rw [hrec, rewritten_sensing] at hat
      refine .inr ⟨hat, j, ?_, hsegs⟩
      rcases k.conv with hconv | ⟨hnone, -⟩
      · rw [hconv, hj]
      · rw [hj] at hnone
        cases hnone
  faulted i hi := k.faulted i (h.faulted i hi)
  conv := by
    rcases k.conv with hk | ⟨hnone, hsome⟩
    · rw [hk]
      exact h.conv
    · rcases h.conv with hh | ⟨-, hh⟩
      · exact .inr ⟨hh ▸ hnone, hsome⟩
      · exact absurd hnone hh
  atWork hs i := by
    have hfirst := h.atWork hs i
    have hconv : t.conv = s.conv := h.conv.resolve_right fun hnone => hs hnone.1
    have hsecond := k.atWork (hconv ▸ hs) i
    rwa [hfirst, rewritten_again] at hsecond

/-- What a grant makes of a quiet state's records and converter. -/
theorem Grants.rewrites {w g : State} (h : Grants w g) (hw : Quiet w) : Quiet g ∧ (g.conv = w.conv ∧ g = w ∨ w.conv.job = Option.none ∧ g.conv.job ≠ Option.none) := by
  have hasm := h.asm
  have hstroke := h.stroke
  have hstill := h.still
  have hchange : g.conv = w.conv ∧ g = w ∨ w.conv.job = Option.none ∧ g.conv.job ≠ Option.none := by
    cases h with
    | none _ => exact .inl ⟨rfl, rfl⟩
    | sweep hg _ => exact .inr ⟨job_of_mayGrant hg, by rw [startSweep_conv]; exact Option.some_ne_none _⟩
    | sense hg _ _ => exact .inr ⟨job_of_mayGrant hg, by rw [startSense_conv]; exact Option.some_ne_none _⟩
  refine ⟨⟨?_, ?_⟩, hchange⟩
  · rcases hchange with ⟨-, hsame⟩ | ⟨-, hjob⟩
    · rw [hsame]
      exact hw.1
    · exact driveReady_false fun _ _ _ _ hfree => hjob hfree.2.2.2
  · rw [still_engine hstill, hasm]
    exact hw.2

theorem rewrites_cellByte (hr : queuesRun s.engine = true) (hq : Quiet s) (buf : Buffer) (cell : Fin 960) (bad : Bool) :
    Rewrites s (cellByte buf cell bad s) (touches buf cell s) ∧ ((cellByte buf cell bad s).conv = s.conv →
      (cellByte buf cell bad s).queue.entries = tailed (fun k => queueable s.engine (rewritten (touches buf cell s k) (s.seg k)
        ((cellByte buf cell bad s).seg k))) s.queue.entries (segOfCell cell)) := by
  obtain ⟨v, hv⟩ : ∃ v, v = reportParity buf cell bad s := ⟨_, rfl⟩
  have hfirm : v.firm = s.firm := hv ▸ reportParity_firm buf cell bad s
  have hsame : SameWork s v := .of_firm hfirm
  obtain ⟨w, hw⟩ : ∃ w, w = cellWritten buf cell bad v := ⟨_, rfl⟩
  have hquiet : Quiet w := by
    rw [hw]
    exact quiet_congr hq ((putSeg_asm _ _ _ _).trans hsame.asm) ((putSeg_stroke _ _ _ _).trans (congrArg Firm.stroke hfirm))
      ((putSeg_gate _ _ _ _).trans (congrArg Firm.gate hfirm)) (congrArg Converter.job ((putSeg_conv _ _ _ _).trans hsame.conv))
      ((congrArg Engine.state (putSeg_engine _ _ _ _)).trans (congrArg Firm.engineState hfirm))
  have hconv : w.conv = s.conv := hw ▸ (putSeg_conv _ _ _ _).trans hsame.conv
  have htouches (k : SegNo) : touches buf cell v k = touches buf cell s k := by rw [touches, hsame.shown, hsame.seg, touches]
  obtain ⟨g, hg⟩ : ∃ g, g = judgeGrant w := ⟨_, rfl⟩
  have hgrants : Grants w g := hg ▸ grants_judgeGrant w
  have hjudge : judge w = g := by rw [judge, judgeWork_quiet hquiet, hg]
  have hbyte : cellByte buf cell bad s = closeEvent s g := by rw [cellByte_eq hr, ← hv, ← hw, hjudge]
  have hseg (k : SegNo) : w.seg k = rewritten (touches buf cell s k) (s.seg k) ((cellByte buf cell bad s).seg k) := by
    obtain ⟨-, hA, hB, -, -, -, -⟩ := hjudge ▸ allMarksKept_judge w k
    have hrec := cellWritten_seg (s := v) (buf := buf) (cell := cell) (bad := bad) k
    rw [← hw, htouches, hsame.seg] at hrec
    rw [hbyte, closeEvent_seg]
    exact hrec.trans (rewritten_congr hA hB).symm
  obtain ⟨hgquiet, hchange⟩ := hgrants.rewrites hquiet
  refine ⟨⟨?quiet, fun k => ?records, fun k hk => ?faulted, ?conv, fun hjob k => ?atWork⟩, fun hkept => ?entries⟩
  case quiet =>
    rw [hbyte]
    exact quiet_congr hgquiet (closeEvent_asm _ _) (closeEvent_stroke _ _) (closeEvent_gate _ _) (by rw [closeEvent_conv])
      (congrArg Firm.engineState (closeEvent_firm s g))
  case records =>
    have hor := hgrants.orSensing k
    rw [← hseg, hbyte, OrSensing, closeEvent_seg, closeEvent_conv]
    exact hor
  case faulted =>
    have hwk : (w.seg k).state = .faulted := by rw [hseg]; exact rewritten_faulted.2 hk
    rw [hbyte, closeEvent_seg, hgrants.faulted hwk]
    exact hwk
  case conv =>
    rw [hbyte, closeEvent_conv, ← hconv]
    exact hchange.imp And.left id
  case atWork =>
    rcases hchange with ⟨-, hgw⟩ | ⟨hnone, -⟩
    · rw [← hseg, hbyte, closeEvent_seg, hgw]
    · exact absurd hnone (by rw [hconv]; exact hjob)
  case entries =>
    have hgw : g = w := by
      rcases hchange with ⟨-, hgw⟩ | ⟨hnone, hsome⟩
      · exact hgw
      · rw [hbyte, closeEvent_conv] at hkept
        rw [hkept, ← hconv] at hsome
        exact absurd hnone hsome
    have hentries : w.queue.entries = tailed (waiting w) s.queue.entries (segOfCell cell) := by
      have hsync := entries_sync_tail (segOfCell cell)
        (setSeg (segOfCell cell) ((v.seg (segOfCell cell)).cellWrite v.engine.shown buf (cellInSeg cell) bad) v)
      rw [← waiting_sync .tail (segOfCell cell), setSeg_queue, hsame.queue] at hsync
      rw [hw]
      exact hsync
    rw [hbyte, closeEvent_queue, hgw, hentries]
    congr 1
    funext k
    rw [waiting, hseg, hbyte, hgw]
    refine queueable_congr ?_ ?_ _
    · rw [hw, cellWritten, putSeg_engine, hsame.runs]
    · rw [hw, cellWritten, putSeg_engine, hsame.shown]

end

end Sys2Proof.Machine

/-! ### The two bytes of a page buffer write (R2, R4, R14, R29 to R33, R49; O23) -/

namespace Sys2Proof.Machine

/-- The report of a byte, if it is enabled. -/
def byteIf (en : Bool) (buf : Buffer) (cell : Fin 960) (bad : Bool) (s : State) : State := if en then cellByte buf cell bad s else s

/-- The reports of a word's enabled bytes, low byte first (R4). -/
def wordReported (buf : Buffer) (word : Fin 480) (w : HostWrite) (s : State) : State :=
  byteIf w.enHigh buf (wordCell word 1) (badByte w 1) (byteIf w.enLow buf (wordCell word 0) (badByte w 0) s)

theorem pageWrite_on {s : State} (hs : PostsLawful s) (hon : s.engine.state ≠ .off) (buf : Buffer) (word : Fin 480) (w : HostWrite) :
    pageWrite buf word w s = wordReported buf word w (storeArea (buf.offset + 2 * word.val) w s) := by
  have hnone := hs.hasPost_false (not_postable_page buf word)
  unfold pageWrite
  simp only [forwardArea_none hnone]
  exact if_neg fun h => hon ((isOff_iff _).1 h)

/-! #### One byte that may be enabled -/

section
variable {s : State} {en : Bool} {buf : Buffer} {cell : Fin 960} {bad : Bool}

theorem byteIf_rim (en : Bool) (buf : Buffer) (cell : Fin 960) (bad : Bool) (s : State) : (byteIf en buf cell bad s).rim = s.rim := by
  cases en with
  | true => exact cellByte_rim buf cell bad s
  | false => rfl

theorem isPending_byteIf {e : Event} (he : e ≠ .pageDone) :
    isPending (byteIf en buf cell bad s) e = (isPending s e || (e == .parity && (en && bad))) := by
  cases en with
  | true => exact isPending_cellByte he
  | false => rw [Bool.false_and, Bool.and_false, Bool.or_false]; rfl

theorem postsAt_byteIf_good (h : (en && bad) = false) :
    postsAt (PartWord.offset .parityDetail) (byteIf en buf cell bad s) = postsAt (PartWord.offset .parityDetail) s := by
  cases en with
  | true =>
    obtain rfl : bad = false := h
    exact postsAt_cellByte_good s
  | false => rfl

theorem posted_byteIf_good {v : Word} (h : (en && bad) = false) (hdetail : Posted s (PartWord.offset .parityDetail) v)
    (hpending : Posted s (PartWord.offset .eventPending) (pendingWord s)) :
    Posted (byteIf en buf cell bad s) (PartWord.offset .parityDetail) v ∧
    Posted (byteIf en buf cell bad s) (PartWord.offset .eventPending) (pendingWord (byteIf en buf cell bad s)) := by
  cases en with
  | true =>
    obtain rfl : bad = false := h
    exact posted_cellByte_good hdetail hpending
  | false => exact ⟨hdetail, hpending⟩

theorem posted_byteIf_bad (h : (en && bad) = true) :
    Posted (byteIf en buf cell bad s) (PartWord.offset .parityDetail) (parityDetail buf cell false) ∧
    Posted (byteIf en buf cell bad s) (PartWord.offset .eventPending) (pendingWord (byteIf en buf cell bad s)) := by
  obtain ⟨rfl, rfl⟩ := Bool.and_eq_true_iff.1 h
  exact posted_cellByte_bad s

theorem byteIf_idle (hr : queuesRun s.engine = false) : (byteIf en buf cell bad s).segs = s.segs ∧
    queuesRun (byteIf en buf cell bad s).engine = false := by
  cases en with
  | true => exact cellByte_idle hr
  | false => exact ⟨rfl, hr⟩

theorem byteIf_runs (hr : queuesRun s.engine = true) : queuesRun (byteIf en buf cell bad s).engine = true := by
  cases en with
  | true => exact cellByte_runs hr
  | false => exact hr

theorem byteIf_mask (hr : queuesRun s.engine = true) (i : SegNo) (j : Fin 10) :
    (maskOf buf ((byteIf en buf cell bad s).seg i)).getLsbD j.val =
      if (i = segOfCell cell ∧ j = cellInSeg cell) ∧ en = true then bad else (maskOf buf (s.seg i)).getLsbD j.val := by
  cases en with
  | true => simpa [byteIf] using cellByte_mask (cell := cell) (bad := bad) hr i j
  | false => simp [byteIf]

theorem byteIf_mask_other {other : Buffer} (h : other ≠ buf) (i : SegNo) :
    maskOf other ((byteIf en buf cell bad s).seg i) = maskOf other (s.seg i) := by
  cases en with
  | true => exact cellByte_mask_other h i
  | false => rfl

end

/-! #### A word's bytes -/

section
variable {s : State} {buf : Buffer} {word : Fin 480} {w : HostWrite}

theorem wordReported_low (hlow : w.enLow = true) (hhigh : w.enHigh = false) :
    wordReported buf word w s = cellByte buf (wordCell word 0) (badByte w 0) s := by
  rw [wordReported, hlow, hhigh]
  rfl

theorem wordReported_high (hlow : w.enLow = false) (hhigh : w.enHigh = true) :
    wordReported buf word w s = cellByte buf (wordCell word 1) (badByte w 1) s := by
  rw [wordReported, hlow, hhigh]
  rfl

theorem wordReported_both (hlow : w.enLow = true) (hhigh : w.enHigh = true) :
    wordReported buf word w s = cellByte buf (wordCell word 1) (badByte w 1) (cellByte buf (wordCell word 0) (badByte w 0) s) := by
  rw [wordReported, hlow, hhigh]
  rfl

theorem wordReported_rim (buf : Buffer) (word : Fin 480) (w : HostWrite) (s : State) : (wordReported buf word w s).rim = s.rim :=
  (byteIf_rim _ _ _ _ _).trans (byteIf_rim _ _ _ _ _)

theorem isPending_wordReported {e : Event} (he : e ≠ .pageDone) : isPending (wordReported buf word w s) e =
    (isPending s e || (e == .parity && (enabledByte w 0 && badByte w 0)) || (e == .parity && (enabledByte w 1 && badByte w 1))) := by
  rw [wordReported, isPending_byteIf he, isPending_byteIf he]
  rfl

theorem detail_word (word : Fin 480) (buf : Buffer) (h : Fin 2) : parityDetail buf (wordCell word h) false =
    BitVec.ofNat 16 (2 * word.val + h.val + if buf = .b then 0x8000 else 0) := by
  cases buf with
  | a => rfl
  | b => rfl

theorem posted_wordReported {h : Nat} (hh : h = 1 ∧ (enabledByte w 1 && badByte w 1) = true ∨
    h = 0 ∧ (enabledByte w 0 && badByte w 0) = true ∧ (enabledByte w 1 && badByte w 1) = false) :
    Posted (wordReported buf word w s) (PartWord.offset .parityDetail)
      (BitVec.ofNat 16 (2 * word.val + h + if buf = .b then 0x8000 else 0)) ∧
    Posted (wordReported buf word w s) (PartWord.offset .eventPending) (pendingWord (wordReported buf word w s)) := by
  rcases hh with ⟨rfl, hbad⟩ | ⟨rfl, hbad, hgood⟩
  · obtain ⟨hdetail, hpending⟩ := posted_byteIf_bad (s := byteIf w.enLow buf (wordCell word 0) (badByte w 0) s) (buf := buf)
      (cell := wordCell word 1) hbad
    rw [detail_word word buf 1] at hdetail
    exact ⟨hdetail, hpending⟩
  · obtain ⟨hdetail, hpending⟩ := posted_byteIf_bad (s := s) (buf := buf) (cell := wordCell word 0) hbad
    rw [detail_word word buf 0] at hdetail
    exact posted_byteIf_good hgood hdetail hpending

theorem postsAt_wordReported (h0 : (enabledByte w 0 && badByte w 0) = false) (h1 : (enabledByte w 1 && badByte w 1) = false) :
    postsAt (PartWord.offset .parityDetail) (wordReported buf word w s) = postsAt (PartWord.offset .parityDetail) s :=
  (postsAt_byteIf_good h1).trans (postsAt_byteIf_good h0)

theorem cell_of_word (i : SegNo) (k : Fin 10) (word : Fin 480) (h : Fin 2) :
    (i = segOfCell (wordCell word h) ∧ k = cellInSeg (wordCell word h)) ↔ 10 * i.val + k.val = 2 * word.val + h.val := by
  have hk := k.isLt
  simp only [segOfCell, cellInSeg, wordCell, Fin.ext_iff]
  omega

theorem wordReported_mask (hr : queuesRun s.engine = true) (i : SegNo) (k : Fin 10) :
    (maskOf buf ((wordReported buf word w s).seg i)).getLsbD k.val =
      (if 10 * i.val + k.val = 2 * word.val ∧ w.enLow = true then badByte w 0
      else if 10 * i.val + k.val = 2 * word.val + 1 ∧ w.enHigh = true then badByte w 1
      else (maskOf buf (s.seg i)).getLsbD k.val) := by
  have hlow := cell_of_word i k word 0
  have hhigh := cell_of_word i k word 1
  rw [wordReported, byteIf_mask (byteIf_runs hr), byteIf_mask hr]
  simp only [hlow, hhigh, Fin.val_zero, Fin.val_one, Nat.add_zero]
  by_cases h0 : 10 * i.val + k.val = 2 * word.val
  · have h1 : ¬10 * i.val + k.val = 2 * word.val + 1 := by omega
    simp [h0]
  · simp [h0]

/-! #### The records where no walk and no drive can start -/

/-- A report of a word's byte touches a segment's shown content. -/
def wordTouches (buf : Buffer) (word : Fin 480) (s : State) (k : SegNo) : Bool :=
  decide (s.engine.shown = buf.shown ∧ word.val / 5 = k.val ∧ (s.seg k).state ≠ .faulted)

theorem touches_word (h : Fin 2) : touches buf (wordCell word h) s = wordTouches buf word s := by
  have hcell (k : SegNo) : segOfCell (wordCell word h) = k ↔ word.val / 5 = k.val := by
    have hh := h.isLt
    simp only [segOfCell, wordCell, Fin.ext_iff]
    omega
  funext k
  simp only [touches, wordTouches, hcell]

theorem Rewrites.wordTouches_eq {t : State} {touched : SegNo → Bool} (h : Rewrites s t touched) (hshown : t.engine.shown = s.engine.shown) :
    wordTouches buf word t = wordTouches buf word s := by
  funext k
  simp only [wordTouches, hshown, ne_eq, h.faulted_iff k]

theorem rewrites_byte (hr : queuesRun s.engine = true) (hq : Quiet s) (h : Fin 2) (bad : Bool) :
    Rewrites s (cellByte buf (wordCell word h) bad s) (wordTouches buf word s) := by
  have hbyte := (rewrites_cellByte hr hq buf (wordCell word h) bad).1
  rwa [touches_word] at hbyte

theorem rewrites_word (hr : queuesRun s.engine = true) (hq : Quiet s) (hen : w.enLow = true ∨ w.enHigh = true) :
    Rewrites s (wordReported buf word w s) (wordTouches buf word s) := by
  cases hlow : w.enLow with
  | true =>
    have hfirst := rewrites_byte (buf := buf) (word := word) hr hq 0 (badByte w 0)
    cases hhigh : w.enHigh with
    | true =>
      rw [wordReported_both hlow hhigh]
      have hsecond := rewrites_byte (buf := buf) (word := word) (cellByte_runs (buf := buf) (cell := wordCell word 0) (bad := badByte w 0) hr)
        hfirst.quiet 1 (badByte w 1)
      rw [hfirst.wordTouches_eq (cellByte_shown _ _ _ s)] at hsecond
      exact hfirst.trans hsecond
    | false =>
      rw [wordReported_low hlow hhigh]
      exact hfirst
  | false =>
    have hhigh : w.enHigh = true := hen.resolve_left (by rw [hlow]; exact Bool.false_ne_true)
    rw [wordReported_high hlow hhigh]
    exact rewrites_byte hr hq 1 (badByte w 1)

end

end Sys2Proof.Machine

/-! ### PAGE_BUFFER_WRITE: the queue, the new work, and one byte after the other (R4, R31 to R33, R49; O23) -/

namespace Sys2Proof.Machine

/-! #### The queue after a CLEAN segment's content has changed -/

theorem tailed_joins {q : SegNo → Bool} {l : List SegNo} {i : SegNo} (hq : q i = true) (hi : i ∉ l) : tailed q l i = l ++ [i] := by
  rw [tailed, if_pos hq, if_neg (by simpa using hi)]

theorem tailed_tailed {p q : SegNo → Bool} {l : List SegNo} {i : SegNo} (hq : q i = true) (hi : i ∉ l) : tailed q (tailed p l i) i = l ++ [i] := by
  cases hp : p i with
  | true => rw [tailed_joins hp hi, tailed, if_pos hq, if_pos (by simp)]
  | false =>
    have hsame : tailed p l i = l := by
      rw [tailed, hp, if_neg Bool.false_ne_true]
      exact leave_other hi
    rw [hsame, tailed_joins hq hi]

section
variable {s t : State} {buf : Buffer} {word : Fin 480} {w : HostWrite} {touched : SegNo → Bool}

/-- Where the converter is as it was, no segment has been granted. -/
theorem Rewrites.of_conv (h : Rewrites s t touched) (hconv : t.conv = s.conv) (k : SegNo) :
    t.seg k = rewritten (touched k) (s.seg k) (t.seg k) := by
  by_cases hjob : s.conv.job = none
  · rcases h.records k with hrec | ⟨-, j, hj, -⟩
    · exact hrec
    · rw [hconv, hjob] at hj
      cases hj
  · exact h.atWork hjob k

theorem segOfCell_word (word : Fin 480) (h : Fin 2) {i : SegNo} (hi : word.val / 5 = i.val) : segOfCell (wordCell word h) = i := by
  have hh := h.isLt
  simp only [segOfCell, wordCell, Fin.ext_iff]
  omega

/-- A word's reports bring a CLEAN segment of the shown buffer that ends without a mark to the queue's tail (R32, R49). -/
theorem entries_wordReported (hr : queuesRun s.engine = true) (hquiet : Quiet s) (hen : w.enLow = true ∨ w.enHigh = true) {i : SegNo}
    (hi : word.val / 5 = i.val) (hnot : i ∉ s.queue.entries) (hconv : (wordReported buf word w s).conv = s.conv)
    (hqueueable : queueable s.engine (rewritten (wordTouches buf word s i) (s.seg i) ((wordReported buf word w s).seg i)) = true) :
    (wordReported buf word w s).queue.entries = s.queue.entries ++ [i] := by
  cases hlow : w.enLow with
  | true =>
    cases hhigh : w.enHigh with
    | true =>
      have hreported : wordReported buf word w s =
          cellByte buf (wordCell word 1) (badByte w 1) (cellByte buf (wordCell word 0) (badByte w 0) s) := wordReported_both hlow hhigh
      obtain ⟨m, hm⟩ : ∃ m, m = cellByte buf (wordCell word 0) (badByte w 0) s := ⟨_, rfl⟩
      obtain ⟨hfirst, hentries⟩ := rewrites_cellByte hr hquiet buf (wordCell word 0) (badByte w 0)
      have hmruns : queuesRun m.engine = true := hm ▸ cellByte_runs hr
      have hmshown : m.engine.shown = s.engine.shown := hm ▸ cellByte_shown _ _ _ s
      rw [← hm, segOfCell_word word 0 hi] at hentries
      rw [← hm] at hfirst hreported
      obtain ⟨hsecond, hentries₂⟩ := rewrites_cellByte hmruns hfirst.quiet buf (wordCell word 1) (badByte w 1)
      rw [← hreported, segOfCell_word word 1 hi] at hentries₂
      rw [← hreported] at hsecond
      have hmconv : m.conv = s.conv := by
        refine hfirst.conv.resolve_right fun hgranted => ?_
        rcases hsecond.conv with hkept | ⟨hnone, -⟩
        · exact hgranted.2 (hkept ▸ hconv ▸ hgranted.1)
        · exact hgranted.2 hnone
      have hmseg := hfirst.of_conv hmconv i
      have htouches : touches buf (wordCell word 1) m i = wordTouches buf word s i := by
        rw [touches_word]
        rw [touches_word] at hfirst
        rw [hfirst.wordTouches_eq hmshown]
      rw [hentries₂ (hconv.trans hmconv.symm), hentries hmconv]
      refine tailed_tailed ?_ hnot
      rw [touches_word] at hmseg
      rw [htouches, hmseg, rewritten_again, queueable_congr (hmruns.trans hr.symm) hmshown]
      exact hqueueable
    | false =>
      rw [wordReported_low hlow hhigh] at hconv hqueueable ⊢
      rw [(rewrites_cellByte hr hquiet buf (wordCell word 0) (badByte w 0)).2 hconv, segOfCell_word word 0 hi]
      exact tailed_joins (by rw [touches_word]; exact hqueueable) hnot
  | false =>
    have hhigh : w.enHigh = true := hen.resolve_left (by rw [hlow]; exact Bool.false_ne_true)
    rw [wordReported_high hlow hhigh] at hconv hqueueable ⊢
    rw [(rewrites_cellByte hr hquiet buf (wordCell word 1) (badByte w 1)).2 hconv, segOfCell_word word 1 hi]
    exact tailed_joins (by rw [touches_word]; exact hqueueable) hnot

/-! #### The new work of one byte -/

theorem newWork_cellByte (hr : queuesRun s.engine = true) (hq : QueueLawful s) (cell : Fin 960) (bad : Bool) :
    NewWork (withRecords (fun k => rewritten (touches buf cell s k) (s.seg k) ((cellByte buf cell bad s).seg k)) s) (cellByte buf cell bad s) := by
  obtain ⟨v, hv⟩ : ∃ v, v = reportParity buf cell bad s := ⟨_, rfl⟩
  have hfirm : v.firm = s.firm := hv ▸ reportParity_firm buf cell bad s
  have hsame : SameWork s v := .of_firm hfirm
  obtain ⟨u, hu⟩ : ∃ u, u = cellWritten buf cell bad v := ⟨_, rfl⟩
  have hbyte : cellByte buf cell bad s = closeEvent s (judge u) := by rw [cellByte_eq hr, ← hv, ← hu]
  have htouches (k : SegNo) : touches buf cell v k = touches buf cell s k := by rw [touches, hsame.shown, hsame.seg, touches]
  have hseg (k : SegNo) : u.seg k = rewritten (touches buf cell s k) (s.seg k) ((cellByte buf cell bad s).seg k) := by
    obtain ⟨-, hA, hB, -, -, -, -⟩ := allMarksKept_judge u k
    have hrec := cellWritten_seg (s := v) (buf := buf) (cell := cell) (bad := bad) k
    rw [← hu, htouches, hsame.seg] at hrec
    rw [hbyte, closeEvent_seg]
    exact hrec.trans (rewritten_congr hA hB).symm
  generalize hf : (fun k => rewritten (touches buf cell s k) (s.seg k) ((cellByte buf cell bad s).seg k)) = f
  have hfseg (k : SegNo) : u.seg k = f k := by rw [← hf]; exact hseg k
  rw [hbyte]
  refine newWork_closed (core_congr (fun k => ?_) ?_ ?_ ?_ ?_ ?_ ?_)
  · rw [seg_withRecords]
    exact hfseg k
  · have hone : allSegs.filter (fun k => k == segOfCell cell) = [segOfCell cell] := by
      have hcount : allSegs.count (segOfCell cell) = 1 := List.count_eq_one_of_mem (List.nodup_finRange 96) (List.mem_finRange _)
      rw [List.filter_beq, hcount]
      rfl
    have hrun := entries_tailRun (s := s) (p := fun k => k == segOfCell cell)
      (v := setSeg (segOfCell cell) ((v.seg (segOfCell cell)).cellWrite v.engine.shown buf (cellInSeg cell) bad) v) (f := f)
      (by rw [setSeg_queue, hsame.queue])
      (fun k hk => by
        have hne : k ≠ segOfCell cell := by simpa using hk
        rw [setSeg_engine, seg_setSeg_other hne, queueable_congr hsame.runs hsame.shown, hsame.seg]
        exact hq.2 k)
      (fun r => queueable_congr hsame.runs hsame.shown r) fun k => by
        rw [← hfseg, hu, cellWritten, putSeg_seg, seg_setSeg]
    rw [hone] at hrun
    rw [hu]
    exact hrun
  · rw [asm_withRecords, hu, cellWritten, putSeg_asm, hsame.asm]
  · rw [stroke_withRecords, hu, cellWritten, putSeg_stroke]
    exact congrArg Firm.stroke hfirm
  · rw [withRecords, gate_withJoins, hu, cellWritten, putSeg_gate]
    exact congrArg Firm.gate hfirm
  · rw [conv_withRecords, hu, cellWritten, putSeg_conv, hsame.conv]
  · simp only [State.core, engine_withRecords, hu, cellWritten, putSeg_engine]
    rw [hsame.shown, show v.engine.state = s.engine.state from congrArg Firm.engineState hfirm,
      show v.engine.copy = s.engine.copy from congrArg Firm.copy hfirm, show v.engine.reading = s.engine.reading from congrArg Firm.reading hfirm]

end

end Sys2Proof.Machine

/-! ### PAGE_BUFFER_WRITE (R2, R4, R14, R29 to R33; O23) -/

namespace Sys2Proof.Machine

section
variable {s : State} {buf : Buffer} {word : Fin 480} {w : HostWrite}

theorem cellByte_arbiter (buf : Buffer) (cell : Fin 960) (bad : Bool) (s : State) : (cellByte buf cell bad s).bus.arbiter = s.bus.arbiter := by
  have hclosed : (cellByte buf cell bad s).bus.arbiter = (takeReport buf cell bad (reportParity buf cell bad s)).bus.arbiter :=
    congrArg Firm.arbiter (closeEvent_firm s _)
  rw [hclosed, still_bus (takeReport_still _ _ _ _)]
  exact congrArg Firm.arbiter (reportParity_firm buf cell bad s)

theorem cellByte_state (buf : Buffer) (cell : Fin 960) (bad : Bool) (s : State) : (cellByte buf cell bad s).engine.state = s.engine.state := by
  have hclosed : (cellByte buf cell bad s).engine.state = (takeReport buf cell bad (reportParity buf cell bad s)).engine.state :=
    congrArg Firm.engineState (closeEvent_firm s _)
  rw [hclosed, still_engine (takeReport_still _ _ _ _)]
  exact congrArg Firm.engineState (reportParity_firm buf cell bad s)

/-- A host write served at the port is a change of memory and of the port. -/
theorem storeArea_ported (off : Nat) (w : HostWrite) (s : State) :
    storeArea off w s = ported (s.mem.storeHost (areaBase s + off) w) s.bus.arbiter.servedHost s := rfl

/-- The low byte written and reported and then the high byte written, against both written and then the low byte reported. -/
theorem store_after_byte (off : Nat) (hlow : w.enLow = true) (cell : Fin 960) (bad : Bool) :
    storeArea off { w with enLow := false } (cellByte buf cell bad (storeArea off { w with enHigh := false } s)) =
      cellByte buf cell bad (storeArea off w s) := by
  obtain ⟨x, hx⟩ : ∃ x, x = storeArea off { w with enHigh := false } s := ⟨_, rfl⟩
  have hrim := cellByte_rim buf cell bad x
  have hmem : (cellByte buf cell bad x).mem = x.mem := (othersKept_of_rim hrim).1
  have hstrap : (cellByte buf cell bad x).bus.strap = x.bus.strap := congrArg (fun r => r.2.2.2.2.2.1) hrim
  have hbase : areaBase (cellByte buf cell bad x) = areaBase x := by rw [areaBase, hstrap, areaBase]
  have hboth : ported (x.mem.storeHost (areaBase x + off) { w with enLow := false }) x.bus.arbiter.servedHost x = storeArea off w s := by
    rw [hx, storeArea_ported off w s]
    have hstored : (s.mem.storeHost (areaBase s + off) { w with enHigh := false }).storeHost (areaBase s + off) { w with enLow := false } =
        s.mem.storeHost (areaBase s + off) w := by
      simp [Memory.storeHost, hlow]
    rw [← hstored]
    rfl
  rw [← hx, storeArea_ported, hmem, hbase, cellByte_arbiter, ← cellByte_ported, hboth]

end

end Sys2Proof.Machine

namespace Sys2Proof

open Machine in
/-- Settles O23: the write is stored, and each enabled byte is one event at the Segment Table, which finds the same work whatever memory
holds. -/
theorem pageWriteMarksCells : Obligations.PageWriteMarksCells := by
  unfold Obligations.PageWriteMarksCells
  intro buf word w s hbus hon bad
  let u := storeArea (buf.offset + 2 * word.val) w s
  let t := wordReported buf word w u
  have hwrite : pageWrite buf word w s = t := pageWrite_on hbus.2.1 hon buf word w
  have hrim : t.rim = u.rim := wordReported_rim buf word w u
  obtain ⟨hmem, hothers⟩ := othersKept_of_rim hrim
  refine ⟨t, congrArg Host.Outcome.next hwrite, ?stored, hothers, ?parity, ?posted, ?detail, ?events, ?idle, ?marks, ?quiet, ?newWork, ?split⟩
  case stored =>
    have hstored := storeArea_storedOnly hbus.1 (buf.offset + 2 * word.val) w
    rw [← Nat.add_assoc] at hstored
    simp only [StoredOnly, Stored, SameByte, hmem]
    exact hstored
  case parity =>
    have hparity := isPending_wordReported (s := u) (buf := buf) (word := word) (w := w) (e := .parity) (by decide)
    exact hparity
  case posted =>
    intro h hh
    exact posted_wordReported hh
  case detail =>
    intro h0 h1 p hp hoff
    have hmemAt : p ∈ postsAt (PartWord.offset .parityDetail) t := mem_postsAt.2 ⟨hp, hoff⟩
    rw [postsAt_wordReported h0 h1] at hmemAt
    exact (mem_postsAt.1 hmemAt).1
  case events =>
    intro e hpage hparity
    have hkept := isPending_wordReported (s := u) (buf := buf) (word := word) (w := w) hpage
    rw [beq_eq_false_iff_ne.2 hparity, Bool.false_and, Bool.false_and, Bool.or_false, Bool.or_false] at hkept
    exact hkept
  case idle =>
    intro hr
    have hfirst := byteIf_idle (en := w.enLow) (buf := buf) (cell := wordCell word 0) (bad := badByte w 0) (s := u) hr
    exact (byteIf_idle hfirst.2).1.trans hfirst.1
  case marks =>
    intro hr i k
    have hmask := wordReported_mask (s := u) (buf := buf) (word := word) (w := w) hr i k
    exact ⟨fun other hother => (byteIf_mask_other hother i).trans (byteIf_mask_other hother i), hmask⟩
  case quiet =>
    intro hr hq i
    have huquiet : Quiet u := hq
    intro r v
    have htouched (ht : wordTouches buf word u i = true) : rewritten (wordTouches buf word u i) r (t.seg i) =
        { v with dirty := true, state := if r.state = .clean then .stale else r.state } := by
      rw [ht]
      rfl
    refine ⟨fun hshown hi hen hstate => ?_, fun hnot => ?_⟩
    · have ht : wordTouches buf word u i = true := decide_eq_true ⟨hshown, hi, hstate⟩
      have hrec := (rewrites_word (buf := buf) (word := word) (w := w) (s := u) hr huquiet hen).records i
      refine ⟨htouched ht ▸ hrec, fun hclean hlawful hheld hsuspect hconv => ?_⟩
      refine entries_wordReported (s := u) hr huquiet hen hi (fun hmem => ?_) hconv ?_
      · have hqueued := (hlawful.2 i).1 hmem
        rw [not_queueable (by rw [hclean]; rfl)] at hqueued
        cases hqueued
      · refine (congrArg (queueable u.engine) (htouched ht)).trans ((queueable_iff _ _).2 ⟨hr, ?_, hheld, hsuspect⟩)
        simp only [hclean, if_true]
        rfl
    · by_cases hen : w.enLow = true ∨ w.enHigh = true
      · have hrec := (rewrites_word (buf := buf) (word := word) (w := w) (s := u) hr huquiet hen).records i
        have ht : wordTouches buf word u i = false := decide_eq_false fun ⟨hshown, hi, hstate⟩ =>
          hnot.elim (fun h => h hshown) fun h => h.elim (fun h => h hi) hstate
        rw [ht] at hrec
        exact hrec
      · rw [not_or, Bool.not_eq_true, Bool.not_eq_true] at hen
        have hnone : t = u := by
          simp only [t, wordReported, hen.1, hen.2]
          rfl
        refine .inl ?_
        simp only [v, hnone]
        rfl
  case newWork =>
    intro hr hq hone written
    have hbyte : ∃ (h : Fin 2) (b : Bool), t = cellByte buf (wordCell word h) b u := by
      cases hlow : w.enLow with
      | true => exact ⟨0, badByte w 0, wordReported_low hlow (hone.1 hlow)⟩
      | false =>
        have hhigh : w.enHigh = true := by
          by_contra hnot
          rw [hone.2 (Bool.not_eq_true _ ▸ hnot)] at hlow
          cases hlow
        exact ⟨1, badByte w 1, wordReported_high hlow hhigh⟩
    obtain ⟨h, b, ht⟩ := hbyte
    have hrecords : (fun i => rewritten (touches buf (wordCell word h) u i) (u.seg i) ((cellByte buf (wordCell word h) b u).seg i)) =
        fun i => let r := s.seg i
          let v := { r with suspectA := (t.seg i).suspectA, suspectB := (t.seg i).suspectB }
          if s.engine.shown = buf.shown ∧ word.val / 5 = i.val ∧ r.state ≠ .faulted then
            { v with dirty := true, state := if r.state = .clean then .stale else r.state }
          else v := by
      funext i
      rw [touches_word, ← ht, rewritten, wordTouches]
      simp only [decide_eq_true_eq]
      rfl
    have hnew := newWork_cellByte (s := u) (cell := wordCell word h) (buf := buf) (bad := b) hr hq
    rw [hrecords, ← ht] at hnew
    exact hnew.congr rfl rfl
  case split =>
    intro hlow hhigh
    let low : HostWrite := { w with enHigh := false }
    let high : HostWrite := { w with enLow := false }
    let m := cellByte buf (wordCell word 0) (badByte w 0) (storeArea (buf.offset + 2 * word.val) low s)
    have hfirst : pageWrite buf word low s = m :=
      (pageWrite_on hbus.2.1 hon buf word low).trans (wordReported_low (w := low) hlow rfl)
    have hport : PortLawful m := hfirst ▸ (kept_pageWrite buf word low s).port hbus.port
    have hmon : m.engine.state ≠ .off := by
      rw [cellByte_state]
      exact hon
    have hsecond : pageWrite buf word high m = t := by
      have hstored : storeArea (buf.offset + 2 * word.val) high m = cellByte buf (wordCell word 0) (badByte w 0) u := store_after_byte _ hlow _ _
      rw [pageWrite_on hport.2 hmon, hstored]
      exact (wordReported_high (w := high) rfl hhigh).trans (wordReported_both hlow hhigh).symm
    exact ⟨m, congrArg Host.Outcome.next hfirst, congrArg Host.Outcome.next hsecond⟩

end Sys2Proof

/-! ### The claim timers judged at the descriptor's acceptance (R150, R151, R156; O38) -/

namespace Sys2Proof.Machine

/-- A claim record after its timer is judged against the limit of an accepted descriptor (R156). -/
def claimAccepted (limit : Nat) (c : Claim) : Claim :=
  match c.timer with
  | none => c
  | some n =>
    if c.claim = .taken then
      if limit ≤ n then Claim.freed else if warnCount limit ≤ n then { c with warned := true } else c
    else c

/-- What the judging of a claim leaves alone. -/
def State.unclaimed (s : State) : State :=
  { s with claims := { s.claims with lines := ClaimTable.stopped.lines }, bus := { s.bus with posts := [] },
           events := { s.events with pending := 0 }, owed := { s.owed with pending := false } }

section
variable (l : LineNo) (s : State)

theorem claimPassesWarn_self : (claimPassesWarn l s).claim l = { s.claim l with warned := true } := by
  unfold claimPassesWarn
  split
  · rename_i hwarned
    exact congrArg (fun w => (⟨(s.claim l).claim, (s.claim l).timer, w⟩ : Claim)) hwarned
  · rw [claimWarns, raise_claim, claim_set, if_pos rfl]

theorem claimPassesWarn_unclaimed : (claimPassesWarn l s).unclaimed = s.unclaimed := by
  unfold claimPassesWarn
  split
  · rfl
  · rfl

theorem expired_unclaimed : (expired l s).unclaimed = s.unclaimed := claimPassesWarn_unclaimed l s

/-- A claim timer judged leaves the line, warns it, or lets it expire (R156). -/
inductive ClaimJudged : State → Prop
  | left (h : claimAccepted (claimLimit s.engine.copy) (s.claim l) = s.claim l) : ClaimJudged s
  | warned (h : claimAccepted (claimLimit s.engine.copy) (s.claim l) = { s.claim l with warned := true }) : ClaimJudged (claimPassesWarn l s)
  | expired (h : claimAccepted (claimLimit s.engine.copy) (s.claim l) = Claim.freed) : ClaimJudged (expired l s)

theorem warnCount_le (limit : Nat) : warnCount limit ≤ limit := by
  unfold warnCount
  omega

theorem claimJudged : ClaimJudged l s (judgeClaim l s) := by
  obtain ⟨limit, hlimit⟩ : ∃ limit, limit = claimLimit s.engine.copy := ⟨_, rfl⟩
  unfold judgeClaim
  simp only
  split
  · rename_i htimer
    exact .left (by rw [claimAccepted, htimer])
  · rename_i n htimer
    split
    · rename_i htaken
      by_cases hexpired : limit ≤ n
      · have hwarn : warnCount limit ≤ n := (warnCount_le limit).trans hexpired
        rw [← hlimit, if_pos hexpired, if_pos hwarn]
        exact .expired (by rw [claimAccepted, htimer, ← hlimit]; simp [htaken, hexpired])
      · by_cases hwarn : warnCount limit ≤ n
        · rw [← hlimit, if_neg hexpired, if_pos hwarn]
          exact .warned (by rw [claimAccepted, htimer, ← hlimit]; simp [htaken, htimer, hexpired, hwarn])
        · rw [← hlimit, if_neg hexpired, if_neg hwarn]
          exact .left (by rw [claimAccepted, htimer, ← hlimit]; simp [hexpired, hwarn])
    · rename_i htaken
      exact .left (by rw [claimAccepted, htimer]; simp [htaken])

end

/-! #### One line -/

section
variable {l k : LineNo} {s t : State}

theorem ClaimJudged.unclaimed (h : ClaimJudged l s t) : t.unclaimed = s.unclaimed := by
  cases h with
  | left _ => rfl
  | warned _ => exact claimPassesWarn_unclaimed l s
  | expired _ => exact expired_unclaimed l s

theorem ClaimJudged.self (h : ClaimJudged l s t) : t.claim l = claimAccepted (claimLimit s.engine.copy) (s.claim l) := by
  cases h with
  | left h => exact h.symm
  | warned h => rw [h, claimPassesWarn_self]
  | expired h => rw [h, expired_claim, if_pos rfl]

theorem ClaimJudged.other (h : ClaimJudged l s t) (hk : k ≠ l) : t.claim k = s.claim k := by
  cases h with
  | left _ => rfl
  | warned _ => exact (claimPassesWarn_firmParts l s).2.2.2.2.2.2 k hk
  | expired _ => rw [expired_claim, if_neg hk]

theorem ClaimJudged.pending (h : ClaimJudged l s t) {e : Event} (he : isPending s e = true) : isPending t e = true := by
  cases h with
  | left _ => exact he
  | warned _ => rw [isPending_claimPassesWarn, he, Bool.or_true]
  | expired _ => rw [isPending_expired, he, Bool.or_true, Bool.or_true]

theorem ClaimJudged.posted (h : ClaimJudged l s t) {off : Nat} {v : Word} (hp : Posted s off v) (hword : off ≠ claimOffset l)
    (hdetail : off ≠ PartWord.offset .claimDetail) : Posted t off v := by
  have hwarn : Posted (claimPassesWarn l s) off v := hp.congr (by rw [(claimPassesWarn_firmParts l s).2.2.1])
  cases h with
  | left _ => exact hp
  | warned _ => exact hwarn
  | expired _ =>
    have hset : Posted (setClaim l Claim.freed (claimPassesWarn l s)) off v := hwarn
    exact (hset.post hword 0).post hdetail _

/-- A line whose timer has reached the limit expires (R151). -/
theorem ClaimJudged.expires (h : ClaimJudged l s t) (htaken : (s.claim l).claim = .taken)
    (hfreed : claimAccepted (claimLimit s.engine.copy) (s.claim l) = Claim.freed) :
    Posted t (claimOffset l) 0 ∧ isPending t .claimExpired = true := by
  cases h with
  | left h =>
    rw [← h, hfreed] at htaken
    cases htaken
  | warned h =>
    have hclaim : (s.claim l).claim = .free := congrArg Claim.claim (h.symm.trans hfreed)
    rw [hclaim] at htaken
    cases htaken
  | expired _ => exact ⟨posted_expired_word l s, by rw [isPending_expired]; rfl⟩

/-- A line that was not warned and is now warned raises the event (R150). -/
theorem ClaimJudged.warns (h : ClaimJudged l s t) (hnot : (s.claim l).warned = false)
    (hwarned : (claimAccepted (claimLimit s.engine.copy) (s.claim l)).warned = true) : isPending t .claimWarn = true := by
  cases h with
  | left h =>
    rw [h, hnot] at hwarned
    cases hwarned
  | warned _ => rw [isPending_claimPassesWarn, hnot]; rfl
  | expired h =>
    rw [h] at hwarned
    cases hwarned

end

/-! #### Every line -/

section
variable {s : State} {l : LineNo}

theorem claimLimit_of_unclaimed {t : State} (h : t.unclaimed = s.unclaimed) : claimLimit t.engine.copy = claimLimit s.engine.copy :=
  congrArg (fun u => claimLimit u.engine.copy) h

theorem judgeClaims_induct {P : State → Prop} (hP : ∀ u k, P u → P (judgeClaim k u)) (h : P s) : P (judgeClaims s) :=
  foldl_preserves hP allLines h

theorem judgeClaims_unclaimed (s : State) : (judgeClaims s).unclaimed = s.unclaimed :=
  judgeClaims_induct (P := fun u => u.unclaimed = s.unclaimed) (fun u k hu => (claimJudged k u).unclaimed.trans hu) rfl

theorem judgeClaims_pending {e : Event} (h : isPending s e = true) : isPending (judgeClaims s) e = true :=
  judgeClaims_induct (P := fun u => isPending u e = true) (fun u k hu => (claimJudged k u).pending hu) h

/-- The fold over lines judges a line at its turn, and no other turn changes it. -/
theorem judgeClaims_turn (l : LineNo) (s : State) : ∃ u v : State, u.unclaimed = s.unclaimed ∧ u.claim l = s.claim l ∧
    ClaimJudged l u v ∧ (judgeClaims s).claim l = v.claim l ∧ (∀ e, isPending v e = true → isPending (judgeClaims s) e = true) ∧
    ∀ w, Posted v (claimOffset l) w → Posted (judgeClaims s) (claimOffset l) w := by
  obtain ⟨pre, rest, hlines⟩ := List.append_of_mem (List.mem_finRange l)
  have hnodup : (pre ++ l :: rest).Nodup := hlines ▸ List.nodup_finRange 24
  have hpre : ∀ k ∈ pre, l ≠ k := fun k hk he => (List.nodup_append.1 hnodup).2.2 k hk l List.mem_cons_self he.symm
  have hrest : ∀ k ∈ rest, l ≠ k := fun k hk he => (List.nodup_cons.1 (List.nodup_append.1 hnodup).2.1).1 (he ▸ hk)
  have hbefore : ∀ (ls : List LineNo), (∀ k ∈ ls, l ≠ k) → ∀ u : State, (ls.foldl (fun s l => judgeClaim l s) u).unclaimed = u.unclaimed ∧
      (ls.foldl (fun s l => judgeClaim l s) u).claim l = u.claim l ∧
      (∀ e, isPending u e = true → isPending (ls.foldl (fun s l => judgeClaim l s) u) e = true) ∧
      ∀ w, Posted u (claimOffset l) w → Posted (ls.foldl (fun s l => judgeClaim l s) u) (claimOffset l) w := by
    intro ls
    induction ls with
    | nil => exact fun _ u => ⟨rfl, rfl, fun _ h => h, fun _ h => h⟩
    | cons k ls ih =>
      intro hls u
      obtain ⟨hun, hclaim, hpend, hposted⟩ := ih (fun j hj => hls j (List.mem_cons_of_mem _ hj)) (judgeClaim k u)
      have hk : l ≠ k := hls k List.mem_cons_self
      have hone := claimJudged k u
      exact ⟨hun.trans hone.unclaimed, hclaim.trans (hone.other hk), fun e he => hpend e (hone.pending he), fun w hw => hposted w
        (hone.posted hw (fun h => hk (claimOffset_inj h)) (offset_ne_claimOffset .claimDetail l).symm)⟩
  obtain ⟨hun, hclaim, -, -⟩ := hbefore pre hpre s
  obtain ⟨-, hclaim', hpend, hposted⟩ := hbefore rest hrest (judgeClaim l (pre.foldl (fun s l => judgeClaim l s) s))
  have hfold : judgeClaims s = rest.foldl (fun s l => judgeClaim l s) (judgeClaim l (pre.foldl (fun s l => judgeClaim l s) s)) := by
    rw [judgeClaims, show allLines = pre ++ l :: rest from hlines, List.foldl_append, List.foldl_cons]
  rw [hfold]
  exact ⟨_, _, hun, hclaim, claimJudged l _, hclaim', hpend, hposted⟩

theorem judgeClaims_claim (l : LineNo) (s : State) :
    (judgeClaims s).claim l = claimAccepted (claimLimit s.engine.copy) (s.claim l) := by
  obtain ⟨u, v, hun, hclaim, hjudged, hafter, -, -⟩ := judgeClaims_turn l s
  rw [hafter, hjudged.self, hclaim, claimLimit_of_unclaimed hun]

theorem judgeClaims_expires (htaken : (s.claim l).claim = .taken)
    (hfreed : claimAccepted (claimLimit s.engine.copy) (s.claim l) = Claim.freed) :
    Posted (judgeClaims s) (claimOffset l) 0 ∧ isPending (judgeClaims s) .claimExpired = true := by
  obtain ⟨u, v, hun, hclaim, hjudged, -, hpend, hposted⟩ := judgeClaims_turn l s
  rw [← claimLimit_of_unclaimed hun, ← hclaim] at hfreed
  obtain ⟨hword, hevent⟩ := hjudged.expires (hclaim ▸ htaken) hfreed
  exact ⟨hposted 0 hword, hpend _ hevent⟩

theorem judgeClaims_warns (hnot : (s.claim l).warned = false)
    (hwarned : (claimAccepted (claimLimit s.engine.copy) (s.claim l)).warned = true) : isPending (judgeClaims s) .claimWarn = true := by
  obtain ⟨u, v, hun, hclaim, hjudged, -, hpend, -⟩ := judgeClaims_turn l s
  rw [← claimLimit_of_unclaimed hun, ← hclaim] at hwarned
  exact hpend _ (hjudged.warns (hclaim ▸ hnot) hwarned)

end

end Sys2Proof.Machine

/-! ### The state that the descriptor's acceptance leaves (R45, R52, R156, R168, R170; O38) -/

namespace Sys2Proof.Machine

/-! #### The parts of acceptance -/

section
variable {d : Descriptor} {s : State} {ws : List Word}

/-- The state before the claim timers are judged. -/
def acceptTouched (d : Descriptor) (s : State) : State := touchStarts (syncTail allSegs (acceptRecords d s))

theorem unclaimed_work {s t : State} (h : t.unclaimed = s.unclaimed) : t.segs = s.segs ∧ t.queue = s.queue ∧ t.asm = s.asm ∧
    t.stroke = s.stroke ∧ t.conv = s.conv := by
  have hsegs := congrArg State.segs h
  have hqueue := congrArg State.queue h
  have hasm := congrArg State.asm h
  have hstroke := congrArg State.stroke h
  have hconv := congrArg State.conv h
  exact ⟨hsegs, hqueue, hasm, hstroke, hconv⟩

theorem unclaimed_rest {s t : State} (h : t.unclaimed = s.unclaimed) : t.mem = s.mem ∧ t.gate = s.gate ∧ t.pins = s.pins ∧
    t.pending = s.pending ∧ t.owed.results = s.owed.results ∧ t.events.producer = s.events.producer ∧ t.events.consumer = s.events.consumer := by
  have hmem := congrArg State.mem h
  have hgate := congrArg State.gate h
  have hpins := congrArg State.pins h
  have hpending := congrArg State.pending h
  have hresults := congrArg (fun u : State => u.owed.results) h
  have hproducer := congrArg (fun u : State => u.events.producer) h
  have hconsumer := congrArg (fun u : State => u.events.consumer) h
  exact ⟨hmem, hgate, hpins, hpending, hresults, hproducer, hconsumer⟩

theorem unclaimed_engine {s t : State} (h : t.unclaimed = s.unclaimed) : t.engine = s.engine ∧ t.touch = s.touch := by
  have hengine := congrArg State.engine h
  have htouch := congrArg State.touch h
  exact ⟨hengine, htouch⟩

theorem touchStarts_work (s : State) : (touchStarts s).segs = s.segs ∧ (touchStarts s).queue = s.queue ∧ (touchStarts s).asm = s.asm ∧
    (touchStarts s).stroke = s.stroke ∧ (touchStarts s).conv = s.conv := ⟨rfl, rfl, rfl, rfl, rfl⟩

theorem touchStarts_rest (s : State) : (touchStarts s).mem = s.mem ∧ (touchStarts s).gate = s.gate ∧ (touchStarts s).pins = s.pins ∧
    (touchStarts s).pending = s.pending ∧ (touchStarts s).owed.results = s.owed.results ∧
    (touchStarts s).events.producer = s.events.producer ∧ (touchStarts s).events.consumer = s.events.consumer ∧
    (touchStarts s).claims = s.claims ∧ (touchStarts s).engine = s.engine := ⟨rfl, rfl, rfl, rfl, rfl, rfl, rfl, rfl, rfl⟩

theorem touchStarts_touch (s : State) : (touchStarts s).touch = if touchEnabled s.engine.copy then
    ⟨true, s.pins.touch.map (TouchLine.sampled (guardLength s.engine.copy))⟩ else TouchUnit.stopped := rfl

theorem acceptParts_unclaimed (d : Descriptor) (s : State) : (acceptParts d s).unclaimed = (acceptTouched d s).unclaimed :=
  judgeClaims_unclaimed _

theorem acceptTouched_engine (d : Descriptor) (s : State) : (acceptTouched d s).engine =
    { s.engine with copy := d, shown := initialShow d, showPending := true, reading := none } := by
  obtain ⟨-, -, -, -, -, -, -, -, hengine⟩ := touchStarts_rest (syncTail allSegs (acceptRecords d s))
  rw [acceptTouched, hengine, syncTail_engine]
  rfl

theorem acceptParts_engine (d : Descriptor) (s : State) : (acceptParts d s).engine =
    { s.engine with copy := d, shown := initialShow d, showPending := true, reading := none } :=
  (unclaimed_engine (acceptParts_unclaimed d s)).1.trans (acceptTouched_engine d s)

theorem acceptParts_work (d : Descriptor) (s : State) : (acceptParts d s).segs = s.segs.map Segment.initialised ∧
    (acceptParts d s).queue = (syncTail allSegs (acceptRecords d s)).queue ∧ (acceptParts d s).asm = s.asm ∧
    (acceptParts d s).stroke = s.stroke ∧ (acceptParts d s).conv = s.conv := by
  obtain ⟨hsegs, hqueue, hasm, hstroke, hconv⟩ := unclaimed_work (acceptParts_unclaimed d s)
  obtain ⟨hsegs', hqueue', hasm', hstroke', hconv'⟩ := touchStarts_work (syncTail allSegs (acceptRecords d s))
  rw [acceptTouched] at hsegs hqueue hasm hstroke hconv
  rw [hsegs, hsegs', hqueue, hqueue', hasm, hasm', hstroke, hstroke', hconv, hconv', syncTail_segs, syncTail_asm, syncTail_stroke, syncTail_conv]
  exact ⟨rfl, rfl, rfl, rfl, rfl⟩

theorem acceptParts_seg (i : SegNo) : (acceptParts d s).seg i = (s.seg i).initialised := seg_map (acceptParts_work d s).1 i

theorem initialised_state (r : Segment) : r.initialised.state = if r.state = .faulted then .faulted else .unsure := rfl

theorem queueable_initialised {e : Engine} (hr : queuesRun e = true) (r : Segment) :
    queueable e r.initialised = decide (r.initialised.state = .unsure) := by
  have hsuspect : suspect e.shown r.initialised = false := by
    cases e.shown with
    | a => rfl
    | b => rfl
    | none => rfl
  have hheld : r.initialised.held = false := rfl
  rw [queueable, hr, hsuspect, hheld, initialised_state]
  split
  · rfl
  · rfl

theorem acceptParts_entries (hl : s.engine.state = .loading) (hempty : s.queue.entries = []) :
    (acceptParts d s).queue.entries = allSegs.filter fun i => ((acceptParts d s).seg i).state = .unsure := by
  obtain ⟨-, hqueue, -⟩ := acceptParts_work d s
  have hnone : (acceptRecords d s).queue.entries = [] := hempty
  have hseg (k : SegNo) : (acceptRecords d s).seg k = (s.seg k).initialised := seg_map rfl k
  have hnodup : allSegs.Nodup := List.nodup_finRange 96
  rw [hqueue, entries_syncTail hnodup, hnone, staying, List.filter_nil, List.nil_append, joining]
  refine List.filter_congr fun k _ => ?_
  rw [waiting, hseg, acceptParts_seg, queueable_initialised (by simp [acceptRecords, queuesRun, hl])]
  rfl

/-- What acceptance leaves alone outside the work. -/
theorem acceptParts_rest (d : Descriptor) (s : State) : (acceptParts d s).mem = s.mem ∧ (acceptParts d s).gate = s.gate ∧
    (acceptParts d s).pins = s.pins ∧ (acceptParts d s).pending = s.pending ∧ (acceptParts d s).owed.results = s.owed.results ∧
    (acceptParts d s).events.producer = 0 ∧ (acceptParts d s).events.consumer = 0 := by
  obtain ⟨hmem, hgate, hpins, hpending, hresults, hproducer, hconsumer⟩ := unclaimed_rest (acceptParts_unclaimed d s)
  obtain ⟨hmem', hgate', hpins', hpending', hresults', hproducer', hconsumer', -, -⟩ := touchStarts_rest (syncTail allSegs (acceptRecords d s))
  rw [acceptTouched] at hmem hgate hpins hpending hresults hproducer hconsumer
  rw [hmem, hmem', hgate, hgate', hpins, hpins', hpending, hpending', hresults, hresults', hproducer, hproducer', hconsumer, hconsumer']
  rw [syncTail_mem, syncTail_gate, syncTail_pins, syncTail_pending, syncTail_results, syncTail_events]
  exact ⟨rfl, rfl, rfl, rfl, rfl, rfl, rfl⟩

theorem acceptParts_touch (d : Descriptor) (s : State) : (acceptParts d s).touch =
    if touchEnabled d then ⟨true, s.pins.touch.map (TouchLine.sampled (guardLength d))⟩ else TouchUnit.stopped := by
  rw [(unclaimed_engine (acceptParts_unclaimed d s)).2, acceptTouched, touchStarts_touch, syncTail_engine, syncTail_pins]
  rfl

theorem acceptTouched_claims (d : Descriptor) (s : State) : (acceptTouched d s).claims = s.claims := by
  obtain ⟨-, -, -, -, -, -, -, hclaims, -⟩ := touchStarts_rest (syncTail allSegs (acceptRecords d s))
  rw [acceptTouched, hclaims, syncTail_claims]
  rfl

theorem acceptParts_claim (l : LineNo) : (acceptParts d s).claim l = claimAccepted (claimLimit d) (s.claim l) := by
  have hclaim : (acceptTouched d s).claim l = s.claim l := by rw [State.claim, acceptTouched_claims]; rfl
  rw [acceptParts_eq, judgeClaims_claim, ← acceptTouched, hclaim, acceptTouched_engine]

end

/-! #### The judging of new work over UNSURE segments -/

section
variable {y z : State}

/-- With no record and with UNSURE segments alone in the queue nothing but a grant can start. -/
theorem grants_unsure (hasm : y.asm = none) (h : ∀ k ∈ y.queue.entries, (y.seg k).state = .unsure) : Grants y (judge y) := by
  have hidle : workRound y = y := workRound_noFree hasm fun k hk => by simp [freeStale, h k hk]
  rw [judge, judgeWork_idle hidle]
  exact grants_judgeGrant y

/-- What a grant over such a queue leaves. -/
theorem Grants.overUnsure (h : Grants y z) (hsense : y.conv.sense = Option.none)
    (hq : y.queue.entries = allSegs.filter fun i => (y.seg i).state = .unsure) :
    (∀ i, z.seg i = { y.seg i with state := (z.seg i).state } ∧ ((y.seg i).state = .faulted → (z.seg i).state = .faulted) ∧
      ((y.seg i).state = .unsure → (z.seg i).state = .unsure ∨ (z.seg i).state = .sensing)) ∧
    z.queue.entries = allSegs.filter fun i => (z.seg i).state = .unsure := by
  cases h with
  | none _ => exact ⟨fun i => ⟨rfl, id, .inl⟩, hq⟩
  | @sweep _ i hpick =>
    have hunsure : (y.seg i).state = .unsure := by
      have hsweep := List.find?_some hpick
      simp only [sweepable, Bool.and_eq_true, beq_iff_eq] at hsweep
      exact hsweep.1
    have hseg (k : SegNo) := startSweep_seg i k y
    refine ⟨fun k => ?_, ?_⟩
    · rw [hseg]
      split
      · rename_i hk
        subst hk
        exact ⟨rfl, fun hf => absurd (hunsure.symm.trans hf) (nomatch ·), fun _ => .inr rfl⟩
      · exact ⟨rfl, id, .inl⟩
    · rw [startSweep_queue, sensing_leaves, entries_leave, hq, List.filter_filter]
      refine List.filter_congr fun k _ => ?_
      rw [hseg]
      by_cases hk : k = i
      · simp [hk]
      · simp [hk]
  | @sense _ _ i hpick =>
    obtain ⟨r, hr, -⟩ := sensePick_spec hpick
    rw [hsense] at hr
    cases hr

/-- The SWEEP of the first UNSURE segment on an unshielded line (R58, R112, R119). -/
theorem Grants.sweepsFirst (h : Grants y z) (hasm : y.asm = Option.none) (hdriven : y.stroke.driven = Option.none)
    (hstate : y.conv.state = .standby) (hjob : y.conv.job = Option.none) (hq : y.queue.entries = allSegs.filter fun i => (y.seg i).state = .unsure)
    {i : SegNo} (hi : (y.seg i).state = .unsure) (hshield : shielded y (lineOf i) = false)
    (hfirst : ∀ k < i, (y.seg k).state = .faulted ∨ shielded y (lineOf k) = true) : z = startSweep i y := by
  have hmay : mayGrant y = true := by
    refine (mayGrant_iff y).2 ⟨hstate, hjob, fun d hd => ?_, ?_⟩
    · rw [hdriven] at hd
      cases hd
    · rw [holdBack, hasm]
      rfl
  have hfind : y.queue.entries.find? (sweepable y) = some i := by
    let whole : SenseRecord := ⟨0, 96, []⟩
    have hwhole : whole.range = allSegs := List.filter_eq_self.2 fun k _ => by simp [whole, k.isLt]
    have hsweep (k : SegNo) : sweepable y k = true ↔ (y.seg k).state = .unsure ∧ shielded y (lineOf k) = false := by simp [sweepable]
    rw [hq, List.find?_filter, ← hwhole]
    refine find_range (by rw [hwhole]; exact List.mem_finRange i) ?_ fun k _ hk => ?_
    · simp only [decide_eq_true_eq, hsweep]
      exact ⟨hi, hi, hshield⟩
    · simp only [decide_eq_true_eq, hsweep] at hk
      obtain ⟨-, hunsure, hopen⟩ := hk
      by_contra hlt
      rcases hfirst k (Nat.lt_of_not_le hlt) with hf | hshut
      · rw [hunsure] at hf
        cases hf
      · rw [hopen] at hshut
        cases hshut
  cases h with
  | none hno =>
    rw [(hno hmay).1] at hfind
    cases hfind
  | sweep _ hpick => rw [Option.some.inj (hpick.symm.trans hfind)]
  | sense _ hno _ =>
    rw [hno] at hfind
    cases hfind

end

end Sys2Proof.Machine

/-! ### The posts that end the descriptor's acceptance (R168, R170; O38) -/

namespace Sys2Proof.Machine

section
variable {b u : State}

/-- Posting words that a state's records name, one after another, at offsets that differ. -/
theorem endsWith_foldPosts {α : Type} {off : α → Nat} {value : State → α → Word} (hoff : Function.Injective off)
    (hsame : ∀ o v s x, value (post o v s) x = value s x) {l : List α} (hl : l.Nodup) {s : State} {ps : List Post} (h : EndsWith s ps)
    (hps : ∀ p ∈ ps, ∀ x ∈ l, p.offset ≠ off x) :
    EndsWith (l.foldl (fun s x => post (off x) (value s x) s) s) (ps ++ l.map fun x => ⟨off x, value s x⟩) := by
  induction l generalizing s ps with
  | nil => simpa using h
  | cons x l ih =>
    rw [List.nodup_cons] at hl
    have hnext : EndsWith (post (off x) (value s x) s) (ps ++ [⟨off x, value s x⟩]) :=
      h.post (fun p hp => hps p hp x List.mem_cons_self) _
    have hrest := ih hl.2 hnext fun p hp y hy => by
      rcases List.mem_append.1 hp with hp | hp
      · exact hps p hp y (List.mem_cons_of_mem _ hy)
      · obtain rfl := List.mem_singleton.1 hp
        exact fun he => hl.1 (hoff he ▸ hy)
    simp only [hsame, List.append_assoc, List.singleton_append] at hrest
    exact hrest

theorem mirrorOffset_injective : Function.Injective fun i : SegNo => PartWord.offset (.mirror i) := by
  intro i j h
  simp only [PartWord.offset] at h
  exact Fin.ext (by omega)

theorem endsWith_allMirrors (p : State) : EndsWith (postMirrors allSegs p)
    (allSegs.map fun i => ⟨PartWord.offset (.mirror i), mirrorWord p.engine.shown (p.seg i)⟩) := by
  have hfold := endsWith_foldPosts (off := fun i : SegNo => PartWord.offset (.mirror i))
    (value := fun s i => mirrorWord s.engine.shown (s.seg i)) mirrorOffset_injective (fun _ _ _ _ => rfl) (List.nodup_finRange 96)
    (endsWith_nil p) fun p hp => (nomatch hp)
  exact hfold.congr rfl

/-- The state when acceptance has posted the mirror words and the producer count. -/
def acceptPosted (b u : State) : State := postProducer (postMirrors allSegs (judgeSettled false b u))

theorem acceptPosted_shape (b u : State) : (acceptPosted b u).shape = (judgeSettled false b u).shape := by simp [acceptPosted]

/-- The event pending and engine status words, and the result word that is owed. -/
def acceptEnded (v : State) : State :=
  let r := postStatus (post (PartWord.offset .eventPending) (pendingWord v) v)
  if r.owed.results.isEmpty then { r with owed := { r.owed with pending := false } } else postPending (postResults r)

theorem closeAcceptance_eq (b u : State) : closeAcceptance b u = acceptEnded (acceptPosted b u) := rfl

section
variable {v : State}

theorem acceptEnded_owesNone (h : v.owed.results = []) : acceptEnded v =
    { postStatus (post (PartWord.offset .eventPending) (pendingWord v) v) with owed := { v.owed with pending := false } } := by
  have hempty : (postStatus (post (PartWord.offset .eventPending) (pendingWord v) v)).owed.results.isEmpty = true := by
    rw [show (postStatus (post (PartWord.offset .eventPending) (pendingWord v) v)).owed = v.owed from rfl, h]
    rfl
  exact if_pos hempty

theorem acceptEnded_owesSome (h : v.owed.results ≠ []) : acceptEnded v =
    postPending (postResults (postStatus (post (PartWord.offset .eventPending) (pendingWord v) v))) := by
  have hsome : ¬(postStatus (post (PartWord.offset .eventPending) (pendingWord v) v)).owed.results.isEmpty = true := by
    rw [show (postStatus (post (PartWord.offset .eventPending) (pendingWord v) v)).owed = v.owed from rfl, List.isEmpty_iff]
    exact h
  exact if_neg hsome

theorem acceptEnded_shape (v : State) : (acceptEnded v).shape = v.shape := by
  by_cases h : v.owed.results = []
  · rw [acceptEnded_owesNone h]
    rfl
  · rw [acceptEnded_owesSome h, postPending_shape, postResults_shape]
    rfl

theorem acceptEnded_events (v : State) : (acceptEnded v).events = v.events := by
  by_cases h : v.owed.results = []
  · rw [acceptEnded_owesNone h]
    rfl
  · rw [acceptEnded_owesSome h, postPending_events, postResults_events]
    rfl

end

theorem closeAcceptance_shape (b u : State) : (closeAcceptance b u).shape = (judgeSettled false b u).shape := by
  rw [closeAcceptance_eq, acceptEnded_shape, acceptPosted_shape]

theorem acceptPosted_events (b u : State) : (acceptPosted b u).events = (judgeSettled false b u).events := by
  have hposted (v : State) : (postProducer v).events = v.events := rfl
  rw [acceptPosted, hposted, postMirrors_events]

theorem closeAcceptance_events (b u : State) : (closeAcceptance b u).events = (judgeSettled false b u).events := by
  rw [closeAcceptance_eq, acceptEnded_events, acceptPosted_events]

theorem acceptPosted_owed (b u : State) : (acceptPosted b u).owed.results = u.owed.results ∧
    (u.owed.pending = true → (acceptPosted b u).owed.pending = true) := by
  have howed (v : State) : (postProducer v).owed = v.owed := rfl
  rw [acceptPosted, howed, postMirrors_owed, judgeSettled_results]
  exact ⟨rfl, fun h => judgeSettled_owesPending h false b⟩

theorem statusPost_of_shape {s t : State} (h : t.shape = s.shape) : statusPost t = statusPost s := by
  rw [statusPost, statusWord_of_shape h, statusPost]

theorem pendingPost_of_events {s t : State} (h : t.events = s.events) : pendingPost t = pendingPost s := by
  rw [pendingPost, pendingWord_of (congrArg EventUnit.pending h), pendingPost]

theorem acceptPosted_endsWith (hproducer : u.events.producer = 0) : EndsWith (acceptPosted b u)
    (allSegs.map (fun i => ⟨PartWord.offset (.mirror i), mirrorWord (closeAcceptance b u).engine.shown ((closeAcceptance b u).seg i)⟩)
      ++ [⟨PartWord.offset .ringProducer, 0⟩]) := by
  obtain ⟨p, hp⟩ : ∃ p, p = judgeSettled false b u := ⟨_, rfl⟩
  have hshape : (closeAcceptance b u).shape = p.shape := hp ▸ closeAcceptance_shape b u
  have hshown : (closeAcceptance b u).engine.shown = p.engine.shown := congrArg (fun x => x.engine.shown) hshape
  have hseg (i : SegNo) : (closeAcceptance b u).seg i = p.seg i := (SameWork.of_shape hshape).seg i
  have hcount : (postMirrors allSegs p).events.producer.setWidth 16 = 0 := by
    have hfirm : p.events.producer = u.events.producer := congrArg Firm.producer (hp ▸ judgeSettled_firm false b u)
    rw [postMirrors_events, hfirm, hproducer]
    rfl
  simp only [hshown, hseg]
  rw [acceptPosted, postProducer, ← hp, hcount]
  refine (endsWith_allMirrors p).post (fun q hq => ?_) 0
  obtain ⟨i, -, rfl⟩ := List.mem_map.1 hq
  simp only [PartWord.offset]
  omega

/-- A word posted again leaves its place among the last posts. -/
theorem endsWith_reposted {s : State} {ps qs : List Post} {off : Nat} {x : Word} (h : EndsWith s (ps ++ [⟨off, x⟩] ++ qs))
    (hps : ∀ p ∈ ps, p.offset ≠ off) (hqs : ∀ p ∈ qs, p.offset ≠ off) (w : Word) : EndsWith (post off w s) (ps ++ qs ++ [⟨off, w⟩]) := by
  obtain ⟨rs, hrs⟩ := h
  have hkept {l : List Post} (hl : ∀ p ∈ l, p.offset ≠ off) : (l.filter fun q => q.offset != off) = l :=
    List.filter_eq_self.2 fun p hp => by simpa using hl p hp
  refine ⟨rs.filter fun q => q.offset != off, ?_⟩
  simp [post, postTo, hrs, hkept hps, hkept hqs]

/-- Posts that stand before the engine status, result and event pending words. -/
def Leading (ps : List Post) : Prop := ∀ p ∈ ps, p.offset ≠ PartWord.offset .eventPending ∧ p.offset ≠ PartWord.offset .engineStatus ∧
  p.offset ≠ PartWord.offset .result

theorem leading_mirrors (value : SegNo → Word) :
    Leading (allSegs.map (fun i => ⟨PartWord.offset (.mirror i), value i⟩) ++ [⟨PartWord.offset .ringProducer, 0⟩]) := by
  intro p hp
  rcases List.mem_append.1 hp with hp | hp
  · obtain ⟨i, -, rfl⟩ := List.mem_map.1 hp
    obtain ⟨hstatus, hresult, hpending⟩ := mirror_ne_words i
    exact ⟨hpending, hstatus, hresult⟩
  · obtain rfl := List.mem_singleton.1 hp
    exact ⟨by decide, by decide, by decide⟩

theorem endsWith_statusPending_posts {v : State} {ps : List Post} (h : EndsWith v ps) (hps : Leading ps) :
    EndsWith (postStatus (post (PartWord.offset .eventPending) (pendingWord v) v)) (ps ++ [pendingPost v] ++ [statusPost v]) := by
  refine (h.post (fun p hp => (hps p hp).1) _).post (fun p hp => ?_) _
  rcases List.mem_append.1 hp with hp | hp
  · exact (hps p hp).2.1
  · obtain rfl := List.mem_singleton.1 hp
    exact (by decide : PartWord.offset .eventPending ≠ PartWord.offset .engineStatus)

theorem endsWith_acceptEnded {v : State} {ps : List Post} (h : EndsWith v ps) (hps : Leading ps) (hr : v.owed.results = []) :
    EndsWith (acceptEnded v) (ps ++ [pendingPost (acceptEnded v), statusPost (acceptEnded v)]) := by
  have hposts := endsWith_statusPending_posts h hps
  rw [pendingPost_of_events (acceptEnded_events v), statusPost_of_shape (acceptEnded_shape v), acceptEnded_owesNone hr]
  rw [List.append_assoc] at hposts
  exact hposts.congr rfl

theorem endsWith_acceptEndedDone {v : State} {ps : List Post} {code : Byte} {r : ResultCode} (h : EndsWith v ps) (hps : Leading ps)
    (hr : v.owed.results = [resultWord code r]) (hp : v.owed.pending = true) :
    EndsWith (acceptEnded v) (ps ++ [statusPost (acceptEnded v), resultPost code r, pendingPost (acceptEnded v)]) := by
  obtain ⟨w, hw⟩ : ∃ w, w = postStatus (post (PartWord.offset .eventPending) (pendingWord v) v) := ⟨_, rfl⟩
  have howed : w.owed = v.owed := by rw [hw]; rfl
  have hposts : EndsWith w (ps ++ [pendingPost v] ++ [statusPost v]) := hw ▸ endsWith_statusPending_posts h hps
  have hresults : EndsWith (postResults w) (ps ++ [pendingPost v] ++ [statusPost v] ++ [resultPost code r]) := by
    have hone : postResults w = { post (PartWord.offset .result) (resultWord code r) w with owed := { w.owed with results := [] } } := by
      rw [postResults, howed, hr]
      rfl
    rw [hone]
    refine (hposts.post (fun p hp => ?_) _).congr rfl
    rcases List.mem_append.1 hp with hp | hp
    · rcases List.mem_append.1 hp with hp | hp
      · exact (hps p hp).2.2
      · obtain rfl := List.mem_singleton.1 hp
        exact (by decide : PartWord.offset .eventPending ≠ PartWord.offset .result)
    · obtain rfl := List.mem_singleton.1 hp
      exact (by decide : PartWord.offset .engineStatus ≠ PartWord.offset .result)
  rw [List.append_assoc (ps ++ [pendingPost v])] at hresults
  have hlast := endsWith_reposted hresults (fun p hp => (hps p hp).1) (fun p hp => ?_) (pendingWord (postResults w))
  · have hsome : v.owed.results ≠ [] := by rw [hr]; exact List.cons_ne_nil _ _
    have hpending : (postResults w).owed.pending = true := by rw [postResults_owed, howed]; exact hp
    have hword : pendingWord (postResults w) = pendingWord v := by
      refine pendingWord_of ?_
      rw [postResults_events, hw]
      rfl
    rw [pendingPost_of_events (acceptEnded_events v), statusPost_of_shape (acceptEnded_shape v), acceptEnded_owesSome hsome, ← hw,
      postPending, if_pos hpending]
    rw [hword, List.append_assoc] at hlast
    rw [hword]
    exact hlast.congr rfl
  · rcases List.mem_append.1 hp with hp | hp
    · obtain rfl := List.mem_singleton.1 hp
      exact (by decide : PartWord.offset .engineStatus ≠ PartWord.offset .eventPending)
    · obtain rfl := List.mem_singleton.1 hp
      exact (by decide : PartWord.offset .result ≠ PartWord.offset .eventPending)

/-- The posts of an acceptance in LOADING. -/
theorem endsWith_accepted (hr : u.owed.results = []) (hproducer : u.events.producer = 0) : EndsWith (closeAcceptance b u)
    (allSegs.map (fun i => ⟨PartWord.offset (.mirror i), mirrorWord (closeAcceptance b u).engine.shown ((closeAcceptance b u).seg i)⟩)
      ++ [⟨PartWord.offset .ringProducer, 0⟩, pendingPost (closeAcceptance b u), statusPost (closeAcceptance b u)]) := by
  have hended := endsWith_acceptEnded (acceptPosted_endsWith (b := b) hproducer) (leading_mirrors _) ((acceptPosted_owed b u).1.trans hr)
  rw [← closeAcceptance_eq, List.append_assoc] at hended
  exact hended

/-- The posts of an acceptance that ends LOADING. -/
theorem endsWith_acceptedDone (hr : u.owed.results = [resultWord 1 .done]) (hp : u.owed.pending = true) (hproducer : u.events.producer = 0) :
    EndsWith (closeAcceptance b u) [⟨PartWord.offset .ringProducer, 0⟩, statusPost (closeAcceptance b u), resultPost 1 .done,
      pendingPost (closeAcceptance b u)] := by
  obtain ⟨hresults, hpending⟩ := acceptPosted_owed b u
  have hended := endsWith_acceptEndedDone (acceptPosted_endsWith (b := b) hproducer) (leading_mirrors _) (hresults.trans hr) (hpending hp)
  rw [← closeAcceptance_eq, List.append_assoc] at hended
  exact hended.tail

theorem Posted.acceptEnded {w : State} {off : Nat} {v : Word} (h : Posted w off v) (hoff : NotClosing off) :
    Posted (Machine.acceptEnded w) off v := by
  have hstatus : Posted (Machine.postStatus (Machine.post (PartWord.offset .eventPending) (pendingWord w) w)) off v :=
    (h.post hoff.pending _).post hoff.status _
  by_cases hr : w.owed.results = []
  · rw [acceptEnded_owesNone hr]
    exact hstatus
  · rw [acceptEnded_owesSome hr]
    exact (hstatus.postResults hoff.result).postPending hoff.pending

/-- A word that the end of an acceptance does not post is still there. -/
theorem Posted.accepted {off : Nat} {v : Word} (h : Posted u off v) (hoff : NotClosing off) (hproducer : off ≠ PartWord.offset .ringProducer)
    (b : State) : Posted (closeAcceptance b u) off v := by
  have hjudged : Posted (judgeSettled false b u) off v := h.congr (by rw [judgeSettled_bus])
  have hposted : Posted (acceptPosted b u) off v := (hjudged.postMirrors hoff.mirror allSegs).post hproducer _
  rw [closeAcceptance_eq]
  exact hposted.acceptEnded hoff

end

end Sys2Proof.Machine

/-! ### The descriptor accepted (R45, R132, R156, R168, R170; O38) -/

namespace Sys2Proof.Machine

section
variable {d : Descriptor} {s : State} {ws : List Word}

theorem initialShow_eq (d : Descriptor) : initialShow d = if d[12] = 0 then .a else if d[12] = 1 then .b else .none := by
  have hfield : field8 d 12 = (d[12]).toNat := rfl
  have heq (k : Byte) : (d[12]).toNat = k.toNat ↔ d[12] = k := BitVec.toNat_inj
  unfold initialShow
  rw [hfield]
  split
  · rename_i h
    rw [if_pos ((heq 0).1 h)]
  · rename_i h
    have hone := (heq 1).1 h
    rw [if_neg (by rw [hone]; decide), if_pos hone]
  · rename_i h0 h1
    rw [if_neg fun h => h0 ((heq 0).2 h), if_neg fun h => h1 ((heq 1).2 h)]

theorem seg_of_segs {s t : State} (h : t.segs = s.segs) (k : SegNo) : t.seg k = s.seg k := by
  rw [State.seg, h]
  rfl

theorem claim_of_claims {s t : State} (h : t.claims = s.claims) (l : LineNo) : t.claim l = s.claim l := by
  rw [State.claim, h]
  rfl

/-- The state when acceptance has judged new work (R168, R170). -/
theorem acceptDescriptor_grants (hw : WorkLawful s) (hr : queuesRun s.engine = false) (hl : s.engine.state = .loading) :
    Grants (judgeLoading (acceptParts d s)) (acceptDescriptor d s) := by
  obtain ⟨-, -, -, hidle⟩ := hw
  obtain ⟨hasm, -, -, -, hempty⟩ := hidle hr
  obtain ⟨-, -, hxasm, -, -⟩ := acceptParts_work d s
  refine grants_unsure (by rw [judgeLoading_asm, hxasm, hasm]) fun k hk => ?_
  rw [judgeLoading_queue, acceptParts_entries hl hempty] at hk
  have hseg : (judgeLoading (acceptParts d s)).seg k = (acceptParts d s).seg k := seg_of_segs (judgeLoading_segs _) k
  rw [hseg]
  exact of_decide_eq_true (List.mem_filter.1 hk).2

theorem closeAcceptance_firm (b u : State) : (closeAcceptance b u).firm = u.firm :=
  (firm_of_shape (closeAcceptance_shape b u)).trans (judgeSettled_firm false b u)

/-- What an accepted descriptor leaves as it was, or sets, outside the work. -/
theorem accepted_rim (hg : Grants (judgeLoading (acceptParts d s)) (acceptDescriptor d s)) (b : State) :
    (closeAcceptance b (acceptDescriptor d s)).rim = (acceptParts d s).rim := by
  rw [rim_of_firm (closeAcceptance_firm b _), rim_of_still hg.still, rim_judgeLoading]

theorem isPending_closeAcceptance (b u : State) (e : Event) :
    isPending (closeAcceptance b u) e = isPending (closePosts b (judgeSettled false b u)) e := by
  rw [isPending_closePosts]
  exact isPending_congr (congrArg EventUnit.pending (closeAcceptance_events b u)) e

theorem judgeLoading_keeps (u : State) : (judgeLoading u).bus = u.bus ∧ ∀ e, isPending u e = true → isPending (judgeLoading u) e = true := by
  by_cases h : u.engine.state = .loading ∧ u.engine.reading.isNone ∧ sweptThrough u
  · rw [judgeLoading_loaded h]
    refine ⟨rfl, fun e he => ?_⟩
    refine (isPending_giveResult _ _ _ _).trans (Bool.or_eq_true_iff.2 (.inr ?_))
    exact he
  · rw [judgeLoading_unloaded h]
    exact ⟨rfl, fun _ => id⟩

/-- An event that acceptance has raised is pending at its end. -/
theorem accepted_pending (hg : Grants (judgeLoading (acceptParts d s)) (acceptDescriptor d s)) (b : State) {e : Event}
    (he : isPending (acceptParts d s) e = true) : isPending (closeAcceptance b (acceptDescriptor d s)) e = true := by
  rw [isPending_closeAcceptance]
  refine isPending_ended_mono false b ?_
  rw [isPending_of_still hg.still]
  exact (judgeLoading_keeps _).2 e he

theorem notClosing_claim (l : LineNo) : NotClosing (claimOffset l) :=
  ⟨claimOffset_ne_mirror l, (offset_ne_claimOffset _ l).symm, (offset_ne_claimOffset _ l).symm, (offset_ne_claimOffset _ l).symm⟩

theorem accepted_posted (hg : Grants (judgeLoading (acceptParts d s)) (acceptDescriptor d s)) (b : State) {l : LineNo} {v : Word}
    (h : Posted (acceptParts d s) (claimOffset l) v) : Posted (closeAcceptance b (acceptDescriptor d s)) (claimOffset l) v :=
  Posted.accepted (h.congr (by rw [still_bus hg.still, (judgeLoading_keeps _).1])) (notClosing_claim l) (offset_ne_claimOffset .ringProducer l).symm b

/-- The claim timers over an acceptance (R150, R151, R156). -/
theorem accepted_claims (hg : Grants (judgeLoading (acceptParts d s)) (acceptDescriptor d s)) (b : State) (l : LineNo) :
    let t := closeAcceptance b (acceptDescriptor d s)
    ((s.claim l).claim = .free → (s.claim l).timer = none → t.claim l = s.claim l) ∧
    ∀ n, (s.claim l).claim = .taken → (s.claim l).timer = some n →
      (claimLimit d ≤ n → t.claim l = ⟨.free, none, false⟩ ∧ Posted t (claimOffset l) 0 ∧ isPending t .claimExpired = true) ∧
      (n < claimLimit d → 3 * claimLimit d ≤ 4 * n → t.claim l = ⟨.taken, some n, true⟩ ∧
        ((s.claim l).warned = false → isPending t .claimWarn = true)) ∧
      (4 * n < 3 * claimLimit d → t.claim l = s.claim l) := by
  intro t
  obtain ⟨-, -, -, hclaims, -⟩ := othersKept_of_rim (accepted_rim hg b)
  have hclaim : t.claim l = claimAccepted (claimLimit d) (s.claim l) := by
    rw [claim_of_claims hclaims]
    exact acceptParts_claim l
  have htouched : (acceptTouched d s).claim l = s.claim l := claim_of_claims (acceptTouched_claims d s) l
  have hlimit : claimLimit (acceptTouched d s).engine.copy = claimLimit d := by rw [acceptTouched_engine]
  have hjudged : acceptParts d s = judgeClaims (acceptTouched d s) := acceptParts_eq d s
  refine ⟨fun _ htimer => by rw [hclaim, claimAccepted, htimer], fun n htaken htimer => ⟨fun hle => ?_, fun hlt hwarn => ?_, fun hearly => ?_⟩⟩
  · have hfreed : claimAccepted (claimLimit d) (s.claim l) = Claim.freed := by
      rw [claimAccepted, htimer]
      simp [htaken, hle]
    obtain ⟨hposted, hevent⟩ := judgeClaims_expires (s := acceptTouched d s) (l := l) (by rw [htouched]; exact htaken)
      (by rw [hlimit, htouched]; exact hfreed)
    rw [← hjudged] at hposted hevent
    exact ⟨hclaim.trans hfreed, accepted_posted hg b hposted, accepted_pending hg b hevent⟩
  · have hcount : warnCount (claimLimit d) ≤ n := by
      unfold warnCount
      omega
    have hwarned : claimAccepted (claimLimit d) (s.claim l) = { s.claim l with warned := true } := by
      rw [claimAccepted, htimer]
      simp [htaken, htimer, hcount, Nat.not_le.2 hlt]
    refine ⟨?_, fun hnot => ?_⟩
    · rw [hclaim, hwarned]
      simp only [htaken, htimer]
    · have hevent := judgeClaims_warns (s := acceptTouched d s) (l := l) (by rw [htouched]; exact hnot)
        (by rw [hlimit, htouched, hwarned])
      rw [← hjudged] at hevent
      exact accepted_pending hg b hevent
  · have hcount : ¬warnCount (claimLimit d) ≤ n := by
      unfold warnCount
      omega
    have hlt : ¬claimLimit d ≤ n := by omega
    rw [hclaim, claimAccepted, htimer]
    simp [hcount, hlt]

end

end Sys2Proof.Machine

/-! ### DESCRIPTOR_READ_END of the last read, accepted (R166, R168, R170; O38) -/

namespace Sys2Proof.Machine

section
variable {d : Descriptor} {s : State}

/-- The work when acceptance has judged the end of LOADING. -/
theorem loaded_work (hw : WorkLawful s) (hr : queuesRun s.engine = false) (hl : s.engine.state = .loading) :
    (∀ i, (judgeLoading (acceptParts d s)).seg i = (s.seg i).initialised) ∧
    (judgeLoading (acceptParts d s)).queue.entries = (allSegs.filter fun i => ((judgeLoading (acceptParts d s)).seg i).state = .unsure) ∧
    (judgeLoading (acceptParts d s)).conv = s.conv ∧ (judgeLoading (acceptParts d s)).asm = none ∧
    (judgeLoading (acceptParts d s)).stroke.driven = none := by
  obtain ⟨-, -, -, hidle⟩ := hw
  obtain ⟨hasm, hdriven, -, -, hempty⟩ := hidle hr
  obtain ⟨-, -, hxasm, hxstroke, hxconv⟩ := acceptParts_work d s
  have hseg (i : SegNo) : (judgeLoading (acceptParts d s)).seg i = (acceptParts d s).seg i := seg_of_segs (judgeLoading_segs _) i
  refine ⟨fun i => (hseg i).trans (acceptParts_seg i), ?_, by rw [judgeLoading_conv, hxconv], by rw [judgeLoading_asm, hxasm, hasm],
    by rw [judgeLoading_stroke, hxstroke, hdriven]⟩
  simp only [hseg]
  rw [judgeLoading_queue, acceptParts_entries hl hempty]

/-- The records and the queue that an accepted descriptor leaves (R45, R52, R58). -/
theorem accepted_records (hw : WorkLawful s) (hr : queuesRun s.engine = false) (hl : s.engine.state = .loading) (b : State) :
    let t := closeAcceptance b (acceptDescriptor d s)
    (∀ i, t.seg i = { forgottenAs (s.seg i) (t.seg i).state with dirty := false, held := false, suspectA := 0, suspectB := 0 } ∧
      ((s.seg i).state = .faulted → (t.seg i).state = .faulted) ∧
      ((s.seg i).state ≠ .faulted → (t.seg i).state = .unsure ∨ (t.seg i).state = .sensing)) ∧
    t.queue.entries = (allSegs.filter fun i => (t.seg i).state = .unsure) := by
  have hg := acceptDescriptor_grants (d := d) hw hr hl
  have hfirm := closeAcceptance_firm b (acceptDescriptor d s)
  obtain ⟨hyseg, hyentries, hyconv, -, -⟩ := loaded_work (d := d) hw hr hl
  generalize closeAcceptance b (acceptDescriptor d s) = t at hfirm
  generalize acceptDescriptor d s = z at hg hfirm
  generalize judgeLoading (acceptParts d s) = y at hg hyseg hyentries hyconv
  obtain ⟨-, -, -, hidle⟩ := hw
  obtain ⟨-, -, -, hsense, -⟩ := hidle hr
  obtain ⟨hrecords, hentries⟩ := hg.overUnsure (by rw [hyconv, hsense]) hyentries
  have hsame : SameWork z t := .of_firm hfirm
  refine ⟨fun i => ?_, ?_⟩
  · obtain ⟨hrec, hfaulted, hunsure⟩ := hrecords i
    rw [hyseg] at hrec hfaulted hunsure
    rw [hsame.seg]
    refine ⟨hrec, fun hf => hfaulted (by rw [initialised_state, if_pos hf]), fun hf => hunsure (by rw [initialised_state, if_neg hf])⟩
  · rw [hsame.queue, hentries]
    exact List.filter_congr fun i _ => by rw [hsame.seg]

/-- The first sweep of LOADING (R58, R112, R119). -/
theorem accepted_sweeps (hw : WorkLawful s) (hr : queuesRun s.engine = false) (hl : s.engine.state = .loading) (b : State)
    (hstandby : s.conv.state = .standby) {i : SegNo} (hi : (s.seg i).state ≠ .faulted) :
    let t := closeAcceptance b (acceptDescriptor d s)
    shielded t (lineOf i) = false → (∀ k : SegNo, k < i → (s.seg k).state = .faulted ∨ shielded t (lineOf k) = true) →
    (t.seg i).state = .sensing ∧ t.conv.state = .converting ∧ t.conv.tap = ((pinsOf (~~~faultPins (s.seg i))).head?.map fun _ => i) ∧
      t.conv.job = some ⟨.sweep, [i], (pinsOf (~~~faultPins (s.seg i))).map (fun p => (i, p)), [], false, .unsure⟩ := by
  have hg := acceptDescriptor_grants (d := d) hw hr hl
  have hfirm := closeAcceptance_firm b (acceptDescriptor d s)
  obtain ⟨hyseg, hyentries, hyconv, hyasm, hydriven⟩ := loaded_work (d := d) hw hr hl
  generalize closeAcceptance b (acceptDescriptor d s) = t at hfirm
  generalize acceptDescriptor d s = z at hg hfirm
  generalize judgeLoading (acceptParts d s) = y at hg hyseg hyentries hyconv hyasm hydriven
  intro t' hopen hfirst
  obtain ⟨-, -, -, hidle⟩ := hw
  obtain ⟨-, -, hjob, -, -⟩ := hidle hr
  have hystate (k : SegNo) : (y.seg k).state = if (s.seg k).state = .faulted then .faulted else .unsure := by rw [hyseg]; rfl
  have hshield (l : LineNo) : shielded y l = shielded t l := by
    have htouch : t.touch = z.touch := congrArg Firm.touch hfirm
    rw [shielded, shielded, State.touchLine, State.touchLine, htouch, still_touch hg.still]
  have hsweep := hg.sweepsFirst hyasm hydriven (by rw [hyconv, hstandby]) (by rw [hyconv, hjob]) hyentries (i := i)
    (by rw [hystate, if_neg hi]) (by rw [hshield]; exact hopen)
    fun k hk => (hfirst k hk).imp (fun hf => by rw [hystate, if_pos hf]) fun hs => by rw [hshield]; exact hs
  have hsame : SameWork z t := .of_firm hfirm
  have hpins : faultPins (y.seg i) = faultPins (s.seg i) := by rw [hyseg]; rfl
  simp only [t']
  rw [hsame.seg, hsame.conv, hsweep, startSweep_seg, if_pos rfl, startSweep_conv, hpins, hystate, if_neg hi]
  refine ⟨rfl, rfl, ?_, rfl⟩
  simp only [List.head?_map, Option.map_map]
  rfl

end

end Sys2Proof.Machine

/-! ### DESCRIPTOR_READ_END of the last read, accepted: its end (R166, R168, R170, R183; O38) -/

namespace Sys2Proof.Machine

section
variable {d : Descriptor} {s : State}

theorem judgeLoading_engine (u : State) : (judgeLoading u).engine.copy = u.engine.copy ∧ (judgeLoading u).engine.shown = u.engine.shown ∧
    (judgeLoading u).engine.reading = u.engine.reading := by
  unfold judgeLoading
  split
  · exact ⟨rfl, rfl, rfl⟩
  · exact ⟨rfl, rfl, rfl⟩

/-- Acceptance has swept every segment through where all are FAULTED (R170). -/
theorem acceptParts_swept : sweptThrough (acceptParts d s) = true ↔ ∀ i, (s.seg i).state = .faulted := by
  rw [sweptThrough_iff]
  refine forall_congr' fun i => ?_
  rw [acceptParts_seg, initialised_state]
  split
  · rename_i hf
    simp [hf]
  · rename_i hf
    simp [hf]

/-- Outside the work, what a part does at acceptance before it judges new work is what stands at its end. -/
theorem accepted_engine (hg : Grants (judgeLoading (acceptParts d s)) (acceptDescriptor d s)) (b : State) :
    (closeAcceptance b (acceptDescriptor d s)).engine.copy = d ∧
    (closeAcceptance b (acceptDescriptor d s)).engine.shown = initialShow d ∧
    (closeAcceptance b (acceptDescriptor d s)).engine.reading = none := by
  have hfirm := closeAcceptance_firm b (acceptDescriptor d s)
  have hengine := still_engine hg.still
  obtain ⟨hcopy, hshown, hreading⟩ := judgeLoading_engine (acceptParts d s)
  have hx := acceptParts_engine d s
  generalize closeAcceptance b (acceptDescriptor d s) = t at hfirm
  generalize acceptDescriptor d s = z at hg hfirm hengine
  generalize acceptParts d s = x at hg hengine hcopy hshown hreading hx
  have htcopy : t.engine.copy = z.engine.copy := congrArg Firm.copy hfirm
  have htshown : t.engine.shown = z.engine.shown := congrArg Firm.shown hfirm
  have htreading : t.engine.reading = z.engine.reading := congrArg Firm.reading hfirm
  rw [htcopy, htshown, htreading, hengine, hcopy, hshown, hreading, hx]
  exact ⟨rfl, rfl, rfl⟩

/-- The end of an acceptance that leaves the engine in LOADING (R168). -/
theorem accepted_loading (hg : Grants (judgeLoading (acceptParts d s)) (acceptDescriptor d s)) (howes : OwesNothing s)
    (hl : s.engine.state = .loading) (hnot : ∃ i, (s.seg i).state ≠ .faulted) (b : State) :
    let t := closeAcceptance b (acceptDescriptor d s)
    t.engine.state = .loading ∧ t.engine.showPending = true ∧ t.engine.startOut = s.engine.startOut ∧
      EndsWith t (allSegs.map (fun i => ⟨PartWord.offset (.mirror i), mirrorWord t.engine.shown (t.seg i)⟩)
        ++ [⟨PartWord.offset .ringProducer, 0⟩, pendingPost t, statusPost t]) := by
  have hx := acceptParts_engine d s
  obtain ⟨-, -, -, -, hresults, hproducer, -⟩ := acceptParts_rest d s
  have hload : judgeLoading (acceptParts d s) = acceptParts d s := judgeLoading_unloaded fun h => by
    obtain ⟨i, hi⟩ := hnot
    exact hi (acceptParts_swept.1 h.2.2 i)
  rw [hload] at hg
  have hshape := closeAcceptance_shape b (acceptDescriptor d s)
  generalize acceptDescriptor d s = z at hg hshape
  generalize acceptParts d s = x at hg hx hresults hproducer
  have hengine : z.engine = x.engine := still_engine hg.still
  have hstate : z.engine.state = .loading := by rw [hengine, hx]; exact hl
  have hunsettled : settled z = false := by rw [settled, hstate]; rfl
  have hkept : judgeSettled false b z = z := judgeSettled_unsettled hunsettled fun h => by
    rw [hstate] at h
    exact nomatch h.1
  rw [hkept] at hshape
  have hnone : z.owed.results = [] := by
    rw [show z.owed.results = x.owed.results from congrArg Still.results hg.still, hresults, howes]
    rfl
  have hcount : z.events.producer = 0 := by rw [still_events hg.still, hproducer]
  have hends := endsWith_accepted (b := b) hnone hcount
  generalize closeAcceptance b z = t at hshape hends
  have htengine : t.engine = z.engine := congrArg Shape.engine hshape
  refine ⟨by rw [htengine, hstate], ?_, ?_, hends⟩
  · rw [htengine, hengine, hx]
  · rw [htengine, hengine, hx]

/-- The end of an acceptance that ends LOADING (R170, R183). -/
theorem accepted_running (hg : Grants (judgeLoading (acceptParts d s)) (acceptDescriptor d s)) (hw : WorkLawful s) (howes : OwesNothing s)
    (hr : queuesRun s.engine = false) (hl : s.engine.state = .loading) (hall : ∀ i, (s.seg i).state = .faulted)
    {b : State} (hb : settled b = false) :
    let t := closeAcceptance b (acceptDescriptor d s)
    t.engine.state = .running ∧ t.engine.startOut = false ∧ isPending t .cmdDone = true ∧ isPending t .pageDone = true ∧
      EndsWith t [⟨PartWord.offset .ringProducer, 0⟩, statusPost t, resultPost 1 .done, pendingPost t] := by
  have hx := acceptParts_engine d s
  obtain ⟨-, -, -, -, hresults, hproducer, -⟩ := acceptParts_rest d s
  obtain ⟨hyseg, hyentries, hyconv, hyasm, hydriven⟩ := loaded_work (d := d) hw hr hl
  have hload : judgeLoading (acceptParts d s) = loadEnded (acceptParts d s) :=
    judgeLoading_loaded ⟨by rw [hx]; exact hl, by rw [hx]; rfl, acceptParts_swept.2 hall⟩
  have hshape := closeAcceptance_shape b (acceptDescriptor d s)
  have hevents := closeAcceptance_events b (acceptDescriptor d s)
  rw [hload] at hg hyseg hyentries hyconv hyasm hydriven
  generalize acceptDescriptor d s = z at hg hshape hevents
  generalize acceptParts d s = x at hg hx hresults hproducer hyseg hyentries hyconv hyasm hydriven
  obtain ⟨y, hy⟩ : ∃ y, y = loadEnded x := ⟨_, rfl⟩
  have hyengine : y.engine = { x.engine with state := .running, startOut := false } := by rw [hy]; rfl
  have hyresults : y.owed.results = [resultWord 1 .done] := by
    have hgiven : y.owed.results = x.owed.results ++ [resultWord 1 .done] := by rw [hy]; rfl
    rw [hgiven, hresults, howes]
    rfl
  have hypending : y.owed.pending = true := by rw [hy]; rfl
  have hyproducer : y.events.producer = x.events.producer := by rw [hy]; rfl
  have hydone : isPending y .cmdDone = true := by
    rw [hy, loadEnded, isPending_giveResult]
    rfl
  rw [← hy] at hg hyseg hyentries hyconv hyasm hydriven
  obtain ⟨-, -, -, hidle⟩ := hw
  obtain ⟨-, -, hjob, hsense, -⟩ := hidle hr
  have hfaulted (i : SegNo) : (y.seg i).state = .faulted := by rw [hyseg, initialised_state, if_pos (hall i)]
  have hempty : y.queue.entries = [] := by
    rw [hyentries, List.filter_eq_nil_iff]
    intro i _ hi
    rw [hfaulted i] at hi
    cases of_decide_eq_true hi
  have hsame : z = y := by
    cases hg with
    | none _ => rfl
    | sweep _ hpick =>
      rw [hempty] at hpick
      cases hpick
    | sense _ _ hpick =>
      obtain ⟨r, hsome, -⟩ := sensePick_spec hpick
      rw [hyconv, hsense] at hsome
      cases hsome
  subst hsame
  have hsettled : settled z = true := by
    rw [settled, hyengine, hempty, hyasm, hydriven, hyconv, hjob]
    rfl
  have hends := endsWith_acceptedDone (b := b) hyresults hypending (hyproducer.trans hproducer)
  have hdone := (isPending_closeAcceptance b z .cmdDone).trans (isPending_ended_mono false b hydone)
  rw [judgeSettled_settles hsettled (.inl hb)] at hshape hevents
  generalize closeAcceptance b z = t at hshape hevents hends hdone
  have htengine : t.engine = (pageSettles z).engine := congrArg Shape.engine hshape
  refine ⟨?_, ?_, hdone, ?_, hends⟩
  · rw [htengine, pageSettles_engine, hyengine]
  · rw [htengine, pageSettles_engine, hyengine]
  · rw [isPending_congr (congrArg EventUnit.pending hevents)]
    exact isPending_pageSettles z

theorem accepted_work (hw : WorkLawful s) (hr : queuesRun s.engine = false) (hl : s.engine.state = .loading) (b : State) :
    (closeAcceptance b (acceptDescriptor d s)).asm = none ∧ (closeAcceptance b (acceptDescriptor d s)).stroke = s.stroke := by
  have hg := acceptDescriptor_grants (d := d) hw hr hl
  have hfirm := closeAcceptance_firm b (acceptDescriptor d s)
  obtain ⟨-, -, -, hyasm, -⟩ := loaded_work (d := d) hw hr hl
  have hystroke : (judgeLoading (acceptParts d s)).stroke = s.stroke := by rw [judgeLoading_stroke, (acceptParts_work d s).2.2.2.1]
  generalize closeAcceptance b (acceptDescriptor d s) = t at hfirm
  generalize acceptDescriptor d s = z at hg hfirm
  generalize judgeLoading (acceptParts d s) = y at hg hyasm hystroke
  have htasm : t.asm = z.asm := congrArg Firm.asm hfirm
  have htstroke : t.stroke = z.stroke := congrArg Firm.stroke hfirm
  exact ⟨by rw [htasm, hg.asm, hyasm], by rw [htstroke, hg.stroke, hystroke]⟩

/-- Acceptance posts every mirror word (R168). -/
theorem accepted_mirrors (b u : State) (i : SegNo) : Posted (closeAcceptance b u) (PartWord.offset (.mirror i))
    (mirrorWord (closeAcceptance b u).engine.shown ((closeAcceptance b u).seg i)) := by
  have hposted := mirrors_postProducer (mirrors_postMirrors (judgeSettled false b u))
  rw [← acceptPosted] at hposted
  have hall : AllPosted (acceptEnded (acceptPosted b u)) := by
    generalize acceptPosted b u = v at hposted
    by_cases hr : v.owed.results = []
    · rw [acceptEnded_owesNone hr]
      exact (allPosted_acceptance hposted).setOwed _
    · rw [acceptEnded_owesSome hr]
      exact (allPosted_acceptance hposted).postResults.postPending
  rw [← closeAcceptance_eq] at hall
  exact hall.mirrors i

end

/-- Settles O38: the accepted descriptor sets the part, sweeps the first segment, and ends LOADING where every segment is FAULTED. -/
theorem descriptorAccepted : Obligations.DescriptorAccepted := by
  unfold Obligations.DescriptorAccepted
  intro s ws d hbus hw hl hreading hlen hd hgood
  let b := servedPart .read s
  have hr : queuesRun s.engine = false := by simp [queuesRun, hl, hreading]
  have hbw : WorkLawful b := hw
  have howes : OwesNothing b := hbus.2.2
  have hg := acceptDescriptor_grants (d := d) hbw hr hl
  obtain ⟨hxmem, hxgate, hxpins, hxpending, -, hxproducer, hxconsumer⟩ := acceptParts_rest d b
  obtain ⟨hmem, hgate, htouch, -, -, -, -, -, -, hproducer, hconsumer, hpins, hpending⟩ := othersKept_of_rim (accepted_rim hg b)
  obtain ⟨hcopy, hshown, hnone⟩ := accepted_engine hg b
  have hsamples := htouch.trans (acceptParts_touch d b)
  obtain ⟨hrecords, hentries⟩ := accepted_records (d := d) hbw hr hl b
  obtain ⟨hasm, hstroke⟩ := accepted_work (d := d) hbw hr hl b
  have hclaims := accepted_claims hg b
  have hsweeps := fun hstandby i hi => accepted_sweeps (d := d) hbw hr hl b hstandby (i := i) hi
  have hloading := fun hnot => accepted_loading hg howes hl hnot b
  have hrunning := fun hall => accepted_running hg hbw howes hr hl hall (b := b) (by simp [settled, b, hl])
  have hmirrors := accepted_mirrors b (acceptDescriptor d b)
  have hrun : descriptorReadEnds s = closeAcceptance b (acceptDescriptor d b) := by
    rw [descriptorReadEnds_reading hl hreading, descriptorTakes_last hlen, hlen, judgeDescriptor]
    have hsame : descriptorOf (ws ++ [s.mem.word (areaBase s + descriptorOffset + 2 * 15)]) = d := hd.symm
    rw [hsame, hgood]
  generalize closeAcceptance b (acceptDescriptor d b) = t at *
  refine ⟨t, congrArg Host.Outcome.next hrun, ?memory, hcopy, hshown.trans (initialShow_eq d), hnone, hproducer.trans hxproducer,
    hconsumer.trans hxconsumer, hasm, hstroke, hgate.trans hxgate, hpins.trans hxpins, hpending.trans hxpending, ?touchOff, ?touchOn,
    hclaims, hrecords, hentries, fun hstandby i hi => hsweeps hstandby i hi, hmirrors, hloading, hrunning⟩
  case memory =>
    have hkept : t.mem = s.mem := hmem.trans hxmem
    intro a
    rw [SameByte, hkept]
    exact ⟨rfl, rfl⟩
  case touchOff =>
    intro hoff
    have hfield : touchEnabled d = false := by
      have hbyte : d[(10 : Fin 32)] = 0 := hoff
      rw [touchEnabled, field8, hbyte]
      rfl
    rw [hsamples, hfield]
    rfl
  case touchOn =>
    intro hon
    have hfield : touchEnabled d = true := by
      have hbyte : d[(10 : Fin 32)] = 1 := hon
      rw [touchEnabled, field8, hbyte]
      rfl
    rw [hfield, if_pos rfl] at hsamples
    refine ⟨by rw [hsamples], fun l => ?_⟩
    rw [State.touchLine, hsamples]
    exact Vector.getElem_map _ _

end Sys2Proof.Machine

/-! ### The last read of a capture, and the state that the walk goes on from (R66 to R72, R74; O43) -/

namespace Sys2Proof.Machine

/-! #### What the reads leave of a search behind the walk mark -/

/-- A segment that is judged at the tail, and that a search is not for, leaves what the search behind the walk mark finds. -/
theorem find_behind_sync {p : SegNo → Bool} {i : SegNo} (hp : p i = false) (s : State) :
    (sync .tail i s).queue.behind.find? p = s.queue.behind.find? p := by
  unfold sync
  split
  · split
    · rfl
    · have hjoin : (setQueue (s.queue.join .tail i) s).queue.behind = s.queue.behind ++ [i] := rfl
      rw [hjoin, List.find?_append]
      simp [hp]
  · have hleave : (setQueue (s.queue.leave i) s).queue.behind = s.queue.behind.filter (· != i) := rfl
    rw [hleave, List.find?_filter]
    congr 1
    funext k
    by_cases hk : k = i
    · simp [hk, hp]
    · simp [hk]

theorem find_behind_captureByte {p : SegNo → Bool} {i : SegNo} (hp : p i = false) (buf : Buffer) (k : Fin 10) (bad : Bool) (s : State) :
    (captureByte buf i k bad s).queue.behind.find? p = s.queue.behind.find? p := by
  unfold captureByte
  split
  · exact find_behind_sync hp (setSeg i ((s.seg i).mark buf k true) s)
  · rfl

/-! #### The records that the end of a capture gives -/

section
variable {a : Assembly} {c : Capture} {d : Descriptor} {r : Segment}

/-- A segment still CAPTURING takes its outcome, whatever the part does of a CLEAN one that its target leaves with changes (R68 to R72). -/
theorem capturedRecord_capturing (h : r.state = .capturing) : capturedRecord a c d r = (captureOutcome a c d r).1 := by
  rw [capturedRecord, if_pos h]
  rcases captureOutcome_cases a c d r with ⟨-, ho⟩ | ⟨-, -, ho⟩ | ⟨-, -, hchange, ho⟩ | ⟨-, -, -, -, ho⟩ | ⟨-, -, -, -, ho⟩
  · rw [ho, keptCleanIf_of_ne (by exact (nomatch ·))]
  · rw [ho, keptCleanIf_of_ne (by exact (nomatch ·))]
  · rw [ho]
    have hsame : SameShown { r with target := some (c.target d) } { r with target := some (c.target d), state := .clean } := ⟨rfl, rfl, rfl, rfl⟩
    have hfits := (changeSet_of_shown hsame (by simp [h]) (by simp)).trans hchange
    exact if_neg fun hc => hc.2.1.elim (nomatch ·) fun hne => hne hfits
  · rw [ho, keptCleanIf_of_ne (by exact (nomatch ·))]
  · rw [ho, keptCleanIf_of_ne (by exact (nomatch ·))]

theorem capturedMember_capturing (h : r.state = .capturing) : capturedMember a c d r = (captureOutcome a c d r).2.toList := if_pos h

theorem capturedMember_moved (h : r.state ≠ .capturing) : capturedMember a c d r = [] := if_neg h

/-- The target of a segment that has moved on at the end of its capture (R22, R74). -/
def movedTarget (c : Capture) (d : Descriptor) (r : Segment) : Option PinSet :=
  if c.badRead then none else if c.forgotten then r.target else some (c.target d)

theorem captureMovedOn_eq : captureMovedOn c d r = { r with target := movedTarget c d r } := by
  unfold captureMovedOn movedTarget
  split
  · rfl
  · split <;> rfl

/-- A CLEAN segment that its record leaves with changes, or without a target, becomes STALE in a part that keeps R41 there (log 26). -/
def staleIfUnclean (r : Segment) : Segment := { r with
  state := if r.state = .clean ∧ (r.target = none ∨ changeSet r ≠ 0) ∧ Config.captureGivesWay = true then .stale else r.state }

theorem staleIfUnclean_state (r : Segment) : (staleIfUnclean r).state = r.state ∨ r.state = .clean ∧ (staleIfUnclean r).state = .stale := by
  by_cases h : r.state = .clean ∧ (r.target = none ∨ changeSet r ≠ 0) ∧ Config.captureGivesWay = true
  · exact .inr ⟨h.1, if_pos h⟩
  · exact .inl (if_neg h)

theorem keptCleanIf_eq (r : Segment) : r.keptCleanIf Config.captureGivesWay = staleIfUnclean r := by
  unfold Segment.keptCleanIf staleIfUnclean
  split <;> rfl

theorem capturedRecord_moved (h : r.state ≠ .capturing) :
    capturedRecord a c d r = staleIfUnclean { r with target := movedTarget c d r } := by
  rw [capturedRecord, if_neg h, keptCleanIf_eq, captureMovedOn_eq]

/-- An outcome is CLEAN, STALE or a member. -/
theorem captureOutcome_state : (captureOutcome a c d r).1.state = .clean ∨ (captureOutcome a c d r).1.state = .stale ∨
    (captureOutcome a c d r).1.state = .member := by
  rcases captureOutcome_cases a c d r with ⟨-, ho⟩ | ⟨-, -, ho⟩ | ⟨-, -, -, ho⟩ | ⟨-, -, -, -, ho⟩ | ⟨-, -, -, -, ho⟩
  · rw [ho]; exact .inr (.inl rfl)
  · rw [ho]; exact .inr (.inl rfl)
  · rw [ho]; exact .inl rfl
  · rw [ho]; exact .inr (.inr rfl)
  · rw [ho]; exact .inr (.inl rfl)

/-- An outcome is a member exactly when it makes one. -/
theorem captureOutcome_member_iff : (captureOutcome a c d r).1.state = .member ↔ (captureOutcome a c d r).2 ≠ none := by
  rcases captureOutcome_cases a c d r with ⟨-, ho⟩ | ⟨-, -, ho⟩ | ⟨-, -, -, ho⟩ | ⟨-, -, -, -, ho⟩ | ⟨-, -, -, -, ho⟩ <;> rw [ho] <;> simp

/-- The capture under way is no matter of the outcome. -/
theorem captureOutcome_capture (o : Option Capture) : captureOutcome { a with capture := o } c d r = captureOutcome a c d r := rfl

theorem capturedRecord_capture (o : Option Capture) : capturedRecord { a with capture := o } c d r = capturedRecord a c d r := rfl

theorem capturedMember_capture (o : Option Capture) : capturedMember { a with capture := o } c d r = capturedMember a c d r := rfl

end

/-! #### The state that the walk goes on from -/

/-- The capture with its last word (R66). -/
def lastRead (s : State) (cap : Capture) (buf : Buffer) : Capture :=
  cap.takes (s.mem.word (areaBase s + captureOffset buf cap.seg cap.words.length)) (badNext s buf cap 0) (badNext s buf cap 1)

/-- The segment's record when the last word has been read. -/
def readRecord (s : State) (a : Assembly) (cap : Capture) (buf : Buffer) : Segment := (takenRead s a cap buf).seg cap.seg

/-- The record with which the capture's end leaves its segment. -/
def endRecord (s : State) (a : Assembly) (cap : Capture) (buf : Buffer) : Segment :=
  capturedRecord a (lastRead s cap buf) s.engine.copy (readRecord s a cap buf)

/-- The members when the capture has ended. -/
def endMembers (s : State) (a : Assembly) (cap : Capture) (buf : Buffer) : List Member :=
  a.members ++ capturedMember a (lastRead s cap buf) s.engine.copy (readRecord s a cap buf)

/-- The state with the capture's outcome stored. -/
def captureOver (s : State) (a : Assembly) (cap : Capture) (buf : Buffer) : State :=
  captured (lastRead s cap buf) (takenRead s a cap buf)

/-- The part judges the new member's place in the queue at the event's end only (log 30). -/
abbrev KeepsPlace (o : Segment) : Prop := o.state = .member ∧ Config.droppedKeepsPlace = true

/-- The state that the walk goes on from. -/
def walkingFrom (s : State) (a : Assembly) (cap : Capture) (buf : Buffer) : State :=
  if KeepsPlace (endRecord s a cap buf) then captureOver s a cap buf else sync .tail cap.seg (captureOver s a cap buf)

/-- A walk can go on from a state after an event's own effects: one segment has its new record, and the walk's record its members. -/
structure Onward (s : State) (a : Assembly) (i : SegNo) (o : Segment) (ms : List Member) (y : State) : Prop where
  work : WorkRuns y
  asm : y.asm = some { a with members := ms, capture := none }
  seg : ∀ k, y.seg k = if k = i then o else s.seg k
  stroke : y.stroke = s.stroke
  conv : y.conv = s.conv
  engine : y.engine = s.engine
  gate : y.gate = s.gate
  claims : y.claims = s.claims
  touch : y.touch = s.touch
  find : ∀ p : SegNo → Bool, p i = false → y.queue.behind.find? p = s.queue.behind.find? p
  captured : i ∈ a.captured

section
variable {s : State} {a : Assembly} {cap : Capture} {buf : Buffer}

theorem byteRead_takenRead (s : State) (cap : Capture) (buf : Buffer) :
    ByteRead (servedPart .read s) (readBytes buf cap.seg cap.words.length (badNext s buf cap 0) (badNext s buf cap 1) (servedPart .read s)) :=
  byteRead_readBytes _ _ _ _ _ _

theorem takenRead_seg_other {k : SegNo} (hk : k ≠ cap.seg) : (takenRead s a cap buf).seg k = s.seg k :=
  readBytes_seg_other buf cap.seg cap.words.length (badNext s buf cap 0) (badNext s buf cap 1) (servedPart .read s) hk

theorem takenRead_find {p : SegNo → Bool} (hp : p cap.seg = false) :
    (takenRead s a cap buf).queue.behind.find? p = s.queue.behind.find? p :=
  (find_behind_captureByte hp _ _ _ _).trans (find_behind_captureByte hp _ _ _ _)

theorem captureEnds_eq (ha : s.asm = some a) (hc : a.capture = some cap) (hbuf : cap.buffer = buf.shown) (hlen : cap.words.length = 4) :
    captureReadEnds s = if KeepsPlace (endRecord s a cap buf) then sync .tail cap.seg (judge (walkFromMark (walkingFrom s a cap buf)))
      else judge (walkFromMark (walkingFrom s a cap buf)) := by
  have hseg : (captureOver s a cap buf).seg cap.seg = endRecord s a cap buf := by
    have hfields := (captured_fields (s := takenRead s a cap buf) (c := lastRead s cap buf) rfl rfl).1 cap.seg
    have hengine : (takenRead s a cap buf).engine = s.engine := (byteRead_takenRead s cap buf).engine
    rw [hengine] at hfields
    exact hfields.trans (if_pos rfl)
  have hend := captureEnd_eq (lastRead s cap buf) (takenRead s a cap buf)
  have hover : captured (lastRead s cap buf) (takenRead s a cap buf) = captureOver s a cap buf := rfl
  have hi : (lastRead s cap buf).seg = cap.seg := rfl
  rw [hover, hi, hseg] at hend
  rw [captureReadEnds_last ha hc hbuf (by omega), hend, walkingFrom]
  split <;> rfl

end

end Sys2Proof.Machine

/-! ### The walk can go on from the end of a capture (R56, R67 to R74; O43) -/

namespace Sys2Proof.Machine

section
variable {s : State} {a : Assembly} {cap : Capture} {buf : Buffer}

theorem Onward.sync {i : SegNo} {o : Segment} {ms : List Member} {y : State} (h : Onward s a i o ms y) (hcaptured : ∀ p : SegNo → Bool, p i = false →
    (Machine.sync .tail i y).queue.behind.find? p = y.queue.behind.find? p) : Onward s a i o ms (Machine.sync .tail i y) where
  work := workRules.syncs i y h.work
  asm := (sync_asm .tail i y).trans h.asm
  seg k := (sync_seg .tail i k y).trans (h.seg k)
  stroke := (sync_stroke .tail i y).trans h.stroke
  conv := (sync_conv .tail i y).trans h.conv
  engine := (still_engine (sync_still .tail i y)).trans h.engine
  gate := (still_gate (sync_still .tail i y)).trans h.gate
  claims := (congrArg Still.claims (sync_still .tail i y)).trans h.claims
  touch := (congrArg Still.touch (sync_still .tail i y)).trans h.touch
  find p hp := (hcaptured p hp).trans (h.find p hp)
  captured := h.captured

theorem onward_captureOver (hw : WorkLawful s) (ha : s.asm = some a) (hc : a.capture = some cap) :
    Onward s a cap.seg (endRecord s a cap buf) (endMembers s a cap buf) (captureOver s a cap buf) := by
  have hread := byteRead_takenRead s cap buf
  have hcourse := course_takenRead (cmd := .captureReadEnd) (buf := buf) ha hc
  have htaken : (takenRead s a cap buf).asm = some { a with capture := some (lastRead s cap buf) } := rfl
  obtain ⟨hseg, hasm, hqueue, hstroke, hconv, hstill⟩ := captured_fields (c := lastRead s cap buf) htaken rfl
  have hengine : (takenRead s a cap buf).engine = s.engine := hread.engine
  have hwork : WorkLawful (takenRead s a cap buf) := hcourse.keeps (fun _ _ hu h => h.work hu) hw
  rw [hengine] at hseg hasm
  refine ⟨keepClean_work (work_captureStore ⟨hwork, runs_of_asm hwork htaken⟩), hasm, fun k => ?seg, hstroke.trans hread.stroke,
    hconv.trans hread.conv, (still_engine hstill).trans hengine, (still_gate hstill).trans hread.gate,
    (congrArg Still.claims hstill).trans hread.claims, (congrArg Still.touch hstill).trans hread.touch, fun p hp => ?find, (hw.1 a ha).2.2 cap hc⟩
  case seg =>
    have hi : (lastRead s cap buf).seg = cap.seg := rfl
    rw [hi] at hseg
    refine (hseg k).trans ?_
    by_cases hk : k = cap.seg
    · rw [if_pos hk, if_pos hk]
      rfl
    · rw [if_neg hk, if_neg hk, takenRead_seg_other hk]
  case find =>
    have hover : (captureOver s a cap buf).queue = (takenRead s a cap buf).queue := hqueue
    rw [hover]
    exact takenRead_find hp

/-- The end of a capture lets the walk go on. -/
theorem onward_walkingFrom (hw : WorkLawful s) (ha : s.asm = some a) (hc : a.capture = some cap) :
    Onward s a cap.seg (endRecord s a cap buf) (endMembers s a cap buf) (walkingFrom s a cap buf) := by
  have hover := onward_captureOver (buf := buf) hw ha hc
  unfold walkingFrom
  split
  · exact hover
  · exact hover.sync fun p hp => find_behind_sync hp _

end

/-! #### The queue when the capture has ended -/

section
variable {s : State} {a : Assembly} {cap : Capture} {buf : Buffer}

/-- A capture's reads only add marks. -/
theorem readRecord_eq : readRecord s a cap buf = { s.seg cap.seg with
    suspectA := (readRecord s a cap buf).suspectA, suspectB := (readRecord s a cap buf).suspectB } :=
  readBytes_seg buf cap.seg cap.words.length (badNext s buf cap 0) (badNext s buf cap 1) (servedPart .read s)

theorem readRecord_state : (readRecord s a cap buf).state = (s.seg cap.seg).state := takenRead_state cap.seg

/-- A segment that may wait after a capture's read might before. -/
theorem queueable_of_captureByte {e : Engine} {i : SegNo} {k : Fin 10} {bad : Bool} {u : State}
    (h : queueable e ((captureByte buf i k bad u).seg i) = true) : queueable e (u.seg i) = true := by
  rw [captureByte_seg] at h
  split at h
  · exact queueable_of_mark h
  · exact h

theorem queueable_of_read {e : Engine} (h : queueable e (readRecord s a cap buf) = true) : queueable e (s.seg cap.seg) = true :=
  queueable_of_captureByte (u := servedPart .read s) (queueable_of_captureByte h)

theorem endRecord_marks : MarksKept (readRecord s a cap buf) (endRecord s a cap buf) := by
  have hmarks := captured_marks (c := lastRead s cap buf) (s := takenRead s a cap buf) cap.seg
  have hseg := (captured_fields (s := takenRead s a cap buf) (c := lastRead s cap buf) rfl rfl).1 cap.seg
  have hengine : (takenRead s a cap buf).engine = s.engine := (byteRead_takenRead s cap buf).engine
  rw [hengine] at hseg
  have hrecord : (captured (lastRead s cap buf) (takenRead s a cap buf)).seg cap.seg = endRecord s a cap buf := hseg.trans (if_pos rfl)
  rw [hrecord] at hmarks
  exact hmarks

/-- A member comes only of good reads, which have marked nothing (R69). -/
theorem takenRead_good (h : (endRecord s a cap buf).state = .member) (hstate : (s.seg cap.seg).state ≠ .member) :
    (lastRead s cap buf).badRead = false ∧ (takenRead s a cap buf).queue = s.queue ∧ readRecord s a cap buf = s.seg cap.seg := by
  have hgood : (lastRead s cap buf).badRead = false := by
    by_contra hbad
    rw [Bool.not_eq_false] at hbad
    by_cases hcapturing : (readRecord s a cap buf).state = .capturing
    · rw [endRecord, capturedRecord_capturing hcapturing, captureOutcome, if_pos hbad] at h
      nomatch h
    · rw [endRecord, capturedRecord_moved hcapturing, staleIfUnclean] at h
      rw [← readRecord_state (a := a) (buf := buf)] at hstate
      dsimp only at h
      split at h
      · nomatch h
      · exact hstate h
  have hbits : (cap.badRead || badNext s buf cap 0 || badNext s buf cap 1) = false := hgood
  obtain ⟨hbits', hhigh⟩ := Bool.or_eq_false_iff.1 hbits
  obtain ⟨-, hlow⟩ := Bool.or_eq_false_iff.1 hbits'
  have hsame : readBytes buf cap.seg cap.words.length (badNext s buf cap 0) (badNext s buf cap 1) (servedPart .read s) = servedPart .read s := by
    rw [hlow, hhigh, readBytes_good]
  have hqueue := congrArg State.queue hsame
  have hseg := congrArg (fun u : State => u.seg cap.seg) hsame
  exact ⟨hgood, hqueue, hseg⟩

/-- The queue that the walk goes on from, when the segment was still CAPTURING: the segment has left it, if it may not wait; but where a new
member keeps its place, the entries are as they were (R47, R61, R68 to R72; log 30). -/
theorem walkingFrom_queue (hq : QueueLawful s) (hw : WorkLawful s) (ha : s.asm = some a) (hc : a.capture = some cap)
    (hstate : (s.seg cap.seg).state = .capturing) :
    QueueLawfulBut (if KeepsPlace (endRecord s a cap buf) then [cap.seg] else []) (walkingFrom s a cap buf) ∧
    (walkingFrom s a cap buf).queue.entries = s.queue.entries.filter fun k =>
      k != cap.seg || decide (KeepsPlace (endRecord s a cap buf)) || queueable s.engine (endRecord s a cap buf) := by
  have hover := onward_captureOver (buf := buf) hw ha hc
  have hread := byteRead_takenRead s cap buf
  have hcourse := course_takenRead (cmd := .captureReadEnd) (buf := buf) ha hc
  have hlawful : QueueLawful (takenRead s a cap buf) := hcourse.keeps (fun _ _ hu h => h.queue hu) hq
  have hqueue : (captureOver s a cap buf).queue = (takenRead s a cap buf).queue :=
    (captured_fields (s := takenRead s a cap buf) (c := lastRead s cap buf) rfl rfl).2.2.1
  have hengine : (takenRead s a cap buf).engine = s.engine := hread.engine
  have hbut : QueueLawfulBut [cap.seg] (captureOver s a cap buf) := by
    refine ⟨hqueue ▸ hlawful.1, fun k hk => ?_⟩
    have hne : k ≠ cap.seg := by simpa using hk
    rw [hqueue, hover.engine, hover.seg, if_neg hne, ← takenRead_seg_other (s := s) (a := a) (buf := buf) hne, ← hengine]
    exact hlawful.2 k
  by_cases hkeeps : KeepsPlace (endRecord s a cap buf)
  · rw [if_pos hkeeps, walkingFrom, if_pos hkeeps]
    refine ⟨hbut, ?_⟩
    have hsame := (takenRead_good hkeeps.1 (by rw [hstate]; exact (nomatch ·))).2.1
    rw [hqueue, hsame]
    exact (List.filter_eq_self.2 fun k _ => by simp [hkeeps]).symm
  · rw [if_neg hkeeps, walkingFrom, if_neg hkeeps]
    have hfinal : QueueLawful (sync .tail cap.seg (captureOver s a cap buf)) := hbut.syncOne .tail
    refine ⟨hfinal.but [], ?_⟩
    have hon := hover.sync fun p hp => find_behind_sync hp _
    have hwaits : queueable s.engine (endRecord s a cap buf) = true → cap.seg ∈ s.queue.entries ∧ cap.seg ∈ (takenRead s a cap buf).queue.entries := by
      intro hwait
      have hmay : (readRecord s a cap buf).state.mayQueue = true := by rw [readRecord_state, hstate]; rfl
      have hmid := queueable_of_kept endRecord_marks hwait hmay
      have hin : cap.seg ∈ (takenRead s a cap buf).queue.entries := (hlawful.2 cap.seg).2 (by rw [hengine]; exact hmid)
      exact ⟨(hq.2 cap.seg).2 (queueable_of_read hmid), hin⟩
    have horder : InOrder s.queue.entries (sync .tail cap.seg (captureOver s a cap buf)) := by
      refine InOrder.sync ((inOrder_takenRead (buf := buf) ha hc hq).congr (by rw [hqueue])) .tail fun _ hwait => ?_
      rw [hover.engine, hover.seg, if_pos rfl] at hwait
      rw [hqueue]
      exact (hwaits hwait).2
    have hin : ∀ k ∈ (sync .tail cap.seg (captureOver s a cap buf)).queue.entries, k ∈ s.queue.entries := by
      intro k hk
      have hwait := (hfinal.2 k).1 hk
      rw [hon.engine, hon.seg] at hwait
      split at hwait
      next hki => rw [hki]; exact (hwaits hwait).1
      next => exact (hq.2 k).2 hwait
    rw [entries_of_sublist hq hfinal (sublist_of_inOrder horder hin)]
    refine List.filter_congr fun k hk => ?_
    rw [hon.engine, hon.seg]
    by_cases hki : k = cap.seg
    · simp [hki, hkeeps]
    · rw [if_neg hki, (hq.2 k).1 hk]
      simp [hki]

end

end Sys2Proof.Machine

/-! ### The walk that goes on (R56, R64, R65, R73; O43) -/

namespace Sys2Proof.Machine

theorem walkEnd_dropped {a : Assembly} (h : a.members = []) (u : State) : (walkEnd a u).asm = none := by
  rw [walkEnd, h]
  rfl

theorem walkEnd_armed {a : Assembly} (h : a.members ≠ []) (u : State) :
    (walkEnd a u).asm = some { a with phase := .armed, captured := [], capture := none } := by
  rw [walkEnd, if_neg (by simpa using h)]
  rfl

/-! #### What a walk leaves of a segment that it has captured -/

/-- A walk leaves a segment, and it drops none of the members. -/
structure WalkKeeps (i : SegNo) (ms : List Member) (u w : State) : Prop where
  seg : w.seg i = u.seg i
  stroke : w.stroke = u.stroke
  conv : w.conv = u.conv
  still : w.still = u.still
  members : ∀ m ∈ ms, ∃ b, w.asm = some b ∧ m ∈ b.members

section
variable {i : SegNo}

theorem WalkKeeps.from {ms ns : List Member} {u v w : State} (h : WalkKeeps i ns v w) (hms : ∀ m ∈ ms, m ∈ ns) (hseg : v.seg i = u.seg i)
    (hstroke : v.stroke = u.stroke) (hconv : v.conv = u.conv) (hstill : v.still = u.still) : WalkKeeps i ms u w :=
  ⟨h.seg.trans hseg, h.stroke.trans hstroke, h.conv.trans hconv, h.still.trans hstill, fun m hm => h.members m (hms m hm)⟩

theorem walkKeeps_end {a : Assembly} (u : State) : WalkKeeps i a.members u (walkEnd a u) where
  seg := by rw [State.seg, walkEnd_segs]; rfl
  stroke := walkEnd_stroke a u
  conv := walkEnd_conv a u
  still := walkEnd_still a u
  members m hm := ⟨_, walkEnd_armed (List.ne_nil_of_mem hm) u, hm⟩

theorem walkKeeps_start {u : State} {a : Assembly} (ha : u.asm = some a) {k : SegNo} (hk : i ≠ k) (q : Queue) :
    WalkKeeps i a.members u (captureStart k (setQueue q u)) where
  seg := by rw [captureStart_seg, if_neg hk]; rfl
  stroke := captureStart_stroke k _
  conv := captureStart_conv k _
  still := captureStart_still k _
  members m hm := ⟨_, captureStart_asm (s := setQueue q u) ha k, hm⟩

/-- A walk does not come back to a segment that it has captured (R56, R64). -/
theorem walkOn_keeps (n : Nat) {u : State} {a : Assembly} (ha : u.asm = some a) (hi : i ∈ a.captured) :
    WalkKeeps i a.members u (walkOn n u) := by
  induction n generalizing u a with
  | zero => exact ⟨rfl, rfl, rfl, rfl, fun m hm => ⟨a, ha, hm⟩⟩
  | succ n ih =>
    by_cases hend : a.full = true ∨ u.queue.behind = []
    · rw [walkOn_end ha hend]
      exact walkKeeps_end u
    obtain ⟨hopen, hbehind⟩ := not_or.1 hend
    obtain ⟨k, rest, hb⟩ := List.exists_cons_of_ne_nil hbehind
    have hfull := Bool.eq_false_iff.2 hopen
    by_cases hk : eligible a u k = true
    · have hne : i ≠ k := by
        rintro rfl
        simp [eligible, hi] at hk
      by_cases hshown : u.engine.shown = .none
      · rw [walkOn_blank ha hfull hb hk hshown]
        have hasm := captureNone_asm (s := setQueue (u.queue.passMark k rest) u) ha k
        refine (ih hasm (List.mem_cons_of_mem _ hi)).from (fun m hm => List.mem_append_left _ hm) ?_ (captureNone_stroke k)
          (captureNone_conv k) (captureNone_still k _)
        rw [captureNone_seg (s := setQueue (u.queue.passMark k rest) u) ha, if_neg hne]
        rfl
      · rw [walkOn_starts (pre := []) hfull hshown hk (fun _ h => nomatch h) ha hb (Nat.succ_pos n)]
        exact walkKeeps_start ha hne _
    · rw [walkOn_pass ha hfull hb (Bool.eq_false_iff.2 hk)]
      exact (ih (u := setQueue (u.queue.passMark k rest) u) ha hi).from (fun _ h => h) rfl rfl rfl rfl

end

/-! #### The next entry of the walk -/

/-- An entry that a walk with a record may capture (R56). -/
def walkMay (s : State) (a : Assembly) (k : SegNo) : Bool :=
  (s.seg k).state == .stale && (s.claim (lineOf k)).claim == .free && !(s.touchLine (lineOf k)).shield && !a.captured.contains k

theorem nextOfWalk_eq (s : State) (a : Assembly) : nextOfWalk s a = s.queue.behind.find? (walkMay s a) := rfl

theorem full_iff (a : Assembly) : a.full = true ↔ 4 ≤ a.members.length ∨ 240 ≤ totalCost a.members := by
  simp only [Assembly.full, Bool.or_eq_true, Nat.ble_eq, beq_iff_eq, budgetLeft, show Config.maxMembers = 4 from rfl, show Config.budget = 240 from rfl]
  omega

section
variable {s : State} {a : Assembly} {i : SegNo} {o : Segment} {ms : List Member} {y : State} (h : Onward s a i o ms y)
include h

theorem Onward.may (k : SegNo) : eligible { a with members := ms, capture := none } y k = walkMay s a k := by
  by_cases hk : k = i
  · subst hk
    simp [eligible, walkMay, h.captured]
  · have hseg : y.seg k = s.seg k := (h.seg k).trans (if_neg hk)
    have hclaim : y.claim (lineOf k) = s.claim (lineOf k) := by rw [State.claim, h.claims]; rfl
    have htouch : y.touchLine (lineOf k) = s.touchLine (lineOf k) := by rw [State.touchLine, h.touch]; rfl
    have hfree (c : ClaimState) : (!(c == .taken)) = (c == .free) := by cases c <;> rfl
    simp only [eligible, freeStale, walkMay, claimed, shielded, hseg, hclaim, htouch, hfree]

theorem Onward.find_next : y.queue.behind.find? (walkMay s a) = nextOfWalk s a :=
  h.find _ (by simp [walkMay, h.captured])

/-- The walk captures the next entry that it may (R56, R65). -/
theorem Onward.starts (hopen : ¬(4 ≤ ms.length ∨ 240 ≤ totalCost ms)) (hshown : s.engine.shown ≠ .none) {k : SegNo} (hk : nextOfWalk s a = some k) :
    ∃ pre rest, y.queue.behind = pre ++ k :: rest ∧
      walkFromMark y = captureStart k (setQueue { y.queue with ahead := y.queue.ahead ++ (pre ++ [k]), behind := rest } y) := by
  rw [← h.find_next] at hk
  obtain ⟨hmay, pre, rest, hb, hpre⟩ := List.find?_eq_some_iff_append.1 hk
  refine ⟨pre, rest, hb, walkOn_starts ?_ (by rw [h.engine]; exact hshown) ((h.may k).trans hmay) (fun j hj => (h.may j).trans ?_) h.asm hb ?_⟩
  · exact Bool.eq_false_iff.2 fun hfull => hopen ((full_iff _).1 hfull)
  · simpa using hpre j hj
  · rw [hb, List.length_append]
    omega

/-- The walk ends at a full record, or with no entry that it may capture (R56, R73). -/
theorem Onward.ends (hend : (4 ≤ ms.length ∨ 240 ≤ totalCost ms) ∨ nextOfWalk s a = none) :
    walkFromMark y = walkEnd { a with members := ms, capture := none } y := by
  by_cases hfull : 4 ≤ ms.length ∨ 240 ≤ totalCost ms
  · exact walkOn_end h.asm (.inl ((full_iff _).2 hfull)) _
  · have hnone := hend.resolve_left hfull
    rw [← h.find_next] at hnone
    refine walkOn_ends (Bool.eq_false_iff.2 fun hf => hfull ((full_iff _).1 hf)) h.asm rfl (fun j hj => ?_) (Nat.lt_succ_self _)
    rw [h.may]
    exact Bool.eq_false_iff.2 (List.find?_eq_none.1 hnone j hj)

theorem Onward.keeps : WalkKeeps i ms y (walkFromMark y) := walkOn_keeps _ h.asm h.captured

theorem Onward.runs : WorkRuns (walkFromMark y) := workRules.walk h.work

end

end Sys2Proof.Machine

/-! ### New work after the walk that goes on (R63, R84 to R87, R112; O43) -/

namespace Sys2Proof.Machine

/-- A state shows the segments and the work of another. -/
structure Reports (u t : State) : Prop where
  seg : ∀ k, t.seg k = u.seg k
  asm : t.asm = u.asm
  stroke : t.stroke = u.stroke
  conv : t.conv = u.conv

section
variable {u t : State} (h : Reports u t)
include h

theorem Reports.orSensing {i : SegNo} {r : Segment} (ht : OrSensing u i r) : OrSensing t i r := by
  unfold OrSensing at ht ⊢
  rwa [h.seg, h.conv]

theorem Reports.recaptured {i : SegNo} {r : Segment} (ht : Recaptured u i r) : Recaptured t i r := by
  unfold Recaptured at ht ⊢
  rwa [h.seg, h.asm]

end

/-- New work with A or B shown leaves a segment that is no member as it was, takes it for a job, or captures it anew. -/
theorem judge_shown_seg {w : State} (hshown : w.engine.shown ≠ .none) {i : SegNo}
    (hi : ∀ a, w.asm = some a → i ∉ a.members.map Member.seg) :
    OrSensing (judge w) i (w.seg i) ∨ (w.seg i).state = .stale ∧ Recaptured (judge w) i (w.seg i) := by
  by_cases hd : driveReady w = true
  · obtain ⟨a, ha, -, -, -⟩ := driveReady_spec hd
    have hasm := driveStart_asm w
    have hengine : (driveStart w).engine = w.engine := still_engine (driveStart_still w)
    have hseg := judge_fresh_seg hasm (by rw [hengine]; exact hshown) i
    rw [driveStart_seg_other ha (hi a ha), ← judge_driveStart hd hshown hasm] at hseg
    exact hseg
  · by_cases hasm : w.asm = none
    · exact judge_fresh_seg hasm hshown i
    · exact .inl ((judge_of_quiet ⟨Bool.eq_false_iff.2 hd, .inr hasm⟩).2.2.1 i)

section
variable {s : State} {a : Assembly} {i : SegNo} {o : Segment} {ms : List Member} {y t : State} (h : Onward s a i o ms y)
include h

theorem Onward.walked_seg : (walkFromMark y).seg i = o := h.keeps.seg.trans ((h.seg i).trans (if_pos rfl))

theorem Onward.walked_engine : (walkFromMark y).engine = s.engine := (still_engine h.keeps.still).trans h.engine

theorem Onward.walked_stroke : (walkFromMark y).stroke = s.stroke := h.keeps.stroke.trans h.stroke

theorem Onward.walked_conv : (walkFromMark y).conv = s.conv := h.keeps.conv.trans h.conv

/-- A segment that is no member of the record before the walk is none after it. -/
theorem Onward.not_member (ho : o.state ≠ .member) (b : Assembly) (hb : (walkFromMark y).asm = some b) : i ∉ b.members.map Member.seg := fun hmem => by
  have hstate := member_of_armed h.runs hb hmem
  rw [h.walked_seg] at hstate
  exact ho hstate

variable (ht : Reports (judge (walkFromMark y)) t)
include ht

/-- In PAUSED no drive starts, and the members stay (R73, R84). -/
theorem Onward.paused (hpaused : s.engine.state = .paused) :
    Quiet (walkFromMark y) ∧ t.stroke = s.stroke ∧ ∀ m ∈ ms, ∃ b, t.asm = some b ∧ m ∈ b.members := by
  have hstop : (walkFromMark y).engine.state ≠ .running := by
    rw [h.walked_engine, hpaused]
    exact (nomatch ·)
  have hquiet : Quiet (walkFromMark y) := ⟨driveReady_false fun _ _ _ hrun => absurd hrun hstop, .inl hstop⟩
  obtain ⟨hasm, hstroke, -, -⟩ := judge_of_quiet hquiet
  refine ⟨hquiet, ht.stroke.trans (hstroke.trans h.walked_stroke), fun m hm => ?_⟩
  rw [ht.asm, hasm]
  exact h.keeps.members m hm

/-- In PAUSED with no SENSE outstanding the segment stands as the event has left it (R63, R84, R123). -/
theorem Onward.paused_seg (hpaused : s.engine.state = .paused) (hsense : s.conv.sense = none) (ho : o.state ≠ .unsure) : t.seg i = o := by
  obtain ⟨hquiet, -, -⟩ := h.paused ht hpaused
  rw [ht.seg, judge_seg_left hquiet (fun rec hrec => ?_) (by rw [h.walked_seg]; exact ho), h.walked_seg]
  rw [h.walked_conv, hsense] at hrec
  nomatch hrec

/-- A segment that no walk and no drive takes is as the event has left it, or a job has it (R119, R124). -/
theorem Onward.apart (hstale : o.state ≠ .stale) (hmember : o.state ≠ .member) : OrSensing t i o := by
  have hseg := judge_orSensing (k := i) h.runs (by rw [h.walked_seg]; exact hstale) (by rw [h.walked_seg]; exact hmember)
  rw [h.walked_seg] at hseg
  exact ht.orSensing hseg

/-- With A or B shown, a segment that is no member is as the event has left it, is with a job, or is under a new capture. -/
theorem Onward.shown (hshown : s.engine.shown ≠ .none) (ho : o.state ≠ .member) : OrSensing t i o ∨ o.state = .stale ∧ Recaptured t i o := by
  have hseg := judge_shown_seg (w := walkFromMark y) (by rw [h.walked_engine]; exact hshown) (h.not_member ho)
  rw [h.walked_seg] at hseg
  exact hseg.imp ht.orSensing (And.imp_right ht.recaptured)

/-- What new work leaves where the walk has left nothing to start. -/
theorem Onward.quiet (hquiet : Quiet (walkFromMark y)) : t.stroke = s.stroke ∧ t.asm = (walkFromMark y).asm ∧ OrSensing t i o := by
  obtain ⟨hasm, hstroke, hseg, -⟩ := judge_of_quiet hquiet
  have hi := hseg i
  rw [h.walked_seg] at hi
  exact ⟨ht.stroke.trans (hstroke.trans h.walked_stroke), ht.asm.trans hasm, ht.orSensing hi⟩

end

/-! #### A further capture -/

section
variable {s : State} {a : Assembly} {i : SegNo} {o : Segment} {ms : List Member} {y t : State} (h : Onward s a i o ms y)
  (hopen : a.phase = .assembling)
include h hopen

section
variable (hfull : ¬(4 ≤ ms.length ∨ 240 ≤ totalCost ms)) (hshown : s.engine.shown ≠ .none) {k : SegNo} (hk : nextOfWalk s a = some k)
include hfull hshown hk

theorem Onward.further_asm : (walkFromMark y).asm = captureOf s ms a.captured k := by
  obtain ⟨pre, rest, -, hwalk⟩ := h.starts hfull hshown hk
  have hasm := captureStart_asm (s := setQueue { y.queue with ahead := y.queue.ahead ++ (pre ++ [k]), behind := rest } y) h.asm k
  rw [hwalk, hasm, captureOf, hopen, blankCapture, setQueue_engine, h.engine]

theorem Onward.further_quiet : Quiet (walkFromMark y) := by
  have hasm := h.further_asm hopen hfull hshown hk
  refine ⟨driveReady_false fun b hb hp => ?_, .inr (by rw [hasm]; exact (nomatch ·))⟩
  rw [hasm] at hb
  obtain rfl := Option.some.inj hb
  nomatch hp

omit hopen in
theorem Onward.further_seg : (walkFromMark y).seg k = { s.seg k with state := .capturing, dirty := false } := by
  obtain ⟨pre, rest, -, hwalk⟩ := h.starts hfull hshown hk
  have hne : k ≠ i := by
    rintro rfl
    have hmay := List.find?_some hk
    simp [h.captured] at hmay
  have hseg := captureStart_seg k k (setQueue { y.queue with ahead := y.queue.ahead ++ (pre ++ [k]), behind := rest } y)
  rw [hwalk, hseg, if_pos rfl, setQueue_seg, h.seg, if_neg hne]

/-- The walk goes on to its next capture (R56, R65). -/
theorem Onward.further (ht : Reports (judge (walkFromMark y)) t) : t.asm = captureOf s ms a.captured k ∧
    t.seg k = { s.seg k with state := .capturing, dirty := false } ∧ t.stroke = s.stroke ∧ OrSensing t i o := by
  have hquiet := h.further_quiet hopen hfull hshown hk
  obtain ⟨hstroke, hasm, hi⟩ := h.quiet ht hquiet
  have hseg := h.further_seg hfull hshown hk
  have hgrant := grants_judgeGrant (walkFromMark y)
  refine ⟨hasm.trans (h.further_asm hopen hfull hshown hk), ?_, hstroke, hi⟩
  rw [ht.seg, judge, judgeWork_quiet hquiet, hgrant.seg_of_ne (by rw [hseg]; exact (nomatch ·)) (by rw [hseg]; rfl), hseg]

end

end

end Sys2Proof.Machine

/-! ### The end of the walk, and the drive of its members (R73, R84 to R87; O43) -/

namespace Sys2Proof.Machine

/-- A record is rechecked as another is (R85). -/
structure CheckedAlike (r u : Segment) : Prop where
  held : u.held = r.held
  suspectA : u.suspectA = r.suspectA
  suspectB : u.suspectB = r.suspectB
  dirty : u.dirty = r.dirty

theorem CheckedAlike.suspect {r u : Segment} (h : CheckedAlike r u) (shown : Shown) : suspect shown u = suspect shown r := by
  simp only [Machine.suspect, h.suspectA, h.suspectB]

theorem Onward.driveFree_iff {s : State} {a : Assembly} {i : SegNo} {o : Segment} {ms : List Member} {y : State} (h : Onward s a i o ms y) :
     DriveFree (walkFromMark y) ↔ DriveFree s := by
  have hgate : (walkFromMark y).gate = s.gate := (still_gate h.keeps.still).trans h.gate
  unfold DriveFree
  rw [h.walked_stroke, h.walked_conv, hgate]

section
variable {s : State} {a : Assembly} {i : SegNo} {o : Segment} {ms : List Member} {y t : State} (h : Onward s a i o ms y)
  (hend : (4 ≤ ms.length ∨ 240 ≤ totalCost ms) ∨ nextOfWalk s a = none)
include h hend

/-! #### With no member -/

theorem Onward.none_asm (hms : ms = []) : (walkFromMark y).asm = none := by
  rw [h.ends hend]
  exact walkEnd_dropped hms y

/-- In PAUSED the walk that has made no member ends, and none starts (R63, R73). -/
theorem Onward.none_paused (ht : Reports (judge (walkFromMark y)) t) (hms : ms = []) (hpaused : s.engine.state = .paused) :
    t.asm = none ∧ t.stroke = s.stroke ∧ OrSensing t i o := by
  have hasm := h.none_asm hend hms
  have hquiet : Quiet (walkFromMark y) := ⟨driveReady_noAsm hasm, .inl (by rw [h.walked_engine, hpaused]; exact (nomatch ·))⟩
  obtain ⟨hstroke, hrecord, hi⟩ := h.quiet ht hquiet
  exact ⟨hrecord.trans hasm, hstroke, hi⟩

/-- With A or B shown a walk that has made no member ends, and a new one may start (R63, R73). -/
theorem Onward.none_shown (ht : Reports (judge (walkFromMark y)) t) (hms : ms = []) (hshown : s.engine.shown ≠ .none) :
    t.stroke = s.stroke ∧ (∀ b, t.asm = some b → b.phase = .assembling ∧ b.members = []) ∧
      (OrSensing t i o ∨ o.state = .stale ∧ Recaptured t i o) := by
  have hasm := h.none_asm hend hms
  have hshown' : (walkFromMark y).engine.shown ≠ .none := by rw [h.walked_engine]; exact hshown
  have hi := judge_fresh_seg hasm hshown' i
  rw [h.walked_seg] at hi
  refine ⟨ht.stroke.trans ((judge_fresh_stroke hasm hshown').trans h.walked_stroke), fun b hb => ?_,
    hi.imp ht.orSensing (And.imp_right ht.recaptured)⟩
  rw [ht.asm] at hb
  exact judge_fresh_asm hasm hshown' hb

/-! #### With members -/

variable (hms : ms ≠ [])
include hms

theorem Onward.armed_asm : (walkFromMark y).asm = some { a with phase := .armed, members := ms, captured := [], capture := none } := by
  rw [h.ends hend]
  exact walkEnd_armed hms y

omit hms in
/-- The walk's end leaves the segments. -/
theorem Onward.ended_seg (k : SegNo) : (walkFromMark y).seg k = y.seg k := by
  rw [h.ends hend, State.seg, walkEnd_segs]
  rfl

/-- The walk that has made members ends, and no drive is free to start (R73, R84). -/
theorem Onward.armed_quiet (hdrives : ¬(s.engine.state = .running ∧ DriveFree s)) : Quiet (walkFromMark y) := by
  have hasm := h.armed_asm hend hms
  refine ⟨driveReady_false fun b hb _ hrun hfree => hdrives ⟨?_, h.driveFree_iff.1 hfree⟩, .inr (by rw [hasm]; exact (nomatch ·))⟩
  rw [← h.walked_engine]
  exact hrun

theorem Onward.armed (ht : Reports (judge (walkFromMark y)) t) (hdrives : ¬(s.engine.state = .running ∧ DriveFree s)) : t.stroke = s.stroke ∧
    t.asm = some { a with phase := .armed, members := ms, captured := [], capture := none } ∧ OrSensing t i o := by
  obtain ⟨hstroke, hrecord, hi⟩ := h.quiet ht (h.armed_quiet hend hms hdrives)
  exact ⟨hstroke, hrecord.trans (h.armed_asm hend hms), hi⟩

end

/-! #### The drive -/

section
variable {s : State} {a : Assembly} {i : SegNo} {o : Segment} {ms : List Member} {y : State} (h : Onward s a i o ms y)
  (hlike : ∀ m ∈ ms, m.seg = i → CheckedAlike (s.seg i) o)
include h hlike

theorem Onward.alike {m : Member} (hm : m ∈ ms) : CheckedAlike (s.seg m.seg) (y.seg m.seg) := by
  rw [h.seg]
  split
  next hi => rw [hi]; exact hlike m hm hi
  next => exact ⟨rfl, rfl, rfl, rfl⟩

theorem Onward.rejoining_eq {w : State} (hseg : ∀ k, w.seg k = y.seg k) (hengine : w.engine = s.engine) {ns : List Member} (hns : ∀ m ∈ ns, m ∈ ms) :
    rejoining w ns = rejoining s ns := by
  refine List.filter_congr fun k hk => ?_
  obtain ⟨m, hm, rfl⟩ := List.mem_map.1 hk
  have halike := h.alike hlike (hns m hm)
  rw [hseg, hengine, halike.held, halike.suspect]

variable (hend : (4 ≤ ms.length ∨ 240 ≤ totalCost ms) ∨ nextOfWalk s a = none)
include hend

theorem Onward.dropped_eq {m : Member} (hm : m ∈ ms) : dropped (walkFromMark y) m = dropped s m := by
  have halike := h.alike hlike hm
  have hclaim : (walkFromMark y).claim (lineOf m.seg) = s.claim (lineOf m.seg) := by
    have hclaims : (walkFromMark y).claims = s.claims := (congrArg Still.claims h.keeps.still).trans h.claims
    rw [State.claim, hclaims]
    rfl
  have htouch : (walkFromMark y).touchLine (lineOf m.seg) = s.touchLine (lineOf m.seg) := by
    have hunit : (walkFromMark y).touch = s.touch := (congrArg Still.touch h.keeps.still).trans h.touch
    rw [State.touchLine, hunit]
    rfl
  simp only [dropped, claimed, shielded, h.ended_seg hend, h.walked_engine, halike.held, halike.suspect, halike.dirty, hclaim, htouch]

theorem Onward.out_eq : ms.filter (dropped (walkFromMark y)) = ms.filter (dropped s) :=
  List.filter_congr fun _ hm => h.dropped_eq hlike hend hm

theorem Onward.kept_eq : keptMembers (walkFromMark y) ms = keptMembers s ms := by
  rw [keptMembers, keptMembers]
  congr 1
  exact List.filter_congr fun _ hm => by rw [h.dropped_eq hlike hend hm]

variable (hms : ms ≠ [])
include hms

omit hlike in
/-- The members' drive is judged from the walk's end as from the state before the event. -/
theorem Onward.driveJudged (hrun : s.engine.state = .running) (hfree : DriveFree s) :
    DriveJudged (walkFromMark y) (judge (walkFromMark y)) s.stroke ms := by
  have hjudged := driveJudged_judge (h.armed_asm hend hms) rfl (by rw [h.walked_engine]; exact hrun) (h.driveFree_iff.2 hfree)
  rw [h.walked_stroke] at hjudged
  exact hjudged

section
variable {t : State} (ht : Reports (judge (walkFromMark y)) t) (hrun : s.engine.state = .running) (hfree : DriveFree s)
include ht hrun hfree

/-- The members that pass the recheck are driven (R87, R88). -/
theorem Onward.drives (hkept : keptMembers s ms ≠ []) : t.stroke = driving s (keptMembers s ms) ∧
    (∀ m ∈ keptMembers s ms, t.seg m.seg = { y.seg m.seg with state := .moving }) ∧
    t.moduleLink = ((keptMembers s ms).map fun m => (m.seg, m.raise, m.lower)) ∧ t.conv = s.conv := by
  obtain ⟨hdrive, -, -⟩ := h.driveJudged hend hms hrun hfree
  rw [h.kept_eq hlike hend] at hdrive
  obtain ⟨hstroke, hconv, -, hsegs, hlink⟩ := hdrive hkept
  refine ⟨?_, fun m hm => ?_, ?_, ht.conv.trans (hconv.trans h.walked_conv)⟩
  · rw [ht.stroke, hstroke, h.walked_engine]
    rfl
  · rw [ht.seg, hsegs m hm, h.ended_seg hend]
  · rw [← hlink, State.moduleLink, State.moduleLink, ht.stroke]

/-- With A or B shown, a member that the recheck drops is STALE, and from there with a job or under a new capture (R85). -/
theorem Onward.drops (hshown : s.engine.shown ≠ .none) {m : Member} (hm : m ∈ ms) (hout : dropped s m = true) :
    OrSensing t m.seg { y.seg m.seg with state := .stale } ∨ Recaptured t m.seg { y.seg m.seg with state := .stale } := by
  obtain ⟨-, -, hdropped⟩ := h.driveJudged hend hms hrun hfree
  obtain ⟨hsegs, -⟩ := hdropped h.runs.work (by rw [h.walked_engine]; exact hshown)
  have hseg := hsegs m (List.mem_filter.2 ⟨hm, (h.dropped_eq hlike hend hm).trans hout⟩)
  rw [h.ended_seg hend] at hseg
  exact hseg.imp ht.orSensing ht.recaptured

/-- With A or B shown and no member left, no drive starts, and a new walk may (R63, R86). -/
theorem Onward.allDropped (hkept : keptMembers s ms = []) (hshown : s.engine.shown ≠ .none) : t.stroke = s.stroke ∧
    ∀ b, t.asm = some b → b.phase = .assembling ∧ b.members = [] := by
  obtain ⟨-, hnone, -⟩ := h.driveJudged hend hms hrun hfree
  rw [h.kept_eq hlike hend] at hnone
  obtain ⟨hstroke, hasm⟩ := hnone hkept (by rw [h.walked_engine]; exact hshown)
  exact ⟨ht.stroke.trans hstroke, fun b hb => hasm b (ht.asm.symm.trans hb)⟩

end

end

end Sys2Proof.Machine

/-! ### The queue after a recheck, wherever its members stand (R50, R51, R61, R85; O43) -/

namespace Sys2Proof.Machine

theorem lessGranted_filter (s t : State) (l : List SegNo) (p : SegNo → Bool) : (lessGranted s t l).filter p = lessGranted s t (l.filter p) := by
  unfold lessGranted
  split
  · rfl
  · rw [List.filter_filter, List.filter_filter]
    simp only [Bool.and_comm]

theorem lessGranted_congr {s s' t t' : State} (hs : s'.conv = s.conv) (ht : t'.conv = t.conv) (l : List SegNo) :
    lessGranted s' t' l = lessGranted s t l := by rw [lessGranted, lessGranted, hs, ht]

section
variable {s : State} {ms : List Member} (hn : (ms.map Member.seg).Nodup) (hrun : queuesRun s.engine = true)

theorem outOf_contains (k : SegNo) : (ms.map Member.seg).contains k = ((outOf s ms).contains k || ((keptMembers s ms).map Member.seg).contains k) := by
  rw [Bool.eq_iff_iff]
  rw [Bool.or_eq_true, List.contains_iff_mem, List.contains_iff_mem, List.contains_iff_mem, mem_outOf, mem_keptSegs, List.mem_map]
  constructor
  · rintro ⟨m, hm, rfl⟩
    cases hd : dropped s m with
    | true => exact .inl ⟨m, hm, hd, rfl⟩
    | false => exact .inr ⟨m, hm, hd, rfl⟩
  · rintro (⟨m, hm, -, rfl⟩ | ⟨m, hm, -, rfl⟩)
    · exact ⟨m, hm, rfl⟩
    · exact ⟨m, hm, rfl⟩

theorem rejoining_out {k : SegNo} (hk : (rejoining s (ms.filter (dropped s))).contains k = true) : (outOf s ms).contains k = true :=
  List.contains_iff_mem.2 (List.mem_filter.1 (List.contains_iff_mem.1 hk)).1

theorem outOf_not_kept {k : SegNo} (hk : (outOf s ms).contains k = true) : ((keptMembers s ms).map Member.seg).contains k = false :=
  Bool.eq_false_iff.2 fun hc => kept_not_out ms (List.contains_iff_mem.1 hc) (List.contains_iff_mem.1 hk)

include hn hrun

/-- The dropped members that may wait join at the head, but for those that stand in the queue, which keep their places (R51, R61, R85). -/
theorem rechecked_queue : (rechecked s ms).queue.entries =
    ((rejoining s (ms.filter (dropped s))).filter fun k => !s.queue.entries.contains k) ++
      s.queue.entries.filter fun k => !(outOf s ms).contains k || (rejoining s (ms.filter (dropped s))).contains k := by
  have hqueue : (setStates .stale (outOf s ms) (setAsm none s)).queue = s.queue := by simp
  have hengine : (setStates .stale (outOf s ms) (setAsm none s)).engine = s.engine := by simp
  have hwait {k : SegNo} (hk : k ∈ outOf s ms) : waiting (setStates .stale (outOf s ms) (setAsm none s)) k =
      (!(s.seg k).held && !suspect s.engine.shown (s.seg k)) := by
    rw [waiting, hengine, setStates_seg, if_pos hk]
    simp only [queueable, hrun, show SegState.stale.mayQueue = true from rfl, Bool.true_and]
    rfl
  rw [rechecked, entries_syncHead (nodup_outOf hn), hqueue]
  congr 1
  · have hback : rejoining s (ms.filter (dropped s)) = (outOf s ms).filter fun k => !(s.seg k).held && !suspect s.engine.shown (s.seg k) := rfl
    rw [hback, List.filter_filter]
    exact List.filter_congr fun k hk => by rw [hwait hk]
  · refine List.filter_congr fun k _ => ?_
    by_cases hk : k ∈ outOf s ms
    · rw [hwait hk, Bool.eq_iff_iff]
      have hback : (rejoining s (ms.filter (dropped s))).contains k = true ↔
          k ∈ outOf s ms ∧ (!(s.seg k).held && !suspect s.engine.shown (s.seg k)) = true := by
        rw [List.contains_iff_mem]
        exact List.mem_filter
      rw [Bool.or_eq_true, Bool.or_eq_true, hback]
      simp [hk]
    · have hout : (outOf s ms).contains k = false := Bool.eq_false_iff.2 fun hc => hk (List.contains_iff_mem.1 hc)
      rw [hout]
      rfl

/-- The members that are driven leave the queue (R47, R87). -/
theorem driven_queue : (driven s ms).queue.entries =
    ((rejoining s (ms.filter (dropped s))).filter fun k => !s.queue.entries.contains k) ++
      s.queue.entries.filter fun k => !(ms.map Member.seg).contains k || (rejoining s (ms.filter (dropped s))).contains k := by
  have hqueue : (setStates .moving ((keptMembers s ms).map Member.seg) (rechecked s ms)).queue = (rechecked s ms).queue := by simp
  have hmoving (k : SegNo) (hk : k ∈ (keptMembers s ms).map Member.seg) :
      waiting (setStates .moving ((keptMembers s ms).map Member.seg) (rechecked s ms)) k = false := by
    rw [waiting, setStates_seg, if_pos hk]
    exact not_queueable rfl
  have hjoin (l : List SegNo) : joining (waiting (setStates .moving ((keptMembers s ms).map Member.seg) (rechecked s ms))) l
      ((keptMembers s ms).map Member.seg) = [] := List.filter_eq_nil_iff.2 fun k hk => by simp [hmoving k hk]
  have hstay (l : List SegNo) : staying (waiting (setStates .moving ((keptMembers s ms).map Member.seg) (rechecked s ms)))
      ((keptMembers s ms).map Member.seg) l = l.filter fun k => !((keptMembers s ms).map Member.seg).contains k := by
    refine List.filter_congr fun k _ => ?_
    cases hk : ((keptMembers s ms).map Member.seg).contains k with
    | true => rw [hmoving k (List.contains_iff_mem.1 hk)]; rfl
    | false => rfl
  rw [driven, setStroke_queue, entries_syncTail (nodup_keptSegs hn), hqueue, hjoin, hstay, List.append_nil, rechecked_queue hn hrun,
    List.filter_append]
  congr 1
  · refine List.filter_eq_self.2 fun k hk => ?_
    rw [outOf_not_kept (rejoining_out (List.contains_iff_mem.2 (List.mem_filter.1 hk).1))]
    rfl
  · rw [List.filter_filter]
    refine List.filter_congr fun k _ => ?_
    rw [outOf_contains (s := s) (ms := ms)]
    cases hout : (outOf s ms).contains k with
    | true => rw [outOf_not_kept hout]; rfl
    | false =>
      have hback : (rejoining s (ms.filter (dropped s))).contains k = false := Bool.eq_false_iff.2 fun hc => by
        rw [rejoining_out hc] at hout
        nomatch hout
      rw [hback]
      simp

theorem driveStart_queue {a : Assembly} (ha : s.asm = some a) (hms : a.members = ms) : (driveStart s).queue.entries =
    ((rejoining s (ms.filter (dropped s))).filter fun k => !s.queue.entries.contains k) ++
      s.queue.entries.filter fun k => !(ms.map Member.seg).contains k || (rejoining s (ms.filter (dropped s))).contains k := by
  subst hms
  rw [driveStart_eq ha]
  split
  next hempty =>
    rw [rechecked_queue hn hrun]
    congr 1
    refine List.filter_congr fun k _ => ?_
    rw [outOf_contains (s := s) (ms := a.members), List.isEmpty_iff.1 hempty]
    simp
  next => exact driven_queue hn hrun

end

/-- A recheck judges the place of every member (R40, R85, R87). -/
theorem driveStart_lawful {s : State} {a : Assembly} (ha : s.asm = some a) {S : List SegNo} (h : QueueLawfulBut S s)
    (hS : ∀ k ∈ S, k ∈ a.members.map Member.seg) : QueueLawful (driveStart s) := by
  have hrechecked : QueueLawfulBut (S.filter fun k => !(outOf s a.members).contains k) (rechecked s a.members) := by
    refine ((h.setAsm none).setStates .stale (outOf s a.members)).syncHead.mono fun k hk => ?_
    exact List.mem_filter.2 ⟨mem_of_judged hk, (List.mem_filter.1 hk).2⟩
  have hkept {k : SegNo} (hk : k ∈ S.filter fun k => !(outOf s a.members).contains k) :
      ((keptMembers s a.members).map Member.seg).contains k = true := by
    obtain ⟨hmem, hout⟩ := List.mem_filter.1 hk
    have hall := List.contains_iff_mem.2 (hS k hmem)
    rw [outOf_contains (s := s), Bool.eq_false_of_not_eq_true' hout, Bool.false_or] at hall
    exact hall
  rw [driveStart_eq ha]
  split
  next hempty =>
    refine (hrechecked.mono (T := []) fun k hk => ?_).all
    have hmem := hkept hk
    rw [List.isEmpty_iff.1 hempty] at hmem
    nomatch hmem
  next =>
    have hdriven := QueueLawfulBut.syncTails (is := (keptMembers s a.members).map Member.seg)
      (hrechecked.setStates .moving ((keptMembers s a.members).map Member.seg))
    have hlawful : QueueLawful (syncTail ((keptMembers s a.members).map Member.seg)
        (setStates .moving ((keptMembers s a.members).map Member.seg) (rechecked s a.members))) := by
      refine (hdriven.mono (T := []) fun k hk => ?_).all
      have hout := (List.mem_filter.1 hk).2
      rw [hkept (mem_of_judged hk)] at hout
      nomatch hout
    exact hlawful

end Sys2Proof.Machine

/-! ### The queue after the walk that goes on (R47, R61, R70 to R72, R85; O43) -/

namespace Sys2Proof.Machine

/-- The state that judging a new member's place at the event's end gives from new work's state (log 30). -/
def placed (o : Segment) (i : SegNo) (u : State) : State := if KeepsPlace o then sync .tail i u else u

theorem placed_still (o : Segment) (i : SegNo) (u : State) : (placed o i u).still = u.still := by
  unfold placed
  split
  · exact sync_still .tail i u
  · rfl

theorem placed_reports (o : Segment) (i : SegNo) (u : State) : Reports u (placed o i u) := by
  unfold placed
  split
  · exact ⟨fun k => sync_seg .tail i k u, sync_asm .tail i u, sync_stroke .tail i u, sync_conv .tail i u⟩
  · exact ⟨fun _ => rfl, rfl, rfl, rfl⟩

/-- A lawful queue needs no judging (R40). -/
theorem sync_lawful {u : State} (h : QueueLawful u) (i : SegNo) : (sync .tail i u).queue.entries = u.queue.entries := by
  rw [entries_sync_tail, tailed]
  by_cases hi : i ∈ u.queue.entries
  · have hwait : waiting u i = true := (h.2 i).1 hi
    simp [hwait, hi]
  · have hwait : waiting u i = false := Bool.eq_false_iff.2 fun hw => hi ((h.2 i).2 hw)
    simp only [hwait]
    exact leave_other hi

section
variable {s : State} {a : Assembly} {i : SegNo} {o : Segment} {ms : List Member} {y : State} (h : Onward s a i o ms y)
  (hbut : QueueLawfulBut (if KeepsPlace o then [i] else []) y)
  (hentries : y.queue.entries = s.queue.entries.filter fun k => k != i || decide (KeepsPlace o) || queueable s.engine o)
include h hbut

omit h in
theorem QueueLawfulBut.but_one : QueueLawfulBut [i] y := by
  refine hbut.mono fun k hk => ?_
  split at hk
  · exact hk
  · nomatch hk

/-- The walk leaves the entries of the queue with A or B shown, and where it ends (R64, R73). -/
theorem Onward.walked_entries (hcase : s.engine.shown ≠ .none ∨ (4 ≤ ms.length ∨ 240 ≤ totalCost ms) ∨ nextOfWalk s a = none) :
    (walkFromMark y).queue.entries = y.queue.entries := by
  by_cases hend : (4 ≤ ms.length ∨ 240 ≤ totalCost ms) ∨ nextOfWalk s a = none
  · rw [h.ends hend, walkEnd_entries]
  · obtain ⟨hfull, hnext⟩ := not_or.1 hend
    obtain ⟨k, hk⟩ := Option.ne_none_iff_exists'.1 hnext
    obtain ⟨pre, rest, hb, hwalk⟩ := h.starts hfull (hcase.resolve_right hend) hk
    have hsame : (setQueue { y.queue with ahead := y.queue.ahead ++ (pre ++ [k]), behind := rest } y).queue.entries = y.queue.entries := by
      simp [Queue.entries, hb]
    have hmem : k ∈ y.queue.entries := by simp [Queue.entries, hb]
    have hne : k ≠ i := by
      rintro rfl
      have hmay := List.find?_some hk
      simp [h.captured] at hmay
    have hqueue := captureStart_queue_same (s := setQueue { y.queue with ahead := y.queue.ahead ++ (pre ++ [k]), behind := rest } y) (i := k)
      ((hbut.but_one.2 k (by simpa using hne)).1 hmem) (by rw [hsame]; exact hmem)
    rw [hwalk, hqueue, hsame]

/-- A FAULTED segment is not in the queue that new work is judged with. -/
theorem Onward.faulted_not_queued (ho : o.state ≠ .faulted) {k : SegNo} (hk : ((walkFromMark y).seg k).state = .faulted) :
    k ∉ (walkFromMark y).queue.entries := fun hmem => by
  have hne : k ≠ i := by
    rintro rfl
    rw [h.walked_seg] at hk
    exact ho hk
  have hwait := ((queue_walkFromMark hbut.but_one).2 k (by simpa using hne)).1 hmem
  rw [not_queueable (by rw [hk]; rfl)] at hwait
  nomatch hwait

include hentries

/-- Where only a grant is judged, the queue loses the segment if it may not wait, and the segment of a job that is granted (R47, R119, R124). -/
theorem Onward.quiet_queue (ho : o.state ≠ .faulted) (hquiet : Quiet (walkFromMark y))
    (hcase : s.engine.shown ≠ .none ∨ (4 ≤ ms.length ∨ 240 ≤ totalCost ms) ∨ nextOfWalk s a = none) :
    (placed o i (judge (walkFromMark y))).queue.entries = lessGranted s (placed o i (judge (walkFromMark y)))
      (s.queue.entries.filter fun k => k != i || queueable s.engine o) := by
  have hgrant := grants_judgeGrant (walkFromMark y)
  have hqueue : (judge (walkFromMark y)).queue.entries = lessGranted s (judge (walkFromMark y)) y.queue.entries := by
    rw [judge, judgeWork_quiet hquiet, ← h.walked_entries hbut hcase]
    exact hgrant.entries h.walked_conv fun k hk => h.faulted_not_queued hbut ho hk
  rw [lessGranted_congr rfl (placed_reports o i _).conv]
  by_cases hkeeps : KeepsPlace o
  · have hstill : ((judge (walkFromMark y)).seg i) = o := by
      rw [judge, judgeWork_quiet hquiet, hgrant.seg_of_ne (by rw [h.walked_seg, hkeeps.1]; exact (nomatch ·)) (by rw [h.walked_seg, hkeeps.1]; rfl),
        h.walked_seg]
    have hleaves : waiting (judge (walkFromMark y)) i = false := by
      rw [waiting, hstill]
      exact not_queueable (by rw [hkeeps.1]; rfl)
    have hout (e : Engine) : queueable e o = false := not_queueable (by rw [hkeeps.1]; rfl)
    have hall : y.queue.entries = s.queue.entries := by
      rw [hentries]
      exact List.filter_eq_self.2 fun k _ => by simp [hkeeps]
    rw [placed, if_pos hkeeps, entries_sync_tail, tailed, hleaves, hqueue, hall]
    simp only [hout, Bool.or_false]
    exact lessGranted_filter s _ _ _
  · rw [placed, if_neg hkeeps, hqueue, hentries]
    simp only [decide_eq_false hkeeps, Bool.or_false]

/-- With no member and A or B shown a new walk may start, which leaves the entries (R64). -/
theorem Onward.none_queue (ho : o.state ≠ .member) (hms : ms = []) (hshown : s.engine.shown ≠ .none)
    (hend : (4 ≤ ms.length ∨ 240 ≤ totalCost ms) ∨ nextOfWalk s a = none) :
    (placed o i (judge (walkFromMark y))).queue.entries = lessGranted s (placed o i (judge (walkFromMark y)))
      (s.queue.entries.filter fun k => k != i || queueable s.engine o) := by
  have hkeeps : ¬KeepsPlace o := fun hk => ho hk.1
  rw [if_neg hkeeps] at hbut
  rw [placed, if_neg hkeeps, judge_fresh_entries (h.none_asm hend hms) (by rw [h.walked_engine]; exact hshown) (hbut.all).walk,
    lessGranted_congr h.walked_conv rfl, h.walked_entries (by rw [if_neg hkeeps]; exact hbut) (.inr hend), hentries]
  simp only [decide_eq_false hkeeps, Bool.or_false]

end

/-! #### After a drive -/

section
variable {s : State} {a : Assembly} {i : SegNo} {o : Segment} {ms : List Member} {y : State} (h : Onward s a i o ms y)
  (hbut : QueueLawfulBut (if KeepsPlace o then [i] else []) y)
  (hentries : y.queue.entries = s.queue.entries.filter fun k => k != i || decide (KeepsPlace o) || queueable s.engine o)
  (hq : QueueLawful s) (hstate : (s.seg i).state.mayQueue = true) (hlike : ∀ m ∈ ms, m.seg = i → CheckedAlike (s.seg i) o)
  (hmember : ∀ m ∈ ms, (y.seg m.seg).state = .member) (hnew : o.state = .member → i ∈ ms.map Member.seg)
include h hbut hentries hq hstate hlike hmember hnew

/-- The queue that a recheck of the members leaves, by the state before the event (R50, R51, R61, R85; log 30). -/
theorem Onward.recheck_queue (hrun : queuesRun s.engine = true) :
    let back := rejoining s (ms.filter (dropped s))
    let keeps := Config.droppedKeepsPlace && back.contains i
    ((back.filter fun k => !y.queue.entries.contains k) ++
        y.queue.entries.filter fun k => !(ms.map Member.seg).contains k || back.contains k) =
      (back.filter fun k => k != i || !keeps) ++ s.queue.entries.filter fun k => k != i || keeps || queueable s.engine o := by
  intro back keeps
  have hsegs {k : SegNo} (hk : k ∈ ms.map Member.seg) : (y.seg k).state = .member := by
    obtain ⟨m, hm, rfl⟩ := List.mem_map.1 hk
    exact hmember m hm
  have hofback {k : SegNo} (hk : k ∈ back) : k ∈ ms.map Member.seg := by
    obtain ⟨m, hm, rfl⟩ := List.mem_map.1 (List.mem_filter.1 hk).1
    exact List.mem_map_of_mem (List.mem_filter.1 hm).1
  have hself : i ∈ ms.map Member.seg ↔ o.state = .member := by
    refine ⟨fun hi => ?_, hnew⟩
    have hm := hsegs hi
    rwa [h.seg, if_pos rfl] at hm
  have hother {k : SegNo} (hk : k ∈ ms.map Member.seg) (hne : k ≠ i) : k ∉ s.queue.entries := fun hmem => by
    have hwait := (hq.2 k).1 hmem
    have hm := hsegs hk
    rw [h.seg, if_neg hne] at hm
    rw [not_queueable (by rw [hm]; rfl)] at hwait
    nomatch hwait
  have hin {k : SegNo} : k ∈ y.queue.entries ↔ k ∈ s.queue.entries ∧ (k ≠ i ∨ KeepsPlace o ∨ queueable s.engine o = true) := by
    rw [hentries, List.mem_filter]
    simp [or_assoc]
  have hgone (hm : o.state = .member) : queueable s.engine o = false := not_queueable (by rw [hm]; rfl)
  have hstood (hi : i ∈ back) : i ∈ s.queue.entries := by
    have hfree := (List.mem_filter.1 hi).2
    simp only [Bool.and_eq_true, Bool.not_eq_true'] at hfree
    exact (hq.2 i).2 ((queueable_iff _ _).2 ⟨hrun, hstate, hfree.1, hfree.2⟩)
  have hplace (hi : i ∈ back) : KeepsPlace o ↔ Config.droppedKeepsPlace = true := and_iff_right (hself.1 (hofback hi))
  congr 1
  · refine List.filter_congr fun k hk => ?_
    by_cases hki : k = i
    · subst hki
      have hcontains : back.contains k = true := List.contains_iff_mem.2 hk
      have hthere : k ∈ y.queue.entries ↔ Config.droppedKeepsPlace = true := by
        rw [hin, ← hplace hk, hgone (hself.1 (hofback hk))]
        simp [hstood hk]
      rw [Bool.eq_iff_iff]
      simp [keeps, hk, hthere]
    · have hnot : k ∉ y.queue.entries := fun hmem => hother (hofback hk) hki (hin.1 hmem).1
      simp [hki, hnot]
  · rw [hentries, List.filter_filter]
    refine List.filter_congr fun k hk => ?_
    by_cases hki : k = i
    · subst hki
      by_cases hm : o.state = .member
      · have hmem := hself.2 hm
        have hkeeps : decide (KeepsPlace o) = Config.droppedKeepsPlace := by
          rw [Bool.eq_iff_iff, decide_eq_true_iff]
          exact and_iff_right hm
        have hcontains : (ms.map Member.seg).contains k = true := List.contains_iff_mem.2 hmem
        rw [hcontains, hkeeps, hgone hm]
        simp [keeps, Bool.and_comm]
      · have hcontains : (ms.map Member.seg).contains k = false := Bool.eq_false_iff.2 fun hc => hm (hself.1 (List.contains_iff_mem.1 hc))
        have hback : k ∉ back := fun hc => hm (hself.1 (hofback hc))
        have hkeeps : ¬KeepsPlace o := fun hp => hm hp.1
        rw [hcontains, decide_eq_false hkeeps]
        simp [keeps, hback]
    · have hcontains : (ms.map Member.seg).contains k = false := Bool.eq_false_iff.2 fun hc => hother (List.contains_iff_mem.1 hc) hki hk
      have hne : (k != i) = true := bne_iff_ne.2 hki
      rw [hcontains, hne]
      rfl

/-- With A or B shown, the members that the recheck drops, neither held nor suspect, stand at the head (R50, R51, R61, R85; log 30). -/
theorem Onward.drive_queue (hend : (4 ≤ ms.length ∨ 240 ≤ totalCost ms) ∨ nextOfWalk s a = none) (hms : ms ≠ [])
    (hrun : s.engine.state = .running) (hfree : DriveFree s) (hshown : s.engine.shown ≠ .none) :
    let back := rejoining s (ms.filter (dropped s))
    let keeps := Config.droppedKeepsPlace && back.contains i
    (placed o i (judge (walkFromMark y))).queue.entries = lessGranted s (placed o i (judge (walkFromMark y)))
      ((back.filter fun k => k != i || !keeps) ++ s.queue.entries.filter fun k => k != i || keeps || queueable s.engine o) := by
  intro back keeps
  have hasm := h.armed_asm hend hms
  have hshown' : (walkFromMark y).engine.shown ≠ .none := by rw [h.walked_engine]; exact hshown
  have hready : driveReady (walkFromMark y) = true := driveReady_of hasm rfl (by rw [h.walked_engine]; exact hrun) (h.driveFree_iff.2 hfree)
  have hnone := driveStart_asm (walkFromMark y)
  have hengine : (driveStart (walkFromMark y)).engine = (walkFromMark y).engine := still_engine (driveStart_still _)
  have hlawful : QueueLawful (driveStart (walkFromMark y)) := by
    refine driveStart_lawful hasm (queue_walkFromMark hbut) fun k hk => ?_
    split at hk
    next hkeeps =>
      obtain rfl := List.mem_singleton.1 hk
      exact hnew hkeeps.1
    next => nomatch hk
  have hjudged : QueueLawful (judge (walkFromMark y)) := by
    rw [judge_driveStart hready hshown' hnone]
    exact hlawful.judge
  have hplaced : (placed o i (judge (walkFromMark y))).queue.entries = (judge (walkFromMark y)).queue.entries := by
    unfold placed
    split
    · exact sync_lawful hjudged i
    · rfl
  have hnodup : (ms.map Member.seg).Nodup := (h.runs.work.1 _ hasm).1
  have hrun' : queuesRun (walkFromMark y).engine = true := h.runs.runs
  have hqueue := driveStart_queue (ms := ms) hnodup hrun' hasm rfl
  have hfresh := judge_fresh_entries hnone (by rw [hengine]; exact hshown') hlawful
  rw [← judge_driveStart hready hshown' hnone, hqueue, h.walked_entries hbut (.inr hend), h.out_eq hlike hend,
    h.rejoining_eq hlike (h.ended_seg hend) h.walked_engine fun m hm => (List.mem_filter.1 hm).1,
    h.recheck_queue hbut hentries hq hstate hlike hmember hnew (by rw [← h.walked_engine]; exact hrun'),
    lessGranted_congr ((driveStart_conv _).trans h.walked_conv) rfl] at hfresh
  rw [hplaced, hfresh, lessGranted_congr rfl (placed_reports o i _).conv]

end

end Sys2Proof.Machine

/-! ### The event that ends a capture (R15, R34, R66 to R72; O43) -/

namespace Sys2Proof.Machine

/-- The record that an outcome leaves has its dirty mark as it was. -/
theorem captureOutcome_dirty (a : Assembly) (c : Capture) (d : Descriptor) (r : Segment) : (captureOutcome a c d r).1.dirty = r.dirty := by
  rcases captureOutcome_cases a c d r with ⟨-, ho⟩ | ⟨-, -, ho⟩ | ⟨-, -, -, ho⟩ | ⟨-, -, -, -, ho⟩ | ⟨-, -, -, -, ho⟩ <;> rw [ho]

/-- The state after the event of a capture's last read. -/
def captureEnded (s : State) (a : Assembly) (cap : Capture) (buf : Buffer) : State :=
  closeEvent s (placed (endRecord s a cap buf) cap.seg (judge (walkFromMark (walkingFrom s a cap buf))))

section
variable {s : State} {a : Assembly} {cap : Capture} {buf : Buffer}

theorem exec_captureEnd (ha : s.asm = some a) (hc : a.capture = some cap) (hbuf : cap.buffer = buf.shown) (hlen : cap.words.length = 4) :
    exec .captureReadEnd s = .next (captureEnded s a cap buf) := by
  have hexec : exec .captureReadEnd s = .next (closeEvent s (captureReadEnds s)) := rfl
  rw [hexec, captureEnds_eq ha hc hbuf hlen]
  rfl

theorem captureEnded_reports : Reports (judge (walkFromMark (walkingFrom s a cap buf))) (captureEnded s a cap buf) := by
  have hplaced := placed_reports (endRecord s a cap buf) cap.seg (judge (walkFromMark (walkingFrom s a cap buf)))
  exact ⟨fun k => (closeEvent_seg _ _ k).trans (hplaced.seg k), (closeEvent_asm _ _).trans hplaced.asm, (closeEvent_stroke _ _).trans hplaced.stroke,
    (closeEvent_conv _ _).trans hplaced.conv⟩

theorem captureEnded_queue : (captureEnded s a cap buf).queue =
    (placed (endRecord s a cap buf) cap.seg (judge (walkFromMark (walkingFrom s a cap buf)))).queue := closeEvent_queue _ _

/-! #### What the event leaves alone, and the bytes that it has read -/

theorem walkingFrom_still : (walkingFrom s a cap buf).still = (takenRead s a cap buf).still := by
  have hover : (captureOver s a cap buf).still = (takenRead s a cap buf).still :=
    (captured_fields (s := takenRead s a cap buf) (c := lastRead s cap buf) rfl rfl).2.2.2.2.2
  unfold walkingFrom
  split
  · exact hover
  · exact (sync_still .tail cap.seg _).trans hover

/-- What stands at the end of the event, less what its end posts. -/
theorem captureEnded_still : (placed (endRecord s a cap buf) cap.seg (judge (walkFromMark (walkingFrom s a cap buf)))).still =
    (takenRead s a cap buf).still := by
  rw [placed_still, judge_still, walkFromMark_still, walkingFrom_still]

theorem captureEnded_others : (captureEnded s a cap buf).mem = s.mem ∧ OthersKept s (captureEnded s a cap buf) := by
  have hread := byteRead_takenRead s cap buf
  have hbytes : (readBytes buf cap.seg cap.words.length (badNext s buf cap 0) (badNext s buf cap 1) (servedPart .read s)).rim =
      (servedPart .read s).rim := by
    simp only [State.rim, hread.mem, hread.gate, hread.touch, hread.claims, hread.engine, hread.strap, hread.argument, hread.enable, hread.hostRead,
      hread.producer, hread.consumer, hread.pins, hread.pending]
  have htaken : (takenRead s a cap buf).rim = s.rim := hbytes
  exact othersKept_of_rim ((rim_closeEvent _ _).trans ((rim_of_still captureEnded_still).trans htaken))

theorem captureEnded_marks (hw : WorkLawful s) (ha : s.asm = some a) (hc : a.capture = some cap) :
    MarksKept (readRecord s a cap buf) ((captureEnded s a cap buf).seg cap.seg) := by
  have hjudged := allMarksKept_judge (walkFromMark (walkingFrom s a cap buf)) cap.seg
  rw [(onward_walkingFrom (buf := buf) hw ha hc).walked_seg] at hjudged
  rw [captureEnded_reports.seg]
  exact marksKept_trans _ _ _ endRecord_marks hjudged

/-- The bad bytes of the read have marked their cells (R15, R34). -/
theorem captureEnded_marked (hw : WorkLawful s) (ha : s.asm = some a) (hc : a.capture = some cap) (hlen : cap.words.length < 5) :
    CaptureMarked s (captureEnded s a cap buf) buf cap.seg cap.words.length (captureOffset buf cap.seg cap.words.length) := by
  have hmarks := captureEnded_marks (buf := buf) hw ha hc
  have hmask (side : Buffer) : maskOf side ((captureEnded s a cap buf).seg cap.seg) = maskOf side (readRecord s a cap buf) := by
    cases side with
    | a => exact hmarks.2.1
    | b => exact hmarks.2.2.1
  have hevent : isPending (captureEnded s a cap buf) .parity = (isPending s .parity || (badNext s buf cap 0 || badNext s buf cap 1)) := by
    have hread := isPending_readBytes buf cap.seg cap.words.length (badNext s buf cap 0) (badNext s buf cap 1) (servedPart .read s) .parity
    rw [captureEnded, isPending_closeEvent (by exact (nomatch ·)), isPending_of_still captureEnded_still]
    exact hread
  have hbad (h : Nat) : badAt s (captureOffset buf cap.seg cap.words.length) h = badNext s buf cap h := rfl
  rw [CaptureMarked]
  simp only [hbad, hmask, hevent]
  refine ⟨fun k => ?marks, fun other hother => ?others, fun hlow hhigh => ?quiet, fun h hh => ⟨?event, ?detail⟩⟩
  case marks => exact mark_readBytes (badNext s buf cap 0) (badNext s buf cap 1) (servedPart .read s) hlen k
  case others => exact otherMask_readBytes _ _ _ _ _ hother
  case quiet => rw [hlow, hhigh]; simp
  case event =>
    rcases hh with ⟨-, hb⟩ | ⟨-, hb, -⟩
    · rw [hb]; simp
    · rw [hb]; simp
  case detail =>
    have hread := posted_readBytes hlen (badNext s buf cap 0) (badNext s buf cap 1) (servedPart .read s) (buf := buf) (i := cap.seg) (h := h)
      (hh.imp id id)
    have htaken : Posted (takenRead s a cap buf) (PartWord.offset .parityDetail) _ := hread
    have hend := htaken.congr (congrArg (fun p : BusPass => p.posts) (still_bus captureEnded_still))
    have hjudged := hend.congr (congrArg (fun p : BusPass => p.posts) (judgeSettled_bus false s _))
    exact hjudged.closePosts detail_ne_mirror (by decide) (by decide) (by decide) s

/-- A segment still CAPTURING has its mirror word posted (R68 to R72). -/
theorem captureEnded_mirror (hstate : (s.seg cap.seg).state = .capturing) : Posted (captureEnded s a cap buf) (PartWord.offset (.mirror cap.seg))
    (mirrorWord (captureEnded s a cap buf).engine.shown ((captureEnded s a cap buf).seg cap.seg)) := by
  have hover : cap.seg ∈ (captureOver s a cap buf).owed.mirrors := by
    have hread : ((takenRead s a cap buf).seg (lastRead s cap buf).seg).state = .capturing := (takenRead_state cap.seg).trans hstate
    have howed : cap.seg ∈ (captureStore (takenRead s a cap buf)).owed.mirrors := captureStore_owes (c := lastRead s cap buf) rfl rfl hread
    exact howed
  have hwalking : cap.seg ∈ (walkingFrom s a cap buf).owed.mirrors := by
    unfold walkingFrom
    split
    · exact hover
    · rw [sync_mirrors]
      exact hover
  have hjudged := judge_keepsOwed _ _ (walkFromMark_keepsOwed _ _ hwalking)
  refine closeEvent_posts_owed ?_
  unfold placed
  split
  · rw [sync_mirrors]
    exact hjudged
  · exact hjudged

end

/-! #### The members -/

section
variable {s : State} {a : Assembly} {cap : Capture} {buf : Buffer}

theorem endRecord_capturing (hstate : (s.seg cap.seg).state = .capturing) : endRecord s a cap buf =
    (captureOutcome a (lastRead s cap buf) s.engine.copy (readRecord s a cap buf)).1 :=
  capturedRecord_capturing (readRecord_state.trans hstate)

theorem endMembers_eq : endMembers s a cap buf = a.members ++ if (s.seg cap.seg).state = .capturing then
    (captureOutcome a (lastRead s cap buf) s.engine.copy (readRecord s a cap buf)).2.toList else [] := by
  rw [endMembers, capturedMember, readRecord_state]

theorem endRecord_moved (hstate : (s.seg cap.seg).state ≠ .capturing) : endRecord s a cap buf =
    staleIfUnclean { readRecord s a cap buf with target := movedTarget (lastRead s cap buf) s.engine.copy (readRecord s a cap buf) } :=
  capturedRecord_moved (fun h => hstate (readRecord_state.symm.trans h))

/-- A member that the capture has made is rechecked as its segment was before the event (R85). -/
theorem endRecord_alike (hw : WorkLawful s) (hclean : CleanLawful s) (ha : s.asm = some a) (hc : a.capture = some cap) {m : Member}
    (hm : m ∈ endMembers s a cap buf) (hi : m.seg = cap.seg) : CheckedAlike (s.seg cap.seg) (endRecord s a cap buf) := by
  have hfree := (hclean.2.2.1 a cap ha hc).1
  rcases List.mem_append.1 hm with hm | hm
  · have hstate := (hw.1 a ha).2.1 m hm
    rw [hi] at hstate
    exact absurd hstate hfree
  · obtain ⟨-, hmember, -⟩ := capturedMember_spec hm
    have hsame := (takenRead_good hmember hfree).2.2
    have hmarks := endRecord_marks (s := s) (a := a) (cap := cap) (buf := buf)
    have hstate : (s.seg cap.seg).state = .capturing := by
      by_contra hmoved
      rw [capturedMember_moved (fun h => hmoved (readRecord_state.symm.trans h))] at hm
      nomatch hm
    have hdirty : (endRecord s a cap buf).dirty = (readRecord s a cap buf).dirty := by
      rw [endRecord_capturing hstate, captureOutcome_dirty]
    rw [hsame] at hmarks hdirty
    exact ⟨hmarks.1, hmarks.2.1, hmarks.2.2.1, hdirty⟩

/-- The record is a member's exactly when the capture has made its segment one. -/
theorem endMembers_new (hclean : CleanLawful s) (ha : s.asm = some a) (hc : a.capture = some cap)
    (ho : (endRecord s a cap buf).state = .member) : cap.seg ∈ (endMembers s a cap buf).map Member.seg := by
  have hfree := (hclean.2.2.1 a cap ha hc).1
  have hstate : (s.seg cap.seg).state = .capturing := by
    by_contra hmoved
    rw [endRecord_moved hmoved, staleIfUnclean] at ho
    dsimp only at ho
    split at ho
    · nomatch ho
    · exact hfree (readRecord_state.symm.trans ho)
  rw [endRecord_capturing hstate] at ho
  obtain ⟨m, hm⟩ := Option.ne_none_iff_exists'.1 (captureOutcome_member_iff.1 ho)
  rw [endMembers_eq, if_pos hstate, hm, List.map_append]
  exact List.mem_append_right _ (List.mem_singleton.2 (captureOutcome_member hm).1.symm)

/-- A segment that has moved on stays in its state, but that a CLEAN one may become STALE (R41, R74; log 26). -/
theorem endRecord_moved_state (hstate : (s.seg cap.seg).state ≠ .capturing) : (endRecord s a cap buf).state = (s.seg cap.seg).state ∨
    (s.seg cap.seg).state = .clean ∧ (endRecord s a cap buf).state = .stale := by
  rw [endRecord_moved hstate, ← readRecord_state (a := a) (buf := buf)]
  exact staleIfUnclean_state _

theorem endRecord_moved_member (hclean : CleanLawful s) (ha : s.asm = some a) (hc : a.capture = some cap)
    (hstate : (s.seg cap.seg).state ≠ .capturing) : (endRecord s a cap buf).state ≠ .member := fun hm => by
  rcases endRecord_moved_state hstate with hsame | ⟨-, hstale⟩
  · exact (hclean.2.2.1 a cap ha hc).1 (hsame.symm.trans hm)
  · rw [hstale] at hm
    nomatch hm

theorem endRecord_ended (hstate : (s.seg cap.seg).state = .capturing) : (endRecord s a cap buf).state = .clean ∨
    (endRecord s a cap buf).state = .stale ∨ (endRecord s a cap buf).state = .member := by
  rw [endRecord_capturing hstate]
  exact captureOutcome_state

/-- The member that the capture makes is of its segment, and among the members. -/
theorem endMembers_made (hstate : (s.seg cap.seg).state = .capturing) {m : Member}
    (hm : (captureOutcome a (lastRead s cap buf) s.engine.copy (readRecord s a cap buf)).2 = some m) :
    m ∈ endMembers s a cap buf ∧ m.seg = cap.seg := by
  rw [endMembers_eq, if_pos hstate, hm]
  exact ⟨List.mem_append_right _ (List.mem_singleton.2 rfl), (captureOutcome_member hm).1⟩

theorem endRecord_unmade (hstate : (s.seg cap.seg).state = .capturing)
    (hno : (captureOutcome a (lastRead s cap buf) s.engine.copy (readRecord s a cap buf)).2 = none) : (endRecord s a cap buf).state ≠ .member := by
  rw [endRecord_capturing hstate]
  exact fun hm => captureOutcome_member_iff.1 hm hno

end

/-! #### The queue after the event -/

section
variable {s : State} {a : Assembly} {cap : Capture} {buf : Buffer}

theorem captureEnded_place {l : List SegNo}
    (hl : (placed (endRecord s a cap buf) cap.seg (judge (walkFromMark (walkingFrom s a cap buf)))).queue.entries =
      lessGranted s (placed (endRecord s a cap buf) cap.seg (judge (walkFromMark (walkingFrom s a cap buf)))) l) :
    (captureEnded s a cap buf).queue.entries = lessGranted s (captureEnded s a cap buf) l := by
  rw [captureEnded_queue, hl]
  exact lessGranted_congr rfl (closeEvent_conv _ _).symm l

variable (hw : WorkLawful s) (ha : s.asm = some a) (hc : a.capture = some cap) (hstate : (s.seg cap.seg).state = .capturing) (hq : QueueLawful s)
include hw ha hc hstate hq

theorem captureEnded_quiet_queue (hquiet : Quiet (walkFromMark (walkingFrom s a cap buf)))
    (hcase : s.engine.shown ≠ .none ∨ (4 ≤ (endMembers s a cap buf).length ∨ 240 ≤ totalCost (endMembers s a cap buf)) ∨ nextOfWalk s a = none) :
    (captureEnded s a cap buf).queue.entries = lessGranted s (captureEnded s a cap buf)
      (s.queue.entries.filter fun k => k != cap.seg || queueable s.engine (endRecord s a cap buf)) := by
  obtain ⟨hbut, hentries⟩ := walkingFrom_queue (buf := buf) hq hw ha hc hstate
  refine captureEnded_place ((onward_walkingFrom hw ha hc).quiet_queue hbut hentries (fun hfaulted => ?_) hquiet hcase)
  have hended := endRecord_ended (a := a) (buf := buf) hstate
  rw [hfaulted] at hended
  simp at hended

variable (hclean : CleanLawful s)
  (hend : (4 ≤ (endMembers s a cap buf).length ∨ 240 ≤ totalCost (endMembers s a cap buf)) ∨ nextOfWalk s a = none)
include hclean hend

/-- The queue where the walk ends with no member. -/
theorem captureEnded_none_queue (hms : endMembers s a cap buf = []) (hcase : s.engine.state = .paused ∨ s.engine.shown ≠ .none) :
    (captureEnded s a cap buf).queue.entries = lessGranted s (captureEnded s a cap buf)
      (s.queue.entries.filter fun k => k != cap.seg || queueable s.engine (endRecord s a cap buf)) := by
  have hon := onward_walkingFrom (buf := buf) hw ha hc
  rcases hcase with hpaused | hshown
  · exact captureEnded_quiet_queue hw ha hc hstate hq (hon.paused captureEnded_reports hpaused).1 (.inr hend)
  · obtain ⟨hbut, hentries⟩ := walkingFrom_queue (buf := buf) hq hw ha hc hstate
    refine captureEnded_place (hon.none_queue hbut hentries (fun hm => ?_) hms hshown hend)
    have hnew := endMembers_new (buf := buf) hclean ha hc hm
    rw [hms] at hnew
    nomatch hnew

/-- The queue where a drive is free to start (R50, R51, R61, R85; log 30). -/
theorem captureEnded_drive_queue (hrun : s.engine.state = .running) (hfree : DriveFree s) (hshown : s.engine.shown ≠ .none) :
    let back := rejoining s ((endMembers s a cap buf).filter (dropped s))
    let keeps := Config.droppedKeepsPlace && back.contains cap.seg
    (captureEnded s a cap buf).queue.entries = lessGranted s (captureEnded s a cap buf)
      ((back.filter fun k => k != cap.seg || !keeps) ++
        s.queue.entries.filter fun k => k != cap.seg || keeps || queueable s.engine (endRecord s a cap buf)) := by
  intro back keeps
  have hon := onward_walkingFrom (buf := buf) hw ha hc
  by_cases hms : endMembers s a cap buf = []
  · have hback : back = [] := by
      show rejoining s ((endMembers s a cap buf).filter (dropped s)) = []
      rw [hms]
      rfl
    have hkeeps : keeps = false := by
      show (Config.droppedKeepsPlace && back.contains cap.seg) = false
      rw [hback]
      exact Bool.and_false _
    rw [hback, hkeeps]
    simp only [Bool.or_false]
    exact captureEnded_none_queue hw ha hc hstate hq hclean hend hms (.inr hshown)
  · obtain ⟨hbut, hentries⟩ := walkingFrom_queue (buf := buf) hq hw ha hc hstate
    exact captureEnded_place (hon.drive_queue hbut hentries hq (by rw [hstate]; rfl) (fun m => endRecord_alike hw hclean ha hc)
      (hon.work.work.1 _ hon.asm).2.1 (endMembers_new hclean ha hc) hend hms hrun hfree hshown)

end

end Sys2Proof.Machine

/-! ### The last read of a capture, and the walk that goes on or ends (R41, R56, R63 to R74, R84 to R87; O43) -/

namespace Sys2Proof.Machine

/-- With no job a segment stands as it was left. -/
theorem OrSensing.idle {t : State} {i : SegNo} {r : Segment} (h : OrSensing t i r) (hjob : t.conv.job = none) : t.seg i = r := by
  rcases h with h | ⟨-, j, hj, -⟩
  · exact h
  · rw [hjob] at hj
    nomatch hj

/-! #### The new member in a drive -/

/-- The state of a segment that a capture has left, with the member that it has made, after a recheck of the record (R85, R87). -/
def recheckedState (s : State) (o : Segment) (made : Option Member) : SegState :=
  made.elim o.state fun m => if dropped s m then .stale else .moving

theorem recheckedState_eq (s : State) (o : Segment) (made : Option Member) : recheckedState s o made =
    match made with
    | none => o.state
    | some m => if dropped s m then .stale else .moving := by
  cases made <;> rfl

section
variable {s : State} {a : Assembly} {i : SegNo} {o : Segment} {ms : List Member} {y t : State} (h : Onward s a i o ms y)
  (hlike : ∀ m ∈ ms, m.seg = i → CheckedAlike (s.seg i) o)
  (hend : (4 ≤ ms.length ∨ 240 ≤ totalCost ms) ∨ nextOfWalk s a = none) (hms : ms ≠ [])
  (ht : Reports (judge (walkFromMark y)) t) (hrun : s.engine.state = .running) (hfree : DriveFree s) (hshown : s.engine.shown ≠ .none)
  {made : Option Member} (hnone : made = none → o.state ≠ .member) (hsome : ∀ m, made = some m → m ∈ ms ∧ m.seg = i)
include h hlike hend hms ht hrun hfree hshown hnone hsome

/-- With some members left to drive, the new one is driven, or dropped and perhaps captured anew; a segment that is none is as the capture has
left it, or captured anew. -/
theorem Onward.new_driven (hkept : keptMembers s ms ≠ []) : t.seg i = { o with state := recheckedState s o made } ∨
    recheckedState s o made = .stale ∧ Recaptured t i { o with state := recheckedState s o made } := by
  obtain ⟨-, hsegs, -, hconv⟩ := h.drives hlike hend hms ht hrun hfree hkept
  have hjob : t.conv.job = none := by
    rw [hconv]
    exact hfree.2.2.2
  cases made with
  | none => exact (h.shown ht hshown (hnone rfl)).imp (fun hi => hi.idle hjob) id
  | some m =>
    obtain ⟨hm, rfl⟩ := hsome m rfl
    have hself : y.seg m.seg = o := (h.seg m.seg).trans (if_pos rfl)
    by_cases hout : dropped s m = true
    · have hstale : recheckedState s o (some m) = .stale := if_pos hout
      have hdropped := h.drops hlike hend hms ht hrun hfree hshown hm hout
      rw [hself] at hdropped
      rw [hstale]
      exact hdropped.imp (fun hi => hi.idle hjob) fun hi => ⟨rfl, hi⟩
    · have hmoving : recheckedState s o (some m) = .moving := if_neg hout
      have hmoves := hsegs { m with touched := false } ((mem_kept ms).2 ⟨m, hm, Bool.eq_false_iff.2 hout, rfl⟩)
      rw [hmoving]
      left
      rw [← hself]
      exact hmoves

/-- With no member left to drive, the new one is dropped. -/
theorem Onward.new_dropped (hkept : keptMembers s ms = []) : OrSensing t i { o with state := if made = none then o.state else .stale } ∨
    (if made = none then o.state else .stale) = .stale ∧ Recaptured t i { o with state := if made = none then o.state else .stale } := by
  cases made with
  | none => exact h.shown ht hshown (hnone rfl)
  | some m =>
    obtain ⟨hm, rfl⟩ := hsome m rfl
    have hself : y.seg m.seg = o := (h.seg m.seg).trans (if_pos rfl)
    have hout : dropped s m = true := by
      by_contra hin
      have hmem := (mem_kept ms).2 ⟨m, hm, Bool.eq_false_iff.2 hin, rfl⟩
      rw [hkept] at hmem
      nomatch hmem
    have hdropped := h.drops hlike hend hms ht hrun hfree hshown hm hout
    rw [hself] at hdropped
    exact hdropped.imp id fun hi => ⟨rfl, hi⟩

end

end Sys2Proof.Machine

namespace Sys2Proof

open Machine in
/-- Settles O43: the event stores the capture's outcome and lets the walk go on (`Onward`); what new work makes of that state is judged by where
the walk comes to. -/
theorem captureEnds : Obligations.CaptureEnds := by
  unfold Obligations.CaptureEnds
  intro s a cap buf hw hclean ha hc hbuf hlen off c r
  have hoff : captureOffset buf cap.seg cap.words.length = off := by
    rw [hlen]
    rfl
  have hbad (h : Nat) : badNext s buf cap h = badAt s off h := by
    rw [← hoff]
    rfl
  have hlast : lastRead s cap buf = c := by
    rw [lastRead, hoff, hbad, hbad]
    rfl
  have hon := onward_walkingFrom (buf := buf) hw ha hc
  have hrep := captureEnded_reports (s := s) (a := a) (cap := cap) (buf := buf)
  obtain ⟨hmem, hothers⟩ := captureEnded_others (s := s) (a := a) (cap := cap) (buf := buf)
  have hmarked := captureEnded_marked (buf := buf) hw ha hc (by omega)
  rw [hoff, hlen] at hmarked
  have hmarks := captureEnded_marks (buf := buf) hw ha hc
  have hlike := fun m => endRecord_alike (buf := buf) hw hclean ha hc (m := m)
  refine ⟨_, exec_captureEnd ha hc hbuf hlen, hothers, hmem, hmarked, captureEnded_mirror, ?_⟩
  intro u out target v moved
  have hu : u = readRecord s a cap buf := by
    rw [readRecord_eq, ← hmarks.2.1, ← hmarks.2.2.1]
  have hout : out = captureOutcome a (lastRead s cap buf) s.engine.copy (readRecord s a cap buf) := by
    rw [hlast, ← hu]
  have hoc : r.state = .capturing → endRecord s a cap buf = out.1 := fun hstate => by
    rw [hout]
    exact endRecord_capturing hstate
  have htarget : movedTarget c s.engine.copy u = target := by
    have hshown : c.buffer ≠ .none := by
      rw [show c.buffer = buf.shown from hbuf]
      cases buf with
      | a => exact (nomatch ·)
      | b => exact (nomatch ·)
    rw [movedTarget, Capture.target, if_neg hshown]
  have hmv : r.state ≠ .capturing → endRecord s a cap buf = moved := fun hstate => by
    rw [endRecord_moved hstate, hlast, ← hu, htarget]
    rfl
  refine ⟨fun hpaused hsense => ?paused, fun hst => ?apart, fun hst hshown => ?shown, fun hact hopen => ?walk⟩
  case paused =>
    obtain ⟨-, hstroke, hkept⟩ := hon.paused hrep hpaused
    refine ⟨hstroke, fun hstate => ⟨?_, fun m hm => hkept m ?_⟩, fun hst => ?_⟩
    · rw [← hoc hstate]
      refine hon.paused_seg hrep hpaused hsense fun hunsure => ?_
      have hended := endRecord_ended (a := a) (buf := buf) hstate
      rw [hunsure] at hended
      simp at hended
    · exact (endMembers_made hstate (by rw [← hout]; exact hm)).1
    · have hne : r.state ≠ .capturing := by rcases hst with h | h <;> rw [h] <;> exact (nomatch ·)
      rw [← hmv hne]
      refine hon.paused_seg hrep hpaused hsense fun hunsure => ?_
      rcases endRecord_moved_state (a := a) (buf := buf) hne with hsame | ⟨-, hstale⟩
      · have hst' : r.state = .unsure := hsame.symm.trans hunsure
        rw [hst'] at hst
        simp at hst
      · rw [hstale] at hunsure
        nomatch hunsure
  case apart =>
    have hne : r.state ≠ .capturing := by rcases hst with h | h | h <;> rw [h] <;> exact (nomatch ·)
    have hsame : (endRecord s a cap buf).state = r.state := (endRecord_moved_state hne).resolve_right fun hcl => by
      have hcl' : r.state = .clean := hcl.1
      rw [hcl'] at hst
      simp at hst
    rw [← hmv hne]
    refine hon.apart hrep ?_ (endRecord_moved_member hclean ha hc hne)
    rw [hsame]
    rcases hst with h | h | h <;> rw [h] <;> exact (nomatch ·)
  case shown =>
    have hne : r.state ≠ .capturing := by rcases hst with h | h <;> rw [h] <;> exact (nomatch ·)
    rw [← hmv hne]
    exact hon.shown hrep hshown (endRecord_moved_member hclean ha hc hne)
  case walk =>
    intro ms full drives leftQueue
    have hms : ms = endMembers s a cap buf := by
      rw [endMembers_eq, ← hout]
    have hquiet := fun hstate hq => captureEnded_quiet_queue (buf := buf) hw ha hc hstate hq
    have hnone := fun hstate hq => captureEnded_none_queue (buf := buf) hw ha hc hstate hq hclean
    have hdrive := fun hstate hq => captureEnded_drive_queue (buf := buf) hw ha hc hstate hq hclean
    rw [← hms] at hon hlike hquiet hnone hdrive
    have hunmade : r.state = .capturing → out.2 = none → (endRecord s a cap buf).state ≠ .member := fun hstate hno =>
      endRecord_unmade hstate (by rw [← hout]; exact hno)
    have hmade : r.state = .capturing → ∀ m, out.2 = some m → m ∈ ms ∧ m.seg = cap.seg := fun hstate m hm => by
      rw [hms]
      exact endMembers_made hstate (by rw [← hout]; exact hm)
    have hleft : r.state = .capturing → leftQueue = s.queue.entries.filter fun k => k != cap.seg || queueable s.engine (endRecord s a cap buf) :=
      fun hstate => by rw [hoc hstate]
    refine ⟨fun hfull hshown k hk => ?further, fun hend => ⟨fun hne hdrives => ?armed, fun hne hdrives hkept => ?driven,
      fun hne hdrives hkept hshown => ?dropped, fun hdrives hstate hshown hq => ?driveQueue, fun hno hpaused => ?nonePaused,
      fun hno hrun hshown => ?noneRunning, fun hno hstate hcase hq => ?noneQueue⟩⟩
    case further =>
      obtain ⟨hasm, hseg, hstroke, hi⟩ := hon.further hopen hfull hshown hk hrep
      refine ⟨hasm, hseg, hstroke, fun hstate => ⟨?_, fun hq => ?_⟩⟩
      · rw [← hoc hstate]
        exact hi
      · rw [hleft hstate]
        exact hquiet hstate hq (hon.further_quiet hopen hfull hshown hk) (.inl hshown)
    case armed =>
      obtain ⟨hstroke, hasm, hi⟩ := hon.armed hend hne hrep hdrives
      refine ⟨hstroke, hasm, fun hstate => ⟨?_, fun hq => ?_⟩⟩
      · rw [← hoc hstate]
        exact hi
      · rw [hleft hstate]
        exact hquiet hstate hq (hon.armed_quiet hend hne hdrives) (.inr hend)
    case driven =>
      obtain ⟨hrun, hfree⟩ := hdrives
      obtain ⟨hstroke, hsegs, hlink, -⟩ := hon.drives hlike hend hne hrep hrun hfree hkept
      refine ⟨hstroke, fun m hm => by rw [hsegs m hm], hlink, fun hstate hshown => ?_⟩
      have hi := hon.new_driven hlike hend hne hrep hrun hfree hshown (hunmade hstate) (hmade hstate) hkept
      rw [hoc hstate, recheckedState_eq] at hi
      exact hi
    case dropped =>
      obtain ⟨hrun, hfree⟩ := hdrives
      obtain ⟨hstroke, hasm⟩ := hon.allDropped hlike hend hne hrep hrun hfree hkept hshown
      refine ⟨hstroke, hasm, fun hstate => ?_⟩
      have hi := hon.new_dropped hlike hend hne hrep hrun hfree hshown (hunmade hstate) (hmade hstate) hkept
      rw [hoc hstate] at hi
      exact hi
    case driveQueue =>
      obtain ⟨hrun, hfree⟩ := hdrives
      have hl := hdrive hstate hq hend hrun hfree hshown
      rw [hoc hstate] at hl
      exact hl
    case nonePaused =>
      obtain ⟨hasm, hstroke, hi⟩ := hon.none_paused hend hrep hno hpaused
      refine ⟨hasm, hstroke, fun hstate => ?_⟩
      rw [← hoc hstate]
      exact hi
    case noneRunning =>
      obtain ⟨hstroke, hasm, hi⟩ := hon.none_shown hend hrep hno hshown
      refine ⟨hstroke, hasm, fun hstate => ?_⟩
      rw [← hoc hstate]
      exact hi
    case noneQueue =>
      rw [hleft hstate]
      exact hnone hstate hq hend hno hcase

end Sys2Proof
